-- ==== Sys2Proof/Word.lean ====
section
/-!
DEFINITION. Sys2Proof/Word.lean: the word types of the ZX9 and their plainest arithmetic (spec 04 R58, 05, 10 R203).
-/

namespace Sys2Proof

/-- A scalar register's 64 bits (spec 05). -/
abbrev Word := BitVec 64

/-- One 32-bit half of a fetch word (spec 04, R58). -/
abbrev Half := BitVec 32

/-- A byte of memory. -/
abbrev Byte := BitVec 8

/-- A vector register or a queue entry: 1,024 bits (spec 10, R202). -/
abbrev VReg := BitVec 1024

/-- The scalar 1 or 0 of a truth value. -/
def boolBit (b : Bool) : BitVec 1 := if b then 1#1 else 0#1

/-- Bits `hi` down to `lo` of a natural number, as a natural number. -/
def natBits (x hi lo : Nat) : Nat := (x >>> lo) % 2 ^ (hi + 1 - lo)

/-- Sign-extension of the low `n` bits of a natural number to an integer. -/
def natSigned (n x : Nat) : Int :=
  let y := x % 2 ^ n
  if 2 * y < 2 ^ n then (y : Int) else (y : Int) - (2 ^ n : Nat)

/-- Clamp of an integer to an interval (spec 10, R207). -/
def clampInt (x lo hi : Int) : Int := if x < lo then lo else if hi < x then hi else x

/-- The integer of `n` bits, two's complement, as a natural number. -/
def intToNat (n : Nat) (x : Int) : Nat := (x % ((2 ^ n : Nat) : Int)).toNat

end Sys2Proof
end

