-- ==== Sys2Proof/Config.lean ====
section
/-!
DEFINITION. Sys2Proof/Config.lean: what the spec leaves open. A free value is an opaque constant without a body, so
no proof can see it; notes/assumptions names each.
-/

namespace Sys2Proof.Config

/-- DESIGN CHOICE (log 9): the result VMATH picks for an operation code and an operand, the same on every core;
the model uses it where it lies within the bound of Table 10.5 (R222). -/
opaque vmathPick : Nat → BitVec 32 → BitVec 32

/-- DESIGN CHOICE (log 8): the content hash of a line (R294); no value a read returns depends on it. -/
opaque contentHash : VReg → BitVec 64

/-- DESIGN CHOICE (log 8): the set within a slice that holds a line's tag (R287), by line number. -/
opaque tagSet : Nat → BitVec 13

/-- DESIGN CHOICE (log 8): the data slice [21:13] and data set [12:0] that a content hash selects (R294). -/
opaque dataSet : BitVec 64 → BitVec 22

/-- DESIGN CHOICE (log 15): the XS bit of CAUSE for a fault raised in both streams (Table 8.2), by the time and the core's
order number. -/
opaque jointXs : Nat → Nat → Bool

/-- DESIGN CHOICE (log 15): EADDR for a fault whose rule names no value of it, by the time and the core's order number. -/
opaque openEaddr : Nat → Nat → BitVec 64

/-- DESIGN CHOICE (log 16): how many bytes an item of a record takes in its record area (R414), by the item's kind. -/
opaque recordItemBytes : Nat → Nat

/-- DESIGN CHOICE (log 16): those bytes, as a little-endian number, by the item's kind and contents. -/
opaque recordItemValue : List Nat → Nat

/-- DESIGN CHOICE (log 17): a partition's ready queue that holds one ready item more than this is full (R165). -/
opaque readyQueueSize : Nat

/-- DESIGN CHOICE (log 18): the order in which an engine command accesses its elements, by the command's order number and
the element's (R53, R273). -/
opaque elemKey : Nat → Nat → Nat

/-- DESIGN CHOICE (log 18): an element of COPYS whose hulls overlap takes its source from before the command (R280), by the
command's order number and the element's. -/
opaque elemFromOld : Nat → Nat → Bool

/-- DESIGN CHOICE (log 18): an aligned 8-byte part of a failed command's destination holds its final value (R284, R377),
by the command's order number and the part. -/
opaque partDone : Nat → Nat → Bool

/-- DESIGN CHOICE (log 20): the core number in a NaN that a reduction round creates from infinities of both signs (R372), by
the group and the element. -/
opaque roundCore : Nat → Nat → BitVec 13

/-- What an 8-byte part of a scratchpad holds once an uncorrectable error has struck it, by the time and the part (R413; log 44). -/
opaque lostData : Nat → Nat → BitVec 64

/-- Whether the registers of a strand that the dock loop enters hold what the same strand left there, rather than zero
(R155; log 22). -/
opaque dockKeeps : Nat → Nat → Bool

/-- The order in which free cores are chosen for islands (R334, R379; log 23). -/
opaque placeKey : Nat → Nat → Nat

/-- The Verbor public key (R139, R150; log 24). -/
opaque verborKey : Nat

/-- DESIGN CHOICE (log 53): the package that an endpoint index of a scale-out port reaches, by the sending package, the port
and the index (R386). -/
opaque endpointPackage : Nat → Nat → Nat → Nat

/-- DESIGN CHOICE (log 86): the cause in the STATUS of a strand whose record the scheduler refuses as bad (R19, R21). -/
opaque badRecordCause : BitVec 8

/-- DESIGN CHOICE (log 110): the package at the other end of a link of a package (R367). -/
opaque linkPeer : Nat → Nat → Nat

/-- DESIGN CHOICE (log 25): where the 64 KiB region of a context's plug-in begins (R390). -/
opaque pluginRegion : Nat → Word

/-- DESIGN CHOICE (log 26): what the host reads from a register of a context's page, or of the PF, of which the spec gives no
value, by the time and the offset (R392). -/
opaque pageValue : Nat → Nat → Nat

/-- DESIGN CHOICE (log 109): what the firmware of a control core leaves in a register of it (R390), by the core, how many times
its firmware has run, and the register: 0 the pc, 1 to 31 x1 to x31, 32 the reservation, 4096 + n the CSR n. -/
opaque ctlReg : Nat → Nat → Nat → BitVec 64

/-- DESIGN CHOICE (log 109): the byte that a plug-in stores to its 64 KiB (R390), by the same count and the offset. -/
opaque pluginByte : Nat → Nat → Nat → BitVec 8

/-- Whether a policy plug-in advises a context (R390; log 25). -/
opaque hasPlugin : Nat → Bool

/-- The bank that holds the first 2 KiB block of a stack; the next blocks lie in the next banks (R251; log 28). -/
opaque firstBank : Nat → Nat

end Sys2Proof.Config
end

