-- ==== Sys2Proof/Syntax.lean ====
section
/-!
DEFINITION. Sys2Proof/Syntax.lean: every row of the ZX9's opcode table as one constructor of `Instr`.
A row with an encoding carries its fields at their exact widths (spec 04, R67 to R79).
A row without one is an event of a device's engine: its operands say what the event's agent chooses.
-/
namespace Sys2Proof

/-- How the host reaches device memory (22, R406): the function whose memory space it uses (0 the PF, p + 1 partition p's VF),
and whether it writes. -/
structure HostAccess where
  fn : Nat
  isWrite : Bool
  deriving DecidableEq, Repr

/-- A rack launch packet (18, R362) as it arrives: its 160 bytes, and what its context's plug-in advises for it (22, R390). -/
structure RackPacket where
  bytes : Nat
  advice : Nat
  prio : Nat
  deriving DecidableEq, Repr

/-- The instructions and device events of the ZX9, one constructor per row of the opcode table. -/
inductive Instr where
  /-- ADD (R93): Writes the sum of two registers, modulo 2^64. -/
  | add (d : BitVec 5) (a : BitVec 5) (b : BitVec 5)
  /-- SUB (R93): Writes the difference of two registers, modulo 2^64. -/
  | sub (d : BitVec 5) (a : BitVec 5) (b : BitVec 5)
  /-- AND (R93): Writes the bitwise AND of two registers. -/
  | and (d : BitVec 5) (a : BitVec 5) (b : BitVec 5)
  /-- OR (R93): Writes the bitwise OR of two registers. -/
  | or (d : BitVec 5) (a : BitVec 5) (b : BitVec 5)
  /-- XOR (R93): Writes the bitwise XOR of two registers. -/
  | xor (d : BitVec 5) (a : BitVec 5) (b : BitVec 5)
  /-- SHL (R93): Shifts a left by b[5:0]. -/
  | shl (d : BitVec 5) (a : BitVec 5) (b : BitVec 5)
  /-- SHR (R93): Shifts a right by b[5:0], filling with zeros. -/
  | shr (d : BitVec 5) (a : BitVec 5) (b : BitVec 5)
  /-- SRA (R93): Shifts a right by b[5:0], filling with copies of the sign bit. -/
  | sra (d : BitVec 5) (a : BitVec 5) (b : BitVec 5)
  /-- MIN (R93): Writes the signed minimum of two registers. -/
  | min (d : BitVec 5) (a : BitVec 5) (b : BitVec 5)
  /-- MAX (R93): Writes the signed maximum of two registers. -/
  | max (d : BitVec 5) (a : BitVec 5) (b : BitVec 5)
  /-- MINN (R93): Writes the natural minimum of two registers. -/
  | minn (d : BitVec 5) (a : BitVec 5) (b : BitVec 5)
  /-- MAXN (R93): Writes the natural maximum of two registers. -/
  | maxn (d : BitVec 5) (a : BitVec 5) (b : BitVec 5)
  /-- MUL (R93): Writes the low 64 bits of the product. -/
  | mul (d : BitVec 5) (a : BitVec 5) (b : BitVec 5)
  /-- MULH (R93): Writes the high 64 bits of the signed product. -/
  | mulh (d : BitVec 5) (a : BitVec 5) (b : BitVec 5)
  /-- MULHN (R93): Writes the high 64 bits of the natural product. -/
  | mulhn (d : BitVec 5) (a : BitVec 5) (b : BitVec 5)
  /-- DIV (R94): Writes the signed quotient rounded towards zero, without trapping. -/
  | div (d : BitVec 5) (a : BitVec 5) (b : BitVec 5)
  /-- DIVN (R94): Writes the natural quotient, without trapping. -/
  | divn (d : BitVec 5) (a : BitVec 5) (b : BitVec 5)
  /-- REM (R94): Writes the signed remainder, without trapping. -/
  | rem (d : BitVec 5) (a : BitVec 5) (b : BitVec 5)
  /-- REMN (R94): Writes the natural remainder, without trapping. -/
  | remn (d : BitVec 5) (a : BitVec 5) (b : BitVec 5)
  /-- SHADD1 (R93): Writes (a shifted left by 1) + b. -/
  | shadd1 (d : BitVec 5) (a : BitVec 5) (b : BitVec 5)
  /-- SHADD2 (R93): Writes (a shifted left by 2) + b. -/
  | shadd2 (d : BitVec 5) (a : BitVec 5) (b : BitVec 5)
  /-- SHADD3 (R93): Writes (a shifted left by 3) + b. -/
  | shadd3 (d : BitVec 5) (a : BitVec 5) (b : BitVec 5)
  /-- ANDN (R93): Writes a AND NOT b. -/
  | andn (d : BitVec 5) (a : BitVec 5) (b : BitVec 5)
  /-- ADDI (R95): Adds a sign-extended 14-bit immediate to a register. -/
  | addi (d : BitVec 5) (a : BitVec 5) (i : BitVec 14)
  /-- ANDI (R95): ANDs a register with a sign-extended 14-bit immediate. -/
  | andi (d : BitVec 5) (a : BitVec 5) (i : BitVec 14)
  /-- ORI (R95): ORs a register with a sign-extended 14-bit immediate. -/
  | ori (d : BitVec 5) (a : BitVec 5) (i : BitVec 14)
  /-- XORI (R95): XORs a register with a sign-extended 14-bit immediate. -/
  | xori (d : BitVec 5) (a : BitVec 5) (i : BitVec 14)
  /-- SHLI (R95): Shifts a register left by an immediate count. -/
  | shli (d : BitVec 5) (a : BitVec 5) (s : BitVec 6)
  /-- SHRI (R95): Shifts a register right with zeros by an immediate count. -/
  | shri (d : BitVec 5) (a : BitVec 5) (s : BitVec 6)
  /-- SRAI (R95): Shifts a register right arithmetically by an immediate count. -/
  | srai (d : BitVec 5) (a : BitVec 5) (s : BitVec 6)
  /-- LUI (R95): Loads a sign-extended 19-bit immediate shifted left by 13. -/
  | lui (d : BitVec 5) (i : BitVec 19)
  /-- INSH (R95): Replaces one 16-bit half-word of a register with an immediate. -/
  | insh (d : BitVec 5) (h : BitVec 2) (i : BitVec 16)
  /-- CLZ (R96): Counts leading zero bits, giving 64 for zero. -/
  | clz (d : BitVec 5) (a : BitVec 5)
  /-- CTZ (R96): Counts trailing zero bits, giving 64 for zero. -/
  | ctz (d : BitVec 5) (a : BitVec 5)
  /-- POPC (R96): Counts the one bits of a register. -/
  | popc (d : BitVec 5) (a : BitVec 5)
  /-- BSWAP (R96): Reverses the eight bytes of a register. -/
  | bswap (d : BitVec 5) (a : BitVec 5)
  /-- EXTB (R96): Sign-extends bits [7:0]. -/
  | extb (d : BitVec 5) (a : BitVec 5)
  /-- EXTH (R96): Sign-extends bits [15:0]. -/
  | exth (d : BitVec 5) (a : BitVec 5)
  /-- EXTW (R96): Sign-extends bits [31:0]. -/
  | extw (d : BitVec 5) (a : BitVec 5)
  /-- EXTBN (R96): Zero-extends bits [7:0]. -/
  | extbn (d : BitVec 5) (a : BitVec 5)
  /-- EXTHN (R96): Zero-extends bits [15:0]. -/
  | exthn (d : BitVec 5) (a : BitVec 5)
  /-- EXTWN (R96): Zero-extends bits [31:0]. -/
  | extwn (d : BitVec 5) (a : BitVec 5)
  /-- CMP (R97): Sets a predicate to a signed or natural comparison of two registers. -/
  | cmp (p : BitVec 3) (c : BitVec 3) (a : BitVec 5) (b : BitVec 5)
  /-- CMPI (R97): Sets a predicate to a comparison of a register with a 13-bit immediate. -/
  | cmpi (p : BitVec 3) (c : BitVec 3) (a : BitVec 5) (i : BitVec 13)
  /-- PLOG (R98): Sets a predicate from a logical function of two predicates, or to 1 or 0. -/
  | plog (d : BitVec 3) (f : BitVec 3) (a : BitVec 3) (b : BitVec 3)
  /-- SEL (R99): Selects the first or second source by the guard. -/
  | sel (d : BitVec 5) (a : BitVec 5) (b : BitVec 5) (g : BitVec 4)
  /-- PMOV_TO_REG (R100): Copies p7 to p0 into bits [7:0] of a register. -/
  | pmovToReg (r : BitVec 5)
  /-- PMOV_FROM_REG (R100): Loads p1 to p7 from register bits [7:1]. -/
  | pmovFromReg (r : BitVec 5)
  /-- BC (R92): Guarded branch by a 20-bit word displacement, with two delay-slot units. -/
  | bc (d : BitVec 20) (g : BitVec 4)
  /-- BQ (R92): Pops the stream's own bq and branches if the bit is 1. -/
  | bq (d : BitVec 20)
  /-- BQ_N (R92): Pops the stream's own bq and branches if the bit is 0. -/
  | bqN (d : BitVec 20)
  /-- BOUT (R92): Pushes a predicate's value into the other stream's bq. -/
  | bout (p : BitVec 3)
  /-- JR (R92): Jumps to a register-held byte offset in the current stream body. -/
  | jr (a : BitVec 5)
  /-- DBNZ (R92): Decrements a counter and branches while it is nonzero. -/
  | dbnz (r : BitVec 5) (d : BitVec 19)
  /-- TWAIT (R102): Waits for a token's operation to complete, writes its status and frees the slot. -/
  | twait (d : BitVec 5) (a : BitVec 5)
  /-- BBSET (R125): Sets the bit-stream buffer's start, end, bit order and medium. -/
  | bbset (a : BitVec 5) (b : BitVec 5) (o : BitVec 1) (m : BitVec 1)
  /-- BBGET (R126): Reads and consumes w bits of the bit stream, refilling as needed. -/
  | bbget (d : BitVec 5) (w : BitVec 7)
  /-- BBPEEK (R126): Reads w bits of the bit stream without consuming them. -/
  | bbpeek (d : BitVec 5) (w : BitVec 7)
  /-- BBSKIP (R126): Discards w bits of the bit stream. -/
  | bbskip (w : BitVec 7)
  /-- LD (R108): Loads 1 to 8 bytes with sign or zero extension into a register or lq. -/
  | ld (d : BitVec 5) (a : BitVec 5) (s : BitVec 2) (n : BitVec 1) (i : BitVec 11)
  /-- STB (R109): Guarded byte store through the region store buffer. -/
  | stb (v : BitVec 5) (a : BitVec 5) (i : BitVec 10) (g : BitVec 4)
  /-- STH (R109): Guarded half-word store through the region store buffer. -/
  | sth (v : BitVec 5) (a : BitVec 5) (i : BitVec 10) (g : BitVec 4)
  /-- STW (R109): Guarded word store through the region store buffer. -/
  | stw (v : BitVec 5) (a : BitVec 5) (i : BitVec 10) (g : BitVec 4)
  /-- STD (R109): Guarded dword store through the region store buffer. -/
  | std (v : BitVec 5) (a : BitVec 5) (i : BitVec 10) (g : BitVec 4)
  /-- LDA (R110): Acquire load at a scope. -/
  | lda (d : BitVec 5) (a : BitVec 5) (s : BitVec 2) (n : BitVec 1) (c : BitVec 3) (i : BitVec 8)
  /-- STREL (R110): Guarded release store at a scope. -/
  | strel (v : BitVec 5) (a : BitVec 5) (s : BitVec 2) (c : BitVec 3) (g : BitVec 4)
  /-- LDV (R111): Reads 128 bytes and pushes them into an lq as a vector entry. -/
  | ldv (d : BitVec 5) (a : BitVec 5) (i : BitVec 14)
  /-- STV (R111): Pops an sq entry and stores its 128 bytes, guarded. -/
  | stv (v : BitVec 5) (a : BitVec 5) (i : BitVec 10) (g : BitVec 4)
  /-- GATH (R112): Gathers 32 lanes from popped offsets into an lq entry, all or fault. -/
  | gath (d : BitVec 5) (a : BitVec 5) (b : BitVec 5) (s : BitVec 2) (n : BitVec 1) (x : BitVec 1)
  /-- GATH_T (R113): Tolerant gather that pushes within a bound, marking slow or faulting lanes invalid. -/
  | gathT (d : BitVec 5) (a : BitVec 5) (b : BitVec 5) (s : BitVec 2) (n : BitVec 1) (x : BitVec 1)
  /-- SCAT (R114): Scatters 32 lanes of popped data to popped offsets, guarded. -/
  | scat (v : BitVec 5) (a : BitVec 5) (b : BitVec 5) (s : BitVec 2) (x : BitVec 1) (g : BitVec 4)
  /-- AMO (R115): Atomic read-modify-write at the home slice returning the old value. -/
  | amo (d : BitVec 5) (a : BitVec 5) (o : BitVec 4) (s : BitVec 1) (r : BitVec 2) (c : BitVec 3) (g : BitVec 4)
  /-- AMON (R116): Posted atomic reduction that returns nothing and defers memory-side faults. -/
  | amon (v : BitVec 5) (a : BitVec 5) (o : BitVec 4) (s : BitVec 1) (g : BitVec 4)
  /-- CAS (R117): Compare-and-swap at the home slice returning the old value. -/
  | cas (d : BitVec 5) (a : BitVec 5) (s : BitVec 1) (r : BitVec 2) (c : BitVec 3) (g : BitVec 4)
  /-- FENCE (R118): Issues a split-phase acquire, release or full fence and returns a token. -/
  | fence (d : BitVec 5) (k : BitVec 2) (c : BitVec 3)
  /-- CALLD (R159): Joint call by digest handle with a return landing, carving a new frame. -/
  | calld (h : BitVec 5) (k : BitVec 12)
  /-- TAILD (R160): Joint tail call replacing the current function at a landing. -/
  | taild (h : BitVec 5) (k : BitVec 12)
  /-- SUSP (R162): Joint yield that hands the strand back READY at a landing. -/
  | susp (k : BitVec 12)
  /-- SPAWN (R165): Creates a new strand from an argument block and returns a status. -/
  | spawn (d : BitVec 5) (a : BitVec 5) (b : BitVec 5)
  /-- SEND (R127): Sends a 64-byte scratchpad payload to a core's channel and returns acceptance. -/
  | send (d : BitVec 5) (a : BitVec 5) (s : BitVec 5) (c : BitVec 4)
  /-- RECV (R128): Takes the oldest permitted message of a channel into the scratchpad, blocking. -/
  | recv (d : BitVec 5) (a : BitVec 5) (c : BitVec 4)
  /-- RECV_T (R128): Non-blocking receive that returns all ones when no message is queued. -/
  | recvT (d : BitVec 5) (a : BitVec 5) (c : BitVec 4)
  /-- CSRR (R131): Reads a control and status register. -/
  | csrr (d : BitVec 5) (c : BitVec 12)
  /-- CSRW (R131): Writes the RW fields of a control and status register. -/
  | csrw (a : BitVec 5) (c : BitVec 12)
  /-- TRAP (R135): Raises BREAK with a 16-bit code. -/
  | trap (c : BitVec 16)
  /-- SYS_PLBINV (R136): Invalidates this core's PLB entries overlapping a range. -/
  | sysPlbinv (a : BitVec 5) (b : BitVec 5)
  /-- SYS_CSINV (R136): Removes a function, or all, from this core's code store. -/
  | sysCsinv (a : BitVec 5)
  /-- SYS_QFLUSH (R136): Empties the named queues. -/
  | sysQflush (a : BitVec 5)
  /-- SYS_EVCFG (R119): Configures a quad, die or package line, discarding its arrivals and waits. -/
  | sysEvcfg (a : BitVec 5) (b : BitVec 5)
  /-- VADD (R206): Lane-wise add. -/
  | vadd (d : BitVec 6) (a : BitVec 6) (b : BitVec 6) (t : BitVec 3)
  /-- VADD_SAT_I (R207): Lane-wise signed saturating add. -/
  | vaddSatI (d : BitVec 6) (a : BitVec 6) (b : BitVec 6) (t : BitVec 3)
  /-- VADD_SAT_N (R207): Lane-wise natural saturating add. -/
  | vaddSatN (d : BitVec 6) (a : BitVec 6) (b : BitVec 6) (t : BitVec 3)
  /-- VSUB (R206): Lane-wise subtract. -/
  | vsub (d : BitVec 6) (a : BitVec 6) (b : BitVec 6) (t : BitVec 3)
  /-- VSUB_SAT_I (R207): Lane-wise signed saturating subtract. -/
  | vsubSatI (d : BitVec 6) (a : BitVec 6) (b : BitVec 6) (t : BitVec 3)
  /-- VSUB_SAT_N (R207): Lane-wise natural saturating subtract. -/
  | vsubSatN (d : BitVec 6) (a : BitVec 6) (b : BitVec 6) (t : BitVec 3)
  /-- VMUL (R206): Lane-wise multiply, low half for integers. -/
  | vmul (d : BitVec 6) (a : BitVec 6) (b : BitVec 6) (t : BitVec 3)
  /-- VMUL_HI_I (R206): Lane-wise signed high-half multiply. -/
  | vmulHiI (d : BitVec 6) (a : BitVec 6) (b : BitVec 6) (t : BitVec 3)
  /-- VMUL_HI_N (R206): Lane-wise natural high-half multiply. -/
  | vmulHiN (d : BitVec 6) (a : BitVec 6) (b : BitVec 6) (t : BitVec 3)
  /-- VMUL_SAT (R207): Lane-wise signed saturating multiply. -/
  | vmulSat (d : BitVec 6) (a : BitVec 6) (b : BitVec 6) (t : BitVec 3)
  /-- VFMA (R208): Lane-wise fused multiply-add VA·VB + VD. -/
  | vfma (d : BitVec 6) (a : BitVec 6) (b : BitVec 6) (t : BitVec 3)
  /-- VFMA_MS (R208): Lane-wise fused VA·VB − VD. -/
  | vfmaMs (d : BitVec 6) (a : BitVec 6) (b : BitVec 6) (t : BitVec 3)
  /-- VFMA_NA (R208): Lane-wise fused −VA·VB + VD. -/
  | vfmaNa (d : BitVec 6) (a : BitVec 6) (b : BitVec 6) (t : BitVec 3)
  /-- VFMA_NMS (R208): Lane-wise fused −VA·VB − VD. -/
  | vfmaNms (d : BitVec 6) (a : BitVec 6) (b : BitVec 6) (t : BitVec 3)
  /-- VMIN (R209): Lane-wise signed or NaN-propagating minimum. -/
  | vmin (d : BitVec 6) (a : BitVec 6) (b : BitVec 6) (t : BitVec 3)
  /-- VMIN_NUM (R209): Lane-wise natural minimum for integers, or number-preferring minimum for floats. -/
  | vminNum (d : BitVec 6) (a : BitVec 6) (b : BitVec 6) (t : BitVec 3)
  /-- VMAX (R209): Lane-wise signed or NaN-propagating maximum. -/
  | vmax (d : BitVec 6) (a : BitVec 6) (b : BitVec 6) (t : BitVec 3)
  /-- VMAX_NUM (R209): Lane-wise natural maximum for integers, or number-preferring maximum for floats. -/
  | vmaxNum (d : BitVec 6) (a : BitVec 6) (b : BitVec 6) (t : BitVec 3)
  /-- VAND (R212): Bitwise AND of two vector registers. -/
  | vand (d : BitVec 6) (a : BitVec 6) (b : BitVec 6)
  /-- VOR (R212): Bitwise OR of two vector registers. -/
  | vor (d : BitVec 6) (a : BitVec 6) (b : BitVec 6)
  /-- VXOR (R212): Bitwise XOR of two vector registers. -/
  | vxor (d : BitVec 6) (a : BitVec 6) (b : BitVec 6)
  /-- VANDN (R212): Bitwise VA AND NOT VB. -/
  | vandn (d : BitVec 6) (a : BitVec 6) (b : BitVec 6)
  /-- VNOT (R212): Bitwise NOT of a vector register. -/
  | vnot (d : BitVec 6) (a : BitVec 6)
  /-- VSHL (R213): Lane-wise left shift by lanes of VB. -/
  | vshl (d : BitVec 6) (a : BitVec 6) (b : BitVec 6) (t : BitVec 3)
  /-- VSHR (R213): Lane-wise logical right shift by lanes of VB. -/
  | vshr (d : BitVec 6) (a : BitVec 6) (b : BitVec 6) (t : BitVec 3)
  /-- VSRA (R213): Lane-wise arithmetic right shift by lanes of VB. -/
  | vsra (d : BitVec 6) (a : BitVec 6) (b : BitVec 6) (t : BitVec 3)
  /-- VSHLI (R213): Lane-wise left shift by an immediate count. -/
  | vshli (d : BitVec 6) (a : BitVec 6) (c : BitVec 6) (t : BitVec 3)
  /-- VSHRI (R213): Lane-wise logical right shift by an immediate count. -/
  | vshri (d : BitVec 6) (a : BitVec 6) (c : BitVec 6) (t : BitVec 3)
  /-- VSRAI (R213): Lane-wise arithmetic right shift by an immediate count. -/
  | vsrai (d : BitVec 6) (a : BitVec 6) (c : BitVec 6) (t : BitVec 3)
  /-- VCMP (R214): Lane-wise comparison giving all-ones or zero lanes. -/
  | vcmp (d : BitVec 6) (a : BitVec 6) (b : BitVec 6) (t : BitVec 3) (c : BitVec 3)
  /-- VSEL (R215): Lane-wise select by the nonzero lanes of VD. -/
  | vsel (d : BitVec 6) (a : BitVec 6) (b : BitVec 6) (t : BitVec 3)
  /-- VCVT (R223): Converts elements between integer, float and c8 types with one rounding. -/
  | vcvt (d : BitVec 6) (a : BitVec 6) (t : BitVec 4) (s : BitVec 4) (r : BitVec 4)
  /-- VENC_C8 (R225): Encodes 32 f32 lanes into c8 codes in one quarter of VD. -/
  | vencC8 (d : BitVec 6) (a : BitVec 6) (r : BitVec 4) (q : BitVec 3)
  /-- VENC_C4 (R225): Encodes 32 f32 lanes into c4 codes of a codebook in one eighth of VD. -/
  | vencC4 (d : BitVec 6) (a : BitVec 6) (b : BitVec 4) (r : BitVec 4) (q : BitVec 3)
  /-- VDEC_C8 (R226): Decodes 32 c8 codes into f32 lanes. -/
  | vdecC8 (d : BitVec 6) (a : BitVec 6) (q : BitVec 3)
  /-- VDEC_C4 (R226): Decodes 32 c4 codes of a codebook into f32 lanes. -/
  | vdecC4 (d : BitVec 6) (a : BitVec 6) (b : BitVec 4) (q : BitVec 3)
  /-- VSPLAT (R216): Writes a scalar's low bits to every lane. -/
  | vsplat (d : BitVec 6) (a : BitVec 6) (t : BitVec 3)
  /-- VSPLAT_IMM (R216): Writes a sign-extended 12-bit immediate to every lane. -/
  | vsplatImm (d : BitVec 6) (i : BitVec 12) (t : BitVec 3)
  /-- VEXT (R217): Extracts one lane, zero-extended, to a scalar. -/
  | vext (d : BitVec 6) (a : BitVec 6) (k : BitVec 6) (t : BitVec 3)
  /-- VINS (R217): Inserts a scalar into one lane. -/
  | vins (d : BitVec 6) (a : BitVec 6) (k : BitVec 6) (t : BitVec 3)
  /-- VPERM (R218): Permutes lanes by indices in VB. -/
  | vperm (d : BitVec 6) (a : BitVec 6) (b : BitVec 6) (t : BitVec 3)
  /-- VSLIDEUP (R219): Slides lanes up by a count, filling with zero. -/
  | vslideup (d : BitVec 6) (a : BitVec 6) (c : BitVec 6) (t : BitVec 3)
  /-- VSLIDEDN (R219): Slides lanes down by a count, filling with zero. -/
  | vslidedn (d : BitVec 6) (a : BitVec 6) (c : BitVec 6) (t : BitVec 3)
  /-- VRED (R221): Reduces all lanes in a fixed pairwise tree into lane 0. -/
  | vred (d : BitVec 6) (a : BitVec 6) (t : BitVec 3) (o : BitVec 3)
  /-- VMATH (R222): Approximates RCP, RSQ, EXP2 or LOG2 within a stated bound. -/
  | vmath (d : BitVec 6) (a : BitVec 6) (o : BitVec 3)
  /-- VABS (R206): Lane-wise absolute value. -/
  | vabs (d : BitVec 6) (a : BitVec 6) (t : BitVec 3)
  /-- VNEG (R206): Lane-wise negation. -/
  | vneg (d : BitVec 6) (a : BitVec 6) (t : BitVec 3)
  /-- VABS_SAT (R207): Lane-wise saturating absolute value. -/
  | vabsSat (d : BitVec 6) (a : BitVec 6) (t : BitVec 3)
  /-- VPOP (R227): Pops an lq entry into a vector register, discarding its mask. -/
  | vpop (d : BitVec 6) (a : BitVec 6)
  /-- VPUSH (R227): Pushes a vector register into an sq as kind 1. -/
  | vpush (d : BitVec 6) (a : BitVec 6)
  /-- VMOV (R220): Copies all 1,024 bits. -/
  | vmov (d : BitVec 6) (a : BitVec 6)
  /-- VZERO (R220): Clears a vector register. -/
  | vzero (d : BitVec 6)
  /-- VIOTA (R220): Writes each lane's index. -/
  | viota (d : BitVec 6) (t : BitVec 3)
  /-- ECLR (R220): Sets every lane of a residue register to +0. -/
  | eclr (d : BitVec 6)
  /-- VDOT4 (R210): Accumulates four-byte dot products into 32-bit lanes. -/
  | vdot4 (d : BitVec 6) (a : BitVec 6) (b : BitVec 6) (s : BitVec 3)
  /-- VMASK_V (R228): Expands the head lq entry's lane mask into a vector without popping. -/
  | vmaskV (d : BitVec 6) (a : BitVec 6)
  /-- VMASK_C (R228): Counts the set bits of the head lq entry's lane mask. -/
  | vmaskC (d : BitVec 6) (a : BitVec 6)
  /-- VFMA2 (R211): Two VFMAs on even register pairs as one unit (model extension). -/
  | vfma2 (d : BitVec 6) (a : BitVec 6) (b : BitVec 6) (t : BitVec 3)
  /-- TDSET (R236): Writes a tile descriptor from a scalar. -/
  | tdset (t : BitVec 4) (a : BitVec 5)
  /-- MMA (R238): One 16×16×32 K-step accumulated into an accumulator. -/
  | mma (m : BitVec 2) (a : BitVec 4) (b : BitVec 4)
  /-- MMAZ (R238): One K-step written to an accumulator without its old value. -/
  | mmaz (m : BitVec 2) (a : BitVec 4) (b : BitVec 4)
  /-- MZERO (R242): Clears the masked accumulators and their KPOS. -/
  | mzero (k : BitVec 4)
  /-- MSCA_ROW (R243): Scales accumulator rows by vector lanes. -/
  | mscaRow (m : BitVec 2) (v : BitVec 6)
  /-- MSCA_COL (R243): Scales accumulator columns by vector lanes. -/
  | mscaCol (m : BitVec 2) (v : BitVec 6)
  /-- MRD (R245): Copies one accumulator row into a vector register. -/
  | mrd (v : BitVec 6) (m : BitVec 2) (r : BitVec 4)
  /-- MWR (R245): Copies a vector register into one accumulator row. -/
  | mwr (v : BitVec 6) (m : BitVec 2) (r : BitVec 4)
  /-- MST (R247): Stores an accumulator to a scratchpad tile, rounding or encoding each element. -/
  | mst (m : BitVec 2) (t : BitVec 4) (f : BitVec 3) (c : BitVec 4) (r : BitVec 2)
  /-- MLD (R246): Loads a tile into an accumulator, widened exactly. -/
  | mld (m : BitVec 2) (a : BitVec 4)
  /-- LDTAB (R237): Validates and loads the 256-entry decode table from the scratchpad. -/
  | ldtab (a : BitVec 5)
  /-- MCMB (R244): Adds one accumulator into another element by element. -/
  | mcmb (m : BitVec 2) (a : BitVec 2)
  /-- MMAW (R240): Two K-steps as one unit (model extension). -/
  | mmaw (m : BitVec 2) (a : BitVec 4) (b : BitVec 4)
  /-- MMAWZ (R240): Two K-steps as one unit, the first without the accumulator. -/
  | mmawz (m : BitVec 2) (a : BitVec 4) (b : BitVec 4)
  /-- BMV (R260): Issues a bank-unit matrix-vector product command and returns a token. -/
  | bmv (d : BitVec 5) (a : BitVec 5)
  /-- BTAB (R262): Issues a bank-unit table-slot load or clear and returns a token. -/
  | btab (d : BitVec 5) (a : BitVec 5) (b : BitVec 5)
  /-- BLAY (R263): Issues a write of a row-major matrix into bank layout. -/
  | blay (d : BitVec 5) (a : BitVec 5)
  /-- SHPMK (R276): Validates a shape object and seals it into the shape table. -/
  | shpmk (d : BitVec 5) (a : BitVec 5)
  /-- SHPDEL (R277): Removes a sealed shape copy if present. -/
  | shpdel (a : BitVec 5)
  /-- COPY (R279): Issues a byte copy on the copy engine. -/
  | copy (d : BitVec 5) (a : BitVec 5) (b : BitVec 5) (c : BitVec 5)
  /-- COPYS (R280): Issues a shaped copy by a sealed shape. -/
  | copys (d : BitVec 5) (a : BitVec 5) (b : BitVec 5) (c : BitVec 5)
  /-- CFILL (R281): Issues a fill of a range with a repeated 8-byte value. -/
  | cfill (d : BitVec 5) (a : BitVec 5) (b : BitVec 5) (c : BitVec 5)
  /-- FXPUT (R376): Issues a bulk write from local memory to a remote range. -/
  | fxput (d : BitVec 5) (a : BitVec 5) (b : BitVec 5) (c : BitVec 5)
  /-- FXGET (R376): Issues a bulk read from a remote range into local memory. -/
  | fxget (d : BitVec 5) (a : BitVec 5) (b : BitVec 5) (c : BitVec 5)
  /-- FXRED (R376): Issues an element-wise remote reduction. -/
  | fxred (d : BitVec 5) (a : BitVec 5) (b : BitVec 5) (c : BitVec 5)
  /-- ARC_JOIN (R381): Joins the archipelago window and exports scratchpad blocks. -/
  | arcJoin (d : BitVec 5) (a : BitVec 5)
  /-- ARC_LEAVE (R381): Leaves the archipelago window. -/
  | arcLeave (d : BitVec 5) (a : BitVec 5)
  /-- ARC_BAR (R381): Arrives at a pod barrier and waits for its firing. -/
  | arcBar (d : BitVec 5) (a : BitVec 5)
  /-- LAUNCH_STRAND (R329): A KIND 0 launch command is validated and expanded into one strand. -/
  | launchStrand (ctx : Nat) (ring : Nat) (advice : Nat) (prio : Nat)
  /-- LAUNCH_GRAPH (R346): A KIND 1 launch command is validated and its task graph started. -/
  | launchGraph (ctx : Nat) (ring : Nat) (advice : Nat) (prio : Nat)
  /-- LAUNCH_LATTICE (R352): A KIND 2 launch command is validated and its lattice walk started. -/
  | launchLattice (ctx : Nat) (ring : Nat) (advice : Nat) (prio : Nat)
  /-- LAUNCH_ARCHIPELAGO (R378): A KIND 3 launch command is validated and its islands placed all at once or not at all. -/
  | launchArchipelago (ctx : Nat) (ring : Nat) (advice : Nat) (prio : Nat)
  /-- DOORBELL (R393): A host write of a ring's TAIL makes the control core read and validate the covered entries. -/
  | doorbell (fn : Nat) (off : Nat) (v : Nat)
  /-- EVENT_RING_SPACE (R393): Host consumption of event entries lets a waiting event be written and validation resume. -/
  | eventRingSpace (c : Nat) (n : Nat)
  /-- REGISTER_WRITE (R392): A host write to a context register without behaviour of its own. -/
  | registerWrite (fn : Nat) (off : Nat) (v : Nat)
  /-- PARTCFG (R396): Writes a partition record when the partition is idle. -/
  | partcfg (ctx : Nat) (ring : Nat)
  /-- CTXCFG (R392): Creates or reconfigures a host context. -/
  | ctxcfg (ctx : Nat) (ring : Nat)
  /-- CTXRESET (R394): Clears a context's guilt count, skips its rings and lifts its bar. -/
  | ctxreset (ctx : Nat) (ring : Nat)
  /-- DOMCFG (R307): Binds a domain to a context and fills its domain-table entry. -/
  | domcfg (ctx : Nat) (ring : Nat)
  /-- DOMFREE (R395): Unbinds an idle domain and clears its slots and key binding. -/
  | domfree (ctx : Nat) (ring : Nat)
  /-- TRUST (R395): Sets or clears a trust-list slot of a domain. -/
  | trust (ctx : Nat) (ring : Nat)
  /-- RANGEINV (R318): Starts a range invalidation on behalf of system software. -/
  | rangeinv (ctx : Nat) (ring : Nat)
  /-- PLBSHOOT (R310): Executes SYS.PLBINV on every core of the partition. -/
  | plbshoot (ctx : Nat) (ring : Nat)
  /-- FAULTRES (R398): Resolves or refuses a fault report, restarting or faulting its strand or deferred operation. -/
  | faultres (ctx : Nat) (ring : Nat)
  /-- TEARDOWN (R360): Tears down the launches of one ring. -/
  | teardown (ctx : Nat) (ring : Nat)
  /-- PREEMPT (R407): Stops every core running a strand of a launch, without requeueing. -/
  | preempt (ctx : Nat) (ring : Nat)
  /-- RESTORE (R404): Checks an image in order and, if accepted, restores its strand. -/
  | restore (ctx : Nat) (ring : Nat)
  /-- KEYSET (R400): Writes or empties a key slot in the monitor. -/
  | keyset (ctx : Nat) (ring : Nat)
  /-- RACK_LAUNCH_PACKET (R362): A rack-level launch packet over Ultra Ethernet is validated and answered with a residency report. -/
  | rackLaunchPacket (sender : Nat) (packet : RackPacket)
  /-- MIGRATE (R328): A page-service mailbox entry migrates peer pages into a local stack. -/
  | migrate (dom : Nat)
  /-- SETRAP (R328): A page-service mailbox entry sets RAP on a range of leaves. -/
  | setrap (dom : Nat)
  /-- RANGE_INVALIDATION_PERFORM (R318): A range invalidation completes once caches are flushed and commands in the range settled. -/
  | rangeInvalidationPerform (id : Nat)
  /-- GRAPH_NODE_FINISH (R348): A strand node's strand ends and its successors are updated. -/
  | graphNodeFinish (launch : Nat) (node : Nat)
  /-- CONTROL_NODE_EVAL (R349): A conditional or switch node reads its word and chooses its successors. -/
  | controlNodeEval (launch : Nat) (node : Nat)
  /-- LOOP_NODE_EVAL (R350): A loop node is evaluated on arrival or when its back edges have come. -/
  | loopNodeEval (launch : Nat) (node : Nat)
  /-- BAND_START (R355): The walker creates the kept and probe strands of the next band. -/
  | bandStart (launch : Nat)
  /-- BAND_RECONSTRUCT (R356): After a band's strands end, skipped points are reconstructed and the controller sets the next rung. -/
  | bandReconstruct (launch : Nat)
  /-- COMPLETION_FORWARD (R28): A completion-tree node forwards its combined status to its parent. -/
  | completionForward (launch : Nat) (key : Nat)
  /-- COMPLETION_RECORD_WRITE (R344): The root writes the completion record once all conditions hold. -/
  | completionRecordWrite (launch : Nat)
  /-- CODE_POISON (R148): An uncorrectable error in resident code discards it and rolls the region back. -/
  | codePoison (place : Nat) (n : Nat)
  /-- LOAD_DATA_RETURN (R86): Data for a reserved lq entry returns and fills it. -/
  | loadDataReturn (serial : Nat)
  /-- GATH_T_PUSH (R113): A tolerant gather pushes its entry at latest at its bound, with invalid lanes masked. -/
  | gathTPush (serial : Nat) (late : Nat)
  /-- EVENT_CHAIN_SIGNAL (R122): A chained event signal arrives at its target line. -/
  | eventChainSignal (k : Nat)
  /-- STORE_PERFORM (R288): A released plain store performs at its home slice, un-sharing its line if needed. -/
  | storePerform (serial : Nat)
  /-- ATOMIC_PERFORM (R288): An atomic or posted reduction performs at its home slice in the line's order. -/
  | atomicPerform (line : Nat)
  /-- AMON_ACCEPT (R290): A home slice accepts an AMON and counts it against its launch. -/
  | amonAccept (serial : Nat)
  /-- DEFERRED_RESOLVE (R293): Firmware consumes a deferred entry and replays or drops it. -/
  | deferredResolve (dom : Nat)
  /-- LINE_FILL (R296): A home slice fills a line, checking owner and sharing by content. -/
  | lineFill (va : Nat)
  /-- PAGE_WALK (R314): A walker reads page-table entries from HBM and installs the leaf. -/
  | pageWalk (va : Nat)
  /-- COPY_COMMAND_COMPLETE (R284): A copy-engine command finishes or fails and completes its token. -/
  | copyCommandComplete (serial : Nat)
  /-- BANK_COMMAND_COMPLETE (R264): A bank-unit command finishes or fails and completes its token. -/
  | bankCommandComplete (serial : Nat)
  /-- BTAB_SLOT_REPLACE (R262): A waiting BTAB replaces the slot once earlier BMVs naming it finish. -/
  | btabSlotReplace (serial : Nat) (stack : Nat)
  /-- FABRIC_COMMAND_COMPLETE (R377): A fabric command's writes and messages complete and its token completes. -/
  | fabricCommandComplete (serial : Nat)
  /-- NARROWS_RETRANSMIT (R367): A packet unacknowledged within 20 µs is sent again. -/
  | narrowsRetransmit (serial : Nat) (j : Nat)
  /-- NARROWS_MESSAGE_ACK (R367): A target answers a message with a selective-acknowledgement bitmap. -/
  | narrowsMessageAck (serial : Nat) (j : Nat) (bitmap : Nat)
  /-- MCR_ROUND (R372): A round's contributions and children's parts combine and pass to the parent. -/
  | mcrRound (group : Nat) (elem : Nat)
  /-- MCR_DELIVER (R372): The root's combined value is written to every member's delivery page. -/
  | mcrDeliver (group : Nat) (elem : Nat)
  /-- REGION_REGISTER (R385): A control core registers and pins a scale-out region with a key. -/
  | regionRegister (key : Nat) (dom : Nat) (va : Nat) (pages : Nat)
  /-- KEY_REVOKE (R387): A scale-out key is revoked, refusing later writes. -/
  | keyRevoke (key : Nat)
  /-- HOST_MEM_ACCESS (R39): The host reads or writes device memory over CXL .mem. -/
  | hostMemAccess (acc : HostAccess) (va : Nat) (v : Nat)
  /-- TAG_ERROR (R304): An uncorrectable tag error invalidates, repairs or stops owning domains. -/
  | tagError (line : Nat) (mirrorBad : Bool)
  /-- DATA_ERROR (R413): An uncorrectable data error poisons a part or retires a strand. -/
  | dataError (kind : Nat) (at_ : Nat)
  /-- PDM_SAMPLE (R409): Path-delay monitors are sampled every 10 ms. -/
  | pdmSample (die : Nat) (slack : List Nat)
  /-- REPLAN (R409): The voltage and frequency table is re-planned every 30 days or on lost slack. -/
  | replan (die : Nat) (khz : Nat) (points : List (Nat × Nat))
  /-- CLOCK_STEP (R417): The power controller steps a die's clock at most every 10 µs. -/
  | clockStep (die : Nat) (khz : Nat)
  /-- BANK_FENCE (R411): A failing HBM bank is fenced after its live frames migrate. -/
  | bankFence (stack : Nat) (bank : Nat)
  /-- HBM_ROW_REPAIR (R410): A failing HBM row is replaced by a spare. -/
  | hbmRowRepair (stack : Nat) (bank : Nat) (row : Nat)
  /-- LINK_LANE_FENCE (R410): A failing link lane is fenced and routes recomputed. -/
  | linkLaneFence (link : Nat) (lane : Nat)
  /-- REPLAY_ENTER (R415): System software enters replay mode for a partition with a record. -/
  | replayEnter (part : Nat) (launch : Nat)
  /-- DEVICE_RESET (R418): Reset boots the monitor, trains memory and links, and sets READY. -/
  | deviceReset (len : Nat) (image : Nat) (sig : Nat)
  /-- RESERVED_MAJOR (R73): A word with a reserved major, or an unassigned FN, sub-op or code, raises ILLEGAL and performs nothing. -/
  | reservedMajor (w : Half)
  /-- PAIR (R59): A low half with L = 0 and its high half issue as one unit, both reading their sources before either writes, or raise PAIRCLASS together. -/
  | pair (lo : Half) (hi : Half) (span : Bool)
  /-- PEER_DECLARED_LOST (R369): The fabric manager declares a peer package lost, so aperture accesses to it, including those in flight, raise APERTURE or end with FABRIC. -/
  | peerDeclaredLost (peer : Nat)
  /-- ROUTE_TABLE_LOAD (R367): The fabric manager loads a package's route table of next hops per destination. -/
  | routeTableLoad (dest : Nat) (hops : List Nat)
  /-- POD_APERTURE_ENTRY_WRITE (R368): A control core writes an entry of the pod aperture table. -/
  | podApertureEntryWrite (apt : Nat) (w0 : Nat) (w1 : Nat)
  /-- GROUP_ENTRY_WRITE (R370): A control core, at the fabric manager's direction, writes or invalidates a multicast-reduce group entry, discarding any open round. -/
  | groupEntryWrite (group : Nat) (w0 : Nat) (w1 : Nat)
  /-- REGION_DEREGISTER (R385): A control core deregisters a scale-out region and unpins its pages. -/
  | regionDeregister (key : Nat)
  /-- NOP (R73): Does nothing; valid in either stream and either slot of a pair. -/
  | nop
  /-- RETD (R161): Joint return to the caller's landing, or DONE from the bottom frame. -/
  | retd
  /-- DONE (R163): Joint retirement of the strand, reporting to the completion tree. -/
  | done
  /-- COMMIT (R164): Joint commit point that releases the store buffer and takes the checkpoint. -/
  | commit
  /-- ERET (R177): Joint return from a handler, restoring state from the trap frame. -/
  | eret
  /-- SYS_TABCLR (R136): Clears the decode table and TABSTAT. -/
  | sysTabclr
  /-- STRAND_DISPATCH (R336): An idle core takes the first eligible ready item and the scheduler writes its record into the inbox. -/
  | strandDispatch
  /-- DOCK_ENTER (R333): The dock loop receives a record and enters its landing, setting the CSRs. -/
  | dockEnter
  /-- PRIORITY_AGEING (R337): Each elapsed millisecond lowers a waiting item's effective level by one. -/
  | priorityAgeing
  /-- COPY_IN (R286): The scheduler performs an input declaration as a copy on the chosen core's engine. -/
  | copyIn
  /-- COPY_IN_COMPLETE (R341): The last copy-in completes and the strand starts or is retired. -/
  | copyInComplete
  /-- CODE_FETCH_STAGE (R149): A fetch stage yields forms that are judged, logged and installed or passed on. -/
  | codeFetchStage
  /-- NEIGHBOUR_TIMEOUT (R149): A neighbour package that does not answer within 20 µs is skipped. -/
  | neighbourTimeout
  /-- CODE_INSTALL (R147): A fetched function is installed when its strand is placed, evicting others. -/
  | codeInstall
  /-- SLICE_END (R397): A core's slice timer reaches SLICE and the control core signals pre-emption. -/
  | sliceEnd
  /-- IMAGE_SEAL (R402): After the drain, the context is sealed into an image in its save slot. -/
  | imageSeal
  /-- DRAIN_WATCHDOG (R179): A drain reaching 4 ms resets the core's engine commands with WATCHDOG. -/
  | drainWatchdog
  /-- QDEADLOCK (R88): Both streams queue-blocked for 1,024 cycles raises QDEADLOCK. -/
  | qdeadlock
  /-- BARRIER_LINE_ARRIVAL (R120): A barrier-line arrival is counted once prior stores have performed, firing the line at COUNT. -/
  | barrierLineArrival
  /-- POD_BARRIER_ARRIVAL (R382): An ARC BAR arrival is counted once prior stores have performed at .pod, firing the barrier. -/
  | podBarrierArrival
  /-- ISLAND_DEPART (R383): When every other island has left, held DONEs retire and the island departs. -/
  | islandDepart
  /-- MESSAGE_ARRIVAL (R127): A sent message enters a receive queue, waking a blocked RECV. -/
  | messageArrival
  /-- PARKED_MESSAGE_FORWARD (R181): Messages parked after a seal are forwarded to the restoring core. -/
  | parkedMessageForward
  /-- DIRTY_BITMAP_SWEEP (R305): The dirty-owner bitmap is rebuilt at least every 1 ms. -/
  | dirtyBitmapSweep
  /-- SCRUB (R413): HBM is scrubbed every 24 h and the cache continuously. -/
  | scrub
  /-- QUAD_FENCE (R411): A failing quad is fenced at strand boundaries. -/
  | quadFence
  /-- CHECKPOINT (R416): All device memory is copied to the safe tier. -/
  | checkpoint
  /-- ZEROWORD (R60): An all-zero 32-bit half standing as an instruction raises ZEROWORD before any other check. -/
  | zeroword
  /-- RUN_PAST_BODY (R61): Execution that runs past the last unit of a stream body raises ILLEGAL with the body size in EADDR. -/
  | runPastBody
  /-- CHECKPOINT_RESTORE (R416): A checkpoint is restored to device memory, and the monitor raises every save counter by 2^32. -/
  | checkpointRestore
  /-- RECONCILIATION_SWEEP (R304): A slice's reconciliation sweep recovers data-entry references that invalidated tags can no longer name. -/
  | reconciliationSweep
  deriving DecidableEq, Repr

end Sys2Proof
end

