-- ==== Sys2Proof/WellFormed.lean ====
section
/-!
DEFINITION. Sys2Proof/WellFormed.lean: the limits a field of an instruction word has in every stream
(spec 04, R63 to R65 and R67 to R79; spec 10, R205 and R224). A word that breaks one is no instruction: the decoder
answers `reservedMajor` for it, and its execution raises ILLEGAL. The limits that depend on the stream (a reserved
specifier, the wrong stream) are checked where the unit is executed.
-/

namespace Sys2Proof

/-- R64: the guard code 1000 is refused. -/
def guardOk (g : BitVec 4) : Bool := g != 8#4

/-- R63: a field that names only a register refuses the ports 28 to 30. -/
def regOnly (r : BitVec 5) : Bool := r.toNat < 28 || r == 31#5

/-- R40: the scope codes 110 and 111 are reserved. -/
def scopeOk (c : BitVec 3) : Bool := c.toNat < 6

/-- R76: atomic operation codes 0 to 11; the three float operations take 32 bits only. -/
def atomicOpOk (o : BitVec 4) (s : BitVec 1) : Bool := o.toNat < 12 && (o.toNat < 9 || s == 0#1)

/-- Table 4.10: without an order the scope field is zero; with one it is a scope. -/
def orderOk (r : BitVec 2) (c : BitVec 3) : Bool := if r == 0#2 then c == 0#3 else scopeOk c

/-- R77: the type codes 110 and 111 are reserved. -/
def typeOk (t : BitVec 3) : Bool := t.toNat < 6

/-- R77: the float type codes. -/
def floatType (t : BitVec 3) : Bool := 3 <= t.toNat && t.toNat < 6

/-- Table 10.2: the element width of a type code. -/
def laneWidth (t : BitVec 3) : Nat :=
  match t.toNat with
  | 0 => 8
  | 1 => 16
  | 2 => 32
  | 3 => 16
  | 4 => 16
  | _ => 32

/-- Table 10.2: the lane count of a type code. -/
def laneCount (t : BitVec 3) : Nat := 1024 / laneWidth t

/-- Table 4.22, VCMP: LTN (3) and LEN (5) take integers only, UO (6) floats only, 7 is unassigned. -/
def vcmpOk (c t : BitVec 3) : Bool :=
  match c.toNat with
  | 3 => t.toNat < 3
  | 5 => t.toNat < 3
  | 6 => floatType t
  | 7 => false
  | _ => true

/-- Table 4.22, VRED: MINN (3) and MAXN (4) take integers only. -/
def vredOk (o t : BitVec 3) : Bool := o.toNat < 3 || (o.toNat < 5 && t.toNat < 3)

/-- Table 4.24: the rounding codes 6 and 7 are reserved. -/
def rndOk (r : BitVec 4) : Bool := r != 6#4 && r != 7#4

/-- Table 4.23: the conversion type code names an integer type. -/
def cvtInt (c : BitVec 4) : Bool := c.toNat < 6

/-- R79, R224: the conversions that are always exact or take RND 0000 only. -/
def cvtFixedRnd (dt st : BitVec 4) : Bool :=
  (cvtInt dt && cvtInt st) ||
  ((st == 0#4 || st == 3#4) && (dt == 6#4 || dt == 7#4 || dt == 8#4)) ||
  ((st == 1#4 || st == 4#4) && dt == 8#4) ||
  ((st == 6#4 || st == 7#4 || st == 9#4) && dt == 8#4)

/-- R224: the pairs that admit an error-feedback mode. -/
def cvtEfPair (dt st : BitVec 4) : Bool := st == 8#4 && (dt == 6#4 || dt == 7#4 || dt == 9#4)

/-- R79, R224: the legal VCVT codes. -/
def cvtOk (dt st r : BitVec 4) : Bool :=
  dt.toNat < 10 && st.toNat < 10 && dt != st && rndOk r &&
  (!cvtFixedRnd dt st || r == 0#4) && (r.toNat < 8 || cvtEfPair dt st)

/-- The field limits of an instruction. Events and the decoder's named rejections have none. -/
def Instr.wf (i : Instr) : Bool :=
  match i with
  | .add _ _ _ => true
  | .sub _ _ _ => true
  | .and _ _ _ => true
  | .or _ _ _ => true
  | .xor _ _ _ => true
  | .shl _ _ _ => true
  | .shr _ _ _ => true
  | .sra _ _ _ => true
  | .min _ _ _ => true
  | .max _ _ _ => true
  | .minn _ _ _ => true
  | .maxn _ _ _ => true
  | .mul _ _ _ => true
  | .mulh _ _ _ => true
  | .mulhn _ _ _ => true
  | .div _ _ _ => true
  | .divn _ _ _ => true
  | .rem _ _ _ => true
  | .remn _ _ _ => true
  | .shadd1 _ _ _ => true
  | .shadd2 _ _ _ => true
  | .shadd3 _ _ _ => true
  | .andn _ _ _ => true
  | .addi _ _ _ => true
  | .andi _ _ _ => true
  | .ori _ _ _ => true
  | .xori _ _ _ => true
  | .shli _ _ _ => true
  | .shri _ _ _ => true
  | .srai _ _ _ => true
  | .lui _ _ => true
  | .insh d _ _ => d.toNat < 28
  | .clz _ _ => true
  | .ctz _ _ => true
  | .popc _ _ => true
  | .bswap _ _ => true
  | .extb _ _ => true
  | .exth _ _ => true
  | .extw _ _ => true
  | .extbn _ _ => true
  | .exthn _ _ => true
  | .extwn _ _ => true
  | .cmp _ c _ _ => c.toNat < 6
  | .cmpi _ c _ _ => c.toNat < 6
  | .plog _ f a b => (f.toNat < 5 || b == 0#3) && (f.toNat < 6 || a == 0#3)
  | .sel _ _ _ g => guardOk g
  | .pmovToReg _ => true
  | .pmovFromReg _ => true
  | .bc _ g => guardOk g
  | .bq _ => true
  | .bqN _ => true
  | .bout _ => true
  | .jr _ => true
  | .dbnz r _ => r.toNat < 28
  | .twait _ _ => true
  | .bbset _ _ _ _ => true
  | .bbget _ w => 1 <= w.toNat && w.toNat <= 64
  | .bbpeek _ w => 1 <= w.toNat && w.toNat <= 64
  | .bbskip w => 1 <= w.toNat && w.toNat <= 64
  | .ld _ _ s n _ => !(n == 1#1 && s == 3#2)
  | .stb _ _ _ g => guardOk g
  | .sth _ _ _ g => guardOk g
  | .stw _ _ _ g => guardOk g
  | .std _ _ _ g => guardOk g
  | .lda _ _ s n c _ => !(n == 1#1 && s == 3#2) && scopeOk c
  | .strel _ _ _ c g => scopeOk c && guardOk g
  | .ldv d _ _ => 28 <= d.toNat && d.toNat <= 30
  | .stv v _ _ g => 28 <= v.toNat && v.toNat <= 29 && guardOk g
  | .gath d _ b s _ _ => 28 <= d.toNat && d.toNat <= 30 && 28 <= b.toNat && b.toNat <= 29 && s.toNat < 3
  | .gathT d _ b s _ _ => 28 <= d.toNat && d.toNat <= 30 && 28 <= b.toNat && b.toNat <= 29 && s.toNat < 3
  | .scat v _ b s _ g => 28 <= v.toNat && v.toNat <= 29 && 28 <= b.toNat && b.toNat <= 29 && b != v && s.toNat < 3 && guardOk g
  | .amo d _ o s r c g => regOnly d && atomicOpOk o s && orderOk r c && guardOk g
  | .amon _ _ o s g => atomicOpOk o s && guardOk g
  | .cas d _ _ r c g => d.toNat <= 26 && d.toNat % 2 == 0 && orderOk r c && guardOk g
  | .fence _ k c => k != 3#2 && scopeOk c
  | .calld h _ => regOnly h
  | .taild h _ => regOnly h
  | .susp _ => true
  | .spawn _ _ _ => true
  | .send _ _ _ _ => true
  | .recv _ _ _ => true
  | .recvT _ _ _ => true
  | .csrr _ _ => true
  | .csrw _ _ => true
  | .trap _ => true
  | .sysPlbinv _ _ => true
  | .sysCsinv _ => true
  | .sysQflush _ => true
  | .sysEvcfg _ _ => true
  | .vadd _ _ _ t => typeOk t
  | .vaddSatI _ _ _ t => t.toNat < 3
  | .vaddSatN _ _ _ t => t.toNat < 3
  | .vsub _ _ _ t => typeOk t
  | .vsubSatI _ _ _ t => t.toNat < 3
  | .vsubSatN _ _ _ t => t.toNat < 3
  | .vmul _ _ _ t => typeOk t
  | .vmulHiI _ _ _ t => t.toNat < 3
  | .vmulHiN _ _ _ t => t.toNat < 3
  | .vmulSat _ _ _ t => t.toNat < 3
  | .vfma _ _ _ t => 2 <= t.toNat && typeOk t
  | .vfmaMs _ _ _ t => floatType t
  | .vfmaNa _ _ _ t => floatType t
  | .vfmaNms _ _ _ t => floatType t
  | .vmin _ _ _ t => typeOk t
  | .vminNum _ _ _ t => typeOk t
  | .vmax _ _ _ t => typeOk t
  | .vmaxNum _ _ _ t => typeOk t
  | .vand _ _ _ => true
  | .vor _ _ _ => true
  | .vxor _ _ _ => true
  | .vandn _ _ _ => true
  | .vnot _ _ => true
  | .vshl _ _ _ t => t.toNat < 3
  | .vshr _ _ _ t => t.toNat < 3
  | .vsra _ _ _ t => t.toNat < 3
  | .vshli _ _ c t => t.toNat < 3 && c.toNat < laneWidth t
  | .vshri _ _ c t => t.toNat < 3 && c.toNat < laneWidth t
  | .vsrai _ _ c t => t.toNat < 3 && c.toNat < laneWidth t
  | .vcmp _ _ _ t c => typeOk t && vcmpOk c t
  | .vsel _ _ _ t => t.toNat < 3
  | .vcvt _ _ t s r => cvtOk t s r
  | .vencC8 _ _ r q => q.toNat < 4 && rndOk r
  | .vencC4 _ _ _ r _ => rndOk r
  | .vdecC8 _ _ q => q.toNat < 4
  | .vdecC4 _ _ _ _ => true
  | .vsplat _ a t => typeOk t && a.toNat < 32
  | .vsplatImm _ _ t => t.toNat < 3
  | .vext d _ k t => typeOk t && t != 0#3 && d.toNat < 32 && k.toNat < laneCount t
  | .vins _ a k t => typeOk t && t != 0#3 && a.toNat < 32 && k.toNat < laneCount t
  | .vperm _ _ _ t => t.toNat < 3
  | .vslideup _ _ c t => t.toNat < 3 && c.toNat < laneCount t
  | .vslidedn _ _ c t => t.toNat < 3 && c.toNat < laneCount t
  | .vred _ _ t o => typeOk t && vredOk o t
  | .vmath _ _ o => o.toNat < 4
  | .vabs _ _ t => typeOk t
  | .vneg _ _ t => typeOk t
  | .vabsSat _ _ t => t.toNat < 3
  | .vpop _ a => a.toNat < 3
  | .vpush d _ => d.toNat < 2
  | .vmov _ _ => true
  | .vzero _ => true
  | .viota _ t => t.toNat < 3
  | .eclr d => d.toNat < 8
  | .vdot4 _ _ _ s => s.toNat < 4
  | .vmaskV _ a => a.toNat < 3
  | .vmaskC d a => d.toNat < 32 && a.toNat < 3
  | .vfma2 d a b t => floatType t && d.toNat % 2 == 0 && a.toNat % 2 == 0 && b.toNat % 2 == 0
  | .tdset _ _ => true
  | .mma _ _ _ => true
  | .mmaz _ _ _ => true
  | .mzero k => k != 0#4
  | .mscaRow _ _ => true
  | .mscaCol _ _ => true
  | .mrd _ _ _ => true
  | .mwr _ _ _ => true
  | .mst _ _ f c r => f.toNat < 5 && (c == 0#4 || f == 4#3) && (r == 0#2 || f != 0#3)
  | .mld _ _ => true
  | .ldtab _ => true
  | .mcmb _ _ => true
  | .mmaw _ _ _ => true
  | .mmawz _ _ _ => true
  | .bmv _ _ => true
  | .btab _ _ _ => true
  | .blay _ _ => true
  | .shpmk _ _ => true
  | .shpdel _ => true
  | .copy _ _ _ _ => true
  | .copys _ _ _ _ => true
  | .cfill _ _ _ _ => true
  | .fxput _ _ _ _ => true
  | .fxget _ _ _ _ => true
  | .fxred _ _ _ _ => true
  | .arcJoin _ _ => true
  | .arcLeave _ _ => true
  | .arcBar _ _ => true
  | .launchStrand _ _ _ _ => true
  | .launchGraph _ _ _ _ => true
  | .launchLattice _ _ _ _ => true
  | .launchArchipelago _ _ _ _ => true
  | .doorbell _ _ _ => true
  | .eventRingSpace _ _ => true
  | .registerWrite _ _ _ => true
  | .partcfg _ _ => true
  | .ctxcfg _ _ => true
  | .ctxreset _ _ => true
  | .domcfg _ _ => true
  | .domfree _ _ => true
  | .trust _ _ => true
  | .rangeinv _ _ => true
  | .plbshoot _ _ => true
  | .faultres _ _ => true
  | .teardown _ _ => true
  | .preempt _ _ => true
  | .restore _ _ => true
  | .keyset _ _ => true
  | .rackLaunchPacket _ _ => true
  | .migrate _ => true
  | .setrap _ => true
  | .rangeInvalidationPerform _ => true
  | .graphNodeFinish _ _ => true
  | .controlNodeEval _ _ => true
  | .loopNodeEval _ _ => true
  | .bandStart _ => true
  | .bandReconstruct _ => true
  | .completionForward _ _ => true
  | .completionRecordWrite _ => true
  | .codePoison _ _ => true
  | .loadDataReturn _ => true
  | .gathTPush _ _ => true
  | .eventChainSignal _ => true
  | .storePerform _ => true
  | .atomicPerform _ => true
  | .amonAccept _ => true
  | .deferredResolve _ => true
  | .lineFill _ => true
  | .pageWalk _ => true
  | .copyCommandComplete _ => true
  | .bankCommandComplete _ => true
  | .btabSlotReplace _ _ => true
  | .fabricCommandComplete _ => true
  | .narrowsRetransmit _ _ => true
  | .narrowsMessageAck _ _ _ => true
  | .mcrRound _ _ => true
  | .mcrDeliver _ _ => true
  | .regionRegister _ _ _ _ => true
  | .keyRevoke _ => true
  | .hostMemAccess _ _ _ => true
  | .tagError _ _ => true
  | .dataError _ _ => true
  | .pdmSample _ _ => true
  | .replan _ _ _ => true
  | .clockStep _ _ => true
  | .bankFence _ _ => true
  | .hbmRowRepair _ _ _ => true
  | .linkLaneFence _ _ => true
  | .replayEnter _ _ => true
  | .deviceReset _ _ _ => true
  | .reservedMajor _ => true
  | .pair _ _ _ => true
  | .peerDeclaredLost _ => true
  | .routeTableLoad _ _ => true
  | .podApertureEntryWrite _ _ _ => true
  | .groupEntryWrite _ _ _ => true
  | .regionDeregister _ => true
  | .nop => true
  | .retd => true
  | .done => true
  | .commit => true
  | .eret => true
  | .sysTabclr => true
  | .strandDispatch => true
  | .dockEnter => true
  | .priorityAgeing => true
  | .copyIn => true
  | .copyInComplete => true
  | .codeFetchStage => true
  | .neighbourTimeout => true
  | .codeInstall => true
  | .sliceEnd => true
  | .imageSeal => true
  | .drainWatchdog => true
  | .qdeadlock => true
  | .barrierLineArrival => true
  | .podBarrierArrival => true
  | .islandDepart => true
  | .messageArrival => true
  | .parkedMessageForward => true
  | .dirtyBitmapSweep => true
  | .scrub => true
  | .quadFence => true
  | .checkpoint => true
  | .zeroword => true
  | .runPastBody => true
  | .checkpointRestore => true
  | .reconciliationSweep => true

/-- A well-formed instruction. -/
abbrev WellFormed (i : Instr) : Prop := i.wf = true

/-- The rows of the opcode table that have an instruction word. -/
def Instr.encoded (i : Instr) : Bool :=
  match i with
  | .add _ _ _ => true
  | .sub _ _ _ => true
  | .and _ _ _ => true
  | .or _ _ _ => true
  | .xor _ _ _ => true
  | .shl _ _ _ => true
  | .shr _ _ _ => true
  | .sra _ _ _ => true
  | .min _ _ _ => true
  | .max _ _ _ => true
  | .minn _ _ _ => true
  | .maxn _ _ _ => true
  | .mul _ _ _ => true
  | .mulh _ _ _ => true
  | .mulhn _ _ _ => true
  | .div _ _ _ => true
  | .divn _ _ _ => true
  | .rem _ _ _ => true
  | .remn _ _ _ => true
  | .shadd1 _ _ _ => true
  | .shadd2 _ _ _ => true
  | .shadd3 _ _ _ => true
  | .andn _ _ _ => true
  | .addi _ _ _ => true
  | .andi _ _ _ => true
  | .ori _ _ _ => true
  | .xori _ _ _ => true
  | .shli _ _ _ => true
  | .shri _ _ _ => true
  | .srai _ _ _ => true
  | .lui _ _ => true
  | .insh _ _ _ => true
  | .clz _ _ => true
  | .ctz _ _ => true
  | .popc _ _ => true
  | .bswap _ _ => true
  | .extb _ _ => true
  | .exth _ _ => true
  | .extw _ _ => true
  | .extbn _ _ => true
  | .exthn _ _ => true
  | .extwn _ _ => true
  | .cmp _ _ _ _ => true
  | .cmpi _ _ _ _ => true
  | .plog _ _ _ _ => true
  | .sel _ _ _ _ => true
  | .pmovToReg _ => true
  | .pmovFromReg _ => true
  | .bc _ _ => true
  | .bq _ => true
  | .bqN _ => true
  | .bout _ => true
  | .jr _ => true
  | .dbnz _ _ => true
  | .twait _ _ => true
  | .bbset _ _ _ _ => true
  | .bbget _ _ => true
  | .bbpeek _ _ => true
  | .bbskip _ => true
  | .ld _ _ _ _ _ => true
  | .stb _ _ _ _ => true
  | .sth _ _ _ _ => true
  | .stw _ _ _ _ => true
  | .std _ _ _ _ => true
  | .lda _ _ _ _ _ _ => true
  | .strel _ _ _ _ _ => true
  | .ldv _ _ _ => true
  | .stv _ _ _ _ => true
  | .gath _ _ _ _ _ _ => true
  | .gathT _ _ _ _ _ _ => true
  | .scat _ _ _ _ _ _ => true
  | .amo _ _ _ _ _ _ _ => true
  | .amon _ _ _ _ _ => true
  | .cas _ _ _ _ _ _ => true
  | .fence _ _ _ => true
  | .calld _ _ => true
  | .taild _ _ => true
  | .susp _ => true
  | .spawn _ _ _ => true
  | .send _ _ _ _ => true
  | .recv _ _ _ => true
  | .recvT _ _ _ => true
  | .csrr _ _ => true
  | .csrw _ _ => true
  | .trap _ => true
  | .sysPlbinv _ _ => true
  | .sysCsinv _ => true
  | .sysQflush _ => true
  | .sysEvcfg _ _ => true
  | .vadd _ _ _ _ => true
  | .vaddSatI _ _ _ _ => true
  | .vaddSatN _ _ _ _ => true
  | .vsub _ _ _ _ => true
  | .vsubSatI _ _ _ _ => true
  | .vsubSatN _ _ _ _ => true
  | .vmul _ _ _ _ => true
  | .vmulHiI _ _ _ _ => true
  | .vmulHiN _ _ _ _ => true
  | .vmulSat _ _ _ _ => true
  | .vfma _ _ _ _ => true
  | .vfmaMs _ _ _ _ => true
  | .vfmaNa _ _ _ _ => true
  | .vfmaNms _ _ _ _ => true
  | .vmin _ _ _ _ => true
  | .vminNum _ _ _ _ => true
  | .vmax _ _ _ _ => true
  | .vmaxNum _ _ _ _ => true
  | .vand _ _ _ => true
  | .vor _ _ _ => true
  | .vxor _ _ _ => true
  | .vandn _ _ _ => true
  | .vnot _ _ => true
  | .vshl _ _ _ _ => true
  | .vshr _ _ _ _ => true
  | .vsra _ _ _ _ => true
  | .vshli _ _ _ _ => true
  | .vshri _ _ _ _ => true
  | .vsrai _ _ _ _ => true
  | .vcmp _ _ _ _ _ => true
  | .vsel _ _ _ _ => true
  | .vcvt _ _ _ _ _ => true
  | .vencC8 _ _ _ _ => true
  | .vencC4 _ _ _ _ _ => true
  | .vdecC8 _ _ _ => true
  | .vdecC4 _ _ _ _ => true
  | .vsplat _ _ _ => true
  | .vsplatImm _ _ _ => true
  | .vext _ _ _ _ => true
  | .vins _ _ _ _ => true
  | .vperm _ _ _ _ => true
  | .vslideup _ _ _ _ => true
  | .vslidedn _ _ _ _ => true
  | .vred _ _ _ _ => true
  | .vmath _ _ _ => true
  | .vabs _ _ _ => true
  | .vneg _ _ _ => true
  | .vabsSat _ _ _ => true
  | .vpop _ _ => true
  | .vpush _ _ => true
  | .vmov _ _ => true
  | .vzero _ => true
  | .viota _ _ => true
  | .eclr _ => true
  | .vdot4 _ _ _ _ => true
  | .vmaskV _ _ => true
  | .vmaskC _ _ => true
  | .vfma2 _ _ _ _ => true
  | .tdset _ _ => true
  | .mma _ _ _ => true
  | .mmaz _ _ _ => true
  | .mzero _ => true
  | .mscaRow _ _ => true
  | .mscaCol _ _ => true
  | .mrd _ _ _ => true
  | .mwr _ _ _ => true
  | .mst _ _ _ _ _ => true
  | .mld _ _ => true
  | .ldtab _ => true
  | .mcmb _ _ => true
  | .mmaw _ _ _ => true
  | .mmawz _ _ _ => true
  | .bmv _ _ => true
  | .btab _ _ _ => true
  | .blay _ _ => true
  | .shpmk _ _ => true
  | .shpdel _ => true
  | .copy _ _ _ _ => true
  | .copys _ _ _ _ => true
  | .cfill _ _ _ _ => true
  | .fxput _ _ _ _ => true
  | .fxget _ _ _ _ => true
  | .fxred _ _ _ _ => true
  | .arcJoin _ _ => true
  | .arcLeave _ _ => true
  | .arcBar _ _ => true
  | .launchStrand _ _ _ _ => false
  | .launchGraph _ _ _ _ => false
  | .launchLattice _ _ _ _ => false
  | .launchArchipelago _ _ _ _ => false
  | .doorbell _ _ _ => false
  | .eventRingSpace _ _ => false
  | .registerWrite _ _ _ => false
  | .partcfg _ _ => false
  | .ctxcfg _ _ => false
  | .ctxreset _ _ => false
  | .domcfg _ _ => false
  | .domfree _ _ => false
  | .trust _ _ => false
  | .rangeinv _ _ => false
  | .plbshoot _ _ => false
  | .faultres _ _ => false
  | .teardown _ _ => false
  | .preempt _ _ => false
  | .restore _ _ => false
  | .keyset _ _ => false
  | .rackLaunchPacket _ _ => false
  | .migrate _ => false
  | .setrap _ => false
  | .rangeInvalidationPerform _ => false
  | .graphNodeFinish _ _ => false
  | .controlNodeEval _ _ => false
  | .loopNodeEval _ _ => false
  | .bandStart _ => false
  | .bandReconstruct _ => false
  | .completionForward _ _ => false
  | .completionRecordWrite _ => false
  | .codePoison _ _ => false
  | .loadDataReturn _ => false
  | .gathTPush _ _ => false
  | .eventChainSignal _ => false
  | .storePerform _ => false
  | .atomicPerform _ => false
  | .amonAccept _ => false
  | .deferredResolve _ => false
  | .lineFill _ => false
  | .pageWalk _ => false
  | .copyCommandComplete _ => false
  | .bankCommandComplete _ => false
  | .btabSlotReplace _ _ => false
  | .fabricCommandComplete _ => false
  | .narrowsRetransmit _ _ => false
  | .narrowsMessageAck _ _ _ => false
  | .mcrRound _ _ => false
  | .mcrDeliver _ _ => false
  | .regionRegister _ _ _ _ => false
  | .keyRevoke _ => false
  | .hostMemAccess _ _ _ => false
  | .tagError _ _ => false
  | .dataError _ _ => false
  | .pdmSample _ _ => false
  | .replan _ _ _ => false
  | .clockStep _ _ => false
  | .bankFence _ _ => false
  | .hbmRowRepair _ _ _ => false
  | .linkLaneFence _ _ => false
  | .replayEnter _ _ => false
  | .deviceReset _ _ _ => false
  | .reservedMajor _ => false
  | .pair _ _ _ => false
  | .peerDeclaredLost _ => false
  | .routeTableLoad _ _ => false
  | .podApertureEntryWrite _ _ _ => false
  | .groupEntryWrite _ _ _ => false
  | .regionDeregister _ => false
  | .nop => true
  | .retd => true
  | .done => true
  | .commit => true
  | .eret => true
  | .sysTabclr => true
  | .strandDispatch => false
  | .dockEnter => false
  | .priorityAgeing => false
  | .copyIn => false
  | .copyInComplete => false
  | .codeFetchStage => false
  | .neighbourTimeout => false
  | .codeInstall => false
  | .sliceEnd => false
  | .imageSeal => false
  | .drainWatchdog => false
  | .qdeadlock => false
  | .barrierLineArrival => false
  | .podBarrierArrival => false
  | .islandDepart => false
  | .messageArrival => false
  | .parkedMessageForward => false
  | .dirtyBitmapSweep => false
  | .scrub => false
  | .quadFence => false
  | .checkpoint => false
  | .zeroword => false
  | .runPastBody => false
  | .checkpointRestore => false
  | .reconciliationSweep => false

end Sys2Proof
end

