-- ==== Sys2Proof/Decode.lean ====
section
/-!
DEFINITION. Sys2Proof/Decode.lean: the decoder of a 32-bit half and, after it, the encoder (spec 04, R58 to R81).
The decoder is total. An all-zero half is `zeroword` (R60); a word with a reserved major, an unassigned code, a
nonzero unused field or a field beyond its limits is `reservedMajor` of that word (R62, R65). Bit 0, the L bit, says
how the half stands in its unit and is read by the fetch, not here.
-/

namespace Sys2Proof

/-- Major 0x01: NOP. -/
def decodeMajor01 (w : Half) : Option Instr :=
  match (w.extractLsb' 1 24).toNat with
  | 0 => some .nop
  | _ => none

/-- Major 0x02: ADD, SUB, AND, OR, XOR, SHL, SHR, SRA, MIN, MAX, MINN, MAXN, MUL, MULH, MULHN, DIV, DIVN, REM, REMN, SHADD1, SHADD2, SHADD3, ANDN. -/
def decodeMajor02 (w : Half) : Option Instr :=
  match (w.extractLsb' 1 9).toNat with
  | 0 => some (.add (w.extractLsb' 20 5) (w.extractLsb' 15 5) (w.extractLsb' 10 5))
  | 16 => some (.sub (w.extractLsb' 20 5) (w.extractLsb' 15 5) (w.extractLsb' 10 5))
  | 32 => some (.and (w.extractLsb' 20 5) (w.extractLsb' 15 5) (w.extractLsb' 10 5))
  | 48 => some (.or (w.extractLsb' 20 5) (w.extractLsb' 15 5) (w.extractLsb' 10 5))
  | 64 => some (.xor (w.extractLsb' 20 5) (w.extractLsb' 15 5) (w.extractLsb' 10 5))
  | 80 => some (.shl (w.extractLsb' 20 5) (w.extractLsb' 15 5) (w.extractLsb' 10 5))
  | 96 => some (.shr (w.extractLsb' 20 5) (w.extractLsb' 15 5) (w.extractLsb' 10 5))
  | 112 => some (.sra (w.extractLsb' 20 5) (w.extractLsb' 15 5) (w.extractLsb' 10 5))
  | 128 => some (.min (w.extractLsb' 20 5) (w.extractLsb' 15 5) (w.extractLsb' 10 5))
  | 144 => some (.max (w.extractLsb' 20 5) (w.extractLsb' 15 5) (w.extractLsb' 10 5))
  | 160 => some (.minn (w.extractLsb' 20 5) (w.extractLsb' 15 5) (w.extractLsb' 10 5))
  | 176 => some (.maxn (w.extractLsb' 20 5) (w.extractLsb' 15 5) (w.extractLsb' 10 5))
  | 192 => some (.mul (w.extractLsb' 20 5) (w.extractLsb' 15 5) (w.extractLsb' 10 5))
  | 208 => some (.mulh (w.extractLsb' 20 5) (w.extractLsb' 15 5) (w.extractLsb' 10 5))
  | 224 => some (.mulhn (w.extractLsb' 20 5) (w.extractLsb' 15 5) (w.extractLsb' 10 5))
  | 240 => some (.div (w.extractLsb' 20 5) (w.extractLsb' 15 5) (w.extractLsb' 10 5))
  | 256 => some (.divn (w.extractLsb' 20 5) (w.extractLsb' 15 5) (w.extractLsb' 10 5))
  | 272 => some (.rem (w.extractLsb' 20 5) (w.extractLsb' 15 5) (w.extractLsb' 10 5))
  | 288 => some (.remn (w.extractLsb' 20 5) (w.extractLsb' 15 5) (w.extractLsb' 10 5))
  | 304 => some (.shadd1 (w.extractLsb' 20 5) (w.extractLsb' 15 5) (w.extractLsb' 10 5))
  | 320 => some (.shadd2 (w.extractLsb' 20 5) (w.extractLsb' 15 5) (w.extractLsb' 10 5))
  | 336 => some (.shadd3 (w.extractLsb' 20 5) (w.extractLsb' 15 5) (w.extractLsb' 10 5))
  | 352 => some (.andn (w.extractLsb' 20 5) (w.extractLsb' 15 5) (w.extractLsb' 10 5))
  | _ => none

/-- Major 0x03: ADDI. -/
def decodeMajor03 (w : Half) : Option Instr :=
  some (.addi (w.extractLsb' 20 5) (w.extractLsb' 15 5) (w.extractLsb' 1 14))

/-- Major 0x04: ANDI. -/
def decodeMajor04 (w : Half) : Option Instr :=
  some (.andi (w.extractLsb' 20 5) (w.extractLsb' 15 5) (w.extractLsb' 1 14))

/-- Major 0x05: ORI. -/
def decodeMajor05 (w : Half) : Option Instr :=
  some (.ori (w.extractLsb' 20 5) (w.extractLsb' 15 5) (w.extractLsb' 1 14))

/-- Major 0x06: XORI. -/
def decodeMajor06 (w : Half) : Option Instr :=
  some (.xori (w.extractLsb' 20 5) (w.extractLsb' 15 5) (w.extractLsb' 1 14))

/-- Major 0x07: SHLI, SHRI, SRAI. -/
def decodeMajor07 (w : Half) : Option Instr :=
  match (w.extractLsb' 13 2).toNat with
  | 0 =>
      match (w.extractLsb' 1 6).toNat with
      | 0 => some (.shli (w.extractLsb' 20 5) (w.extractLsb' 15 5) (w.extractLsb' 7 6))
      | _ => none
  | 1 =>
      match (w.extractLsb' 1 6).toNat with
      | 0 => some (.shri (w.extractLsb' 20 5) (w.extractLsb' 15 5) (w.extractLsb' 7 6))
      | _ => none
  | 2 =>
      match (w.extractLsb' 1 6).toNat with
      | 0 => some (.srai (w.extractLsb' 20 5) (w.extractLsb' 15 5) (w.extractLsb' 7 6))
      | _ => none
  | _ => none

/-- Major 0x08: LUI. -/
def decodeMajor08 (w : Half) : Option Instr :=
  some (.lui (w.extractLsb' 20 5) (w.extractLsb' 1 19))

/-- Major 0x09: INSH. -/
def decodeMajor09 (w : Half) : Option Instr :=
  match (w.extractLsb' 1 1).toNat with
  | 0 => some (.insh (w.extractLsb' 20 5) (w.extractLsb' 18 2) (w.extractLsb' 2 16))
  | _ => none

/-- Major 0x0A: CLZ, CTZ, POPC, BSWAP, EXTB, EXTH, EXTW, EXTBN, EXTHN, EXTWN. -/
def decodeMajor0A (w : Half) : Option Instr :=
  match (w.extractLsb' 1 14).toNat with
  | 0 => some (.clz (w.extractLsb' 20 5) (w.extractLsb' 15 5))
  | 16 => some (.ctz (w.extractLsb' 20 5) (w.extractLsb' 15 5))
  | 32 => some (.popc (w.extractLsb' 20 5) (w.extractLsb' 15 5))
  | 48 => some (.bswap (w.extractLsb' 20 5) (w.extractLsb' 15 5))
  | 64 => some (.extb (w.extractLsb' 20 5) (w.extractLsb' 15 5))
  | 80 => some (.exth (w.extractLsb' 20 5) (w.extractLsb' 15 5))
  | 96 => some (.extw (w.extractLsb' 20 5) (w.extractLsb' 15 5))
  | 112 => some (.extbn (w.extractLsb' 20 5) (w.extractLsb' 15 5))
  | 128 => some (.exthn (w.extractLsb' 20 5) (w.extractLsb' 15 5))
  | 144 => some (.extwn (w.extractLsb' 20 5) (w.extractLsb' 15 5))
  | _ => none

/-- Major 0x0B: CMP. -/
def decodeMajor0B (w : Half) : Option Instr :=
  match (w.extractLsb' 1 8).toNat with
  | 0 => some (.cmp (w.extractLsb' 22 3) (w.extractLsb' 19 3) (w.extractLsb' 14 5) (w.extractLsb' 9 5))
  | _ => none

/-- Major 0x0C: CMPI. -/
def decodeMajor0C (w : Half) : Option Instr :=
  some (.cmpi (w.extractLsb' 22 3) (w.extractLsb' 19 3) (w.extractLsb' 14 5) (w.extractLsb' 1 13))

/-- Major 0x0D: PLOG. -/
def decodeMajor0D (w : Half) : Option Instr :=
  match (w.extractLsb' 1 12).toNat with
  | 0 => some (.plog (w.extractLsb' 22 3) (w.extractLsb' 19 3) (w.extractLsb' 16 3) (w.extractLsb' 13 3))
  | _ => none

/-- Major 0x0E: SEL. -/
def decodeMajor0E (w : Half) : Option Instr :=
  match (w.extractLsb' 5 5).toNat with
  | 0 => some (.sel (w.extractLsb' 20 5) (w.extractLsb' 15 5) (w.extractLsb' 10 5) (w.extractLsb' 1 4))
  | _ => none

/-- Major 0x0F: PMOV_TO_REG, PMOV_FROM_REG. -/
def decodeMajor0F (w : Half) : Option Instr :=
  match (w.extractLsb' 1 19).toNat with
  | 0 => some (.pmovToReg (w.extractLsb' 20 5))
  | 262144 => some (.pmovFromReg (w.extractLsb' 20 5))
  | _ => none

/-- Major 0x10: BC. -/
def decodeMajor10 (w : Half) : Option Instr :=
  some (.bc (w.extractLsb' 5 20) (w.extractLsb' 1 4))

/-- Major 0x11: BQ, BQ_N. -/
def decodeMajor11 (w : Half) : Option Instr :=
  match (w.extractLsb' 1 4).toNat with
  | 0 => some (.bq (w.extractLsb' 5 20))
  | 8 => some (.bqN (w.extractLsb' 5 20))
  | _ => none

/-- Major 0x12: BOUT. -/
def decodeMajor12 (w : Half) : Option Instr :=
  match (w.extractLsb' 1 21).toNat with
  | 0 => some (.bout (w.extractLsb' 22 3))
  | _ => none

/-- Major 0x13: JR. -/
def decodeMajor13 (w : Half) : Option Instr :=
  match (w.extractLsb' 20 5).toNat with
  | 0 =>
      match (w.extractLsb' 1 14).toNat with
      | 0 => some (.jr (w.extractLsb' 15 5))
      | _ => none
  | _ => none

/-- Major 0x14: DBNZ. -/
def decodeMajor14 (w : Half) : Option Instr :=
  some (.dbnz (w.extractLsb' 20 5) (w.extractLsb' 1 19))

/-- Major 0x15: TWAIT. -/
def decodeMajor15 (w : Half) : Option Instr :=
  match (w.extractLsb' 1 14).toNat with
  | 0 => some (.twait (w.extractLsb' 20 5) (w.extractLsb' 15 5))
  | _ => none

/-- Major 0x18: BBSET. -/
def decodeMajor18 (w : Half) : Option Instr :=
  match (w.extractLsb' 8 7).toNat with
  | 0 =>
      match (w.extractLsb' 1 5).toNat with
      | 0 => some (.bbset (w.extractLsb' 20 5) (w.extractLsb' 15 5) (w.extractLsb' 7 1) (w.extractLsb' 6 1))
      | _ => none
  | _ => none

/-- Major 0x19: BBGET. -/
def decodeMajor19 (w : Half) : Option Instr :=
  match (w.extractLsb' 15 5).toNat with
  | 0 =>
      match (w.extractLsb' 1 7).toNat with
      | 0 => some (.bbget (w.extractLsb' 20 5) (w.extractLsb' 8 7))
      | _ => none
  | _ => none

/-- Major 0x1A: BBPEEK. -/
def decodeMajor1A (w : Half) : Option Instr :=
  match (w.extractLsb' 15 5).toNat with
  | 0 =>
      match (w.extractLsb' 1 7).toNat with
      | 0 => some (.bbpeek (w.extractLsb' 20 5) (w.extractLsb' 8 7))
      | _ => none
  | _ => none

/-- Major 0x1B: BBSKIP. -/
def decodeMajor1B (w : Half) : Option Instr :=
  match (w.extractLsb' 15 10).toNat with
  | 0 =>
      match (w.extractLsb' 1 7).toNat with
      | 0 => some (.bbskip (w.extractLsb' 8 7))
      | _ => none
  | _ => none

/-- Major 0x20: LD. -/
def decodeMajor20 (w : Half) : Option Instr :=
  some (.ld (w.extractLsb' 20 5) (w.extractLsb' 15 5) (w.extractLsb' 13 2) (w.extractLsb' 12 1) (w.extractLsb' 1 11))

/-- Major 0x21: STB. -/
def decodeMajor21 (w : Half) : Option Instr :=
  some (.stb (w.extractLsb' 20 5) (w.extractLsb' 15 5) (w.extractLsb' 5 10) (w.extractLsb' 1 4))

/-- Major 0x22: STH. -/
def decodeMajor22 (w : Half) : Option Instr :=
  some (.sth (w.extractLsb' 20 5) (w.extractLsb' 15 5) (w.extractLsb' 5 10) (w.extractLsb' 1 4))

/-- Major 0x23: STW. -/
def decodeMajor23 (w : Half) : Option Instr :=
  some (.stw (w.extractLsb' 20 5) (w.extractLsb' 15 5) (w.extractLsb' 5 10) (w.extractLsb' 1 4))

/-- Major 0x24: STD. -/
def decodeMajor24 (w : Half) : Option Instr :=
  some (.std (w.extractLsb' 20 5) (w.extractLsb' 15 5) (w.extractLsb' 5 10) (w.extractLsb' 1 4))

/-- Major 0x25: LDA. -/
def decodeMajor25 (w : Half) : Option Instr :=
  some (.lda (w.extractLsb' 20 5) (w.extractLsb' 15 5) (w.extractLsb' 13 2) (w.extractLsb' 12 1) (w.extractLsb' 9 3) (w.extractLsb' 1 8))

/-- Major 0x26: STREL. -/
def decodeMajor26 (w : Half) : Option Instr :=
  match (w.extractLsb' 5 5).toNat with
  | 0 => some (.strel (w.extractLsb' 20 5) (w.extractLsb' 15 5) (w.extractLsb' 13 2) (w.extractLsb' 10 3) (w.extractLsb' 1 4))
  | _ => none

/-- Major 0x27: LDV. -/
def decodeMajor27 (w : Half) : Option Instr :=
  some (.ldv (w.extractLsb' 20 5) (w.extractLsb' 15 5) (w.extractLsb' 1 14))

/-- Major 0x28: STV. -/
def decodeMajor28 (w : Half) : Option Instr :=
  some (.stv (w.extractLsb' 20 5) (w.extractLsb' 15 5) (w.extractLsb' 5 10) (w.extractLsb' 1 4))

/-- Major 0x29: GATH, GATH_T. -/
def decodeMajor29 (w : Half) : Option Instr :=
  match (w.extractLsb' 6 1).toNat with
  | 0 =>
      match (w.extractLsb' 1 4).toNat with
      | 0 => some (.gath (w.extractLsb' 20 5) (w.extractLsb' 15 5) (w.extractLsb' 10 5) (w.extractLsb' 8 2) (w.extractLsb' 7 1) (w.extractLsb' 5 1))
      | _ => none
  | 1 =>
      match (w.extractLsb' 1 4).toNat with
      | 0 => some (.gathT (w.extractLsb' 20 5) (w.extractLsb' 15 5) (w.extractLsb' 10 5) (w.extractLsb' 8 2) (w.extractLsb' 7 1) (w.extractLsb' 5 1))
      | _ => none
  | _ => none

/-- Major 0x2A: SCAT. -/
def decodeMajor2A (w : Half) : Option Instr :=
  match (w.extractLsb' 6 2).toNat with
  | 0 => some (.scat (w.extractLsb' 20 5) (w.extractLsb' 15 5) (w.extractLsb' 10 5) (w.extractLsb' 8 2) (w.extractLsb' 5 1) (w.extractLsb' 1 4))
  | _ => none

/-- Major 0x2B: AMO. -/
def decodeMajor2B (w : Half) : Option Instr :=
  some (.amo (w.extractLsb' 20 5) (w.extractLsb' 15 5) (w.extractLsb' 11 4) (w.extractLsb' 10 1) (w.extractLsb' 8 2) (w.extractLsb' 5 3) (w.extractLsb' 1 4))

/-- Major 0x2C: AMON. -/
def decodeMajor2C (w : Half) : Option Instr :=
  match (w.extractLsb' 5 5).toNat with
  | 0 => some (.amon (w.extractLsb' 20 5) (w.extractLsb' 15 5) (w.extractLsb' 11 4) (w.extractLsb' 10 1) (w.extractLsb' 1 4))
  | _ => none

/-- Major 0x2D: CAS. -/
def decodeMajor2D (w : Half) : Option Instr :=
  match (w.extractLsb' 11 4).toNat with
  | 0 => some (.cas (w.extractLsb' 20 5) (w.extractLsb' 15 5) (w.extractLsb' 10 1) (w.extractLsb' 8 2) (w.extractLsb' 5 3) (w.extractLsb' 1 4))
  | _ => none

/-- Major 0x2E: FENCE. -/
def decodeMajor2E (w : Half) : Option Instr :=
  match (w.extractLsb' 1 14).toNat with
  | 0 => some (.fence (w.extractLsb' 20 5) (w.extractLsb' 18 2) (w.extractLsb' 15 3))
  | _ => none

/-- Major 0x30: CALLD. -/
def decodeMajor30 (w : Half) : Option Instr :=
  match (w.extractLsb' 1 7).toNat with
  | 0 => some (.calld (w.extractLsb' 20 5) (w.extractLsb' 8 12))
  | _ => none

/-- Major 0x31: TAILD. -/
def decodeMajor31 (w : Half) : Option Instr :=
  match (w.extractLsb' 1 7).toNat with
  | 0 => some (.taild (w.extractLsb' 20 5) (w.extractLsb' 8 12))
  | _ => none

/-- Major 0x32: RETD. -/
def decodeMajor32 (w : Half) : Option Instr :=
  match (w.extractLsb' 1 24).toNat with
  | 0 => some .retd
  | _ => none

/-- Major 0x33: SUSP. -/
def decodeMajor33 (w : Half) : Option Instr :=
  match (w.extractLsb' 20 5).toNat with
  | 0 =>
      match (w.extractLsb' 1 7).toNat with
      | 0 => some (.susp (w.extractLsb' 8 12))
      | _ => none
  | _ => none

/-- Major 0x34: DONE. -/
def decodeMajor34 (w : Half) : Option Instr :=
  match (w.extractLsb' 1 24).toNat with
  | 0 => some .done
  | _ => none

/-- Major 0x35: SPAWN. -/
def decodeMajor35 (w : Half) : Option Instr :=
  match (w.extractLsb' 1 9).toNat with
  | 0 => some (.spawn (w.extractLsb' 20 5) (w.extractLsb' 15 5) (w.extractLsb' 10 5))
  | _ => none

/-- Major 0x36: SEND. -/
def decodeMajor36 (w : Half) : Option Instr :=
  match (w.extractLsb' 1 5).toNat with
  | 0 => some (.send (w.extractLsb' 20 5) (w.extractLsb' 15 5) (w.extractLsb' 10 5) (w.extractLsb' 6 4))
  | _ => none

/-- Major 0x37: RECV, RECV_T. -/
def decodeMajor37 (w : Half) : Option Instr :=
  match (w.extractLsb' 1 10).toNat with
  | 0 => some (.recv (w.extractLsb' 20 5) (w.extractLsb' 15 5) (w.extractLsb' 11 4))
  | 512 => some (.recvT (w.extractLsb' 20 5) (w.extractLsb' 15 5) (w.extractLsb' 11 4))
  | _ => none

/-- Major 0x38: COMMIT. -/
def decodeMajor38 (w : Half) : Option Instr :=
  match (w.extractLsb' 1 24).toNat with
  | 0 => some .commit
  | _ => none

/-- Major 0x39: CSRR. -/
def decodeMajor39 (w : Half) : Option Instr :=
  match (w.extractLsb' 1 7).toNat with
  | 0 => some (.csrr (w.extractLsb' 20 5) (w.extractLsb' 8 12))
  | _ => none

/-- Major 0x3A: CSRW. -/
def decodeMajor3A (w : Half) : Option Instr :=
  match (w.extractLsb' 1 7).toNat with
  | 0 => some (.csrw (w.extractLsb' 20 5) (w.extractLsb' 8 12))
  | _ => none

/-- Major 0x3B: TRAP. -/
def decodeMajor3B (w : Half) : Option Instr :=
  match (w.extractLsb' 1 8).toNat with
  | 0 => some (.trap (w.extractLsb' 9 16))
  | _ => none

/-- Major 0x3C: ERET. -/
def decodeMajor3C (w : Half) : Option Instr :=
  match (w.extractLsb' 1 24).toNat with
  | 0 => some .eret
  | _ => none

/-- Major 0x3D: SYS_PLBINV, SYS_CSINV, SYS_QFLUSH, SYS_EVCFG, SYS_TABCLR. -/
def decodeMajor3D (w : Half) : Option Instr :=
  if w.extractLsb' 20 5 == 0#5 && w.extractLsb' 1 9 == 0#9 then some (.sysPlbinv (w.extractLsb' 15 5) (w.extractLsb' 10 5))
  else
    if w.extractLsb' 20 5 == 0#5 && w.extractLsb' 1 14 == 16#14 then some (.sysCsinv (w.extractLsb' 15 5))
    else
      if w.extractLsb' 20 5 == 0#5 && w.extractLsb' 1 14 == 32#14 then some (.sysQflush (w.extractLsb' 15 5))
      else
        if w.extractLsb' 20 5 == 0#5 && w.extractLsb' 1 9 == 48#9 then some (.sysEvcfg (w.extractLsb' 15 5) (w.extractLsb' 10 5))
        else
          match (w.extractLsb' 1 24).toNat with
          | 64 => some .sysTabclr
          | _ => none

/-- Major 0x40: VADD, VADD_SAT_I, VADD_SAT_N. -/
def decodeMajor40 (w : Half) : Option Instr :=
  match (w.extractLsb' 1 3).toNat with
  | 0 => some (.vadd (w.extractLsb' 19 6) (w.extractLsb' 13 6) (w.extractLsb' 7 6) (w.extractLsb' 4 3))
  | 1 => some (.vaddSatI (w.extractLsb' 19 6) (w.extractLsb' 13 6) (w.extractLsb' 7 6) (w.extractLsb' 4 3))
  | 2 => some (.vaddSatN (w.extractLsb' 19 6) (w.extractLsb' 13 6) (w.extractLsb' 7 6) (w.extractLsb' 4 3))
  | _ => none

/-- Major 0x41: VSUB, VSUB_SAT_I, VSUB_SAT_N. -/
def decodeMajor41 (w : Half) : Option Instr :=
  match (w.extractLsb' 1 3).toNat with
  | 0 => some (.vsub (w.extractLsb' 19 6) (w.extractLsb' 13 6) (w.extractLsb' 7 6) (w.extractLsb' 4 3))
  | 1 => some (.vsubSatI (w.extractLsb' 19 6) (w.extractLsb' 13 6) (w.extractLsb' 7 6) (w.extractLsb' 4 3))
  | 2 => some (.vsubSatN (w.extractLsb' 19 6) (w.extractLsb' 13 6) (w.extractLsb' 7 6) (w.extractLsb' 4 3))
  | _ => none

/-- Major 0x42: VMUL, VMUL_HI_I, VMUL_HI_N, VMUL_SAT. -/
def decodeMajor42 (w : Half) : Option Instr :=
  match (w.extractLsb' 1 3).toNat with
  | 0 => some (.vmul (w.extractLsb' 19 6) (w.extractLsb' 13 6) (w.extractLsb' 7 6) (w.extractLsb' 4 3))
  | 1 => some (.vmulHiI (w.extractLsb' 19 6) (w.extractLsb' 13 6) (w.extractLsb' 7 6) (w.extractLsb' 4 3))
  | 2 => some (.vmulHiN (w.extractLsb' 19 6) (w.extractLsb' 13 6) (w.extractLsb' 7 6) (w.extractLsb' 4 3))
  | 3 => some (.vmulSat (w.extractLsb' 19 6) (w.extractLsb' 13 6) (w.extractLsb' 7 6) (w.extractLsb' 4 3))
  | _ => none

/-- Major 0x43: VFMA, VFMA_MS, VFMA_NA, VFMA_NMS. -/
def decodeMajor43 (w : Half) : Option Instr :=
  match (w.extractLsb' 1 3).toNat with
  | 0 => some (.vfma (w.extractLsb' 19 6) (w.extractLsb' 13 6) (w.extractLsb' 7 6) (w.extractLsb' 4 3))
  | 1 => some (.vfmaMs (w.extractLsb' 19 6) (w.extractLsb' 13 6) (w.extractLsb' 7 6) (w.extractLsb' 4 3))
  | 2 => some (.vfmaNa (w.extractLsb' 19 6) (w.extractLsb' 13 6) (w.extractLsb' 7 6) (w.extractLsb' 4 3))
  | 3 => some (.vfmaNms (w.extractLsb' 19 6) (w.extractLsb' 13 6) (w.extractLsb' 7 6) (w.extractLsb' 4 3))
  | _ => none

/-- Major 0x44: VMIN, VMIN_NUM. -/
def decodeMajor44 (w : Half) : Option Instr :=
  match (w.extractLsb' 1 3).toNat with
  | 0 => some (.vmin (w.extractLsb' 19 6) (w.extractLsb' 13 6) (w.extractLsb' 7 6) (w.extractLsb' 4 3))
  | 1 => some (.vminNum (w.extractLsb' 19 6) (w.extractLsb' 13 6) (w.extractLsb' 7 6) (w.extractLsb' 4 3))
  | _ => none

/-- Major 0x45: VMAX, VMAX_NUM. -/
def decodeMajor45 (w : Half) : Option Instr :=
  match (w.extractLsb' 1 3).toNat with
  | 0 => some (.vmax (w.extractLsb' 19 6) (w.extractLsb' 13 6) (w.extractLsb' 7 6) (w.extractLsb' 4 3))
  | 1 => some (.vmaxNum (w.extractLsb' 19 6) (w.extractLsb' 13 6) (w.extractLsb' 7 6) (w.extractLsb' 4 3))
  | _ => none

/-- Major 0x46: VAND, VOR, VXOR, VANDN, VNOT. -/
def decodeMajor46 (w : Half) : Option Instr :=
  if w.extractLsb' 1 6 == 16#6 then some (.vand (w.extractLsb' 19 6) (w.extractLsb' 13 6) (w.extractLsb' 7 6))
  else
    if w.extractLsb' 1 6 == 17#6 then some (.vor (w.extractLsb' 19 6) (w.extractLsb' 13 6) (w.extractLsb' 7 6))
    else
      if w.extractLsb' 1 6 == 18#6 then some (.vxor (w.extractLsb' 19 6) (w.extractLsb' 13 6) (w.extractLsb' 7 6))
      else
        if w.extractLsb' 1 6 == 19#6 then some (.vandn (w.extractLsb' 19 6) (w.extractLsb' 13 6) (w.extractLsb' 7 6))
        else
          match (w.extractLsb' 1 12).toNat with
          | 20 => some (.vnot (w.extractLsb' 19 6) (w.extractLsb' 13 6))
          | _ => none

/-- Major 0x47: VSHL, VSHR, VSRA, VSHLI, VSHRI, VSRAI. -/
def decodeMajor47 (w : Half) : Option Instr :=
  match (w.extractLsb' 1 3).toNat with
  | 0 => some (.vshl (w.extractLsb' 19 6) (w.extractLsb' 13 6) (w.extractLsb' 7 6) (w.extractLsb' 4 3))
  | 1 => some (.vshr (w.extractLsb' 19 6) (w.extractLsb' 13 6) (w.extractLsb' 7 6) (w.extractLsb' 4 3))
  | 2 => some (.vsra (w.extractLsb' 19 6) (w.extractLsb' 13 6) (w.extractLsb' 7 6) (w.extractLsb' 4 3))
  | 4 => some (.vshli (w.extractLsb' 19 6) (w.extractLsb' 13 6) (w.extractLsb' 7 6) (w.extractLsb' 4 3))
  | 5 => some (.vshri (w.extractLsb' 19 6) (w.extractLsb' 13 6) (w.extractLsb' 7 6) (w.extractLsb' 4 3))
  | 6 => some (.vsrai (w.extractLsb' 19 6) (w.extractLsb' 13 6) (w.extractLsb' 7 6) (w.extractLsb' 4 3))
  | _ => none

/-- Major 0x48: VCMP. -/
def decodeMajor48 (w : Half) : Option Instr :=
  some (.vcmp (w.extractLsb' 19 6) (w.extractLsb' 13 6) (w.extractLsb' 7 6) (w.extractLsb' 4 3) (w.extractLsb' 1 3))

/-- Major 0x49: VSEL. -/
def decodeMajor49 (w : Half) : Option Instr :=
  match (w.extractLsb' 1 3).toNat with
  | 0 => some (.vsel (w.extractLsb' 19 6) (w.extractLsb' 13 6) (w.extractLsb' 7 6) (w.extractLsb' 4 3))
  | _ => none

/-- Major 0x4A: VCVT. -/
def decodeMajor4A (w : Half) : Option Instr :=
  some (.vcvt (w.extractLsb' 19 6) (w.extractLsb' 13 6) (w.extractLsb' 9 4) (w.extractLsb' 5 4) (w.extractLsb' 1 4))

/-- Major 0x4B: VENC_C8, VENC_C4. -/
def decodeMajor4B (w : Half) : Option Instr :=
  match (w.extractLsb' 4 1).toNat with
  | 0 =>
      match (w.extractLsb' 9 4).toNat with
      | 0 => some (.vencC8 (w.extractLsb' 19 6) (w.extractLsb' 13 6) (w.extractLsb' 5 4) (w.extractLsb' 1 3))
      | _ => none
  | 1 => some (.vencC4 (w.extractLsb' 19 6) (w.extractLsb' 13 6) (w.extractLsb' 9 4) (w.extractLsb' 5 4) (w.extractLsb' 1 3))
  | _ => none

/-- Major 0x4C: VDEC_C8, VDEC_C4. -/
def decodeMajor4C (w : Half) : Option Instr :=
  if w.extractLsb' 4 9 == 0#9 then some (.vdecC8 (w.extractLsb' 19 6) (w.extractLsb' 13 6) (w.extractLsb' 1 3))
  else
    match (w.extractLsb' 4 5).toNat with
    | 1 => some (.vdecC4 (w.extractLsb' 19 6) (w.extractLsb' 13 6) (w.extractLsb' 9 4) (w.extractLsb' 1 3))
    | _ => none

/-- Major 0x4D: VSPLAT, VSPLAT_IMM. -/
def decodeMajor4D (w : Half) : Option Instr :=
  match (w.extractLsb' 1 3).toNat with
  | 0 =>
      match (w.extractLsb' 7 6).toNat with
      | 0 => some (.vsplat (w.extractLsb' 19 6) (w.extractLsb' 13 6) (w.extractLsb' 4 3))
      | _ => none
  | 1 => some (.vsplatImm (w.extractLsb' 19 6) (w.extractLsb' 7 12) (w.extractLsb' 4 3))
  | _ => none

/-- Major 0x4E: VEXT, VINS. -/
def decodeMajor4E (w : Half) : Option Instr :=
  match (w.extractLsb' 1 3).toNat with
  | 0 => some (.vext (w.extractLsb' 19 6) (w.extractLsb' 13 6) (w.extractLsb' 7 6) (w.extractLsb' 4 3))
  | 1 => some (.vins (w.extractLsb' 19 6) (w.extractLsb' 13 6) (w.extractLsb' 7 6) (w.extractLsb' 4 3))
  | _ => none

/-- Major 0x4F: VPERM. -/
def decodeMajor4F (w : Half) : Option Instr :=
  match (w.extractLsb' 1 3).toNat with
  | 0 => some (.vperm (w.extractLsb' 19 6) (w.extractLsb' 13 6) (w.extractLsb' 7 6) (w.extractLsb' 4 3))
  | _ => none

/-- Major 0x50: VSLIDEUP, VSLIDEDN. -/
def decodeMajor50 (w : Half) : Option Instr :=
  match (w.extractLsb' 1 3).toNat with
  | 0 => some (.vslideup (w.extractLsb' 19 6) (w.extractLsb' 13 6) (w.extractLsb' 7 6) (w.extractLsb' 4 3))
  | 1 => some (.vslidedn (w.extractLsb' 19 6) (w.extractLsb' 13 6) (w.extractLsb' 7 6) (w.extractLsb' 4 3))
  | _ => none

/-- Major 0x51: VRED. -/
def decodeMajor51 (w : Half) : Option Instr :=
  match (w.extractLsb' 7 6).toNat with
  | 0 => some (.vred (w.extractLsb' 19 6) (w.extractLsb' 13 6) (w.extractLsb' 4 3) (w.extractLsb' 1 3))
  | _ => none

/-- Major 0x52: VMATH. -/
def decodeMajor52 (w : Half) : Option Instr :=
  match (w.extractLsb' 4 9).toNat with
  | 5 => some (.vmath (w.extractLsb' 19 6) (w.extractLsb' 13 6) (w.extractLsb' 1 3))
  | _ => none

/-- Major 0x53: VABS, VNEG, VABS_SAT. -/
def decodeMajor53 (w : Half) : Option Instr :=
  match (w.extractLsb' 7 6).toNat with
  | 0 =>
      match (w.extractLsb' 1 3).toNat with
      | 0 => some (.vabs (w.extractLsb' 19 6) (w.extractLsb' 13 6) (w.extractLsb' 4 3))
      | 1 => some (.vneg (w.extractLsb' 19 6) (w.extractLsb' 13 6) (w.extractLsb' 4 3))
      | 2 => some (.vabsSat (w.extractLsb' 19 6) (w.extractLsb' 13 6) (w.extractLsb' 4 3))
      | _ => none
  | _ => none

/-- Major 0x54: VPOP, VPUSH. -/
def decodeMajor54 (w : Half) : Option Instr :=
  match (w.extractLsb' 1 12).toNat with
  | 16 => some (.vpop (w.extractLsb' 19 6) (w.extractLsb' 13 6))
  | 17 => some (.vpush (w.extractLsb' 19 6) (w.extractLsb' 13 6))
  | _ => none

/-- Major 0x55: VMOV, VZERO, VIOTA, ECLR. -/
def decodeMajor55 (w : Half) : Option Instr :=
  if w.extractLsb' 1 12 == 16#12 then some (.vmov (w.extractLsb' 19 6) (w.extractLsb' 13 6))
  else
    if w.extractLsb' 1 18 == 17#18 then some (.vzero (w.extractLsb' 19 6))
    else
      if w.extractLsb' 7 12 == 0#12 && w.extractLsb' 1 3 == 2#3 then some (.viota (w.extractLsb' 19 6) (w.extractLsb' 4 3))
      else
        match (w.extractLsb' 1 18).toNat with
        | 19 => some (.eclr (w.extractLsb' 19 6))
        | _ => none

/-- Major 0x56: VDOT4. -/
def decodeMajor56 (w : Half) : Option Instr :=
  match (w.extractLsb' 4 3).toNat with
  | 0 => some (.vdot4 (w.extractLsb' 19 6) (w.extractLsb' 13 6) (w.extractLsb' 7 6) (w.extractLsb' 1 3))
  | _ => none

/-- Major 0x57: VMASK_V, VMASK_C. -/
def decodeMajor57 (w : Half) : Option Instr :=
  match (w.extractLsb' 1 12).toNat with
  | 16 => some (.vmaskV (w.extractLsb' 19 6) (w.extractLsb' 13 6))
  | 17 => some (.vmaskC (w.extractLsb' 19 6) (w.extractLsb' 13 6))
  | _ => none

/-- Major 0x5F: VFMA2. -/
def decodeMajor5F (w : Half) : Option Instr :=
  match (w.extractLsb' 1 3).toNat with
  | 0 => some (.vfma2 (w.extractLsb' 19 6) (w.extractLsb' 13 6) (w.extractLsb' 7 6) (w.extractLsb' 4 3))
  | _ => none

/-- Major 0x60: TDSET. -/
def decodeMajor60 (w : Half) : Option Instr :=
  match (w.extractLsb' 1 15).toNat with
  | 0 => some (.tdset (w.extractLsb' 21 4) (w.extractLsb' 16 5))
  | _ => none

/-- Major 0x61: MMA, MMAZ. -/
def decodeMajor61 (w : Half) : Option Instr :=
  match (w.extractLsb' 1 14).toNat with
  | 0 => some (.mma (w.extractLsb' 23 2) (w.extractLsb' 19 4) (w.extractLsb' 15 4))
  | 8192 => some (.mmaz (w.extractLsb' 23 2) (w.extractLsb' 19 4) (w.extractLsb' 15 4))
  | _ => none

/-- Major 0x62: MZERO. -/
def decodeMajor62 (w : Half) : Option Instr :=
  match (w.extractLsb' 1 20).toNat with
  | 0 => some (.mzero (w.extractLsb' 21 4))
  | _ => none

/-- Major 0x63: MSCA_ROW, MSCA_COL. -/
def decodeMajor63 (w : Half) : Option Instr :=
  match (w.extractLsb' 1 16).toNat with
  | 0 => some (.mscaRow (w.extractLsb' 23 2) (w.extractLsb' 17 6))
  | 32768 => some (.mscaCol (w.extractLsb' 23 2) (w.extractLsb' 17 6))
  | _ => none

/-- Major 0x64: MRD. -/
def decodeMajor64 (w : Half) : Option Instr :=
  match (w.extractLsb' 1 12).toNat with
  | 0 => some (.mrd (w.extractLsb' 19 6) (w.extractLsb' 17 2) (w.extractLsb' 13 4))
  | _ => none

/-- Major 0x65: MWR. -/
def decodeMajor65 (w : Half) : Option Instr :=
  match (w.extractLsb' 1 12).toNat with
  | 0 => some (.mwr (w.extractLsb' 19 6) (w.extractLsb' 17 2) (w.extractLsb' 13 4))
  | _ => none

/-- Major 0x66: MST. -/
def decodeMajor66 (w : Half) : Option Instr :=
  match (w.extractLsb' 1 9).toNat with
  | 0 => some (.mst (w.extractLsb' 23 2) (w.extractLsb' 19 4) (w.extractLsb' 16 3) (w.extractLsb' 12 4) (w.extractLsb' 10 2))
  | _ => none

/-- Major 0x67: MLD. -/
def decodeMajor67 (w : Half) : Option Instr :=
  match (w.extractLsb' 1 18).toNat with
  | 0 => some (.mld (w.extractLsb' 23 2) (w.extractLsb' 19 4))
  | _ => none

/-- Major 0x68: LDTAB. -/
def decodeMajor68 (w : Half) : Option Instr :=
  match (w.extractLsb' 1 19).toNat with
  | 0 => some (.ldtab (w.extractLsb' 20 5))
  | _ => none

/-- Major 0x69: MCMB. -/
def decodeMajor69 (w : Half) : Option Instr :=
  match (w.extractLsb' 1 20).toNat with
  | 0 => some (.mcmb (w.extractLsb' 23 2) (w.extractLsb' 21 2))
  | _ => none

/-- Major 0x6B: MMAW, MMAWZ. -/
def decodeMajor6B (w : Half) : Option Instr :=
  match (w.extractLsb' 1 14).toNat with
  | 0 => some (.mmaw (w.extractLsb' 23 2) (w.extractLsb' 19 4) (w.extractLsb' 15 4))
  | 8192 => some (.mmawz (w.extractLsb' 23 2) (w.extractLsb' 19 4) (w.extractLsb' 15 4))
  | _ => none

/-- Major 0x6C: BMV. -/
def decodeMajor6C (w : Half) : Option Instr :=
  match (w.extractLsb' 1 14).toNat with
  | 0 => some (.bmv (w.extractLsb' 20 5) (w.extractLsb' 15 5))
  | _ => none

/-- Major 0x6D: BTAB. -/
def decodeMajor6D (w : Half) : Option Instr :=
  match (w.extractLsb' 1 9).toNat with
  | 0 => some (.btab (w.extractLsb' 20 5) (w.extractLsb' 15 5) (w.extractLsb' 10 5))
  | _ => none

/-- Major 0x6E: BLAY. -/
def decodeMajor6E (w : Half) : Option Instr :=
  match (w.extractLsb' 1 14).toNat with
  | 0 => some (.blay (w.extractLsb' 20 5) (w.extractLsb' 15 5))
  | _ => none

/-- Major 0x70: SHPMK. -/
def decodeMajor70 (w : Half) : Option Instr :=
  match (w.extractLsb' 1 14).toNat with
  | 0 => some (.shpmk (w.extractLsb' 20 5) (w.extractLsb' 15 5))
  | _ => none

/-- Major 0x71: SHPDEL. -/
def decodeMajor71 (w : Half) : Option Instr :=
  match (w.extractLsb' 20 5).toNat with
  | 0 =>
      match (w.extractLsb' 1 14).toNat with
      | 0 => some (.shpdel (w.extractLsb' 15 5))
      | _ => none
  | _ => none

/-- Major 0x72: COPY. -/
def decodeMajor72 (w : Half) : Option Instr :=
  match (w.extractLsb' 1 4).toNat with
  | 0 => some (.copy (w.extractLsb' 20 5) (w.extractLsb' 15 5) (w.extractLsb' 10 5) (w.extractLsb' 5 5))
  | _ => none

/-- Major 0x73: COPYS. -/
def decodeMajor73 (w : Half) : Option Instr :=
  match (w.extractLsb' 1 4).toNat with
  | 0 => some (.copys (w.extractLsb' 20 5) (w.extractLsb' 15 5) (w.extractLsb' 10 5) (w.extractLsb' 5 5))
  | _ => none

/-- Major 0x74: CFILL. -/
def decodeMajor74 (w : Half) : Option Instr :=
  match (w.extractLsb' 1 4).toNat with
  | 0 => some (.cfill (w.extractLsb' 20 5) (w.extractLsb' 15 5) (w.extractLsb' 10 5) (w.extractLsb' 5 5))
  | _ => none

/-- Major 0x78: FXPUT. -/
def decodeMajor78 (w : Half) : Option Instr :=
  match (w.extractLsb' 1 4).toNat with
  | 0 => some (.fxput (w.extractLsb' 20 5) (w.extractLsb' 15 5) (w.extractLsb' 10 5) (w.extractLsb' 5 5))
  | _ => none

/-- Major 0x79: FXGET. -/
def decodeMajor79 (w : Half) : Option Instr :=
  match (w.extractLsb' 1 4).toNat with
  | 0 => some (.fxget (w.extractLsb' 20 5) (w.extractLsb' 15 5) (w.extractLsb' 10 5) (w.extractLsb' 5 5))
  | _ => none

/-- Major 0x7A: FXRED. -/
def decodeMajor7A (w : Half) : Option Instr :=
  match (w.extractLsb' 1 4).toNat with
  | 0 => some (.fxred (w.extractLsb' 20 5) (w.extractLsb' 15 5) (w.extractLsb' 10 5) (w.extractLsb' 5 5))
  | _ => none

/-- Major 0x7B: ARC_JOIN, ARC_LEAVE, ARC_BAR. -/
def decodeMajor7B (w : Half) : Option Instr :=
  match (w.extractLsb' 1 14).toNat with
  | 0 => some (.arcJoin (w.extractLsb' 20 5) (w.extractLsb' 15 5))
  | 16 => some (.arcLeave (w.extractLsb' 20 5) (w.extractLsb' 15 5))
  | 32 => some (.arcBar (w.extractLsb' 20 5) (w.extractLsb' 15 5))
  | _ => none

/-- The row of the opcode table a half belongs to, by its major in bits 31 to 25, before its field limits. -/
def decodeRow (w : Half) : Option Instr :=
  match (w.extractLsb' 25 7).toNat with
  | 1 => decodeMajor01 w
  | 2 => decodeMajor02 w
  | 3 => decodeMajor03 w
  | 4 => decodeMajor04 w
  | 5 => decodeMajor05 w
  | 6 => decodeMajor06 w
  | 7 => decodeMajor07 w
  | 8 => decodeMajor08 w
  | 9 => decodeMajor09 w
  | 10 => decodeMajor0A w
  | 11 => decodeMajor0B w
  | 12 => decodeMajor0C w
  | 13 => decodeMajor0D w
  | 14 => decodeMajor0E w
  | 15 => decodeMajor0F w
  | 16 => decodeMajor10 w
  | 17 => decodeMajor11 w
  | 18 => decodeMajor12 w
  | 19 => decodeMajor13 w
  | 20 => decodeMajor14 w
  | 21 => decodeMajor15 w
  | 24 => decodeMajor18 w
  | 25 => decodeMajor19 w
  | 26 => decodeMajor1A w
  | 27 => decodeMajor1B w
  | 32 => decodeMajor20 w
  | 33 => decodeMajor21 w
  | 34 => decodeMajor22 w
  | 35 => decodeMajor23 w
  | 36 => decodeMajor24 w
  | 37 => decodeMajor25 w
  | 38 => decodeMajor26 w
  | 39 => decodeMajor27 w
  | 40 => decodeMajor28 w
  | 41 => decodeMajor29 w
  | 42 => decodeMajor2A w
  | 43 => decodeMajor2B w
  | 44 => decodeMajor2C w
  | 45 => decodeMajor2D w
  | 46 => decodeMajor2E w
  | 48 => decodeMajor30 w
  | 49 => decodeMajor31 w
  | 50 => decodeMajor32 w
  | 51 => decodeMajor33 w
  | 52 => decodeMajor34 w
  | 53 => decodeMajor35 w
  | 54 => decodeMajor36 w
  | 55 => decodeMajor37 w
  | 56 => decodeMajor38 w
  | 57 => decodeMajor39 w
  | 58 => decodeMajor3A w
  | 59 => decodeMajor3B w
  | 60 => decodeMajor3C w
  | 61 => decodeMajor3D w
  | 64 => decodeMajor40 w
  | 65 => decodeMajor41 w
  | 66 => decodeMajor42 w
  | 67 => decodeMajor43 w
  | 68 => decodeMajor44 w
  | 69 => decodeMajor45 w
  | 70 => decodeMajor46 w
  | 71 => decodeMajor47 w
  | 72 => decodeMajor48 w
  | 73 => decodeMajor49 w
  | 74 => decodeMajor4A w
  | 75 => decodeMajor4B w
  | 76 => decodeMajor4C w
  | 77 => decodeMajor4D w
  | 78 => decodeMajor4E w
  | 79 => decodeMajor4F w
  | 80 => decodeMajor50 w
  | 81 => decodeMajor51 w
  | 82 => decodeMajor52 w
  | 83 => decodeMajor53 w
  | 84 => decodeMajor54 w
  | 85 => decodeMajor55 w
  | 86 => decodeMajor56 w
  | 87 => decodeMajor57 w
  | 95 => decodeMajor5F w
  | 96 => decodeMajor60 w
  | 97 => decodeMajor61 w
  | 98 => decodeMajor62 w
  | 99 => decodeMajor63 w
  | 100 => decodeMajor64 w
  | 101 => decodeMajor65 w
  | 102 => decodeMajor66 w
  | 103 => decodeMajor67 w
  | 104 => decodeMajor68 w
  | 105 => decodeMajor69 w
  | 107 => decodeMajor6B w
  | 108 => decodeMajor6C w
  | 109 => decodeMajor6D w
  | 110 => decodeMajor6E w
  | 112 => decodeMajor70 w
  | 113 => decodeMajor71 w
  | 114 => decodeMajor72 w
  | 115 => decodeMajor73 w
  | 116 => decodeMajor74 w
  | 120 => decodeMajor78 w
  | 121 => decodeMajor79 w
  | 122 => decodeMajor7A w
  | 123 => decodeMajor7B w
  | _ => none

/-- The instruction of a 32-bit half (R60, R62, R65, R73). -/
def decodeHalf (w : Half) : Instr :=
  if w == 0#32 then .zeroword
  else match decodeRow w with
    | some i => if i.wf then i else .reservedMajor w
    | none => .reservedMajor w

/-- The instruction the decoder reads from a row's bits, bit 0 the least significant bit of the first half. -/
def decodeTableWord (nbits w : Nat) : Option Instr :=
  if nbits == 0 then none
  else match decodeHalf (BitVec.ofNat 32 (w % 2 ^ nbits)) with
    | .zeroword => none
    | .reservedMajor _ => none
    | i => some i

/-- The sum of an instruction's fixed bits and its fields, each shifted to its place. -/
def wordNat (base : Nat) : List (Nat × Nat) → Nat
  | [] => base
  | f :: fs => f.1 * 2 ^ f.2 + wordNat base fs

/-- The half with those fixed bits and fields. -/
def word (base : Nat) (fs : List (Nat × Nat)) : Half := BitVec.ofNat 32 (wordNat base fs)

/-- The lone word (L = 1) of an instruction, from the formats of spec 04. Events have none. -/
def encodeHalf (i : Instr) : Option Half :=
  match i with
  | .add d a b => some (word 0x04000001 [(d.toNat, 20), (a.toNat, 15), (b.toNat, 10)])
  | .sub d a b => some (word 0x04000021 [(d.toNat, 20), (a.toNat, 15), (b.toNat, 10)])
  | .and d a b => some (word 0x04000041 [(d.toNat, 20), (a.toNat, 15), (b.toNat, 10)])
  | .or d a b => some (word 0x04000061 [(d.toNat, 20), (a.toNat, 15), (b.toNat, 10)])
  | .xor d a b => some (word 0x04000081 [(d.toNat, 20), (a.toNat, 15), (b.toNat, 10)])
  | .shl d a b => some (word 0x040000A1 [(d.toNat, 20), (a.toNat, 15), (b.toNat, 10)])
  | .shr d a b => some (word 0x040000C1 [(d.toNat, 20), (a.toNat, 15), (b.toNat, 10)])
  | .sra d a b => some (word 0x040000E1 [(d.toNat, 20), (a.toNat, 15), (b.toNat, 10)])
  | .min d a b => some (word 0x04000101 [(d.toNat, 20), (a.toNat, 15), (b.toNat, 10)])
  | .max d a b => some (word 0x04000121 [(d.toNat, 20), (a.toNat, 15), (b.toNat, 10)])
  | .minn d a b => some (word 0x04000141 [(d.toNat, 20), (a.toNat, 15), (b.toNat, 10)])
  | .maxn d a b => some (word 0x04000161 [(d.toNat, 20), (a.toNat, 15), (b.toNat, 10)])
  | .mul d a b => some (word 0x04000181 [(d.toNat, 20), (a.toNat, 15), (b.toNat, 10)])
  | .mulh d a b => some (word 0x040001A1 [(d.toNat, 20), (a.toNat, 15), (b.toNat, 10)])
  | .mulhn d a b => some (word 0x040001C1 [(d.toNat, 20), (a.toNat, 15), (b.toNat, 10)])
  | .div d a b => some (word 0x040001E1 [(d.toNat, 20), (a.toNat, 15), (b.toNat, 10)])
  | .divn d a b => some (word 0x04000201 [(d.toNat, 20), (a.toNat, 15), (b.toNat, 10)])
  | .rem d a b => some (word 0x04000221 [(d.toNat, 20), (a.toNat, 15), (b.toNat, 10)])
  | .remn d a b => some (word 0x04000241 [(d.toNat, 20), (a.toNat, 15), (b.toNat, 10)])
  | .shadd1 d a b => some (word 0x04000261 [(d.toNat, 20), (a.toNat, 15), (b.toNat, 10)])
  | .shadd2 d a b => some (word 0x04000281 [(d.toNat, 20), (a.toNat, 15), (b.toNat, 10)])
  | .shadd3 d a b => some (word 0x040002A1 [(d.toNat, 20), (a.toNat, 15), (b.toNat, 10)])
  | .andn d a b => some (word 0x040002C1 [(d.toNat, 20), (a.toNat, 15), (b.toNat, 10)])
  | .addi d a i => some (word 0x06000001 [(d.toNat, 20), (a.toNat, 15), (i.toNat, 1)])
  | .andi d a i => some (word 0x08000001 [(d.toNat, 20), (a.toNat, 15), (i.toNat, 1)])
  | .ori d a i => some (word 0x0A000001 [(d.toNat, 20), (a.toNat, 15), (i.toNat, 1)])
  | .xori d a i => some (word 0x0C000001 [(d.toNat, 20), (a.toNat, 15), (i.toNat, 1)])
  | .shli d a s => some (word 0x0E000001 [(d.toNat, 20), (a.toNat, 15), (s.toNat, 7)])
  | .shri d a s => some (word 0x0E002001 [(d.toNat, 20), (a.toNat, 15), (s.toNat, 7)])
  | .srai d a s => some (word 0x0E004001 [(d.toNat, 20), (a.toNat, 15), (s.toNat, 7)])
  | .lui d i => some (word 0x10000001 [(d.toNat, 20), (i.toNat, 1)])
  | .insh d h i => some (word 0x12000001 [(d.toNat, 20), (h.toNat, 18), (i.toNat, 2)])
  | .clz d a => some (word 0x14000001 [(d.toNat, 20), (a.toNat, 15)])
  | .ctz d a => some (word 0x14000021 [(d.toNat, 20), (a.toNat, 15)])
  | .popc d a => some (word 0x14000041 [(d.toNat, 20), (a.toNat, 15)])
  | .bswap d a => some (word 0x14000061 [(d.toNat, 20), (a.toNat, 15)])
  | .extb d a => some (word 0x14000081 [(d.toNat, 20), (a.toNat, 15)])
  | .exth d a => some (word 0x140000A1 [(d.toNat, 20), (a.toNat, 15)])
  | .extw d a => some (word 0x140000C1 [(d.toNat, 20), (a.toNat, 15)])
  | .extbn d a => some (word 0x140000E1 [(d.toNat, 20), (a.toNat, 15)])
  | .exthn d a => some (word 0x14000101 [(d.toNat, 20), (a.toNat, 15)])
  | .extwn d a => some (word 0x14000121 [(d.toNat, 20), (a.toNat, 15)])
  | .cmp p c a b => some (word 0x16000001 [(p.toNat, 22), (c.toNat, 19), (a.toNat, 14), (b.toNat, 9)])
  | .cmpi p c a i => some (word 0x18000001 [(p.toNat, 22), (c.toNat, 19), (a.toNat, 14), (i.toNat, 1)])
  | .plog d f a b => some (word 0x1A000001 [(d.toNat, 22), (f.toNat, 19), (a.toNat, 16), (b.toNat, 13)])
  | .sel d a b g => some (word 0x1C000001 [(d.toNat, 20), (a.toNat, 15), (b.toNat, 10), (g.toNat, 1)])
  | .pmovToReg r => some (word 0x1E000001 [(r.toNat, 20)])
  | .pmovFromReg r => some (word 0x1E080001 [(r.toNat, 20)])
  | .bc d g => some (word 0x20000001 [(d.toNat, 5), (g.toNat, 1)])
  | .bq d => some (word 0x22000001 [(d.toNat, 5)])
  | .bqN d => some (word 0x22000011 [(d.toNat, 5)])
  | .bout p => some (word 0x24000001 [(p.toNat, 22)])
  | .jr a => some (word 0x26000001 [(a.toNat, 15)])
  | .dbnz r d => some (word 0x28000001 [(r.toNat, 20), (d.toNat, 1)])
  | .twait d a => some (word 0x2A000001 [(d.toNat, 20), (a.toNat, 15)])
  | .bbset a b o m => some (word 0x30000001 [(a.toNat, 20), (b.toNat, 15), (o.toNat, 7), (m.toNat, 6)])
  | .bbget d w => some (word 0x32000001 [(d.toNat, 20), (w.toNat, 8)])
  | .bbpeek d w => some (word 0x34000001 [(d.toNat, 20), (w.toNat, 8)])
  | .bbskip w => some (word 0x36000001 [(w.toNat, 8)])
  | .ld d a s n i => some (word 0x40000001 [(d.toNat, 20), (a.toNat, 15), (s.toNat, 13), (n.toNat, 12), (i.toNat, 1)])
  | .stb v a i g => some (word 0x42000001 [(v.toNat, 20), (a.toNat, 15), (i.toNat, 5), (g.toNat, 1)])
  | .sth v a i g => some (word 0x44000001 [(v.toNat, 20), (a.toNat, 15), (i.toNat, 5), (g.toNat, 1)])
  | .stw v a i g => some (word 0x46000001 [(v.toNat, 20), (a.toNat, 15), (i.toNat, 5), (g.toNat, 1)])
  | .std v a i g => some (word 0x48000001 [(v.toNat, 20), (a.toNat, 15), (i.toNat, 5), (g.toNat, 1)])
  | .lda d a s n c i => some (word 0x4A000001 [(d.toNat, 20), (a.toNat, 15), (s.toNat, 13), (n.toNat, 12), (c.toNat, 9), (i.toNat, 1)])
  | .strel v a s c g => some (word 0x4C000001 [(v.toNat, 20), (a.toNat, 15), (s.toNat, 13), (c.toNat, 10), (g.toNat, 1)])
  | .ldv d a i => some (word 0x4E000001 [(d.toNat, 20), (a.toNat, 15), (i.toNat, 1)])
  | .stv v a i g => some (word 0x50000001 [(v.toNat, 20), (a.toNat, 15), (i.toNat, 5), (g.toNat, 1)])
  | .gath d a b s n x => some (word 0x52000001 [(d.toNat, 20), (a.toNat, 15), (b.toNat, 10), (s.toNat, 8), (n.toNat, 7), (x.toNat, 5)])
  | .gathT d a b s n x => some (word 0x52000041 [(d.toNat, 20), (a.toNat, 15), (b.toNat, 10), (s.toNat, 8), (n.toNat, 7), (x.toNat, 5)])
  | .scat v a b s x g => some (word 0x54000001 [(v.toNat, 20), (a.toNat, 15), (b.toNat, 10), (s.toNat, 8), (x.toNat, 5), (g.toNat, 1)])
  | .amo d a o s r c g => some (word 0x56000001 [(d.toNat, 20), (a.toNat, 15), (o.toNat, 11), (s.toNat, 10), (r.toNat, 8), (c.toNat, 5), (g.toNat, 1)])
  | .amon v a o s g => some (word 0x58000001 [(v.toNat, 20), (a.toNat, 15), (o.toNat, 11), (s.toNat, 10), (g.toNat, 1)])
  | .cas d a s r c g => some (word 0x5A000001 [(d.toNat, 20), (a.toNat, 15), (s.toNat, 10), (r.toNat, 8), (c.toNat, 5), (g.toNat, 1)])
  | .fence d k c => some (word 0x5C000001 [(d.toNat, 20), (k.toNat, 18), (c.toNat, 15)])
  | .calld h k => some (word 0x60000001 [(h.toNat, 20), (k.toNat, 8)])
  | .taild h k => some (word 0x62000001 [(h.toNat, 20), (k.toNat, 8)])
  | .susp k => some (word 0x66000001 [(k.toNat, 8)])
  | .spawn d a b => some (word 0x6A000001 [(d.toNat, 20), (a.toNat, 15), (b.toNat, 10)])
  | .send d a s c => some (word 0x6C000001 [(d.toNat, 20), (a.toNat, 15), (s.toNat, 10), (c.toNat, 6)])
  | .recv d a c => some (word 0x6E000001 [(d.toNat, 20), (a.toNat, 15), (c.toNat, 11)])
  | .recvT d a c => some (word 0x6E000401 [(d.toNat, 20), (a.toNat, 15), (c.toNat, 11)])
  | .csrr d c => some (word 0x72000001 [(d.toNat, 20), (c.toNat, 8)])
  | .csrw a c => some (word 0x74000001 [(a.toNat, 20), (c.toNat, 8)])
  | .trap c => some (word 0x76000001 [(c.toNat, 9)])
  | .sysPlbinv a b => some (word 0x7A000001 [(a.toNat, 15), (b.toNat, 10)])
  | .sysCsinv a => some (word 0x7A000021 [(a.toNat, 15)])
  | .sysQflush a => some (word 0x7A000041 [(a.toNat, 15)])
  | .sysEvcfg a b => some (word 0x7A000061 [(a.toNat, 15), (b.toNat, 10)])
  | .vadd d a b t => some (word 0x80000001 [(d.toNat, 19), (a.toNat, 13), (b.toNat, 7), (t.toNat, 4)])
  | .vaddSatI d a b t => some (word 0x80000003 [(d.toNat, 19), (a.toNat, 13), (b.toNat, 7), (t.toNat, 4)])
  | .vaddSatN d a b t => some (word 0x80000005 [(d.toNat, 19), (a.toNat, 13), (b.toNat, 7), (t.toNat, 4)])
  | .vsub d a b t => some (word 0x82000001 [(d.toNat, 19), (a.toNat, 13), (b.toNat, 7), (t.toNat, 4)])
  | .vsubSatI d a b t => some (word 0x82000003 [(d.toNat, 19), (a.toNat, 13), (b.toNat, 7), (t.toNat, 4)])
  | .vsubSatN d a b t => some (word 0x82000005 [(d.toNat, 19), (a.toNat, 13), (b.toNat, 7), (t.toNat, 4)])
  | .vmul d a b t => some (word 0x84000001 [(d.toNat, 19), (a.toNat, 13), (b.toNat, 7), (t.toNat, 4)])
  | .vmulHiI d a b t => some (word 0x84000003 [(d.toNat, 19), (a.toNat, 13), (b.toNat, 7), (t.toNat, 4)])
  | .vmulHiN d a b t => some (word 0x84000005 [(d.toNat, 19), (a.toNat, 13), (b.toNat, 7), (t.toNat, 4)])
  | .vmulSat d a b t => some (word 0x84000007 [(d.toNat, 19), (a.toNat, 13), (b.toNat, 7), (t.toNat, 4)])
  | .vfma d a b t => some (word 0x86000001 [(d.toNat, 19), (a.toNat, 13), (b.toNat, 7), (t.toNat, 4)])
  | .vfmaMs d a b t => some (word 0x86000003 [(d.toNat, 19), (a.toNat, 13), (b.toNat, 7), (t.toNat, 4)])
  | .vfmaNa d a b t => some (word 0x86000005 [(d.toNat, 19), (a.toNat, 13), (b.toNat, 7), (t.toNat, 4)])
  | .vfmaNms d a b t => some (word 0x86000007 [(d.toNat, 19), (a.toNat, 13), (b.toNat, 7), (t.toNat, 4)])
  | .vmin d a b t => some (word 0x88000001 [(d.toNat, 19), (a.toNat, 13), (b.toNat, 7), (t.toNat, 4)])
  | .vminNum d a b t => some (word 0x88000003 [(d.toNat, 19), (a.toNat, 13), (b.toNat, 7), (t.toNat, 4)])
  | .vmax d a b t => some (word 0x8A000001 [(d.toNat, 19), (a.toNat, 13), (b.toNat, 7), (t.toNat, 4)])
  | .vmaxNum d a b t => some (word 0x8A000003 [(d.toNat, 19), (a.toNat, 13), (b.toNat, 7), (t.toNat, 4)])
  | .vand d a b => some (word 0x8C000021 [(d.toNat, 19), (a.toNat, 13), (b.toNat, 7)])
  | .vor d a b => some (word 0x8C000023 [(d.toNat, 19), (a.toNat, 13), (b.toNat, 7)])
  | .vxor d a b => some (word 0x8C000025 [(d.toNat, 19), (a.toNat, 13), (b.toNat, 7)])
  | .vandn d a b => some (word 0x8C000027 [(d.toNat, 19), (a.toNat, 13), (b.toNat, 7)])
  | .vnot d a => some (word 0x8C000029 [(d.toNat, 19), (a.toNat, 13)])
  | .vshl d a b t => some (word 0x8E000001 [(d.toNat, 19), (a.toNat, 13), (b.toNat, 7), (t.toNat, 4)])
  | .vshr d a b t => some (word 0x8E000003 [(d.toNat, 19), (a.toNat, 13), (b.toNat, 7), (t.toNat, 4)])
  | .vsra d a b t => some (word 0x8E000005 [(d.toNat, 19), (a.toNat, 13), (b.toNat, 7), (t.toNat, 4)])
  | .vshli d a c t => some (word 0x8E000009 [(d.toNat, 19), (a.toNat, 13), (c.toNat, 7), (t.toNat, 4)])
  | .vshri d a c t => some (word 0x8E00000B [(d.toNat, 19), (a.toNat, 13), (c.toNat, 7), (t.toNat, 4)])
  | .vsrai d a c t => some (word 0x8E00000D [(d.toNat, 19), (a.toNat, 13), (c.toNat, 7), (t.toNat, 4)])
  | .vcmp d a b t c => some (word 0x90000001 [(d.toNat, 19), (a.toNat, 13), (b.toNat, 7), (t.toNat, 4), (c.toNat, 1)])
  | .vsel d a b t => some (word 0x92000001 [(d.toNat, 19), (a.toNat, 13), (b.toNat, 7), (t.toNat, 4)])
  | .vcvt d a t s r => some (word 0x94000001 [(d.toNat, 19), (a.toNat, 13), (t.toNat, 9), (s.toNat, 5), (r.toNat, 1)])
  | .vencC8 d a r q => some (word 0x96000001 [(d.toNat, 19), (a.toNat, 13), (r.toNat, 5), (q.toNat, 1)])
  | .vencC4 d a b r q => some (word 0x96000011 [(d.toNat, 19), (a.toNat, 13), (b.toNat, 9), (r.toNat, 5), (q.toNat, 1)])
  | .vdecC8 d a q => some (word 0x98000001 [(d.toNat, 19), (a.toNat, 13), (q.toNat, 1)])
  | .vdecC4 d a b q => some (word 0x98000011 [(d.toNat, 19), (a.toNat, 13), (b.toNat, 9), (q.toNat, 1)])
  | .vsplat d a t => some (word 0x9A000001 [(d.toNat, 19), (a.toNat, 13), (t.toNat, 4)])
  | .vsplatImm d i t => some (word 0x9A000003 [(d.toNat, 19), (i.toNat, 7), (t.toNat, 4)])
  | .vext d a k t => some (word 0x9C000001 [(d.toNat, 19), (a.toNat, 13), (k.toNat, 7), (t.toNat, 4)])
  | .vins d a k t => some (word 0x9C000003 [(d.toNat, 19), (a.toNat, 13), (k.toNat, 7), (t.toNat, 4)])
  | .vperm d a b t => some (word 0x9E000001 [(d.toNat, 19), (a.toNat, 13), (b.toNat, 7), (t.toNat, 4)])
  | .vslideup d a c t => some (word 0xA0000001 [(d.toNat, 19), (a.toNat, 13), (c.toNat, 7), (t.toNat, 4)])
  | .vslidedn d a c t => some (word 0xA0000003 [(d.toNat, 19), (a.toNat, 13), (c.toNat, 7), (t.toNat, 4)])
  | .vred d a t o => some (word 0xA2000001 [(d.toNat, 19), (a.toNat, 13), (t.toNat, 4), (o.toNat, 1)])
  | .vmath d a o => some (word 0xA4000051 [(d.toNat, 19), (a.toNat, 13), (o.toNat, 1)])
  | .vabs d a t => some (word 0xA6000001 [(d.toNat, 19), (a.toNat, 13), (t.toNat, 4)])
  | .vneg d a t => some (word 0xA6000003 [(d.toNat, 19), (a.toNat, 13), (t.toNat, 4)])
  | .vabsSat d a t => some (word 0xA6000005 [(d.toNat, 19), (a.toNat, 13), (t.toNat, 4)])
  | .vpop d a => some (word 0xA8000021 [(d.toNat, 19), (a.toNat, 13)])
  | .vpush d a => some (word 0xA8000023 [(d.toNat, 19), (a.toNat, 13)])
  | .vmov d a => some (word 0xAA000021 [(d.toNat, 19), (a.toNat, 13)])
  | .vzero d => some (word 0xAA000023 [(d.toNat, 19)])
  | .viota d t => some (word 0xAA000005 [(d.toNat, 19), (t.toNat, 4)])
  | .eclr d => some (word 0xAA000027 [(d.toNat, 19)])
  | .vdot4 d a b s => some (word 0xAC000001 [(d.toNat, 19), (a.toNat, 13), (b.toNat, 7), (s.toNat, 1)])
  | .vmaskV d a => some (word 0xAE000021 [(d.toNat, 19), (a.toNat, 13)])
  | .vmaskC d a => some (word 0xAE000023 [(d.toNat, 19), (a.toNat, 13)])
  | .vfma2 d a b t => some (word 0xBE000001 [(d.toNat, 19), (a.toNat, 13), (b.toNat, 7), (t.toNat, 4)])
  | .tdset t a => some (word 0xC0000001 [(t.toNat, 21), (a.toNat, 16)])
  | .mma m a b => some (word 0xC2000001 [(m.toNat, 23), (a.toNat, 19), (b.toNat, 15)])
  | .mmaz m a b => some (word 0xC2004001 [(m.toNat, 23), (a.toNat, 19), (b.toNat, 15)])
  | .mzero k => some (word 0xC4000001 [(k.toNat, 21)])
  | .mscaRow m v => some (word 0xC6000001 [(m.toNat, 23), (v.toNat, 17)])
  | .mscaCol m v => some (word 0xC6010001 [(m.toNat, 23), (v.toNat, 17)])
  | .mrd v m r => some (word 0xC8000001 [(v.toNat, 19), (m.toNat, 17), (r.toNat, 13)])
  | .mwr v m r => some (word 0xCA000001 [(v.toNat, 19), (m.toNat, 17), (r.toNat, 13)])
  | .mst m t f c r => some (word 0xCC000001 [(m.toNat, 23), (t.toNat, 19), (f.toNat, 16), (c.toNat, 12), (r.toNat, 10)])
  | .mld m a => some (word 0xCE000001 [(m.toNat, 23), (a.toNat, 19)])
  | .ldtab a => some (word 0xD0000001 [(a.toNat, 20)])
  | .mcmb m a => some (word 0xD2000001 [(m.toNat, 23), (a.toNat, 21)])
  | .mmaw m a b => some (word 0xD6000001 [(m.toNat, 23), (a.toNat, 19), (b.toNat, 15)])
  | .mmawz m a b => some (word 0xD6004001 [(m.toNat, 23), (a.toNat, 19), (b.toNat, 15)])
  | .bmv d a => some (word 0xD8000001 [(d.toNat, 20), (a.toNat, 15)])
  | .btab d a b => some (word 0xDA000001 [(d.toNat, 20), (a.toNat, 15), (b.toNat, 10)])
  | .blay d a => some (word 0xDC000001 [(d.toNat, 20), (a.toNat, 15)])
  | .shpmk d a => some (word 0xE0000001 [(d.toNat, 20), (a.toNat, 15)])
  | .shpdel a => some (word 0xE2000001 [(a.toNat, 15)])
  | .copy d a b c => some (word 0xE4000001 [(d.toNat, 20), (a.toNat, 15), (b.toNat, 10), (c.toNat, 5)])
  | .copys d a b c => some (word 0xE6000001 [(d.toNat, 20), (a.toNat, 15), (b.toNat, 10), (c.toNat, 5)])
  | .cfill d a b c => some (word 0xE8000001 [(d.toNat, 20), (a.toNat, 15), (b.toNat, 10), (c.toNat, 5)])
  | .fxput d a b c => some (word 0xF0000001 [(d.toNat, 20), (a.toNat, 15), (b.toNat, 10), (c.toNat, 5)])
  | .fxget d a b c => some (word 0xF2000001 [(d.toNat, 20), (a.toNat, 15), (b.toNat, 10), (c.toNat, 5)])
  | .fxred d a b c => some (word 0xF4000001 [(d.toNat, 20), (a.toNat, 15), (b.toNat, 10), (c.toNat, 5)])
  | .arcJoin d a => some (word 0xF6000001 [(d.toNat, 20), (a.toNat, 15)])
  | .arcLeave d a => some (word 0xF6000021 [(d.toNat, 20), (a.toNat, 15)])
  | .arcBar d a => some (word 0xF6000041 [(d.toNat, 20), (a.toNat, 15)])
  | .launchStrand _ _ _ _ => none
  | .launchGraph _ _ _ _ => none
  | .launchLattice _ _ _ _ => none
  | .launchArchipelago _ _ _ _ => none
  | .doorbell _ _ _ => none
  | .eventRingSpace _ _ => none
  | .registerWrite _ _ _ => none
  | .partcfg _ _ => none
  | .ctxcfg _ _ => none
  | .ctxreset _ _ => none
  | .domcfg _ _ => none
  | .domfree _ _ => none
  | .trust _ _ => none
  | .rangeinv _ _ => none
  | .plbshoot _ _ => none
  | .faultres _ _ => none
  | .teardown _ _ => none
  | .preempt _ _ => none
  | .restore _ _ => none
  | .keyset _ _ => none
  | .rackLaunchPacket _ _ => none
  | .migrate _ => none
  | .setrap _ => none
  | .rangeInvalidationPerform _ => none
  | .graphNodeFinish _ _ => none
  | .controlNodeEval _ _ => none
  | .loopNodeEval _ _ => none
  | .bandStart _ => none
  | .bandReconstruct _ => none
  | .completionForward _ _ => none
  | .completionRecordWrite _ => none
  | .codePoison _ _ => none
  | .loadDataReturn _ => none
  | .gathTPush _ _ => none
  | .eventChainSignal _ => none
  | .storePerform _ => none
  | .atomicPerform _ => none
  | .amonAccept _ => none
  | .deferredResolve _ => none
  | .lineFill _ => none
  | .pageWalk _ => none
  | .copyCommandComplete _ => none
  | .bankCommandComplete _ => none
  | .btabSlotReplace _ _ => none
  | .fabricCommandComplete _ => none
  | .narrowsRetransmit _ _ => none
  | .narrowsMessageAck _ _ _ => none
  | .mcrRound _ _ => none
  | .mcrDeliver _ _ => none
  | .regionRegister _ _ _ _ => none
  | .keyRevoke _ => none
  | .hostMemAccess _ _ _ => none
  | .tagError _ _ => none
  | .dataError _ _ => none
  | .pdmSample _ _ => none
  | .replan _ _ _ => none
  | .clockStep _ _ => none
  | .bankFence _ _ => none
  | .hbmRowRepair _ _ _ => none
  | .linkLaneFence _ _ => none
  | .replayEnter _ _ => none
  | .deviceReset _ _ _ => none
  | .reservedMajor w => some w
  | .pair _ _ _ => none
  | .peerDeclaredLost _ => none
  | .routeTableLoad _ _ => none
  | .podApertureEntryWrite _ _ _ => none
  | .groupEntryWrite _ _ _ => none
  | .regionDeregister _ => none
  | .nop => some (word 0x02000001 [])
  | .retd => some (word 0x64000001 [])
  | .done => some (word 0x68000001 [])
  | .commit => some (word 0x70000001 [])
  | .eret => some (word 0x78000001 [])
  | .sysTabclr => some (word 0x7A000081 [])
  | .strandDispatch => none
  | .dockEnter => none
  | .priorityAgeing => none
  | .copyIn => none
  | .copyInComplete => none
  | .codeFetchStage => none
  | .neighbourTimeout => none
  | .codeInstall => none
  | .sliceEnd => none
  | .imageSeal => none
  | .drainWatchdog => none
  | .qdeadlock => none
  | .barrierLineArrival => none
  | .podBarrierArrival => none
  | .islandDepart => none
  | .messageArrival => none
  | .parkedMessageForward => none
  | .dirtyBitmapSweep => none
  | .scrub => none
  | .quadFence => none
  | .checkpoint => none
  | .zeroword => some 0#32
  | .runPastBody => none
  | .checkpointRestore => none
  | .reconciliationSweep => none

/-- The words of an instruction: one half, or the two halves of a pair. -/
def encode (i : Instr) : List Half :=
  match i with
  | .pair lo hi _ => [lo, hi]
  | j => (encodeHalf j).toList

end Sys2Proof
end

