-- ==== Sys2Proof/Machine/Float.lean ====
section
/-!
DEFINITION. Sys2Proof/Machine/Float.lean: floating-point values, their one rounding and the operations every engine
shares (spec 09, R183 to R189 and R198; spec 10, R208, R209 and R214).
-/

namespace Sys2Proof.Machine

/-- FFLAGS bits of an operation (Table 5.14): TM, SAT, NX, UF, OF, NV from bit 5 down to bit 0. -/
abbrev Flags := BitVec 6

def flNV : Flags := 0x01#6
def flOF : Flags := 0x02#6
def flUF : Flags := 0x04#6
def flNX : Flags := 0x08#6
def flSAT : Flags := 0x10#6
def flTM : Flags := 0x20#6

/-- The rounding directions of the device (Table 5.13, Table 4.24). -/
inductive Rnd where
  | rne
  | rtz
  | rup
  | rdn
  deriving DecidableEq, Repr

/-- A binary floating-point format: exponent and fraction widths (R183, Table 9.1). -/
structure Fmt where
  ebits : Nat
  fbits : Nat
  deriving DecidableEq, Repr

def f32 : Fmt := ⟨8, 23⟩
def f16 : Fmt := ⟨5, 10⟩
def bf16 : Fmt := ⟨8, 7⟩
def e8m10 : Fmt := ⟨8, 10⟩

def Fmt.bias (f : Fmt) : Nat := 2 ^ (f.ebits - 1) - 1
def Fmt.width (f : Fmt) : Nat := 1 + f.ebits + f.fbits

/-- The bits of +∞: exponent all ones, fraction zero. -/
def Fmt.infBits (f : Fmt) : Nat := (2 ^ f.ebits - 1) * 2 ^ f.fbits

/-- The sign bit of a format. -/
def Fmt.signBit (f : Fmt) : Nat := 2 ^ (f.ebits + f.fbits)

/-- The quiet bit of a format's NaN. -/
def Fmt.quietBit (f : Fmt) : Nat := 2 ^ (f.fbits - 1)

/-- What a bit pattern stands for; a finite value is (−1)^neg · mag · 2^exp. -/
inductive FVal where
  | nan
  | inf (neg : Bool)
  | fin (neg : Bool) (mag : Nat) (exp : Int)
  deriving DecidableEq, Repr

def Fmt.isNeg (f : Fmt) (x : Nat) : Bool := x / f.signBit % 2 == 1

/-- The value of a bit pattern (R183). -/
def Fmt.unpack (f : Fmt) (x : Nat) : FVal :=
  let neg := f.isNeg x
  let e := x / 2 ^ f.fbits % 2 ^ f.ebits
  let m := x % 2 ^ f.fbits
  if e == 2 ^ f.ebits - 1 then (if m == 0 then .inf neg else .nan)
  else if e == 0 then .fin neg m (1 - (f.bias : Int) - f.fbits)
  else .fin neg (2 ^ f.fbits + m) ((e : Int) - f.bias - f.fbits)

def Fmt.isNaN (f : Fmt) (x : Nat) : Bool := f.unpack x == .nan

/-- A NaN whose quiet bit is clear (R188). -/
def Fmt.isSNaN (f : Fmt) (x : Nat) : Bool := f.isNaN x && x / f.quietBit % 2 == 0

/-- The NaN with its quiet bit set and its other bits kept (R188). -/
def Fmt.quiet (f : Fmt) (x : Nat) : Nat := if x / f.quietBit % 2 == 0 then x + f.quietBit else x

def Fmt.withSign (f : Fmt) (neg : Bool) (x : Nat) : Nat := if neg then x + f.signBit else x

/-- `mag · 2^−s` rounded to an integer in direction `r` for a value of that sign, and whether it was inexact. -/
def shiftRound (r : Rnd) (neg : Bool) (mag s : Nat) : Nat × Bool :=
  let q := mag / 2 ^ s
  let rem := mag % 2 ^ s
  if rem == 0 then (q, false)
  else
    let up := match r with
      | .rne => 2 ^ s < 2 * rem || (2 * rem == 2 ^ s && q % 2 == 1)
      | .rtz => false
      | .rup => !neg
      | .rdn => neg
    (if up then q + 1 else q, true)

/-- `mag · 2^exp` as a multiple of `2^quantum`, rounded. -/
def quantise (r : Rnd) (neg : Bool) (mag : Nat) (exp quantum : Int) : Nat × Bool :=
  if quantum <= exp then (mag * 2 ^ (exp - quantum).toNat, false)
  else shiftRound r neg mag (quantum - exp).toNat

/-- The result of a magnitude too large for the format (Table 9.5, first row). -/
def Fmt.overflow (f : Fmt) (r : Rnd) (neg : Bool) : Nat :=
  let toInf := match r with
    | .rne => true
    | .rtz => false
    | .rup => !neg
    | .rdn => neg
  f.withSign neg (if toInf then f.infBits else f.infBits - 1)

/-- One rounding of a nonzero finite value to a format, with OF, UF and NX (R184: tininess after rounding). -/
def Fmt.round (f : Fmt) (r : Rnd) (neg : Bool) (mag : Nat) (exp : Int) : Nat × Flags :=
  if mag == 0 then (f.withSign neg 0, 0)
  else
    let top : Int := exp + Nat.log2 mag
    let emin : Int := 1 - (f.bias : Int)
    if top < emin then
      let (q, nx) := quantise r neg mag exp (emin - f.fbits)
      let full := (quantise r neg mag exp (top - f.fbits)).1
      let tiny := !(top + 1 == emin && full == 2 ^ (f.fbits + 1))
      (f.withSign neg q, (if nx then flNX else 0) ||| (if nx && tiny then flUF else 0))
    else
      let (q, nx) := quantise r neg mag exp (top - f.fbits)
      let bits := (top + f.bias).toNat * 2 ^ f.fbits + q - 2 ^ f.fbits
      if f.infBits <= bits then (f.overflow r neg, flOF ||| flNX)
      else (f.withSign neg bits, if nx then flNX else 0)

/-- A finite value as an integer multiple of `2^e0`, where `e0` is at most its exponent. -/
def scaled (neg : Bool) (mag : Nat) (exp e0 : Int) : Int :=
  let m : Int := (mag * 2 ^ (exp - e0).toNat : Nat)
  if neg then -m else m

/-- Order of two finite values. -/
def cmpFin (n1 : Bool) (m1 : Nat) (e1 : Int) (n2 : Bool) (m2 : Nat) (e2 : Int) : Ordering :=
  let e0 := min e1 e2
  compare (scaled n1 m1 e1 e0) (scaled n2 m2 e2 e0)

/-- A sum of two finite values rounded once; an exact zero keeps a common sign of two zeros, and is otherwise +0,
or −0 under RDN (R208). -/
def Fmt.addFin (f : Fmt) (r : Rnd) (n1 : Bool) (m1 : Nat) (e1 : Int) (n2 : Bool) (m2 : Nat) (e2 : Int) :
    Nat × Flags :=
  let e0 := min e1 e2
  let s := scaled n1 m1 e1 e0 + scaled n2 m2 e2 e0
  if s == 0 then
    let neg := if m1 == 0 && m2 == 0 && n1 == n2 then n1 else r == .rdn
    (f.withSign neg 0, 0)
  else f.round r (s < 0) s.natAbs e0

/-- A NaN the device creates: an origin NaN in f32 (R187), a fixed pattern in f16 and bf16 (R204). -/
def Fmt.created (f : Fmt) (core k : Nat) : Nat :=
  if f == f32 then 0x7FC00000 + core % 8192 * 256 + k % 256
  else f.infBits + f.quietBit

/-- The first NaN of a list of operands, quieted, with NV when it was signalling (R188, R208). -/
def Fmt.firstNaN (f : Fmt) : List Nat → Option (Nat × Flags)
  | [] => none
  | x :: xs => if f.isNaN x then some (f.quiet x, if f.isSNaN x then flNV else 0) else f.firstNaN xs

/-- A format with the rounding direction and the NaN origin of an operation. -/
structure FEnv where
  fmt : Fmt
  rnd : Rnd
  core : Nat
  deriving DecidableEq, Repr

def FEnv.newNaN (v : FEnv) (k : Nat) : Nat × Flags := (v.fmt.created v.core k, flNV)

/-- `(−1)^sp · a·b + (−1)^sd · d`, exact and rounded once; `k` names a created NaN (R208). -/
def FEnv.fma (v : FEnv) (k : Nat) (sp sd : Bool) (a b d : Nat) : Nat × Flags :=
  match v.fmt.firstNaN [a, b] with
  | some r => r
  | none =>
    match v.fmt.unpack a, v.fmt.unpack b, v.fmt.unpack d with
    | .inf na, .inf nb, vd => addInf (na ^^ nb ^^ sp) vd
    | .inf na, .fin nb mb _, vd => if mb == 0 then v.newNaN k else addInf (na ^^ nb ^^ sp) vd
    | .fin na ma _, .inf nb, vd => if ma == 0 then v.newNaN k else addInf (na ^^ nb ^^ sp) vd
    | .fin na ma ea, .fin nb mb eb, .fin nd md ed =>
      v.fmt.addFin v.rnd (na ^^ nb ^^ sp) (ma * mb) (ea + eb) (nd ^^ sd) md ed
    | _, _, .inf nd => (v.fmt.withSign (nd ^^ sd) v.fmt.infBits, 0)
    | _, _, .nan => (v.fmt.firstNaN [d]).getD (d, 0)
    | _, _, _ => v.newNaN k
where
  /-- An infinite product and the addend. -/
  addInf (n : Bool) (vd : FVal) : Nat × Flags :=
    match vd with
    | .nan => (v.fmt.firstNaN [d]).getD (d, 0)
    | .inf nd => if (nd ^^ sd) == n then (v.fmt.withSign n v.fmt.infBits, 0) else v.newNaN k
    | .fin _ _ _ => (v.fmt.withSign n v.fmt.infBits, 0)

/-- `a + (−1)^sb · b` (R208). -/
def FEnv.add (v : FEnv) (k : Nat) (sb : Bool) (a b : Nat) : Nat × Flags :=
  match v.fmt.firstNaN [a, b] with
  | some r => r
  | none =>
    match v.fmt.unpack a, v.fmt.unpack b with
    | .inf na, .inf nb => if na == (nb ^^ sb) then (v.fmt.withSign na v.fmt.infBits, 0) else v.newNaN k
    | .inf na, _ => (v.fmt.withSign na v.fmt.infBits, 0)
    | _, .inf nb => (v.fmt.withSign (nb ^^ sb) v.fmt.infBits, 0)
    | .fin na ma ea, .fin nb mb eb => v.fmt.addFin v.rnd na ma ea (nb ^^ sb) mb eb
    | _, _ => v.newNaN k

/-- `a · b`; an exact zero takes the sign of the product (R208). -/
def FEnv.mul (v : FEnv) (k : Nat) (a b : Nat) : Nat × Flags :=
  match v.fmt.firstNaN [a, b] with
  | some r => r
  | none =>
    match v.fmt.unpack a, v.fmt.unpack b with
    | .inf na, .inf nb => (v.fmt.withSign (na ^^ nb) v.fmt.infBits, 0)
    | .inf na, .fin nb mb _ =>
      if mb == 0 then v.newNaN k else (v.fmt.withSign (na ^^ nb) v.fmt.infBits, 0)
    | .fin na ma _, .inf nb =>
      if ma == 0 then v.newNaN k else (v.fmt.withSign (na ^^ nb) v.fmt.infBits, 0)
    | .fin na ma ea, .fin nb mb eb => v.fmt.round v.rnd (na ^^ nb) (ma * mb) (ea + eb)
    | _, _ => v.newNaN k

/-- The order of two non-NaN patterns with −0 below +0 (R209). -/
def Fmt.totalKey (f : Fmt) (x : Nat) : Int :=
  if f.isNeg x then -(x % f.signBit : Nat) - 1 else (x % f.signBit : Nat)

/-- Minimum and maximum (R209): `num` is the form in which one NaN gives the other operand. -/
def Fmt.minMax (f : Fmt) (isMax num : Bool) (a b : Nat) : Nat × Flags :=
  let nv := if f.isSNaN a || f.isSNaN b then flNV else 0
  if f.isNaN a then
    if num && !f.isNaN b then (b, nv) else (f.quiet a, nv)
  else if f.isNaN b then
    if num then (a, nv) else (f.quiet b, nv)
  else
    let aLow := decide (f.totalKey a <= f.totalKey b)
    (if aLow == isMax then b else a, nv)

/-- The six orderings and UO of VCMP on floats (R214): the code of Table 4.22, the truth and its flags. -/
def Fmt.compareCc (f : Fmt) (cc : Nat) (a b : Nat) : Bool × Flags :=
  let isNan := f.isNaN a || f.isNaN b
  let sig := f.isSNaN a || f.isSNaN b
  let ord : Ordering := match f.unpack a, f.unpack b with
    | .fin n1 m1 e1, .fin n2 m2 e2 => cmpFin n1 m1 e1 n2 m2 e2
    | _, _ => compare (f.totalKey a) (f.totalKey b)
  match cc with
  | 0 => (!isNan && ord == .eq, if sig then flNV else 0)
  | 1 => (isNan || ord != .eq, if sig then flNV else 0)
  | 2 => (!isNan && ord == .lt, if isNan then flNV else 0)
  | 4 => (!isNan && ord != .gt, if isNan then flNV else 0)
  | _ => (isNan, if sig then flNV else 0)

/-- A NaN moved between formats, quieted: the high fraction bits that fit, or zeros below (R189). -/
def convertNaN (src dst : Fmt) (x : Nat) : Nat :=
  let frac := src.quiet x % 2 ^ src.fbits
  let frac' := if dst.fbits <= src.fbits then frac / 2 ^ (src.fbits - dst.fbits)
    else frac * 2 ^ (dst.fbits - src.fbits)
  dst.withSign (src.isNeg x) (dst.infBits + frac')

/-- Float to float under one rounding; a signalling source sets NV (R189, R198). -/
def convertFloat (src dst : Fmt) (r : Rnd) (x : Nat) : Nat × Flags :=
  match src.unpack x with
  | .nan => (convertNaN src dst x, if src.isSNaN x then flNV else 0)
  | .inf n => (dst.withSign n dst.infBits, 0)
  | .fin n m e => dst.round r n m e

/-- Exact widening without quieting or flags (R185, R189): a NaN's fraction is padded with zeros. -/
def widenExact (src : Fmt) (x : Nat) : Nat :=
  match src.unpack x with
  | .nan => f32.withSign (src.isNeg x) (f32.infBits + x % 2 ^ src.fbits * 2 ^ (f32.fbits - src.fbits))
  | .inf n => f32.withSign n f32.infBits
  | .fin n m e => (f32.round .rne n m e).1

/-- An integer to a float under one rounding (Table 9.5). -/
def intToFloat (dst : Fmt) (r : Rnd) (x : Int) : Nat × Flags := dst.round r (x < 0) x.natAbs 0

/-- A float to an integer in an interval: a NaN gives 0 and NV; beyond the range, the extreme with SAT and NX
(Table 9.5). -/
def floatToInt (src : Fmt) (r : Rnd) (lo hi : Int) (x : Nat) : Int × Flags :=
  match src.unpack x with
  | .nan => (0, flNV)
  | .inf n => (if n then lo else hi, flSAT ||| flNX)
  | .fin n m e =>
    let (q, nx) := quantise r n m e 0
    let v : Int := if n then -(q : Int) else q
    if v < lo then (lo, flSAT ||| flNX)
    else if hi < v then (hi, flSAT ||| flNX)
    else (v, if nx then flNX else 0)

/-- R188: the order in which combined f32 NaNs are chosen. -/
def orderKey (x : Nat) : Nat := x % 2 ^ 22

/-- DESIGN CHOICE (log 95): OrderKey, and at equal keys the positive NaN before the negative, and a quiet one before a
signalling one; so a combination of operands that arrive in no order depends on their set alone (R188). -/
def nanRank (x : Nat) : Nat :=
  4 * orderKey x + 2 * (if f32.isNeg x then 1 else 0) + (if f32.isSNaN x then 1 else 0)

/-- The NaN among two f32 operands that combination keeps, quieted; NV when it was signalling (R188). At equal keys it is the
left one: MCMB's accumulator (R244), the left subtree's (R261). -/
def combineNaN (a b : Nat) : Option (Nat × Flags) :=
  if f32.isNaN a && f32.isNaN b && orderKey b < orderKey a then f32.firstNaN [b, a]
  else f32.firstNaN [a, b]

/-- The same where the operands arrive in no order: equal keys are told apart by `nanRank` (log 95). -/
def combineArrivals (a b : Nat) : Option (Nat × Flags) :=
  if nanRank b < nanRank a then combineNaN b a else combineNaN a b

/-- RoundE8M10 of an f32 value as an f32 pattern: ties to even, overflow to infinity, no flag (R185). A NaN keeps
its payload (R189). -/
def roundE8M10 (x : Nat) : Nat :=
  match f32.unpack x with
  | .nan => x
  | .inf _ => x
  | .fin n m e => widenExact e8m10 (e8m10.round .rne n m e).1

/-- Integer square root, bit by bit from `2^(2·fuel)` down. -/
def isqrtAux (n : Nat) : Nat → Nat → Nat
  | 0, r => r
  | k + 1, r => isqrtAux n k (if (r + 2 ^ k) * (r + 2 ^ k) <= n then r + 2 ^ k else r)

/-- The greatest r with r² ≤ n. -/
def isqrt (n : Nat) : Nat := isqrtAux n (Nat.log2 n / 2 + 1) 0

end Sys2Proof.Machine
end

