-- ==== Sys2Proof/Machine/Codes.lean ====
section
/-!
DEFINITION. Sys2Proof/Machine/Codes.lean: decode tables, DecodeF32, Encode with its saturation and NaN rules, error
feedback, and TABSTAT (spec 09, R187 and R190 to R200).
-/

namespace Sys2Proof.Machine

/-- A decode table's entries (R190): 256 words. -/
abbrev Table := Vector (BitVec 32) 256

def Table.empty : Table := Vector.replicate 256 0#32

/-- The scope of an encoding: c8 over all entries, or one codebook for c4 (R190). -/
inductive Scope where
  | c8
  | c4 (b : Nat)
  deriving DecidableEq, Repr

/-- The codebook field of a scope's code NaNs: 0 for c8 (R187). -/
def Scope.book : Scope → Nat
  | .c8 => 0
  | .c4 b => b

def Scope.base : Scope → Nat
  | .c8 => 0
  | .c4 b => 16 * b

def Scope.size : Scope → Nat
  | .c8 => 256
  | .c4 _ => 16

def Table.entry (t : Table) (i : Nat) : Nat := (t.toList.getD i 0#32).toNat

def entryVal (e : Nat) : Nat := e % 2 ^ 19
def entryNC (e : Nat) : Bool := e / 2 ^ 19 % 2 == 1
def entryMZ (e : Nat) : Bool := e / 2 ^ 20 % 2 == 1

/-- An entry that is neither a NaN code nor an infinity. -/
def entryFinite (e : Nat) : Bool := !entryNC e && entryVal e / 2 ^ 10 % 256 != 255

/-- The entries of a scope with their codes, in index order. -/
def Table.scope (t : Table) (s : Scope) : List (Nat × Nat) :=
  ((t.toList.drop s.base).take s.size).zipIdx.map fun p => (p.2, p.1.toNat)

/-- R191: one entry is acceptable on its own. -/
def entryOk (e : Nat) : Bool :=
  e / 2 ^ 21 == 0 &&
  (if entryNC e then entryVal e == 0 && !entryMZ e
   else !e8m10.isNaN (entryVal e) && (entryMZ e == (entryVal e == 0x40000)))

/-- R191: the cases in which LDTAB and BTAB refuse a table. -/
def Table.valid (t : Table) : Bool :=
  t.toList.all (fun e => entryOk e.toNat) &&
  (List.range 16).all (fun b =>
    let es := (t.scope (.c4 b)).map Prod.snd
    (es.filter entryMZ).length <= 1 && es.any entryFinite)

/-- R191: no two non-NaN entries of the scope hold the same VAL. -/
def Table.injective (t : Table) (s : Scope) : Bool :=
  let vals := ((t.scope s).map Prod.snd).filter (fun e => !entryNC e) |>.map entryVal
  decide vals.Nodup

/-- TABSTAT of an accepted table (R192, Table 9.4). -/
def Table.stat (t : Table) : BitVec 64 :=
  let bookBits (f : Scope → Bool) : Nat :=
    (List.range 16).foldl (fun n b => if f (.c4 b) then n + 2 ^ b else n) 0
  let es := (t.scope .c8).map Prod.snd
  let mz (s : Scope) : Bool := (t.scope s).any fun p => entryMZ p.2
  BitVec.ofNat 64 (1 + (if t.injective .c8 then 2 else 0) + (if es.any entryMZ then 4 else 0) +
    8 * (es.filter entryNC).length + 2 ^ 32 * bookBits mz + 2 ^ 48 * bookBits t.injective)

/-- The f32 bits of a code NaN (R187). -/
def codeNaN (book code : Nat) : Nat := 0x7FE00000 + 256 * book + code

/-- DecodeF32 (R193): exact, no flag. -/
def Table.decode (t : Table) (s : Scope) (code : Nat) : Nat :=
  let e := t.entry (s.base + code)
  if entryNC e then codeNaN s.book code else widenExact e8m10 (entryVal e)

/-- The rounding modes of Encode: the four directions and RNE.INF (R194). -/
inductive CodeRnd where
  | dir (r : Rnd)
  | rneInf
  deriving DecidableEq, Repr

/-- The finite entries of a scope: code, sign, magnitude, exponent. -/
def Table.finite (t : Table) (s : Scope) : List (Nat × Bool × Nat × Int) :=
  (t.scope s).filterMap fun p =>
    if entryFinite p.2 then
      match e8m10.unpack (entryVal p.2) with
      | .fin n m e => some (p.1, n, m, e)
      | _ => none
    else none

/-- A finite entry in the sorted order of its scope: its code, its value as an exact multiple of 2^−136, the smallest
step of E8M10 (R183), and whether it is a −0. -/
structure Point where
  code : Nat
  val : Int
  negZero : Bool
  deriving DecidableEq, Repr

/-- The sorted order of R191: ascending by value, −0 before +0; entries of one index order are equals. -/
def Point.before (p q : Point) : Bool := p.val < q.val || (p.val == q.val && p.negZero && !q.negZero)

/-- The point of an entry's magnitude alone, in which the two zeros are equal. -/
def Point.abs (p : Point) : Point := { p with val := p.val.natAbs, negZero := false }

/-- The finite entries of a scope, in index order. -/
def Table.points (t : Table) (s : Scope) : List Point :=
  (t.finite s).map fun p => ⟨p.1, scaled p.2.1 p.2.2.1 p.2.2.2 (-136), p.2.1 && p.2.2.1 == 0⟩

/-- The lowest-index point among the last of the sorted order. -/
def greatest (ps : List Point) : Option Point :=
  ps.foldl (fun b p => match b with
    | none => some p
    | some q => if q.before p then some p else some q) none

/-- The lowest-index point among the first of the sorted order. -/
def least (ps : List Point) : Option Point :=
  ps.foldl (fun b p => match b with
    | none => some p
    | some q => if p.before q then some p else some q) none

/-- The lowest-index entry of a scope that meets a test. -/
def Table.lowest (t : Table) (s : Scope) (f : Nat → Bool) : Option Nat :=
  ((t.scope s).find? fun p => f p.2).map Prod.fst

/-- R196: a NaN source. -/
def Table.encodeNaN (t : Table) (s : Scope) (x : Nat) : Nat × Flags :=
  let b := x % 2 ^ 31
  let code := b % 256
  if b / 256 == 0x7FE000 + s.book && code < s.size && entryNC (t.entry (s.base + code)) then (code, 0)
  else match t.lowest s entryNC with
    | some c => (c, flTM)
    | none =>
      match least ((t.points s).map Point.abs) with
      | some p => (p.code, flNV ||| flTM)
      | none => (0, flNV ||| flTM)

/-- R195: a value beyond the finite range, on the side `above` or below. -/
def Table.saturate (t : Table) (s : Scope) (m : CodeRnd) (above neg finite : Bool) : Nat × Flags :=
  let isInf (e : Nat) : Bool := !entryNC e && entryVal e == (if neg then 0x40000 else 0) + 0x3FC00
  match (if m == .rneInf && above != neg then t.lowest s isInf else none) with
  | some c => (c, if finite then flOF ||| flNX else 0)
  | none =>
    let ps := t.points s
    let c := ((if above then greatest ps else least ps).map Point.code).getD 0
    (c, flSAT ||| (if finite then flNX else 0))

/-- R194, R196: a zero of sign `neg` that the scope holds exactly. -/
def Table.zeroCode (t : Table) (s : Scope) (neg : Bool) : Option Nat :=
  let plus := t.lowest s (fun e => !entryNC e && entryVal e == 0)
  let minus := t.lowest s entryMZ
  if neg then minus <|> plus else plus <|> minus

/-- R194: the nearer of the codes around x, or the one the mode names, for a value strictly between two points. -/
def pickCode (m : CodeRnd) (neg isZero : Bool) (num den : Int) (lo hi : Point) : Nat :=
  -- x = num / den in units of 2^−136, den > 0
  let bySign := if neg then lo.code else hi.code
  let byMag := if lo.val.natAbs < hi.val.natAbs then lo.code
    else if hi.val.natAbs < lo.val.natAbs then hi.code else bySign
  match m with
  | .dir .rtz => if isZero then byMag else if neg then hi.code else lo.code
  | .dir .rup => hi.code
  | .dir .rdn => lo.code
  | _ =>
    let twice := 2 * num
    let mid := (lo.val + hi.val) * den
    if twice < mid then lo.code
    else if mid < twice then hi.code
    else if lo.code % 2 != hi.code % 2 then (if lo.code % 2 == 0 then lo.code else hi.code)
    else byMag

/-- Encode of a finite exact value (R194 to R196). -/
def Table.encodeFin (t : Table) (s : Scope) (m : CodeRnd) (neg : Bool) (mag : Nat) (exp : Int) : Nat × Flags :=
  let ps := t.points s
  -- x in units of 2^−136 as num / den
  let e0 := min exp (-136)
  let num := scaled neg mag exp e0
  let den : Int := (2 ^ ((-136 : Int) - e0).toNat : Nat)
  match greatest ps, least ps with
  | some top, some bot =>
    -- RNE.INF asks for a positive or a negative value: a zero is neither
    let mx := if mag == 0 then .dir .rne else m
    if top.val * den < num then t.saturate s mx true neg true
    else if num < bot.val * den then t.saturate s mx false neg true
    else
      let exact := if mag == 0 then t.zeroCode s neg
        else ((ps.find? fun p => p.val * den == num).map Point.code)
      match exact with
      | some c => (c, 0)
      | none =>
        match greatest (ps.filter fun p => p.val * den < num), least (ps.filter fun p => num < p.val * den) with
        | some lo, some hi =>
          let nz := (ps.filter fun p => p.val != 0).map Point.abs
          let uf : Bool := match least nz with
            | some p => (num.natAbs : Int) < p.val * den
            | none => false
          (pickCode m neg (mag == 0) num den lo hi, flNX ||| (if uf then flUF else 0))
        | some lo, none => (lo.code, flNX)
        | none, some hi => (hi.code, flNX)
        | none, none => (0, flNX)
  | _, _ => (0, flNV)

/-- Encode of a pattern of a float format; a source other than f32 widens exactly first (R194, R198), and a signalling
one is quieted with NV (R185, R189). DEDUCED (log 101): a signalling f32 source, which is not widened, sets the flags of R196
alone. -/
def Table.encode (t : Table) (s : Scope) (m : CodeRnd) (src : Fmt) (x : Nat) : Nat × Flags :=
  match src.unpack x with
  | .nan =>
    if src == f32 then t.encodeNaN s x
    else
      let (c, fl) := t.encodeNaN s (widenExact src (src.quiet x))
      (c, fl ||| if src.isSNaN x then flNV else 0)
  | .inf n => t.saturate s m (!n) n false
  | .fin n mag e => t.encodeFin s m n mag e

/-- R197: one error-feedback step of lane `k`: the code, the new residue, and the flags of the Encode step. A NaN that
the sum creates carries the core and the lane (R188). -/
def efStep (core k : Nat) (enc : Nat → Nat × Flags) (dec : Nat → Nat) (x e : Nat) : Nat × Nat × Flags :=
  let v : FEnv := ⟨f32, .rne, core⟩
  let t := (v.add k false x e).1
  let (c, fl) := enc t
  match f32.unpack t with
  | .fin _ _ _ => (c, (v.add k true t (dec c)).1, fl)
  | _ => (c, 0, fl)

end Sys2Proof.Machine
end

