-- ==== Sys2Proof/Machine/Lanes.lean ====
section
/-!
DEFINITION. Sys2Proof/Machine/Lanes.lean: the vector engine's lane arithmetic as functions of register values
(spec 10, R203 to R226).
-/

namespace Sys2Proof.Machine

/-- The `n` lowest fields of `w` bits of a number, the lowest first (R203). -/
def splitLanes (w : Nat) : Nat → Nat → List Nat
  | 0, _ => []
  | n + 1, x => x % 2 ^ w :: splitLanes w n (x / 2 ^ w)

/-- The number with those fields. -/
def joinLanes (w : Nat) : List Nat → Nat
  | [] => 0
  | x :: xs => x % 2 ^ w + 2 ^ w * joinLanes w xs

/-- All lanes of a register at a width. -/
def lanesOf (w : Nat) (v : VReg) : List Nat := splitLanes w (1024 / w) v.toNat

/-- A register of lanes. -/
def ofLanes (w : Nat) (xs : List Nat) : VReg := BitVec.ofNat 1024 (joinLanes w xs)

/-- The 32-bit lanes of a register. -/
def words32 (v : VReg) : List Nat := lanesOf 32 v

/-- One 32-bit lane of a register. -/
def lane32 (v : VReg) (j : Nat) : Nat := v.toNat / 2 ^ (32 * j) % 2 ^ 32

/-- Results with flags: the values and the OR of the flags (R204). -/
def gather (rs : List (Nat × Flags)) : List Nat × Flags :=
  (rs.map Prod.fst, rs.foldl (fun f r => f ||| r.2) 0)

/-- A lane operation on two registers and the lane's index. -/
def lanes2 (w : Nat) (f : Nat → Nat → Nat → Nat × Flags) (a b : VReg) : VReg × Flags :=
  let rs := gather ((lanesOf w a).zip (lanesOf w b) |>.zipIdx.map fun p => f p.2 p.1.1 p.1.2)
  (ofLanes w rs.1, rs.2)

/-- A lane operation on three registers. -/
def lanes3 (w : Nat) (f : Nat → Nat → Nat → Nat → Nat × Flags) (a b d : VReg) : VReg × Flags :=
  let rs := gather (((lanesOf w a).zip ((lanesOf w b).zip (lanesOf w d))).zipIdx.map
    fun p => f p.2 p.1.1 p.1.2.1 p.1.2.2)
  (ofLanes w rs.1, rs.2)

/-- A lane operation on one register. -/
def lanes1 (w : Nat) (f : Nat → Nat → Nat × Flags) (a : VReg) : VReg × Flags :=
  let rs := gather ((lanesOf w a).zipIdx.map fun p => f p.2 p.1)
  (ofLanes w rs.1, rs.2)

/-- The float format of a type code, none for an integer type (R77). -/
def tyFmt (t : BitVec 3) : Option Fmt :=
  match t.toNat with
  | 3 => some f16
  | 4 => some bf16
  | 5 => some f32
  | _ => none

/-- Clamp to a lane's range, with SAT when it changed the value (R207). -/
def satLane (signed : Bool) (w : Nat) (x : Int) : Nat × Flags :=
  let lo : Int := if signed then -(2 ^ (w - 1) : Nat) else 0
  let hi : Int := if signed then (2 ^ (w - 1) : Nat) - 1 else (2 ^ w : Nat) - 1
  let y := clampInt x lo hi
  (intToNat w y, if y == x then 0 else flSAT)

/-- What the vector engine's arithmetic depends on beside its operands: RMODE's direction and the core number. -/
structure VEnv where
  rnd : Rnd
  core : Nat
  deriving DecidableEq, Repr

def VEnv.fenv (e : VEnv) (f : Fmt) : FEnv := ⟨f, e.rnd, e.core⟩

/-- VADD and VSUB, plain (R206, R208). -/
def vAddSub (e : VEnv) (t : BitVec 3) (sub : Bool) (a b : VReg) : VReg × Flags :=
  let w := laneWidth t
  match tyFmt t with
  | some f => lanes2 w (fun k x y => (e.fenv f).add k sub x y) a b
  | none => lanes2 w (fun _ x y => (if sub then x + 2 ^ w - y else x + y, 0)) a b

/-- VADD and VSUB, saturating (R207). -/
def vAddSubSat (t : BitVec 3) (signed sub : Bool) (a b : VReg) : VReg × Flags :=
  let w := laneWidth t
  let val (x : Nat) : Int := if signed then natSigned w x else x
  lanes2 w (fun _ x y => satLane signed w (if sub then val x - val y else val x + val y)) a b

/-- VMUL, low half or float (R206). -/
def vMul (e : VEnv) (t : BitVec 3) (a b : VReg) : VReg × Flags :=
  match tyFmt t with
  | some f => lanes2 (laneWidth t) (fun k x y => (e.fenv f).mul k x y) a b
  | none => lanes2 (laneWidth t) (fun _ x y => (x * y, 0)) a b

/-- VMUL.HI (R206). -/
def vMulHi (t : BitVec 3) (signed : Bool) (a b : VReg) : VReg × Flags :=
  let w := laneWidth t
  let val (x : Nat) : Int := if signed then natSigned w x else x
  lanes2 w (fun _ x y => (intToNat (2 * w) (val x * val y) / 2 ^ w, 0)) a b

/-- VMUL.SAT (R207). -/
def vMulSat (t : BitVec 3) (a b : VReg) : VReg × Flags :=
  let w := laneWidth t
  lanes2 w (fun _ x y => satLane true w (natSigned w x * natSigned w y)) a b

/-- VFMA and its signed forms: ±(a·b) ± d, rounded once (R206, R208). -/
def vFma (e : VEnv) (t : BitVec 3) (negP negD : Bool) (a b d : VReg) : VReg × Flags :=
  match tyFmt t with
  | some f => lanes3 (laneWidth t) (fun k x y z => (e.fenv f).fma k negP negD x y z) a b d
  | none => lanes3 (laneWidth t) (fun _ x y z => (x * y + z, 0)) a b d

/-- VMIN and VMAX: `alt` is the natural form of an integer type and .NUM of a float type (R209, Table 4.22). -/
def vMinMax (t : BitVec 3) (isMax alt : Bool) (a b : VReg) : VReg × Flags :=
  let w := laneWidth t
  match tyFmt t with
  | some f => lanes2 w (fun _ x y => f.minMax isMax alt x y) a b
  | none =>
    let val (x : Nat) : Int := if alt then x else natSigned w x
    lanes2 w (fun _ x y => (if decide (val x <= val y) == isMax then y else x, 0)) a b

/-- VABS and VNEG (R206). -/
def vAbsNeg (t : BitVec 3) (neg : Bool) (a : VReg) : VReg :=
  let w := laneWidth t
  match tyFmt t with
  | some _ =>
    (lanes1 w (fun _ x => (if neg then x ^^^ 2 ^ (w - 1) else x % 2 ^ (w - 1), 0)) a).1
  | none =>
    (lanes1 w (fun _ x => (if neg || natSigned w x < 0 then 2 ^ w - x else x, 0)) a).1

/-- VABS.SAT (R207). -/
def vAbsSat (t : BitVec 3) (a : VReg) : VReg × Flags :=
  let w := laneWidth t
  lanes1 w (fun _ x => satLane true w (natSigned w x).natAbs) a

/-- VDOT4 (R210): the sub-op names the signedness of VA and VB. -/
def vDot4 (so : BitVec 3) (a b d : VReg) : VReg :=
  let val (signed : Bool) (x : Nat) : Int := if signed then natSigned 8 x else x
  let sa := so == 0#3 || so == 2#3
  let sb := so == 0#3 || so == 3#3
  (lanes3 32 (fun _ x y z =>
    let s : Int := ((splitLanes 8 4 x).zip (splitLanes 8 4 y)).foldl
      (fun n p => n + val sa p.1 * val sb p.2) 0
    (intToNat 32 ((z : Int) + s), 0)) a b d).1

/-- The shifts of R213: 0 left, 1 right, 2 arithmetic right. -/
def shiftLane (w op x c : Nat) : Nat :=
  if op == 0 then (if c < w then x * 2 ^ c else 0)
  else if op == 1 then (if c < w then x / 2 ^ c else 0)
  else intToNat w (natSigned w x / (2 ^ (min c (w - 1)) : Nat))

def vShift (t : BitVec 3) (op : Nat) (a b : VReg) : VReg :=
  (lanes2 (laneWidth t) (fun _ x c => (shiftLane (laneWidth t) op x c, 0)) a b).1

def vShiftImm (t : BitVec 3) (op c : Nat) (a : VReg) : VReg :=
  (lanes1 (laneWidth t) (fun _ x => (shiftLane (laneWidth t) op x c, 0)) a).1

/-- The integer orderings of a CC code: EQ, NE, LT, LTN, LE, LEN (Table 4.19). -/
def intCc (w cc x y : Nat) : Bool :=
  match cc with
  | 0 => x == y
  | 1 => x != y
  | 2 => natSigned w x < natSigned w y
  | 3 => x < y
  | 4 => natSigned w x <= natSigned w y
  | _ => x <= y

/-- VCMP (R214). -/
def vCmp (t cc : BitVec 3) (a b : VReg) : VReg × Flags :=
  let w := laneWidth t
  lanes2 w (fun _ x y =>
    let r := match tyFmt t with
      | some f => f.compareCc cc.toNat x y
      | none => (intCc w cc.toNat x y, 0)
    (if r.1 then 2 ^ w - 1 else 0, r.2)) a b

/-- VSEL (R215). -/
def vSel (t : BitVec 3) (a b d : VReg) : VReg :=
  (lanes3 (laneWidth t) (fun _ x y m => (if m == 0 then y else x, 0)) a b d).1

/-- VSPLAT: every lane the same bits (R216). -/
def vSplat (t : BitVec 3) (x : Nat) : VReg :=
  ofLanes (laneWidth t) (List.replicate (laneCount t) x)

/-- The lane `k` of a register (R217). -/
def laneAt (w k : Nat) (v : VReg) : Nat := v.toNat / 2 ^ (w * k) % 2 ^ w

/-- A register with lane `k` replaced (R217). -/
def setLaneAt (w k x : Nat) (v : VReg) : VReg := ofLanes w ((lanesOf w v).set k (x % 2 ^ w))

/-- VPERM (R218). -/
def vPerm (t : BitVec 3) (a b : VReg) : VReg :=
  let w := laneWidth t
  (lanes1 w (fun _ v => (laneAt w (v % laneCount t) a, 0)) b).1

/-- VSLIDEUP and VSLIDEDN (R219): a shift of the whole register by lanes. -/
def vSlide (t : BitVec 3) (up : Bool) (c : Nat) (a : VReg) : VReg :=
  if up then a <<< (laneWidth t * c) else a >>> (laneWidth t * c)

/-- VIOTA (R220). -/
def vIota (t : BitVec 3) : VReg := ofLanes (laneWidth t) (List.range (laneCount t))

/-- One level of a pairwise tree: neighbours combined, the left first (R221). -/
def treeLevel (f : Nat → Nat → Nat → Nat × Flags) (span : Nat) : Nat → List Nat → List (Nat × Flags)
  | i, x :: y :: rest => f (i * span) x y :: treeLevel f span (i + 2) rest
  | _, _ => []

/-- The pairwise tree of R221 over `2^levels` values. -/
def tree (f : Nat → Nat → Nat → Nat × Flags) : Nat → Nat → List Nat → Flags → Nat × Flags
  | 0, _, xs, fl => (xs.headD 0, fl)
  | n + 1, span, xs, fl =>
    let r := gather (treeLevel f span 0 xs)
    tree f n (2 * span) r.1 (fl ||| r.2)

/-- VRED (R221): 0 SUM, 1 MIN, 2 MAX, 3 MINN, 4 MAXN. -/
def vRed (e : VEnv) (t op : BitVec 3) (a : VReg) : VReg × Flags :=
  let w := laneWidth t
  let f : Nat → Nat → Nat → Nat × Flags := match tyFmt t with
    | some fm =>
      if op == 0#3 then fun k x y => (e.fenv fm).add k false x y
      else fun _ x y => fm.minMax (op == 2#3) false x y
    | none =>
      if op == 0#3 then fun _ x y => ((x + y) % 2 ^ w, 0)
      else
        let val (x : Nat) : Int := if op.toNat <= 2 then natSigned w x else x
        fun _ x y => (if decide (val x <= val y) == (op == 2#3 || op == 4#3) then y else x, 0)
  let r := tree f (Nat.log2 (laneCount t)) 1 (lanesOf w a) 0
  (BitVec.ofNat 1024 r.1, r.2)

/-! ### VMATH (R222) -/

/-- The scale of the enclosures below: values are integers over 2^100. -/
def vmP : Nat := 100

/-- 2^(frac/2^100) in units of 2^−100, from below within 2^−60: the product of the square roots of 2 that the
upper 64 bits of the fraction name. -/
def exp2Frac : Nat → Nat → Nat → Nat → Nat
  | 0, _, _, acc => acc
  | n + 1, root, frac, acc =>
    let root' := isqrt (root * 2 ^ vmP)
    let bit := 2 * frac / 2 ^ vmP
    exp2Frac n root' (2 * frac % 2 ^ vmP) (if bit == 1 then acc * root' / 2 ^ vmP else acc)

/-- log2 of `y/2^100` in [1, 2) in units of 2^−60, from below within 2^−50, by repeated squaring. -/
def log2Frac : Nat → Nat → Nat → Nat
  | 0, _, acc => acc
  | n + 1, y, acc =>
    let y' := y * y / 2 ^ vmP
    if 2 ^ (vmP + 1) <= y' then log2Frac n (y' / 2) (2 * acc + 1) else log2Frac n y' (2 * acc)

/-- The f32 `y` as an integer multiple of 2^−300, none when it is not finite. -/
def fixed300 (y : Nat) : Option Int :=
  match f32.unpack y with
  | .fin n m e => some (scaled n m e (-300))
  | _ => none

/-- One ulp of an f32 in units of 2^−300. -/
def ulp300 (y : Nat) : Nat :=
  let e := y / 2 ^ 23 % 256
  2 ^ (300 - 149 + (e - 1))

/-- The free pick where it lies within `bound` of every value of the interval [lo, hi] that encloses the exact one
(units of 2^−300), so within Table 10.5's bound of it, else lo rounded. -/
def vmathWithin (op : Nat) (x : Nat) (lo hi : Int) (bound : Nat → Nat) : Nat :=
  let y := (Config.vmathPick op (BitVec.ofNat 32 x)).toNat
  let ok := match fixed300 y with
    | some v => hi - (bound y : Int) <= v && v <= lo + (bound y : Int)
    | none => false
  if ok then y else (f32.round .rne (lo < 0) lo.natAbs (-300)).1

/-- NX of an inexact result, with UF where the result is tiny (R184): subnormal or zero. -/
def vmathFlags (y : Nat) : Flags := flNX ||| (if y / 2 ^ 23 % 256 == 0 then flUF else 0)

/-- RCP of a nonzero finite operand. -/
def vmathRcp (x : Nat) (neg : Bool) (m : Nat) (e : Int) : Nat × Flags :=
  -- 1/(m·2^e) in units of 2^−300
  let k := (300 - e).toNat
  let q := 2 ^ k / m
  if m == 2 ^ Nat.log2 m && e + Nat.log2 m <= 126 && -127 <= e + (Nat.log2 m : Int) then
    f32.round .rne neg q (-300)
  else if 2 ^ (300 + 128) <= q then (f32.withSign neg f32.infBits, flOF ||| flNX)
  else
    let lo : Int := if neg then -(q + 1 : Nat) else q
    let y := vmathWithin 0 x lo (lo + 1) ulp300
    (y, vmathFlags y)

/-- RSQ of a positive finite operand. -/
def vmathRsq (x m : Nat) (e : Int) : Nat × Flags :=
  let t := e + Nat.log2 m
  if m == 2 ^ Nat.log2 m && t % 2 == 0 then (f32.round .rne false 1 (-t / 2))
  else
    -- (1/√(m·2^e))·2^300 = √(2^(600−e)/m)
    let q := isqrt (2 ^ (600 - e).toNat / m)
    (vmathWithin 1 x q (q + 1) ulp300, flNX)

/-- EXP2 of a finite operand. -/
def vmathExp2 (x : Nat) (neg : Bool) (m : Nat) (e : Int) : Nat × Flags :=
  if m == 0 then (0x3F800000, 0)
  else
    let big := 8 <= e + (Nat.log2 m : Int)
    if big && neg then
      let y := vmathWithin 2 x 0 1 (fun y => 2 * ulp300 y)
      (y, vmathFlags y)
    else if (big || 7 <= e + (Nat.log2 m : Int)) && !neg then (f32.infBits, flOF ||| flNX)
    else
      let s := scaled neg m e (-200)
      let ip := s / (2 ^ 200 : Nat)
      let fp := (s % ((2 ^ 200 : Nat) : Int)).toNat
      if fp == 0 && -149 <= ip then f32.round .rne false 1 ip
      else
        let p := exp2Frac 64 (2 ^ (vmP + 1)) (fp / 2 ^ 100) (2 ^ vmP)
        -- p·2^(ip−100) to p + 2^50 in units of 2^−300
        let lo : Nat := if ip < -290 then 0 else p * 2 ^ (ip + 290).toNat / 2 ^ 90
        let hi : Nat := if ip < -290 then 1 else (p + 2 ^ 50) * 2 ^ (ip + 290).toNat / 2 ^ 90 + 1
        let y := vmathWithin 2 x lo hi (fun y => 2 * ulp300 y)
        (y, vmathFlags y)

/-- LOG2 of a positive finite operand. -/
def vmathLog2 (x m : Nat) (e : Int) : Nat × Flags :=
  let l := Nat.log2 m
  let t := e + l
  if m == 2 ^ l then (if t == 0 then (0, 0) else intToFloat f32 .rne t)
  else
    let fr := log2Frac 60 (m * 2 ^ (vmP - l)) 0
    let lo : Int := (t * (2 ^ 60 : Nat) + fr) * (2 ^ 240 : Nat)
    let near := t == 0 || t == -1
    (vmathWithin 3 x lo (lo + (2 ^ 250 : Nat))
      (fun y => if near then max (2 * ulp300 y) (2 ^ 278) else 2 * ulp300 y), flNX)

/-- VMATH of one lane (R222): 0 RCP, 1 RSQ, 2 EXP2, 3 LOG2. -/
def vmathLane (core : Nat) (op k x : Nat) : Nat × Flags :=
  let v : FEnv := ⟨f32, .rne, core⟩
  match f32.firstNaN [x] with
  | some r => r
  | none =>
    match op, f32.unpack x with
    | 0, .inf n => (f32.withSign n 0, 0)
    | 0, .fin n m e => if m == 0 then (f32.withSign n f32.infBits, 0) else vmathRcp x n m e
    | 1, .inf n => if n then v.newNaN k else (0, 0)
    | 1, .fin n m e =>
      if m == 0 then (f32.withSign n f32.infBits, 0) else if n then v.newNaN k else vmathRsq x m e
    | 2, .inf n => (if n then 0 else f32.infBits, 0)
    | 2, .fin n m e => vmathExp2 x n m e
    | _, .inf n => if n then v.newNaN k else (f32.infBits, 0)
    | _, .fin n m e =>
      if m == 0 then (f32.withSign true f32.infBits, 0) else if n then v.newNaN k else vmathLog2 x m e
    | _, .nan => (x, 0)

def vMath (core : Nat) (op : BitVec 3) (a : VReg) : VReg × Flags :=
  lanes1 32 (fun k x => vmathLane core op.toNat k x) a

/-! ### Conversions (R223 to R226) -/

/-- Width of a conversion type code (R223). -/
def cvtWidth (c : BitVec 4) : Nat :=
  match c.toNat with
  | 0 => 8
  | 1 => 16
  | 2 => 32
  | 3 => 8
  | 4 => 16
  | 5 => 32
  | 6 => 16
  | 7 => 16
  | 8 => 32
  | _ => 8

/-- The float format of a conversion type code. -/
def cvtFmt (c : BitVec 4) : Option Fmt :=
  match c.toNat with
  | 6 => some f16
  | 7 => some bf16
  | 8 => some f32
  | _ => none

/-- The range of an integer conversion type code. -/
def cvtRange (c : BitVec 4) : Int × Int :=
  let w := cvtWidth c
  if c.toNat < 3 then (-(2 ^ (w - 1) : Nat), (2 ^ (w - 1) : Nat) - 1) else (0, (2 ^ w : Nat) - 1)

/-- The integer of a source element. -/
def cvtIntVal (c : BitVec 4) (x : Nat) : Int := if c.toNat < 3 then natSigned (cvtWidth c) x else x

/-- A resolved rounding: a mode, or error feedback with a residue register (R224). -/
inductive CvtRnd where
  | mode (m : CodeRnd)
  | ef (k : Nat)
  deriving DecidableEq, Repr

/-- The direction RNE.INF acts as, except towards c8 (R224). -/
def CodeRnd.dirOf : CodeRnd → Rnd
  | .dir r => r
  | .rneInf => .rne

/-- Convert without error feedback (R224, Table 9.5). -/
def convertLane (tb : Table) (dt st : BitVec 4) (m : CodeRnd) (x : Nat) : Nat × Flags :=
  -- a c8 source is decoded first and then converted as f32
  let sfmt := if st == 9#4 then some f32 else cvtFmt st
  let y := if st == 9#4 then tb.decode .c8 x else x
  match sfmt with
  | some sf =>
    match cvtFmt dt with
    | some df => if st == 9#4 && df == f32 then (y, 0) else convertFloat sf df m.dirOf y
    | none =>
      if dt == 9#4 then tb.encode .c8 m sf y
      else
        let r := floatToInt sf m.dirOf (cvtRange dt).1 (cvtRange dt).2 y
        (intToNat (cvtWidth dt) r.1, r.2)
  | none =>
    let v := cvtIntVal st x
    match cvtFmt dt with
    | some df => intToFloat df m.dirOf v
    | none =>
      if dt == 9#4 then tb.encodeFin .c8 m (v < 0) v.natAbs 0
      else
        let c := clampInt v (cvtRange dt).1 (cvtRange dt).2
        (intToNat (cvtWidth dt) c, if c == v then 0 else flSAT)

/-- An error-feedback conversion of f32 to f16, bf16 or c8 in lane `k`: result, residue, flags (R197, R198). Between
float types a signalling source sets NV (R224). -/
def convertLaneEf (core : Nat) (tb : Table) (dt : BitVec 4) (k x e : Nat) : Nat × Nat × Flags :=
  match cvtFmt dt with
  | some df =>
    let (c, r, fl) := efStep core k (convertFloat f32 df .rne) (widenExact df) x e
    (c, r, fl ||| if f32.isSNaN x then flNV else 0)
  | none => efStep core k (tb.encode .c8 (.dir .rne) f32) (tb.decode .c8) x e

/-- VCVT (R223): the destination register, the residue register after an EF mode, the flags. -/
def vCvt (core : Nat) (tb : Table) (dt st : BitVec 4) (rnd : CvtRnd) (a e : VReg) : VReg × VReg × Flags :=
  let ws := cvtWidth st
  let wd := cvtWidth dt
  let src := splitLanes ws (1024 / max ws wd) a.toNat
  match rnd with
  | .mode m =>
    let r := gather (src.map (convertLane tb dt st m))
    (ofLanes wd r.1, e, r.2)
  | .ef _ =>
    let rs := (src.zip (words32 e)).zipIdx.map fun p => convertLaneEf core tb dt p.2 p.1.1 p.1.2
    (ofLanes wd (rs.map Prod.fst), ofLanes 32 (rs.map fun r => r.2.1), rs.foldl (fun f r => f ||| r.2.2) 0)

/-- The bit position and code width of a part of VENC and VDEC (R225). -/
def codePart (c4 : Bool) (q : Nat) : Nat × Nat := if c4 then (128 * q, 4) else (256 * q, 8)

/-- A register with `n` bits from `lo` replaced. -/
def setBits (v : VReg) (lo n x : Nat) : VReg :=
  BitVec.ofNat 1024 (v.toNat % 2 ^ lo + x % 2 ^ n * 2 ^ lo + v.toNat / 2 ^ (lo + n) * 2 ^ (lo + n))

/-- VENC (R225). -/
def vEnc (core : Nat) (tb : Table) (s : Scope) (rnd : CvtRnd) (q : Nat) (a d e : VReg) : VReg × VReg × Flags :=
  let c4 := s != .c8
  let (lo, w) := codePart c4 q
  match rnd with
  | .mode m =>
    let r := gather ((words32 a).map (tb.encode s m f32))
    (setBits d lo (32 * w) (joinLanes w r.1), e, r.2)
  | .ef _ =>
    let rs := ((words32 a).zip (words32 e)).zipIdx.map fun p =>
      efStep core p.2 (tb.encode s (.dir .rne) f32) (tb.decode s) p.1.1 p.1.2
    (setBits d lo (32 * w) (joinLanes w (rs.map Prod.fst)), ofLanes 32 (rs.map fun r => r.2.1),
      rs.foldl (fun f r => f ||| r.2.2) 0)

/-- VDEC (R226). -/
def vDec (tb : Table) (s : Scope) (q : Nat) (a : VReg) : VReg :=
  let (lo, w) := codePart (s != .c8) q
  ofLanes 32 ((splitLanes w 32 (a.toNat / 2 ^ lo)).map (tb.decode s))

/-- VMASK.V: a lane mask as all-ones words (R228). -/
def maskWords (mask : BitVec 32) : VReg :=
  ofLanes 32 ((splitLanes 1 32 mask.toNat).map fun b => b * (2 ^ 32 - 1))

/-- The number of set bits of a lane mask (R228). -/
def maskCount (mask : BitVec 32) : Nat := (splitLanes 1 32 mask.toNat).foldl (· + ·) 0

end Sys2Proof.Machine
end

