-- ==== Sys2Proof/Machine/Base.lean ====
section
/-!
DEFINITION. Sys2Proof/Machine/Base.lean: cause codes, sparse maps and bytes of memory.
-/

namespace Sys2Proof.Machine

/-- The causes of Table 8.1. -/
inductive Cause where
  | illegal
  | priv
  | zeroword
  | pairclass
  | slot
  | joint
  | qdeadlock
  | qnotempty
  | align
  | prot
  | translate
  | reservedBit
  | owner
  | remoteAtomic
  | aperture
  | rangelock
  | regionLost
  | codeMiss
  | codeReject
  | islandGone
  | window
  | table
  | shape
  | token
  | bankunit
  | fabric
  | keyRevoked
  | watchdog
  | poison
  | tagloss
  | break_
  | preempt
  | imageStale
  | imageTag
  deriving DecidableEq, Repr

/-- The 8-bit code of a cause (R168). -/
def Cause.code : Cause → Nat
  | .illegal => 0x01
  | .priv => 0x02
  | .zeroword => 0x03
  | .pairclass => 0x04
  | .slot => 0x05
  | .joint => 0x06
  | .qdeadlock => 0x07
  | .qnotempty => 0x08
  | .align => 0x09
  | .prot => 0x0A
  | .translate => 0x0B
  | .reservedBit => 0x0C
  | .owner => 0x0D
  | .remoteAtomic => 0x0E
  | .aperture => 0x0F
  | .rangelock => 0x10
  | .regionLost => 0x11
  | .codeMiss => 0x12
  | .codeReject => 0x13
  | .islandGone => 0x14
  | .window => 0x15
  | .table => 0x16
  | .shape => 0x17
  | .token => 0x18
  | .bankunit => 0x19
  | .fabric => 0x1A
  | .keyRevoked => 0x1B
  | .watchdog => 0x1C
  | .poison => 0x1D
  | .tagloss => 0x1E
  | .break_ => 0x21
  | .preempt => 0x22
  | .imageStale => 0x23
  | .imageTag => 0x24

/-! ### Sparse maps -/

/-- The value a sparse map holds for a key, `d` where it lists none. -/
def lookupD {α : Type} (d : α) : List (Nat × α) → Nat → α
  | [], _ => d
  | (j, x) :: rest, k => if j == k then x else lookupD d rest k

/-- A sparse map with one key set, its keys rising; a value equal to the default is not listed. -/
def insertD {α : Type} [DecidableEq α] (d : α) : List (Nat × α) → Nat → α → List (Nat × α)
  | [], k, x => if x = d then [] else [(k, x)]
  | (j, y) :: rest, k, x =>
    if k < j then (if x = d then (j, y) :: rest else (k, x) :: (j, y) :: rest)
    else if k == j then (if x = d then rest else (k, x) :: rest)
    else (j, y) :: insertD d rest k x

/-! ### Bytes of memory -/

/-- Bytes by address: addresses rising, no byte that is 0 (notes/assumptions/1: an unlisted byte reads 0). -/
abbrev Memory := List Host.Cell

/-- DESIGN CHOICE (log 1): what an unlisted byte reads as. -/
def unlistedByte : Byte := 0#8

/-- The canonical form: addresses strictly rise and no entry equals what an unlisted address reads as. -/
def Memory.wfFrom : Nat → Memory → Bool
  | _, [] => true
  | lo, c :: rest => lo <= c.1 && c.2 != unlistedByte && wfFrom (c.1 + 1) rest

abbrev Memory.wf (m : Memory) : Prop := Memory.wfFrom 0 m = true

/-- The byte at an address. -/
def Memory.byte : Memory → Nat → Byte
  | [], _ => unlistedByte
  | c :: rest, a => if c.1 == a then c.2 else Memory.byte rest a

/-- The cells of `n` bytes of a little-endian number from an address, those that are not listed left out. -/
def cellsOf (a : Nat) : Nat → Nat → Memory
  | 0, _ => []
  | n + 1, v =>
    let b : Byte := BitVec.ofNat 8 v
    if b = unlistedByte then cellsOf (a + 1) n (v / 256) else (a, b) :: cellsOf (a + 1) n (v / 256)

/-- The little-endian number of `n` bytes from an address (02 n46). -/
def Memory.read (m : Memory) (a n : Nat) : Nat :=
  m.foldl (fun v c => if a <= c.1 && c.1 < a + n then v + c.2.toNat * 2 ^ (8 * (c.1 - a)) else v) 0

/-- Memory with `n` bytes of a little-endian number written from an address. -/
def Memory.write (m : Memory) (a n v : Nat) : Memory :=
  m.filter (fun c => c.1 < a) ++ cellsOf a n v ++ m.filter (fun c => a + n <= c.1)

/-- A list put in the order of a key, equal keys as they stand. -/
def insertKey {α : Type} (key : α → Nat) (x : α) : List α → List α
  | [] => [x]
  | y :: ys => if key y < key x then y :: insertKey key x ys else x :: y :: ys

def sortKey {α : Type} (key : α → Nat) (xs : List α) : List α := xs.foldr (insertKey key) []

end Sys2Proof.Machine
end

