-- ==== Sys2Proof/Machine/HomeState.lean ====
section
/-!
DEFINITION. Sys2Proof/Machine/HomeState.lean: the state of a package's memory side: main memory, the shared cache's
tags and data entries, the translation caches, quota words, posted reductions and the cores' L1 caches
(spec 15, R287 to R305; spec 16, R311 to R324).
-/

namespace Sys2Proof.Machine

/-- A leaf of the page table with the size of its page (R313). -/
structure Leaf where
  frame : Nat       -- physical address bits [43:12]
  own : Nat
  apt : Nat
  pub : Bool
  rap : Bool
  cls : Nat
  size : Nat        -- bytes of the page it translates: 4 KiB, 64 KiB or 2 MiB
  deriving DecidableEq, Repr

/-- A cached translation: the first address it covers and its leaf. -/
structure Trans where
  base : Nat
  leaf : Leaf
  deriving DecidableEq, Repr

/-- A walk-cache entry: cache die, level, the key va[56 : 9l+3] and the next table (R314, R316). -/
structure WalkEntry where
  die : Nat
  level : Nat
  key : Nat
  next : Nat
  deriving DecidableEq, Repr

/-- A tag of the shared cache (Table 15.3). The model keeps the line's frame beside it (log 8). -/
structure Tag where
  line : Nat        -- va[56:7]
  pa : Nat          -- physical address of the line, the model's own field
  scope : Nat       -- 0-8,191 a domain, 0x2000 published
  part : Nat
  wdom : Nat
  dirty : Bool
  cls : Nat
  qpos : Nat
  dptr : Nat
  way : Nat         -- the way of its set that it stands in, 0 to 23
  deriving DecidableEq, Repr

/-- The invalid ways of a set that a fill has touched, each with the place it keeps in the set's recency order; the set is the
one that holds a line (log 8). -/
structure SetWays where
  slice : Nat
  line : Nat
  free : List (Nat × Nat)
  deriving DecidableEq, Repr

/-- A data entry (Table 15.3), where it stands (Table 15.2), and whether it is as a fill left it (R298). The model names an
entry by `id`; its DPTR is computed (log 8). -/
structure DataEntry where
  id : Nat
  set : BitVec 22   -- data slice [21:13] and data set [12:0], as the content hash selects them
  way : Nat
  bytes : VReg
  refs : Nat
  hash : BitVec 64
  pois : Nat        -- one bit per 8-byte part
  filled : Bool     -- no write has changed it since it was filled
  deriving DecidableEq, Repr

/-- DPTR of a data entry: data slice [25:17], data set [16:4], way [3:0] (Table 15.3). -/
def DataEntry.dptr (d : DataEntry) : Nat := d.set.toNat * 16 + d.way

/-- A line that an L1 holds (R319), with its poisoned 8-byte parts as bits. -/
structure L1Line where
  line : Nat
  pa : Nat          -- physical address of the line, the model's own field (log 8)
  bytes : VReg
  pois : Nat
  deriving DecidableEq, Repr

/-- A running range invalidation (R318): whole pages [lo, hi). -/
structure Invalidation where
  id : Nat
  lo : Nat
  hi : Nat
  deriving DecidableEq, Repr

/-- A partition quota word (Table 15.4). -/
structure Quota where
  guar : Bool
  kv : Nat
  act : Nat
  wt : Nat
  oth : Nat
  deriving DecidableEq, Repr

/-- The reset value of a quota word (Table 15.4): best effort, 24 ways for each class. -/
def Quota.reset : Quota := { guar := false, kv := 24, act := 24, wt := 24, oth := 24 }

/-- An atomic operation on its way to a home slice (R115 to R117, R288). -/
structure AtomicOp where
  va : Nat
  op : Nat          -- Table 4.20
  wide : Bool       -- SZ: 64 bits
  opnd : Nat
  deriving DecidableEq, Repr

/-- A posted reduction: its operation, issuing package and core, domain, partition, launch and the package that holds the
launch, M right, and order; and the index of the deferred entry that it replays (R293). -/
structure Posted where
  serial : Nat
  pkg : Nat
  core : Nat
  dom : Nat
  part : Nat
  launch : Nat
  lpkg : Nat
  mRight : Bool
  replay : Option Nat
  at_ : AtomicOp
  deriving DecidableEq, Repr

/-- A deferred-operation entry as its slice holds it (Table 15.1), with the package and order number of a reduction that no queue
holds yet (R291, R292). -/
structure Deferred where
  origin : Option (Nat × Nat)
  at_ : AtomicOp
  cause : Cause
  core : Nat
  launch : Nat
  lpkg : Nat            -- the package that holds the launch
  time : Nat
  dom : Nat
  report : Option Nat   -- the open KIND 2 report of TRANSLATE and OWNER entries (R293)
  deriving DecidableEq, Repr

/-- The operation is of a core's own stream, not the firmware's replay of one. -/
def Posted.ofCore (p : Posted) (pkg core : Nat) : Bool := p.pkg == pkg && p.core == core && p.replay.isNone

/-- A domain's deferred-operation ring (R292): base and length set by the control cores, and its two indices. -/
structure DefRing where
  base : Nat
  len : Nat
  tail : Nat
  head : Nat
  open_ : List (Nat × Deferred)   -- entries consumed or not, by index, that are not resolved yet
  deriving DecidableEq, Repr

def DefRing.reset : DefRing := { base := 0, len := 64, tail := 0, head := 0, open_ := [] }

/-- The memory side of one package. -/
structure Home where
  hbm : Memory
  hbmPois : List Nat                     -- poisoned 8-byte parts of main memory, as address/8
  troot : Nat                            -- R311
  fotBase : Nat                          -- R320
  tags : List Tag
  data : List DataEntry
  sliceBuf : List (Nat × Trans)          -- slice translation buffers, newest first (Table 16.5)
  freeWays : List SetWays                -- invalid ways; all 24 of a set that is not listed, each at its own number
  walkCache : List WalkEntry             -- newest first
  ownBuf : List (Nat × Nat × BitVec 16)  -- ownership buffers: slice, frame, entry (R321)
  invals : List Invalidation
  quotas : List (Nat × Quota)            -- by 64·slice + partition (R301)
  dirtyBits : List (Nat × List Nat)      -- dirty-owner bitmap of each slice: the domains set (R305)
  lostRefs : List Nat                    -- data entries a lost tag can no longer release (R304)
  accepted : List Posted                 -- accepted posted reductions not yet performed (R290)
  overflow : List (Nat × List Deferred)  -- deferred entries a slice keeps while a queue is full (R292)
  defRings : List (Nat × DefRing)        -- by domain
  l1 : List (Nat × List L1Line)          -- each core's L1 lines, newest first
  fusedQuads : List (Nat × Nat × Nat)    -- quads whose four L1s act as one (Table 0.1), with the launch and gang they are fused for
  deriving DecidableEq, Repr

/-- The dirty-tag mirror (Table 15.2): one copy of each dirty tag. It holds nothing that the tags do not, but where an error
has struck one of the two, which TAG_ERROR says (log 75). -/
def Home.mirror (h : Home) : List Tag := h.tags.filter (·.dirty)

/-- The memory side at reset: nothing cached; TROOT, the FOT base and the rings are named by no reset value in the
spec (log 2). -/
def Home.reset : Home :=
  { hbm := [], hbmPois := [], troot := 0, fotBase := 0, tags := [], data := [], sliceBuf := [], freeWays := [],
    walkCache := [], ownBuf := [], invals := [], quotas := [], dirtyBits := [], lostRefs := [], accepted := [],
    overflow := [], defRings := [], l1 := [], fusedQuads := [] }

end Sys2Proof.Machine
end

