-- ==== Sys2Proof/Machine/Home.lean ====
section
/-!
DEFINITION. Sys2Proof/Machine/Home.lean: the operations of the memory side: the walk, the ownership check, fills,
sharing and un-sharing, reads and writes of a line, and range invalidation (spec 15, spec 16).
-/

namespace Sys2Proof.Machine

/-- Why a memory-side operation does not perform. -/
inductive MemErr where
  | wait                  -- it waits for a running range invalidation (R318)
  | fault (c : Cause)
  | noFrame               -- a physical address beyond the package's memory
  deriving DecidableEq, Repr

/-- Computations on the memory side; one that ends in an error leaves it as it was. -/
abbrev H (α : Type) := StateT Home (Except MemErr) α

/-- R287: the home slice of an address. -/
def homeSlice (va : Nat) : Nat :=
  natBits va 15 7 ^^^ natBits va 24 16 ^^^ natBits va 33 25 ^^^ natBits va 42 34 ^^^ natBits va 51 43 ^^^
    natBits va 56 52

/-- R314: slice s lies on cache die s div 64. -/
def sliceDie (s : Nat) : Nat := s / 64

/-- Bytes of main memory: 1 TiB (R2). -/
def hbmBytes : Nat := 2 ^ 40

/-- A read of main memory by a walker or a fill. -/
def readHbm (pa n : Nat) : H Nat := do
  if hbmBytes < pa + n then throw .noFrame
  return (← get).hbm.read pa n

/-- A read of a table in main memory by a walker: a part that holds uncorrectable data raises POISON (R47, R413). -/
def readTable (pa n : Nat) : H Nat := do
  if ((← get).hbmPois.any fun p => pa < 8 * p + 8 && 8 * p < pa + n) then throw (.fault .poison)
  readHbm pa n

/-- Two spans share an address. -/
def overlaps (lo hi a b : Nat) : Bool := lo < b && a < hi

/-- The address lies in the range of a running invalidation (R318). -/
def Home.invalidating (h : Home) (va : Nat) : Bool := h.invals.any fun i => i.lo <= va && va < i.hi

/-- At most `n` of the newest elements that meet a test, and all that do not. -/
def keepNewest {α : Type} (p : α → Bool) : Nat → List α → List α
  | _, [] => []
  | n, x :: xs =>
    if p x then (match n with
      | 0 => keepNewest p 0 xs
      | m + 1 => x :: keepNewest p m xs)
    else x :: keepNewest p n xs

/-- Entries of a walk cache of a level on one die (Table 16.5). -/
def walkCap : Nat → Nat
  | 2 => 1024
  | 3 => 256
  | 4 => 64
  | _ => 16

def Trans.covers (t : Trans) (va : Nat) : Bool := t.base <= va && va < t.base + t.leaf.size

/-- The physical address of a virtual address under a translation (R313). -/
def Trans.pa (t : Trans) (va : Nat) : Nat := 4096 * t.leaf.frame + (va - t.base)

def installSlice (s : Nat) (t : Trans) : H Unit :=
  modify fun h =>
    { h with sliceBuf := (keepNewest (fun e => e.1 == s) 2048 ((s, t) :: h.sliceBuf.filter (· != (s, t)))) }

/-- The leaf fields of an entry (Table 16.4). A 64 KiB page is held as its 4 KiB translations, which R313 permits. -/
def leafOf (e level : Nat) : Leaf :=
  { frame := natBits e 57 26, own := natBits e 25 13, apt := natBits e 12 7, pub := natBits e 6 6 == 1,
    rap := natBits e 5 5 == 1, cls := natBits e 4 3, size := if level == 2 then 2 ^ 21 else 4096 }

/-- Index(va, l) of R311. -/
def walkIndex (va l : Nat) : Nat := natBits va (9 * l + 11) (9 * l + 3)

/-- The loop of R314 from a table of a level, with the non-leaf entries met so far. A walk that fails installs
nothing (R317). DESIGN CHOICE (log 103): of an entry written through a class other than weights and not yet written back, whose
reading R315 leaves open, the walk reads what main memory still holds. -/
def walkFrom (die va : Nat) : Nat → Nat → List WalkEntry → H (Leaf × Nat × List WalkEntry)
  | 0, _, _ => throw (.fault .reservedBit)
  | l + 1, tbl, seen => do
    let level := l + 1
    let e ← readTable (tbl + 8 * walkIndex va level) 8
    if e % 2 == 0 then throw (.fault .translate)
    if natBits e 1 1 == 0 then
      if level == 1 || natBits e 63 58 != 0 || natBits e 25 2 != 0 then throw (.fault .reservedBit)
      let next := 4096 * natBits e 57 26
      walkFrom die va l next ({ die := die, level := level, key := va / 2 ^ (9 * level + 3), next := next } :: seen)
    else
      let ch := natBits e 2 2 == 1
      let low := natBits e 57 26
      if 3 <= level || natBits e 63 58 != 0 || (level == 2 && (low % 512 != 0 || ch)) ||
          (level == 1 && ch && low % 16 != natBits va 15 12) then throw (.fault .reservedBit)
      return (leafOf e level, level, seen)

/-- Where a walk starts: below the deepest walk-cache hit on the die, else at the root. -/
def walkStart (h : Home) (die va : Nat) : Nat × Nat :=
  let hit (l : Nat) : Option Nat :=
    (h.walkCache.find? fun w => w.die == die && w.level == l && w.key == va / 2 ^ (9 * l + 3)).map (·.next)
  match hit 2, hit 3, hit 4, hit 5 with
  | some t, _, _, _ => (1, t)
  | none, some t, _, _ => (2, t)
  | none, none, some t, _ => (3, t)
  | none, none, none, some t => (4, t)
  | none, none, none, none => (5, h.troot)

/-- The FOT entry of a frame, through the slice's ownership buffer (R320, R321). -/
def fotEntry (s frame : Nat) : H (BitVec 16) := do
  let h ← get
  match h.ownBuf.find? fun e => e.1 == s && e.2.1 == frame with
  | some e => return e.2.2
  | none =>
    let v ← readTable (h.fotBase + 2 * frame) 2
    let e : BitVec 16 := BitVec.ofNat 16 v
    modify fun h => { h with ownBuf := (s, frame, e) :: h.ownBuf }
    return e

/-- CheckOwner (R320): the entry of the frame that holds a physical address. -/
def checkOwner (s : Nat) (leaf : Leaf) (pa : Nat) : H (BitVec 16) := do
  let o ← fotEntry s (pa / 4096)
  if natBits o.toNat 15 14 != 0 then throw (.fault .reservedBit)
  if natBits o.toNat 12 0 == leaf.own || (natBits o.toNat 13 13 == 1 && leaf.pub) then return o
  throw (.fault .owner)

/-- R295: the dedup scope of a line. -/
def lineScope (leaf : Leaf) (fot : BitVec 16) : Nat :=
  if leaf.pub && natBits fot.toNat 13 13 == 1 then 0x2000 else leaf.own

/-! ### Data entries (R296 to R299) -/

def Home.entry (h : Home) (id : Nat) : Option DataEntry := h.data.find? fun d => d.id == id

/-- The lowest identifier no entry of a list holds, tried from `n` down to 0 by the list's length. -/
def freshId (used : List Nat) : Nat :=
  ((List.range (used.length + 1)).find? fun i => !used.contains i).getD used.length

/-- A release: one reference fewer, the entry freed at 0 (R299). -/
def releaseEntry (id : Nat) : H Unit :=
  modify fun h =>
    let ds := h.data.map fun d => if d.id == id then { d with refs := d.refs - 1 } else d
    { h with data := ds.filter fun d => d.id != id || d.refs != 0 }

/-- The poisoned parts of a line of main memory as bits. -/
def linePois (h : Home) (pa : Nat) : Nat :=
  (List.range 16).foldl (fun n k => if h.hbmPois.contains (pa / 8 + k) then n + 2 ^ k else n) 0

/-- A line written to main memory with its poison (R299). -/
def writeLineHbm (pa : Nat) (bytes : VReg) (pois : Nat) : H Unit :=
  modify fun h => { h with
    hbm := h.hbm.write pa 128 bytes.toNat
    hbmPois := h.hbmPois.filter (fun p => !(pa / 8 <= p && p < pa / 8 + 16)) ++
      (List.range 16).filterMap fun k => if pois / 2 ^ k % 2 == 1 then some (pa / 8 + k) else none }

/-- A dirty tag's line written back, its tag clean (R299). -/
def writeBack (t : Tag) : H Unit := do
  if t.dirty then
    match (← get).entry t.dptr with
    | some d => writeLineHbm t.pa d.bytes d.pois
    | none => pure ()

/-- Two lines of one slice stand in the same set. -/
def sameSet (a b : Nat) : Bool := a == b || Config.tagSet a == Config.tagSet b

/-- The invalid ways of a line's set, each with its place in the set's order. DESIGN CHOICE (log 8): in a set that nothing has
touched, way w stands at place w. -/
def Home.waysFree (h : Home) (line : Nat) : List (Nat × Nat) :=
  let s := homeSlice (128 * line)
  match h.freeWays.find? fun f => f.slice == s && sameSet f.line line with
  | some f => f.free
  | none => (List.range 24).map fun w => (w, w)

/-- The invalid ways of a line's set after a change. -/
def Home.setWays (h : Home) (line : Nat) (f : List (Nat × Nat) → List (Nat × Nat)) : Home :=
  let s := homeSlice (128 * line)
  let w := f (h.waysFree line)
  { h with freeWays :=
      if h.freeWays.any fun f => f.slice == s && sameSet f.line line then
        h.freeWays.map fun f => if f.slice == s && sameSet f.line line then { f with free := w } else f
      else h.freeWays ++ [{ slice := s, line := line, free := w }] }

/-- An eviction or invalidation: write back, then release (R299). Its way is invalid and keeps its place in the order. -/
def dropTag (t : Tag) : H Unit := do
  writeBack t
  releaseEntry t.dptr
  modify fun h => Home.setWays { h with tags := h.tags.filter fun x => x.line != t.line } t.line fun ws => (t.way, t.qpos) :: ws

/-- The ways of a data set (Table 15.2). -/
def dataWays : Nat := 16

/-- The entries that stand in a data set. -/
def Home.inSet (h : Home) (set : BitVec 22) : List DataEntry := h.data.filter fun d => d.set == set

/-- The entry of a full data set that makes room: the lowest way, but for one entry, whose references are all tags that the
slices can evict (log 8). -/
def Home.setVictim (h : Home) (es : List DataEntry) (spare : Nat) : Option DataEntry :=
  (sortKey (·.way) es).find? fun d => d.id != spare && (h.tags.filter fun t => t.dptr == d.id).length == d.refs

/-- Allocate of R296 and R298: a new data entry with one reference, in the lowest free way of the set that its content
selects; a full set gives up an entry first, and where it can give up none there is no new entry. A package whose entries
fit in one set has room in all. -/
def allocEntry (bytes : VReg) (pois spare : Nat) (filled : Bool) : H (Option Nat) := do
  let set := Config.dataSet (Config.contentHash bytes)
  let put : H (Option Nat) := do
    let h ← get
    let id := freshId (h.data.map (·.id))
    let way := ((List.range dataWays).find? fun w => (h.inSet set).all fun d => d.way != w).getD 0
    let d : DataEntry := { id := id, set := set, way := way, bytes := bytes, refs := 1, hash := Config.contentHash bytes,
                           pois := pois, filled := filled }
    modify fun h => { h with data := h.data ++ [d] }
    return some id
  let h ← get
  if h.data.length < dataWays then put
  else if (h.inSet set).length < dataWays then put
  else
    match h.setVictim (h.inSet set) spare with
    | none => return none
    | some d =>
      (h.tags.filter fun t => t.dptr == d.id).forM dropTag
      put

/-! ### Insertion, recency and quotas (R301, R302) -/

def quotaOf (h : Home) (slice part : Nat) : Quota := lookupD Quota.reset h.quotas (64 * slice + part)

def Quota.ways (q : Quota) (cls : Nat) : Nat :=
  match cls with
  | 0 => q.oth
  | 1 => q.wt
  | 2 => q.act
  | _ => q.kv

/-- The tags that stand in the set of a line. The set is an open placement, looked at only when the slice holds more
lines than a set has ways. -/
def setTags (h : Home) (line : Nat) : List Tag :=
  let s := homeSlice (128 * line)
  h.tags.filter fun t => homeSlice (128 * t.line) == s && sameSet t.line line

/-- The tags of a line's slice. -/
def sliceTags (h : Home) (line : Nat) : List Tag :=
  h.tags.filter fun t => homeSlice (128 * t.line) == homeSlice (128 * line)

/-- The element with the least QPOS. -/
def lowestPos (ts : List Tag) : Option Tag :=
  ts.foldl (fun b t => match b with
    | none => some t
    | some x => if t.qpos < x.qpos then some t else b) none

/-- The lowest of a set's invalid ways, with its place in the order. -/
def lowestWay (ws : List (Nat × Nat)) : Nat × Nat := (sortKey Prod.fst ws).headD (0, 0)

/-- The set's order after the way at `src` moves to `dst`: the ways between shift by one (R302). -/
def shiftPos (src dst : Nat) (q : Nat) : Nat :=
  if src < dst then (if src < q && q <= dst then q - 1 else q)
  else (if dst <= q && q < src then q + 1 else q)

/-- A tag's place after the tag of `line` moves from `src` to `dst`; `st` holds the lines of its set. -/
def Tag.moved (line src dst : Nat) (st : List Nat) (t : Tag) : Tag :=
  if t.line == line then { t with qpos := dst }
  else if st.contains t.line then { t with qpos := shiftPos src dst t.qpos }
  else t

/-- A tag at `src` of a line's set moves to `dst`. -/
def movePos (line src dst : Nat) : H Unit := do
  if src != dst then
    let h ← get
    let st := if (sliceTags h line).length <= 1 then [] else (setTags h line).map (·.line)
    modify fun h => Home.setWays { h with tags := h.tags.map (Tag.moved line src dst st) } line fun ws =>
      ws.map fun w => (w.1, shiftPos src dst w.2)

/-- R302: a hit by a partition raises its line. -/
def touch (part : Nat) (t : Tag) : H Unit := do
  let q := quotaOf (← get) (homeSlice (128 * t.line)) part
  if q.guar then movePos t.line t.qpos 23
  else if t.qpos < 12 then movePos t.line t.qpos 12

/-- Where an access finds its line: a data entry, or main memory for a line no tag may hold (R302). -/
inductive LineRef where
  | entry (id : Nat)
  | uncached (pa : Nat)
  deriving DecidableEq, Repr

/-- The fill of R296 and R302 for a line whose translation and owner are known; `shares` where the line may be shared. -/
def fillLine (shares : Bool) (part va : Nat) (leaf : Leaf) (fot : BitVec 16) (pa : Nat) : H LineRef := do
  let line := va / 128
  let s := homeSlice va
  let lpa := pa / 128 * 128
  let q := quotaOf (← get) s part
  if q.ways leaf.cls == 0 then return .uncached lpa
  -- make room
  let h ← get
  let sl := sliceTags h line
  let mine (ts : List Tag) := ts.filter fun t => t.part == part && t.cls == leaf.cls
  let victim : Option Tag :=
    if sl.length < 24 && (mine sl).length < q.ways leaf.cls then none
    else
      let st := setTags h line
      if q.ways leaf.cls <= (mine st).length then lowestPos (mine st)
      else if st.length < 24 then none
      else lowestPos st
  let (way, pos) := match victim with
    | some v => (v.way, v.qpos)
    | none => lowestWay (h.waysFree line)
  match victim with
  | some v => dropTag v
  | none => pure ()
  -- the line's bytes and a candidate to share
  let bytes : VReg := BitVec.ofNat 1024 (← readHbm lpa 128)
  let pois := linePois (← get) lpa
  let sc := lineScope leaf fot
  let h ← get
  let cands := h.data.filter fun d =>
    shares && d.filled && d.bytes == bytes && d.refs < 255 && d.pois == 0 && pois == 0 &&
    h.tags.any fun t => t.dptr == d.id && t.scope == sc
  let id ← match (sortKey (·.way) cands).head? with
    | some d => do
      modify fun h => { h with data := h.data.map fun (x : DataEntry) => if x.id == d.id then { x with refs := x.refs + 1 } else x }
      pure (some d.id)
    | none => allocEntry bytes pois h.data.length shares
  match id with
  | none => return .uncached lpa
  | some id =>
    let t : Tag := { line := line, pa := lpa, scope := sc, part := part, wdom := 0, dirty := false, cls := leaf.cls,
                     qpos := pos, dptr := id, way := way }
    modify fun h => Home.setWays { h with tags := h.tags ++ [t] } line fun ws => ws.filter fun w => w.1 != way
    movePos line pos (if q.guar then 23 else 0)
    return .entry id

/-! ### Reads and writes of a line -/

/-- The 8-byte parts of a line that `n` bytes from offset `off` touch, as bits. -/
def partsOf (off n : Nat) : List Nat := (List.range 16).filter fun k => off < 8 * k + 8 && 8 * k < off + n

def poisonedIn (pois off n : Nat) : Bool := (partsOf off n).any fun k => pois / 2 ^ k % 2 == 1

/-- The bytes of a line with `n` bytes from `off` replaced. -/
def patchBytes (b : VReg) (off n v : Nat) : VReg :=
  BitVec.ofNat 1024 (b.toNat % 2 ^ (8 * off) + v % 2 ^ (8 * n) * 2 ^ (8 * off) +
    b.toNat / 2 ^ (8 * (off + n)) * 2 ^ (8 * (off + n)))

/-- A read of `n` bytes of a line; a poisoned part raises POISON (R289). -/
def readRef (r : LineRef) (va n : Nat) : H Nat := do
  let off := va % 128
  match r with
  | .entry id =>
    match (← get).entry id with
    | some d =>
      if poisonedIn d.pois off n then throw (.fault .poison)
      return d.bytes.toNat / 2 ^ (8 * off) % 2 ^ (8 * n)
    | none => throw .wait
  | .uncached pa =>
    if poisonedIn (linePois (← get) pa) off n then throw (.fault .poison)
    readHbm (pa + off) n

/-- Un-sharing before a write (R298): a new entry with one reference for the line's tag; none where its set can make no room
for it. -/
def unshare (line id : Nat) : H (Option Nat) := do
  match (← get).entry id with
  | some d =>
    if 1 < d.refs then
      match ← allocEntry d.bytes d.pois id false with
      | some id' =>
        releaseEntry id
        modify fun h => { h with tags := h.tags.map fun t => if t.line == line then { t with dptr := id' } else t }
        return some id'
      | none => return none
    else return some id
  | none => return some id

/-- The domains of a slice's dirty-owner bitmap with one more bit set (R305). -/
def setDirtyBit (s dom : Nat) : H Unit :=
  modify fun h =>
    let ds := lookupD [] h.dirtyBits s
    if ds.contains dom then h else { h with dirtyBits := insertD [] h.dirtyBits s (ds ++ [dom]) }

/-- A write of `n` bytes at `va` by a domain: un-share, write, then dirty or written through (R288, R298, R303). The
poison of a part that is written whole clears (R289). DEDUCED (log 104): so does an engine's, a host's or a scheduler's write of
a whole part, as R413 says of a full store. -/
def writeRef (r : LineRef) (va n v wdom : Nat) : H Unit := do
  let off := va % 128
  let line := va / 128
  let cleared (p : Nat) : Nat := (List.range 16).foldl (fun a k =>
    if p / 2 ^ k % 2 == 1 && !(off <= 8 * k && 8 * k + 8 <= off + n) then a + 2 ^ k else a) 0
  let past (pa : Nat) : H Unit := do
    let b : VReg := BitVec.ofNat 1024 (← readHbm pa 128)
    writeLineHbm pa (patchBytes b off n v) (cleared (linePois (← get) pa))
  match r with
  | .entry id0 =>
    match ← unshare line id0 with
    | none =>
      match (← get).tags.find? fun t => t.line == line with
      | some t =>
        dropTag t
        past t.pa
      | none => pure ()
    | some id =>
      modify fun h => { h with data := h.data.map fun d =>
        if d.id == id then
          { d with bytes := patchBytes d.bytes off n v, hash := Config.contentHash (patchBytes d.bytes off n v),
                   pois := cleared d.pois, filled := false }
        else d }
      let h ← get
      match h.tags.find? fun t => t.line == line with
      | some t =>
        if t.cls == 1 then
          match h.entry id with
          | some d => writeLineHbm t.pa d.bytes d.pois
          | none => pure ()
        else
          modify fun h => { h with tags := h.tags.map fun (x : Tag) =>
            if x.line == line then { x with dirty := true, wdom := wdom } else x }
          setDirtyBit (homeSlice va) wdom
      | none => pure ()
  | .uncached pa => past pa
  -- the L1 copies follow (log 6)
  modify fun h => { h with l1 := h.l1.map fun c =>
    (c.1, c.2.map fun (e : L1Line) =>
      if e.line == line then { e with bytes := patchBytes e.bytes off n v, pois := cleared e.pois } else e) }

/-! ### The translation cache (R316) -/

/-- The address at which an entry of the translation cache is seen. -/
def transVa (i : Nat) : Nat := 0x1FD000000000000 + 16 * i

/-- DESIGN CHOICE (log 92): the 256 MiB that the control cores reserve for the translation cache are the last of main memory. -/
def transBase : Nat := hbmBytes - 2 ^ 28

/-- DESIGN CHOICE (log 92): the entry that may hold the translation of an address by a leaf of a size. -/
def transIndex (va size : Nat) : Nat := va / size % 2 ^ 24

/-- An entry's 16 bytes. DESIGN CHOICE (log 92): the leaf as Table 16.4 lays it out, then the address it translates from, with bit
0 set for a 2 MiB page. -/
def Trans.bits (t : Trans) : Nat :=
  3 + 2 ^ 3 * t.leaf.cls + (if t.leaf.rap then 2 ^ 5 else 0) + (if t.leaf.pub then 2 ^ 6 else 0) + 2 ^ 7 * t.leaf.apt +
    2 ^ 13 * t.leaf.own + 2 ^ 26 * t.leaf.frame + 2 ^ 64 * (t.base + if t.leaf.size == 2 ^ 21 then 1 else 0)

/-- The translation that 16 bytes of the translation cache hold. -/
def transOf (b : Nat) : Option Trans :=
  let w := b / 2 ^ 64
  if b % 2 == 1 then some { base := w / 4096 * 4096, leaf := leafOf b (if w % 2 == 1 then 2 else 1) } else none

/-- An entry's line in the shared cache: class other, domain 0, never shared; it is filled at its home slice like any line. -/
def transRef (i : Nat) : H LineRef := do
  match (← get).tags.find? fun t => t.line == transVa i / 128 with
  | some t =>
    touch 0 t
    return .entry t.dptr
  | none =>
    fillLine false 0 (transVa i) { frame := 0, own := 0, apt := 0, pub := false, rap := false, cls := 0, size := 4096 } 0
      (transBase + 16 * i)

/-- A hit in the entry for pages of a size. -/
def transHit (va size : Nat) : H (Option Trans) := do
  let i := transIndex va size
  let b ← readRef (← transRef i) (transVa i) 16
  return (transOf b).filter fun t => t.covers va && t.leaf.size == size

/-- TransCache.Hit. -/
def transLookup (va : Nat) : H (Option Trans) := do
  match ← transHit va (2 ^ 21) with
  | some t => return some t
  | none => transHit va 4096

/-- TransCache.Install. -/
def transInstall (t : Trans) : H Unit := do
  let i := transIndex t.base t.leaf.size
  writeRef (← transRef i) (transVa i) 16 t.bits 0

/-- The bytes of a line of the translation cache without the entries that overlap a range. -/
def cleanTrans (lo hi : Nat) (b : VReg) : VReg :=
  (List.range 8).foldl (fun b j =>
    match transOf (b.toNat / 2 ^ (128 * j) % 2 ^ 128) with
    | some t => if overlaps lo hi t.base (t.base + t.leaf.size) then patchBytes b (16 * j) 16 0 else b
    | none => b) b

/-- The translation cache without the entries that overlap a range, in the shared cache and in main memory alike. -/
def Home.cleaned (h : Home) (lo hi : Nat) : Home :=
  let ids := (h.tags.filter fun t => transVa 0 / 128 <= t.line).map (·.dptr)
  let lines := (h.hbm.filterMap fun c => if transBase <= c.1 then some (c.1 / 128 * 128) else none).eraseDups
  { h with
    data := h.data.map fun d =>
      if ids.contains d.id then
        { d with bytes := cleanTrans lo hi d.bytes, hash := Config.contentHash (cleanTrans lo hi d.bytes) }
      else d
    hbm := lines.foldl (fun m a => m.write a 128 (cleanTrans lo hi (BitVec.ofNat 1024 (m.read a 128))).toNat) h.hbm }

/-- Translate (R314). -/
def translate (va : Nat) : H Trans := do
  let s := homeSlice va
  match (← get).sliceBuf.find? fun e => e.1 == s && e.2.covers va with
  | some e => return e.2
  | none =>
    match ← transLookup va with
    | some t =>
      installSlice s t
      return t
    | none =>
      let (l, tbl) := walkStart (← get) (sliceDie s) va
      let (leaf, _, seen) ← walkFrom (sliceDie s) va l tbl []
      let t : Trans := { base := va / leaf.size * leaf.size, leaf := leaf }
      modify fun h => { h with
        walkCache := seen.foldr (fun w ws =>
          keepNewest (fun x => x.die == w.die && x.level == w.level) (walkCap w.level) (w :: ws)) h.walkCache }
      transInstall t
      installSlice s t
      return t

/-- A walk outside an access: it waits for a running range invalidation like a fill. -/
def freeWalk (va : Nat) : H Trans := do
  if (← get).invalidating va then throw .wait
  translate va

/-! ### Reaching a line -/

/-- What an access reaches through the local slice: a line here, or a leaf that names another package or a group. -/
inductive Reach where
  | line (r : LineRef)
  | remote (t : Trans)
  deriving DecidableEq, Repr

/-- LookupOrFill at the local slice (R288, R296, R319, R322): a hit is neither translated nor checked. -/
def reach (part va : Nat) : H Reach := do
  match (← get).tags.find? fun t => t.line == va / 128 with
  | some t =>
    touch part t
    return .line (.entry t.dptr)
  | none =>
    if (← get).invalidating va then throw .wait
    let t ← translate va
    if t.leaf.apt == 0 then
      let fot ← checkOwner (homeSlice va) t.leaf (t.pa va)
      return .line (← fillLine true part va t.leaf fot (t.pa va))
    else return .remote t

/-- The peer's slice for an access handed to it with the local leaf's FRAME and OWN, against which it checks its own FOT; PUB
is not handed (R322). -/
def reachHanded (part va : Nat) (t : Trans) : H LineRef := do
  match (← get).tags.find? fun x => x.line == va / 128 with
  | some x =>
    touch part x
    return .entry x.dptr
  | none =>
    if (← get).invalidating va then throw .wait
    let handed : Leaf := { t.leaf with pub := false }
    let fot ← checkOwner (homeSlice va) handed (t.pa va)
    fillLine true part va handed fot (t.pa va)

/-! ### Atomics (R115, Table 5.9) -/

/-- NewValue of Table 5.9 for an operation of `w` bits; a NaN created carries the issuing core and k = 0. Of two NaN
operands an AMO returns the first (R115), and a reduction (AMON, FXRED), which combines, the one of smallest OrderKey
(R188, log 96). -/
def newValue (reduces : Bool) (core op w old opnd : Nat) : Nat :=
  let s (x : Nat) : Int := natSigned w x
  let f (r : Nat) : Nat := if reduces then ((combineArrivals old opnd).map Prod.fst).getD r else r
  match op with
  | 0 => (old + opnd) % 2 ^ w
  | 1 => old &&& opnd
  | 2 => old ||| opnd
  | 3 => old ^^^ opnd
  | 4 => if s old <= s opnd then old else opnd
  | 5 => if s old <= s opnd then opnd else old
  | 6 => if old <= opnd then old else opnd
  | 7 => if old <= opnd then opnd else old
  | 8 => opnd
  | 9 => f ((⟨f32, .rne, core⟩ : FEnv).add 0 false old opnd).1
  | 10 => f (f32.minMax false false old opnd).1
  | _ => f (f32.minMax true false old opnd).1

/-- Bytes of an atomic's location. -/
def AtomicOp.bytes (a : AtomicOp) : Nat := if a.wide then 8 else 4

/-- An AMO or AMON at its slice (R288): the old value. -/
def performAtomic (reduces : Bool) (r : LineRef) (core dom : Nat) (a : AtomicOp) : H Nat := do
  let old ← readRef r a.va a.bytes
  writeRef r a.va a.bytes (newValue reduces core a.op (8 * a.bytes) old (a.opnd % 2 ^ (8 * a.bytes))) dom
  return old

/-- A CAS at its slice (R117); it counts as a write even when the comparison fails (R288). -/
def performCas (r : LineRef) (dom va n expected new : Nat) : H Nat := do
  let old ← readRef r va n
  writeRef r va n (if old == expected % 2 ^ (8 * n) then new else old) dom
  return old

/-! ### Range invalidation (R318) -/

/-- Step 2 of R318 for a range: the cached translations and walks that overlap it, and every ownership buffer. -/
def dropTranslations (lo hi : Nat) : H Unit :=
  modify fun h => { h.cleaned lo hi with
    sliceBuf := h.sliceBuf.filter fun e => !overlaps lo hi e.2.base (e.2.base + e.2.leaf.size)
    walkCache := h.walkCache.filter fun w =>
      !overlaps lo hi (w.key * 2 ^ (9 * w.level + 3)) ((w.key + 1) * 2 ^ (9 * w.level + 3))
    ownBuf := [] }

/-- Steps 2 and 3 of R318 for a range. -/
def invalidateRange (lo hi : Nat) : H Unit := do
  dropTranslations lo hi
  modify fun h => { h with l1 := h.l1.map fun c => (c.1, c.2.filter fun e => !overlaps lo hi (128 * e.line) (128 * e.line + 128)) }
  ((← get).tags.filter fun t => overlaps lo hi (128 * t.line) (128 * t.line + 128)).forM dropTag

/-! ### The L1 caches (Table 0.1, R319) -/

/-- The core whose L1 array holds a line: in a fused quad the line's address selects one of the four. DESIGN CHOICE (log 6): the
two lowest bits of the line number select it, address bits [8:7]; Table 0.1 says only that the array is address-sliced. -/
def Home.l1Owner (h : Home) (core line : Nat) : Nat :=
  if h.fusedQuads.any fun f => f.1 == core / 4 then core / 4 * 4 + line % 4 else core

def Home.l1Find (h : Home) (core va : Nat) : Option L1Line :=
  (lookupD [] h.l1 (h.l1Owner core (va / 128))).find? fun e => e.line == va / 128

/-- A line of 128 bytes kept in an L1 of 32 KiB, the oldest dropped (log 6). -/
def l1Install (core : Nat) (x : L1Line) : H Unit :=
  modify fun h =>
    let o := h.l1Owner core x.line
    let ls := lookupD [] h.l1 o
    { h with l1 := insertD [] h.l1 o ((x :: ls.filter fun e => e.line != x.line).take 256) }

/-- The bytes and the poison of a line that an access has found. -/
def lineOf (r : LineRef) (line : Nat) : H (Option L1Line) := do
  match r with
  | .entry id =>
    let h ← get
    let pa := ((h.tags.find? fun t => t.line == line).map (·.pa)).getD 0
    return (h.entry id).map fun d => { line := line, pa := pa, bytes := d.bytes, pois := d.pois }
  | .uncached pa => return some { line := line, pa := pa, bytes := BitVec.ofNat 1024 (← readHbm pa 128), pois := linePois (← get) pa }

end Sys2Proof.Machine
end

