-- ==== Sys2Proof/Machine/Tiles.lean ====
section
/-!
DEFINITION. Sys2Proof/Machine/Tiles.lean: tile descriptors, the K-step and the accumulator arithmetic of the matrix
engine as functions of values (spec 11, R232 to R247).
-/

namespace Sys2Proof.Machine

/-- The sixteen rows of an accumulator, 32 f32 lanes each (R230). -/
abbrev Accum := Vector VReg 16

/-- An accumulator with +0 in every element. -/
def Accum.zero : Accum := Vector.replicate 16 0#1024

/-- A tile descriptor's fields (Table 11.2). -/
structure TileDesc where
  dir : Bool
  cb : Nat
  fmt : Nat
  pitch : Nat
  base : Nat
  deriving DecidableEq, Repr

/-- The fields of a descriptor word. -/
def TileDesc.ofWord (w : Word) : TileDesc :=
  { dir := natBits w.toNat 41 41 == 1, cb := natBits w.toNat 40 37, fmt := natBits w.toNat 36 34,
    pitch := natBits w.toNat 33 18, base := natBits w.toNat 17 0 }

/-- R236: TDSET's checks on a descriptor word. -/
def tileWordOk (w : Word) : Bool :=
  let n := w.toNat
  natBits n 63 42 == 0 && natBits n 36 34 <= 4 && (natBits n 36 34 == 4 || natBits n 40 37 == 0) &&
  natBits n 1 0 == 0 && natBits n 19 18 == 0

/-- The element width of a tile format (R233). -/
def tileBits : Nat → Nat
  | 0 => 32
  | 1 => 16
  | 2 => 16
  | 3 => 8
  | _ => 4

/-- ElemBit of R233. -/
def TileDesc.elemBit (d : TileDesc) (r c : Nat) : Nat :=
  if d.dir then 8 * (d.base + d.pitch * c) + tileBits d.fmt * r
  else 8 * (d.base + d.pitch * r) + tileBits d.fmt * c

/-- The positions of a tile in row order: ascending row, then ascending column (R234). -/
def tilePositions (rows cols : Nat) : List (Nat × Nat) :=
  (List.range rows).flatMap fun r => (List.range cols).map fun c => (r, c)

/-- The scratchpad byte offsets an element covers. -/
def TileDesc.elemBytes (d : TileDesc) (r c : Nat) : List Nat :=
  let b := d.elemBit r c
  (List.range ((tileBits d.fmt + 7) / 8)).map fun k => b / 8 + k

/-- The byte offsets of a tile, element by element. -/
def TileDesc.bytes (d : TileDesc) (rows cols : Nat) : List Nat :=
  (tilePositions rows cols).flatMap fun p => d.elemBytes p.1 p.2

/-- The bits of an element, read through a byte function (R233, R186). -/
def TileDesc.elem (d : TileDesc) (rd : Nat → Nat) (r c : Nat) : Nat :=
  let b := d.elemBit r c
  let v := (d.elemBytes r c).foldr (fun a n => rd a + 256 * n) 0
  v / 2 ^ (b % 8) % 2 ^ tileBits d.fmt

/-- An element as an f32 pattern: f32 as it is, the others widened exactly without quieting (R237, R246). -/
def TileDesc.widen (d : TileDesc) (tb : Table) (x : Nat) : Nat :=
  match d.fmt with
  | 0 => x
  | 1 => widenExact bf16 x
  | 2 => widenExact f16 x
  | 3 => tb.decode .c8 x
  | _ => tb.decode (.c4 d.cb) x

/-- The tile as rows of f32 patterns. -/
def TileDesc.read (d : TileDesc) (tb : Table) (rd : Nat → Nat) (rows cols : Nat) : List (List Nat) :=
  (List.range rows).map fun r => (List.range cols).map fun c => d.widen tb (d.elem rd r c)

/-- The engine's arithmetic: round to nearest even, NaNs from its core (R235). -/
def matEnv (core : Nat) : FEnv := ⟨f32, .rne, core⟩

/-- A product of two operands that are no NaN: an infinity, 0·∞, or a finite value. -/
inductive Product where
  | invalid
  | inf (neg : Bool)
  | fin (neg : Bool) (mag : Nat) (exp : Int)
  deriving DecidableEq, Repr

def product (a b : Nat) : Product :=
  match f32.unpack a, f32.unpack b with
  | .inf na, .inf nb => .inf (na ^^ nb)
  | .inf na, .fin nb mb _ => if mb == 0 then .invalid else .inf (na ^^ nb)
  | .fin na ma _, .inf nb => if ma == 0 then .invalid else .inf (na ^^ nb)
  | .fin na ma ea, .fin nb mb eb => .fin (na ^^ nb) (ma * mb) (ea + eb)
  | _, _ => .invalid

def Product.infinite (p : Product) : Bool :=
  match p with
  | .invalid => true
  | .inf _ => true
  | .fin _ _ _ => false

/-- The exact sum of finite products in units of 2^−300. -/
def productSum (ps : List Product) : Int :=
  ps.foldl (fun n p => match p with
    | .fin s m e => n + scaled s m e (-300)
    | _ => n) 0

/-- RoundNE32 of the exact sum of the products (R239): an exact zero is −0 only when every product is −0. -/
def roundSum (ps : List Product) : Nat × Flags :=
  match ps.find? Product.infinite with
  | some (.inf n) => (f32.withSign n f32.infBits, 0)
  | _ =>
    let s := productSum ps
    if s == 0 then (f32.withSign (ps.all fun p => match p with
      | .fin n m _ => n && m == 0
      | _ => false) 0, 0)
    else f32.round .rne (s < 0) s.natAbs (-300)

/-- The operands of one output in NaN order: A(i,0), B(0,j), A(i,1), B(1,j), … (R238). -/
def interleave : List Nat → List Nat → List Nat
  | a :: as, b :: bs => a :: b :: interleave as bs
  | _, _ => []

/-- One output of a K-step (R238): `acc` is none under Z. -/
def mmaElem (core k0 : Nat) (acc : Option Nat) (as bs : List Nat) : Nat × Flags :=
  let v := matEnv core
  match f32.firstNaN (acc.toList ++ interleave as bs) with
  | some r => r
  | none =>
    let ps := (as.zip bs).map fun p => product p.1 p.2
    let badAt := (ps.findIdx? Product.infinite).getD 0
    if ps.contains .invalid || (ps.contains (.inf true) && ps.contains (.inf false)) then
      v.newNaN ((k0 + badAt) % 256)
    else
      let q := roundSum ps
      match acc with
      | none => q
      | some a =>
        let r := v.add ((k0 + as.length - 1) % 256) false a q.1
        (r.1, q.2 ||| r.2)

/-- The columns of a tile of rows. -/
def columns (n : Nat) (rows : List (List Nat)) : List (List Nat) :=
  (List.range n).map fun j => rows.map fun r => r.getD j 0

/-- Rows of f32 patterns with flags from a function of row and column. -/
def buildAccum (f : Nat → Nat → Nat × Flags) : Accum × Flags :=
  let rows := (List.range 16).map fun i => gather ((List.range 32).map fun j => f i j)
  (Vector.ofFn fun i => ofLanes 32 ((rows.getD i.val ([], 0)).1), rows.foldl (fun fl r => fl ||| r.2) 0)

/-- Element (i, j) of an accumulator. -/
def Accum.at (m : Accum) (i j : Nat) : Nat := lane32 (m.toList.getD i 0) j

/-- One K-step of 16 (R238): `z` starts from no accumulator. -/
def kStep (core k0 : Nat) (z : Bool) (m : Accum) (a b : List (List Nat)) : Accum × Flags :=
  let bc := columns 32 b
  let old := m.toList.map words32
  buildAccum fun i j =>
    mmaElem core k0 (if z then none else some ((old.getD i []).getD j 0)) (a.getD i []) (bc.getD j [])

/-- The k index a step starts from: 0 under Z, else KPOS (R238). -/
def kStart (z : Bool) (kpos : BitVec 8) : Nat := if z then 0 else kpos.toNat

/-- MSCA (R243): scale by row or by column. -/
def mscaAccum (core kpos : Nat) (byCol : Bool) (m : Accum) (vs : VReg) : Accum × Flags :=
  buildAccum fun i j => (matEnv core).mul kpos (m.at i j) (lane32 vs (if byCol then j else i))

/-- MCMB (R244): the sum of two accumulators, NaNs by OrderKey. -/
def mcmbAccum (core kpos : Nat) (d a : Accum) : Accum × Flags :=
  buildAccum fun i j =>
    match combineNaN (d.at i j) (a.at i j) with
    | some r => r
    | none => (matEnv core).add kpos false (d.at i j) (a.at i j)

/-- MLD (R246). -/
def mldAccum (d : TileDesc) (tb : Table) (rd : Nat → Nat) : Accum :=
  (buildAccum fun i j => (d.widen tb (d.elem rd i j), 0)).1

/-- The element MST writes (R247). -/
def mstElem (tb : Table) (fmt cb : Nat) (r : Rnd) (x : Nat) : Nat × Flags :=
  match fmt with
  | 0 => (x, 0)
  | 1 => convertFloat f32 bf16 r x
  | 2 => convertFloat f32 f16 r x
  | 3 => tb.encode .c8 (.dir r) f32 x
  | _ => tb.encode (.c4 cb) (.dir r) f32 x

/-- The RND field of MST (Table 4.16). -/
def mstRnd (r : BitVec 2) : Rnd :=
  match r.toNat with
  | 0 => .rne
  | 1 => .rtz
  | 2 => .rup
  | _ => .rdn

/-- A byte after an element is written over it (R233, R247): the element's bits from `b`, the byte at `a`. -/
def mergeByte (old a b s e : Nat) : Nat :=
  -- bits of the byte a that the element [b, b+s) covers
  if s < 8 then
    let sh := b % 8
    old % 2 ^ sh + e % 2 ^ s * 2 ^ sh + old / 2 ^ (sh + s) * 2 ^ (sh + s)
  else e / 2 ^ (8 * a - b) % 256

end Sys2Proof.Machine
end

