-- ==== Sys2Proof/Machine/CoreState.lean ====
section
/-!
DEFINITION. Sys2Proof/Machine/CoreState.lean: the state of one core: both streams, the queues between them, tokens,
range locks, the bit-stream buffer, CSRs, the region, the code store, the vector and matrix engines, the receive
queue and the scratchpad (spec 05, 06, 08, 10, 11, 14).
-/

namespace Sys2Proof.Machine

/-- The two streams of a core (R13). -/
inductive Strm where
  | A
  | X
  deriving DecidableEq, Repr

/-- A branch whose delay-slot units are not all executed (R90, R176): units left, and the target's byte offset as 64
bits when it is taken. -/
structure Branch where
  left : Nat
  target : Option Word
  deriving DecidableEq, Repr

/-- An entry of lq0-lq2, sq0 or sq1 (R85 to R87). `filled` is false while a reserved entry waits for its data; `tol`
marks the entry of a tolerant gather that is not pushed yet (R113). -/
structure QEntry where
  data : VReg
  mask : BitVec 32
  kind : Bool
  filled : Bool
  tol : Bool
  serial : Nat
  deriving DecidableEq, Repr

/-- A queue between the streams: its entries, the oldest first; how many of them were present at the last commit point
and are still present; and the entries popped since that were present then (R170). -/
structure Queue (α : Type) where
  ents : List α
  old : Nat
  kept : List α
  deriving DecidableEq, Repr

def Queue.empty {α : Type} : Queue α := { ents := [], old := 0, kept := [] }

/-- What a held token stands for (R101): a fence over released stores, posted reductions and loads by serial number,
or an engine command. -/
inductive TokenKind where
  | fence (covers : List Nat)
  | command
  deriving DecidableEq, Repr

/-- A held token slot: what it stands for, and its status once its operation has completed. -/
structure Token where
  kind : TokenKind
  status : Option (BitVec 16)
  deriving DecidableEq, Repr

/-- The bit-stream buffer (Table 5.11). -/
structure BitBuf where
  buf : BitVec 128
  fc : Nat
  rp : Word
  ep : Word
  o : Bool
  m : Bool
  deriving DecidableEq, Repr

def BitBuf.empty : BitBuf := { buf := 0, fc := 0, rp := 0, ep := 0, o := false, m := false }

/-- A range lock: first byte, length, and the serial of the command that holds it (R104). -/
structure RangeLock where
  base : Nat
  len : Nat
  cmd : Nat
  deriving DecidableEq, Repr

/-- A buffered or released store: its address, bytes, the scope of a release store, its order, and the record of its strand. -/
structure Store where
  serial : Nat
  strand : Nat
  va : Nat
  n : Nat
  val : Nat
  release : Option Nat
  dom : Nat
  mRight : Bool
  deriving DecidableEq, Repr

/-- The form of a resident function (R146): portable, or native under a key (0-7 a trust-list slot, 255 Verbor). -/
inductive Form where
  | portable
  | native (keyIx : Nat)
  deriving DecidableEq, Repr

/-- The landings of a function: the A and the X offset of each, none where it is absent (R137). -/
abbrev Landings := List (Option (Nat × Nat))

/-- A function's code in one form, as the code store and the caches hold it (R137, R139, R145). -/
structure Code where
  digest : Nat
  form : Form
  key : Nat            -- the public key a native form was signed with
  frame : Nat
  landings : Landings
  aBody : List Half
  xBody : List Half
  deriving DecidableEq, Repr

/-- The function that runs (R140, R147): its handle, and the digest and form that name its resident code. -/
structure Current where
  handle : Nat
  digest : Nat
  form : Form
  key : Nat             -- the key that signed a native form (R146); 0 for another
  deriving DecidableEq, Repr

/-- A resident function is the one that runs, in its form. -/
def Current.names (u : Current) (k : Code) : Bool := k.digest == u.digest && k.form == u.form && k.key == u.key

/-- A resident function as it runs under a handle. -/
def Code.as (k : Code) (handle : Nat) : Current := { handle := handle, digest := k.digest, form := k.form, key := k.key }

/-- The scalar state a commit point saves for both streams (R170), and whether the A stream stood there at a barrier load whose
arrival is counted (R173, R176). -/
structure Checkpoint where
  counted : Bool
  a : Vector Word 28
  s : Vector Word 28
  pa : BitVec 8
  px : BitVec 8
  bb : BitBuf
  offA : Nat
  offX : Nat
  pendA : Option Branch
  pendX : Option Branch
  deriving DecidableEq, Repr

/-- A 64-byte message (R127, R128). Sender 0x1FFF is a scheduler or control core. `parked` marks one that its core accepted
after it had sealed a context of the message's domain (R181). -/
structure Message where
  parked : Bool
  ch : Nat
  sender : Nat
  dom : Nat
  payload : BitVec 512
  deriving DecidableEq, Repr

/-- A SEND on its way: the target core, the message, and the answer once it has come. -/
structure Sending where
  target : Nat
  msg : Message
  answer : Option Word
  deriving DecidableEq, Repr

/-- A DRT entry held in a PLB (R306, R308). -/
structure PlbEntry where
  dom : Nat
  w0 : Word
  w1 : Word
  deriving DecidableEq, Repr

/-- What a barrier-line, mutex-line or event-line load waits for (R120 to R123). -/
inductive LineWait where
  | arriving (line : Nat) (covers : List Nat)   -- a barrier load issued, not counted before those stores perform
  | counted (line : Nat)               -- counted; waits for the firing
  | fired (line : Nat) (gen : Word)    -- fired; the load completes with the generation
  | queued (line : Nat)                -- waits in a mutex line's order, or on an event line
  | granted (line : Nat)               -- the mutex has passed to this core
  | podArriving (bar : Nat) (covers : List Nat)   -- an ARC.BAR issued, not counted yet (R382)
  | podCounted (bar : Nat)
  | podFired (bar : Nat) (gen : BitVec 48)
  | marked                             -- ABAR alone: a barrier load that is counted, its line not looked at yet (R176)
  deriving DecidableEq, Repr

/-- The engine an in-flight command belongs to. -/
inductive Engine where
  | copy
  | bank
  | fabric
  deriving DecidableEq, Repr

/-- A command from issue to completion: its engine, the token slot that reports it, and its operands. -/
structure Command where
  serial : Nat
  engine : Engine
  op : Nat             -- the major opcode of the instruction that issued it
  slot : Option Nat    -- none for a scheduler copy-in
  dom : Nat
  args : List Word
  deriving DecidableEq, Repr

/-- An entry of the shape table (spec 14): the handle's address and domain, the bytes of the object, its use order. -/
structure Shape where
  va : Nat
  dom : Nat
  words : List Word
  deriving DecidableEq, Repr

/-- A restartable fault that waits for its resolution (R169, R172): the cause, the address that faulted, and the
address reported. -/
structure Pending where
  cause : Cause
  eaddr : Word
  report : Word
  stream : Strm
  deriving DecidableEq, Repr

/-- What a core does (R133, R172 to R182). -/
inductive Mode where
  | idle                       -- in the dock loop, no strand
  | running                    -- its streams issue units
  | resolving (p : Pending)    -- bound to its strand, waits for a restartable fault (R172)
  | fetching (handle land : Nat)   -- waits in place for code (R174, R175, R177): the landing, or 4096 to resume, or 4097 at an ERET
  | stopped (p : Option Pending)   -- stopped for a save, commands draining, with the fault it waits for (R178, R179)
  | held                       -- its DONE is held until every other island has left (R383)
  | restored                   -- an image is in place; parked messages are still to come (R181, R182)
  deriving DecidableEq, Repr

/-- One stream of a core: where its next unit stands, its pending branch, and whether it waits at a joint unit. -/
structure StreamState where
  off : Nat
  pend : Option Branch
  joint : Bool
  deriving DecidableEq, Repr

def StreamState.reset : StreamState := { off := 0, pend := none, joint := false }

/-- The state of one core. -/
structure Core where
  a : Vector Word 28
  s : Vector Word 28
  pa : BitVec 8
  px : BitVec 8
  strA : StreamState
  strX : StreamState
  lq0 : Queue QEntry
  lq1 : Queue QEntry
  lq2 : Queue QEntry
  sq0 : Queue QEntry
  sq1 : Queue QEntry
  bqA : Queue Bool
  bqX : Queue Bool
  bb : BitBuf
  tokens : List (Nat × Token)          -- held slots 0-63, by slot
  tokenGens : Vector (BitVec 10) 64
  locks : List (Nat × RangeLock)       -- valid entries 0-15, by entry
  dom : BitVec 13
  prio : BitVec 6
  strand : Word                        -- STRAND, the record's VA
  rmode : BitVec 3
  fflags : BitVec 6
  tabstat : Word
  cause : Word
  eaddr : Word
  epa : Word
  epx : Word
  tvec : Word
  sMode : Bool                         -- SSTATE.MODE: S mode
  pMode : Bool                         -- SSTATE.PMODE
  rcount : BitVec 8
  cslimit : BitVec 5
  dirbase : Word
  arcstat : Word
  v : Vector VReg 64
  e : Vector VReg 8
  m : Vector Accum 4
  kpos : Vector (BitVec 8) 4
  t : Vector Word 16
  table : Table
  fp : Word
  cur : Option Current
  store : List Code                    -- resident functions, the least recently entered first
  ckpt : Option Checkpoint             -- none: no region has begun
  restartable : Bool
  atLanding : Option (Nat × Nat)       -- handle and landing when the checkpoint is a landing's entry (R172)
  poisons : Nat                        -- code-poison faults since the last commit point (R148)
  sbuf : List Store                    -- the region store buffer, oldest first
  inflight : List Store                -- released stores that have not performed, oldest first
  amons : List (Nat × Posted)          -- posted reductions not accepted yet, by order number
  cmds : List Command
  shapes : List Shape                  -- least recently used first
  plb : List PlbEntry                  -- newest first
  inbox : List Message                 -- receive queue, oldest first
  sending : Option Sending             -- a SEND that has issued and waits for the target's answer (R127)
  wait0 : List QEntry                  -- what a unit that has issued and waits has popped from sq0 (R84)
  wait1 : List QEntry                  -- and from sq1
  scratch : Memory
  scratchPois : List Nat               -- poisoned 8-byte parts of the scratchpad, as offset/8 (24 R413)
  touched : BitVec 64                  -- 4 KiB blocks written since the strand was taken up (R180)
  lastDom : Option Nat                 -- the last strand's domain (R230)
  lineWait : Option LineWait
  nest : Nat                           -- handlers entered and not left (R175)
  heldWaits : List (Nat × LineWait)    -- counted barrier loads of interrupted code, by nesting (R174)
  mode : Mode
  byHost : Bool                        -- the stop under way is PREEMPT's (R407)
  sliceStart : Nat                     -- TIME when the slice began
  serial : Nat                         -- the next order number of the model's stores, loads and commands
  deriving DecidableEq, Repr

/-- A core at reset (Tables 5.1, 5.12, 10.1, 11.1): every register at its reset value; where the spec gives none (fp,
stream offsets, generations) zero (log 2). -/
def Core.reset : Core :=
  { a := Vector.replicate 28 0, s := Vector.replicate 28 0, pa := 1, px := 1, strA := StreamState.reset,
    strX := StreamState.reset, lq0 := Queue.empty, lq1 := Queue.empty, lq2 := Queue.empty, sq0 := Queue.empty,
    sq1 := Queue.empty, bqA := Queue.empty, bqX := Queue.empty, bb := BitBuf.empty, tokens := [],
    tokenGens := Vector.replicate 64 0, locks := [], dom := 0, prio := 0, strand := 0, rmode := 0, fflags := 0,
    tabstat := 0, cause := 0, eaddr := 0, epa := 0, epx := 0, tvec := 0, sMode := true, pMode := false, rcount := 0,
    cslimit := 0, dirbase := 0, arcstat := 0, v := Vector.replicate 64 0, e := Vector.replicate 8 0,
    m := Vector.replicate 4 Accum.zero, kpos := Vector.replicate 4 0, t := Vector.replicate 16 0,
    table := Table.empty, fp := 0, cur := none, store := [], ckpt := none, restartable := false, atLanding := none,
    poisons := 0, sbuf := [], inflight := [], amons := [], cmds := [], shapes := [], plb := [], inbox := [],
    sending := none, wait0 := [], wait1 := [], scratch := [], scratchPois := [], touched := 0, lastDom := none, lineWait := none, nest := 0, heldWaits := [], mode := .idle,
    byHost := false, sliceStart := 0, serial := 0 }

/-- Messages parked in a core's receive queue (R181). -/
def Core.parked (c : Core) : List Message := c.inbox.filter (·.parked)

end Sys2Proof.Machine
end

