-- ==== Sys2Proof/Machine/Coverage.lean ====
section
/-!
DEFINITION. Sys2Proof/Machine/Coverage.lean: coverage descriptors, skipped points and probes, the reconstruction
kernels and the error controller (spec 18, R352 to R358).
-/

namespace Sys2Proof.Machine

/-- A coverage descriptor (Table 18.11), its rungs as mask, px and py. -/
structure Coverage where
  nrung1 : Nat
  start : Nat
  pshift : Nat
  mean : Bool
  interp : Bool
  typ : Nat
  lo : Nat
  hi : Nat
  outbase : Nat
  opitch : Nat
  table : Table
  rungs : List (Nat × Nat × Nat)
  deriving DecidableEq, Repr

/-- Bytes of an element of TYPE. -/
def covSize : Nat → Nat
  | 0 => 4
  | 1 => 2
  | 2 => 2
  | 3 => 1
  | 4 => 2
  | 5 => 1
  | 6 => 4
  | _ => 8

/-- The float format of TYPE. -/
def covFmt : Nat → Option Fmt
  | 0 => some f32
  | 1 => some f16
  | 2 => some bf16
  | _ => none

/-- Number of set bits of a mask. -/
def popcount64 (m : Nat) : Nat := (splitLanes 1 64 m).foldl (· + ·) 0

/-- A finite, non-negative f32 (Table 18.11). -/
def f32Threshold (x : Nat) : Bool := x < f32.infBits

/-- R353, R354: the descriptor of its 24 dwords and the table its TABVA names, for a lattice of `nz` planes and bands
of `bandh` rows; none when it is refused. -/
def parseCoverage (w : Nat → Nat) (tb : Table) (nz bandh : Nat) : Option Coverage :=
  let h := w 0
  let typ := natBits h 14 12
  let n1 := natBits h 2 0
  let rung (k : Nat) : Nat × Nat × Nat := (w (8 + 2 * k), natBits (w (9 + 2 * k)) 2 0 + 1, natBits (w (9 + 2 * k)) 5 3 + 1)
  let size := covSize typ
  let used := (List.range (n1 + 1)).map rung
  let rungOk (r : Nat × Nat × Nat) : Bool :=
    r.2.1 * r.2.2 <= 64 && r.1 % 2 == 1 && r.1 < 2 ^ (r.2.1 * r.2.2) && bandh % r.2.2 == 0
  let ok :=
    h / 2 ^ 15 == 0 && natBits h 5 3 <= n1 &&
    f32Threshold (natBits (w 1) 31 0) && f32Threshold (natBits (w 1) 63 32) && natBits (w 1) 31 0 <= natBits (w 1) 63 32 &&
    w 3 < 2 ^ 32 && (if typ == 5 then w 4 % 64 == 0 && tb.valid else w 4 == 0) && w 5 == 0 && w 6 == 0 && w 7 == 0 &&
    (List.range 8).all (fun k => w (9 + 2 * k) / 64 == 0 && (k <= n1 || (w (8 + 2 * k) == 0 && w (9 + 2 * k) == 0))) &&
    nz == 1 && w 2 % size == 0 && w 3 % size == 0 && bandh != 0 && !(natBits h 11 11 == 1 && 6 <= typ) &&
    used.all rungOk &&
    -- coverage does not rise from one rung to the next
    (used.zip (used.drop 1)).all fun p =>
      popcount64 p.2.1 * (p.1.2.1 * p.1.2.2) <= popcount64 p.1.1 * (p.2.2.1 * p.2.2.2)
  if ok then
    some { nrung1 := n1, start := natBits h 5 3, pshift := natBits h 9 6, mean := natBits h 10 10 == 1,
           interp := natBits h 11 11 == 1, typ := typ, lo := natBits (w 1) 31 0, hi := natBits (w 1) 63 32,
           outbase := w 2, opitch := w 3, table := tb, rungs := used }
  else none

def Coverage.rung (c : Coverage) (k : Nat) : Nat × Nat × Nat := c.rungs.getD k (1, 1, 1)

/-- R354: the point is kept at a rung. -/
def Coverage.kept (c : Coverage) (k x y : Nat) : Bool :=
  let r := c.rung k
  r.1 / 2 ^ (y % r.2.2 * r.2.1 + x % r.2.1) % 2 == 1

/-- The points of a band in ascending number: x, y (R355). -/
def bandPoints (nx ny bandh b : Nat) : List (Nat × Nat) :=
  (List.range (min ny ((b + 1) * bandh) - b * bandh)).flatMap fun dy =>
    (List.range nx).map fun x => (x, b * bandh + dy)

/-- R355: the skipped points of a band, and with each whether it is a probe. -/
def Coverage.skipped (c : Coverage) (k nx ny bandh b : Nat) : List ((Nat × Nat) × Bool) :=
  ((bandPoints nx ny bandh b).filter fun p => !c.kept k p.1 p.2).zipIdx.map fun q => (q.1, q.2 % 2 ^ c.pshift == 0)

/-- The address of a point's element (R353). -/
def Coverage.elemVa (c : Coverage) (x y : Nat) : Nat := c.outbase + y * c.opitch + x * covSize c.typ

/-- The four corners of a point and their weights over px·py (R356). -/
def Coverage.corners (c : Coverage) (k nx bandEnd x y : Nat) : List ((Nat × Nat) × Nat) :=
  let (_, px, py) := c.rung k
  let x0 := x - x % px
  let y0 := y - y % py
  let x1 := if x0 + px < nx then x0 + px else x0
  let y1 := if y0 + py < bandEnd then y0 + py else y0
  let fx := if x1 == x0 then 0 else x % px
  let fy := if y1 == y0 then 0 else y % py
  [((x0, y0), (px - fx) * (py - fy)), ((x1, y0), fx * (py - fy)), ((x0, y1), (px - fx) * fy), ((x1, y1), fx * fy)]

/-- The corner KERNEL 0 takes: the nearer in each direction, the lower at one half (Table 18.12). -/
def Coverage.nearest (c : Coverage) (k nx bandEnd x y : Nat) : Nat × Nat :=
  let (_, px, py) := c.rung k
  let x0 := x - x % px
  let y0 := y - y % py
  let x1 := if x0 + px < nx then x0 + px else x0
  let y1 := if y0 + py < bandEnd then y0 + py else y0
  let fx := if x1 == x0 then 0 else x % px
  let fy := if y1 == y0 then 0 else y % py
  (if px < 2 * fx then x1 else x0, if py < 2 * fy then y1 else y0)

/-- `num / den · 2^exp` with one more bit that says whether digits were cut below 2^−400 of it: it rounds, and
compares with every dyadic of the device's formats, as the exact quotient does. -/
def stickyQuotient (num den : Nat) (exp : Int) : Nat × Int :=
  let q := num * 2 ^ 400 / den
  (2 * q + (if num * 2 ^ 400 % den == 0 then 0 else 1), exp - 401)

/-- The exact weighted sum of finite corners in units of 2^−300, over px·py. -/
def weightedSum (vs : List (FVal × Nat)) : Int :=
  vs.foldl (fun s p => match p.1 with
    | .fin n m e => s + scaled n m e (-300) * p.2
    | _ => s) 0

/-- The interpolating kernel on float and c8 corners (R357): `vals` pairs each weighted corner's raw bits with its
weight, `core` is the core that ran corner a. -/
def Coverage.interpFloat (c : Coverage) (core den : Nat) (vals : List (Nat × Nat)) : Nat :=
  let used := vals.filter fun p => p.2 != 0
  let f := (covFmt c.typ).getD f32
  let isC8 := c.typ == 5
  let wide (x : Nat) : Nat := if isC8 then c.table.decode .c8 x else x
  let un (x : Nat) : FVal := f.unpack (wide x)
  let nanOut (x : Nat) : Nat := if isC8 then (c.table.encodeNaN .c8 (f32.quiet x)).1 else f.quiet x
  match used.find? fun p => un p.1 == .nan with
  | some p => nanOut (wide p.1)
  | none =>
    let plus := used.any fun p => un p.1 == .inf false
    let minus := used.any fun p => un p.1 == .inf true
    if plus && minus then (if isC8 then nanOut (f32.created core 0) else f.created core 0)
    else match used.find? fun p => un p.1 == .inf false || un p.1 == .inf true with
      | some p => p.1
      | none =>
        let s := weightedSum (used.map fun p => (un p.1, p.2))
        let negZero := used.all fun p => match un p.1 with
          | .fin n m _ => n && m == 0
          | _ => false
        let neg := if s == 0 then negZero else decide (s < 0)
        let q := stickyQuotient s.natAbs den (-300)
        if isC8 then (c.table.encodeFin .c8 (.dir .rne) neg q.1 q.2).1
        else (f.round .rne neg q.1 q.2).1

/-- The interpolating kernel on i8 and i16 corners: ⌊S + ½⌋ (Table 18.12). -/
def interpInt (w den : Nat) (vals : List (Nat × Nat)) : Nat :=
  let s : Int := vals.foldl (fun t p => t + natSigned w p.1 * p.2) 0
  intToNat w ((2 * s + den) / (2 * den))

/-- The reconstruction of a skipped point from the raw bits of its corners (R356, R357). -/
def Coverage.reconstruct (c : Coverage) (k nx bandEnd x y core : Nat) (out : Nat × Nat → Nat) : Nat :=
  if !c.interp then out (c.nearest k nx bandEnd x y)
  else
    let (_, px, py) := c.rung k
    let vals := (c.corners k nx bandEnd x y).map fun p => (out p.1, p.2)
    if c.typ == 3 then interpInt 8 (px * py) vals
    else if c.typ == 4 then interpInt 16 (px * py) vals
    else c.interpFloat core (px * py) vals

/-- A probe's error as an f32 (R358). -/
def Coverage.probeError (c : Coverage) (v r : Nat) : Nat :=
  let bits := 8 * covSize c.typ
  if c.typ == 3 || c.typ == 4 || 6 <= c.typ then
    let d := natSigned bits v - natSigned bits r
    (f32.round .rne false d.natAbs 0).1
  else
    let wide (x : Nat) : Nat :=
      if c.typ == 5 then c.table.decode .c8 x else widenExact ((covFmt c.typ).getD f32) x
    match f32.unpack (wide v), f32.unpack (wide r) with
    | .fin n1 m1 e1, .fin n2 m2 e2 => (f32.addFin .rne n1 m1 e1 (!n2) m2 e2).1 % 2 ^ 31
    | .inf a, .inf b => if a == b then 0 else f32.infBits
    | _, _ => f32.infBits

/-- The band error over its probes' errors (R358); +0 without probes (R355). -/
def Coverage.bandError (c : Coverage) (errs : List Nat) : Nat :=
  if errs.contains f32.infBits then f32.infBits
  else if errs.isEmpty then 0
  else if !c.mean then errs.foldl max 0
  else
    let s : Int := errs.foldl (fun t x => match f32.unpack x with
      | .fin n m e => t + scaled n m e (-300)
      | _ => t) 0
    let q := stickyQuotient s.natAbs errs.length (-300)
    (f32.round .rne false q.1 q.2).1

/-- The controller step (R358): the rung of the next band. -/
def Coverage.nextRung (c : Coverage) (k e : Nat) : Nat :=
  if c.hi < e && 0 < k then k - 1
  else if e < c.lo && k < c.nrung1 then k + 1
  else k

end Sys2Proof.Machine
end

