-- ==== Sys2Proof/Machine/Graph.lean ====
section
/-!
DEFINITION. Sys2Proof/Machine/Graph.lean: task graphs: their nodes, the cases in which one is malformed, and the way
the scheduler runs one (spec 18, R346 to R350).
-/

namespace Sys2Proof.Machine

/-- A successor entry (R347). -/
structure Succ where
  target : Nat
  back : Bool
  sel : Nat
  slot : Nat
  deriving DecidableEq, Repr

/-- A graph node (Table 18.8). -/
structure GNode where
  kind : Nat
  npred : Nat
  handle : Nat
  cc : Nat
  bodyHi : Nat
  w08 : Nat
  w10 : Nat
  w18 : Nat
  succs : List Succ
  deriving DecidableEq, Repr

/-- A node's valid entries, none when a field breaks R347 or Table 18.8. -/
def parseSuccs (lo hi : Nat) : Option (List Succ) :=
  (List.range 8).foldr (fun k acc =>
    match acc with
    | none => none
    | some es =>
      let e := natBits (if k < 4 then lo else hi) (16 * (k % 4) + 15) (16 * (k % 4))
      if natBits e 15 15 == 0 then (if e == 0 then some es else none)
      else if natBits e 14 13 == 3 then none
      else some ({ target := natBits e 11 0, back := natBits e 12 12 == 1, sel := natBits e 14 13, slot := k } :: es))
    (some [])

/-- One node from its eight dwords. A field that its kind does not use may hold anything, but for HANDLE, which Table 18.8
gives as 0 (log 99). -/
def parseNode (ws : List Nat) : Option GNode :=
  let w (k : Nat) : Nat := ws.getD k 0
  let h := w 0
  let kind := natBits h 2 0
  let handle := natBits h 35 16
  let cc := natBits h 38 36
  let bodyHi := natBits h 51 40
  let ok :=
    kind <= 4 && natBits h 3 3 == 0 && natBits h 39 39 == 0 && natBits h 63 52 == 0 && w 6 == 0 && w 7 == 0 &&
    (kind == 0 || handle == 0) && (!(kind == 1 || kind == 2) || cc <= 5) &&
    (kind == 0 || kind == 4 || w 1 % 8 == 0) && (kind != 3 || (1 <= natBits (w 2) 3 0 && natBits (w 2) 3 0 <= 8))
  if ok then
    (parseSuccs (w 4) (w 5)).map fun es =>
      { kind := kind, npred := natBits h 15 4, handle := handle, cc := cc, bodyHi := bodyHi, w08 := w 1
        w10 := if kind == 3 then natBits (w 2) 3 0 else w 2
        w18 := if kind == 2 then natBits (w 3) 31 0 else w 3, succs := es }
  else none

/-- Node `i` lies in the body of loop `l`. -/
def inBody (ns : List GNode) (l i : Nat) : Bool :=
  match ns[l]? with
  | some n => n.kind == 2 && l < i && i <= n.bodyHi
  | none => false

/-- Forward edges into a node. -/
def forwardInto (ns : List GNode) (t : Nat) : Nat :=
  ns.foldl (fun n g => n + (g.succs.filter fun e => !e.back && e.target == t).length) 0

/-- BACKN of R348: the BACK edges into a loop. -/
def backInto (ns : List GNode) (l : Nat) : Nat :=
  ns.foldl (fun n g => n + (g.succs.filter fun e => e.back && e.target == l).length) 0

/-- One edge meets R347: it enters a body only from its loop node or from inside, and leaves one only as a BACK edge to its
loop node; a forward edge goes to a higher index. -/
def edgeOk (ns : List GNode) (i : Nat) (g : GNode) (e : Succ) : Bool :=
  e.target < ns.length && (e.back || i < e.target) &&
  ((List.range ns.length).all fun l =>
    (!inBody ns l e.target || l == i || inBody ns l i) &&
      (!inBody ns l i || inBody ns l e.target || (e.back && e.target == l))) &&
  (!(g.kind == 0 || g.kind == 4) || e.sel == 2) && (g.kind != 3 || (e.sel == 0 && e.slot < g.w10))

/-- R347: the graph is well formed. -/
def graphOk (ns : List GNode) : Bool :=
  ns.zipIdx.all fun p =>
    let g := p.1
    let i := p.2
    g.succs.all (edgeOk ns i g) && g.npred == forwardInto ns i &&
    (g.kind != 2 || (i < g.bodyHi && g.bodyHi < ns.length && 1 <= backInto ns i &&
      (List.range ns.length).all fun l => !inBody ns l i ||
        (match ns[l]? with
         | some o => g.bodyHi <= o.bodyHi
         | none => true)))

/-- A running graph (R348): arrivals still to come, liveness, back edges come, iteration counts, strand nodes whose
strand is live, control nodes that await evaluation, and strand nodes whose strand is still to be created. -/
structure GState where
  pend : List Nat
  live : List Bool
  back : List Nat
  iter : List Nat
  running : List Nat
  awaiting : List Nat
  toStart : List Nat
  stopped : Bool           -- torn down: nothing arrives any more (R360)
  deriving DecidableEq, Repr

/-- A piece of graph work: a node arrives, or finishes with the entries (by slot) it processes and those it takes. -/
inductive GWork where
  | arrive (i : Nat)
  | finish (i : Nat) (seen taken : List Nat)
  deriving DecidableEq, Repr

/-- The slots of a node's entries with a SEL among `sels`. -/
def slotsOf (g : GNode) (sels : List Nat) : List Nat :=
  (g.succs.filter fun e => sels.contains e.sel).map (·.slot)

/-- Every entry's slot. -/
def allSlots (g : GNode) : List Nat := g.succs.map (·.slot)

/-- A node that is evaluated: a conditional, a loop or a switch. -/
def evaluates (ns : List GNode) (i : Nat) : Bool :=
  match ns[i]? with
  | some g => g.kind == 1 || g.kind == 2 || g.kind == 3
  | none => false

/-- One edge of Finish (R348): the new state and the work it gives. A BACK edge into a node that nothing evaluates has no
effect (log 99). -/
def gEdge (ns : List GNode) (taken : List Nat) (r : GState × List GWork) (e : Succ) : GState × List GWork :=
  let (st, work) := r
  if e.back then
    let b := st.back.getD e.target 0 + 1
    let st := { st with back := st.back.set e.target b }
    if b == backInto ns e.target && evaluates ns e.target then ({ st with awaiting := st.awaiting ++ [e.target] }, work) else (st, work)
  else
    let p := st.pend.getD e.target 1 - 1
    let st := { st with
      pend := st.pend.set e.target p
      live := if taken.contains e.slot then st.live.set e.target true else st.live }
    (st, if p == 0 then work ++ [.arrive e.target] else work)

/-- One piece of work (R348). -/
def gWork1 (ns : List GNode) (st : GState) (w : GWork) : GState × List GWork :=
  match w with
  | .arrive i =>
    match ns[i]? with
    | none => (st, [])
    | some g =>
      if st.stopped then (st, [])
      else if st.live.getD i false then
        match g.kind with
        | 0 => ({ st with toStart := st.toStart ++ [i], running := st.running ++ [i] }, [])
        | 4 => (st, [.finish i (allSlots g) (allSlots g)])
        | _ => ({ st with awaiting := st.awaiting ++ [i] }, [])
      else if g.kind == 2 then (st, [.finish i (slotsOf g [1]) []])
      else (st, [.finish i (allSlots g) []])
  | .finish i seen taken =>
    match ns[i]? with
    | none => (st, [])
    | some g => (g.succs.filter fun e => seen.contains e.slot).foldl (gEdge ns taken) (st, [])

/-- Graph work until none is left, or the fuel ends. -/
def gRun (ns : List GNode) : Nat → List GWork → GState → GState
  | 0, _, st => st
  | _, [], st => st
  | n + 1, w :: ws, st =>
    let r := gWork1 ns st w
    gRun ns n (r.2 ++ ws) r.1

/-- Fuel that covers every arrival and finish between two evaluations: each edge is processed at most once. -/
def gFuel (ns : List GNode) : Nat := 2 * ns.length + 2 + ns.foldl (fun n g => n + g.succs.length) 0 * 2

/-- The start of a graph (R348). -/
def gStart (ns : List GNode) : GState :=
  let st : GState :=
    { pend := ns.map (·.npred), live := ns.map fun g => g.npred == 0, back := ns.map fun _ => 0,
      iter := ns.map fun _ => 0, running := [], awaiting := [], toStart := [], stopped := false }
  gRun ns (gFuel ns) ((ns.zipIdx.filter fun p => p.1.npred == 0).map fun p => .arrive p.2) st

/-- Finish of a strand node whose strand has ended (R348). -/
def gStrandEnd (ns : List GNode) (i : Nat) (st : GState) : GState :=
  let st := { st with running := st.running.erase i }
  match ns[i]? with
  | some g => gRun ns (gFuel ns) [.finish i (allSlots g) (allSlots g)] st
  | none => st

/-- The outcome of a conditional or switch node whose read gave `w`, or faulted (R349). -/
def gControl (ns : List GNode) (i : Nat) (w : Option Nat) (st : GState) : GState :=
  let st := { st with awaiting := st.awaiting.erase i }
  match ns[i]? with
  | none => st
  | some g =>
    let taken := match w with
      | none => []
      | some x =>
        if g.kind == 1 then slotsOf g (if intCc 64 g.cc x g.w10 then [0, 2] else [1, 2])
        else (g.succs.filter fun e => e.slot == min x (g.w10 - 1)).map (·.slot)
    gRun ns (gFuel ns) [.finish i (allSlots g) taken] st

/-- The evaluation of a loop node (R350): the state and whether MAXITER ended it. -/
def gLoop (ns : List GNode) (i : Nat) (w : Option Nat) (st : GState) : GState × Bool :=
  let st := { st with awaiting := st.awaiting.erase i, back := st.back.set i 0 }
  match ns[i]? with
  | none => (st, false)
  | some g =>
    let n := st.iter.getD i 0
    let test := match w with
      | some x => intCc 64 g.cc x g.w10
      | none => false
    if test && (g.w18 == 0 || n < g.w18) then
      let inside (k : Nat) : Bool := i < k && k <= g.bodyHi
      let st := { st with
        iter := st.iter.set i (n + 1)
        pend := st.pend.zipIdx.map fun p => if inside p.2 then ((ns[p.2]?).map (·.npred)).getD 0 else p.1
        live := st.live.zipIdx.map fun p => if inside p.2 then ((ns[p.2]?).map (·.npred)).getD 0 == 0 else p.1 }
      (gRun ns (gFuel ns) [.finish i (slotsOf g [0]) (slotsOf g [0])] st, false)
    else
      let st := { st with iter := st.iter.set i 0 }
      (gRun ns (gFuel ns) [.finish i (slotsOf g [1]) (slotsOf g [1])] st, test)

/-- The graph has ended: no node runs, waits to start or awaits evaluation (R348). -/
def GState.ended (st : GState) : Bool := st.running.isEmpty && st.toStart.isEmpty && (st.stopped || st.awaiting.isEmpty)

end Sys2Proof.Machine
end

