-- ==== Sys2Proof/Machine/SchedState.lean ====
section
/-!
DEFINITION. Sys2Proof/Machine/SchedState.lean: the schedulers' state: strand records, launches with their graphs,
lattices and completion trees, the ready queues' order, and the caches of code (spec 18; spec 06, R149).
-/

namespace Sys2Proof.Machine

/-- The states of a strand (Table 1.7). -/
inductive StrandState where
  | ready
  | running
  | suspCode
  | suspInput
  | suspMsg
  | preempted
  | done
  | cancelled
  deriving DecidableEq, Repr

/-- The value of a strand state in a record (Table 1.7). -/
def StrandState.code : StrandState → Nat
  | .ready => 0
  | .running => 1
  | .suspCode => 2
  | .suspInput => 3
  | .suspMsg => 4
  | .preempted => 5
  | .done => 6
  | .cancelled => 7

/-- Where a strand stood when a joint instruction of it missed its code (R153): the frame pointer, the running function,
the two halves' offsets, and the record's HANDLE and LANDING before. -/
structure Miss where
  fp : Word
  cur : Current
  offA : Nat
  offX : Nat
  handle : Nat
  landing : Nat
  deriving DecidableEq, Repr

/-- What the schedulers keep of a strand that is saved, beside its image: handlers it is inside, its waits on lines, the
fault it waits for, its code-poison faults, and its drain (R123, R148, R174, R178, R179). -/
structure Kept where
  nest : Nat
  heldWaits : List (Nat × LineWait)
  lineWait : Option LineWait
  pending : Option Pending
  poisons : Nat
  bad : List Nat           -- poisoned parts of the scratchpad blocks saved
  drained : Nat            -- nanoseconds its drain took, charged to its next slice (R179)
  deriving DecidableEq, Repr

/-- A fault that a strand is to meet when it runs: one that system software has refused (R169), or that a store met after its
release (R369). -/
structure Owed where
  cause : Cause
  ea : Word
  stream : Strm
  deriving DecidableEq, Repr

/-- A strand as the schedulers hold it: the fields of its record (Table 1.6) and what placement needs. -/
structure Strand where
  va : Nat
  handle : Nat
  landing : Nat
  dom : Nat
  prio : Nat
  state : StrandState
  gang : Bool
  probe : Bool
  replayPin : Bool
  prot : Bool
  frame : Word
  compl : Word
  arg0 : Word
  arg1 : Word
  indecl : Word
  launch : Nat
  lpkg : Nat               -- the package that accepted the launch
  island : Nat
  status : BitVec 16
  -- placement and queueing
  queued : Nat             -- TIME when it last entered a queue (R337)
  aged : Nat               -- levels it has been lowered since
  order : Nat              -- its place among the items of its level
  bound : Option Nat       -- the core it is bound to (R334)
  onCore : Option Nat      -- the core that holds it, or that its copy-ins fill
  owed : List Owed         -- faults that it meets when it runs, the oldest first
  ending : Option Nat      -- the cause of an end by a fault that was held when its core was stopped (R388)
  kept : Option Kept       -- what goes with its image
  poisons : Nat            -- code-poison faults of the region that its landing begins (R148)
  hostStop : Bool          -- stopped by PREEMPT: it waits for a RESTORE (R407)
  gangId : Option Nat      -- quad gang of a QUAD launch (R335)
  member : Nat             -- gang position
  slot : Option Nat        -- the tree slot's core (R27)
  node : Option Nat        -- graph node
  point : Option Nat       -- lattice point number
  copyIns : List Nat       -- serials of copy-ins under way
  copyBad : Option Nat     -- cause of a copy-in that failed
  started : Bool           -- a landing has been entered
  miss : Option Miss
  illegal : Bool           -- its code cannot be obtained: ILLEGAL is raised when it resumes (R153)
  ctx : Nat                -- save slot of a PREEMPTED strand's image
  savedAt : Option Nat     -- the core its image was sealed on (R181)
  awaits : Nat             -- the channel a SUSPENDED-MSG strand waits on (R332)
  arcstat : Word           -- its standing in its archipelago, kept across a save (R380)
  path : List Nat          -- how its launch came to it: its point, node and turn, or island and core; then each SPAWN's number
  spawned : Nat            -- strands it has spawned
  deriving DecidableEq, Repr

/-- A slot of a launch's completion tree (R27, R28): its core, its own and its children's combined words and largest
error, the children heard from, and whether it has forwarded. -/
structure TreeNode where
  core : Nat
  word : Nat
  maxErr : Nat
  heard : List Nat
  forwarded : Bool
  deriving DecidableEq, Repr

/-- The walk of a lattice (R352, R355). -/
structure Walk where
  nx : Nat
  ny : Nat
  nz : Nat
  bandh : Nat
  next : Nat               -- next point to create, or the next band of a coverage launch
  cov : Option Coverage
  rung : Nat               -- rung of the open band, or of the next
  last : Nat               -- rung of the last band walked
  bandOpen : Bool          -- a band's strands are created and not reconstructed
  ranAt : List (Nat × Nat) -- core that ran each kept or probe point of the open band
  hist : Nat               -- RUNGHIST
  bands : Nat
  deriving DecidableEq, Repr

/-- An accepted launch (R329, R345). -/
structure Launch where
  id : Nat
  ctx : Nat
  ring : Nat
  kind : Nat
  dom : Nat
  prio : Nat
  part : Nat
  handle : Nat
  complVa : Nat
  arg1 : Word
  indecl : Word
  arg0 : Word
  frameBase : Word
  fstride : Nat
  quad : Bool
  fuse : Bool
  graph : Option (List GNode × GState)
  walk : Option Walk
  tree : List TreeNode     -- in ascending core number
  extra : Nat              -- the scheduler's own contribution to the status word
  maxErr : Nat
  torn : Bool
  nodeRuns : List (Nat × Nat)   -- strands created so far for each graph node
  toCreate : List (Nat × Nat)   -- strands still to be created: points with probe marks, or islands with core indexes
  arc : Option Nat         -- archipelago
  deriving DecidableEq, Repr

/-- A portable object or native translation as bytes: size and little-endian value (R137, R139), filed under a digest. -/
structure Obj where
  digest : Nat
  size : Nat
  bytes : Nat
  deriving DecidableEq, Repr

/-- A strand or joint unit that waits for code in a search (R149). -/
structure Requester where
  strand : Nat             -- record VA
  core : Nat
  dom : Nat
  handle : Nat
  entDigest : Nat
  entFrame : Nat
  entNat : Bool
  objVa : Nat
  objSize : Nat
  found : Option Code
  missed : Bool            -- the search ended with nothing for it
  need : Option Form       -- the exact form a resumption needs (R177, R182)
  seen : Nat               -- stages judged for it
  deriving DecidableEq, Repr

/-- A search for a digest on a die (R149): the core whose miss began it, its next stage, and who waits. -/
structure Search where
  die : Nat
  core : Nat
  digest : Nat
  stage : Nat
  neighbour : Nat          -- how many neighbours of stage 3 are done
  reqs : List Requester
  deriving DecidableEq, Repr

/-- The schedulers' state of one package. -/
structure Sched where
  launches : List Launch
  strands : List Strand
  nextOrder : Nat
  lastStarted : List ((Nat × Nat) × Nat)   -- partition and level: the domain last started there (R336)
  dieCode : List (Nat × Obj)               -- die code caches, newest first
  pool : List Obj                          -- the package code pool
  searches : List Search
  written : List (Nat × Nat)               -- completion records written: launch id and VA (R20)
  deriving DecidableEq, Repr

def Sched.reset : Sched :=
  { launches := [], strands := [], nextOrder := 0, lastStarted := [], dieCode := [], pool := [], searches := [], written := [] }

end Sys2Proof.Machine
end

