-- ==== Sys2Proof/Machine/CtlState.lean ====
section
/-!
DEFINITION. Sys2Proof/Machine/CtlState.lean: the control cores' state: host contexts and their rings, partitions,
domains, fault reports, running jobs, key slots, the counter table and save slots (spec 22; spec 17, R327, R328;
spec 18, R362).
-/

namespace Sys2Proof.Machine

/-- A submission ring's two indices: the last TAIL written, and HEAD, the next entry to read (Table 22.1). -/
structure Ring where
  tail : Nat
  head : Nat
  deriving DecidableEq, Repr

/-- A ring entry as it was read, once, after its doorbell (R393): its ring, its index, and 128 bytes. -/
structure Fetched where
  ring : Nat
  index : Nat
  bytes : VReg
  deriving DecidableEq, Repr

/-- An event entry (Table 22.2) but for its TIME, which is taken when it is written. -/
structure Event where
  kind : Nat
  code : Nat
  ring : Nat
  index : Nat
  arg : Word
  dom : Nat
  core : Nat
  report : Nat
  guilt : Nat
  deriving DecidableEq, Repr

/-- A host context (R392 to R394). -/
structure HostCtx where
  part : Nat
  limit : Nat
  logn : Nat
  loge : Nat
  ringVa : Nat
  evVa : Nat
  rings : List Ring
  evTail : Nat              -- the control core's tail of the event ring
  evHead : Nat              -- what the host has consumed
  evWaiting : List Event    -- events that found the ring full (R393), the oldest first
  guilt : Nat
  barred : Bool
  plugin : Bool             -- a policy plug-in advises it (R390)
  fetched : List Fetched    -- entries read and not validated yet, in the order read
  interrupt : Bool          -- its interrupt has been raised
  pluginMem : Memory        -- the 64 KiB of its plug-in, by offset (R390)
  deriving DecidableEq, Repr

/-- A partition record (Table 22.5). -/
structure PartRec where
  base : Nat
  len : Nat
  stackMask : BitVec 16
  slice : Nat
  hsmask : Word
  quota : Nat
  tsBase : Nat
  tsCount : Nat
  neigh : List Nat
  saveVa : Nat
  saveN : Nat
  recPages : Nat
  deriving DecidableEq, Repr

/-- The bytes of a save slot (R403). -/
def saveBytes : Nat := 0x48000

/-- A record of a strand pool: in use or free, by index, the lowest free one taken (R331). -/
structure Pool where
  va : Nat
  n : Nat
  used : List Nat
  deriving DecidableEq, Repr

/-- A domain-table entry and what DOMCFG binds with it (R307, Table 22.3). -/
structure DomEntry where
  ctx : Nat
  cap : Nat
  drtVa : Nat
  drtCount : Nat
  dirbase : Word
  tvec : Word
  pool : Pool
  mailbox : Nat             -- 0: none
  stopped : Bool            -- R399
  deriving DecidableEq, Repr

/-- An open KIND 2 report: who waits for it (R398). -/
inductive ReportOf where
  | strand (va : Nat) (core : Nat) (stream : Strm)
  | deferred (index : Nat)
  | command                      -- an engine command, which has ended (R284)
  deriving DecidableEq, Repr

structure Report where
  id : Nat
  dom : Nat
  cause : Cause
  ea : Word                 -- the address of the fault
  who : ReportOf
  deriving DecidableEq, Repr

/-- What a control core does when a range invalidation has performed: report a RANGEINV command, or finish a served
mailbox entry by writing its done word (R328). -/
inductive Job where
  | command (ctx ring index : Nat)
  | mailbox (dom doneVa : Nat) (freed : List (Nat × Nat))   -- peer frames to free, as package and frame
  | plain
  deriving DecidableEq, Repr

/-- A PREEMPT whose event waits for the images of its strands (R407). -/
structure Preempting where
  ctx : Nat
  ring : Nat
  index : Nat
  launch : Nat
  left : List (Nat × Nat)   -- packages and records
  deriving DecidableEq, Repr

/-- A key slot of the monitor (R400). -/
structure KeySlot where
  key : Nat
  dom : Nat
  valid : Bool
  deriving DecidableEq, Repr

def KeySlot.empty : KeySlot := { key := 0, dom := 0, valid := false }

/-- An entry of the counter table (R401). -/
structure Counter where
  ctr : Nat
  live : Bool
  slot : Nat
  used : Bool
  deriving DecidableEq, Repr

def Counter.reset : Counter := { ctr := 0, live := false, slot := 0, used := false }

/-- A save slot held by a strand (R403). -/
structure SaveSlot where
  part : Nat
  slot : Nat
  strand : Nat
  imgId : Option Nat
  deriving DecidableEq, Repr

/-- A residency report on its way to the sender of a rack packet (Table 18.14): its 64 bytes. -/
structure RackReport where
  sender : Nat
  bytes : Nat
  deriving DecidableEq, Repr

/-- An island entry as it is validated (Table 20.6): its package, domain, partition, cores and bottom frame. -/
structure IslandSpec where
  pkg : Nat
  dom : Nat
  part : Nat
  ncore : Nat
  frameBase : Word
  deriving DecidableEq, Repr

/-- A launch command that validation has passed: the launch without its id, its islands, and its 128 bytes; the index of
its ring entry, or the sender and sequence number of its rack packet. -/
structure Accepted where
  launch : Launch
  islands : List IslandSpec
  bytes : VReg
  record : Bool
  index : Nat
  rack : Option (Nat × Nat)
  deriving DecidableEq, Repr

/-- The privilege modes of a control core (R390). -/
inductive CtlMode where
  | m
  | s
  | u
  deriving DecidableEq, Repr

/-- A PMP entry of a control core: a range of addresses and what U mode may do there. -/
structure Pmp where
  base : Nat
  bytes : Nat
  read : Bool
  write : Bool
  deriving DecidableEq, Repr

/-- A control core (R390), an RV64IMAC core: its mode, the PMP entries set, of the 16 it has; x1 to x31, the pc, the CSRs of
the RISC-V privileged architecture by number, the reservation that LR holds; and how many times its firmware has run, the
model's own count (log 109). -/
structure CtlCore where
  mode : CtlMode
  pmp : List Pmp
  x : Vector Word 31
  pc : Word
  csrs : List (Nat × Word)
  reservation : Option Word
  runs : Nat
  deriving DecidableEq, Repr

/-- PRESUMED (log 109): the CSRs of a RISC-V core with M, S and U modes and no floating point, but for the PMP's and those that
are views of others, with their reset values: MISA names RV64IMAC with S and U, MSTATUS the 64-bit widths of S and U. -/
def ctlCsrs : List (Nat × Word) :=
  [(0x105, 0), (0x106, 0), (0x10A, 0), (0x140, 0), (0x141, 0), (0x142, 0), (0x143, 0), (0x180, 0),
   (0x300, 0xA00000000), (0x301, 0x8000000000141105), (0x302, 0), (0x303, 0), (0x304, 0), (0x305, 0), (0x306, 0),
   (0x30A, 0), (0x320, 0), (0x340, 0), (0x341, 0), (0x342, 0), (0x343, 0), (0x344, 0), (0xB00, 0), (0xB02, 0)]

/-- A CSR that no write changes. -/
def csrFixed (n : Nat) : Bool := n == 0x301

def CtlCore.reset : CtlCore :=
  { mode := .m, pmp := [], x := Vector.replicate 31 0, pc := 0, csrs := ctlCsrs, reservation := none, runs := 0 }

/-- A control core after its firmware has run: what that leaves in the registers is free (log 109). -/
def CtlCore.ran (k : CtlCore) (core : Nat) : CtlCore :=
  let v (r : Nat) : Word := Config.ctlReg core k.runs r
  { k with
    x := Vector.ofFn fun i => v (i.val + 1)
    pc := v 0
    csrs := k.csrs.map fun c => if csrFixed c.1 then c else (c.1, v (4096 + c.1))
    reservation := if (v 32).getLsbD 0 then some (v 32) else none
    runs := k.runs + 1 }

/-- The control complex of one package. -/
structure Ctl where
  cores : List CtlCore                  -- control core 4·d + i of die d, by number (R390)
  ctxs : List (Nat × HostCtx)
  parts : List (Nat × PartRec)
  doms : List (Nat × DomEntry)
  trust : List ((Nat × Nat) × Nat)      -- public keys by domain and trust slot (R150)
  reports : List Report
  nextReport : Nat
  nextLaunch : Nat                      -- launch-id counter (R20)
  nextInval : Nat
  jobs : List (Nat × Job)               -- by invalidation
  preempts : List Preempting
  keys : List (Nat × KeySlot)
  counters : List (Nat × Counter)       -- the entries that have been used
  ctrBase : Nat                         -- CTR of every other entry (R416)
  saves : List SaveSlot
  rackSeq : List (Nat × Nat)            -- last SEQ accepted, by sender (R362)
  rackReports : List RackReport
  freeFrames : List Nat                 -- the free list, rising (R328, R410)
  drains : List (Nat × Nat)             -- cores whose drain runs, with TIME at its start (R179)
  plugHeld : List (Nat × Accepted)      -- launches a plug-in holds, by context (R390)
  deriving DecidableEq, Repr

/-- Context 0 before the PF configures its ring: the partition and sizes are named by no reset value (log 2). -/
def HostCtx.reset : HostCtx :=
  { part := 0, limit := 8, logn := 4, loge := 4, ringVa := 0, evVa := 0, rings := [], evTail := 0, evHead := 0,
    evWaiting := [], guilt := 0, barred := false, plugin := false, fetched := [], interrupt := false, pluginMem := [] }

def Ctl.reset : Ctl :=
  { cores := List.replicate 32 CtlCore.reset, ctxs := [(0, HostCtx.reset)], parts := [], doms := [], trust := [], reports := [], nextReport := 0,
    nextLaunch := 0, nextInval := 0, jobs := [], preempts := [], keys := [], counters := [], ctrBase := 0, saves := [], rackSeq := [],
    rackReports := [], freeFrames := [], drains := [], plugHeld := [] }

end Sys2Proof.Machine
end

