-- ==== Sys2Proof/Machine/FabricState.lean ====
section
/-!
DEFINITION. Sys2Proof/Machine/FabricState.lean: the fabric engines' state of a package: routes, aperture and group
tables, messages, open rounds and scale-out regions; bank-unit table slots; event, barrier and mutex lines
(spec 20; spec 12, R254; spec 05, R119 to R123); and the archipelagos of a pod.
-/

namespace Sys2Proof.Machine

/-- A pod aperture entry (Table 20.1), and whether its peer is declared lost (R369). -/
structure Aperture where
  valid : Bool
  scaleOut : Bool
  pkg : Nat
  port : Nat
  key : Nat
  node : Nat
  lost : Bool
  deriving DecidableEq, Repr

def Aperture.reset : Aperture :=
  { valid := false, scaleOut := false, pkg := 0, port := 0, key := 0, node := 0, lost := false }

/-- A multicast-reduce group entry (Table 20.2). -/
structure Group where
  valid : Bool
  fmt : Nat
  root : Bool
  parent : Nat
  contrib : Nat      -- CONTRIB1 + 1
  dom : Nat
  nchild : Nat
  deliv : Nat
  deriving DecidableEq, Repr

def Group.reset : Group :=
  { valid := false, fmt := 0, root := false, parent := 0, contrib := 1, dom := 0, nchild := 0, deliv := 0 }

/-- A contribution to an element of a group that has reached its home slice (R372). -/
structure Contribution where
  group : Nat
  elem : Nat         -- byte offset of the element in its page
  op : Posted
  closed : Bool      -- its round's part has been sent; it waits for the delivery (R373)
  deriving DecidableEq, Repr

/-- A child's part of a round on its way to or at its parent (R372). -/
structure ChildPart where
  group : Nat
  elem : Nat
  child : Nat
  value : Nat        -- 64 bits: two f32 lanes for bf16, else 32 bits
  deriving DecidableEq, Repr

/-- A delivery on its way to this member. -/
structure Delivery where
  group : Nat
  elem : Nat
  value : Nat
  deriving DecidableEq, Repr

/-- A Narrows message of a fabric command (R367): its packets and the acknowledgement bitmap received, and when its
last packet was sent. -/
structure NMsg where
  core : Nat
  cmd : Nat          -- the command's serial
  packets : Nat
  acked : BitVec 64
  sentAt : Nat
  sends : Nat
  deriving DecidableEq, Repr

/-- A scale-out region registered on this package (R385). -/
structure Region where
  key : Nat
  dom : Nat
  va : Nat
  pages : Nat
  revoked : Bool
  deriving DecidableEq, Repr

/-- The fabric engines of a package. -/
structure Fabric where
  routes : List (Nat × List Nat)                -- up to four next hops by destination package
  apertures : List (Nat × Aperture)
  groups : List (Nat × Group)
  contribs : List Contribution
  parts : List ChildPart
  deliveries : List Delivery
  messages : List NMsg
  regions : List Region
  endpoints : List ((Nat × Nat) × Nat)          -- the package a port's endpoint index names (R386)
  unreachable : List Nat                        -- packages declared lost
  deriving DecidableEq, Repr

def Fabric.reset : Fabric :=
  { routes := [], apertures := [], groups := [], contribs := [], parts := [], deliveries := [], messages := [],
    regions := [], endpoints := [], unreachable := [] }

/-- A bank unit's table slot that is loaded (R254): its owner domain and 256 entries. -/
structure BankSlot where
  owner : Nat
  entries : List (BitVec 32)
  deriving DecidableEq, Repr

/-- The kinds of a line (Table 5.10). -/
inductive LineKind where
  | off
  | barrier
  | mutex
  | event
  deriving DecidableEq, Repr

/-- Who has arrived at a barrier line: a core, or a strand saved while it waits (R123). -/
inductive Arrival where
  | core (c : Nat)
  | strand (va : Nat)
  deriving DecidableEq, Repr

/-- An event, barrier or mutex line (R119 to R123). -/
structure Line where
  kind : LineKind
  count : Nat
  chain : Option (Nat × Nat)    -- target quad and line of a chain
  arrived : List Arrival        -- arrivals counted
  gen : Word
  holder : Option Nat
  waiters : List Nat            -- cores in arrival order
  pending : Nat
  deriving DecidableEq, Repr

def Line.off : Line :=
  { kind := .off, count := 0, chain := none, arrived := [], gen := 0, holder := none, waiters := [], pending := 0 }

/-- An island of an archipelago (Table 20.6): its package, domain, partition, and its cores by island-core index. -/
structure Island where
  pkg : Nat
  dom : Nat
  part : Nat
  frameBase : Word
  cores : List Nat
  strands : List Nat            -- the record of each core's strand, by the same index
  held : List (Nat × Nat)       -- cores whose end is held, with its cause: 0 for a DONE (R383, R388)
  departed : Bool
  deriving DecidableEq, Repr

/-- A pod barrier (R382): its generation, and who has arrived, as island and core index. -/
structure PodBarrier where
  gen : BitVec 48
  arrived : List (Nat × Nat)
  deriving DecidableEq, Repr

def PodBarrier.reset : PodBarrier := { gen := 0, arrived := [] }

/-- An archipelago (R378 to R384). -/
structure Archipelago where
  id : Nat
  pkg : Nat                     -- the accepting package
  launch : Nat
  islands : List Island
  barriers : Vector PodBarrier 4
  deriving DecidableEq, Repr

end Sys2Proof.Machine
end

