-- ==== Sys2Proof/Machine/ServiceState.lean ====
section
/-!
DEFINITION. Sys2Proof/Machine/ServiceState.lean: service life: clocks and margins of the dies, fenced parts, the
management status, records, replay and checkpoints (spec 24; spec 05, R134).
-/

namespace Sys2Proof.Machine

/-- A die's clock and monitors (R3, R134, R409, R417). -/
structure Die where
  since : Nat               -- TIME from which the clock held has been held
  ticks : Nat               -- millionths of cycles counted before it
  khz : Nat                 -- the arithmetic clock held, in kHz
  mv : Nat                  -- the voltage held, in mV
  points : List (Nat × Nat) -- the die's table of points, a clock in kHz and a voltage in mV, by rising clock
  stepped : Nat             -- TIME of the last clock step
  slack : List Nat          -- the sixteen path-delay monitors, last sampled
  sampled : Nat             -- TIME of the sample
  planned : List Nat        -- slack at the last re-plan
  replanned : Nat           -- TIME of the last re-plan
  deriving DecidableEq, Repr

/-- CYCLE at a time in nanoseconds (Table 5.16): a kHz held for a nanosecond is a millionth of a cycle. -/
def Die.cycleAt (d : Die) (t : Nat) : Nat := (d.ticks + (t - d.since) * d.khz) / 1000000

/-- The die at another point, a clock in kHz and a voltage in mV, from a time on. -/
def Die.hold (d : Die) (t : Nat) (point : Nat × Nat) : Die :=
  { d with ticks := d.ticks + (t - d.since) * d.khz, since := t, khz := point.1, mv := point.2 }

/-- What is recorded of a launch (R414): its command; a digest; the core on which a strand was placed, the strand named by the
path that its launch took to it; a message on a channel of a core; and an atomic or posted reduction that a slice performed, with
the package and core it came from. -/
inductive RecItem where
  | command (bytes : VReg)
  | digest (va len : Nat) (sha : Nat)
  | placed (pkg : Nat) (path : List Nat) (core : Nat)
  | message (pkg core ch sender : Nat)
  | atomic (pkg slice va from_ core : Nat)
  deriving DecidableEq, Repr

/-- A record of a launch in its partition's record area (R414). -/
structure Record where
  part : Nat
  ctx : Nat
  ring : Nat
  launch : Nat
  dom : Nat
  items : List RecItem      -- in order
  open_ : Bool              -- recording goes on
  deriving DecidableEq, Repr

/-- A replay under way (R415): the partition, the launch that is reissued, the record's items still to come, and all of them. -/
structure Replay where
  part : Nat
  launch : Nat
  items : List RecItem
  all : List RecItem
  deriving DecidableEq, Repr

/-- A checkpoint of device memory (R416), its bytes and poison, and of what the firmware keeps about it: the roots of the page
and ownership tables, the deferred queues, the strands and launches, the save slots and the archipelagos; not the key slots or the
counter table. -/
structure Snapshot where
  hbm : Memory
  pois : List Nat
  troot : Nat
  fotBase : Nat
  overflow : List (Nat × List Deferred)
  defRings : List (Nat × DefRing)
  sched : Sched
  saves : List SaveSlot
  savedGens : List (Nat × Nat × Word)
  arcs : List Archipelago
  deriving DecidableEq, Repr

/-- The service state of a package. -/
structure Service where
  dies : List (Nat × Die)
  quads : List Nat                  -- fenced quads
  banks : List (Nat × Nat)          -- fenced banks, as stack and bank
  rows : List (Nat × Nat × Nat)     -- repaired rows, as stack, bank and row
  lanes : List (Nat × Nat)          -- fenced lanes, as link and lane
  links : List Nat                  -- links fenced whole
  fencing : List Nat                -- quads to be fenced once their strands have left
  rr : Bool
  ready : Bool
  mctp : List Nat                   -- MCTP events sent: 1 replacement requested
  scrubbed : Nat                    -- TIME of the last HBM scrub
  cacheScrubbed : Nat               -- TIME up to which the shared cache has been scrubbed
  corrected : Nat                   -- errors corrected (R413)
  swept : Nat                       -- TIME of the last dirty-bitmap sweep
  records : List Record
  recordEnds : List (Nat × Nat)     -- the bytes that records take in each partition's record area
  replay : Option Replay
  refusedReplay : Nat               -- management error codes sent
  snapshot : Option Snapshot
  started : Nat                     -- TIME of device reset
  deriving DecidableEq, Repr

/-- A die's clock at reset: the spec gives 1.0 GHz as the arithmetic clock of its rates; the table of points is the
firmware's, and no voltage is given (log 2). -/
def Die.reset : Die :=
  { since := 0, ticks := 0, khz := 1000000, mv := 0, points := [(1000000, 0)], stepped := 0, slack := List.replicate 16 0, sampled := 0,
    planned := List.replicate 16 0, replanned := 0 }

def Service.reset : Service :=
  { dies := [], quads := [], banks := [], rows := [], lanes := [], links := [], fencing := [], rr := false,
    ready := false, mctp := [], scrubbed := 0, cacheScrubbed := 0, corrected := 0, swept := 0, records := [], recordEnds := [], replay := none, refusedReplay := 0,
    snapshot := none, started := 0 }

end Sys2Proof.Machine
end

