-- ==== Sys2Proof/Machine/State.lean ====
section
/-!
DEFINITION. Sys2Proof/Machine/State.lean: the whole state of a pod of packages, the outcomes of a step other than a
next state, and the state after reset.
-/

namespace Sys2Proof.Machine

/-- What stops the machine. The spec's own faults are next states (spec 08). -/
inductive Fault where
  /-- A physical address at or beyond the 1 TiB of a package's memory is reached (R2, R313): raised by every access of
  a walker, a fill or a home slice through such a frame, of which the spec gives no effect. Safe. -/
  | noSuchFrame
  deriving DecidableEq, Repr

/-- Why an instruction is refused. -/
inductive Refusal where
  /-- The instruction has no meaning in the model. Raised by its arm in Dispatch only. Safe. -/
  | notModelled (mnemonic : String)
  deriving DecidableEq, Repr

/-- One package: its memory side, its cores, schedulers, control and fabric engines, bank slots and lines. -/
structure Package where
  home : Home
  cores : List (Nat × Core)               -- by core number, a core at reset is not listed
  sched : Sched
  ctl : Ctl
  fabric : Fabric
  service : Service
  bankSlots : List (Nat × BankSlot)       -- by 64·stack + slot (R254)
  lines : List (Nat × Line)               -- by line number, an off line is not listed
  chainSignals : List Nat                 -- chained signals on their way, by target line (R122)
  savedGens : List (Nat × Nat × Word)     -- a saved strand, the line it waits on, and the generation it fired with (R123)
  deriving DecidableEq, Repr

def Package.reset : Package :=
  { home := Home.reset, cores := [], sched := Sched.reset, ctl := Ctl.reset, fabric := Fabric.reset,
    service := Service.reset, bankSlots := [], lines := [], chainSignals := [], savedGens := [] }

/-- The hardware of a pod, or of several pods joined by scale-out ports: its packages by 1,024·pod + package number, a
package at reset not listed, and the archipelagos across them. -/
structure Dev where
  pkgs : List (Nat × Package)
  arcs : List Archipelago
  nextArc : Nat
  deriving DecidableEq, Repr

def Dev.reset : Dev := { pkgs := [], arcs := [], nextArc := 0 }

/-- Where the next instruction or event happens. -/
structure Cursor where
  pkg : Nat
  core : Nat
  stream : Strm
  deriving DecidableEq, Repr

/-- A turn of the schedule (log 3): the next unit of a stream, an event at a core, or time that passes. -/
inductive Turn where
  | unit (pkg core : Nat) (stream : Strm)
  | event (pkg core : Nat) (i : Instr)
  | elapse (ns : Nat)
  deriving DecidableEq, Repr

/-- The machine: the hardware, the time in nanoseconds, where the next instruction happens, and the turns still to
come. The last two are the model's own fields (log 3): the order in which streams and events take turns is open. -/
structure State where
  dev : Dev
  time : Nat
  cur : Cursor
  agenda : List Turn
  deriving DecidableEq, Repr

/-- The machine right after reset (R418 and the reset values of each chapter). -/
def State.reset : State :=
  { dev := Dev.reset, time := 0, cur := { pkg := 0, core := 0, stream := .A }, agenda := [] }

end Sys2Proof.Machine
end

