-- ==== Sys2Proof/Machine/Monad.lean ====
section
/-!
DEFINITION. Sys2Proof/Machine/Monad.lean: the computations that meanings are written in, and the places of the state
they read and write. A computation that stops leaves the hardware as it was: a unit that faults or blocks performs
nothing (R84).
-/

namespace Sys2Proof.Machine

/-- What a computation is told: the package, core and stream it runs on, and the time in nanoseconds. -/
structure Env where
  pkg : Nat
  core : Nat
  stream : Strm
  time : Nat
  deriving DecidableEq, Repr

/-- How a unit ends that does not perform. -/
inductive Stop where
  | block                                       -- it waits, and has performed nothing
  | raise (c : Cause) (ea : Word)               -- a program fault (Table 8.1)
  | restart (c : Cause) (ea report : Word)      -- a restartable fault; the address system software is told
  | halt (f : Fault)
  deriving DecidableEq, Repr

/-- Computations over the hardware. -/
abbrev M (α : Type) := ReaderT Env (StateT Dev (Except Stop)) α

def block {α : Type} : M α := throw .block

def raise {α : Type} (c : Cause) (ea : Word) : M α := throw (.raise c ea)

/-! ### Places of the state -/

/-- A sparse map with one key set, its keys rising. -/
def setAt {α : Type} : List (Nat × α) → Nat → α → List (Nat × α)
  | [], k, x => [(k, x)]
  | (j, y) :: rest, k, x =>
    if k < j then (k, x) :: (j, y) :: rest
    else if j == k then (k, x) :: rest
    else (j, y) :: setAt rest k x

/-- A sparse map without a key. -/
def dropAt {α : Type} (l : List (Nat × α)) (k : Nat) : List (Nat × α) := l.filter fun e => e.1 != k

/-- The value of a key, if it is listed. -/
def findAt {α : Type} (l : List (Nat × α)) (k : Nat) : Option α := (l.find? fun e => e.1 == k).map (·.2)

def Dev.pkg (d : Dev) (p : Nat) : Package := lookupD Package.reset d.pkgs p

def Dev.setPkg (d : Dev) (p : Nat) (x : Package) : Dev := { d with pkgs := setAt d.pkgs p x }

def Package.core (x : Package) (c : Nat) : Core := lookupD Core.reset x.cores c

def Package.setCore (x : Package) (c : Nat) (y : Core) : Package := { x with cores := setAt x.cores c y }

def pkgAt (p : Nat) : M Package := return (← get).pkg p

def modPkgAt (p : Nat) (f : Package → Package) : M Unit := modify fun d => d.setPkg p (f (d.pkg p))

def thePkg : M Package := do pkgAt (← read).pkg

def modPkg (f : Package → Package) : M Unit := do modPkgAt (← read).pkg f

def coreAt (p c : Nat) : M Core := return ((← get).pkg p).core c

def modCoreAt (p c : Nat) (f : Core → Core) : M Unit := modPkgAt p fun x => x.setCore c (f (x.core c))

def theCore : M Core := do coreAt (← read).pkg (← read).core

def modCore (f : Core → Core) : M Unit := do modCoreAt (← read).pkg (← read).core f

def theStream : M Strm := return (← read).stream

def now : M Nat := return (← read).time

/-- TIME (Table 5.16): nanoseconds since the package's device reset. -/
def deviceTime : M Nat := return ((← now) - (← thePkg).service.started) % 2 ^ 64

/-- The next order number of the core's stores, loads and commands. -/
def nextSerial : M Nat := do
  let n := (← theCore).serial
  modCore fun c => { c with serial := n + 1 }
  return n

/-- A part of the schedulers' or control cores' state changed. -/
def modSched (f : Sched → Sched) : M Unit := modPkg fun x => { x with sched := f x.sched }

def modCtl (f : Ctl → Ctl) : M Unit := modPkg fun x => { x with ctl := f x.ctl }

def modFabric (f : Fabric → Fabric) : M Unit := modPkg fun x => { x with fabric := f x.fabric }

def modService (f : Service → Service) : M Unit := modPkg fun x => { x with service := f x.service }

/-- A program fault whose rule names no EADDR: the value is free (log 15). -/
def raiseOpen {α : Type} (c : Cause) : M α := do
  let t ← now
  raise c (Config.openEaddr t (← theCore).serial)

/-! ### Core numbers (R7 to R11) -/

/-- The die, quad and quad position of a core number (Table 1.2). -/
def dieOf (core : Nat) : Nat := core / 1024

def quadOf (core : Nat) : Nat := core / 4

/-- The stream other than this one. -/
def Strm.other : Strm → Strm
  | .A => .X
  | .X => .A

def Core.str (c : Core) : Strm → StreamState
  | .A => c.strA
  | .X => c.strX

def Core.setStr (c : Core) (s : Strm) (x : StreamState) : Core :=
  match s with
  | .A => { c with strA := x }
  | .X => { c with strX := x }

/-! ### Running a computation -/

/-- A computation at a package, core and stream. -/
def atCore {α : Type} (p c : Nat) (s : Strm) (x : M α) : M α := ReaderT.adapt (fun e : Env => { e with pkg := p, core := c, stream := s }) x

/-- A computation on the memory side of a package; a fault it meets is raised with an address, the restartable ones
with the address reported to system software (R169). -/
def runHomeAt {α : Type} (p : Nat) (ea report : Word) (x : H α) : M α := do
  let k ← pkgAt p
  match x.run k.home with
  | .ok (a, h) =>
    modPkgAt p fun y => { y with home := h }
    return a
  | .error .wait => throw .block
  | .error (.fault .translate) => throw (.restart .translate ea report)
  | .error (.fault .owner) => throw (.restart .owner ea report)
  | .error (.fault c) => throw (.raise c ea)
  | .error .noFrame => throw (.halt .noSuchFrame)

def runHome {α : Type} (ea report : Word) (x : H α) : M α := do runHomeAt (← read).pkg ea report x

/-- A computation's result, or how it stopped; one that stops leaves the hardware as it was. -/
def attempt {α : Type} (x : M α) : M (Except Stop α) := fun e d =>
  match (x e).run d with
  | .ok (a, d') => .ok (.ok a, d')
  | .error s => .ok (.error s, d)

end Sys2Proof.Machine
end

