-- ==== Sys2Proof/Machine/Replays.lean ====
section
/-!
DEFINITION. Sys2Proof/Machine/Replays.lean: the items of a launch's record, and the partition and launch of a core (spec 24,
R414; spec 22, R396).
-/

namespace Sys2Proof.Machine

def RecItem.kind : RecItem → Nat
  | .command _ => 0
  | .digest _ _ _ => 1
  | .placed _ _ _ => 2
  | .message _ _ _ _ => 3
  | .atomic _ _ _ _ _ => 4

/-- An item's contents, its kind first. -/
def RecItem.words (i : RecItem) : List Nat := i.kind :: match i with
  | .command b => [b.toNat]
  | .digest va n sha => [va, n, sha]
  | .placed p path c => p :: c :: path
  | .message p c ch sender => [p, c, ch, sender]
  | .atomic p slice va from_ c => [p, slice, va, from_, c]

/-- The partition whose interval holds a core. -/
def Ctl.partOf (c : Ctl) (core : Nat) : Option Nat :=
  (c.parts.find? fun p => p.2.base <= core && core < p.2.base + p.2.len).map (·.1)

def thePart : M Nat := return ((← thePkg).ctl.partOf (← read).core).getD 0

/-- The partition that holds a core. -/
def partOfCore (core : Nat) : M (Option Nat) := return (← thePkg).ctl.partOf core

/-- LAUNCH of the strand that a core runs, with the package that holds the launch. -/
def launchAt (core : Nat) : M (Nat × Nat) := do
  let x ← thePkg
  let va := (x.core core).strand.toNat
  match x.sched.strands.find? fun s => s.va == va with
  | some s => return (s.lpkg, s.launch)
  | none => return ((← read).pkg, 0)

/-- LAUNCH of the running strand's record, with the package that holds the launch. -/
def theLaunch : M (Nat × Nat) := do launchAt (← read).core

end Sys2Proof.Machine
end

