-- ==== Sys2Proof/Machine/Access.lean ====
section
/-!
DEFINITION. Sys2Proof/Machine/Access.lean: addresses, windows, rights, range locks, and reads and writes of memory, the
scratchpad and the archipelago window (spec 01, R16 to R18; spec 05, R104 to R107; spec 16, R308, R309, R322; spec 20,
R369, R384; spec 03).
-/

namespace Sys2Proof.Machine

/-! ### Windows (Table 1.4) -/

/-- What an address names. -/
inductive Space where
  | mem
  | arc (island icore off : Nat)
  | scratch (off : Nat)
  | quadLine (n : Nat)
  | dieLine (n : Nat)
  | pkgLine (n : Nat)
  | nothing
  deriving DecidableEq, Repr

def windowBase : Nat := 0x1FC000000000000
def scratchBase : Nat := 0x1FE000000000000

/-- R16, R17: the window of an address; line windows name a line only at byte 0 of its 64 bytes. -/
def space (va : Nat) : Space :=
  if va < windowBase then .mem
  else if va < scratchBase then
    let o := va - windowBase
    let island := o / 2 ^ 32
    let icore := o / 2 ^ 18 % 2 ^ 14
    if island < 1024 then .arc island icore (o % 2 ^ 18) else .nothing
  else
    let o := va - scratchBase
    if o < 2 ^ 18 then .scratch o
    else
      let line (base n : Nat) (f : Nat → Space) : Space :=
        if base <= o && o < base + 64 * n && (o - base) % 64 == 0 then f ((o - base) / 64) else .nothing
      match line 0x100000000 32 .quadLine with
      | .nothing =>
        match line 0x200000000 64 .dieLine with
        | .nothing => line 0x300000000 32 .pkgLine
        | s => s
      | s => s

/-! ### Rights (R308, R309) -/

/-- The rights an access needs (Table 16.2). -/
structure Need where
  r : Bool
  w : Bool
  x : Bool
  a : Bool
  deriving DecidableEq, Repr

def needR : Need := ⟨true, false, false, false⟩
def needW : Need := ⟨false, true, false, false⟩
def needRWA : Need := ⟨true, true, false, true⟩
def needWA : Need := ⟨false, true, false, true⟩
def needRX : Need := ⟨true, false, true, false⟩

def PlbEntry.base (e : PlbEntry) : Nat := natBits e.w0.toNat 56 12 * 4096

def PlbEntry.bytes (e : PlbEntry) : Nat := natBits e.w1.toNat 45 0 * 4096

def PlbEntry.covers (e : PlbEntry) (va : Nat) : Bool := e.base <= va && va < e.base + e.bytes

/-- Table 16.1: an entry with a nonzero reserved field grants nothing. -/
def PlbEntry.sound (e : PlbEntry) : Bool :=
  natBits e.w0.toNat 11 5 == 0 && natBits e.w0.toNat 63 57 == 0 && natBits e.w1.toNat 63 46 == 0

def PlbEntry.suffices (e : PlbEntry) (n : Need) : Bool :=
  e.sound && (!n.r || e.w0.getLsbD 0) && (!n.w || e.w0.getLsbD 1) && (!n.x || e.w0.getLsbD 2) &&
    (!n.a || e.w0.getLsbD 3)

/-- The right M of an entry. -/
def PlbEntry.remote (e : PlbEntry) : Bool := e.sound && e.w0.getLsbD 4

/-! ### Reaching a line, here or at a peer -/

/-- The package number of a peer named in an aperture: a pod holds 1,024 packages. -/
def peerOf (pkg n : Nat) : Nat := pkg / 1024 * 1024 + n

/-- The next hops to a destination package that no link fenced whole leads to (R367, R410). -/
def Package.hops (x : Package) (me dest : Nat) : List Nat :=
  (lookupD [] x.fabric.routes dest).filter fun h => !x.service.links.any fun l => Config.linkPeer me l == peerOf me h

/-- Packets to a package all of whose next hops lie over links fenced whole wait for the fabric manager's new routes (R410;
log 110). -/
def waitForRoute (dest : Nat) : M Unit := do
  let x ← thePkg
  if !(lookupD [] x.fabric.routes dest).isEmpty && (x.hops (← read).pkg dest).isEmpty then block

/-- R322: the package and line an access reaches. `m` says whether its domain holds M over it. -/
def locate (ea report : Word) (atomic m : Bool) (va : Nat) : M (Nat × LineRef) := do
  let part ← thePart
  match ← runHome ea report (reach part va) with
  | .line r => return ((← read).pkg, r)
  | .remote t =>
    if !m then raise .prot ea
    if t.leaf.apt == 63 then raise .aperture ea
    let ap := lookupD Aperture.reset (← thePkg).fabric.apertures t.leaf.apt
    if !ap.valid || ap.lost || ap.scaleOut then raise .aperture ea
    if atomic && !t.leaf.rap then raise .remoteAtomic ea
    waitForRoute ap.pkg
    let peer := peerOf (← read).pkg ap.pkg
    return (peer, ← runHomeAt peer ea report (reachHanded part va t))

/-- `n` bytes of a line's 128 from an address. -/
def lineBytes (b : VReg) (va n : Nat) : Nat := b.toNat / 2 ^ (8 * (va % 128)) % 2 ^ (8 * n)

/-- The whole line of a local page goes into the L1 (log 6). -/
def cacheLine (p va : Nat) (r : LineRef) : M Unit := do
  if p == (← read).pkg then
    let c := (← read).core
    runHome 0 0 (do
      match ← lineOf r (va / 128) with
      | some x => l1Install c x
      | none => return)

/-- A read of up to 128 bytes within one line, as the memory side has them. -/
def readLine (ea report : Word) (m : Bool) (va n : Nat) : M Nat := do
  match (← thePkg).home.l1Find (← read).core va with
  | some b =>
    if poisonedIn b.pois (va % 128) n then raise .poison ea
    return lineBytes b.bytes va n
  | none =>
    let (p, r) ← locate ea report false m va
    cacheLine p va r
    runHomeAt p ea report (readRef r va n)

/-- The pieces of `n` bytes from an address that lie each within one line: address, length, offset; `k` counts lines. -/
def linePieces (va n : Nat) : Nat → Nat → List (Nat × Nat × Nat)
  | 0, _ => []
  | k + 1, off =>
    if off < n then
      let a := va + off
      let len := Nat.min (128 - a % 128) (n - off)
      (a, len, off) :: linePieces va n k (off + len)
    else []

def pieces (va n : Nat) : List (Nat × Nat × Nat) := linePieces va n (n / 128 + 2) 0

/-- A read of any length by hardware, faults reported at `ea`. -/
def readBytes (ea report : Word) (m : Bool) (va n : Nat) : M Nat :=
  (pieces va n).foldlM (fun v p => return v + (← readLine ea report m p.1 p.2.1) * 2 ^ (8 * p.2.2)) 0

/-- A write of any length that performs at the home slices at once: engines, schedulers and control cores. -/
def writeBytesNow (ea report : Word) (m : Bool) (dom va n v : Nat) : M Unit :=
  (pieces va n).forM fun p => do
    let (k, r) ← locate ea report false m p.1
    runHomeAt k ea report (writeRef r p.1 p.2.1 (v / 2 ^ (8 * p.2.2) % 2 ^ (8 * p.2.1)) dom)

/-- A write by a scheduler or control core: it waits for a range invalidation; one that meets a fault writes nothing
(log 13). True when it performed. -/
def sysWriteBy (dom va n v : Nat) : M Bool := do
  match ← attempt (writeBytesNow 0 0 true dom va n v) with
  | .ok _ => return true
  | .error .block => block
  | .error (.halt f) => throw (.halt f)
  | .error _ => return false

def sysWrite (va n v : Nat) : M Unit := do let _ ← sysWriteBy 0 va n v

/-! ### Recording and replay (R414, R415) -/

/-- The record area of a partition: its first byte, past the last save slot, and its size (R414). -/
def PartRec.recordArea (r : PartRec) : Nat × Nat := (r.saveVa + saveBytes * r.saveN, 4096 * r.recPages)

/-- An item of a recorded launch of package `p`, written in the record area after what stands there; one that does not fit ends
the recording, and no record is kept (R414). True where it was written. -/
def recordItem (p launch : Nat) (it : RecItem) : M Bool := do
  let x ← pkgAt p
  let mine (r : Record) : Bool := r.launch == launch && r.open_
  match x.service.records.find? mine with
  | none => return false
  | some r =>
    let area := ((findAt x.ctl.parts r.part).map PartRec.recordArea).getD (0, 0)
    let at_ := lookupD 0 x.service.recordEnds r.part
    let n := Config.recordItemBytes it.kind
    let fits : Bool := at_ + n <= area.2
    let grown (r : Record) : Option Record :=
      if !mine r then some r else if fits then some { r with items := r.items ++ [it] } else none
    modPkgAt p fun x => { x with service := { x.service with
      records := x.service.records.filterMap grown
      recordEnds := if fits then setAt x.service.recordEnds r.part (at_ + n) else x.service.recordEnds } }
    if fits then atCore p 0 .A (sysWrite (area.1 + at_) n (Config.recordItemValue it.words))
    return fits

/-- A replay of a launch of package `p` lets an event of it happen only in its recorded order: the first item still to come among
`same` is the one that happens now. -/
def replayTurn (p launch : Nat) (same : RecItem → Bool) (it : RecItem) : M Unit := do
  match (← pkgAt p).service.replay with
  | none => return
  | some r =>
    if launch != r.launch then return
    match r.items.find? same with
    | none => return
    | some x =>
      if x != it then block
      modPkgAt p fun x => { x with service := { x.service with replay := some { r with items := r.items.erase it } } }

/-- An atomic or posted reduction of a launch, by its package and id, is performed next at a home slice of package `at_`; it came
from a core of this package. True where it was recorded. -/
def atomicTurn (l : Nat × Nat) (at_ slice va core : Nat) : M Bool := do
  let me := (← read).pkg
  replayTurn l.1 l.2 (fun i => match i with
    | .atomic q s _ _ _ => q == at_ && s == slice
    | _ => false) (.atomic at_ slice va me core)
  recordItem l.1 l.2 (.atomic at_ slice va me core)

/-- The place of an access that may be recorded, its turn come: it is found again where the record's own write has intervened. -/
def placeInTurn {α : Type} (place : M α) (turn : α → M Bool) : M α := do
  let x ← place
  if ← turn x then place else return x

/-- A message enters a receive queue: an item of the launches of its sender and of the strand that the core runs. -/
def messageTurn (ls : List (Nat × Nat)) (core ch sender : Nat) : M Unit := do
  let me := (← read).pkg
  ls.eraseDups.forM fun l => do
    replayTurn l.1 l.2 (fun i => match i with
      | .message q c h _ => q == me && c == core && h == ch
      | _ => false) (.message me core ch sender)
    let _ ← recordItem l.1 l.2 (.message me core ch sender)

/-! ### The rights check -/

/-- DrtSearch of R308, `fuel` halvings of the array. A fault of its reads is raised at the access. -/
def drtSearch (ea : Word) (drtVa va : Nat) : Nat → Nat → Nat → M (Option (Word × Word))
  | 0, _, _ => return none
  | fuel + 1, lo, hi => do
    if hi <= lo then return none
    let mid := (lo + hi - 1) / 2
    let at_ := drtVa + 16 * mid
    let t ← readBytes ea (BitVec.ofNat 64 at_) true at_ 16
    let e : PlbEntry := { dom := 0, w0 := BitVec.ofNat 64 t, w1 := BitVec.ofNat 64 (t / 2 ^ 64) }
    if va / 4096 * 4096 < e.base then drtSearch ea drtVa va fuel lo mid
    else if e.base + e.bytes <= va then drtSearch ea drtVa va fuel (mid + 1) hi
    else return some (e.w0, e.w1)

def drtLookup (ea : Word) (dom va : Nat) : M (Option PlbEntry) := do
  match findAt (← thePkg).ctl.doms dom with
  | none => return none
  | some d =>
    match ← drtSearch ea d.drtVa va 22 0 d.drtCount with
    | some (w0, w1) => return some { dom := dom, w0 := w0, w1 := w1 }
    | none => return none

/-- An entry installed in the core's PLB of 64 entries, the oldest dropped (log 12). -/
def plbInstall (e : PlbEntry) : M Unit := modCore fun c => { c with plb := (e :: c.plb).take 64 }

def plbLookup (dom va : Nat) : M (Option PlbEntry) :=
  return (← theCore).plb.find? fun e => e.dom == dom && e.covers va

/-- PlbReplace (R308): the entry that a re-read finds stands in place of the one held; with none the place is free. -/
def plbReplace (e : PlbEntry) (e' : Option PlbEntry) : M Unit :=
  modCore fun c => { c with plb := c.plb.filterMap fun x => if x == e then e' else some x }

/-- R308 for one byte's range: whether the entry that grants the rights grants M; none where no entry grants them. -/
def judgeRights (ea : Word) (need : Need) (dom va : Nat) : M (Option Bool) := do
  let granted (e : Option PlbEntry) : Option Bool := (e.filter fun e => e.suffices need).map PlbEntry.remote
  match ← plbLookup dom va with
  | some e =>
    if e.suffices need then return some e.remote
    let e' ← drtLookup ea dom va
    plbReplace e e'
    return granted e'
  | none =>
    let e' ← drtLookup ea dom va
    match e' with
    | some e' => plbInstall e'
    | none => pure ()
    return granted e'

/-- The same, where a right that is missing raises PROT. -/
def checkRightsAt (ea : Word) (need : Need) (dom va : Nat) : M Bool := do
  match ← judgeRights ea need dom va with
  | some m => return m
  | none => raise .prot ea

/-- The replacements and installations that a failing check of a domain has made stand, though its unit has performed nothing
else: the DRT is read once more at the address that PROT names. -/
def plbAfterProt (dom : Nat) (ea : Word) : M Unit := do
  match ← attempt (drtLookup ea dom ea.toNat) with
  | .ok e' =>
    match ← plbLookup dom ea.toNat, e' with
    | some e, e' => plbReplace e e'
    | none, some e' => plbInstall e'
    | none, none => return
  | .error (.halt f) => throw (.halt f)
  | .error _ => return

/-- The right M for an access that met a page of another package without it: a failing right is read again once (R308,
R310). -/
def grantsM (ea : Word) (dom va : Nat) : M Bool := do
  let e' ← drtLookup ea dom va
  match ← plbLookup dom va with
  | some e => plbReplace e e'
  | none => pure ()
  return (e'.map (·.remote)).getD false

/-- An access of a domain under the right M as its check found it; where the page proves to need M the right is read again. -/
def withM {α : Type} (dom : Nat) (m : Bool) (va : Nat) (x : Bool → M α) : M α := do
  if m then x true
  else
    match ← attempt (x false) with
    | .ok v => return v
    | .error (.raise .prot ea) =>
      if ← grantsM ea dom va then x true else raise .prot ea
    | .error s => throw s

/-- The same for an agent outside the cores, which holds no PLB. -/
def checkRightsFresh (need : Need) (dom va : Nat) : M Bool := do
  match ← drtLookup 0 dom va with
  | some e => if e.suffices need then return e.remote else raise .prot 0
  | none => raise .prot 0

/-- The 4 KiB pages that `n` bytes touch, by an address in each. -/
def pagesOf (va n : Nat) : List Nat :=
  (List.range ((va % 4096 + n + 4095) / 4096)).map fun k => if k == 0 then va else (va / 4096 + k) * 4096

/-- Every byte of an access needs the right; M holds only where every part grants it. -/
def checkRights (ea : Word) (need : Need) (va n : Nat) : M Bool := do
  let dom := (← theCore).dom.toNat
  (pagesOf va n).foldlM (fun m p => return m && (← checkRightsAt (if p == va then ea else BitVec.ofNat 64 p) need dom p))
    true

/-! ### Range locks (R104) -/

def Core.locked (c : Core) (va n : Nat) : Bool :=
  c.locks.any fun l => overlaps va (va + n) l.2.base (l.2.base + l.2.len)

def checkLocks (ea : Word) (n : Nat) : M Unit := do
  if (← theCore).locked ea.toNat n then raise .rangelock ea

/-! ### The scratchpad (R18, R107, R173) -/

def scratchBytes : Nat := 2 ^ 18

def poisonedParts (ps : List Nat) (off n : Nat) : Bool := ps.any fun p => off < 8 * p + 8 && 8 * p < off + n

def scratchReadAt (ea : Word) (p c off n : Nat) : M Nat := do
  let k ← coreAt p c
  if poisonedParts k.scratchPois off n then raise .poison ea
  return k.scratch.read off n

/-- A write of a scratchpad; the 4 KiB blocks it touches are marked (R180), a part written whole loses its poison. -/
def Core.scratchWrite (k : Core) (off n v : Nat) : Core :=
  let blocks := (pagesOf off n).foldl (fun t p => t ||| BitVec.ofNat 64 (2 ^ (p / 4096))) k.touched
  { k with
    scratch := k.scratch.write off n v
    touched := blocks
    scratchPois := k.scratchPois.filter fun p => !(off <= 8 * p && 8 * p + 8 <= off + n) }

def scratchRead (ea : Word) (off n : Nat) : M Nat := do scratchReadAt ea (← read).pkg (← read).core off n

def scratchWrite (off n v : Nat) : M Unit := modCore fun k => k.scratchWrite off n v

/-! ### The archipelago window (R384) -/

/-- ARCSTAT's fields (Table 20.7). -/
def arcState (a : Word) : Nat := natBits a.toNat 49 48
def arcExp (a : Word) : Nat := natBits a.toNat 55 50
def arcNoExp (a : Word) : Bool := a.getLsbD 56

/-- The archipelago whose member runs on a core, with its island and island-core index. -/
def Dev.arcOf (d : Dev) (pkg core : Nat) : Option (Archipelago × Nat × Nat) :=
  d.arcs.findSome? fun a =>
    (List.range a.islands.length).findSome? fun i =>
      match a.islands[i]? with
      | some isl =>
        if isl.pkg == pkg && !isl.departed then
          (isl.cores.findIdx? (· == core)).bind fun k =>
            if ((d.pkg pkg).core core).strand.toNat == isl.strands.getD k 0 then some (a, i, k) else none
        else none
      | none => none

/-- The issuing core's checks of a window address. -/
def arcMember (ea : Word) (island icore : Nat) : M Island := do
  match (← get).arcOf (← read).pkg (← read).core with
  | none => raise .aperture ea
  | some (a, _, _) =>
    match a.islands[island]? with
    | none => raise .aperture ea
    | some isl => if isl.cores.length <= icore then raise .aperture ea else return isl

/-- The target core of a window access, after the target's checks: a core that does not hold the member's strand has not
joined. -/
def arcTarget (ea : Word) (island icore off : Nat) : M (Nat × Nat) := do
  let isl ← arcMember ea island icore
  if isl.departed then raise .islandGone (BitVec.ofNat 64 island)
  let c := isl.cores.getD icore 0
  let k ← coreAt isl.pkg c
  let a := k.arcstat
  if k.strand.toNat != isl.strands.getD icore 0 || arcState a < 2 || arcNoExp a || (arcExp a != 0 && arcExp a <= off / 4096) then raise .window ea
  if isl.pkg != (← read).pkg then waitForRoute (isl.pkg % 1024)
  return (isl.pkg, c)

/-! ### Stores of a stream (R47, R51, R109) -/

/-- The bytes a store covers, laid over `n` bytes read at an address. -/
def Store.overlay (s : Store) (va n v : Nat) : Nat :=
  if overlaps va (va + n) s.va (s.va + s.n) then
    (List.range n).foldl (fun r i =>
      let b := if s.va <= va + i && va + i < s.va + s.n then s.val / 2 ^ (8 * (va + i - s.va)) % 256
               else v / 2 ^ (8 * i) % 256
      r + b * 2 ^ (8 * i)) 0
  else v

/-- Own stores laid over what memory holds, the oldest first. -/
def Core.overlay (c : Core) (va n v : Nat) : Nat :=
  (c.inflight ++ c.sbuf).foldl (fun r s => s.overlay va n r) v

/-- An own store that has not performed covers a whole 8-byte part: the part's poison is gone for the stream (R289). -/
def Core.ownsPart (c : Core) (part : Nat) : Bool :=
  (c.inflight ++ c.sbuf).any fun s => s.va <= 8 * part && 8 * part + 8 <= s.va + s.n

/-- The pieces of `n` bytes from an address within one line that lie each in one 8-byte part: address, length, offset. -/
def partPieces (va n : Nat) : List (Nat × Nat × Nat) :=
  (partsOf (va % 128) n).map fun k =>
    let lo := Nat.max va (va / 128 * 128 + 8 * k)
    let hi := Nat.min (va + n) (va / 128 * 128 + 8 * k + 8)
    (lo, hi - lo, lo - va)

/-- What the memory side has of up to 128 bytes within one line; a part that an own store covers is not read. -/
def readUnder (ea : Word) (m : Bool) (n : Nat) : M Nat := do
  let c ← theCore
  let ps := partPieces ea.toNat n
  if ps.any fun p => c.ownsPart (p.1 / 8) then
    if ((← thePkg).home.l1Find (← read).core ea.toNat).isNone then
      let _ ← locate ea ea false m ea.toNat
    ps.foldlM (fun v p => do
      if c.ownsPart (p.1 / 8) then return v
      return v + (← readLine ea ea m p.1 p.2.1) * 2 ^ (8 * p.2.2)) 0
  else readLine ea ea m ea.toNat n

/-- Posted reductions of a core's stream that have not performed, whether accepted or not. -/
def ownPosted (d : Dev) (pkg core : Nat) : List Posted :=
  (((d.pkg pkg).core core).amons.map (·.2)) ++ d.pkgs.flatMap fun k => k.2.home.accepted.filter fun p => p.ofCore pkg core

/-- The posted reductions of the core that this computation runs on. -/
def thePosted : M (List Posted) := return ownPosted (← get) (← read).pkg (← read).core

/-- Order numbers of a core's released stores and posted reductions that have not performed. -/
def ownWrites (d : Dev) (pkg core : Nat) : List Nat :=
  (((d.pkg pkg).core core).inflight.map (·.serial)) ++ (ownPosted d pkg core).map (·.serial)

def theWrites : M (List Nat) := return ownWrites (← get) (← read).pkg (← read).core

def Posted.line (p : Posted) : Nat := p.at_.va / 128

/-- A read of bytes that the stream's own posted reductions are still to write waits for them (R43). -/
def awaitPosted (va n : Nat) : M Unit := do
  if (← thePosted).any fun p => overlaps va (va + n) p.at_.va (p.at_.va + (if p.at_.wide then 8 else 4)) then block

/-- ReadOwn (R108): the youngest own store, else what the memory side has. -/
def readOwn (ea : Word) (m : Bool) (n : Nat) : M Nat := do
  awaitPosted ea.toNat n
  let v ← withM (← theCore).dom.toNat m ea.toNat fun m => readUnder ea m n
  return (← theCore).overlay ea.toNat n v

/-- A store performs at its home slice (R288). -/
def performStore (s : Store) : M Unit := do
  let ea := BitVec.ofNat 64 s.va
  let (p, r) ← locate ea ea false s.mRight s.va
  runHomeAt p ea ea (writeRef r s.va s.n s.val s.dom)

/-- Release of the store buffer: each line is obtained again; a fault there is the unit's (R47). -/
def releaseStores : M Unit := do
  let c ← theCore
  c.sbuf.forM fun s => do
    let ea := BitVec.ofNat 64 s.va
    let _ ← locate ea ea false s.mRight s.va
  modCore fun c => { c with inflight := c.inflight ++ c.sbuf, sbuf := [] }

/-- An implicit commit (R173): the buffer is released and the region can no longer restart. -/
def implicitCommit : M Unit := do
  releaseStores
  modCore fun c => { c with restartable := false }

/-- The 64-byte lines the store buffer holds. -/
def storeLines (ss : List Store) : List Nat :=
  (ss.flatMap fun s => if s.n <= 64 then [s.va / 64] else [s.va / 64, s.va / 64 + 1]).eraseDups

/-- Lines of 64 bytes the region store buffer holds (R170). -/
def storeLineLimit : Nat := 128

/-- A store into the region store buffer; its line is obtained now (R47). The 129th line releases the buffer first. -/
def bufferStore (m : Bool) (release : Option Nat) (ea : Word) (n v : Nat) : M Unit := do
  let m ← withM (← theCore).dom.toNat m ea.toNat fun m => do
    let _ ← locate ea ea false m ea.toNat
    return m
  let s : Store := { serial := 0, strand := (← theCore).strand.toNat, va := ea.toNat, n := n, val := v % 2 ^ (8 * n), release := release,
                     dom := (← theCore).dom.toNat, mRight := m }
  if storeLineLimit < (storeLines ((← theCore).sbuf ++ [s])).length then implicitCommit
  let k ← nextSerial
  modCore fun c => { c with sbuf := c.sbuf ++ [{ s with serial := k }] }

/-- A store stands after a posted reduction of its stream: one before it to its line, or any before it where it is a release
(R42, R50). -/
def Store.follows (s : Store) (ps : List Posted) : Bool :=
  ps.any fun p => p.serial < s.serial && (s.release.isSome || p.line == s.va / 128)

/-- A released store that another access waits for performs. One whose peer is lost never does: it holds the access until
STORE_PERFORM has told its strand (R369). -/
def awaitStore (s : Store) : M Unit := do
  match ← attempt (performStore s) with
  | .ok _ => return
  | .error (.raise .aperture _) => block
  | .error x => throw x

/-- Every store of the core that is released performs, in order, by `x`; it waits for the posted reductions they follow. -/
def eachReleased (x : Store → M Unit) : M Unit := do
  let ps ← thePosted
  let c ← theCore
  if c.inflight.any (·.follows ps) then block
  c.inflight.forM x
  modCore fun c => { c with inflight := [] }

def performReleased : M Unit := eachReleased awaitStore

/-- A released store of a strand that leaves its core: one whose page cannot be reached any more does not hold it. -/
def leaveStore (s : Store) : M Unit := do
  match ← attempt (awaitStore s) with
  | .ok _ => return
  | .error .block => block
  | .error (.halt f) => throw (.halt f)
  | .error _ => return

/-- What a strand has released performs before it leaves its core, each store by itself (R359, R399). -/
def leaveReleased : M Unit := eachReleased leaveStore

/-- Every write that the stream has made performs; it waits for its posted reductions (R45, R50, R156). -/
def settled : M Unit := do
  performReleased
  if !(← thePosted).isEmpty then block

/-- Hardware's own released writes of a stream (frame words, trap frame): in order after its released stores. -/
def releaseWrite (m : Bool) (va n v : Nat) : M Unit :=
  (pieces va n).forM fun p => do
    let k ← nextSerial
    modCore fun c => { c with inflight := c.inflight ++
      [{ serial := k, strand := c.strand.toNat, va := p.1, n := p.2.1, val := v / 2 ^ (8 * p.2.2) % 2 ^ (8 * p.2.1), release := none,
         dom := c.dom.toNat, mRight := m }] }

/-! ### The checks of R106 and one access -/

/-- Checks 1 to 4 of R106 for loads and stores: whether the domain holds M there. -/
def checkAccess (need : Need) (ea : Word) (n : Nat) : M Bool := do
  if ea.toNat % n != 0 then raise .align ea
  match space ea.toNat with
  | .mem =>
    let m ← checkRights ea need ea.toNat n
    checkLocks ea n
    return m
  | .scratch _ =>
    checkLocks ea n
    return true
  | .arc i k _ =>
    let _ ← arcMember ea i k
    return true
  | _ => raise .aperture ea

/-- The load that an access makes once its checks have passed. -/
def loadChecked (m : Bool) (ea : Word) (n : Nat) : M Nat := do
  match space ea.toNat with
  | .scratch off => scratchRead ea off n
  | .arc i k off =>
    let (p, c) ← arcTarget ea i k off
    implicitCommit
    scratchReadAt ea p c off n
  | _ => readOwn ea m n

/-- The store that an access makes once its checks have passed. A release to the own scratchpad, which no buffer holds, orders
as one to the archipelago window where other agents can tell (R50, R55). DEDUCED (log 102). -/
def storeChecked (m : Bool) (release : Option Nat) (ea : Word) (n v : Nat) : M Unit := do
  match space ea.toNat with
  | .scratch off =>
    if release.any (4 <= ·) then do
      implicitCommit
      settled
    scratchWrite off n v
  | .arc i k off =>
    let (p, c) ← arcTarget ea i k off
    implicitCommit
    if release.isSome then settled
    modCoreAt p c fun t => t.scratchWrite off n v
  | _ => bufferStore m release ea n v

/-- A load of `n` bytes (R108). -/
def load (ea : Word) (n : Nat) : M Nat := do
  let m ← checkAccess needR ea n
  loadChecked m ea n

/-- A store of `n` bytes (R109, R110). -/
def store (release : Option Nat) (ea : Word) (n v : Nat) : M Unit := do
  let m ← checkAccess needW ea n
  storeChecked m release ea n v

/-! ### Atomics (R115 to R117) -/

/-- Checks 1 to 4 of R106 for AMO, AMON and CAS: no window may be used (R107). -/
def checkAtomic (need : Need) (ea : Word) (n : Nat) : M Bool := do
  if ea.toNat % n != 0 then raise .align ea
  match space ea.toNat with
  | .mem =>
    let m ← checkRights ea need ea.toNat n
    checkLocks ea n
    return m
  | _ => raise .aperture ea

/-- Posted reductions of the core that have not performed, at a home slice (R288). -/
def pendingAmons (d : Dev) (pkg core slice : Nat) : Bool := (ownPosted d pkg core).any fun p => homeSlice p.at_.va == slice

/-- A store stands before an atomic to a line: it is to that line, or before a release to that line (R51). -/
def Core.standsBefore (c : Core) (line : Nat) (s : Store) : Bool :=
  s.va / 128 == line || c.inflight.any fun r => r.release.isSome && r.va / 128 == line && s.serial < r.serial

/-- Own released stores that stand before an atomic to a line perform, in order, once the posted reductions they follow have;
every one of them when the atomic releases. -/
def performBefore (all : Bool) (line : Nat) : M Unit := do
  let c ← theCore
  let pick (s : Store) : Bool := all || c.standsBefore line s
  let ps ← thePosted
  if (c.inflight.filter pick).any (·.follows ps) then block
  (c.inflight.filter pick).forM awaitStore
  modCore fun c => { c with inflight := c.inflight.filter fun s => !pick s }

/-- Accepted posted reductions of any core that stand in a line's order (R288, R290). -/
def lineBusy (d : Dev) (line : Nat) : Bool := d.pkgs.any fun k => k.2.home.accepted.any fun p => p.at_.va / 128 == line

/-- Where an atomic of this stream performs next: it waits for earlier posted reductions of its own at its slice, for every
one where it releases, and for those that stand before it in its line's order. -/
def atomicAt (ea : Word) (m release : Bool) : M (Nat × LineRef) := do
  if pendingAmons (← get) (← read).pkg (← read).core (homeSlice ea.toNat) || lineBusy (← get) (ea.toNat / 128) then block
  if release && !(← thePosted).isEmpty then block
  performBefore release (ea.toNat / 128)
  let me := (← read).core
  let dom := (← theCore).dom.toNat
  let l ← launchAt me
  placeInTurn (withM dom m ea.toNat fun m => locate ea ea true m ea.toNat) fun r =>
    atomicTurn l r.1 (homeSlice ea.toNat) ea.toNat me

end Sys2Proof.Machine
end

