-- ==== Sys2Proof/Machine/Operands.lean ====
section
/-!
DEFINITION. Sys2Proof/Machine/Operands.lean: every operand form: scalar specifiers, queue ports, predicates, guards and
branch bits, with the retention of popped entries (spec 04, R63, R64; spec 05, R84 to R87; spec 08, R170, R173); and
the operands each instruction names.
-/

namespace Sys2Proof.Machine

/-! ### Registers and predicates -/

/-- A scalar register of the stream, by number 0-27. -/
def readReg (n : Nat) : M Word := do
  match ← theStream with
  | .A => return (← theCore).a.toList.getD n 0
  | .X => return (← theCore).s.toList.getD n 0

def writeReg (n : Nat) (v : Word) : M Unit := do
  match ← theStream with
  | .A => modCore fun c => { c with a := c.a.setIfInBounds n v }
  | .X => modCore fun c => { c with s := c.s.setIfInBounds n v }

/-- A predicate of the stream; p0 reads 1. -/
def readPred (p : BitVec 3) : M Bool := do
  if p == 0 then return true
  match ← theStream with
  | .A => return (← theCore).pa.getLsbD p.toNat
  | .X => return (← theCore).px.getLsbD p.toNat

def setPredBit (v : BitVec 8) (p : Nat) (b : Bool) : BitVec 8 :=
  if b then v ||| BitVec.ofNat 8 (2 ^ p) else v &&& ~~~BitVec.ofNat 8 (2 ^ p)

/-- A write to a predicate; a write to p0 is discarded (R97). -/
def writePred (p : BitVec 3) (b : Bool) : M Unit := do
  if p == 0 then return
  match ← theStream with
  | .A => modCore fun c => { c with pa := setPredBit c.pa p.toNat b }
  | .X => modCore fun c => { c with px := setPredBit c.px p.toNat b }

/-- All predicates, bit 0 equal to 1. -/
def readPreds : M (BitVec 8) := do
  match ← theStream with
  | .A => return (← theCore).pa ||| 1
  | .X => return (← theCore).px ||| 1

def writePreds (v : BitVec 8) : M Unit := do
  match ← theStream with
  | .A => modCore fun c => { c with pa := v ||| 1 }
  | .X => modCore fun c => { c with px := v ||| 1 }

/-- R64: whether a guard holds. -/
def guardHolds (g : BitVec 4) : M Bool := do
  let p ← readPred (g.setWidth 3)
  return if g.getLsbD 3 then !p else p

/-! ### Queues -/

/-- The queues that scalar ports and vector moves name. -/
inductive Port where
  | lq0
  | lq1
  | lq2
  | sq0
  | sq1
  deriving DecidableEq, Repr

def Core.queue (c : Core) : Port → Queue QEntry
  | .lq0 => c.lq0
  | .lq1 => c.lq1
  | .lq2 => c.lq2
  | .sq0 => c.sq0
  | .sq1 => c.sq1

def Core.setQueue (c : Core) (p : Port) (q : Queue QEntry) : Core :=
  match p with
  | .lq0 => { c with lq0 := q }
  | .lq1 => { c with lq1 := q }
  | .lq2 => { c with lq2 := q }
  | .sq0 => { c with sq0 := q }
  | .sq1 => { c with sq1 := q }

/-- The head taken; an entry present since the last commit point is kept for restore (R170). -/
def Queue.pop {α : Type} (q : Queue α) : Option (α × Queue α) :=
  match q.ents with
  | [] => none
  | e :: rest =>
    if q.old == 0 then some (e, { q with ents := rest })
    else some (e, { ents := rest, old := q.old - 1, kept := q.kept ++ [e] })

def Queue.push {α : Type} (q : Queue α) (e : α) : Queue α := { q with ents := q.ents ++ [e] }

/-- A push that would pass the depth, the kept entries counted (R173). -/
def Queue.overflows {α : Type} (q : Queue α) (depth : Nat) : Bool := depth <= q.ents.length + q.kept.length

/-- At a commit point every entry present is marked retained, and none is kept (R170). -/
def Queue.commit {α : Type} (q : Queue α) : Queue α := { q with old := q.ents.length, kept := [] }

/-- RestoreQueues (R171). -/
def Queue.restore {α : Type} (q : Queue α) : Queue α :=
  let es := q.kept ++ q.ents.take q.old
  { ents := es, old := es.length, kept := [] }

/-- Entries given back to the head of a queue, oldest first (R84). -/
def Queue.unpop {α : Type} [BEq α] (q : Queue α) (es : List α) : Queue α :=
  let m := ((List.range (es.length + 1)).reverse.find? fun m => es.take m == q.kept.drop (q.kept.length - m)).getD 0
  let n := if m == 0 && q.old == q.ents.length && q.old != 0 then es.length else m
  { ents := es ++ q.ents, old := q.old + n, kept := q.kept.take (q.kept.length - m) }

/-- The entries a queue of vectors and scalars holds. -/
def queueDepth : Nat := 8

/-- Bits a branch queue holds. -/
def bqDepth : Nat := 16

def scalarEntry (v : Word) : QEntry :=
  { data := v.setWidth 1024, mask := 0xFFFFFFFF#32, kind := false, filled := true, tol := false, serial := 0 }

def popQ (p : Port) : M QEntry := do
  let c ← theCore
  match (c.queue p).pop with
  | some (e, q) =>
    if e.filled then
      modCore fun c => c.setQueue p q
      return e
    else block
  | none => block

/-- What VPOP takes from an entry (R227): kind 1 whole; of kind 0 bits [63:0] with zeros above, whatever a trap frame
put there (R177). -/
def QEntry.vector (e : QEntry) : VReg := if e.kind then e.data else e.data.extractLsb' 0 64 |>.setWidth 1024

/-- The lane mask that VMASK reads: a kind-0 entry's is all ones, whatever a trap frame put there (R228, R177). -/
def QEntry.lanes (e : QEntry) : BitVec 32 := if e.kind then e.mask else 0xFFFFFFFF#32

/-- The head entry, not popped (R228). -/
def peekQ (p : Port) : M QEntry := do
  match ((← theCore).queue p).ents with
  | e :: _ => if e.filled then return e else block
  | [] => block

def pushQ (p : Port) (e : QEntry) : M Unit := do
  let q := (← theCore).queue p
  if queueDepth <= q.ents.length then block
  if q.overflows queueDepth then
    implicitCommit
    modCore fun c => c.setQueue p { q with kept := [] }
  modCore fun c => c.setQueue p ((c.queue p).push e)

/-- The queue a source specifier 28-30 pops in a stream (Table 4.2). -/
def popPort : Strm → Nat → Option Port
  | .A, 28 => some .sq0
  | .A, 29 => some .sq1
  | .X, 28 => some .lq0
  | .X, 29 => some .lq1
  | .X, 30 => some .lq2
  | _, _ => none

/-- The queue a destination specifier 28-30 pushes in a stream (Table 4.2). -/
def pushPort : Strm → Nat → Option Port
  | .A, 28 => some .lq0
  | .A, 29 => some .lq1
  | .A, 30 => some .lq2
  | .X, 28 => some .sq0
  | .X, 29 => some .sq1
  | _, _ => none

/-- Src(r): a register, a pop, or 0. -/
def src (r : BitVec 5) : M Word := do
  if r.toNat < 28 then readReg r.toNat
  else match popPort (← theStream) r.toNat with
    | some p => return (← popQ p).data.setWidth 64
    | none => return 0

/-- Dst(r, v): a register, a push, or discarded. -/
def dst (r : BitVec 5) (v : Word) : M Unit := do
  if r.toNat < 28 then writeReg r.toNat v
  else match pushPort (← theStream) r.toNat with
    | some p => pushQ p (scalarEntry v)
    | none => return

/-- The lq port a number 0-2 names. -/
def lqPort : Nat → Port
  | 0 => .lq0
  | 1 => .lq1
  | _ => .lq2

def sqPort : Nat → Port
  | 0 => .sq0
  | _ => .sq1

/-! ### Branch queues -/

def bqPop : M Bool := do
  match ← theStream with
  | .A =>
    match (← theCore).bqA.pop with
    | some (b, q) => modCore fun c => { c with bqA := q }; return b
    | none => block
  | .X =>
    match (← theCore).bqX.pop with
    | some (b, q) => modCore fun c => { c with bqX := q }; return b
    | none => block

def Queue.pushBit (q : Queue Bool) (b : Bool) : Option (Queue Bool × Bool) :=
  if bqDepth <= q.ents.length then none
  else if q.overflows bqDepth then some (({ q with kept := [] } : Queue Bool).push b, true)
  else some (q.push b, false)

/-- BOUT's push into the other stream's bq. -/
def bqPush (b : Bool) : M Unit := do
  let c ← theCore
  match ← theStream with
  | .A =>
    match c.bqX.pushBit b with
    | some (q, full) => if full then implicitCommit
                        modCore fun c => { c with bqX := q }
    | none => block
  | .X =>
    match c.bqA.pushBit b with
    | some (q, full) => if full then implicitCommit
                        modCore fun c => { c with bqA := q }
    | none => block

/-! ### Vector registers -/

def readV (n : BitVec 6) : M VReg := return (← theCore).v.toList.getD n.toNat 0

def writeV (n : BitVec 6) (x : VReg) : M Unit := modCore fun c => { c with v := c.v.setIfInBounds n.toNat x }

def readE (n : Nat) : M VReg := return (← theCore).e.toList.getD n 0

def writeE (n : Nat) (x : VReg) : M Unit := modCore fun c => { c with e := c.e.setIfInBounds n x }

/-! ### What an instruction names -/

/-- The scalar sources of an instruction, in descending order of their fields' places (R84). AMO's RD is one, and its destination
too (R68, log 107). -/
def sourcesOf (i : Instr) : List (BitVec 5) :=
  match i with
  | .add _ a b | .sub _ a b | .and _ a b | .or _ a b | .xor _ a b | .shl _ a b | .shr _ a b | .sra _ a b
  | .min _ a b | .max _ a b | .minn _ a b | .maxn _ a b | .mul _ a b | .mulh _ a b | .mulhn _ a b | .div _ a b
  | .divn _ a b | .rem _ a b | .remn _ a b | .shadd1 _ a b | .shadd2 _ a b | .shadd3 _ a b | .andn _ a b
  | .cmp _ _ a b | .sel _ a b _ | .spawn _ a b | .bbset a b _ _ | .sysPlbinv a b | .sysEvcfg a b | .send _ a b _
  | .gath _ a b _ _ _ | .gathT _ a b _ _ _ | .btab _ a b => [a, b]
  | .addi _ a _ | .andi _ a _ | .ori _ a _ | .xori _ a _ | .shli _ a _ | .shri _ a _ | .srai _ a _ | .clz _ a
  | .ctz _ a | .popc _ a | .bswap _ a | .extb _ a | .exth _ a | .extw _ a | .extbn _ a | .exthn _ a | .extwn _ a
  | .cmpi _ _ a _ | .pmovFromReg a | .jr a | .twait _ a | .ld _ a _ _ _ | .lda _ a _ _ _ _ | .ldv _ a _
  | .cas _ a _ _ _ _ | .recv _ a _ | .recvT _ a _ | .csrw a _ | .sysCsinv a | .sysQflush a
  | .tdset _ a | .ldtab a | .bmv _ a | .blay _ a | .shpmk _ a | .shpdel a | .arcJoin _ a | .arcLeave _ a
  | .arcBar _ a => [a]
  | .stb v a _ _ | .sth v a _ _ | .stw v a _ _ | .std v a _ _ | .strel v a _ _ _ | .stv v a _ _ | .amon v a _ _ _ =>
    [v, a]
  | .scat v a b _ _ _ => [v, a, b]
  | .amo d a _ _ _ _ _ => [d, a]
  | .copy _ a b c | .copys _ a b c | .cfill _ a b c | .fxput _ a b c | .fxget _ a b c | .fxred _ a b c => [a, b, c]
  | .vsplat _ a _ | .vins _ a _ _ => [a.setWidth 5]
  | _ => []

/-- The scalar destinations of an instruction. -/
def destsOf (i : Instr) : List (BitVec 5) :=
  match i with
  | .add d _ _ | .sub d _ _ | .and d _ _ | .or d _ _ | .xor d _ _ | .shl d _ _ | .shr d _ _ | .sra d _ _
  | .min d _ _ | .max d _ _ | .minn d _ _ | .maxn d _ _ | .mul d _ _ | .mulh d _ _ | .mulhn d _ _ | .div d _ _
  | .divn d _ _ | .rem d _ _ | .remn d _ _ | .shadd1 d _ _ | .shadd2 d _ _ | .shadd3 d _ _ | .andn d _ _
  | .sel d _ _ _ | .spawn d _ _ | .send d _ _ _ | .addi d _ _ | .andi d _ _ | .ori d _ _ | .xori d _ _ | .shli d _ _
  | .shri d _ _ | .srai d _ _ | .lui d _ | .insh d _ _ | .clz d _ | .ctz d _ | .popc d _ | .bswap d _ | .extb d _
  | .exth d _ | .extw d _ | .extbn d _ | .exthn d _ | .extwn d _ | .pmovToReg d | .dbnz d _ | .twait d _ | .bbget d _
  | .bbpeek d _ | .ld d _ _ _ _ | .lda d _ _ _ _ _ | .ldv d _ _ | .gath d _ _ _ _ _ | .gathT d _ _ _ _ _
  | .amo d _ _ _ _ _ _ | .cas d _ _ _ _ _ | .fence d _ _ | .recv d _ _ | .recvT d _ _ | .csrr d _ | .bmv d _
  | .btab d _ _ | .blay d _ | .shpmk d _ | .copy d _ _ _ | .copys d _ _ _ | .cfill d _ _ _ | .fxput d _ _ _
  | .fxget d _ _ _ | .fxred d _ _ _ | .arcJoin d _ | .arcLeave d _ | .arcBar d _ => [d]
  | .vext d _ _ _ => [d.setWidth 5]
  | .vmaskC d _ => [d.setWidth 5]
  | _ => []

/-- The predicates an instruction writes. -/
def predsOf (i : Instr) : List Nat :=
  match i with
  | .cmp p _ _ _ | .cmpi p _ _ _ | .plog p _ _ _ => [p.toNat]
  | .pmovFromReg _ => [1, 2, 3, 4, 5, 6, 7]
  | _ => []

/-- A unit that would reserve into or push to a full queue blocks at issue, before it accesses anything (R86). -/
def roomFor (d : BitVec 5) : M Unit := do
  match pushPort (← theStream) d.toNat with
  | some p => if queueDepth <= ((← theCore).queue p).ents.length then block
  | none => return

/-- The queues an instruction pops in a stream. -/
def popsOf (s : Strm) (i : Instr) : List Port :=
  (sourcesOf i).filterMap (fun r => popPort s r.toNat) ++
    (match i with
     | .vpop _ a => if a.toNat < 3 then [lqPort a.toNat] else []
     | _ => [])

/-- The queues an instruction pushes in a stream; the CAS pair, the DBNZ counter and the INSH destination name only
registers (R63). -/
def pushesOf (s : Strm) (i : Instr) : List Port :=
  match i with
  | .vpush d _ => if d.toNat < 2 then [sqPort d.toNat] else []
  | .cas _ _ _ _ _ _ | .dbnz _ _ | .insh _ _ _ => []
  | i => (destsOf i).filterMap fun r => pushPort s r.toNat

/-- The registers 0-27 an instruction writes. -/
def writesOf (i : Instr) : List Nat := ((destsOf i).map (·.toNat)).filter (· < 28)

end Sys2Proof.Machine
end

