-- ==== Sys2Proof/Machine/Flags.lean ====
section
/-!
DEFINITION. Sys2Proof/Machine/Flags.lean: FFLAGS and RMODE: the sticky flags an instruction raises, the rounding
direction of arithmetic, and the resolution of a conversion's rounding field (spec 05, R132; spec 10, R204, R224).
-/

namespace Sys2Proof.Machine

/-- Flags are sticky: hardware only sets them (R132). -/
def raiseFlags (f : Flags) : M Unit := modCore fun c => { c with fflags := c.fflags ||| f }

/-- RMODE's direction for arithmetic: EF rounds as RNE (R204). -/
def arithRnd (mode : BitVec 3) : Rnd :=
  match mode.toNat with
  | 1 => .rtz
  | 2 => .rup
  | 3 => .rdn
  | _ => .rne

/-- What a vector instruction's arithmetic depends on. -/
def vEnv : M VEnv := do
  let c ← theCore
  return { rnd := arithRnd c.rmode, core := (← read).core }

/-- The mode a rounding field stands for (Table 4.24); `efOk` says that the pair admits error feedback (R224). -/
def resolveRnd (efOk : Bool) (r : BitVec 4) : M CvtRnd := do
  match r.toNat with
  | 0 => return .mode (.dir .rne)
  | 1 => return .mode (.dir .rtz)
  | 2 => return .mode (.dir .rup)
  | 3 => return .mode (.dir .rdn)
  | 4 =>
    let c ← theCore
    if c.rmode == 4 then return if efOk then .ef 0 else .mode (.dir .rne)
    else return .mode (.dir (arithRnd c.rmode))
  | 5 => return .mode .rneInf
  | n => return .ef (n - 8)

end Sys2Proof.Machine
end

