-- ==== Sys2Proof/Machine/Frames.lean ====
section
/-!
DEFINITION. Sys2Proof/Machine/Frames.lean: the trap frame's layout, written and read (Table 8.5), and the queue and
resume-point words it shares with CSRs (Tables 5.3, 8.4).
-/

namespace Sys2Proof.Machine

/-- A number of parts laid at byte offsets: offset, bytes, value. -/
def layOut (ps : List (Nat × Nat × Nat)) : Nat :=
  ps.foldl (fun n p => n + p.2.2 % 2 ^ (8 * p.2.1) * 2 ^ (8 * p.1)) 0

/-- `n` bytes at an offset of a little-endian number. -/
def bytesAt (v off n : Nat) : Nat := v / 2 ^ (8 * off) % 2 ^ (8 * n)

/-- QSTAT (Table 5.3). -/
def Core.qstat (c : Core) : Nat :=
  c.lq0.ents.length + c.lq1.ents.length * 2 ^ 4 + c.lq2.ents.length * 2 ^ 8 + c.sq0.ents.length * 2 ^ 12 +
    c.sq1.ents.length * 2 ^ 16 + c.bqA.ents.length * 2 ^ 20 + c.bqX.ents.length * 2 ^ 25

/-- The bits of a branch queue, the oldest at bit 0. -/
def bitsOf : List Bool → Nat
  | [] => 0
  | b :: bs => (if b then 1 else 0) + 2 * bitsOf bs

def boolsOf : Nat → Nat → List Bool
  | 0, _ => []
  | n + 1, v => (v % 2 == 1) :: boolsOf n (v / 2)

/-- EPA or EPX for an offset (Table 8.4). -/
def resumeWord (cur : Option Current) (off : Nat) : Word :=
  match cur with
  | some u =>
    let f := match u.form with
      | .portable => 0
      | .native k => 2 ^ 63 + k * 2 ^ 55
    BitVec.ofNat 64 (f + u.handle % 2 ^ 20 * 2 ^ 32 + off % 2 ^ 32)
  | none => BitVec.ofNat 64 (off % 2 ^ 32)

/-- SSTATE (Table 5.15). -/
def Core.sstate (c : Core) : Word :=
  BitVec.ofNat 64 ((if c.sMode then 1 else 0) + (if c.pMode then 2 else 0) + c.rcount.toNat * 2 ^ 8)

/-- The pending-transfer words at 0x228 and 0x230. Only the branch of a stream that is taken is pending. -/
def pendWords (a x : Option Branch) (abar : Bool) : Nat × Nat :=
  let one (b : Option Branch) : Nat × Nat :=
    match b with
    | some ⟨n, some t⟩ => (n % 4 + 4, t.toNat % 2 ^ 32)
    | _ => (0, 0)
  ((one a).1 + (one x).1 * 2 ^ 8 + (if abar then 2 ^ 16 else 0), (one a).2 + (one x).2 * 2 ^ 32)

/-- The 0x90 bytes of a queue's entries (Table 8.5, 0x240 onwards). -/
def queueParts (base : Nat) : Nat → List QEntry → List (Nat × Nat × Nat)
  | _, [] => []
  | j, e :: es =>
    (base + 0x90 * j, 128, e.data.toNat) ::
      (base + 0x90 * j + 128, 8, e.mask.toNat + (if e.kind then 2 ^ 32 else 0)) :: queueParts base (j + 1) es

def regParts (base : Nat) : Nat → List Word → List (Nat × Nat × Nat)
  | _, [] => []
  | j, w :: ws => (base + 8 * j, 8, w.toNat) :: regParts base (j + 1) ws

/-- The barrier load of the A stream is counted. -/
def Core.abar (c : Core) : Bool :=
  match c.lineWait with
  | some (.counted _) => true
  | some (.fired _ _) => true
  | some .marked => true
  | _ => false

/-- Table 8.5: the frame of a core's state, the CSRs already at their values after entry; `epa` and `epx` are the
resume points. -/
def Core.frameParts (c : Core) : List (Nat × Nat × Nat) :=
  let p := pendWords c.strA.pend c.strX.pend c.abar
  regParts 0 0 c.a.toList ++ regParts 0xE0 0 c.s.toList ++
    [(0x1C0, 8, (c.pa ||| 1).toNat + (c.px ||| 1).toNat * 2 ^ 8), (0x1C8, 8, c.cause.toNat), (0x1D0, 8, c.eaddr.toNat),
     (0x1D8, 8, c.epa.toNat), (0x1E0, 8, c.epx.toNat), (0x1E8, 8, c.sstate.toNat), (0x1F0, 8, c.qstat),
     (0x1F8, 8, bitsOf c.bqA.ents + bitsOf c.bqX.ents * 2 ^ 16), (0x200, 16, c.bb.buf.toNat),
     (0x210, 8, c.bb.fc + (if c.bb.o then 2 ^ 8 else 0) + (if c.bb.m then 2 ^ 9 else 0)), (0x218, 8, c.bb.rp.toNat),
     (0x220, 8, c.bb.ep.toNat), (0x228, 8, p.1), (0x230, 8, p.2)] ++
    queueParts 0x240 0 c.lq0.ents ++ queueParts (0x240 + 0x480) 0 c.lq1.ents ++
    queueParts (0x240 + 0x900) 0 c.lq2.ents ++ queueParts (0x240 + 0xD80) 0 c.sq0.ents ++
    queueParts (0x240 + 0x1200) 0 c.sq1.ents

def frameBytes : Nat := 0x1900

/-- A queue of `n` entries read from a frame. -/
def queueOf (v base : Nat) (lq : Bool) (n : Nat) : Queue QEntry :=
  let es := (List.range n).map fun j =>
    let d := bytesAt v (base + 0x90 * j + 128) 8
    ({ data := BitVec.ofNat 1024 (bytesAt v (base + 0x90 * j) 128)
       mask := if lq then BitVec.ofNat 32 d else 0xFFFFFFFF#32
       kind := d / 2 ^ 32 % 2 == 1, filled := true, tol := false, serial := 0 } : QEntry)
  { ents := es, old := es.length, kept := [] }

/-- The occupancies of a QSTAT word. -/
def qstatFields (q : Nat) : List Nat :=
  [natBits q 3 0, natBits q 7 4, natBits q 11 8, natBits q 15 12, natBits q 19 16, natBits q 24 20, natBits q 29 25]

/-- The queues, predicates, registers and BB of a frame (R177). -/
def Core.fromFrame (c : Core) (v : Nat) : Core :=
  let w (off : Nat) : Word := BitVec.ofNat 64 (bytesAt v off 8)
  let q := bytesAt v 0x1F0 8
  let b := bytesAt v 0x1F8 8
  let d := bytesAt v 0x210 8
  let p := bytesAt v 0x228 8
  let t := bytesAt v 0x230 8
  let pend (n av off : Nat) : Option Branch :=
    if av == 1 then some { left := n, target := some (BitVec.ofNat 64 off) } else none
  { c with
    a := Vector.ofFn fun i => w (8 * i.val)
    s := Vector.ofFn fun i => w (0xE0 + 8 * i.val)
    pa := BitVec.ofNat 8 (bytesAt v 0x1C0 1) ||| 1
    px := BitVec.ofNat 8 (bytesAt v 0x1C1 1) ||| 1
    cause := w 0x1C8
    eaddr := w 0x1D0
    epa := w 0x1D8
    epx := w 0x1E0
    lq0 := queueOf v 0x240 true (natBits q 3 0)
    lq1 := queueOf v (0x240 + 0x480) true (natBits q 7 4)
    lq2 := queueOf v (0x240 + 0x900) true (natBits q 11 8)
    sq0 := queueOf v (0x240 + 0xD80) false (natBits q 15 12)
    sq1 := queueOf v (0x240 + 0x1200) false (natBits q 19 16)
    bqA := { ents := boolsOf (natBits q 24 20) (b % 2 ^ 16), old := natBits q 24 20, kept := [] }
    bqX := { ents := boolsOf (natBits q 29 25) (b / 2 ^ 16 % 2 ^ 16), old := natBits q 29 25, kept := [] }
    bb := { buf := BitVec.ofNat 128 (bytesAt v 0x200 16), fc := natBits d 7 0, rp := w 0x218, ep := w 0x220,
            o := natBits d 8 8 == 1, m := natBits d 9 9 == 1 }
    strA := { off := bytesAt v 0x1D8 4, pend := pend (natBits p 1 0) (natBits p 2 2) (t % 2 ^ 32), joint := false }
    strX := { off := bytesAt v 0x1E0 4, pend := pend (natBits p 9 8) (natBits p 10 10) (t / 2 ^ 32), joint := false } }

/-- The reserved fields of a frame are zero and its counts are within their limits (R177). -/
def frameReservedOk (v : Nat) : Bool :=
  let z (off hi lo : Nat) : Bool := natBits (bytesAt v off 8) hi lo == 0
  let q := bytesAt v 0x1F0 8
  z 0x1C0 63 16 && z 0x1C8 63 18 && z 0x1D8 54 52 && z 0x1E0 54 52 && z 0x1E8 63 16 && z 0x1E8 7 2 && z 0x1F0 63 30 &&
    z 0x1F8 63 32 && z 0x210 63 10 && natBits (bytesAt v 0x210 8) 7 0 <= 128 && z 0x228 63 17 && z 0x228 15 11 &&
    z 0x228 7 3 && z 0x238 63 0 && bytesAt v 0x18C0 64 == 0 && ((qstatFields q).take 5).all (· <= 8) &&
    ((qstatFields q).drop 5).all (· <= 16) &&
    ((List.range 5).all fun k => (List.range 8).all fun j =>
      bytesAt v (0x240 + 0x480 * k + 0x90 * j + 132) 4 < 2 && bytesAt v (0x240 + 0x480 * k + 0x90 * j + 136) 8 == 0)

end Sys2Proof.Machine
end

