-- ==== Sys2Proof/Machine/Strands.lean ====
section
/-!
DEFINITION. Sys2Proof/Machine/Strands.lean: what a core's end of a strand asks of the schedulers and control cores:
records in memory, queues, status words, host events, guilt and fault reports (spec 01, R21 to R30; spec 18, R331,
R332, R338, R342, R343, R360; spec 22, R393, R394, R398).
-/

namespace Sys2Proof.Machine

/-! ### Memory accesses of schedulers and control cores -/

/-- A read by a scheduler or control core of bytes in memory: the value, or the cause it met. -/
def sysRead (va n : Nat) : M (Except Cause Nat) := do
  match ← attempt (readBytes 0 0 true va n) with
  | .ok v => return .ok v
  | .error .block => block
  | .error (.halt f) => throw (.halt f)
  | .error (.raise c _) => return .error c
  | .error (.restart c _ _) => return .error c

/-- The rights of a domain over `n` bytes for an agent outside the cores: whether they grant M. The windows are no memory of
such an agent and are never checked against the DRT (R309): an access there meets APERTURE. -/
def rightsOver (need : Need) (dom va n : Nat) : M Bool := do
  if windowBase < va + n then raise .aperture 0
  (pagesOf va n).foldlM (fun m p => return m && (← checkRightsFresh need dom p)) true

/-- A read with a domain's rights (R308); a missing right is PROT. -/
def sysReadFor (need : Need) (dom va n : Nat) : M (Except Cause Nat) := do
  match ← attempt (do
      let m ← rightsOver need dom va n
      readBytes 0 0 m va n) with
  | .ok v => return .ok v
  | .error .block => block
  | .error (.halt f) => throw (.halt f)
  | .error (.raise c _) => return .error c
  | .error (.restart c _ _) => return .error c

def sysReadAs (dom va n : Nat) : M (Except Cause Nat) := sysReadFor needR dom va n

/-! ### Launch status words (Table 18.6) -/

/-- R28: flags ORed, counts added with saturation, the cause's maximum. -/
def combineStatus (a b : Nat) : Nat :=
  let sat (x m : Nat) : Nat := if m < x then m else x
  let ndone := sat (natBits a 63 32 + natBits b 63 32) 0xFFFFFFFF
  let nbad := sat (natBits a 31 16 + natBits b 31 16) 0xFFFF
  let cause := Nat.max (natBits a 15 8) (natBits b 15 8)
  ndone * 2 ^ 32 + nbad * 2 ^ 16 + cause * 2 ^ 8 + (natBits a 7 0 ||| natBits b 7 0)

def statusFault : Nat := 0x01
def statusCancelled : Nat := 0x02
def statusToken : Nat := 0x04
def statusInput : Nat := 0x08
def statusLate : Nat := 0x10
def statusLoopCap : Nat := 0x20
def statusCover : Nat := 0x40
def statusRecon : Nat := 0x80

/-- The contribution of a strand with a STATUS (R343). -/
def strandWord (done : Bool) (st : BitVec 16) : Nat :=
  let c := natBits st.toNat 7 0
  (if done && st == 0 then 2 ^ 32 else 0) + (if st == 0 then 0 else 2 ^ 16) + c * 2 ^ 8 +
    (if c == 0 then 0 else statusFault) + (if st.getLsbD 8 then statusCancelled else 0) +
    (if st.getLsbD 9 then statusToken else 0) + (if st.getLsbD 10 then statusInput else 0)

/-! ### Host events, guilt and reports (R393, R394, R398) -/

def eventBytes (e : Event) (time : Nat) : Nat :=
  e.kind + e.code * 2 ^ 8 + e.ring * 2 ^ 16 + e.index * 2 ^ 20 + Nat.min e.guilt 255 * 2 ^ 32 + e.arg.toNat * 2 ^ 64 +
    e.dom * 2 ^ 128 + e.core * 2 ^ 144 + e.report % 2 ^ 32 * 2 ^ 160 + time * 2 ^ 192

def ctxAt (c : Nat) : M (Option HostCtx) := return findAt (← thePkg).ctl.ctxs c

def modCtx (c : Nat) (f : HostCtx → HostCtx) : M Unit :=
  modCtl fun k => { k with ctxs := k.ctxs.map fun e => if e.1 == c then (e.1, f e.2) else e }

def blankEvent (kind : Nat) : Event :=
  { kind := kind, code := 0, ring := 0, index := 0, arg := 0, dom := 0, core := 0, report := 0, guilt := 0 }

/-- Waiting events are written while the ring has room, the oldest first; `n` bounds how many. An event page that
cannot be written is a queue error (R394), and its event is lost. -/
def writeEvents (c : Nat) : Nat → M Unit
  | 0 => return
  | n + 1 => do
    match ← ctxAt c with
    | none => return
    | some x =>
      match x.evWaiting with
      | [] => return
      | e :: rest =>
        if 2 ^ x.loge <= x.evTail - x.evHead then return
        let ok ← sysWriteBy 0 (x.evVa + 32 * (x.evTail % 2 ^ x.loge)) 32 (eventBytes e (← deviceTime))
        if ok then modCtx c fun y => { y with evTail := y.evTail + 1, evWaiting := rest, interrupt := true }
        else
          let bars := !x.barred && x.limit < x.guilt + 1
          modCtx c fun y => { y with
            evWaiting := rest ++ (if bars then [{ blankEvent 5 with guilt := x.guilt + 1 }] else [])
            guilt := y.guilt + 1, barred := y.barred || bars }
        writeEvents c n

/-- An event for a context's ring; it waits behind those that found the ring full. -/
def postEvent (c : Nat) (e : Event) : M Unit := do
  modCtx c fun x => { x with evWaiting := x.evWaiting ++ [{ e with guilt := x.guilt }] }
  match ← ctxAt c with
  | some x => writeEvents c (x.evWaiting.length + 1)
  | none => return

/-- A context whose count is above its LIMIT is barred, with one event of KIND 5 (CONTEXT_BARRED). -/
def barIfOver (c : Nat) : M Unit := do
  match ← ctxAt c with
  | none => return
  | some x =>
    if x.limit < x.guilt && !x.barred then
      modCtx c fun y => { y with barred := true }
      postEvent c (blankEvent 5)

/-- A refusal or error of a context (R394): its event is written with the guilt it adds. -/
def guiltEvent (c : Nat) (e : Event) : M Unit := do
  modCtx c fun y => { y with guilt := y.guilt + 1 }
  postEvent c e
  barIfOver c

/-- One more guilt, with no event of its own. -/
def addGuilt (c : Nat) : M Unit := do
  modCtx c fun y => { y with guilt := y.guilt + 1 }
  barIfOver c

/-- The context a domain is bound to. -/
def ctxOfDom (dom : Nat) : M (Option Nat) := return (findAt (← thePkg).ctl.doms dom).map (·.ctx)

/-- FAULT_REPORT (R169, R398): a report opened, and one event of KIND 2 to the context that owns the domain. -/
def openReport (cause : Cause) (ea va : Word) (dom core : Nat) (who : ReportOf) : M Nat := do
  let n := (← thePkg).ctl.nextReport
  modCtl fun k => { k with nextReport := (n + 1) % 2 ^ 32, reports := k.reports ++
    [{ id := n, dom := dom, cause := cause, ea := ea, who := who }] }
  match ← ctxOfDom dom with
  | some c => postEvent c { blankEvent 2 with code := cause.code, arg := va, dom := dom, core := core, report := n }
  | none => return n
  return n

/-! ### Strand records (Table 1.6) -/

/-- LINK: the save slot and image number a strand holds (R401, R403). -/
def linkOf (k : Ctl) (va : Nat) : Nat :=
  match k.saves.find? fun s => s.strand == va with
  | some s => s.imgId.getD 0 + s.slot * 2 ^ 16
  | none => 0

/-- A strand in this state has ended. -/
def StrandState.ended : StrandState → Bool
  | .done => true
  | .cancelled => true
  | _ => false

/-- The record of a strand (Table 1.6); its STATUS is written when it ends (R342). -/
def Strand.record (s : Strand) (link : Nat) : Nat :=
  let bit (b : Bool) (n : Nat) : Nat := if b then 2 ^ n else 0
  (s.handle + s.landing * 2 ^ 20 + s.dom * 2 ^ 32 + s.prio * 2 ^ 45 + s.state.code * 2 ^ 51 + bit s.gang 56 +
      bit s.probe 57 + bit s.replayPin 58 + bit s.prot 59) +
    s.frame.toNat * 2 ^ 64 + s.compl.toNat * 2 ^ 128 + s.arg0.toNat * 2 ^ 192 + s.arg1.toNat * 2 ^ 256 +
    s.indecl.toNat * 2 ^ 320 + (s.launch + s.island * 2 ^ 32 + (if s.state.ended then s.status.toNat else 0) * 2 ^ 48) * 2 ^ 384 + link * 2 ^ 448

def findStrand (va : Nat) : M (Option Strand) := return (← thePkg).sched.strands.find? fun s => s.va == va

/-- The record as it stands is written to memory. -/
def writeRecord (va : Nat) : M Unit := do
  match ← findStrand va with
  | some s => sysWrite va 64 (s.record (linkOf (← thePkg).ctl va))
  | none => return

/-- A strand changed where its record shows nothing of it. -/
def modStrand (va : Nat) (f : Strand → Strand) : M Unit :=
  modSched fun x => { x with strands := x.strands.map fun s => if s.va == va then f s else s }

/-- A strand changed, and its record written. -/
def setStrand (va : Nat) (f : Strand → Strand) : M Unit := do
  modStrand va f
  writeRecord va

/-- The strand is an item that an idle core may take: ready, pre-empted at a slice end, or new with declared inputs. -/
def Strand.waits (s : Strand) : Bool :=
  s.onCore.isNone && (match s.state with
    | .ready => true
    | .preempted => !s.hostStop
    | .suspInput => s.indecl != 0 && !s.started && s.savedAt.isNone
    | _ => false)

def Ctl.capOf (k : Ctl) (dom : Nat) : Nat := ((findAt k.doms dom).map (·.cap)).getD 0

/-- An item's effective level (R337). -/
def Ctl.level (k : Ctl) (s : Strand) : Nat := Nat.max (k.capOf s.dom) (s.prio - s.aged)

/-- A millisecond. -/
def ageTime : Nat := 1000000

/-- The waiting strand whose level falls next, if that instant has come. -/
def Sched.ageNext (x : Sched) (k : Ctl) (t : Nat) : Option Strand :=
  let due (s : Strand) : Nat := s.queued + (s.aged + 1) * ageTime
  let ripe := x.strands.filter fun s => s.waits && k.capOf s.dom < s.prio - s.aged && due s <= t
  (sortKey (fun s => due s) (sortKey (fun s => s.order) ripe)).head?

/-- Levels fall in the order of their instants; each fall takes the item to the tail of its new level. -/
def Sched.age (k : Ctl) (t : Nat) : Nat → Sched → Sched
  | 0, x => x
  | n + 1, x =>
    match x.ageNext k t with
    | none => x
    | some s =>
      Sched.age k t n { x with
        nextOrder := x.nextOrder + 1
        strands := x.strands.map fun o => if o.va == s.va then { o with aged := o.aged + 1, order := x.nextOrder } else o }

/-- PRIORITY_AGEING (R337): every fall of a level that is due. -/
def priorityAgeing : M Unit := do
  let t ← now
  let k := (← thePkg).ctl
  modSched fun x => x.age k t (48 * x.strands.length)

/-- The tail of the queue for the strand's PRIO, w from 0 (R338); the falls that came before are carried out first. -/
def enqueue (va : Nat) : M Unit := do
  priorityAgeing
  let t ← now
  modSched fun x => { x with
    nextOrder := x.nextOrder + 1
    strands := x.strands.map fun s => if s.va == va then { s with queued := t, aged := 0, order := x.nextOrder } else s }

def findLaunch (id : Nat) : M (Option Launch) := return (← thePkg).sched.launches.find? fun l => l.id == id

def setLaunchAt (p id : Nat) (f : Launch → Launch) : M Unit :=
  modPkgAt p fun k => { k with sched := { k.sched with launches := k.sched.launches.map fun l => if l.id == id then f l else l } }

def setLaunch (id : Nat) (f : Launch → Launch) : M Unit := do setLaunchAt (← read).pkg id f

/-- The launch of a strand is torn down (R360). -/
def strandTorn (s : Strand) : M Bool := do
  let ls := (← pkgAt s.lpkg).sched.launches
  return ((ls.find? fun l => l.id == s.launch).map (·.torn)).getD false

/-- A word added to a launch's tree slot, or to the scheduler's own share where there is no slot. -/
def contribute (p launch : Nat) (slot : Option Nat) (w : Nat) : M Unit :=
  setLaunchAt p launch fun l =>
    match slot with
    | some c =>
      if l.tree.any fun n => n.core == c then
        { l with tree := l.tree.map fun n => if n.core == c then { n with word := combineStatus n.word w } else n }
      else { l with extra := combineStatus l.extra w }
    | none => { l with extra := combineStatus l.extra w }

/-- R254: when the last strand of a domain has ended, the slots it owns are cleared. -/
def clearSlots (dom : Nat) : M Unit := do
  let x ← thePkg
  if x.sched.strands.all fun s => s.dom != dom || s.state.ended then
    modPkg fun y => { y with bankSlots := y.bankSlots.filter fun e => e.2.owner != dom }

/-- R129: the messages of a domain on channels 1-15 of a core, parked ones too, are discarded once no strand of it is saved
or runs there. -/
def dropMessages (core dom : Nat) : M Unit := do
  let x ← thePkg
  if x.sched.strands.all fun s => s.dom != dom || s.state.ended || (s.savedAt != some core && s.onCore != some core) then
    modCoreAt (← read).pkg core fun c => { c with
      inbox := c.inbox.filter fun m => m.ch == 0 || m.dom != dom }

/-- The messages of an ended strand's domain are discarded where it ran and where it was saved. -/
def dropMessagesOf (s : Strand) : M Unit := do
  (s.onCore.toList ++ s.savedAt.toList).forM fun c => dropMessages c s.dom

/-- The save slot and image number of an ended strand are freed (R401, R403). -/
def freeSave (va : Nat) : M Unit :=
  modCtl fun k =>
    { k with
      saves := k.saves.filter fun s => s.strand != va
      counters := k.counters.map fun e =>
        if k.saves.any fun s => s.strand == va && s.imgId == some e.1 then (e.1, { e.2 with used := false })
        else e }

/-- The quad whose L1s are fused for a gang of a launch is split. Each fusion and split writes back and invalidates its four
L1s (R335); the model's L1s are never dirty. -/
def splitGang (launch gang : Nat) : M Unit :=
  modPkg fun x =>
    let mine (f : Nat × Nat × Nat) : Bool := f.2 == (launch, gang)
    let qs := (x.home.fusedQuads.filter mine).map (·.1)
    { x with home := { x.home with
      fusedQuads := x.home.fusedQuads.filter fun f => !mine f
      l1 := x.home.l1.filter fun e => !qs.contains (e.1 / 4) } }

/-- A strand's image is written, or it has ended: the PREEMPTs of a package that waited for it tell their hosts (R407). -/
def preemptWrittenAt (me va : Nat) : M Unit := do
  let ps := (← thePkg).ctl.preempts.map fun p => { p with left := p.left.filter (· != (me, va)) }
  modCtl fun k => { k with preempts := ps.filter fun p => !p.left.isEmpty }
  (ps.filter fun p => p.left.isEmpty).forM fun p =>
    postEvent p.ctx { blankEvent 6 with ring := p.ring, index := p.index, arg := BitVec.ofNat 64 p.launch }

def preemptWritten (va : Nat) : M Unit := do
  let me := (← read).pkg
  let d ← get
  d.pkgs.forM fun k => atCore k.1 0 .A (preemptWrittenAt me va)

/-- A strand ends: DONE, or CANCELLED when its launch is torn down first (R361); its STATUS, its contribution to the
completion tree, and what its end frees. -/
def endStrand (va : Nat) (cause : Nat) (status : BitVec 16) (cancel : Bool) : M Unit := do
  match ← findStrand va with
  | none => return
  | some s =>
    let st : BitVec 16 := s.status ||| status ||| BitVec.ofNat 16 cause ||| (if cancel then 0x100#16 else 0#16)
    setStrand va fun s => { s with state := if cancel then .cancelled else .done, status := st, miss := none, onCore := none }
    contribute s.lpkg s.launch s.slot (strandWord (!cancel) st)
    freeSave va
    clearSlots s.dom
    preemptWritten va
    match s.gangId with
    | some g =>
      let others := (← thePkg).sched.strands.any fun o =>
        o.launch == s.launch && o.gangId == s.gangId && !o.state.ended
      if !others then splitGang s.launch g
    | none => return

/-- The token slots freed, as at an end that drains none: their generations move on, and commands still running report to
nobody. -/
def Core.untokened (c : Core) : Core :=
  { c with
    tokens := []
    tokenGens := c.tokens.foldl (fun g t => g.setIfInBounds t.1 (g.toList.getD t.1 0 + 1)) c.tokenGens
    cmds := c.cmds.map fun k => { k with slot := none } }

/-- The core leaves its strand and returns to the dock loop (R162, R163, R172). -/
def Core.released (c : Core) : Core :=
  { c.untokened with
    mode := .idle, lineWait := none, nest := 0, heldWaits := [], sMode := true, byHost := false
    lastDom := some c.dom.toNat, sending := none, wait0 := [], wait1 := [], ckpt := none, restartable := false, atLanding := none, sbuf := []
    strA := { c.strA with pend := none, joint := false }
    strX := { c.strX with pend := none, joint := false } }

def releaseCore : M Unit := modCore Core.released

/-- The core's strand ends DONE with a cause (R163, R174), its stores performed (R359). -/
def endHere (cause : Nat) : M Unit := do
  leaveReleased
  let c ← theCore
  let va := c.strand.toNat
  let s ← findStrand va
  let torn ← match s with
    | some s => strandTorn s
    | none => pure false
  endStrand va cause 0 torn
  dropMessages (← read).core c.dom.toNat
  match s.bind (·.savedAt) with
  | some old => dropMessages old c.dom.toNat
  | none => pure ()

/-- The core is free of its strand. -/
def freeCore : M Unit := do
  releaseCore
  modCore fun c => { c with arcstat := 0, strand := 0 }

/-- The core's strand is retired with a cause, and the core is free. -/
def retire (cause : Nat) : M Unit := do
  endHere cause
  freeCore

end Sys2Proof.Machine
end

