-- ==== Sys2Proof/Machine/Standing.lean ====
section
/-!
DEFINITION. Sys2Proof/Machine/Standing.lean: a core's standing in its archipelago, the firing of pod barriers, LEAVE, and the
end of a gang's strand, which is held until the other islands have left (spec 20, R380 to R383, R388).
-/

namespace Sys2Proof.Machine

/-! ### Standing (R380) -/

/-- A field [hi:lo] of a word replaced. -/
def setField (w : Word) (hi lo v : Nat) : Word :=
  let n := w.toNat
  BitVec.ofNat 64 (n % 2 ^ lo + v % 2 ^ (hi + 1 - lo) * 2 ^ lo + n / 2 ^ (hi + 1) * 2 ^ (hi + 1))

/-- ARCSTAT of the core, and the schedulers' copy of it, which a save carries. -/
def setArcstat (w : Word) : M Unit := do
  let va := (← theCore).strand.toNat
  modCore fun c => { c with arcstat := w }
  modStrand va fun s => { s with arcstat := w }

def modArc (id : Nat) (f : Archipelago → Archipelago) : M Unit :=
  modify fun d => { d with arcs := d.arcs.map fun a => if a.id == id then f a else a }

/-- The strand of an island core. -/
def Dev.islandStrand (d : Dev) (isl : Island) (k : Nat) : Option Strand :=
  (d.pkg isl.pkg).sched.strands.find? fun s => s.va == isl.strands.getD k 0

/-- A core of an island has left: its WSTATE is 11, or its strand has ended (R382, R383). -/
def Dev.coreLeft (d : Dev) (isl : Island) (k : Nat) : Bool :=
  isl.departed || (match d.islandStrand isl k with
    | some s => s.state.ended || arcState s.arcstat == 3
    | none => true)

def Dev.islandLeft (d : Dev) (isl : Island) : Bool := (List.range isl.cores.length).all fun k => d.coreLeft isl k

/-- The members of a strand's gang that have not ended, with their packages: a quad gang, an archipelago, or the strand
alone (R335, R379). -/
def Dev.gangOf (d : Dev) (p : Nat) (s : Strand) : List (Nat × Strand) :=
  let on (q : Nat) (va : Nat) : Option (Nat × Strand) :=
    ((d.pkg q).sched.strands.find? fun o => o.va == va && o.gang && !o.state.ended).map fun o => (q, o)
  if s.gang then
    match d.arcs.find? fun a => a.islands.any fun i => i.pkg == p && i.strands.contains s.va with
    | some a => a.islands.flatMap fun i => i.strands.filterMap (on i.pkg)
    | none => [(p, s)]
  else if s.gangId.isSome then
    ((d.pkg p).sched.strands.filter fun o => o.launch == s.launch && o.gangId == s.gangId && !o.state.ended).map fun o => (p, o)
  else [(p, s)]

/-! ### Pod barriers (R382) -/

/-- The key of a strand's saved generation for a pod barrier. -/
def podKey (j : Nat) : Nat := 0x40000 + j

/-- A waiting ARC.BAR, at its core or saved with its strand, learns the generation. -/
def podWake (isl : Island) (k j : Nat) (g : BitVec 48) : M Unit := do
  let c := isl.cores.getD k 0
  let va := isl.strands.getD k 0
  let x ← coreAt isl.pkg c
  if x.strand.toNat == va && x.lineWait == some (.podCounted j) then
    modCoreAt isl.pkg c fun y => { y with lineWait := some (.podFired j g) }
  else modPkgAt isl.pkg fun p => { p with savedGens := p.savedGens ++ [(va, podKey j, g.setWidth 64)] }

/-- Every island core that has not left has arrived. -/
def Dev.podDue (d : Dev) (a : Archipelago) (b : PodBarrier) : Bool :=
  !b.arrived.isEmpty && (List.range a.islands.length).all fun i =>
    match a.islands[i]? with
    | some isl => (List.range isl.cores.length).all fun k => d.coreLeft isl k || b.arrived.contains (i, k)
    | none => true

def firePod (id j : Nat) : M Unit := do
  let d ← get
  match d.arcs.find? fun a => a.id == id with
  | none => return
  | some a =>
    let b := a.barriers.toList.getD j PodBarrier.reset
    if d.podDue a b then
      modArc id fun a => { a with barriers := a.barriers.setIfInBounds j { gen := b.gen + 1, arrived := [] } }
      b.arrived.forM fun p =>
        match a.islands[p.1]? with
        | some isl => podWake isl p.2 j (b.gen + 1)
        | none => return

/-- LEAVE (R381, R383). -/
def leaveArc (id : Nat) : M Unit := do
  let w := (← theCore).arcstat
  let noExp := arcState w == 1
  let w1 := setField (setField w 49 48 3) 56 56 (if noExp then 1 else 0)
  setArcstat (if noExp then setField w1 55 50 0 else w1)
  (List.range 4).forM fun j => firePod id j

/-- The running strand is a gang member of an archipelago. -/
def gangMember : M (Option (Archipelago × Nat × Nat)) := return (← get).arcOf (← read).pkg (← read).core

/-! ### Ends that are held (R383, R388) -/

/-- The end of a gang's strand: its core leaves its archipelago, if it has not, and the strand is held with its cause until
every other island has left. -/
def holdEnd (a : Archipelago) (i k cause : Nat) : M Unit := do
  if arcState (← theCore).arcstat != 3 then leaveArc a.id
  modArc a.id fun a =>
    match a.islands[i]? with
    | some isl => { a with islands := a.islands.set i { isl with held := isl.held ++ [(k, cause)] } }
    | none => a
  modCore fun c => { c with mode := .held, strA := { c.strA with joint := false }, strX := { c.strX with joint := false } }

/-- An island holds an end of a core no more. -/
def dropHeld (id i k : Nat) : M Unit :=
  modArc id fun a =>
    match a.islands[i]? with
    | some isl => { a with islands := a.islands.set i { isl with held := isl.held.filter fun q => q.1 != k } }
    | none => a

/-- A held end retires; its core and its scratchpad are kept until the island departs (R383). -/
def retireHeld (isl : Island) (e : Nat × Nat) : M Unit := atCore isl.pkg (isl.cores.getD e.1 0) .A (endHere e.2)

/-- An island whose strands have all ended departs: its cores are free and its window span is gone (R383). -/
def departIsland (id i : Nat) : M Unit := do
  let d ← get
  match (d.arcs.find? fun a => a.id == id).bind fun a => a.islands[i]? with
  | none => return
  | some isl =>
    let cores := List.range isl.cores.length
    let ended (k : Nat) : Bool :=
      match d.islandStrand isl k with
      | some s => s.state.ended
      | none => true
    if !isl.departed && cores.all ended then
      cores.forM fun k => do
        let c := isl.cores.getD k 0
        let x ← coreAt isl.pkg c
        if x.mode == .held && x.strand.toNat == isl.strands.getD k 0 then atCore isl.pkg c .A freeCore
      modArc id fun a => { a with islands := a.islands.set i { isl with held := [], departed := true } }

/-- The island of a strand, with its archipelago. -/
def Dev.islandOf (d : Dev) (pkg va : Nat) : Option (Nat × Nat) :=
  d.arcs.findSome? fun a =>
    (a.islands.findIdx? fun i => i.pkg == pkg && !i.departed && i.strands.contains va).map fun i => (a.id, i)

/-- The island of a strand of this package that has ended departs where it was the last (R383). -/
def departWith (va : Nat) : M Unit := do
  match (← get).islandOf (← read).pkg va with
  | some (id, i) => departIsland id i
  | none => return

/-- A strand ends away from its core, or once that is free: its domain's messages go with it (R129), and its island if it was
the last (R383). -/
def endAway (s : Strand) (cause : Nat) (status : BitVec 16) (cancel : Bool) : M Unit := do
  endStrand s.va cause status cancel
  dropMessagesOf s
  departWith s.va

/-- A running strand that a fault ends (R174): a gang's end is held as its DONE is (R388). -/
def retireFault (cause : Nat) : M Unit := do
  match ← gangMember with
  | some (a, i, k) => holdEnd a i k cause
  | none => retire cause

/-! ### Suspension points (R156, R175, R360) -/

/-- Whether the launch of the core's strand has been torn down. -/
def tornHere : M Bool := do
  match ← findStrand (← theCore).strand.toNat with
  | some s => strandTorn s
  | none => return false

/-- The core's strand ends at a suspension point, CANCELLED by a teardown, and the core is free (R360). -/
def cancelHere : M Unit := do
  let c ← theCore
  let va := c.strand.toNat
  endStrand va 0 0 true
  dropMessages (← read).core c.dom.toNat
  modCore fun c => { c with strand := 0 }
  releaseCore
  departWith va

/-- A suspension point of the core's strand: what it has written performs first (R156); then it goes on by `x`, or ends where its
launch has been torn down (R360). -/
def suspensionPoint (x : M Unit) : M Unit := do
  leaveReleased
  if !(← thePosted).isEmpty then block
  if ← tornHere then cancelHere else x

/-- The running strand leaves its core in a suspended or ready state at a landing. -/
def suspend (st : StrandState) (handle landing : Nat) (fp : Word) (miss : Option Miss) : M Unit :=
  suspensionPoint do
    let va := (← theCore).strand.toNat
    setStrand va fun s => { s with
      state := st, handle := handle, landing := landing, frame := fp, miss := miss, onCore := none }
    if st == .ready then enqueue va
    releaseCore

end Sys2Proof.Machine
end

