-- ==== Sys2Proof/Machine/Ops.lean ====
section
/-!
DEFINITION. Sys2Proof/Machine/Ops.lean: commit points and rollback, taking a fault and returning from one, entering
code at a landing, tokens, and how one unit is executed: its decode checks, its effect, the advance of its stream
(spec 04, R58 to R66; spec 05, R90, R101; spec 06, R140 to R158; spec 08, R170 to R177).
-/

namespace Sys2Proof.Machine

/-! ### Code that runs -/

/-- The resident code of the running function, in the form it runs in. -/
def Core.curCode (c : Core) : Option Code :=
  match c.cur with
  | some u => c.store.find? u.names
  | none => none

def Code.body (k : Code) : Strm → List Half
  | .A => k.aBody
  | .X => k.xBody

/-- The running function's body of a stream, empty when none runs. -/
def Core.body (c : Core) (s : Strm) : List Half :=
  match c.curCode with
  | some k => k.body s
  | none => []

def halfAt (b : List Half) (off : Nat) : Option Half := if off % 4 == 0 then b[off / 4]? else none

/-- The L bit of a half (R58). -/
def lone? (w : Half) : Bool := w.getLsbD 0

/-- An offset is the high half of a pair: the low half of its word has L = 0. DEDUCED (log 70): an all-zero low half counts,
though R60 opens no pair with it. -/
def highOfPair (b : List Half) (off : Nat) : Bool :=
  off % 8 == 4 && (match halfAt b (off - 4) with
    | some w => !lone? w
    | none => false)

/-- Where a unit may stand (R61): in the body, at a multiple of 4, not the high half of a pair. -/
def unitStart (b : List Half) (off : Nat) : Bool := (halfAt b off).isSome && !highOfPair b off

/-- The bytes a function occupies in a code store (R145). -/
def Code.occupancy (k : Code) : Nat := 4 * k.aBody.length + 4 * k.xBody.length + 8 * k.landings.length

def Code.landing (k : Code) (n : Nat) : Option (Nat × Nat) := (k.landings.getD n none)

/-! ### Commit points (R170) -/

/-- The checkpoint of a commit point; `landing` is set when it is a landing's entry (R172). -/
def Core.checkpoint (c : Core) (landing : Option (Nat × Nat)) : Core :=
  { c with
    ckpt := some { counted := c.abar, a := c.a, s := c.s, pa := c.pa, px := c.px, bb := c.bb, offA := c.strA.off, offX := c.strX.off,
                   pendA := c.strA.pend, pendX := c.strX.pend }
    lq0 := c.lq0.commit
    lq1 := c.lq1.commit
    lq2 := c.lq2.commit
    sq0 := c.sq0.commit
    sq1 := c.sq1.commit
    bqA := c.bqA.commit
    bqX := c.bqX.commit
    rcount := 0
    restartable := true
    atLanding := landing
    poisons := 0 }

/-- A commit point of a unit. -/
def commitPoint : M Unit := do
  releaseStores
  modCore fun c => c.checkpoint none

/-- A queue once a unit that is a commit point has completed: what the unit popped stays popped and what it pushed stays;
`q0` is the queue before it. -/
def Queue.begun {α : Type} (q q0 : Queue α) : Queue α :=
  { q with kept := q0.kept, old := if q0.old = q0.ents.length then q.ents.length else q.old }

/-- A stream's half of the checkpoint, as the stream now stands. -/
def Checkpoint.half (k : Checkpoint) (c : Core) (s : Strm) : Checkpoint :=
  match s with
  | .A => { k with counted := false, a := c.a, pa := c.pa, bb := c.bb, offA := c.strA.off, pendA := c.strA.pend }
  | .X => { k with s := c.s, px := c.px, offX := c.strX.off, pendX := c.strX.pend }

/-- The region of a commit point begins after the unit that holds it, once that has completed (Table 8.7, log 77); `c0` is
the core before the unit. -/
def Core.begun (c c0 : Core) (s : Strm) : Core :=
  { c with
    ckpt := c.ckpt.map fun k => k.half c s
    lq0 := c.lq0.begun c0.lq0
    lq1 := c.lq1.begun c0.lq1
    lq2 := c.lq2.begun c0.lq2
    sq0 := c.sq0.begun c0.sq0
    sq1 := c.sq1.begun c0.sq1
    bqA := c.bqA.begun c0.bqA
    bqX := c.bqX.begun c0.bqX }

/-- R171: the store buffer, the queues and the scalar state go back to the last commit point. -/
def Core.rolledBack (c : Core) : Core :=
  let q : Core := { c with
    sbuf := []
    lq0 := c.lq0.restore
    lq1 := c.lq1.restore
    lq2 := c.lq2.restore
    sq0 := c.sq0.restore
    sq1 := c.sq1.restore
    bqA := c.bqA.restore
    bqX := c.bqX.restore
    rcount := BitVec.ofNat 8 (Nat.min (c.rcount.toNat + 1) 255) }
  match c.ckpt with
  | some k => { q with a := k.a, s := k.s, pa := k.pa, px := k.px, bb := k.bb,
                       strA := { off := k.offA, pend := k.pendA, joint := false },
                       strX := { off := k.offX, pend := k.pendX, joint := false } }
  | none => q

/-! ### The digest directory (R141 to R143) -/

/-- A valid directory entry: the digest as its 32 bytes, FRAME, OBJVA, OBJSIZE, NAT. -/
structure DirEnt where
  digest : Nat
  frame : Nat
  objVa : Nat
  objSize : Nat
  nat : Bool
  deriving DecidableEq, Repr

def dirMagic : Nat := 0x5A444952

/-- R142, R143: the entry's 64 bytes, judged by themselves. -/
def parseEntry (e : Nat) : Option DirEnt :=
  let flags := bytesAt e 0x20 4
  let frame := bytesAt e 0x24 4
  let size := bytesAt e 0x30 4
  if flags % 2 == 1 && flags < 4 && frame % 16 == 0 && 16 <= frame && frame <= 0x100000 && 64 <= size &&
      size <= 0x100000 && bytesAt e 0x34 4 == 0 && bytesAt e 0x38 8 == 0 then
    some { digest := bytesAt e 0 32, frame := frame, objVa := bytesAt e 0x28 8, objSize := size,
           nat := flags / 2 % 2 == 1 }
  else none

/-- A handle's entry, read by a reader of directory bytes; none when the handle is invalid. -/
def dirLookup (rd : Nat → Nat → M Nat) (base h : Nat) : M (Option DirEnt) := do
  let magic ← rd base 8
  let count ← rd (base + 8) 8
  if magic % 2 ^ 32 != dirMagic || h == 0 || count <= h || 2 ^ 20 <= h then return none
  return parseEntry (← rd (base + 64 * h) 64)

/-- The fields of DIRBASE (Table 6.3). -/
def dirBaseVa (w : Word) : Nat := natBits w.toNat 56 12 * 4096

/-- Plain loads of the issuing stream, 8 bytes each. DESIGN CHOICE (log 88): no other agent's write falls between the loads of
one entry, a mixture that R144 permits and does not promise. -/
def loadDwords (va n : Nat) : M Nat :=
  (List.range (n / 8)).foldlM (fun v k => do
    let x ← load (BitVec.ofNat 64 (va + 8 * k)) 8
    return v + x * 2 ^ (64 * k)) 0

def dirEntry (h : Nat) : M (Option DirEnt) := do
  let base := dirBaseVa (← theCore).dirbase
  dirLookup loadDwords base h

/-! ### Resident forms (R146, R147) -/

/-- A form the current domain may run. -/
def usable (ctl : Ctl) (dom : Nat) (k : Code) : Bool :=
  match k.form with
  | .portable => true
  | .native ix => ix == 255 || (ctl.trust.any fun t => t.1 == (dom, ix) && t.2 == k.key)

/-- The resident form to enter for a digest: a usable native form before the portable one. DESIGN CHOICE (log 88): of several
usable native forms, the least recently entered. -/
def resident (c : Core) (ctl : Ctl) (digest : Nat) : Option Code :=
  let fs := c.store.filter fun k => k.digest == digest && usable ctl c.dom.toNat k
  match fs.find? fun k => k.form != .portable with
  | some k => some k
  | none => fs.head?

/-- A landing entered (R147, R155): the two streams' offsets, a26, a27, s26, s27, and the function now most recently
entered. The entry is the region's checkpoint (R172). -/
def Core.atEntry (c : Core) (k : Code) (handle landing : Nat) (offs : Nat × Nat) : Core :=
  ({ c with
    a := (c.a.setIfInBounds 26 c.strand).setIfInBounds 27 c.fp
    s := (c.s.setIfInBounds 26 c.strand).setIfInBounds 27 c.fp
    strA := { off := offs.1, pend := none, joint := false }
    strX := { off := offs.2, pend := none, joint := false }
    cur := some (k.as handle)
    store := (c.store.filter fun x => x != k) ++ [k]
    mode := .running
    lineWait := none } : Core).checkpoint (if c.nest == 0 then some (handle, landing) else none)

def enterLanding (k : Code) (handle landing : Nat) (offs : Nat × Nat) : M Unit :=
  modCore fun c => c.atEntry k handle landing offs

/-- A search for code (R149): the strand joins the search its die already makes for the digest, or starts one. -/
def beginSearch (strand core handle : Nat) (ent : DirEnt) (need : Option Form) : M Unit := do
  let dom := (← theCore).dom.toNat
  let r : Requester := { strand := strand, core := core, dom := dom, handle := handle, entDigest := ent.digest,
                         entFrame := ent.frame, entNat := ent.nat, objVa := ent.objVa, objSize := ent.objSize,
                         found := none, missed := false, need := need, seen := 0 }
  modSched fun s =>
    if s.searches.any fun x => x.die == dieOf core && x.digest == ent.digest then
      { s with searches := s.searches.map fun x =>
          if x.die == dieOf core && x.digest == ent.digest then { x with reqs := x.reqs ++ [r], stage := 1, neighbour := 0 } else x }
    else { s with searches := s.searches ++
      [{ die := dieOf core, core := core, digest := ent.digest, stage := 1, neighbour := 0, reqs := [r] }] }

/-! ### Spans of memory read and written by the core itself -/

/-- Check 2 of R106 for a span that begins in memory: its first address in a window, if it reaches one (R17). -/
def checkSpanEnd (va n : Nat) : M Unit := do
  if windowBase < va + n then raise .aperture (BitVec.ofNat 64 windowBase)

/-- A read of `n` bytes with the checks of R106 (descriptors, objects, frames, trap frames). DESIGN CHOICE (log 105): POISON, for
which no rule names EADDR here, gives the first byte of the span in the line read, or in the 8-byte part where own stores cover
some of the line. -/
def loadSpan (ea : Word) (n : Nat) : M Nat := do
  let va := ea.toNat
  match space va with
  | .mem =>
    checkSpanEnd va n
    let m ← checkRights ea needR va n
    checkLocks ea n
    (pieces va n).foldlM (fun v p => do
      return v + (← readOwn (BitVec.ofNat 64 p.1) m p.2.1) * 2 ^ (8 * p.2.2)) 0
  | .scratch off =>
    if scratchBytes < off + n then raise .aperture ea
    checkLocks ea n
    scratchRead ea off n
  | _ => raise .aperture ea

/-- The check of a write of `n` bytes by the core itself: rights, locks, translation and owner. Whether M holds. -/
def checkSpan (ea : Word) (n : Nat) : M Bool := do
  let va := ea.toNat
  match space va with
  | .mem =>
    checkSpanEnd va n
    let m ← checkRights ea needW va n
    checkLocks ea n
    let dom := (← theCore).dom.toNat
    (pieces va n).foldlM (fun m p => withM dom m p.1 fun m => do
      let _ ← locate (BitVec.ofNat 64 p.1) (BitVec.ofNat 64 p.1) false m p.1
      return m) m
  | .scratch off =>
    if scratchBytes < off + n then raise .aperture ea
    checkLocks ea n
    return true
  | _ => raise .aperture ea

/-- A write of the core itself that its check has passed; it is released at once. -/
def writeSpan (m : Bool) (ea : Word) (n v : Nat) : M Unit :=
  match space ea.toNat with
  | .scratch off => scratchWrite off n v
  | _ => releaseWrite m ea.toNat n v

/-! ### Waits that a stop withdraws -/

/-- The next waiter of a mutex line holds it. -/
def passMutex (line : Nat) : M Unit := do
  let l := lookupD Line.off (← thePkg).lines line
  match l.waiters with
  | [] => modPkg fun x => { x with lines := insertD Line.off x.lines line { l with holder := none } }
  | w :: ws =>
    modPkg fun x => { x with lines := insertD Line.off x.lines line { l with holder := some w, waiters := ws } }
    modCoreAt (← read).pkg w fun c => { c with lineWait := some (.granted line) }

/-- A wait ends with nothing performed: what its unit has popped goes back (R84). -/
def Core.unwaited (c : Core) : Core :=
  { c with lineWait := none, sq0 := c.sq0.unpop c.wait0, sq1 := c.sq1.unpop c.wait1, wait0 := [], wait1 := [] }

/-- The core leaves a line's order; a mutex already passed to it passes on. -/
def leaveLine : M Unit := do
  let me := (← read).core
  match (← theCore).lineWait with
  | some (.queued line) =>
    modPkg fun x =>
      let l := lookupD Line.off x.lines line
      { x with lines := insertD Line.off x.lines line { l with waiters := l.waiters.filter (· != me) } }
  | some (.granted line) => passMutex line
  | _ => return

/-- A stop withdraws a wait that has performed nothing (R174, R123). DESIGN CHOICE (log 111): an arrival at a barrier that has issued
and is not counted yet is withdrawn too, and issues again. A SEND and a pod barrier's wait that is counted complete
before the stop (R174). -/
def withdrawWait : M Unit := do
  if (← theCore).sending.isSome then block
  leaveLine
  match (← theCore).lineWait with
  | some (.queued _) | some (.granted _) | some (.arriving _ _) | some (.podArriving _ _) => modCore Core.unwaited
  | some (.podCounted _) => block
  | some (.podFired _ _) => block
  | _ => return

/-- The wait of a core outlives a rollback: a pod barrier's unit is the checkpoint itself, and a barrier load may be, where its
arrival was counted before the region began. -/
def Core.waitStands (c : Core) : Bool :=
  match c.lineWait with
  | some (.podArriving _ _) | some (.podCounted _) | some (.podFired _ _) => true
  | _ => c.abar && c.ckpt.any (·.counted)

/-- REGION_ROLLBACK (R171). A line's load that stands after the checkpoint waits no more; its arrival is a line-window effect and
stays counted (R173). -/
def rollBack : M Unit := do
  leaveLine
  modCore fun c => if c.waitStands then c.rolledBack else { c.rolledBack with lineWait := none, wait0 := [], wait1 := [] }

/-- WaitForReservedLqEntries: the data of reserved entries has come (R174, R178). -/
def Queue.fill (q : Queue QEntry) : Queue QEntry :=
  { q with ents := q.ents.map fun e => { e with filled := true }, kept := q.kept.map fun e => { e with filled := true } }

def fillQueues : M Unit := modCore fun c => { c with lq0 := c.lq0.fill, lq1 := c.lq1.fill, lq2 := c.lq2.fill }

/-! ### Taking a fault (R168 to R175) -/

/-- The queues of a core emptied into a frame. -/
def Core.emptied (c : Core) : Core :=
  { c with lq0 := Queue.empty, lq1 := Queue.empty, lq2 := Queue.empty, sq0 := Queue.empty, sq1 := Queue.empty,
           bqA := Queue.empty, bqX := Queue.empty }

/-- The CSRs and mode of a handler's entry (R174), with both streams off any joint unit. -/
def Core.trapped (c : Core) (xs jt : Bool) (cause : Cause) (ea : Word) (orig : Nat) : Core :=
  { c with
    cause := BitVec.ofNat 64 (cause.code + orig * 2 ^ 8 + (if xs then 2 ^ 16 else 0) + (if jt then 2 ^ 17 else 0))
    eaddr := ea
    epa := resumeWord c.cur c.strA.off
    epx := resumeWord c.cur c.strX.off
    pMode := c.sMode
    sMode := true
    strA := { c.strA with joint := false }
    strX := { c.strX with joint := false } }

/-- The trap frame, written below fp (Table 8.5). -/
def writeTrapFrame : M Unit := do
  let c ← theCore
  let tf := c.fp - BitVec.ofNat 64 frameBytes
  let m ← checkSpan tf frameBytes
  writeSpan m tf frameBytes (layOut c.frameParts)

/-- The handler that TVEC names, entered at landing 0 with its frame below the trap frame; an invalid handle raises. -/
def enterTvec : M Unit := do
  let c ← theCore
  let tf := c.fp - BitVec.ofNat 64 frameBytes
  let h := natBits c.tvec.toNat 19 0
  match ← dirEntry h with
  | none => raise .illegal (BitVec.ofNat 64 h)
  | some ent =>
    let hf := tf - BitVec.ofNat 64 ent.frame
    let m ← checkSpan hf 16
    writeSpan m hf 16 (0x0000000100000000 + tf.toNat * 2 ^ 64)
    modCore fun c =>
      { c.emptied with fp := hf, nest := c.nest + 1, lineWait := none,
                       heldWaits := (c.lineWait.map fun w => (c.nest, w)).toList ++ c.heldWaits }
    match resident (← theCore) (← thePkg).ctl ent.digest with
    | some k =>
      match k.landing 0 with
      | some o => enterLanding k h 0 o
      | none => raise .illegal (BitVec.ofNat 64 h)
    | none =>
      modCore fun c => { c with
        mode := .fetching h 0
        strA := { c.strA with pend := none }
        strX := { c.strX with pend := none } }
      beginSearch c.strand.toNat (← read).core h ent none
      setStrand c.strand.toNat fun s => { s with state := .suspCode }

/-- A part of a handler's entry; where it faults the strand is retired with the cause that the entry reports (R174, R388). A
gang's strand that is held meanwhile keeps the mode it had, so that a stop that withdraws its end finds it as it was. -/
def orRetire (c0 : Core) (cause : Cause) (x next : M Unit) : M Unit := do
  match ← attempt x with
  | .ok _ => next
  | .error .block => block
  | .error (.halt f) => throw (.halt f)
  | .error _ =>
    modCore fun c => { c with sMode := c0.sMode, pMode := c0.pMode }
    retireFault cause.code

/-- A program fault enters the TVEC handler (HANDLER_ENTRY, R174): the other stream is at its unit boundary, the store
buffer is released, the CSRs are set, the trap frame is written, and then the handler's frame, and the handler is entered at
landing 0 in S mode. The strand is retired when TVEC names no valid handle or a write of a frame faults. -/
def enterHandler (cause : Cause) (ea : Word) (orig : Nat) (jt : Bool) : M Unit := do
  let str ← theStream
  let t ← now
  let k := (← theCore).serial
  let xs := if jt then Config.jointXs t k else str == .X
  fillQueues
  withdrawWait
  let c0 ← theCore
  modCore fun c => c.trapped xs jt cause ea orig
  orRetire c0 cause writeTrapFrame (orRetire c0 cause enterTvec (pure ()))

/-- WaitForResolution (R172) of TRANSLATE and OWNER: system software is told; at a landing checkpoint the strand leaves
its core, else it waits there. -/
def waitFor (cause : Cause) (ea report : Word) : M Unit := do
  let c ← theCore
  let s ← theStream
  let va := c.strand.toNat
  let me := (← read).core
  let _ ← openReport cause ea report c.dom.toNat me (.strand va me s)
  match c.atLanding with
  | some (h, k) => suspend .suspInput h k c.fp none
  | none =>
    modCore fun c =>
      { c with mode := .resolving { cause := cause, eaddr := ea, report := report, stream := s } }
    setStrand va fun x => { x with state := .suspInput, bound := some me }

/-- A program fault (R174). The handler's entry is a commit point: a fault met by its release of the store buffer takes
the fault's place, with the buffer discarded (R47). -/
def exception (cause : Cause) (ea : Word) (orig : Nat) (jt : Bool) : M Unit := do
  if cause == .prot then plbAfterProt (← theCore).dom.toNat ea
  match ← attempt releaseStores with
  | .ok _ => enterHandler cause ea orig jt
  | .error (.raise c e) =>
    modCore fun k => { k with sbuf := [] }
    enterHandler c e 0 false
  | .error (.restart c e r) =>
    let was := (← theCore).restartable
    rollBack
    if was then waitFor c e r else enterHandler .regionLost e c.code false
  | .error s => throw s

/-- A restartable fault (REGION_ROLLBACK, R171). -/
def restartFault (cause : Cause) (ea report : Word) : M Unit := do
  let was := (← theCore).restartable
  rollBack
  if was then waitFor cause ea report else exception .regionLost ea cause.code false

/-- The faults that the core's strand owes, each raised while it runs: one that was refused at the restarted unit, where the
region has gone back to (R169, R171); one of a store at the unit that stands next (R369). -/
def raiseOwed : M Unit := do
  let va := (← theCore).strand.toNat
  let p := (← read).pkg
  let me := (← read).core
  match ← findStrand va with
  | none => return
  | some s => s.owed.forM fun o => do
    let c ← theCore
    if c.mode == .running && c.strand.toNat == va then
      modStrand va fun x => { x with owed := x.owed.erase o }
      atCore p me o.stream (exception o.cause o.ea 0 false)

/-- A program fault that no one stream has raised: its XS is free (log 15). -/
def exceptionOpen (cause : Cause) (ea : Word) : M Unit := do
  let x := Config.jointXs (← now) (← theCore).serial
  atCore (← read).pkg (← read).core (if x then .X else .A) (exception cause ea 0 false)

/-! ### Tokens (R101, R102) -/

/-- The lowest free token slot, from `n` slots left to try. -/
def freeSlot (held : List (Nat × Token)) : Option Nat := (List.range 64).find? fun k => (findAt held k).isNone

/-- TakeTokenSlot: the token value, its slot held; TOKEN when all 64 are held. -/
def takeToken (kind : TokenKind) (status : Option (BitVec 16)) : M (Nat × Word) := do
  let c ← theCore
  match freeSlot c.tokens with
  | none => raise .token 0
  | some k =>
    modCore fun c => { c with tokens := setAt c.tokens k { kind := kind, status := status } }
    return (k, BitVec.ofNat 64 (k + (c.tokenGens.toList.getD k 0).toNat * 64))

/-- A slot freed: its generation moves on (log 14). -/
def Core.freeToken (c : Core) (k : Nat) : Core :=
  { c with tokens := dropAt c.tokens k
           tokenGens := c.tokenGens.setIfInBounds k ((c.tokenGens.toList.getD k 0) + 1) }

/-- Order numbers that are still to perform: stores, posted reductions, those a slice keeps while its domain's queue is full
(R291), loads not filled (R46). -/
def pendingSerials (d : Dev) (pkg core : Nat) : List Nat :=
  let c := (d.pkg pkg).core core
  c.inflight.map (·.serial) ++ (ownPosted d pkg core).map (·.serial) ++
    (d.pkgs.flatMap fun k => (k.2.fabric.contribs.filter fun x => x.op.ofCore pkg core).map (·.op.serial)) ++
    (d.pkgs.flatMap fun k => k.2.home.overflow.flatMap fun o => o.2.filterMap fun e =>
      e.origin.bind fun q => if q.1 == pkg && e.core == core then some q.2 else none) ++
    ((c.lq0.ents ++ c.lq1.ents ++ c.lq2.ents).filter fun e => !e.filled).map (·.serial)

/-- The status of a token whose operation has completed. -/
def tokenStatus (t : Token) : M (Option (BitVec 16)) := do
  match t.kind with
  | .command => return t.status
  | .fence covers =>
    let p := pendingSerials (← get) (← read).pkg (← read).core
    return if covers.any fun s => p.contains s then none else some 0

/-- DrainTokens: every held token's operation has completed; the slots are freed, and a nonzero status marks the
strand's STATUS (R101, R342). -/
def drainTokens : M Unit := do
  let c ← theCore
  let sts ← c.tokens.mapM fun t => tokenStatus t.2
  if sts.any (· == none) then block
  modCore fun c => (c.tokens.map (·.1)).foldl Core.freeToken c
  if sts.any fun s => s != some 0 then
    setStrand c.strand.toNat fun s => { s with status := s.status ||| 0x200 }

/-! ### Decode checks (R62 to R66, R90) -/

/-- The word of an instruction; 0 for an event. -/
def instrWord (i : Instr) : Half := (encodeHalf i).getD 0

def majorOf (w : Half) : Nat := (w.extractLsb' 25 7).toNat

/-- Table 4.1: the majors each stream may execute. -/
def legalIn (s : Strm) (m : Nat) : Bool :=
  match s with
  | .A => m < 0x40 || 0x6C <= m
  | .X => !((0x18 <= m && m <= 0x2E) || (0x35 <= m && m <= 0x37) || m == 0x3D || 0x6C <= m)

/-- Table 4.1: the C-slot and A-slot classes; NOP counts as both. -/
def cClass (m : Nat) : Bool := m == 1 || (0x10 <= m && m < 0x40) || m == 0x60 || m == 0x68 || 0x6C <= m

def aClass (m : Nat) : Bool := m == 1 || (2 <= m && m < 0x10) || (0x40 <= m && m < 0x60) || (0x61 <= m && m < 0x6C && m != 0x68)

/-- Joint instructions (R90). -/
def jointMajor (m : Nat) : Bool := (0x30 <= m && m <= 0x34) || m == 0x38 || m == 0x3C

/-- What a delay-slot unit must not hold (R90). -/
def slotForbidden (m : Nat) : Bool :=
  m == 0x10 || m == 0x11 || m == 0x13 || m == 0x14 || m == 0x12 || m == 0x3B || jointMajor m

/-- How a CSR may be used (Table 5.12): a mode's access, and whether it is read-only in S mode. -/
inductive CsrClass where
  | ro
  | rw
  | sRw          -- T mode reads it, S mode writes it
  | sOnly        -- T mode may do neither
  deriving DecidableEq, Repr

def csrClass (n : Nat) : Option CsrClass :=
  match n with
  | 0x000 | 0x001 | 0x012 | 0x040 | 0x041 | 0x050 | 0x060 | 0x070 | 0x071 => some .ro
  | 0x010 | 0x011 => some .rw
  | 0x002 | 0x003 | 0x004 => some .sRw
  | 0x020 | 0x021 | 0x022 | 0x023 | 0x024 | 0x025 | 0x030 | 0x031 => some .sOnly
  | _ => none

/-- A CSR number that raises ILLEGAL: absent, or a CSRW in S mode to a read-only one (R67, R130). -/
def csrIllegal (sMode : Bool) (i : Instr) : Bool :=
  match i with
  | .csrr _ n => (csrClass n.toNat).isNone
  | .csrw _ n => (csrClass n.toNat).isNone || (sMode && csrClass n.toNat == some .ro)
  | _ => false

/-- The S-only instructions (R66, check 6), in T mode. -/
def csrPriv (i : Instr) : Bool :=
  match i with
  | .csrr _ n => csrClass n.toNat == some .sOnly
  | .csrw _ n => csrClass n.toNat != some .rw
  | .eret | .sysPlbinv _ _ | .sysCsinv _ | .sysQflush _ | .sysEvcfg _ _ | .sysTabclr => true
  | _ => false

/-- A specifier reserved in the stream (Table 4.2), and the handle field of CALLD and TAILD in the X stream (R67). -/
def specIllegal (s : Strm) (i : Instr) : Bool :=
  match s with
  | .A => (sourcesOf i).any (· == 30#5)
  | .X => (destsOf i).any (· == 30#5) ||
    (match i with
     | .calld h _ => h != 31#5
     | .taild h _ => h != 31#5
     | _ => false)

def portable (c : Core) : Bool :=
  match c.cur with
  | some u => u.form == .portable
  | none => false

/-- The instruction that stands at a stream's offset: a lone half, a pair, or what stands where no unit is. A low half with
L = 0 that ends a portable body is refused for its shape alone (R66, R80). -/
def Core.nextInstr (c : Core) (s : Strm) : Instr :=
  let b := c.body s
  let off := (c.str s).off
  match halfAt b off with
  | none => .runPastBody
  | some w =>
    if w = 0 then .zeroword
    else if lone? w then decodeHalf w
    else if off % 8 == 4 then .pair 0 w true
    else
      match halfAt b (off + 4) with
      | none => if portable c then .pair w w false else .runPastBody
      | some hi => .pair w hi false

/-- R80: what portable code may not hold. -/
def nativeOnly (m : Nat) : Bool := m == 0x5F || m == 0x6B

/-- Check 5 of R66: the wrong stream, or any case of R63 to R65. -/
def check5 (w : Half) (i : Instr) : M Unit := do
  let c ← theCore
  let s ← theStream
  if !i.wf || !legalIn s (majorOf w) || specIllegal s i || csrIllegal c.sMode i || (portable c && nativeOnly (majorOf w))
    then raise .illegal (w.setWidth 64)

/-- Check 6 of R66. -/
def check6 (w : Half) (i : Instr) : M Unit := do
  if !(← theCore).sMode && csrPriv i then raise .priv (w.setWidth 64)

/-- Check 7 of R66. -/
def check7 (w : Half) : M Unit := do
  if ((← theCore).str (← theStream)).pend.isSome && slotForbidden (majorOf w) then raise .slot (w.setWidth 64)

/-- Checks 5 to 7 of R66 for a lone instruction. -/
def gate (i : Instr) : M Unit := do
  let w := instrWord i
  check5 w i
  check6 w i
  check7 w

/-! ### One unit -/

/-- How an instruction leaves its stream: on to the next unit, a branch decided, a position set by its own effect, or
waiting in place with something performed. -/
inductive Flow where
  | seq
  | br (target : Option Word)
  | set
  | wait
  deriving DecidableEq, Repr

/-- A stream's position after a unit of `size` bytes that goes on: its branch counts down or begins. -/
def StreamState.advance (t : StreamState) (size : Nat) (f : Flow) : StreamState × Option Word :=
  let off := t.off + size
  match t.pend with
  | none =>
    match f with
    | .br tgt => ({ t with off := off, pend := some { left := 2, target := tgt } }, none)
    | _ => ({ t with off := off }, none)
  | some b =>
    if b.left <= 1 then ({ t with off := off, pend := none }, b.target)
    else ({ t with off := off, pend := some { b with left := b.left - 1 } }, none)

/-- The transfer of a taken branch (R61, R91). A target that names no unit raises ILLEGAL there, nothing pending. -/
def transfer (t : Word) : M Unit := do
  let s ← theStream
  let c ← theCore
  modCore fun c => c.setStr s { c.str s with off := t.toNat % 2 ^ 32 }
  if !unitStart (c.body s) t.toNat then exception .illegal t 0 false

/-- The stream goes on after a unit. -/
def finishUnit (size : Nat) (f : Flow) : M Unit := do
  match f with
  | .set => return
  | .wait => return
  | _ =>
    let s ← theStream
    let (t, tgt) := ((← theCore).str s).advance size f
    modCore fun c => c.setStr s t
    match tgt with
    | some w => transfer w
    | none => return

/-- A unit has issued and waits: what it has popped is gone from the queues, and noted for a stop that withdraws it (R84).
A unit that is a commit point takes its pops out of the region that begins with it. -/
def Core.issued (c c0 : Core) (commits : Bool) : Core :=
  let c' : Core := { c with
    wait0 := c0.sq0.ents.take (c0.sq0.ents.length - c.sq0.ents.length)
    wait1 := c0.sq1.ents.take (c0.sq1.ents.length - c.sq1.ents.length) }
  if commits then { c' with sq0 := c.sq0.begun c0.sq0, sq1 := c.sq1.begun c0.sq1 } else c'

/-- A unit that holds a commit point has completed. -/
def beginRegion (c0 : Core) : M Unit := do
  let s ← theStream
  modCore fun c => c.begun c0 s

/-- A unit: its decode checks, the commit point it may be, its effect, and what a fault at any of them does. -/
def runUnit (size : Nat) (jt commits : Bool) (checks pre : M Unit) (act : M Flow) : M Unit := do
  match ← attempt checks with
  | .error (.raise c ea) => exception c ea 0 false
  | .error s => throw s
  | .ok _ =>
    match ← attempt pre with
    | .error (.raise c ea) => exception c ea 0 false
    | .error (.restart c ea r) => restartFault c ea r
    | .error s => throw s
    | .ok _ =>
      let c0 ← theCore
      match ← attempt act with
      | .ok .wait => modCore fun c => c.issued c0 commits
      | .ok f =>
        finishUnit size f
        if commits then beginRegion c0
      | .error (.raise c ea) => exception c ea 0 jt
      | .error (.restart c ea r) => restartFault c ea r
      | .error s => throw s

/-- Where and when a state's next instruction happens. -/
def State.env (s : State) : Env := { pkg := s.cur.pkg, core := s.cur.core, stream := s.cur.stream, time := s.time }

/-- The core of a state's cursor. -/
def State.core (s : State) : Core := (s.dev.pkg s.cur.pkg).core s.cur.core

/-- A computation carried out on a state; one that blocks leaves it as it is (log 3). -/
def perform (x : M Unit) (s : State) : Host.Outcome State Fault Refusal :=
  match (x s.env).run s.dev with
  | .ok (_, d) => .next { s with dev := d }
  | .error (.halt f) => .fault f
  | .error _ => .next s

/-- A unit on a core that does not run waits. -/
def unitOn (x : M Unit) (s : State) : Host.Outcome State Fault Refusal :=
  if s.core.mode = .running then perform x s else .next s

/-- A lone instruction. -/
def lone (i : Instr) (act : M Flow) (s : State) : Host.Outcome State Fault Refusal :=
  unitOn (runUnit 4 false false (gate i) (pure ()) act) s

/-- A lone instruction that is a commit point (R170). -/
def loneCommit (i : Instr) (act : M Flow) (s : State) : Host.Outcome State Fault Refusal :=
  unitOn (runUnit 4 false true (gate i) commitPoint act) s

/-- An event, which needs no running core. -/
def event (x : M Unit) (s : State) : Host.Outcome State Fault Refusal := perform x s

end Sys2Proof.Machine
end

