-- ==== Sys2Proof/Machine/Shapes.lean ====
section
/-!
DEFINITION. Sys2Proof/Machine/Shapes.lean: shape objects: their fields, validity, hulls and elements (spec 14, R271 to
R273).
-/

namespace Sys2Proof.Machine

/-- The fields of a shape object's twelve dwords (Table 14.1). -/
structure ShapeObj where
  esize : Nat          -- bytes of an element
  ndim : Nat
  mode : Nat
  cnt : List Nat
  sst : List Int
  dst : List Int
  deriving DecidableEq, Repr

/-- A count of a dimension, 1 beyond NDIM. -/
def ShapeObj.count (s : ShapeObj) (d : Nat) : Nat := if d < s.ndim then s.cnt.getD d 1 else 1

/-- R272: the object when it is valid. -/
def parseShape (w : Nat → Nat) : Option ShapeObj :=
  let h := w 0
  let es : Nat := 2 ^ natBits h 41 40
  let nd := natBits h 44 42
  let mode := natBits h 46 45
  let cnt := [natBits (w 1) 31 0, natBits (w 1) 63 32, natBits (w 2) 31 0, natBits (w 2) 63 32]
  let sst := (List.range 4).map fun k => natSigned 64 (w (3 + k))
  let dst := (List.range 4).map fun k => natSigned 64 (w (7 + k))
  let strideOk (d : Nat) (x : Int) : Bool :=
    if d < nd then x % (es : Int) == 0 && x.natAbs < 2 ^ 56 else x == 0
  let ok :=
    natBits h 31 0 == 0x5A534831 && natBits h 39 32 == 1 && 1 <= nd && nd <= 4 && mode != 3 && h / 2 ^ 47 == 0 &&
    cnt.zipIdx.all (fun p => if p.2 < nd then 1 <= p.1 && p.1 <= 2 ^ 24 else p.1 == 0) &&
    sst.zipIdx.all (fun p => strideOk p.2 p.1) && dst.zipIdx.all (fun p => strideOk p.2 p.1) &&
    (mode != 2 || dst.all (· == 0)) && w 11 == 0 &&
    es * ((cnt.take nd).foldl (· * ·) 1) <= 0x1000000
  if ok then some { esize := es, ndim := nd, mode := mode, cnt := cnt, sst := sst, dst := dst } else none

/-- The lowest and one past the highest byte offset of a hull from its base (R273). -/
def ShapeObj.hull (s : ShapeObj) (str : List Int) : Int × Int :=
  let ext (pick : Int → Int → Int) : Int :=
    (List.range 4).foldl (fun t d => t + pick 0 ((s.count d - 1 : Nat) * str.getD d 0)) 0
  (ext min, ext max + s.esize)

/-- The byte offset of an element under strides (R273). -/
def elemOff (str : List Int) (i0 i1 i2 i3 : Nat) : Int :=
  (i0 : Int) * str.getD 0 0 + (i1 : Int) * str.getD 1 0 + (i2 : Int) * str.getD 2 0 + (i3 : Int) * str.getD 3 0

/-- The source and destination offsets of every element, in element order (R273). -/
def ShapeObj.elems (s : ShapeObj) : List (Int × Int) :=
  (List.range (s.count 3)).flatMap fun i3 => (List.range (s.count 2)).flatMap fun i2 =>
    (List.range (s.count 1)).flatMap fun i1 => (List.range (s.count 0)).map fun i0 =>
      (elemOff s.sst i0 i1 i2 i3, elemOff s.dst i0 i1 i2 i3)

end Sys2Proof.Machine
end

