-- ==== Sys2Proof/Machine/Engine.lean ====
section
/-!
DEFINITION. Sys2Proof/Machine/Engine.lean: what the copy, bank and fabric engines share: token statuses, range locks, the
issue and completion of commands, and their accesses to memory and scratchpads (spec 05, R101, R104; spec 14, R270, R282
to R285).
-/

namespace Sys2Proof.Machine

/-! ### Statuses -/

/-- A token status: the cause in [7:0], the detail in [15:8] (R102). -/
def statusWord (c : Cause) (detail : Nat) : Nat := c.code + detail * 2 ^ 8

/-- How an access of a running command ends it; one inside a running invalidation ends with TRANSLATE (R285). -/
def stopStatus (detail : Nat) : Stop → Nat
  | .raise c _ => statusWord c detail
  | .restart c _ _ => statusWord c detail
  | .block => statusWord .translate detail
  | .halt _ => statusWord .aperture detail

/-- How an access ends its command: the status, and the address of a page that is not present. -/
structure EngStop where
  status : Nat
  page : Option Word
  deriving DecidableEq, Repr

/-- An access of a command: its value, or how it ends the command. -/
def engTry {α : Type} (detail : Nat) (x : M α) : M (Except EngStop α) := do
  match ← attempt x with
  | .ok v => return .ok v
  | .error (.halt f) => throw (.halt f)
  | .error (.restart .translate _ r) => return .error { status := statusWord .translate detail, page := some r }
  | .error s => return .error { status := stopStatus detail s, page := none }

/-- The rights of `n` bytes judged before an engine's access to them: what the check replaces in the PLB, or installs there,
stands though the command fails (R308). Windows are not checked (R309). -/
def engRights (detail : Nat) (need : Need) (dom va n : Nat) : M (Except EngStop Unit) :=
  (pagesOf va n).foldlM (fun r p => do
    match r, space p with
    | .ok _, .mem =>
      match ← engTry detail (judgeRights (BitVec.ofNat 64 p) need dom p) with
      | .ok (some _) => return .ok ()
      | .ok none => return .error { status := statusWord .prot detail, page := none }
      | .error e => return .error e
    | r, _ => return r) (.ok ())

/-- An access of a command to `n` bytes under a domain's rights; where M proves to be missing its re-read stands too. -/
def engDo {α : Type} (detail : Nat) (need : Need) (dom va n : Nat) (x : M α) : M (Except EngStop α) := do
  match ← engRights detail need dom va n with
  | .error e => return .error e
  | .ok _ =>
    match ← engTry detail x with
    | .error e =>
      if e.status % 256 == Cause.prot.code then plbAfterProt dom (BitVec.ofNat 64 va)
      return .error e
    | r => return r

/-- A command ends with a status; a page that is not present is reported (R284). -/
def endCommand (dom : Nat) (e : EngStop) : M Nat := do
  match e.page with
  | some r =>
    let _ ← openReport .translate r r dom (← read).core .command
    return e.status
  | none => return e.status

/-! ### Accesses of the copy engine (R270) -/

/-- The line of a local page; a page with APT not 0 is refused. -/
def engReach (va : Nat) : M LineRef := do
  let ea := BitVec.ofNat 64 va
  match ← runHome ea ea (reach (← thePart) va) with
  | .line r => return r
  | .remote _ => raise .aperture ea

/-- Up to 8 bytes within one line, read under a domain's rights. -/
def engRead (dom va n : Nat) : M Nat := do
  let ea := BitVec.ofNat 64 va
  match space va with
  | .scratch off => scratchRead ea off n
  | _ =>
    let _ ← checkRightsAt ea needR dom va
    let r ← engReach va
    runHome ea ea (readRef r va n)

/-- Bytes that may lie in two lines, read by `f` piece by piece. -/
def inPieces (va n : Nat) (f : Nat → Nat → M Nat) : M Nat :=
  (pieces va n).foldlM (fun v p => return v + (← f p.1 p.2.1) * 2 ^ (8 * p.2.2)) 0

/-- The checks of a write of such bytes. -/
def engCheckWrite (dom va : Nat) : M Unit := do
  match space va with
  | .scratch _ => return
  | _ =>
    let _ ← checkRightsAt (BitVec.ofNat 64 va) needW dom va
    let _ ← engReach va

/-- The line of an address of memory goes into the core's L1 (R283). -/
def engInstall (va : Nat) : M Unit := do
  match space va with
  | .scratch _ => return
  | _ => cacheLine (← read).pkg va (← engReach va)

/-- The write itself, once checked. -/
def engWrite (dom va n v : Nat) : M Unit := do
  let ea := BitVec.ofNat 64 va
  match space va with
  | .scratch off => scratchWrite off n v
  | _ =>
    let r ← engReach va
    runHome ea ea (writeRef r va n v dom)

/-! ### Ranges and locks (R104, R270, R282) -/

/-- A range [lo, hi) of bytes, which may lie outside the address space. -/
structure Span where
  lo : Int
  hi : Int
  deriving DecidableEq, Repr

def spanAt (a : Word) (len : Nat) : Span := { lo := a.toNat, hi := a.toNat + len }

/-- The first byte of a range outside translated memory and the own scratchpad; none when it lies wholly in one. -/
def Span.outside (s : Span) : Option Int :=
  if s.hi <= s.lo then none
  else if s.lo < 0 then some s.lo
  else if s.lo < windowBase then (if s.hi <= windowBase then none else some windowBase)
  else if scratchBase <= s.lo && s.lo < scratchBase + scratchBytes then
    (if s.hi <= scratchBase + scratchBytes then none else some (scratchBase + scratchBytes))
  else some s.lo

/-- CheckWindows (R278). -/
def checkWindows (ss : List Span) : M Unit :=
  match ss.findSome? Span.outside with
  | some a => raise .aperture (BitVec.ofInt 64 a)
  | none => return

/-- The free entries of the range-lock table. -/
def Core.freeLocks (c : Core) : List Nat := (List.range 16).filter fun k => (findAt c.locks k).isNone

/-- LockRanges: it blocks while entries are short (R104). -/
def lockRanges (serial : Nat) (ss : List Span) : M Unit := do
  let free := (← theCore).freeLocks
  if free.length < ss.length then block
  (free.zip ss).forM fun p => modCore fun c =>
    { c with locks := setAt c.locks p.1 { base := p.2.lo.toNat, len := (p.2.hi - p.2.lo).toNat, cmd := serial } }

/-! ### Issue and completion -/

/-- The stores and posted reductions that the issuing stream has released before a command have all performed (R53). -/
def writesBefore (serial : Nat) : M Bool := return (← theWrites).all fun n => serial <= n

/-- A token whose command has ended when it issues. -/
def instantToken (status : Nat) : M Word := do
  let (_, tok) ← takeToken .command (some (BitVec.ofNat 16 status))
  return tok

/-- Start of a command: a token slot, its locks, and the command itself. -/
def startCommand (e : Engine) (op : Nat) (args : List Word) (locks : List Span) : M Word := do
  let (slot, tok) ← takeToken .command none
  let serial ← nextSerial
  lockRanges serial locks
  modCore fun c => { c with cmds := c.cmds ++
    [{ serial := serial, engine := e, op := op, slot := some slot, dom := c.dom.toNat, args := args }] }
  return tok

/-- A command ends: its locks are released, and its status is in its token, or with the strand whose copy-in it was. -/
def commandDone (serial status : Nat) : M Unit := do
  let c ← theCore
  match c.cmds.find? fun k => k.serial == serial with
  | none => return
  | some cmd =>
    let told : List (Nat × Token) :=
      match cmd.slot with
      | some k => (match findAt c.tokens k with
        | some t => setAt c.tokens k { t with status := some (BitVec.ofNat 16 status) }
        | none => c.tokens)
      | none => c.tokens
    modCore fun c => { c with
      cmds := c.cmds.filter fun k => k.serial != serial
      locks := c.locks.filter fun l => l.2.cmd != serial
      tokens := told }
    if cmd.slot.isNone then
      let me := (← read).core
      let hear (s : Strand) : Strand :=
        if s.bound == some me && s.copyIns.contains serial then
          { s with
            copyIns := s.copyIns.filter (· != serial)
            copyBad := if status == 0 then s.copyBad else (s.copyBad <|> some (status % 256)) }
        else s
      modSched fun x => { x with strands := x.strands.map hear }

/-! ### Moving elements (R273, R279 to R281, R284) -/

/-- One element of a copy: where it is read, or its value; where it is written; its bytes. -/
structure Move where
  src : Option Nat
  val : Nat
  dst : Option Nat
  n : Nat
  deriving DecidableEq, Repr

/-- The pieces of a range that lie each in one aligned 8-byte part, the unit that an engine writes (Table 3.1): address and
length. -/
def unitPieces (va n : Nat) : List (Nat × Nat) :=
  (List.range ((va % 8 + n + 7) / 8)).map fun k =>
    let lo := Nat.max va (va / 8 * 8 + 8 * k)
    (lo, Nat.min (va + n) (va / 8 * 8 + 8 * k + 8) - lo)

/-- An element's source as it stands before the command, its destination checked: the value, or the status it gives. -/
def moveRead (dom : Nat) (m : Move) : M (Except EngStop Nat) := do
  let v ← match m.src with
    | some a => engDo 1 needR dom a m.n (inPieces a m.n (engRead dom))
    | none => pure (.ok m.val)
  match v, m.dst with
  | .ok x, some d =>
    match ← engDo 2 needW dom d m.n (engCheckWrite dom d) with
    | .ok _ => return .ok x
    | .error e => return .error e
  | r, _ => return r

/-- The aligned 8-byte parts an element writes. -/
def Move.parts (m : Move) : List Nat :=
  match m.dst with
  | some d => ((List.range m.n).map fun k => (d + k) / 8).eraseDups
  | none => []

/-- The elements of a command, each with its number, are moved: the status. `inPlace` lets an element read what the
command has already written (R280); `keep` installs each line it writes in the L1 (R283). -/
def runMoves (serial dom : Nat) (inPlace keep : Bool) (ms : List Move) : M Nat := do
  let put (d n v : Nat) : M Unit := do
    engWrite dom d n v
    if keep then engInstall d
  let order := sortKey (fun p : Move × Nat => Config.elemKey serial p.2) ms.zipIdx
  let rs ← order.mapM fun p => do return (p, ← moveRead dom p.1)
  let bad := rs.filterMap fun r => match r.2 with
    | .error e => some e
    | .ok _ => none
  match bad with
  | [] =>
    rs.forM fun r => do
      match r.2, r.1.1.dst with
      | .ok old, some d =>
        let v ← match r.1.1.src with
          | some a => if inPlace && !Config.elemFromOld serial r.1.2 then inPieces a r.1.1.n (engRead dom) else pure old
          | none => pure old
        put d r.1.1.n v
      | _, _ => return
    return 0
  | e :: _ =>
    let spoiled := rs.flatMap fun r => match r.2 with
      | .error _ => r.1.1.parts
      | .ok _ => []
    rs.forM fun r => do
      match r.2, r.1.1.dst with
      | .ok old, some d =>
        if r.1.1.parts.all fun p => !spoiled.contains p && Config.partDone serial p then put d r.1.1.n old
      | _, _ => return
    endCommand dom e

end Sys2Proof.Machine
end

