-- ==== Sys2Proof/Machine/Bank.lean ====
section
/-!
DEFINITION. Sys2Proof/Machine/Bank.lean: bank units: the command descriptor and bank layout, BMV, BTAB and BLAY, their
checks and their completion (spec 12, R251 to R265).
-/

namespace Sys2Proof.Machine

/-! ### Descriptors (R256) -/

/-- The fields of a descriptor (Table 12.1). -/
structure BankDesc where
  image : Nat
  smask : Nat
  n : Nat
  segblk : Nat
  k : Nat
  j0 : Nat
  nj : Nat
  fmt : Nat
  cb : Nat
  slot : Nat
  batch : Nat
  xv : Nat
  xpitch : Nat
  ypitch : Nat
  yv : Nat
  deriving DecidableEq, Repr

def bankDesc (w : Nat → Nat) : BankDesc :=
  { image := w 0, smask := natBits (w 1) 15 0, n := natBits (w 1) 31 16, segblk := natBits (w 1) 63 32,
    k := natBits (w 2) 16 0, j0 := natBits (w 2) 47 32, nj := natBits (w 2) 63 48, fmt := natBits (w 3) 2 0,
    cb := natBits (w 3) 6 3, slot := natBits (w 3) 12 7, batch := natBits (w 3) 14 13, xv := w 4,
    xpitch := natBits (w 5) 31 0, ypitch := natBits (w 5) 63 32, yv := w 6 }

/-- The stacks of a mask, the lowest first. -/
def stacksOf (mask : Nat) : List Nat := (List.range 16).filter fun s => mask / 2 ^ s % 2 == 1

/-- Element width s, elements of a block E, and chunks NC of a column (R252). -/
def BankDesc.bits (d : BankDesc) : Nat := tileBits d.fmt
def BankDesc.perBlock (d : BankDesc) : Nat := 16384 / d.bits
def BankDesc.chunks (d : BankDesc) : Nat := (d.k + d.perBlock - 1) / d.perBlock

/-- The limits of Table 12.1, for BMV or BLAY. -/
def bankDescOk (lay : Bool) (w : Nat → Nat) : Bool :=
  let d := bankDesc w
  let s := (stacksOf d.smask).length
  d.image % 2048 == 0 && d.image < 2 ^ 57 && d.smask != 0 && 1 <= d.n && 1 <= d.k && d.k <= 65536 &&
    natBits (w 2) 31 17 == 0 && 1 <= d.nj && d.nj <= 4096 && d.j0 + d.nj <= d.n && 1 <= d.fmt && d.fmt <= 4 &&
    (d.fmt == 4 || d.cb == 0) && w 3 < 2 ^ 15 && d.xv % 4 == 0 && d.xpitch % 4 == 0 && w 7 == 0 &&
    (d.n + s - 1) / s * d.chunks <= d.segblk &&
    (if lay then d.cb == 0 && d.slot == 0 && d.batch == 0 && d.ypitch == 0 && d.yv == 0
     else (3 <= d.fmt || d.slot == 0) && d.ypitch % 4 == 0 && d.yv % 4 == 0)

/-- The VA of chunk c of column j (R252). -/
def BankDesc.blockVa (d : BankDesc) (j c : Nat) : Nat :=
  let s := (stacksOf d.smask).length
  d.image + 2048 * d.segblk * (j % s) + 2048 * (j / s * d.chunks + c)

/-- The stack of column j. -/
def BankDesc.stackOf (d : BankDesc) (j : Nat) : Nat :=
  let ss := stacksOf d.smask
  ss.getD (j % ss.length) 0

def BankDesc.columns (d : BankDesc) : List Nat := (List.range d.nj).map (· + d.j0)

/-- The elements of a chunk that are no padding. -/
def BankDesc.chunkLen (d : BankDesc) (c : Nat) : Nat := Nat.min d.perBlock (d.k - d.perBlock * c)

/-! ### Issue (R257 to R259) -/

/-- The descriptor is read, its fields are judged once the token is taken, and the spans are locked. -/
def issueBank (op : Nat) (lay : Bool) (d a : BitVec 5) : M Flow := do
  let v ← src a
  if v.toNat % 64 != 0 then raise .align v
  let raw ← loadSpan v 64
  let ws : List Word := (List.range 8).map fun k => BitVec.ofNat 64 (bytesAt raw (8 * k) 8)
  let w (k : Nat) : Nat := (ws.getD k 0).toNat
  let tok ← if bankDescOk lay w then
      let x := bankDesc w
      let src : Span :=
        if lay then { lo := x.xv, hi := x.xv + (x.k - 1) * x.xpitch + (x.n * x.bits + 7) / 8 }
        else { lo := x.xv, hi := x.xv + x.batch * x.xpitch + 4 * x.k }
      let out : Span := { lo := x.yv, hi := x.yv + x.batch * x.ypitch + 4 * x.nj }
      startCommand .bank op ws (if lay then [src] else [src, out])
    else instantToken (statusWord .bankunit 1)
  dst d tok
  return .seq

/-- BMV (R258, R260). -/
def actBmv (d : BitVec 5) (a : BitVec 5) : M Flow := issueBank 0x6C false d a

/-- BMV as a unit: a commit point (R258). -/
def execBmv (d : BitVec 5) (a : BitVec 5) (s : State) : Host.Outcome State Fault Refusal :=
  loneCommit (.bmv d a) (actBmv d a) s

/-- BLAY (R258, R263). -/
def actBlay (d : BitVec 5) (a : BitVec 5) : M Flow := issueBank 0x6E true d a

/-- BLAY as a unit: a commit point (R258). -/
def execBlay (d : BitVec 5) (a : BitVec 5) (s : State) : Host.Outcome State Fault Refusal :=
  loneCommit (.blay d a) (actBlay d a) s

/-- BTAB (R258, R262): its operands are judged once the token is taken. -/
def actBtab (d : BitVec 5) (a : BitVec 5) (b : BitVec 5) : M Flow := do
  let v ← src a
  let w ← src b
  let ok := v.toNat % 64 == 0 && natBits w.toNat 31 16 != 0 && natBits w.toNat 15 6 == 0 && natBits w.toNat 63 32 == 0
  let tok ← if ok then startCommand .bank 0x6D [v, w] (if v == 0 then [] else [spanAt v 1024])
    else instantToken (statusWord .bankunit 1)
  dst d tok
  return .seq

/-- BTAB as a unit: a commit point (R258). -/
def execBtab (d : BitVec 5) (a : BitVec 5) (b : BitVec 5) (s : State) : Host.Outcome State Fault Refusal :=
  loneCommit (.btab d a b) (actBtab d a b) s

/-! ### The checks of a command (R264) -/

/-- A page a command touches: an address in it, the right it needs, and the stack it must lie in when it holds weights. -/
structure PageUse where
  va : Nat
  need : Need
  stack : Option Nat
  deriving DecidableEq, Repr

/-- The pages of a range of memory; a scratchpad range of operands has none. -/
def pageUses (need : Need) (stack : Option Nat) (va n : Nat) : List PageUse :=
  if va < windowBase || stack.isSome then (pagesOf va n).map fun p => { va := p / 4096 * 4096, need := need, stack := stack } else []

/-- Checks made one after another until one fails. -/
def firstOf : List (M (Option Nat)) → M (Option Nat)
  | [] => return none
  | x :: xs => do
    match ← x with
    | some st => return some st
    | none => firstOf xs

/-- A check made on one page after another. -/
def firstBad (xs : List PageUse) (f : PageUse → M (Option Nat)) : M (Option Nat) := firstOf (xs.map f)

def bankStatus (n : Nat) : Nat := statusWord .bankunit n

/-- A check of a page's leaf. -/
def leafCheck (ps : List PageUse) (bad : PageUse → Trans → Bool) (st : Nat) : M (Option Nat) :=
  firstBad ps fun p => do
    match ← attempt (runHome 0 0 (translate p.va)) with
    | .ok t => return if bad p t then some st else none
    | .error _ => return none

/-- The line of an operand's address, here or at a peer that M reaches (R322). -/
def bankReach (dom va : Nat) (need : Need) : M (Nat × LineRef) := do
  let ea := BitVec.ofNat 64 va
  let m ← checkRightsAt ea need dom va
  withM dom m va fun m => locate ea ea false m va

/-- An operand page on another package: how reaching it fails; none where it is reached, or where the page is local. -/
def farStop (dom : Nat) (p : PageUse) : M (Option Stop) := do
  if p.stack.isSome then return none
  match ← attempt (runHome 0 0 (translate p.va)) with
  | .ok t =>
    if t.leaf.apt == 0 then return none
    match ← attempt (bankReach dom p.va p.need) with
    | .ok _ => return none
    | .error (.halt f) => throw (.halt f)
    | .error s =>
      if s == .raise .prot (BitVec.ofNat 64 p.va) then plbAfterProt dom (BitVec.ofNat 64 p.va)
      return some s
  | .error _ => return none

/-- How a check's stop ends the command (Table 12.3): a page that is not present is reported. DESIGN CHOICE (log 106): APERTURE,
for which the table has no row, is given as rights denied. -/
def bankStop (dom : Nat) (s : Stop) : M Nat := do
  match s with
  | .halt f => throw (.halt f)
  | .raise .prot _ | .raise .aperture _ => return bankStatus 5
  | .raise .poison _ => return bankStatus 7
  | .raise .owner _ | .restart .owner _ _ => return bankStatus 6
  | .restart .translate _ r => endCommand dom { status := statusWord .translate 0, page := some r }
  | s => return stopStatus 0 s

/-- Rights, translation, class, stack and owner of every page, in the order of R264. A page of an image in the windows has no
rights to check (R309); no leaf maps it. -/
def checkPages (dom : Nat) (uses : List PageUse) : M (Option Nat) := do
  let ps := sortKey PageUse.va uses.eraseDups
  firstOf
    [firstBad ps fun p => do
      if windowBase <= p.va then return none
      match ← attempt (judgeRights (BitVec.ofNat 64 p.va) p.need dom p.va) with
      | .ok (some _) => return none
      | .ok none => return some (bankStatus 5)
      | .error s => return some (← bankStop dom s),
    firstBad ps fun p => do
      match ← farStop dom p with
      | some (.raise .prot _) => return some (bankStatus 5)
      | some (.raise .aperture _) => return some (bankStatus 5)
      | _ => return none,
    firstBad ps fun p => do
      if windowBase <= p.va then return some (statusWord .translate 0)
      match ← engTry 0 (runHome 0 (BitVec.ofNat 64 p.va) do
          if (← get).invalidating p.va then throw .wait
          translate p.va) with
      | .ok _ => return none
      | .error e =>
        return some (← endCommand dom e),
    leafCheck ps (fun p t => p.stack.isSome && t.leaf.cls != 1) (bankStatus 3),
    leafCheck ps (fun p t => match p.stack with
      | some s => t.leaf.apt != 0 || t.pa p.va / 2 ^ 36 != s
      | none => false) (bankStatus 4),
    firstBad ps fun p => do
      let far ← farStop dom p
      let local_ ← attempt (runHome 0 0 do
          let t ← translate p.va
          if t.leaf.apt == 0 then
            let _ ← checkOwner (homeSlice p.va) t.leaf (t.pa p.va)
          return ())
      let ended := far <|> (match local_ with
        | .ok _ => none
        | .error s => some s)
      match ended with
      | none => return none
      | some s => return some (← bankStop dom s)]

/-- The stacks of the partition that holds the core. -/
def partStacks : M Nat := do
  return ((findAt (← thePkg).ctl.parts (← thePart)).map (·.stackMask.toNat)).getD 0

/-- A command's slot as the package numbers it; none beyond the partition's grant (R254). -/
def slotNumber (slot : Nat) : M (Option Nat) := do
  match findAt (← thePkg).ctl.parts (← thePart) with
  | some p => return if slot < p.tsCount then some (p.tsBase + slot) else none
  | none => return none

/-- The table slot of a stack, for its owner only. -/
def ownSlot (dom stack slot : Nat) : M (Option BankSlot) := do
  match ← slotNumber slot with
  | none => return none
  | some n => return (findAt (← thePkg).bankSlots (64 * stack + n)).bind fun s => if s.owner == dom then some s else none

/-! ### BMV (R260, R261) -/

/-- The weight at an element of a chunk's 2 KiB, as an f32 pattern. -/
def weightAt (d : BankDesc) (tb : Table) (block kk : Nat) : Nat :=
  let x := block / 2 ^ (d.bits * kk) % 2 ^ d.bits
  match d.fmt with
  | 1 => widenExact bf16 x
  | 2 => widenExact f16 x
  | 3 => tb.decode .c8 x
  | _ => tb.decode (.c4 d.cb) x

/-- StackTree (R261): pairs of chunk results, `per` elements to a chunk. -/
def stackTree (core per : Nat) : Nat → Nat → List Nat → Flags → Nat × Flags
  | 0, _, xs, fl => (xs.headD 0, fl)
  | n + 1, span, xs, fl =>
    let node (k x y : Nat) : Nat × Flags :=
      match combineNaN x y with
      | some r => r
      | none => (matEnv core).add (per * (k + span) % 256) false x y
    let r := gather (treeLevel node span 0 xs)
    stackTree core per n (2 * span) r.1 (fl ||| r.2)

/-- The least number of levels whose leaves hold `n`. -/
def treeLevels (n : Nat) : Nat := if n <= 1 then 0 else Nat.log2 (n - 1) + 1

/-- One result: the chunks' sums and their tree (R260). -/
def bmvResult (core : Nat) (d : BankDesc) (tb : Table) (x : List Nat) (blocks : List Nat) : Nat × Flags :=
  let per := d.perBlock
  let parts := gather ((List.range d.chunks).map fun c =>
    let ws := (List.range (d.chunkLen c)).map (weightAt d tb (blocks.getD c 0))
    mmaElem core (per * c) none ((x.drop (per * c)).take (d.chunkLen c)) ws)
  let lv := treeLevels d.chunks
  let r := stackTree core per lv 1 (parts.1 ++ List.replicate (2 ^ lv - d.chunks) 0) 0
  (r.1, parts.2 ||| r.2)

/-- A read of up to 8 bytes of an operand within one line. -/
def bankRead (dom va n : Nat) : M Nat := do
  let ea := BitVec.ofNat 64 va
  match space va with
  | .scratch off => scratchRead ea off n
  | _ =>
    let (p, r) ← bankReach dom va needR
    runHomeAt p ea ea (readRef r va n)

/-- A write of a result, once checked. -/
def bankWrite (dom va n v : Nat) : M Unit := do
  let ea := BitVec.ofNat 64 va
  match space va with
  | .scratch off => scratchWrite off n v
  | _ =>
    let (p, r) ← bankReach dom va needW
    runHomeAt p ea ea (writeRef r va n v dom)

/-- A 4-byte read of an operand. -/
def readWord32 (dom va : Nat) : M Nat := bankRead dom va 4

/-- The bytes of a chunk that hold elements, read directly from HBM (R253). -/
def readChunk (d : BankDesc) (j c : Nat) : M Nat := do
  let va := d.blockVa j c
  let n := (d.chunkLen c * d.bits + 7) / 8
  runHome 0 0 do
    let t ← translate va
    let pa := t.pa va
    if (← get).hbmPois.any fun p => pa < 8 * p + 8 && 8 * p < pa + n then throw (.fault .poison)
    readHbm pa n

/-- The table of a column's stack. -/
def columnTable (dom : Nat) (d : BankDesc) (j : Nat) : M Table := do
  if d.fmt < 3 then return Table.empty
  match ← ownSlot dom (d.stackOf j) d.slot with
  | some s => return Vector.ofFn fun i => s.entries.getD i.val 0
  | none => return Table.empty

/-- Uncorrectable data ends a command with detail 7. -/
def dataTry {α : Type} (x : M α) : M (Except Nat α) := do
  match ← attempt x with
  | .ok v => return .ok v
  | .error (.halt f) => throw (.halt f)
  | .error (.raise .poison _) => return .error (bankStatus 7)
  | .error s => return .error (stopStatus 0 s)

/-- The results of a BMV: each with its address; and the flags of every rounding. -/
def bmvCompute (dom : Nat) (d : BankDesc) : M (List (Nat × Nat) × Flags) := do
  let core := (← read).core
  let xs ← (List.range (d.batch + 1)).mapM fun b =>
    (List.range d.k).mapM fun k => do return roundE8M10 (← readWord32 dom (d.xv + b * d.xpitch + 4 * k))
  let rs ← d.columns.mapM fun j => do
    let tb ← columnTable dom d j
    let blocks ← (List.range d.chunks).mapM fun c => readChunk d j c
    return xs.zipIdx.map fun p =>
      let r := bmvResult core d tb p.1 blocks
      ((d.yv + p.2 * d.ypitch + 4 * (j - d.j0), r.1), r.2)
  let all := rs.flatMap id
  return (all.map (·.1), all.foldl (fun f r => f ||| r.2) 0)

/-- The pages BMV touches. -/
def bmvPages (d : BankDesc) : List PageUse :=
  (d.columns.flatMap fun j => (List.range d.chunks).flatMap fun c =>
    pageUses needR (some (d.stackOf j)) (d.blockVa j c) ((d.chunkLen c * d.bits + 7) / 8)) ++
  ((List.range (d.batch + 1)).flatMap fun b => pageUses needR none (d.xv + b * d.xpitch) (4 * d.k)) ++
  ((List.range (d.batch + 1)).flatMap fun b => pageUses needW none (d.yv + b * d.ypitch) (4 * d.nj))

/-- A BTAB whose table has been read: its operands, the stacks still to load, and the table. -/
def btabHeld (k : Command) : Option (Nat × List Word) :=
  match k.args with
  | _ :: _ :: left :: ds => some (left.toNat, ds)
  | _ => none

/-- A BTAB of another domain of the partition, which has passed its checks, is to load a slot of a stack. -/
def Package.slotClaimed (x : Package) (part dom slot stack : Nat) : Bool :=
  x.cores.any fun c => x.ctl.partOf c.1 == some part && c.2.cmds.any fun k =>
    k.engine == .bank && k.op == 0x6D && k.dom != dom && natBits (k.args.getD 1 0).toNat 5 0 == slot &&
      ((btabHeld k).map fun h => h.1 / 2 ^ stack % 2 == 1).getD false

/-- Checks 2 to 4 of R264: the mask, the windows, and the slot of every stack of the mask. -/
def checkPlace (dom smask : Nat) (spans : List Span) (slot : Option (Nat × List Nat)) (empty : Bool) : M (Option Nat) := do
  let ok ← partStacks
  if !((stacksOf smask).all fun s => ok / 2 ^ s % 2 == 1) then return some (bankStatus 9)
  if spans.any fun s => s.outside.isSome then return some (bankStatus 8)
  match slot with
  | none => return none
  | some (n, ss) =>
    match ← slotNumber n with
    | none => return some (bankStatus 2)
    | some _ =>
      let x ← thePkg
      let k := (← slotNumber n).getD 0
      let part ← thePart
      let bad := ss.any fun s =>
        match findAt x.bankSlots (64 * s + k) with
        | some b => b.owner != dom
        | none => !empty || x.slotClaimed part dom n s
      return if bad then some (bankStatus 2) else none

/-- BMV: its status, once its results are written. -/
def runBmv (k : Command) (d : BankDesc) : M Nat := do
  let spans : List Span :=
    [{ lo := d.xv, hi := d.xv + d.batch * d.xpitch + 4 * d.k }, { lo := d.yv, hi := d.yv + d.batch * d.ypitch + 4 * d.nj }]
  match ← checkPlace k.dom d.smask spans (if d.fmt < 3 then none else some (d.slot, stacksOf d.smask)) false with
  | some st => return st
  | none =>
    match ← checkPages k.dom (bmvPages d) with
    | some st => return st
    | none =>
      match ← dataTry (bmvCompute k.dom d) with
      | .error st => return st
      | .ok (rs, fl) =>
        (sortKey (fun p : (Nat × Nat) × Nat => Config.elemKey k.serial p.2) rs.zipIdx).forM fun p =>
          bankWrite k.dom p.1.1 4 p.1.2
        return fl.toNat % 16 * 2 ^ 8

/-! ### BLAY (R263) -/

/-- The bits of element (k, j) of the source. -/
def blayElem (dom : Nat) (d : BankDesc) (k j : Nat) : M Nat := do
  let bit := 8 * (d.xv + k * d.xpitch) + d.bits * j
  let n := (d.bits + 7) / 8
  let lo ← bankRead dom (bit / 8) 1
  let hi ← if n == 2 then bankRead dom (bit / 8 + 1) 1 else pure 0
  return (lo + 256 * hi) / 2 ^ (bit % 8) % 2 ^ d.bits

/-- The 2 KiB of a chunk of a column. -/
def blayBlock (dom : Nat) (d : BankDesc) (j c : Nat) : M (Nat × Nat) := do
  let es ← (List.range (d.chunkLen c)).mapM fun kk => blayElem dom d (d.perBlock * c + kk) j
  return (d.blockVa j c, joinLanes d.bits es)

/-- The byte ranges of the source that BLAY reads, row by row. -/
def blayRows (d : BankDesc) : List (Nat × Nat) :=
  (List.range d.k).map fun k =>
    let a := d.xv + k * d.xpitch
    (a + d.bits * d.j0 / 8, a + (d.bits * (d.j0 + d.nj) + 7) / 8)

def blayBlocks (d : BankDesc) : List (Nat × Nat) :=
  d.columns.flatMap fun j => (List.range d.chunks).map fun c => (j, c)

/-- BLAY: its status, once its blocks are written. -/
def runBlay (k : Command) (d : BankDesc) : M Nat := do
  let span : Span := { lo := d.xv, hi := d.xv + (d.k - 1) * d.xpitch + (d.n * d.bits + 7) / 8 }
  match ← checkPlace k.dom d.smask [span] none false with
  | some st => return st
  | none =>
    if (blayBlocks d).any fun b => (blayRows d).any fun r =>
        overlaps r.1 r.2 (d.blockVa b.1 b.2) (d.blockVa b.1 b.2 + 2048) then return bankStatus 11
    let pages := ((blayBlocks d).flatMap fun b =>
        pageUses needW (some (d.stackOf b.1)) (d.blockVa b.1 b.2) 2048) ++
      (blayRows d).flatMap fun r => pageUses needR none r.1 (r.2 - r.1)
    match ← checkPages k.dom pages with
    | some st => return st
    | none =>
      match ← dataTry ((blayBlocks d).mapM fun b => blayBlock k.dom d b.1 b.2) with
      | .error st => return st
      | .ok bs =>
        bs.forM fun b => (List.range 16).forM fun i =>
          engWrite k.dom (b.1 + 128 * i) 128 (b.2 / 2 ^ (1024 * i) % 2 ^ 1024)
        return 0

/-! ### BTAB (R262) -/

/-- A BTAB's table, once its operands are checked; none empties the slot. -/
def btabCheck (k : Command) : M (Except Nat (Option (List Word))) := do
  let va := (k.args.getD 0 0).toNat
  let w := (k.args.getD 1 0).toNat
  let smask := natBits w 31 16
  let spans := if va == 0 then [] else [spanAt (k.args.getD 0 0) 1024]
  match ← checkPlace k.dom smask spans (some (natBits w 5 0, stacksOf smask)) true with
  | some st => return .error st
  | none =>
    if va == 0 then return .ok none
    match ← checkPages k.dom (pageUses needR none va 1024) with
    | some st => return .error st
    | none =>
      match ← dataTry ((List.range 128).mapM fun i => bankRead k.dom (va + 8 * i) 8) with
      | .error st => return .error st
      | .ok ds =>
        let es := ds.flatMap fun x => [x % 2 ^ 32, x / 2 ^ 32]
        if es.all entryOk then return .ok (some (ds.map (BitVec.ofNat 64))) else return .error (bankStatus 10)

/-- BTAB_SLOT_REPLACE (R262): the slot of one stack is replaced or emptied. A BMV is one step at its base dies, so none
that has started is under way. -/
def btabSlotReplace (serial stack : Nat) : M Unit := do
  match (← theCore).cmds.find? fun k => k.serial == serial && k.engine == .bank && k.op == 0x6D with
  | none => return
  | some k =>
    match btabHeld k with
    | none => return
    | some (left, ds) =>
      if left / 2 ^ stack % 2 == 0 then return
      match ← slotNumber (natBits (k.args.getD 1 0).toNat 5 0) with
      | none => return
      | some n =>
        let es : List (BitVec 32) := ds.flatMap fun x => [x.setWidth 32, x.extractLsb' 32 32]
        let slot : BankSlot := { owner := k.dom, entries := es }
        if ((findAt (← thePkg).bankSlots (64 * stack + n)).map fun b => b.owner != k.dom).getD false then
          commandDone serial (bankStatus 2)
          return
        modPkg fun x => { x with bankSlots :=
          if ds.isEmpty then dropAt x.bankSlots (64 * stack + n) else setAt x.bankSlots (64 * stack + n) slot }
        let upd (c : Command) : Command :=
          if c.serial == serial then { c with args := c.args.set 2 (BitVec.ofNat 64 (left - 2 ^ stack)) } else c
        modCore fun c => { c with cmds := c.cmds.map upd }

/-- BTAB_SLOT_REPLACE as an event (R262). -/
def execBtabSlotReplace (serial stack : Nat) (s : State) : Host.Outcome State Fault Refusal :=
  event (btabSlotReplace serial stack) s

/-! ### Completion (R264, R265) -/

/-- The locks of a command are released before it ends: it makes no access to their ranges any more (R259). -/
def Core.unlocked (c : Core) (serial : Nat) : Core := { c with locks := c.locks.filter fun l => l.2.cmd != serial }

/-- BANK_COMMAND_COMPLETE: once the writes released before it have performed (R265), a command of the core's performs or
fails, and ends. A BTAB reads its table first, whose lock it then gives up, and ends when every stack of it is loaded. -/
def bankCommandComplete (serial : Nat) : M Unit := do
  let c ← theCore
  match c.cmds.find? fun k => k.serial == serial && k.engine == .bank with
  | none => return
  | some k =>
    if !(← writesBefore serial) then return
    let d := bankDesc fun n => (k.args.getD n 0).toNat
    if k.op == 0x6C then commandDone serial (← runBmv k d)
    else if k.op == 0x6E then commandDone serial (← runBlay k d)
    else
      match btabHeld k with
      | some (left, _) => if left == 0 then commandDone serial 0
      | none =>
        match ← btabCheck k with
        | .error st => commandDone serial st
        | .ok t =>
          let held := k.args ++ [BitVec.ofNat 64 (natBits (k.args.getD 1 0).toNat 31 16)] ++ t.getD []
          let upd (c : Command) : Command := if c.serial == serial then { c with args := held } else c
          modCore fun c => ({ c with cmds := c.cmds.map upd } : Core).unlocked serial

/-- BANK_COMMAND_COMPLETE as an event (R264). -/
def execBankCommandComplete (serial : Nat) (s : State) : Host.Outcome State Fault Refusal :=
  event (bankCommandComplete serial) s

end Sys2Proof.Machine
end

