-- ==== Sys2Proof/Machine/Copy.lean ====
section
/-!
DEFINITION. Sys2Proof/Machine/Copy.lean: the copy engine: SHPMK, SHPDEL, COPY, COPYS, CFILL and the completion of their
commands (spec 14, R269 to R286).
-/

namespace Sys2Proof.Machine

/-! ### The shape table (R272, R274) -/

/-- Copies a core's shape table holds. -/
def shapeTableSize : Nat := 32

/-- The twelve dwords of an object's 96 bytes. -/
def shapeWords (v : Nat) : List Word := (List.range 12).map fun k => BitVec.ofNat 64 (bytesAt v (8 * k) 8)

def shapeOf (ws : List Word) : Option ShapeObj := parseShape fun k => (ws.getD k 0).toNat

/-- A sealed copy enters the table; the least recently used one leaves a full table. -/
def Core.sealShape (c : Core) (x : Shape) : Core :=
  let rest := c.shapes.filter fun s => !(s.va == x.va && s.dom == x.dom)
  { c with shapes := (if shapeTableSize <= rest.length then rest.drop 1 else rest) ++ [x] }

/-- Sealing an object (R272, R276). -/
def sealAt (v : Word) : M (List Word) := do
  if v.toNat % 32 != 0 then raise .align v
  let ws := shapeWords (← loadSpan v 96)
  if (shapeOf ws).isNone then raise .shape v
  modCore fun c => c.sealShape { va := v.toNat, dom := c.dom.toNat, words := ws }
  return ws

/-- The sealed copy of a handle, which is used now, or a new sealing (R274). -/
def sealed (h : Word) : M (List Word) := do
  let c ← theCore
  match c.shapes.find? fun s => s.va == h.toNat && s.dom == c.dom.toNat with
  | some s =>
    modCore fun c => c.sealShape s
    return s.words
  | none => sealAt h

/-- SHPMK (R276): not a commit point. -/
def actShpmk (d : BitVec 5) (a : BitVec 5) : M Flow := do
  let v ← src a
  let _ ← sealAt v
  dst d v
  return .seq

/-- SHPMK as a unit (R276). -/
def execShpmk (d : BitVec 5) (a : BitVec 5) (s : State) : Host.Outcome State Fault Refusal :=
  lone (.shpmk d a) (actShpmk d a) s

/-- SHPDEL (R277). -/
def actShpdel (a : BitVec 5) : M Flow := do
  let v ← src a
  modCore fun c => { c with shapes := c.shapes.filter fun s => !(s.va == v.toNat && s.dom == c.dom.toNat) }
  return .seq

/-- SHPDEL as a unit (R277). -/
def execShpdel (a : BitVec 5) (s : State) : Host.Outcome State Fault Refusal :=
  lone (.shpdel a) (actShpdel a) s

/-! ### Issue (R278) -/

/-- The longest COPY or CFILL. -/
def copyLimit : Nat := 0x1000000

/-- COPY (R279). -/
def actCopy (d : BitVec 5) (a : BitVec 5) (b : BitVec 5) (c : BitVec 5) : M Flow := do
  let dest ← src a
  let from_ ← src b
  let len ← src c
  if copyLimit < len.toNat then raise .illegal len
  let ss := [spanAt from_ len.toNat, spanAt dest len.toNat]
  checkWindows ss
  let tok ← if len == 0 then instantToken 0 else startCommand .copy 0x72 [dest, from_, len] ss
  dst d tok
  return .seq

/-- COPY as a unit: a commit point (R278). -/
def execCopy (d : BitVec 5) (a : BitVec 5) (b : BitVec 5) (c : BitVec 5) (s : State) : Host.Outcome State Fault Refusal :=
  loneCommit (.copy d a b c) (actCopy d a b c) s

/-- A hull from its base. -/
def hullAt (sh : ShapeObj) (base : Word) (str : List Int) : Span :=
  let h := sh.hull str
  { lo := base.toNat + h.1, hi := base.toNat + h.2 }

/-- COPYS (R280): a prefetch has no destination hull. -/
def actCopys (d : BitVec 5) (a : BitVec 5) (b : BitVec 5) (c : BitVec 5) : M Flow := do
  let h ← src a
  let db ← src b
  let sb ← src c
  let ws ← sealed h
  match shapeOf ws with
  | none => raise .shape h
  | some sh =>
    if db.toNat % sh.esize != 0 || sb.toNat % sh.esize != 0 then raiseOpen .align
    if sh.mode == 2 && db != 0 then raise .illegal db
    let ss := [hullAt sh sb sh.sst, hullAt sh db sh.dst]
    checkWindows (if sh.mode == 2 then ss.take 1 else ss)
    dst d (← startCommand .copy 0x73 ([db, sb] ++ ws) ss)
    return .seq

/-- COPYS as a unit: a commit point (R278). -/
def execCopys (d : BitVec 5) (a : BitVec 5) (b : BitVec 5) (c : BitVec 5) (s : State) : Host.Outcome State Fault Refusal :=
  loneCommit (.copys d a b c) (actCopys d a b c) s

/-- CFILL (R281). -/
def actCfill (d : BitVec 5) (a : BitVec 5) (b : BitVec 5) (c : BitVec 5) : M Flow := do
  let dest ← src a
  let v ← src b
  let len ← src c
  if copyLimit < len.toNat then raise .illegal len
  let ss := [spanAt dest len.toNat]
  checkWindows ss
  let tok ← if len == 0 then instantToken 0 else startCommand .copy 0x74 [dest, v, len] ss
  dst d tok
  return .seq

/-- CFILL as a unit: a commit point (R278). -/
def execCfill (d : BitVec 5) (a : BitVec 5) (b : BitVec 5) (c : BitVec 5) (s : State) : Host.Outcome State Fault Refusal :=
  loneCommit (.cfill d a b c) (actCfill d a b c) s

/-! ### Completion (R273, R279 to R286) -/

/-- The parts of COPY. -/
def copyMoves (dest from_ len : Nat) : List Move :=
  (unitPieces dest len).map fun p => { src := some (from_ + (p.1 - dest)), val := 0, dst := some p.1, n := p.2 }

/-- The parts of CFILL: byte x takes byte x mod 8 of the value. -/
def fillMoves (dest v len : Nat) : List Move :=
  (unitPieces dest len).map fun p => { src := none, val := v / 2 ^ (8 * (p.1 % 8)) % 2 ^ (8 * p.2), dst := some p.1, n := p.2 }

/-- The elements of a sealed shape. -/
def shapeMoves (sh : ShapeObj) (db sb : Nat) : List Move :=
  sh.elems.map fun e =>
    { src := some ((sb : Int) + e.1).toNat, val := 0, dst := some ((db : Int) + e.2).toNat, n := sh.esize }

/-- A prefetch: each element is read, and the source's lines are installed in the L1 (R283). -/
def prefetch (serial dom : Nat) (ms : List Move) : M Nat := do
  let order := sortKey (fun p : Move × Nat => Config.elemKey serial p.2) ms.zipIdx
  let rs ← order.mapM fun p => do
    match p.1.src with
    | some a =>
      engDo 1 needR dom a p.1.n (do
        let _ ← engRead dom a p.1.n
        engInstall a)
    | none => return .ok ()
  let bad := rs.filterMap fun r => match r with
    | .error e => some e
    | .ok _ => none
  match bad with
  | [] => return 0
  | e :: _ => endCommand dom e

/-- COPYS by its mode. -/
def runShape (serial dom : Nat) (sh : ShapeObj) (db sb : Nat) : M Nat := do
  let ms := shapeMoves sh db sb
  if sh.mode == 2 then prefetch serial dom ms else runMoves serial dom true (sh.mode == 1) ms

/-- What a copy command does: its status. -/
def runCopy (k : Command) : M Nat := do
  let w (n : Nat) : Nat := (k.args.getD n 0).toNat
  match k.op with
  | 0x72 => runMoves k.serial k.dom false false (copyMoves (w 0) (w 1) (w 2))
  | 0x74 => runMoves k.serial k.dom false false (fillMoves (w 0) (w 1) (w 2))
  | _ =>
    match shapeOf (k.args.drop 2) with
    | some sh => runShape k.serial k.dom sh (w 0) (w 1)
    | none => return statusWord .shape 0

/-- COPY_COMMAND_COMPLETE (R284): once the writes released before it have performed (R53), a command of the core's copy
engine performs or fails, and ends. -/
def copyCommandComplete (serial : Nat) : M Unit := do
  let c ← theCore
  match c.cmds.find? fun k => k.serial == serial && k.engine == .copy with
  | none => return
  | some k =>
    if !(← writesBefore serial) then return
    commandDone serial (← runCopy k)

/-- COPY_COMMAND_COMPLETE as an event (R284). -/
def execCopyCommandComplete (serial : Nat) (s : State) : Host.Outcome State Fault Refusal :=
  event (copyCommandComplete serial) s

end Sys2Proof.Machine
end

