-- ==== Sys2Proof/Machine/Creation.lean ====
section
/-!
DEFINITION. Sys2Proof/Machine/Creation.lean: strand records taken from a domain's pool, filled and queued (spec 18,
R331, R338; spec 06, R154).
-/

namespace Sys2Proof.Machine

/-- The partition a domain belongs to, through its context (R20, Table 22.3). -/
def partOfDom (dom : Nat) : M (Option Nat) := do
  let k := (← thePkg).ctl
  return (findAt k.doms dom).bind fun d => (findAt k.ctxs d.ctx).map (·.part)

def modDom (dom : Nat) (f : DomEntry → DomEntry) : M Unit :=
  modCtl fun k => { k with doms := k.doms.map fun e => if e.1 == dom then (e.1, f e.2) else e }

/-- The lowest free record of a pool. -/
def Pool.free (p : Pool) : Option Nat := (List.range p.n).find? fun i => !p.used.contains i

/-- A strand that is forgotten leaves no trace by its record's address. -/
def Arrival.unnamed (va : Nat) (a : Arrival) : Arrival := if a == .strand va then .strand 0 else a

def ReportOf.unnamed (va : Nat) : ReportOf → ReportOf
  | .strand v c s => if v == va then .command else .strand v c s
  | w => w

/-- The package once a strand's record is free again. -/
def Package.forget (x : Package) (va : Nat) : Package :=
  { x with
    sched := { x.sched with
      strands := x.sched.strands.filter fun s => s.va != va
      searches := x.sched.searches.map fun q => { q with reqs := q.reqs.filter fun r => r.strand != va } }
    ctl := { x.ctl with reports := x.ctl.reports.map fun r => { r with who := r.who.unnamed va } }
    savedGens := x.savedGens.filter fun g => g.1 != va
    lines := x.lines.map fun l => (l.1, { l.2 with arrived := l.2.arrived.map (Arrival.unnamed va) }) }

/-- A record returned to its pool; the schedulers forget the strand (R331). -/
def freeRecord (va : Nat) : M Unit := do
  match ← findStrand va with
  | none => return
  | some s =>
    modDom s.dom fun d => { d with pool := { d.pool with used := d.pool.used.filter fun i => d.pool.va + 64 * i != va } }
    modPkg fun x => x.forget va

/-- A record taken from the domain's strand pool: its VA; none when the pool is empty (R331). A record is in use until its
strand has ended and its completion node has forwarded (log 21). -/
def takeRecord (dom : Nat) : M (Option Nat) := do
  match findAt (← thePkg).ctl.doms dom with
  | none => return none
  | some d =>
    match d.pool.free with
    | none => return none
    | some i =>
      modDom dom fun d => { d with pool := { d.pool with used := i :: d.pool.used } }
      return some (d.pool.va + 64 * i)

/-- A fresh strand at landing 0 with every other field 0. -/
def blankStrand (va handle dom prio launch : Nat) : Strand :=
  { va := va, handle := handle, landing := 0, dom := dom, prio := prio, state := .ready, gang := false, probe := false,
    replayPin := false, prot := false, frame := 0, compl := 0, arg0 := 0, arg1 := 0, indecl := 0, launch := launch,
    lpkg := 0, island := 0, status := 0, queued := 0, aged := 0, order := 0, bound := none, onCore := none, owed := [], ending := none, kept := none, poisons := 0, hostStop := false, gangId := none, member := 0,
    slot := none, node := none, point := none, copyIns := [], copyBad := none, started := false, miss := none,
    illegal := false, ctx := 0, savedAt := none, awaits := 0, arcstat := 0, path := [], spawned := 0 }

/-- The valid key slot bound to a domain. -/
def Ctl.keyOf (k : Ctl) (dom : Nat) : Option (Nat × KeySlot) := k.keys.find? fun e => e.2.valid && e.2.dom == dom

/-- A domain is stopped (R399). -/
def domStopped (dom : Nat) : M Bool := return ((findAt (← thePkg).ctl.doms dom).map (·.stopped)).getD false

/-- A new strand enters: SUSPENDED-INPUT when it declares inputs, else READY, with PROT in a protected domain (R400); its
record and the two words of its bottom frame are written, and it takes the tail of its queue (R331, R338). In a stopped domain
it is retired with TAGLOSS, like every strand of it (R399). -/
def createStrand (s : Strand) : M Unit := do
  let s := { s with
    state := if s.indecl == 0 then s.state else .suspInput
    prot := ((← thePkg).ctl.keyOf s.dom).isSome }
  modSched fun x => { x with strands := x.strands ++ [s] }
  writeRecord s.va
  sysWrite s.frame.toNat 16 0
  if ← domStopped s.dom then endStrand s.va Cause.tagloss.code 0 false
  else enqueue s.va

end Sys2Proof.Machine
end

