-- ==== Sys2Proof/Machine/Crypto.lean ====
section
/-!
DEFINITION. Sys2Proof/Machine/Crypto.lean: the digests, signatures and seals that the spec names by their standards:
SHA-256 and SHA-512 (R138), Ed25519 (R139, R150), and AES-256-GCM with a 96-bit IV (R402).
-/

namespace Sys2Proof.Machine

/-! ### Bytes -/

/-- The bytes of a number, the least significant first. -/
def bytesLE : Nat → Nat → List Nat
  | 0, _ => []
  | n + 1, v => v % 256 :: bytesLE n (v / 256)

/-- The number whose bytes, the least significant first, are these. -/
def numLE : List Nat → Nat
  | [] => 0
  | b :: bs => b + 256 * numLE bs

/-- The number whose bytes, the most significant first, are these. -/
def numBE (bs : List Nat) : Nat := bs.foldl (fun v b => 256 * v + b) 0

def bytesBE (n v : Nat) : List Nat := (bytesLE n v).reverse

/-- A list cut into pieces of `n`, by at most `fuel` cuts. -/
def cutEvery (n : Nat) : Nat → List Nat → List (List Nat)
  | 0, _ => []
  | fuel + 1, xs => if xs.isEmpty then [] else xs.take n :: cutEvery n fuel (xs.drop n)

/-! ### SHA-2 -/

/-- A member of the SHA-2 family: its word width, its rounds and its rotations. -/
structure ShaKind where
  w : Nat
  rounds : Nat
  big0 : Nat × Nat × Nat
  big1 : Nat × Nat × Nat
  small0 : Nat × Nat × Nat
  small1 : Nat × Nat × Nat
  deriving DecidableEq, Repr

def shaShort : ShaKind :=
  { w := 32, rounds := 64, big0 := (2, 13, 22), big1 := (6, 11, 25), small0 := (7, 18, 3), small1 := (17, 19, 10) }

def shaLong : ShaKind :=
  { w := 64, rounds := 80, big0 := (28, 34, 39), big1 := (14, 18, 41), small0 := (1, 8, 7), small1 := (19, 61, 6) }

def rotR (w n x : Nat) : Nat := x / 2 ^ n + x % 2 ^ n * 2 ^ (w - n)

def bigSigma (w : Nat) (r : Nat × Nat × Nat) (x : Nat) : Nat := rotR w r.1 x ^^^ rotR w r.2.1 x ^^^ rotR w r.2.2 x

def smallSigma (w : Nat) (r : Nat × Nat × Nat) (x : Nat) : Nat := rotR w r.1 x ^^^ rotR w r.2.1 x ^^^ x / 2 ^ r.2.2

/-- The primes below 410, of which there are 80. -/
def smallPrimes : List Nat :=
  (List.range 410).filter fun p => 2 <= p && (List.range p).all fun d => d < 2 || p % d != 0

/-- The greatest r with r³ ≤ n, bit by bit. -/
def icbrtAux (n : Nat) : Nat → Nat → Nat
  | 0, r => r
  | k + 1, r => icbrtAux n k (if (r + 2 ^ k) ^ 3 <= n then r + 2 ^ k else r)

/-- The round constants: the first bits of the fractional parts of the primes' cube roots. -/
def ShaKind.consts (k : ShaKind) : List Nat :=
  (smallPrimes.take k.rounds).map fun p => icbrtAux (p * 2 ^ (3 * k.w)) (k.w + 4) 0 % 2 ^ k.w

/-- The first state: the same of the square roots of the first eight primes. -/
def ShaKind.start (k : ShaKind) : List Nat :=
  (smallPrimes.take 8).map fun p => isqrtAux (p * 2 ^ (2 * k.w)) (k.w + 4) 0 % 2 ^ k.w

/-- The message schedule, the newest word first. -/
def ShaKind.extend (k : ShaKind) : Nat → List Nat → List Nat
  | 0, ws => ws
  | n + 1, ws =>
    let g (i : Nat) : Nat := ws.getD i 0
    k.extend n ((smallSigma k.w k.small1 (g 1) + g 6 + smallSigma k.w k.small0 (g 14) + g 15) % 2 ^ k.w :: ws)

def ShaKind.round (k : ShaKind) (st : List Nat) (kw : Nat × Nat) : List Nat :=
  match st with
  | [a, b, c, d, e, f, g, h] =>
    let ch := (e &&& f) ^^^ ((2 ^ k.w - 1 - e) &&& g)
    let maj := (a &&& b) ^^^ (a &&& c) ^^^ (b &&& c)
    let t1 := h + bigSigma k.w k.big1 e + ch + kw.1 + kw.2
    let t2 := bigSigma k.w k.big0 a + maj
    [(t1 + t2) % 2 ^ k.w, a, b, c, (d + t1) % 2 ^ k.w, e, f, g]
  | _ => st

def ShaKind.block (k : ShaKind) (st : List Nat) (blk : List Nat) : List Nat :=
  let ws := (k.extend (k.rounds - 16) ((cutEvery (k.w / 8) 16 blk).map numBE).reverse).reverse
  let out := (k.consts.zip ws).foldl k.round st
  (st.zip out).map fun p => (p.1 + p.2) % 2 ^ k.w

/-- The digest of a message, as bytes. -/
def ShaKind.hash (k : ShaKind) (msg : List Nat) : List Nat :=
  let bs := 2 * k.w
  let len := k.w / 4
  let zeros := (2 * bs - (msg.length + 1 + len) % bs) % bs
  let padded := msg ++ [0x80] ++ List.replicate zeros 0 ++ bytesBE len (8 * msg.length)
  ((cutEvery bs padded.length padded).foldl k.block k.start).flatMap (bytesBE (k.w / 8))

/-- The SHA-256 of the first bytes of an object, read as a little-endian number (R138). -/
def sha256 (size bytes : Nat) : Nat := numLE (shaShort.hash (bytesLE size bytes))

/-! ### Ed25519 -/

def edP : Nat := 2 ^ 255 - 19

def edL : Nat := 2 ^ 252 + 27742317777372353535851937790883648493

/-- b^e mod m, from `fuel` bits of e, the highest first. -/
def powMod (b e m : Nat) : Nat → Nat → Nat
  | 0, acc => acc
  | n + 1, acc =>
    let sq := acc * acc % m
    powMod b e m n (if e / 2 ^ n % 2 == 1 then sq * b % m else sq)

def edInv (x : Nat) : Nat := powMod x (edP - 2) edP 256 1

def edD : Nat := (edP - 121665) * edInv 121666 % edP

/-- A point as X, Y, Z, T with x = X/Z, y = Y/Z and xy = T/Z. -/
structure EdPoint where
  x : Nat
  y : Nat
  z : Nat
  t : Nat
  deriving DecidableEq, Repr

def edSub (a b : Nat) : Nat := (a + edP - b % edP) % edP

def EdPoint.add (p q : EdPoint) : EdPoint :=
  let a := edSub p.y p.x * edSub q.y q.x % edP
  let b := (p.y + p.x) * (q.y + q.x) % edP
  let c := p.t * 2 * edD % edP * q.t % edP
  let d := p.z * 2 * q.z % edP
  let e := edSub b a
  let f := edSub d c
  let g := (d + c) % edP
  let h := (b + a) % edP
  { x := e * f % edP, y := g * h % edP, z := f * g % edP, t := e * h % edP }

def edZero : EdPoint := { x := 0, y := 1, z := 1, t := 0 }

/-- n times a point, from `fuel` bits of n, the highest first. -/
def EdPoint.mul (p : EdPoint) (n : Nat) : Nat → EdPoint → EdPoint
  | 0, acc => acc
  | k + 1, acc =>
    let d := acc.add acc
    p.mul n k (if n / 2 ^ k % 2 == 1 then d.add p else d)

def EdPoint.same (p q : EdPoint) : Bool := p.x * q.z % edP == q.x * p.z % edP && p.y * q.z % edP == q.y * p.z % edP

/-- The point with a y and a sign of x; none when there is none. -/
def edLift (y sign : Nat) : Option EdPoint :=
  if edP <= y then none
  else
    let u := edSub (y * y) 1
    let v := (edD * (y * y % edP) + 1) % edP
    let xx := u * edInv v % edP
    let r := powMod xx ((edP + 3) / 8) edP 256 1
    let r := if r * r % edP == xx then r else r * powMod 2 ((edP - 1) / 4) edP 256 1 % edP
    if r * r % edP != xx then none
    else if r == 0 && sign == 1 then none
    else
      let x := if r % 2 == sign then r else edP - r
      some { x := x, y := y, z := 1, t := x * y % edP }

/-- A point from its 32 bytes. -/
def edDecode (v : Nat) : Option EdPoint := edLift (v % 2 ^ 255) (v / 2 ^ 255 % 2)

def edBase : EdPoint := (edLift (4 * edInv 5 % edP) 0).getD edZero

/-- An Ed25519 signature of 64 bytes over a message verifies against a public key of 32 bytes. -/
def edVerify (key sig : Nat) (msg : List Nat) : Bool :=
  let r := sig % 2 ^ 256
  let s := sig / 2 ^ 256
  match edDecode (key % 2 ^ 256), edDecode r with
  | some a, some rp =>
    let h := numLE (shaLong.hash (bytesLE 32 r ++ bytesLE 32 key ++ msg)) % edL
    s < edL && (edBase.mul s 256 edZero).same (rp.add (a.mul h 256 edZero))
  | _, _ => false

/-! ### AES-256 -/

/-- A product in GF(2⁸) of AES, by the bits of the second factor left. -/
def gfMul (a : Nat) : Nat → Nat → Nat
  | 0, _ => 0
  | n + 1, b =>
    let rest := gfMul (let d := 2 * a; if 256 <= d then d ^^^ 0x11B else d) n (b / 2)
    if b % 2 == 1 then a ^^^ rest else rest

/-- x^254, the inverse of x, 0 for 0. -/
def gfInv (x : Nat) : Nat :=
  let m (a b : Nat) : Nat := gfMul a 8 b
  let x2 := m x x
  let x4 := m x2 x2
  let x8 := m x4 x4
  let x16 := m x8 x8
  let x32 := m x16 x16
  let x64 := m x32 x32
  m x2 (m x4 (m x8 (m x16 (m x32 (m x64 (m x64 x64))))))

def rotL8 (x n : Nat) : Nat := (x * 2 ^ n) % 256 + x / 2 ^ (8 - n)

def sboxOf (x : Nat) : Nat :=
  let b := gfInv x
  b ^^^ rotL8 b 1 ^^^ rotL8 b 2 ^^^ rotL8 b 3 ^^^ rotL8 b 4 ^^^ 0x63

def aesSbox : List Nat := (List.range 256).map sboxOf

def subByte (x : Nat) : Nat := aesSbox.getD x 0

/-- The round keys as words of four bytes, the newest first; `i` counts the words there are. -/
def aesExpand : Nat → Nat → List (List Nat) → List (List Nat)
  | 0, _, ws => ws
  | n + 1, i, ws =>
    let prev := ws.getD 0 []
    let t :=
      if i % 8 == 0 then
        let r := (prev.drop 1 ++ prev.take 1).map subByte
        (r.getD 0 0 ^^^ 2 ^ (i / 8 - 1)) :: r.drop 1
      else if i % 8 == 4 then prev.map subByte
      else prev
    aesExpand n (i + 1) (((ws.getD 7 []).zip t).map (fun p => p.1 ^^^ p.2) :: ws)

/-- The fifteen round keys of 16 bytes of a key of 32. -/
def aesKeys (key : List Nat) : List (List Nat) :=
  let ws := (aesExpand 52 8 (cutEvery 4 8 key).reverse).reverse
  (cutEvery 16 15 (ws.flatMap id))

def xorBytes (a b : List Nat) : List Nat := (a.zip b).map fun p => p.1 ^^^ p.2

/-- SubBytes and ShiftRows of a state held by columns. -/
def aesShift (s : List Nat) : List Nat := (List.range 16).map fun i => subByte (s.getD ((i + 4 * (i % 4)) % 16) 0)

def aesMix (s : List Nat) : List Nat :=
  (List.range 16).map fun i =>
    let g (j : Nat) : Nat := s.getD (i / 4 * 4 + (i + j) % 4) 0
    gfMul (g 0) 8 2 ^^^ gfMul (g 1) 8 3 ^^^ g 2 ^^^ g 3

def aesBlock (keys : List (List Nat)) (b : List Nat) : List Nat :=
  let k (i : Nat) : List Nat := keys.getD i []
  let s := (List.range 13).foldl (fun s i => xorBytes (aesMix (aesShift s)) (k (i + 1))) (xorBytes b (k 0))
  xorBytes (aesShift s) (k 14)

/-! ### GCM -/

/-- A product in GF(2¹²⁸) of GCM, by the bits of the first factor from bit `n` − 1 down. -/
def ghashMul (x : Nat) : Nat → Nat → Nat → Nat
  | 0, _, z => z
  | n + 1, v, z =>
    ghashMul x n (if v % 2 == 1 then v / 2 ^^^ 0xE1 * 2 ^ 120 else v / 2) (if x / 2 ^ n % 2 == 1 then z ^^^ v else z)

/-- A list of bytes filled up with zeros to blocks of 16. -/
def padBlock (bs : List Nat) : List Nat := bs ++ List.replicate ((16 - bs.length % 16) % 16) 0

def ghash (h : Nat) (bs : List Nat) : Nat :=
  (cutEvery 16 bs.length bs).foldl (fun y b => ghashMul (y ^^^ numBE b) 128 h 0) 0

/-- The key stream over a list of bytes, from a counter. -/
def gcmStream (keys : List (List Nat)) (iv : List Nat) (bs : List Nat) : List Nat :=
  ((cutEvery 16 bs.length bs).zipIdx.map fun p =>
    xorBytes p.1 (aesBlock keys (iv ++ bytesBE 4 (p.2 + 2)))).flatMap id

/-- The tag of a ciphertext. -/
def gcmTag (keys : List (List Nat)) (iv aad ct : List Nat) : List Nat :=
  let h := numBE (aesBlock keys (List.replicate 16 0))
  let s := ghash h (padBlock aad ++ padBlock ct ++ bytesBE 8 (8 * aad.length) ++ bytesBE 8 (8 * ct.length))
  xorBytes (bytesBE 16 s) (aesBlock keys (iv ++ bytesBE 4 1))

/-- A seal: the ciphertext and the tag. -/
def gcmSeal (key iv aad pt : List Nat) : List Nat × List Nat :=
  let ks := aesKeys key
  let ct := gcmStream ks iv pt
  (ct, gcmTag ks iv aad ct)

/-- The plaintext of a seal whose tag verifies. -/
def gcmOpen (key iv aad ct tag : List Nat) : Option (List Nat) :=
  let ks := aesKeys key
  if gcmTag ks iv aad ct == tag then some (gcmStream ks iv ct) else none

end Sys2Proof.Machine
end

