-- ==== Sys2Proof/Machine/Gang.lean ====
section
/-!
DEFINITION. Sys2Proof/Machine/Gang.lean: archipelagos: a core's standing, ARC JOIN, LEAVE and BAR, the pod barriers and
the departure of islands (spec 20, R378 to R383).
-/

namespace Sys2Proof.Machine

/-! ### ARC (R381) -/

/-- ARC.JOIN (R381). -/
def actArcJoin (d : BitVec 5) (a : BitVec 5) : M Flow := do
  let v ← src a
  match ← gangMember with
  | none => dst d 1
  | some _ =>
    if natBits v.toNat 63 18 != 0 || natBits v.toNat 11 0 != 0 then raise .illegal v
    let w := (← theCore).arcstat
    if arcState w != 1 then dst d 2
    else
      setArcstat (setField (setField w 49 48 2) 55 50 (natBits v.toNat 17 12))
      dst d 0
  return .seq

/-- ARC.JOIN as a unit: a commit point (R381). -/
def execArcJoin (d : BitVec 5) (a : BitVec 5) (s : State) : Host.Outcome State Fault Refusal :=
  loneCommit (.arcJoin d a) (actArcJoin d a) s

/-- ARC.LEAVE (R381). -/
def actArcLeave (d : BitVec 5) (a : BitVec 5) : M Flow := do
  let v ← src a
  match ← gangMember with
  | none => dst d 1
  | some (arc, _, _) =>
    if v != 0 then raise .illegal v
    if arcState (← theCore).arcstat == 3 then dst d 3
    else
      leaveArc arc.id
      dst d 0
  return .seq

/-- ARC.LEAVE as a unit: a commit point (R381). -/
def execArcLeave (d : BitVec 5) (a : BitVec 5) (s : State) : Host.Outcome State Fault Refusal :=
  loneCommit (.arcLeave d a) (actArcLeave d a) s

/-- ARC.BAR (R381, R382): it issues once, with room for its result (R86), waits for the firing, and gives the generation. -/
def actArcBar (d : BitVec 5) (a : BitVec 5) : M Flow := do
  match (← theCore).lineWait with
  | some (.podFired _ g) =>
    modCore fun c => { c with lineWait := none }
    dst d (g.setWidth 64 <<< 16)
    return .seq
  | some _ => block
  | none =>
    let v ← src a
    roomFor d
    match ← gangMember with
    | none =>
      dst d 1
      return .seq
    | some _ =>
      if natBits v.toNat 63 2 != 0 then raise .illegal v
      let c ← theCore
      if arcState c.arcstat != 2 then
        dst d (if arcState c.arcstat == 1 then 2 else 3)
        return .seq
      let covers ← theWrites
      modCore fun c => { c with lineWait := some (.podArriving v.toNat covers) }
      return .wait

/-- ARC.BAR as a unit: a commit point when it issues (R381); it takes no other while it waits. -/
def execArcBar (d : BitVec 5) (a : BitVec 5) (s : State) : Host.Outcome State Fault Refusal :=
  unitOn (runUnit 4 false true (gate (.arcBar d a)) (if s.core.lineWait.isSome then pure () else commitPoint) (actArcBar d a)) s

/-! ### Arrival and departure -/

/-- POD_BARRIER_ARRIVAL (R382): an arrival is counted once the released stores it follows have performed; the barrier
fires when it is due. -/
def podBarrierArrival : M Unit := do
  match ← gangMember with
  | none => return
  | some (a, i, k) =>
    let c ← theCore
    match c.lineWait with
    | some (.podArriving j covers) =>
      if (ownWrites (← get) (← read).pkg (← read).core).any covers.contains then return
      modCore fun c => { c with lineWait := some (.podCounted j) }
      modArc a.id fun a =>
        let b := a.barriers.toList.getD j PodBarrier.reset
        { a with barriers := a.barriers.setIfInBounds j { b with arrived := b.arrived ++ [(i, k)] } }
      firePod a.id j
    | some (.podCounted j) => firePod a.id j
    | _ => return

def execPodBarrierArrival (s : State) : Host.Outcome State Fault Refusal := event podBarrierArrival s

/-- ISLAND_DEPART (R383): every other island has left: the ends that this one holds retire, and it departs with the last. -/
def islandDepart : M Unit := do
  match ← gangMember with
  | none => return
  | some (a, i, _) =>
    match a.islands[i]? with
    | none => return
    | some isl =>
      let d ← get
      let others := (List.range a.islands.length).all fun o =>
        o == i || ((a.islands[o]?).map d.islandLeft).getD true
      if others then
        isl.held.forM (retireHeld isl)
        modArc a.id fun a => { a with islands := a.islands.set i { isl with held := [] } }
        departIsland a.id i

def execIslandDepart (s : State) : Host.Outcome State Fault Refusal := event islandDepart s

end Sys2Proof.Machine
end

