-- ==== Sys2Proof/Machine/Joint.lean ====
section
/-!
DEFINITION. Sys2Proof/Machine/Joint.lean: the joint instructions CALLD, TAILD, RETD, SUSP, DONE, COMMIT and ERET: both
halves arrive, are checked, and one effect happens for both streams (spec 06, R157 to R164; spec 08, R177).
-/

namespace Sys2Proof.Machine

/-! ### Both halves (R157) -/

/-- The word at which a stream stands; 0 past its body. -/
def Core.wordAt (c : Core) (s : Strm) : Half := (halfAt (c.body s) (c.str s).off).getD 0

/-- The two halves' checks: JOINT when majors or LAND fields differ; QNOTEMPTY but for COMMIT. -/
def jointChecks (needEmpty : Bool) : M Unit := do
  let c ← theCore
  let wa := c.wordAt .A
  let wx := c.wordAt .X
  if majorOf wa != majorOf wx || wa.extractLsb' 8 12 != wx.extractLsb' 8 12 then raiseOpen .joint
  if needEmpty && !(c.lq0.ents.isEmpty && c.lq1.ents.isEmpty && c.lq2.ents.isEmpty && c.sq0.ents.isEmpty &&
      c.sq1.ents.isEmpty && c.bqA.ents.isEmpty && c.bqX.ents.isEmpty) then raiseOpen .qnotempty

/-- The first half to arrive waits; a stream that already waits goes on waiting. -/
def jointArrive : M Unit := do
  let s ← theStream
  let c ← theCore
  if (c.str s).joint then block
  modCore fun c => c.setStr s { c.str s with joint := true }

/-- The effect of a joint instruction: its fault is reported in both streams. -/
def jointEffect (act : M Unit) : M Unit := do
  match ← attempt act with
  | .ok _ => return
  | .error (.raise c ea) => exception c ea 0 true
  | .error (.restart c ea r) => restartFault c ea r
  | .error s => throw s

/-- A joint instruction: a fault of either half or of the effect is reported in both streams. -/
def runJoint (i : Instr) (needEmpty : Bool) (act : M Unit) : M Unit := do
  match ← attempt (gate i) with
  | .error (.raise c ea) => exception c ea 0 false
  | .error s => throw s
  | .ok _ =>
    let other := (← theStream).other
    if ((← theCore).str other).joint then
      match ← attempt (jointChecks needEmpty) with
      | .error (.raise c ea) => exception c ea 0 true
      | .error s => throw s
      | .ok _ =>
        match ← attempt commitPoint with
        | .error (.raise c ea) => exception c ea 0 true
        | .error (.restart c ea r) => restartFault c ea r
        | .error s => throw s
        | .ok _ => jointEffect act
    else jointArrive

def joint (i : Instr) (needEmpty : Bool) (act : M Unit) (s : State) : Host.Outcome State Fault Refusal :=
  unitOn (runJoint i needEmpty act) s

/-! ### Shared effects -/

/-- Src(RH) of the A half: a register 0-27, or 0 (R157). -/
def handleOperand : M Nat := do
  let c ← theCore
  let r := (c.wordAt .A).extractLsb' 20 5
  return (if r.toNat < 28 then c.a.toList.getD r.toNat 0 else 0).toNat

/-- Every access of the strand has performed before it leaves its core (R156, R163). -/
def settle : M Unit := do
  performReleased
  if !(← theCore).amons.isEmpty then block

/-- Where the strand stands at a joint instruction that misses its code (R153). -/
def missOf (c : Core) (s : Strand) (fp : Word) : Option Miss :=
  c.cur.map fun u => { fp := fp, cur := u, offA := c.strA.off, offX := c.strX.off, handle := s.handle, landing := s.landing }

/-- The record of a miss kept with the strand, for a wait in place. -/
def keepMiss (fp : Word) : M Unit := do
  let c ← theCore
  modStrand c.strand.toNat fun s => { s with miss := missOf c s fp }

/-- Enter(h, k) of a joint instruction with the frame pointer it leaves (R158): in place when the code is resident, else
the strand waits for it as SUSPENDED-CODE, inside a handler on its core (R172, R175); a torn launch's strand ends there (R360).
DEDUCED (log 40): where landing k is absent the unit performs nothing of Enter, so fp stays as it was (R84). -/
def enterTarget (h k : Nat) (ent : DirEnt) (fp : Word) : M Unit := do
  let c ← theCore
  match resident c (← thePkg).ctl ent.digest with
  | some code =>
    match code.landing k with
    | some o =>
      modCore fun c => { c with fp := fp }
      enterLanding code h k o
    | none => raise .illegal (BitVec.ofNat 64 k)
  | none =>
    let me := (← read).core
    let va := c.strand.toNat
    if c.nest != 0 then
      if ← tornHere then suspensionPoint (pure ())
      else
        keepMiss c.fp
        modCore fun c => { c with fp := fp, mode := .fetching h k, strA := { c.strA with joint := false },
                                  strX := { c.strX with joint := false } }
        beginSearch va me h ent none
        setStrand va fun s => { s with handle := h, landing := k, frame := fp, state := .suspCode }
    else
      let miss := (← findStrand va).bind fun s => missOf c s c.fp
      modCore fun c => { c with fp := fp }
      beginSearch va me h ent none
      suspend .suspCode h k fp miss

/-- DONE's effect (R163, R383). -/
def performDone : M Unit := do
  settle
  match ← gangMember with
  | some (a, i, k) => holdEnd a i k 0
  | none => retire 0

/-! ### The instructions -/

/-- CALLD (R159): the return landing, the handle and the new frame are checked in that order. -/
def actCalld (_h : BitVec 5) (k : BitVec 12) : M Unit := do
  let c ← theCore
  match c.curCode with
  | none => raise .illegal (k.setWidth 64)
  | some code =>
    if (code.landing k.toNat).isNone then raise .illegal (k.setWidth 64)
    let h ← handleOperand
    match ← dirEntry h with
    | none => raise .illegal (BitVec.ofNat 64 h)
    | some ent =>
      let nfp := c.fp - BitVec.ofNat 64 ent.frame
      let m ← checkSpan nfp 16
      drainTokens
      let cur := (c.cur.map (·.handle)).getD 0
      writeSpan m nfp 16 (k.toNat * 2 ^ 20 + cur + c.fp.toNat * 2 ^ 64)
      enterTarget h 0 ent nfp

/-- CALLD as a unit (R157, R159). -/
def execCalld (h : BitVec 5) (k : BitVec 12) (s : State) : Host.Outcome State Fault Refusal :=
  joint (.calld h k) true (actCalld h k) s

/-- TAILD (R160): the caller's return moves to a frame that ends where the old one ended. Its drain and the two words it
has written stand when Enter then faults. -/
def actTaild (_h : BitVec 5) (k : BitVec 12) : M Unit := do
  let c ← theCore
  let h ← handleOperand
  match ← dirEntry h with
  | none => raise .illegal (BitVec.ofNat 64 h)
  | some ent =>
    let old := (c.curCode.map (·.frame)).getD 0
    let nfp := c.fp + BitVec.ofNat 64 old - BitVec.ofNat 64 ent.frame
    let w ← loadSpan c.fp 16
    let m ← checkSpan nfp 16
    drainTokens
    writeSpan m nfp 16 w
    match ← attempt (enterTarget h k.toNat ent nfp) with
    | .ok _ => return
    | .error (.raise c ea) => exception c ea 0 true
    | .error (.restart c ea r) => restartFault c ea r
    | .error s => throw s

/-- TAILD as a unit (R157, R160). -/
def execTaild (h : BitVec 5) (k : BitVec 12) (s : State) : Host.Outcome State Fault Refusal :=
  joint (.taild h k) true (actTaild h k) s

/-- RETD after its drain (R161): a bottom frame acts as DONE. -/
def returnTo : M Unit := do
  let c ← theCore
  let w ← loadSpan c.fp 16
  let w0 := w % 2 ^ 64
  if natBits w0 63 32 != 0 then raise .illegal (BitVec.ofNat 64 w0)
  let h := natBits w0 19 0
  if h == 0 then performDone
  else
    match ← dirEntry h with
    | none => raise .illegal (BitVec.ofNat 64 h)
    | some ent => enterTarget h (natBits w0 31 20) ent (BitVec.ofNat 64 (w / 2 ^ 64))

/-- RETD (R161): the drain comes first, and stands when a later step faults. -/
def actRetd : M Unit := do
  drainTokens
  match ← attempt returnTo with
  | .ok _ => return
  | .error (.raise c ea) => exception c ea 0 true
  | .error (.restart c ea r) => restartFault c ea r
  | .error s => throw s

/-- RETD as a unit (R157, R161). -/
def execRetd (s : State) : Host.Outcome State Fault Refusal := joint .retd true actRetd s

/-- SUSP (R162); inside a handler it enters the landing at once (R175), unless its launch is torn down (R360). DEDUCED (log 88): RMODE and FFLAGS keep their values
there, since the strand stays RUNNING and no suspended strand resumes (R132). -/
def actSusp (k : BitVec 12) : M Unit := do
  let c ← theCore
  match c.curCode with
  | none => raise .illegal (k.setWidth 64)
  | some code =>
    match code.landing k.toNat with
    | none => raise .illegal (k.setWidth 64)
    | some o =>
      drainTokens
      let h := (c.cur.map (·.handle)).getD 0
      if c.nest != 0 then
        if ← tornHere then suspensionPoint (pure ())
        else
          setStrand c.strand.toNat fun s => { s with handle := h, landing := k.toNat, frame := c.fp }
          enterLanding code h k.toNat o
      else suspend .ready h k.toNat c.fp none

/-- SUSP as a unit (R157, R162). -/
def execSusp (k : BitVec 12) (s : State) : Host.Outcome State Fault Refusal := joint (.susp k) true (actSusp k) s

/-- DONE (R163). -/
def actDone : M Unit := do
  drainTokens
  performDone

/-- DONE as a unit (R157, R163). -/
def execDone (s : State) : Host.Outcome State Fault Refusal := joint .done true actDone s

/-- COMMIT (R164): the commit point is all its effect; queues may hold entries. The region begins after it (Table 8.7). -/
def actCommit : M Unit :=
  modCore fun c => ({ c with strA := { c.strA with off := c.strA.off + 4, joint := false },
                             strX := { c.strX with off := c.strX.off + 4, joint := false } } : Core).checkpoint none

/-- COMMIT as a unit (R157, R164). -/
def execCommit (s : State) : Host.Outcome State Fault Refusal := joint .commit false actCommit s

/-! ### ERET (R177) -/

/-- The form an EPA or EPX word names (Table 8.4). -/
def formOf (w : Nat) : Form := if natBits w 63 63 == 1 then .native (natBits w 62 55) else .portable

/-- The offsets of a trap frame against a body: the resume unit and a pending target are units of it. -/
def resumeOk (b : List Half) (off : Nat) (pend : Option Branch) : Bool :=
  unitStart b off && (match pend with
    | some ⟨_, some t⟩ => unitStart b t.toNat
    | _ => true)

/-- AV or XV with a count other than 1 or 2, or a target that is not a multiple of 4. -/
def pendCountBad (n v t : Nat) : Bool := v == 1 && (n == 0 || n == 3 || t % 4 != 0)

/-- The unit at an offset of the A body is an LD.D. -/
def ldDAt (b : List Half) (off : Nat) : Bool :=
  match halfAt b off with
  | some w =>
    match decodeHalf (w ||| 1) with
    | .ld _ _ s _ _ => s == 3
    | _ => false
  | none => false

/-- TrapFrameBad, what the frame and the named form's code show; of a form that no stage can supply, what the frame alone does
(log 41). -/
def trapFrameBad (v : Nat) (code : Option Code) (t : Core) : Bool :=
  let epa := bytesAt v 0x1D8 8
  let epx := bytesAt v 0x1E0 8
  let p := bytesAt v 0x228 8
  let tg := bytesAt v 0x230 8
  !frameReservedOk v || epa / 2 ^ 32 != epx / 2 ^ 32 || epa % 4 != 0 || epx % 4 != 0 ||
    pendCountBad (natBits p 1 0) (natBits p 2 2) (tg % 2 ^ 32) ||
    pendCountBad (natBits p 9 8) (natBits p 10 10) (tg / 2 ^ 32) ||
    (match code with
     | some k =>
       !(resumeOk k.aBody t.strA.off t.strA.pend && resumeOk k.xBody t.strX.off t.strX.pend) ||
         (natBits p 16 16 == 1 && !ldDAt k.aBody t.strA.off)
     | none => false)

/-- The resident code of a digest in one exact form, usable by the domain (R146). -/
def residentForm (c : Core) (ctl : Ctl) (digest : Nat) (f : Form) : Option Code :=
  c.store.find? fun k => k.digest == digest && k.form == f && usable ctl c.dom.toNat k

/-- The core after a trap frame is restored: the registers and CSRs it holds, the mode it saved, the frame pointer above
it, and the wait its ABAR mark names. -/
def Core.returned (c : Core) (v : Nat) (tf : Word) : Core :=
  let t := c.fromFrame v
  let n := c.nest - 1
  let abar := natBits (bytesAt v 0x228 8) 16 16 == 1
  let held := (c.heldWaits.find? fun h => h.1 == n).map (·.2)
  { t with
    sMode := natBits (bytesAt v 0x1E8 8) 1 1 == 1
    fp := tf + BitVec.ofNat 64 frameBytes
    nest := n
    heldWaits := c.heldWaits.filter fun h => h.1 != n
    lineWait := if abar then some (held.getD .marked) else none }

/-- ERET (R177). DEDUCED (log 41): a form that is not resident is waited for at the ERET, before the frame is restored, since
TrapFrameBad comes first and needs its body; the frame is restored without it where no stage can supply it. -/
def actEret : M Unit := do
  let c ← theCore
  let w ← loadSpan c.fp 16
  if w % 2 ^ 64 != 0x0000000100000000 then raise .illegal c.fp
  let tf := BitVec.ofNat 64 (w / 2 ^ 64)
  let v ← loadSpan tf frameBytes
  let epa := bytesAt v 0x1D8 8
  let h := natBits epa 51 32
  let form := formOf epa
  let ent ← dirEntry h
  let ctl := (← thePkg).ctl
  let code := ent.bind fun e => residentForm c ctl e.digest form
  let t := c.returned v tf
  if trapFrameBad v code t then raise .illegal tf
  let gone := ((← findStrand c.strand.toNat).map (·.illegal)).getD false
  match code, ent, gone with
  | none, some e, false =>
    modCore fun c => { c with mode := .fetching h 4097 }
    beginSearch c.strand.toNat (← read).core h e (some form)
    setStrand c.strand.toNat fun s => { s with state := .suspCode }
    return
  | _, _, _ => pure ()
  let rc := BitVec.ofNat 8 (natBits (bytesAt v 0x1E8 8) 15 8)
  let digest := (ent.map (·.digest)).getD 0
  let key := (code.map (·.key)).getD 0
  modCore fun _ =>
    { t.checkpoint none with rcount := rc, cur := some { handle := h, digest := digest, form := form, key := key } }
  if code.isNone then
    modStrand c.strand.toNat fun s => { s with illegal := false }
    exceptionOpen .illegal (BitVec.ofNat 64 h)

/-- ERET as a unit (R157, R177). -/
def execEret (s : State) : Host.Outcome State Fault Refusal := joint .eret true actEret s

end Sys2Proof.Machine
end

