-- ==== Sys2Proof/Machine/Leaves.lean ====
section
/-!
DEFINITION. Sys2Proof/Machine/Leaves.lean: leaf entries as a control core reads them from the table itself, and who owns the
pages of a range (spec 16, R311 to R313; spec 22, R392, R396; spec 23, R406).
-/

namespace Sys2Proof.Machine

/-- The leaf entry that translates an address, read from the table itself: where it stands, its word and its level. -/
def leafWalk (va : Nat) : Nat → Nat → H (Nat × Nat × Nat)
  | 0, _ => throw (.fault .translate)
  | l + 1, tbl => do
    let at_ := tbl + 8 * walkIndex va (l + 1)
    let e ← readHbm at_ 8
    if e % 2 == 0 then throw (.fault .translate)
    if natBits e 1 1 == 1 then return (at_, e, l + 1)
    leafWalk va l (4096 * natBits e 57 26)

def leafEntry (va : Nat) : H (Nat × Nat × Nat) := do leafWalk va 5 (← get).troot

/-- The leaf of an address, if it is valid. -/
def leafAt (va : Nat) : M (Option (Nat × Nat × Nat)) := do
  match ← attempt (runHome 0 0 (leafEntry va)) with
  | .ok x => return some x
  | .error (.halt f) => throw (.halt f)
  | .error _ => return none

/-- The level at which the walk of an address ends, at a leaf or at an absent entry. -/
def walkEnd (va : Nat) : Nat → Nat → H Nat
  | 0, _ => return 0
  | l + 1, tbl => do
    let e ← readHbm (tbl + 8 * walkIndex va (l + 1)) 8
    if e % 2 == 0 || natBits e 1 1 == 1 then return l + 1
    walkEnd va l (4096 * natBits e 57 26)

/-- The first address after `va` that its leaf, or its absent entry, does not span. -/
def nextSpan (va : Nat) : M Nat := do
  let l ← runHome 0 0 (do walkEnd va 5 (← get).troot)
  let n := 4096 * 512 ^ (l - 1)
  return (va / n + 1) * n

/-- A valid leaf from `va` to `hi` has an owner outside a list of domains (R318); `fuel` bounds the pages looked at. -/
def foreignLeaf (mine : List Nat) (hi : Nat) : Nat → Nat → M Bool
  | 0, _ => return false
  | fuel + 1, va => do
    if hi ≤ va then return false
    let foreign := match ← leafAt va with
      | some (_, e, _) => !mine.contains (natBits e 25 13)
      | none => false
    if foreign then return true
    if hi ≤ va + 4096 then return false  -- no page is left
    foreignLeaf mine hi fuel (← nextSpan va)

/-- Every page of `n` bytes that has a leaf is owned by domain 0 (R392, R396, R406); the model's choice for a page without one
(log 89). -/
def systemOwned (va n : Nat) : M Bool := do
  if n == 0 then return true
  let first := va / 4096 * 4096
  return !(← foreignLeaf [0] (va + n) ((va + n - first + 4095) / 4096) first)

end Sys2Proof.Machine
end

