-- ==== Sys2Proof/Machine/System.lean ====
section
/-!
DEFINITION. Sys2Proof/Machine/System.lean: SPAWN, messages, control and status registers, and SYS (spec 06, R165; spec
05, R119, R127 to R136; spec 01, R8 to R11).
-/

namespace Sys2Proof.Machine

/-! ### SPAWN (R165) -/

/-- The queue item that a waiting strand is part of: itself, or its gang where that is still to be placed (R335, R379). -/
def Strand.item (s : Strand) : Nat × Nat × Nat :=
  if s.bound.isSome then (0, s.va, 0)
  else match s.gangId with
  | some g => (1, s.launch, g)
  | none => if s.gang then (2, s.launch, s.lpkg) else (0, s.va, 0)

/-- Ready items of a partition: those that wait for a core. -/
def readyItems (part : Nat) : M Nat := do
  let k := (← thePkg).ctl
  let inPart (dom : Nat) : Bool := ((findAt k.doms dom).bind fun d => (findAt k.ctxs d.ctx).map (·.part)) == some part
  return (((← thePkg).sched.strands.filter fun s => s.waits && inPart s.dom).map Strand.item).eraseDups.length

/-- The limits of the argument block (Table 6.9). -/
def spawnBlockOk (b : Nat) : Bool :=
  bytesAt b 0 8 % 16 == 0 && natBits (bytesAt b 0x28 8) 63 6 == 0 && bytesAt b 0x30 16 == 0

/-- The status of a SPAWN, the new strand created when it is 0, once every write of the spawner has performed (the edge of
R165). -/
def spawn (h : Word) (b : Nat) : M Nat := do
  let c ← theCore
  let prio := natBits (bytesAt b 0x28 8) 5 0
  if !spawnBlockOk b then return 4
  match ← dirEntry h.toNat with
  | none => return 2
  | some _ =>
    if prio < c.prio.toNat || 47 < prio then return 3
    match ← findStrand c.strand.toNat with
    | none => return 1
    | some parent =>
      if (← strandTorn parent) || (← domStopped parent.dom) then return 1
      let part := (← partOfDom parent.dom).getD 0
      if Config.readyQueueSize < (← readyItems part) then return 1
      match ← takeRecord parent.dom with
      | none => return 1
      | some va =>
        let w (off : Nat) : Word := BitVec.ofNat 64 (bytesAt b off 8)
        settled
        modStrand parent.va fun o => { o with spawned := o.spawned + 1 }
        createStrand { blankStrand va h.toNat parent.dom prio parent.launch with
          frame := w 0
          compl := w 8
          arg0 := w 0x10
          arg1 := w 0x18
          indecl := w 0x20
          lpkg := parent.lpkg
          replayPin := parent.replayPin
          path := parent.path ++ [parent.spawned]
          island := parent.island
          slot := parent.slot }
        return 0

/-- SPAWN (R165): the block is judged first, then the handle, the priority and the resources. -/
def actSpawn (d : BitVec 5) (a : BitVec 5) (b : BitVec 5) : M Flow := do
  let h ← src a
  let va ← src b
  if va.toNat % 64 != 0 then raise .align va
  let blk ← loadSpan va 64
  dst d (BitVec.ofNat 64 (← spawn h blk))
  return .seq

/-- SPAWN as a unit: a commit point (R165). -/
def execSpawn (d : BitVec 5) (a : BitVec 5) (b : BitVec 5) (s : State) : Host.Outcome State Fault Refusal :=
  loneCommit (.spawn d a b) (actSpawn d a b) s

/-! ### Messages (R127 to R129) -/

/-- The sender number of schedulers and control cores. -/
def systemSender : Nat := 0x1FFF

/-- A payload's scratchpad offset: ALIGN, then APERTURE, then the range locks. -/
def payloadAt (v : Word) : M Word := do
  if v.toNat % 64 != 0 then raiseOpen .align
  if 0x3FFC0 < v.toNat then raiseOpen .aperture
  let ea := BitVec.ofNat 64 (scratchBase + v.toNat)
  checkLocks ea 64
  return ea

/-- SEND (R127): it issues, with room for its status (R86), and then waits for the target's answer. DEDUCED (log 87): the
payload's faults come before status 2. -/
def actSend (d : BitVec 5) (a : BitVec 5) (s : BitVec 5) (c : BitVec 4) : M Flow := do
  let k ← theCore
  match k.sending with
  | some { answer := some st, .. } =>
    modCore fun k => { k with sending := none }
    dst d st
    return .seq
  | some _ => block
  | none =>
    let t ← src a
    let off ← src s
    roomFor d
    let ea ← payloadAt off
    let payload ← scratchRead ea off.toNat 64
    let me := (← read).core
    if 2 ^ 13 <= t.toNat || (← partOfCore t.toNat) != (← partOfCore me) then
      dst d 2
      return .seq
    let m : Message := { parked := false, ch := c.toNat, sender := me, dom := k.dom.toNat, payload := BitVec.ofNat 512 payload }
    let snd : Sending := { target := t.toNat, msg := m, answer := none }
    modCore fun k => { k with sending := some snd }
    return .wait

/-- SEND as a unit: a commit point when it issues (R127). -/
def execSend (d : BitVec 5) (a : BitVec 5) (s : BitVec 5) (c : BitVec 4) (st : State) : Host.Outcome State Fault Refusal :=
  unitOn (runUnit 4 false true (gate (.send d a s c)) (if st.core.sending.isSome then pure () else commitPoint)
    (actSend d a s c)) st

/-- The oldest message of a channel that the mode may take, of those parked in the queue for a saved strand too, which R181 keeps
there and R128 does not except. DEDUCED (log 108). -/
def Core.takeable (k : Core) (c : Nat) : Option Message :=
  k.inbox.find? fun m => m.ch == c && (k.sMode || m.dom == k.dom.toNat)

/-- RECV and RECV.T: the message taken, or `empty` when there is none (R128). DEDUCED (log 87): the offset's faults and the range
locks are checked before a message is looked for. -/
def receive (d a : BitVec 5) (c : Nat) (empty : M Flow) : M Flow := do
  let off ← src a
  let _ ← payloadAt off
  match (← theCore).takeable c with
  | none => empty
  | some m =>
    scratchWrite off.toNat 64 m.payload.toNat
    modCore fun k => { k with inbox := k.inbox.erase m }
    dst d (BitVec.ofNat 64 (m.sender + m.dom * 2 ^ 16))
    return .seq

/-- RECV blocks while no message may be taken (R128). -/
def actRecv (d : BitVec 5) (a : BitVec 5) (c : BitVec 4) : M Flow := receive d a c.toNat block

/-- RECV as a unit (R128). -/
def execRecv (d : BitVec 5) (a : BitVec 5) (c : BitVec 4) (s : State) : Host.Outcome State Fault Refusal :=
  lone (.recv d a c) (actRecv d a c) s

/-- RECV.T gives all ones while no message may be taken (R128). -/
def actRecvT (d : BitVec 5) (a : BitVec 5) (c : BitVec 4) : M Flow :=
  receive d a c.toNat do
    dst d (BitVec.allOnes 64)
    return .seq

/-- RECV.T as a unit (R128). -/
def execRecvT (d : BitVec 5) (a : BitVec 5) (c : BitVec 4) (s : State) : Host.Outcome State Fault Refusal :=
  lone (.recvT d a c) (actRecvT d a c) s

/-- Entries of a receive queue that SENDs fill, of the 30 they may (R25). -/
def Core.sendEntries (k : Core) : Nat :=
  (k.inbox.filter fun m => m.sender != systemSender).length

/-- A saved strand of a domain whose image was sealed on a core, and is not restored yet (R181). -/
def savedStrand (ss : List Strand) (dom core : Nat) : Option Strand :=
  ss.find? fun s => s.dom == dom && s.savedAt == some core && !s.state.ended

/-- MESSAGE_ARRIVAL (R127, R181, R332): the message of the core's SEND reaches its target, once every write of the sender before
it has performed (R45), and the target answers; a message for a
domain with a context sealed there is parked, and wakes a strand that awaits its channel. -/
def messageArrival : M Unit := do
  match (← theCore).sending with
  | some { target := t, msg := m, answer := none } =>
    if (← theWrites) != [] then return
    let answer (v : Word) : M Unit := modCore fun k => { k with sending := some { target := t, msg := m, answer := some v } }
    let tk ← coreAt (← read).pkg t
    if 30 <= tk.sendEntries then answer 1
    else
      let me := (← read).core
      messageTurn [← launchAt me, ← launchAt t] t m.ch m.sender
      match savedStrand (← thePkg).sched.strands m.dom t with
      | some s =>
        if m.ch == 0 then modCoreAt (← read).pkg t fun k => { k with inbox := k.inbox ++ [m] }
        else
          modCoreAt (← read).pkg t fun k => { k with inbox := k.inbox ++ [{ m with parked := true }] }
          if s.state == .suspMsg && s.awaits == m.ch then
            setStrand s.va fun s => { s with state := .ready }
            enqueue s.va
      | none => modCoreAt (← read).pkg t fun k => { k with inbox := k.inbox ++ [m] }
      answer 0
  | _ => return

def execMessageArrival (s : State) : Host.Outcome State Fault Refusal := event messageArrival s

/-! ### Control and status registers (R130 to R134) -/

/-- HilbertXY (R8): coordinates on the die's mesh, by the steps still to do, the scale and the index left. -/
def hilbertXY : Nat → Nat → Nat → Nat → Nat → Nat × Nat
  | 0, _, _, x, y => (x, y)
  | n + 1, s, t, x, y =>
    let rx := t / 2 % 2
    let ry := (t + rx) % 2
    let p : Nat × Nat :=
      if ry == 0 then (if rx == 1 then (s - 1 - y, s - 1 - x) else (y, x)) else (x, y)
    hilbertXY n (2 * s) (t / 4) (p.1 + s * rx) (p.2 + s * ry)

/-- Package coordinates of a core (R9). -/
def meshOf (core : Nat) : Nat × Nat :=
  let d := dieOf core
  let p := hilbertXY 5 1 (core % 1024) 0 0
  if d < 4 then (32 * d + p.1, 31 - p.2) else (32 * (7 - d) + 31 - p.1, 32 + p.2)

/-- CORE (Table 1.2). -/
def coreWord (core : Nat) : Word :=
  let m := meshOf core
  BitVec.ofNat 64 (core + dieOf core * 2 ^ 13 + quadOf core * 2 ^ 16 + core % 4 * 2 ^ 27 + m.1 * 2 ^ 29 + m.2 * 2 ^ 36)

/-- TOKSTAT (Table 5.7). -/
def tokstat : M Word := do
  let c ← theCore
  let sts ← c.tokens.mapM fun t => tokenStatus t.2
  return BitVec.ofNat 64 (c.tokens.length + (sts.filter (·.isSome)).length * 2 ^ 7)

/-- RLOCK (Table 5.8). -/
def Core.rlock (c : Core) : Word := BitVec.ofNat 64 (c.locks.foldl (fun n l => n ||| 2 ^ l.1) 0)

/-- The value of a CSR (Table 5.12). -/
def csrValue (n : Nat) : M Word := do
  let c ← theCore
  match n with
  | 0x000 => return coreWord (← read).core
  | 0x001 => return 0x00090001
  | 0x002 => return c.dom.setWidth 64
  | 0x003 => return c.prio.setWidth 64
  | 0x004 => return c.strand
  | 0x010 => return c.rmode.setWidth 64
  | 0x011 => return c.fflags.setWidth 64
  | 0x012 => return c.tabstat
  | 0x020 => return c.cause
  | 0x021 => return c.eaddr
  | 0x022 => return c.epa
  | 0x023 => return c.epx
  | 0x024 => return c.tvec
  | 0x025 => return c.sstate
  | 0x030 => return c.cslimit.setWidth 64
  | 0x031 => return c.dirbase
  | 0x040 => tokstat
  | 0x041 => return c.rlock
  | 0x050 => return BitVec.ofNat 64 c.qstat
  | 0x060 => return c.arcstat
  | 0x070 => return BitVec.ofNat 64 ((lookupD Die.reset (← thePkg).service.dies (dieOf (← read).core)).cycleAt (← now))
  | 0x071 => return BitVec.ofNat 64 (← deviceTime)
  | _ => raiseOpen .illegal

/-- A value within a CSR's stated limits (R130). -/
def csrValueOk (n : Nat) (v : Word) : Bool :=
  let x := v.toNat
  match n with
  | 0x002 => x < 8192
  | 0x003 => x <= 47
  | 0x010 => x <= 4
  | 0x011 => x < 64
  | 0x020 => x < 2 ^ 18
  | 0x022 | 0x023 => natBits x 54 52 == 0
  | 0x024 => x < 2 ^ 20
  | 0x025 => x < 2 ^ 16 && natBits x 7 2 == 0
  | 0x030 => x <= 16
  | 0x031 => natBits x 63 57 == 0 && natBits x 11 0 == 0
  | _ => true

/-- The core with a CSR's RW fields written; SSTATE.MODE keeps its value. -/
def Core.setCsr (c : Core) (n : Nat) (v : Word) : Core :=
  match n with
  | 0x002 => { c with dom := v.setWidth 13 }
  | 0x003 => { c with prio := v.setWidth 6 }
  | 0x004 => { c with strand := v }
  | 0x010 => { c with rmode := v.setWidth 3 }
  | 0x011 => { c with fflags := v.setWidth 6 }
  | 0x020 => { c with cause := v }
  | 0x021 => { c with eaddr := v }
  | 0x022 => { c with epa := v }
  | 0x023 => { c with epx := v }
  | 0x024 => { c with tvec := v }
  | 0x025 => { c with pMode := v.getLsbD 1, rcount := v.extractLsb' 8 8 }
  | 0x030 => { c with cslimit := v.setWidth 5 }
  | 0x031 => { c with dirbase := v }
  | _ => c

/-- CSRR (R131). -/
def actCsrr (d : BitVec 5) (c : BitVec 12) : M Flow := do
  dst d (← csrValue c.toNat)
  return .seq

/-- CSRR as a unit (R131). -/
def execCsrr (d : BitVec 5) (c : BitVec 12) (s : State) : Host.Outcome State Fault Refusal :=
  lone (.csrr d c) (actCsrr d c) s

/-- CSRW (R130, R131): a value beyond the CSR's limits changes nothing. -/
def actCsrw (a : BitVec 5) (c : BitVec 12) : M Flow := do
  let v ← src a
  if !csrValueOk c.toNat v then raiseOpen .illegal
  modCore fun k => k.setCsr c.toNat v
  return .seq

/-- CSRW as a unit (R131). -/
def execCsrw (a : BitVec 5) (c : BitVec 12) (s : State) : Host.Outcome State Fault Refusal :=
  lone (.csrw a c) (actCsrw a c) s

/-! ### SYS (R136) -/

/-- SYS.PLBINV: entries that overlap the range; a length of 0 names every entry. -/
def actSysPlbinv (a : BitVec 5) (b : BitVec 5) : M Flow := do
  let va ← src a
  let len ← src b
  if va.toNat % 4096 != 0 || len.toNat % 4096 != 0 then raiseOpen .align
  let hit (e : PlbEntry) : Bool := len == 0 || overlaps va.toNat (va.toNat + len.toNat) e.base (e.base + e.bytes)
  modCore fun c => { c with plb := c.plb.filter fun e => !hit e }
  return .seq

/-- SYS.PLBINV as a unit (R136). -/
def execSysPlbinv (a : BitVec 5) (b : BitVec 5) (s : State) : Host.Outcome State Fault Refusal :=
  lone (.sysPlbinv a b) (actSysPlbinv a b) s

/-- The function that runs is the top of the call chain: it is not removed. -/
def Core.isTop (c : Core) (k : Code) : Bool :=
  match c.cur with
  | some u => u.names k
  | none => false

/-- SYS.CSINV: one function of the code store, or all of them, but never the top. -/
def actSysCsinv (a : BitVec 5) : M Flow := do
  let h ← src a
  if h == BitVec.allOnes 64 then modCore fun c => { c with store := c.store.filter fun k => c.isTop k }
  else
    match ← dirEntry h.toNat with
    | none => pure ()
    | some e => modCore fun c => { c with store := c.store.filter fun k => c.isTop k || k.digest != e.digest }
  return .seq

/-- SYS.CSINV as a unit (R136). -/
def execSysCsinv (a : BitVec 5) (s : State) : Host.Outcome State Fault Refusal :=
  lone (.sysCsinv a) (actSysCsinv a) s

/-- SYS.QFLUSH: the queues a mask names are emptied; data that returns later for them finds no entry. -/
def actSysQflush (a : BitVec 5) : M Flow := do
  let m ← src a
  if 2 ^ 7 <= m.toNat then raiseOpen .illegal
  modCore fun c => { c with
    lq0 := if m.getLsbD 0 then Queue.empty else c.lq0
    lq1 := if m.getLsbD 1 then Queue.empty else c.lq1
    lq2 := if m.getLsbD 2 then Queue.empty else c.lq2
    sq0 := if m.getLsbD 3 then Queue.empty else c.sq0
    sq1 := if m.getLsbD 4 then Queue.empty else c.sq1
    bqA := if m.getLsbD 5 then Queue.empty else c.bqA
    bqX := if m.getLsbD 6 then Queue.empty else c.bqX }
  return .seq

/-- SYS.QFLUSH as a unit (R136). -/
def execSysQflush (a : BitVec 5) (s : State) : Host.Outcome State Fault Refusal :=
  lone (.sysQflush a) (actSysQflush a) s

/-- SYS.TABCLR: the decode table and TABSTAT cleared. -/
def actSysTabclr : M Flow := do
  modCore fun c => { c with table := Table.empty, tabstat := 0 }
  return .seq

/-- SYS.TABCLR as a unit (R136). -/
def execSysTabclr (s : State) : Host.Outcome State Fault Refusal := lone .sysTabclr actSysTabclr s

/-- The limits of a line configuration word (Table 5.10) on a quad line, or a die or package line of `most` arrivals. -/
def lineWordOk (quad : Bool) (most : Nat) (w : Nat) : Bool :=
  let kind := natBits w 1 0
  let count := natBits w 15 2
  natBits w 63 33 == 0 && (quad || kind <= 1) && (natBits w 16 16 == 0 || kind == 3) &&
    (if kind == 1 then 1 <= count && count <= most else count == 0)

/-- A line as its configuration word sets it up: no arrivals, no holder, no pending signals, generation 0 (R119, R267). -/
def Line.configured (w : Nat) : Line :=
  { Line.off with
    kind := match natBits w 1 0 with
      | 0 => .off
      | 1 => .barrier
      | 2 => .mutex
      | _ => .event
    count := natBits w 15 2
    chain := if natBits w 16 16 == 1 then some (natBits w 27 17, natBits w 32 28) else none }

/-- A wait on a line ends: its load returns 0. -/
def LineWait.discarded (k : Nat) (w : LineWait) : LineWait :=
  match w with
  | .arriving j _ => if j == k then .fired k 0 else w
  | .counted j => if j == k then .fired k 0 else w
  | .queued j => if j == k then .fired k 0 else w
  | .granted j => if j == k then .fired k 0 else w
  | _ => w

def Core.lineCleared (c : Core) (k : Nat) : Core :=
  { c with
    lineWait := c.lineWait.map (LineWait.discarded k)
    heldWaits := c.heldWaits.map fun h => (h.1, h.2.discarded k) }

/-- A line is configured: every wait it holds ends, at its core or with its saved strand. -/
def configureLine (k : Nat) (w : Nat) : M Unit :=
  modPkg fun x =>
    let l := lookupD Line.off x.lines k
    let saved := l.arrived.filterMap fun a => match a with
      | .strand va => some (va, k, (0 : Word))
      | .core _ => none
    { x with
      lines := insertD Line.off x.lines k (Line.configured w)
      cores := x.cores.map fun c => (c.1, c.2.lineCleared k)
      savedGens := x.savedGens ++ saved }

/-- SYS.EVCFG (R119). -/
def actSysEvcfg (a : BitVec 5) (b : BitVec 5) : M Flow := do
  let ea ← src a
  let w ← src b
  let me := (← read).core
  let go (k : Nat) (quad : Bool) (most : Nat) : M Flow := do
    if !lineWordOk quad most w.toNat then raise .illegal w
    configureLine k w.toNat
    return .seq
  match space ea.toNat with
  | .quadLine n => go (32 * quadOf me + n) true 4
  | .dieLine n => go (0x10000 + 64 * dieOf me + n) false 1024
  | .pkgLine n => go (0x20000 + n) false 8192
  | _ => raise .aperture ea

/-- SYS.EVCFG as a unit (R136). -/
def execSysEvcfg (a : BitVec 5) (b : BitVec 5) (s : State) : Host.Outcome State Fault Refusal :=
  lone (.sysEvcfg a b) (actSysEvcfg a b) s

end Sys2Proof.Machine
end

