-- ==== Sys2Proof/Machine/Images.lean ====
section
/-!
DEFINITION. Sys2Proof/Machine/Images.lean: pre-emption: the stop at a slice end or by PREEMPT, the drain and its watchdog,
the seal of an image, its checks and its restore (spec 08, R178 to R182; spec 22, R400 to R405; spec 23, R406 to R408).
-/

namespace Sys2Proof.Machine

/-! ### The image (Tables 22.6, 22.7) -/

/-- A message as an image holds it. -/
def Message.imagePart (j : Nat) (m : Message) : List (Nat × Nat × Nat) :=
  [(0x6500 + 0x50 * j, 64, m.payload.toNat), (0x6540 + 0x50 * j, 8, m.ch + m.sender * 2 ^ 16 + m.dom * 2 ^ 32)]

/-- The blocks of the scratchpad a mask names. -/
def blocksOf (mask : Nat) : List Nat := (List.range 64).filter fun b => mask / 2 ^ b % 2 == 1

/-- The parts of an image's body; `done` holds the token slots' statuses. -/
def Core.imageParts (c : Core) (done : List (Nat × BitVec 16)) (msgs : List Message) : List (Nat × Nat × Nat) :=
  let at_ : Core := { c with epa := resumeWord c.cur c.strA.off, epx := resumeWord c.cur c.strX.off }
  at_.frameParts ++
    (c.v.toList.zipIdx.map fun p => (0x1900 + 128 * p.2, 128, p.1.toNat)) ++
    (c.e.toList.zipIdx.map fun p => (0x3900 + 128 * p.2, 128, p.1.toNat)) ++
    (c.m.toList.zipIdx.flatMap fun p => p.1.toList.zipIdx.map fun q => (0x3D00 + 2048 * p.2 + 128 * q.2, 128, q.1.toNat)) ++
    (c.kpos.toList.zipIdx.map fun p => (0x5D00 + p.2, 1, p.1.toNat)) ++ regParts 0x5D08 0 c.t.toList ++
    [(0x5D88, 8, c.tabstat.toNat)] ++
    (c.table.toList.zipIdx.map fun p => (0x5E00 + 4 * p.2, 4, p.1.toNat)) ++
    regParts 0x6200 0 [c.dom.setWidth 64, c.prio.setWidth 64, c.strand, c.rmode.setWidth 64, c.fflags.setWidth 64, c.tvec,
      c.dirbase, c.arcstat] ++
    (done.map fun p => (0x6280 + 8 * p.1, 8,
      p.1 + (c.tokenGens.toList.getD p.1 0).toNat * 64 + p.2.toNat * 2 ^ 16 + 2 ^ 32 + 2 ^ 33)) ++
    [(0x6480, 8, msgs.length)] ++ (msgs.zipIdx.flatMap fun p => p.1.imagePart p.2) ++
    [(0x6F00, 8, c.rcount.toNat), (0x6F08, 8, if c.restartable then 1 else 0), (0x6F40, 8, c.touched.toNat)] ++
    ((blocksOf c.touched.toNat).zipIdx.map fun p => (0x7000 + 0x1000 * p.2, 0x1000, c.scratch.read (0x1000 * p.1) 0x1000))

/-- The length of a body with `n` scratchpad blocks. -/
def bodyLen (n : Nat) : Nat := 0x7000 + 0x1000 * n

/-- The fields of an image header. -/
structure Header where
  slot : Nat
  enc : Bool
  dom : Nat
  core : Nat
  imgId : Nat
  slotN : Nat
  ctr : Nat
  strand : Nat
  len : Nat
  deriving DecidableEq, Repr

def imageMagic : Nat := 0x5A535631

def Header.bytes (h : Header) : Nat :=
  imageMagic + 2 ^ 32 + 0x22 * 2 ^ 40 + h.slot * 2 ^ 48 + (if h.enc then 2 ^ 56 else 0) +
    (h.dom + h.core * 2 ^ 16 + h.imgId * 2 ^ 32 + h.slotN * 2 ^ 48) * 2 ^ 64 + h.ctr * 2 ^ 128 + h.strand * 2 ^ 192 +
    h.len * 2 ^ 256

/-- A header that meets Table 22.6. -/
def parseHeader (v : Nat) : Option Header :=
  let w (k : Nat) : Nat := bytesAt v (8 * k) 8
  let h : Header :=
    { slot := natBits (w 0) 55 48, enc := natBits (w 0) 56 56 == 1, dom := natBits (w 1) 12 0, core := natBits (w 1) 28 16,
      imgId := natBits (w 1) 47 32, slotN := natBits (w 1) 63 48, ctr := w 2, strand := w 3, len := natBits (w 4) 31 0 }
  if v == h.bytes && 0x7000 <= h.len && (h.len - 0x7000) % 0x1000 == 0 && h.len <= bodyLen 64 &&
      (h.enc || (h.slot == 0 && h.imgId == 0 && h.ctr == 0)) then some h
  else none

/-- The IV of a seal (R402). -/
def sealIv (imgId ctr : Nat) : List Nat := bytesLE 4 imgId ++ bytesLE 8 ctr

/-- The image as it is written: header, body, tag. -/
def sealBytes (h : Header) (key body : Nat) : Nat :=
  let hd := h.bytes
  if h.enc then
    let r := gcmSeal (bytesLE 32 key) (sealIv h.imgId h.ctr) (bytesLE 0x80 hd) (bytesLE h.len body)
    hd + (numLE r.1 + numLE r.2 * 2 ^ (8 * h.len)) * 2 ^ (8 * 0x80)
  else hd + body * 2 ^ (8 * 0x80)

/-! ### Slots, numbers and keys (R400, R401, R403) -/

/-- The save slot a strand holds. -/
def Ctl.saveOf (k : Ctl) (va : Nat) : Option SaveSlot := k.saves.find? fun s => s.strand == va

/-- The lowest free save slot of a partition. -/
def Ctl.freeSlot (k : Ctl) (part : Nat) : Option Nat :=
  let used := (k.saves.filter fun s => s.part == part).map (·.slot)
  let n := freshId used
  match findAt k.parts part with
  | some p => if n < p.saveN then some n else none
  | none => none

/-- Save slots a partition has free. -/
def Ctl.freeSlots (k : Ctl) (part : Nat) : Nat :=
  ((findAt k.parts part).map (·.saveN)).getD 0 - (k.saves.filter fun s => s.part == part).length

/-- Entries of the counter table (R401). -/
def counterEntries : Nat := 65536

/-- Counter entries in use. -/
def Ctl.usedCounters (k : Ctl) : List Nat := (k.counters.filter fun e => e.2.used).map (·.1)

/-- The lowest free counter entry. -/
def Ctl.freeCounter (k : Ctl) : Nat := freshId k.usedCounters

def Ctl.counter (k : Ctl) (i : Nat) : Counter := lookupD { Counter.reset with ctr := k.ctrBase } k.counters i

/-- A save slot, and an image number for a protected strand, taken at its first pre-emption. -/
def takeSave (part : Nat) (s : Strand) : M SaveSlot := do
  let k := (← thePkg).ctl
  match k.saveOf s.va with
  | some x => return x
  | none =>
    let x : SaveSlot := { part := part, slot := (k.freeSlot part).getD 0, strand := s.va,
                          imgId := if s.prot then some k.freeCounter else none }
    modCtl fun k => { k with saves := k.saves ++ [x] }
    match x.imgId with
    | some i =>
      let slot := ((k.keyOf s.dom).map (·.1)).getD 0
      modCtl fun k => { k with counters := setAt k.counters i { k.counter i with used := true, slot := slot } }
    | none => pure ()
    return x

/-! ### The stop (R178, R179) -/

/-- The waits of a stopped strand: what is not counted is withdrawn, what is counted stays (R123, R382). -/
def stopWaits : M Unit := do
  match (← theCore).lineWait with
  | some (.podCounted _) => return
  | some (.podFired _ _) => return
  | _ => withdrawWait

/-- A held DONE is withdrawn, and issues again on resume; an end by a fault is held again then, with its cause (R388). -/
def unhold : M Unit := do
  match ← gangMember with
  | some (a, i, k) =>
    let cause := ((a.islands[i]?).bind fun isl => findAt isl.held k).filter (· != 0)
    modStrand (← theCore).strand.toNat fun s => { s with ending := cause }
    dropHeld a.id i k
  | none => return

/-- The core stops for a save: both streams are at unit boundaries, which become a commit point. A fault there is raised
first. It waits for a SEND's answer, for the code of a handler's entry, and for a strand that is READY in place to run. A call
or an ERET that waits for its code goes back to its unit, and issues again on resume (R178). -/
def stopCore (byHost : Bool) : M Unit := do
  let c ← theCore
  let t ← now
  let me := (← read).core
  let stop (p : Option Pending) : M Unit := do
    modCore fun c => { c with mode := .stopped p, byHost := byHost, strA := { c.strA with joint := false },
                              strX := { c.strX with joint := false } }
    modCtl fun k => { k with drains := setAt k.drains me t }
  match ← findStrand c.strand.toNat with
  | some s => if s.state == .ready then block
  | none => pure ()
  match c.mode with
  | .running =>
    if c.sending.isSome then block
    fillQueues
    stopWaits
    match ← attempt commitPoint with
    | .ok _ => stop none
    | .error (.raise x ea) =>
      exception x ea 0 false
      faulted stop
    | .error (.restart x ea r) =>
      restartFault x ea r
      faulted stop
    | .error s => throw s
  | .resolving p => stop (some p)
  | .held =>
    unhold
    stop none
  | .fetching _ land =>
    let va := c.strand.toNat
    match ← findStrand va with
    | none => return
    | some s =>
      if s.savedAt.isSome then block
      let drop : M Unit := modSched fun x => { x with searches := x.searches.map fun q =>
        { q with reqs := q.reqs.filter fun r => r.strand != va } }
      if 4096 <= land then
        drop
        stop none
      else
        match s.miss with
        | none => block
        | some m =>
          drop
          modCore fun c => { c with fp := m.fp, cur := some m.cur
                                    strA := { off := m.offA, pend := none, joint := false }
                                    strX := { off := m.offX, pend := none, joint := false } }
          setStrand va fun o => { o with handle := m.handle, landing := m.landing, frame := m.fp, miss := none }
          stop none
  | .restored => block
  | _ => return
where
  /-- Where the fault has led: its handler, a wait, or off the core. -/
  faulted (stop : Option Pending → M Unit) : M Unit := do
    match (← theCore).mode with
    | .running => stop none
    | .resolving p => stop (some p)
    | _ => return

/-- A core that holds a strand and may be stopped. -/
def Core.stoppable (c : Core) : Bool :=
  match c.mode with
  | .running => true
  | .resolving _ => true
  | .held => true
  | .fetching _ _ => true
  | .restored => true
  | _ => false

/-- A core that is stopped for a save. -/
def Core.stopping (c : Core) : Bool :=
  match c.mode with
  | .stopped _ => true
  | _ => false

/-- The cores, with their packages, that are pre-empted together with a strand (R335, R379). -/
def stopTogether (s : Strand) : M (List (Nat × Nat)) := do
  let d ← get
  let all := (d.gangOf (← read).pkg s).filterMap fun q => q.2.onCore.map fun c => (q.1, c)
  return all.filter fun p => ((d.pkg p.1).core p.2).stoppable

/-- A member of a strand's gang is placed and has not entered its landing. -/
def gangEntering (s : Strand) : M Bool := do
  let d ← get
  return (d.gangOf (← read).pkg s).any fun q =>
    match q.2.onCore with
    | some c => ((d.pkg q.1).core c).mode == .idle
    | none => false

/-- A core's strand holds no save slot yet; `prot` when it is to take an image number too. -/
def Package.unsaved (x : Package) (prot : Bool) (c : Nat) : Bool :=
  let va := (x.core c).strand.toNat
  (x.ctl.saveOf va).isNone && (!prot || ((x.sched.strands.find? fun s => s.va == va).map (·.prot)).getD false)

/-- Every partition has the save slots that a stop of these cores takes, beside those that the cores already stopped will take
(R403), and the package the image numbers (R401). -/
def slotsSuffice (d : Dev) (cs : List (Nat × Nat)) : Bool :=
  cs.all fun p =>
    let x := d.pkg p.1
    let part (c : Nat) : Nat := (x.ctl.partOf c).getD 0
    let stopped := (x.cores.filter fun c => c.2.stopping).map (·.1)
    let all := stopped ++ (cs.filter fun q => q.1 == p.1).map (·.2)
    (all.filter fun c => part c == part p.2 && x.unsaved false c).length <= x.ctl.freeSlots (part p.2) &&
      (all.filter (x.unsaved true)).length + x.ctl.usedCounters.length <= counterEntries

/-- A partition's time slice in nanoseconds. -/
def PartRec.sliceTime (p : PartRec) : Nat := 1000 * (if p.slice == 0 then 1000 else p.slice)

/-- SLICE_END (R397, R403): the core's slice timer has reached SLICE; the core, and its gang with it, is stopped, or the
timer starts again where no save slot is free. -/
def sliceEnd : M Unit := do
  let c ← theCore
  let t ← now
  let part ← thePart
  match findAt (← thePkg).ctl.parts part, ← findStrand c.strand.toNat with
  | some p, some s =>
    if c.stoppable && p.sliceTime <= t - c.sliceStart && !(← gangEntering s) then
      let cs ← stopTogether s
      if slotsSuffice (← get) cs then cs.forM fun q => atCore q.1 q.2 .A (stopCore false)
      else modCore fun c => { c with sliceStart := t }
  | _, _ => return

def execSliceEnd (s : State) : Host.Outcome State Fault Refusal := event sliceEnd s

/-- How long a drain may last, in nanoseconds. -/
def drainLimit : Nat := 4000000

/-- DRAIN_WATCHDOG (R179): a drain has reached 4 ms: the core's commands end with WATCHDOG, and its context's guilt rises. -/
def drainWatchdog : M Unit := do
  let c ← theCore
  let t ← now
  match c.mode, findAt (← thePkg).ctl.drains (← read).core with
  | .stopped _, some t0 =>
    if drainLimit <= t - t0 && !c.cmds.isEmpty then
      let me := (← read).core
      c.cmds.forM fun k => commandDone k.serial (statusWord .watchdog 0)
      modFabric fun x => { x with messages := x.messages.filter fun m => m.core != me }
      match ← ctxOfDom c.dom.toNat with
      | some x => addGuilt x
      | none => return
  | _, _ => return

def execDrainWatchdog (s : State) : Host.Outcome State Fault Refusal := event drainWatchdog s

/-! ### The seal (R402, R407) -/

/-- The channel on which the A stream waits in RECV: the unit passes its checks, finds its operand and room for its result, and no
message (R86, R128). -/
def recvWait : M (Option Nat) := do
  let e ← read
  let c ← theCore
  match c.nextInstr .A with
  | .recv r a ch =>
    let d ← get
    let x ← attempt (atCore e.pkg e.core .A do
      gate (.recv r a ch)
      let off ← src a
      roomFor r
      let _ ← payloadAt off)
    set d
    match x with
    | .ok _ => return if (c.takeable ch.toNat).isNone then some ch.toNat else none
    | .error _ => return none
  | _ => return none

/-- An arrival of a core is now its saved strand's. -/
def Line.saved (core va : Nat) (l : Line) : Line :=
  { l with arrived := l.arrived.map fun a => if a == .core core then .strand va else a }

def Line.resumed (core va : Nat) (l : Line) : Line :=
  { l with arrived := l.arrived.map fun a => if a == .strand va then .core core else a }

/-- The members of a pre-empted gang that wait off their cores are bound to those no longer: a restore places every member
(R335, R379). -/
def unbindGang (s : Strand) : M Unit := do
  let d ← get
  (d.gangOf (← read).pkg s).forM fun q => do
    if q.2.onCore.isNone && q.2.bound.isSome then
      atCore q.1 0 .A (setStrand q.2.va fun o => { o with bound := none })

/-- The seal of a stopped core's strand. The image has no place for fp: the record's FRAME keeps it (log 78). -/
def sealStrand (s : Strand) (p : Option Pending) (done : List (Nat × BitVec 16)) : M Unit := do
  let c ← theCore
  let me := (← read).core
  let t ← now
  let save ← takeSave (← thePart) s
  let k := (← thePkg).ctl
  let msgs := (c.inbox.filter fun m => m.ch != 0 && m.dom == c.dom.toNat && !m.parked).take 32
  let ctr := match save.imgId with
    | some i => (k.counter i).ctr + 1
    | none => 0
  let key := k.keyOf s.dom
  let h : Header :=
    { slot := if s.prot then (key.map (·.1)).getD 0 else 0, enc := s.prot, dom := s.dom, core := me,
      imgId := save.imgId.getD 0, slotN := save.slot, ctr := ctr, strand := s.va,
      len := bodyLen (blocksOf c.touched.toNat).length }
  match save.imgId with
  | some i => modCtl fun k => { k with counters := setAt k.counters i { k.counter i with ctr := ctr, live := false } }
  | none => pure ()
  let base := ((findAt k.parts save.part).map (·.saveVa)).getD 0
  sysWrite (base + saveBytes * save.slot) (0x80 + h.len + 0x10)
    (sealBytes h ((key.map (·.2.key)).getD 0) (layOut (c.imageParts done msgs)))
  let wait ← if p.isNone && s.ending.isNone then recvWait else pure none
  let kept : Kept :=
    { nest := c.nest, heldWaits := c.heldWaits, lineWait := c.lineWait, pending := p, poisons := c.poisons
      bad := c.scratchPois.filter fun q => c.touched.getLsbD (q / 512)
      drained := t - (findAt k.drains me).getD t }
  modPkg fun x => { x with lines := x.lines.map fun l => (l.1, l.2.saved me s.va) }
  modCtl fun k => { k with drains := dropAt k.drains me }
  modCore fun c => { c.emptied.released with
    inbox := c.inbox.filter fun m => !msgs.contains m
    strand := 0, arcstat := 0 }
  setStrand s.va fun x => { x with
    state := if wait.isSome then .suspMsg else .preempted
    awaits := wait.getD 0, savedAt := some me, onCore := none, kept := some kept, hostStop := c.byHost && wait.isNone
    frame := c.fp, arcstat := c.arcstat, bound := none, illegal := false }
  unbindGang s
  if wait.isNone && !c.byHost then enqueue s.va
  preemptWritten s.va

/-- A member of the core's archipelago has not stopped, or its commands still run: its window accesses may come. -/
def gangBusy : M Bool := do
  let d ← get
  match ← gangMember with
  | none => return false
  | some (a, _, _) =>
    return a.islands.any fun isl => (List.range isl.cores.length).any fun k =>
      let c := (d.pkg isl.pkg).core (isl.cores.getD k 0)
      c.strand.toNat == isl.strands.getD k 0 && (c.stoppable || !c.cmds.isEmpty) &&
        ((d.islandStrand isl k).map fun s => !s.state.ended).getD false

/-- IMAGE_SEAL (R179, R402): after the drain, and once every access of the strand has performed, its context is sealed. A
launch that is torn down ends its strand instead (R360). -/
def imageSeal : M Unit := do
  let c ← theCore
  match c.mode, ← findStrand c.strand.toNat with
  | .stopped p, some s =>
    if !c.cmds.isEmpty || !(← thePosted).isEmpty || (← gangBusy) then return
    performReleased
    let sts ← c.tokens.mapM fun t => do return (t.1, ← tokenStatus t.2)
    if sts.any fun q => q.2 == none then return
    if ← strandTorn s then
      let me := (← read).core
      endStrand s.va 0 0 true
      dropMessagesOf s
      freeCore
      departWith s.va
      modCtl fun k => { k with drains := dropAt k.drains me }
    else sealStrand s p (sts.filterMap fun q => q.2.map fun st => (q.1, st))
  | _, _ => return

def execImageSeal (s : State) : Host.Outcome State Fault Refusal := event imageSeal s

/-! ### The restore (R181, R182, R404, R405, R408) -/

/-- How a restore is refused: a reason of Table 22.4, or IMAGE_STALE or IMAGE_TAG. -/
inductive Refused where
  | reason (n : Nat)
  | image (c : Cause) (dom : Nat)
  deriving DecidableEq, Repr

/-- An image read into the monitor and checked in the order of R404: its strand and its body. RESTORE names an image in pages
of domain 0, as every save area is (R396, R406). A strand that a message has made READY again is restored by the schedulers
(R332), never by RESTORE, which takes a PREEMPTED one; a strand that is being restored is PREEMPTED still (R182), and LIVE refuses
it (R405). -/
def checkImage (byHost : Bool) (va : Nat) : M (Except Refused (Strand × Header × Nat)) := do
  let mine (n : Nat) : M Bool := if byHost then systemOwned va n else return true
  if !(← mine 0x80) then return .error (.reason 13)
  match ← sysRead va 0x80 with
  | .error _ => return .error (.reason 13)
  | .ok hd =>
    match parseHeader hd with
    | none => return .error (.reason 13)
    | some h =>
      if !(← mine (0x80 + h.len + 0x10)) then return .error (.reason 13)
      match ← sysRead (va + 0x80) (h.len + 0x10), ← findStrand h.strand with
      | .ok v, some s =>
        let k := (← thePkg).ctl
        let held := k.saveOf s.va
        let same := s.dom == h.dom && (held.map (·.slot)) == some h.slotN &&
          ((held.bind (·.imgId)).getD 0) == h.imgId
        let waits := s.state == .preempted || (!byHost && s.state == .ready && s.savedAt.isSome)
        if !waits || !same then return .error (.reason 13)
        else if !h.enc then return .ok (s, h, v % 2 ^ (8 * h.len))
        else
          match findAt k.keys h.slot with
          | none => return .error (.reason 15)
          | some key =>
            if !key.valid || key.dom != s.dom then return .error (.reason 15)
            else if (k.counter h.imgId).ctr != h.ctr || (k.counter h.imgId).live then return .error (.image .imageStale s.dom)
            else
              match gcmOpen (bytesLE 32 key.key) (sealIv h.imgId h.ctr) (bytesLE 0x80 hd) (bytesLE h.len v)
                  (bytesLE 16 (v / 2 ^ (8 * h.len))) with
              | none => return .error (.image .imageTag s.dom)
              | some pt => return .ok (s, h, numLE pt)
      | _, _ => return .error (.reason 13)

/-- The messages of an image. -/
def imageMessages (v : Nat) : List Message :=
  (List.range (Nat.min (bytesAt v 0x6480 8) 32)).map fun j =>
    let d := bytesAt v (0x6540 + 0x50 * j) 8
    { parked := false, ch := natBits d 3 0, sender := natBits d 28 16, dom := natBits d 44 32, payload := BitVec.ofNat 512 (bytesAt v (0x6500 + 0x50 * j) 64) }

/-- The held token slots of an image, and the generations they give. -/
def imageTokens (v : Nat) : List (Nat × Nat × BitVec 16) :=
  (List.range 64).filterMap fun s =>
    let d := bytesAt v (0x6280 + 8 * s) 8
    if natBits d 32 32 == 1 then some (s, natBits d 15 6, BitVec.ofNat 16 (natBits d 31 16)) else none

/-- The scratchpad an image restores: its blocks, and zero elsewhere. -/
def imageScratch (v mask : Nat) : Memory :=
  (blocksOf mask).zipIdx.flatMap fun p => cellsOf (0x1000 * p.1) 0x1000 (bytesAt v (0x7000 + 0x1000 * p.2) 0x1000)

/-- The core with an image's state; what is not saved stays (R180). -/
def Core.fromImage (c : Core) (v : Nat) (kp : Kept) : Core :=
  let f := c.fromFrame v
  let w (off : Nat) : Word := BitVec.ofNat 64 (bytesAt v off 8)
  let vec (off : Nat) : VReg := BitVec.ofNat 1024 (bytesAt v off 128)
  let ss := bytesAt v 0x1E8 8
  let toks := imageTokens v
  { f with
    sMode := natBits ss 0 0 == 1
    pMode := natBits ss 1 1 == 1
    v := Vector.ofFn fun i => vec (0x1900 + 128 * i.val)
    e := Vector.ofFn fun i => vec (0x3900 + 128 * i.val)
    m := Vector.ofFn fun a => Vector.ofFn fun i => vec (0x3D00 + 2048 * a.val + 128 * i.val)
    kpos := Vector.ofFn fun i => BitVec.ofNat 8 (bytesAt v (0x5D00 + i.val) 1)
    t := Vector.ofFn fun i => w (0x5D08 + 8 * i.val)
    tabstat := w 0x5D88
    table := Vector.ofFn fun i => BitVec.ofNat 32 (bytesAt v (0x5E00 + 4 * i.val) 4)
    dom := BitVec.ofNat 13 (bytesAt v 0x6200 8)
    prio := BitVec.ofNat 6 (bytesAt v 0x6208 8)
    strand := w 0x6210
    rmode := BitVec.ofNat 3 (bytesAt v 0x6218 8)
    fflags := BitVec.ofNat 6 (bytesAt v 0x6220 8)
    tvec := w 0x6228
    dirbase := w 0x6230
    arcstat := w 0x6238
    tokens := toks.map fun p => (p.1, { kind := .command, status := some p.2.2 })
    tokenGens := toks.foldl (fun g p => g.setIfInBounds p.1 (BitVec.ofNat 10 p.2.1)) c.tokenGens
    inbox := c.inbox ++ imageMessages v
    scratch := imageScratch v (bytesAt v 0x6F40 8)
    scratchPois := kp.bad
    touched := BitVec.ofNat 64 (bytesAt v 0x6F40 8)
    nest := kp.nest
    heldWaits := kp.heldWaits
    lineWait := if natBits (bytesAt v 0x228 8) 16 16 == 1 then kp.lineWait else none
    fp := c.fp
    mode := .restored }

/-- A wait that fired while its strand was saved learns its generation (R123, R382). -/
def wakeSaved (gens : List (Nat × Nat × Word)) (va : Nat) : LineWait → LineWait
  | .counted k =>
    match gens.find? fun g => g.1 == va && g.2.1 == k with
    | some g => .fired k g.2.2
    | none => .counted k
  | .podCounted j =>
    match gens.find? fun g => g.1 == va && g.2.1 == podKey j with
    | some g => .podFired j (g.2.2.setWidth 48)
    | none => .podCounted j
  | w => w

/-- A checked image is loaded on the core: its state, its waits, and its exact form, which is fetched where it is not
resident. DEDUCED (log 88): a SUSPENDED-MSG strand resumes so too, with the SSTATE of its image (R133's last paragraph); R133's
list names it among those that the dock loop enters. -/
def loadImage (s : Strand) (h : Header) (v : Nat) : M Unit := do
  let t ← now
  let me := (← read).core
  let kp : Kept := s.kept.getD { nest := 0, heldWaits := [], lineWait := none, pending := none, poisons := 0, bad := [], drained := 0 }
  if h.enc then
    modCtl fun k => { k with counters := setAt k.counters h.imgId { k.counter h.imgId with live := true } }
  let gens := (← thePkg).savedGens
  modCore fun c =>
    let x := c.fromImage v kp
    let pod : Option LineWait := match kp.lineWait with
      | some (.podCounted j) => some (.podCounted j)
      | some (.podFired j g) => some (.podFired j g)
      | _ => x.lineWait
    let y : Core := { x with
      lineWait := pod.map (wakeSaved gens s.va)
      heldWaits := x.heldWaits.map fun q => (q.1, wakeSaved gens s.va q.2)
      fp := s.frame }
    let z := y.checkpoint none
    { z with
      shapes := []
      rcount := BitVec.ofNat 8 (bytesAt v 0x6F00 8)
      restartable := bytesAt v 0x6F08 8 % 2 == 1
      poisons := kp.poisons
      sliceStart := t - kp.drained }
  modPkg fun x => { x with
    savedGens := x.savedGens.filter fun g => g.1 != s.va
    lines := x.lines.map fun l => (l.1, l.2.resumed me s.va) }
  modStrand s.va fun o => { o with onCore := some me }
  let hd := natBits (bytesAt v 0x1D8 8) 51 32
  let form := formOf (bytesAt v 0x1D8 8)
  match ← attempt (dirEntry hd) with
  | .ok (some e) =>
    let code := residentForm (← theCore) (← thePkg).ctl e.digest form
    modCore fun c => { c with cur := some { handle := hd, digest := e.digest, form := form, key := (code.map (·.key)).getD 0 } }
    if code.isNone then
      modCore fun c => { c with mode := .fetching hd 4096 }
      beginSearch s.va me hd e (some form)
  | .error (.halt f) => throw (.halt f)
  | _ =>
    modCore fun c => { c with cur := some { handle := hd, digest := 0, form := form, key := 0 } }
    modStrand s.va fun o => { o with illegal := true }

/-- The code that the strand runs has been poisoned (R148): the region goes back to its last commit point and the strand waits
for a refetch; the third time in a region POISON is raised. -/
def codeLost (u : Current) : M Unit := do
  let c ← theCore
  let me := (← read).core
  let va := c.strand.toNat
  let n := c.poisons + 1
  if 3 <= n then
    modCore fun c => { c with poisons := n }
    exception .poison (Config.openEaddr (← now) c.serial) 0 false
  else
    rollBack
    modCore fun c => { c with poisons := n }
    if !c.restartable then exception .regionLost (Config.openEaddr (← now) c.serial) Cause.poison.code false
    else
      match ← attempt (dirEntry u.handle) with
      | .ok (some ent) =>
        match c.atLanding with
        | some (h, l) =>
          if h == u.handle then
            beginSearch va me h ent none
            suspend .suspCode h l c.fp none
            modStrand va fun s => { s with poisons := n }
          else waitHere ent
        | none => waitHere ent
      | .error (.halt f) => throw (.halt f)
      | .error .block => block
      | _ => exceptionOpen .illegal (BitVec.ofNat 64 u.handle)
where
  waitHere (ent : DirEnt) : M Unit := do
    let va := (← theCore).strand.toNat
    let me := (← read).core
    modCore fun c => { c with mode := .fetching u.handle 4096 }
    beginSearch va me u.handle ent (some u.form)
    setStrand va fun s => { s with state := .suspCode, bound := some me }

/-- The core's strand runs on; where the copy of its code has been discarded meanwhile, the streams read none (R148). -/
def runOn : M Unit := do
  let c ← theCore
  modCore fun c => { c with mode := .running }
  match c.cur, c.curCode with
  | some u, none => codeLost u
  | _, _ => return

/-- PARKED_MESSAGE_FORWARD (R181, R182): the messages parked where the image was sealed follow those of the image, and the
restored strand runs, or waits again for the fault it waited for. -/
def parkedMessageForward : M Unit := do
  let c ← theCore
  let p := (← read).pkg
  match c.mode, ← findStrand c.strand.toNat with
  | .restored, some s =>
    match s.savedAt with
    | none => return
    | some old =>
      let mine (m : Message) : Bool := m.parked && m.dom == s.dom
      let ms := ((← coreAt p old).inbox.filter mine).map fun m => { m with parked := false }
      modCoreAt p old fun x => { x with inbox := x.inbox.filter fun m => !mine m }
      modCore fun x => { x with inbox := x.inbox ++ ms }
      let pend := s.kept.bind (·.pending)
      setStrand s.va fun x => { x with savedAt := none, kept := none, illegal := false, hostStop := false, ending := none
                                       state := if pend.isSome then .suspInput else .running }
      match pend, s.ending with
      | some q, _ => modCore fun x => { x with mode := .resolving q }
      | none, some cause =>
        modCore fun x => { x with mode := .running }
        retireFault cause
      | none, none =>
        if s.illegal then
          modCore fun x => { x with mode := .running }
          exceptionOpen .illegal (BitVec.ofNat 64 ((c.cur.map (·.handle)).getD 0))
        else
          runOn
          raiseOwed
  | _, _ => return

def execParkedMessageForward (s : State) : Host.Outcome State Fault Refusal := event parkedMessageForward s

end Sys2Proof.Machine
end

