-- ==== Sys2Proof/Machine/Placement.lean ====
section
/-!
DEFINITION. Sys2Proof/Machine/Placement.lean: placement: the ready queues and their ageing, the choice of an item for an
idle core, gangs, the dock loop, and copy-ins (spec 18, R333 to R341; spec 20, R379; spec 01, R23 to R25).
-/

namespace Sys2Proof.Machine

/-! ### Ready items (R334 to R337) -/

/-- The core to which a replay of its launch pins a strand, with its package: that of the first placement of it still to come in
the record, else of the last there was. -/
def Dev.recordedCore (d : Dev) (s : Strand) : Option (Nat × Nat) :=
  let at_ (i : RecItem) : Option (Nat × Nat) := match i with
    | .placed p path c => if path == s.path then some (p, c) else none
    | _ => none
  (d.pkg s.lpkg).service.replay.bind fun r =>
    if r.launch == s.launch then r.items.findSome? at_ <|> r.all.reverse.findSome? at_ else none

/-- A core may take a strand (R334): it is idle and unfenced, and holds no other strand. -/
def Dev.mayTake (d : Dev) (p c : Nat) (s : Strand) : Bool :=
  let x := d.pkg p
  (x.core c).mode == .idle && (x.core c).cmds.isEmpty && !x.service.quads.contains (quadOf c) &&
    !x.service.fencing.contains (quadOf c) &&
    (x.sched.strands.all fun o => o.va == s.va || o.state.ended || (o.onCore != some c && o.bound != some c)) &&
    (s.bound.isNone || s.bound == some c) &&
    (!s.replayPin || d.recordedCore s == some (p, c))

/-- Where the members of a gang go: package, core and strand. -/
abbrev Plan := List (Nat × Nat × Strand)

/-- The strands of a strand's gang have all been created, so that it may be placed (R335). -/
def Dev.gangWhole (d : Dev) (p : Nat) (s : Strand) : Bool :=
  match s.gangId, ((d.pkg p).sched.launches.find? fun l => l.id == s.launch).bind (·.walk) with
  | some g, some w => 4 * g + 4 <= w.next
  | _, _ => true

/-- A member of a strand's gang is being stopped for a save: the others wait to be restored with it (R335). -/
def Dev.gangStopping (d : Dev) (p : Nat) (s : Strand) : Bool :=
  (d.gangOf p s).any fun q => q.2.onCore.any fun c => ((d.pkg q.1).core c).stopping

/-- A quad gang on the whole quad of a core (R335). -/
def Dev.quadPlan (d : Dev) (p c : Nat) (ms : List Strand) : Option Plan :=
  let at_ (m : Strand) : Nat := 4 * quadOf c + m.member
  let ctl := (d.pkg p).ctl
  let inside := (List.range 4).all fun j => ctl.partOf (4 * quadOf c + j) == ctl.partOf c
  if inside && ms.all fun m => m.onCore.isNone && m.bound.isNone && d.mayTake p (at_ m) m then
    some (ms.map fun m => (p, at_ m, m))
  else none

/-- The free cores of an island's partition, in the order they are chosen; a core that asks comes first (log 23). -/
def Dev.islandCores (d : Dev) (t : Nat) (isl : Island) (used : List (Nat × Nat)) (ask : Nat × Nat) (m : Strand) : List Nat :=
  match findAt (d.pkg isl.pkg).ctl.parts isl.part with
  | none => []
  | some r =>
    let free := ((List.range r.len).map (· + r.base)).filter fun c => !used.contains (isl.pkg, c) && d.mayTake isl.pkg c m
    let sorted := sortKey (fun c => Config.placeKey t c) free
    if ask.1 == isl.pkg && sorted.contains ask.2 then ask.2 :: sorted.erase ask.2 else sorted

/-- The cores of an island's members: those that a replay pins them to, else the first that are free. -/
def Dev.memberCores (d : Dev) (t : Nat) (isl : Island) (used : List (Nat × Nat)) (ask : Nat × Nat) (ms : List Strand) : List Nat :=
  let pinned (m : Strand) : Option Nat := (d.recordedCore m).bind fun q =>
    if q.1 == isl.pkg && !used.contains q && d.mayTake isl.pkg q.2 m then some q.2 else none
  match ms with
  | [] => []
  | m :: _ => if m.replayPin then ms.filterMap pinned else (d.islandCores t isl used ask m).take ms.length

/-- An archipelago, all its islands at once (R379): each takes as many cores as it has members, in ascending number. -/
def Dev.arcPlan (d : Dev) (t p c : Nat) (a : Archipelago) : Option Plan :=
  a.islands.foldl (fun acc isl =>
    match acc with
    | none => none
    | some plan =>
      let ms := isl.strands.filterMap fun va => (d.pkg isl.pkg).sched.strands.find? fun o => o.va == va && o.gang && !o.state.ended
      if isl.strands.length < isl.cores.length then none else
      match ms with
      | [] => some plan
      | _ =>
        let cs := d.memberCores t isl (plan.map fun q => (q.1, q.2.1)) (p, c) ms
        if cs.length < ms.length || ms.any (fun m => m.onCore.isSome || m.bound.isSome) then none
        else some (plan ++ ((sortKey id cs).zip ms).map fun q => (isl.pkg, q.1, q.2))) (some [])

/-- What a core would take with an item, none when it cannot (R334, R335, R379). -/
def Dev.planFor (d : Dev) (t p c : Nat) (s : Strand) : Option Plan :=
  let alone : Option Plan := if d.mayTake p c s then some [(p, c, s)] else none
  if s.bound.isSome then (if d.gangStopping p s then none else alone)
  else if s.gang then
    match d.arcs.find? fun a => a.islands.any fun i => i.pkg == p && i.strands.contains s.va with
    | some a =>
      (d.arcPlan t p c a).bind fun plan => if plan.any fun q => q.1 == p && q.2.1 == c then some plan else none
    | none => alone
  else if s.gangId.isSome then
    if d.gangWhole p s then d.quadPlan p c ((d.gangOf p s).map (·.2)) else none
  else alone

def execPriorityAgeing (s : State) : Host.Outcome State Fault Refusal := event priorityAgeing s

/-- R336: the item that a core takes next, with its plan. -/
def chooseItem (part : Nat) : M (Option (Strand × Plan)) := do
  let d ← get
  let e ← read
  let x ← thePkg
  let mine (s : Strand) : Bool := ((findAt x.ctl.doms s.dom).bind fun q => (findAt x.ctl.ctxs q.ctx).map (·.part)) == some part
  let can := (x.sched.strands.filter fun s => s.waits && mine s).filterMap fun s =>
    (d.planFor e.time e.pkg e.core s).map fun pl => (s, pl)
  let turn (s : Strand) : Nat :=
    match x.sched.lastStarted.find? fun q => q.1 == (part, x.ctl.level s) with
    | some q => (s.dom + 8192 - q.2 - 1) % 8192
    | none => s.dom
  return (sortKey (fun q => x.ctl.level q.1) (sortKey (fun q => turn q.1) (sortKey (fun q => q.1.order) can))).head?

/-! ### Placing -/

/-- A tree slot of a launch (R27): a core that no slot names yet takes one, in ascending order, until the tree is fixed. -/
def Launch.withSlot (l : Launch) (key : Nat) : Launch :=
  if l.tree.any fun n => n.core == key then l
  else { l with tree := insertKey (fun n : TreeNode => n.core) { core := key, word := 0, maxErr := 0, heard := [], forwarded := false } l.tree }

/-- The core that runs a point of a coverage band (R357). -/
def Walk.ranOn (w : Walk) (point core : Nat) : Walk := { w with ranAt := setAt w.ranAt point core }

/-- Its record is in the core's inbox (R24, R25). -/
def deliver (c : Nat) (s : Strand) : M Unit := do
  let rec_ := s.record (linkOf (← thePkg).ctl s.va)
  modCoreAt (← read).pkg c fun k => { k with
    inbox := k.inbox ++ [{ parked := false, ch := 0, sender := systemSender, dom := 0, payload := BitVec.ofNat 512 rec_ }] }

/-- What every placement of a strand on a core records: the replay's order, the tree slot, the point's core, the slice, and that
the strand has written no block of the scratchpad yet, copy-ins included (R180, R286). -/
def notePlaced (c : Nat) (s : Strand) : M Nat := do
  let p := (← read).pkg
  let t ← now
  replayTurn s.lpkg s.launch (fun i => match i with
    | .placed _ path _ => path == s.path
    | _ => false) (.placed p s.path c)
  let _ ← recordItem s.lpkg s.launch (.placed p s.path c)
  let key := s.slot.getD (if s.gang then p % 1024 * 8192 + c else c)
  setLaunchAt s.lpkg s.launch fun l =>
    let l := l.withSlot key
    match s.point with
    | some n => { l with walk := l.walk.map fun w => w.ranOn n c }
    | none => l
  modCoreAt p c fun k => { k with sliceStart := t, touched := 0 }
  return key

/-- A strand without an image goes to a core: it runs from there, or its inputs are copied in first. -/
def placeFresh (c : Nat) (s : Strand) : M Unit := do
  let key ← notePlaced c s
  let input := s.state == .suspInput
  setStrand s.va fun s => { s with
    slot := some key, onCore := some c
    bound := if (s.gang || s.gangId.isSome) && !input then some c else s.bound
    state := if input then .suspInput else .running }
  if !input then
    match ← findStrand s.va with
    | some s => deliver c s
    | none => return

/-- The VA of a strand's image in its save slot (R403). -/
def imageVa (s : Strand) : M Nat := do
  let k := (← thePkg).ctl
  match k.saveOf s.va with
  | some x => return ((findAt k.parts x.part).map (·.saveVa)).getD 0 + saveBytes * x.slot
  | none => return 0

/-- A strand with a checked image goes to a core. -/
def placeImage (c : Nat) (s : Strand) (h : Header) (v : Nat) : M Unit := do
  let key ← notePlaced c s
  modStrand s.va fun o => { o with slot := some key, bound := if o.gang || o.gangId.isSome then some c else none }
  atCore (← read).pkg c .A (loadImage s h v)

/-- The event and the guilt of a refused restore that no command asked for (R404). -/
def restoreRefused (s : Strand) (va : Nat) (r : Refused) : M Unit := do
  match ← ctxOfDom s.dom with
  | none => return
  | some c =>
    let code := match r with
      | .reason n => n
      | .image x _ => x.code
    let kind := match r with
      | .reason _ => 1
      | .image _ _ => 3
    guiltEvent c { blankEvent kind with code := code, arg := BitVec.ofNat 64 va, dom := s.dom }

/-- The images of a plan, each checked; the first that is refused refuses all (R335, R379, R404). -/
def checkPlan : Plan → M (Except (Nat × Strand × Nat × Refused) (List (Nat × Nat × Strand × Option (Header × Nat))))
  | [] => return .ok []
  | (p, c, s) :: rest => do
    let here ←
      if s.waits && s.savedAt.isSome then atCore p c .A (do
        let va ← imageVa s
        match ← checkImage false va with
        | .ok (o, h, v) => return (if o.va == s.va then .ok (some (h, v)) else .error (va, .reason 13))
        | .error r => return .error (va, r))
      else pure (.ok none : Except (Nat × Refused) (Option (Header × Nat)))
    match here with
    | .error (va, r) => return .error (p, s, va, r)
    | .ok x =>
      match ← checkPlan rest with
      | .error e => return .error e
      | .ok xs => return .ok ((p, c, s, x) :: xs)

/-- FUSE: the quad's L1s act as one from its gang's placement (R335); those of the quad where it was pre-empted, if it comes
from another and that quad is still fused for it, no longer do (log 98). -/
def fuseQuad (c : Nat) (s : Strand) : M Unit := do
  let l ← findLaunch s.launch
  match s.gangId with
  | none => return
  | some g =>
    let f := (quadOf c, s.launch, g)
    if !(l.map (·.fuse)).getD false || (← thePkg).home.fusedQuads.contains f then return
    splitGang s.launch g
    modPkg fun x => { x with home := { x.home with
      fusedQuads := f :: x.home.fusedQuads.filter fun e => e.1 != f.1
      l1 := x.home.l1.filter fun e => e.1 / 4 != f.1 } }

/-- The islands' cores after a placement, each index keeping its member; an island whose strands are not all created is in no
plan. -/
def Island.placed (plan : Plan) (i : Island) : Island :=
  if i.strands.length < i.cores.length then i else
  let at_ (va was : Nat) : Nat :=
    match plan.find? fun q => q.1 == i.pkg && q.2.2.va == va with
    | some q => q.2.1
    | none => was
  { i with cores := (i.strands.zip i.cores).map fun q => at_ q.1 q.2 }

/-- A plan carried out: members that wait are placed or restored, the others are bound to their new cores. -/
def carryOut (plan : Plan) : M Unit := do
  match ← checkPlan plan with
  | .error (p, s, va, r) => atCore p 0 .A (restoreRefused s va r)
  | .ok xs =>
    modify fun d => { d with arcs := d.arcs.map fun a => { a with islands := a.islands.map (Island.placed plan) } }
    xs.forM fun q => atCore q.1 q.2.1 .A (do
      let s := q.2.2.1
      fuseQuad q.2.1 s
      match q.2.2.2 with
      | some (h, v) => placeImage q.2.1 s h v
      | none =>
        if s.waits then placeFresh q.2.1 s
        else setStrand s.va fun o => { o with bound := some q.2.1 })

/-- A record as it stands in memory breaks R19 or R21: a reserved bit, a reserved state, or an identifier out of range. -/
def recordBad (v : Nat) : Bool :=
  natBits v 63 60 != 0 || 8 <= natBits v 55 51 || 47 < natBits v 50 45 || 1023 < natBits (bytesAt v 0x30 8) 47 32

/-- The scheduler reads the records of a plan's waiting members before it starts them: a bad one is refused, and its strand
ends without a start (R21, log 86). Whether one was. -/
def refuseRecords (plan : Plan) : M Bool :=
  plan.foldlM (fun bad q => do
    let s := q.2.2
    if !s.waits then return bad
    atCore q.1 q.2.1 .A do
      match ← sysRead s.va 64 with
      | .ok v =>
        if !recordBad v then return bad
        endAway s Config.badRecordCause.toNat 0 false
        return true
      | .error _ => return bad) false

/-! ### Strands that waited in place (R172, R175, R332) -/

/-- The strand runs from where it missed its code, and a cause is raised there in both streams: ILLEGAL (R153), or what system
software has refused (R169). -/
def missFault (s : Strand) (m : Miss) (cause : Cause) (ea : Nat) : M Unit := do
  setStrand s.va fun o => { o with handle := m.handle, landing := m.landing, frame := m.fp, miss := none, illegal := false, state := .running }
  modCore fun c =>
    ({ c with
      fp := m.fp, cur := some m.cur, mode := .running
      strA := { off := m.offA, pend := none, joint := false }
      strX := { off := m.offX, pend := none, joint := false } } : Core).checkpoint none
  exception cause (BitVec.ofNat 64 ea) 0 true

/-- The requester of a core that waits in place, or of the strand placed on it, whose search has ended. -/
def Sched.endedFor (x : Sched) (me va : Nat) : Option Requester :=
  x.searches.findSome? fun q => q.reqs.find? fun r => r.strand == va && (r.found.isSome || (r.missed && r.core == me))

def dropRequests (va : Nat) : M Unit :=
  modSched fun x =>
    let qs := x.searches.map fun q => { q with reqs := q.reqs.filter fun r => r.strand != va }
    { x with searches := qs.filter fun q => !q.reqs.isEmpty }

/-- The strand of a core that waited in place runs again (Table 18.3). -/
def runAgain : M Unit := do
  let c ← theCore
  setStrand c.strand.toNat fun o => { o with
    state := .running, miss := none, bound := if o.gang || o.gangId.isSome || c.nest != 0 then o.bound else none }

/-- A core that waited in place goes on with code that has come; an ERET is performed at once, for the form may have displaced its
own code (R177). DEDUCED (log 88): RMODE and FFLAGS keep their values at a landing
that a call or a handler's entry has waited for in place. -/
def goOn (k : Code) (h land : Nat) : M Unit := do
  let s ← findStrand (← theCore).strand.toNat
  if land == 4096 then
    modCore fun c => { c with cur := c.cur.map fun u => { u with key := k.key }, mode := .running }
    runAgain
    raiseOwed
  else if land == 4097 then
    modCore fun c => { c with mode := .running }
    runAgain
    jointEffect actEret
  else
    match k.landing land with
    | some o =>
      enterLanding k h land o
      runAgain
    | none =>
      match s.bind (·.miss), s with
      | some m, some s => missFault s m .illegal land
      | _, _ => retireFault (natBits (← theCore).cause.toNat 7 0)

/-- A core that waited in place meets the end of a search that found nothing (R153, R174, R177). An ERET restores its frame
without the form. -/
def goWithout (h land : Nat) : M Unit := do
  let va := (← theCore).strand.toNat
  match ← findStrand va with
  | none => return
  | some s =>
    if land == 4096 then
      modCore fun c => { c with mode := .running }
      runAgain
      exceptionOpen .illegal (BitVec.ofNat 64 h)
    else if land == 4097 then
      modCore fun c => { c with mode := .running }
      runAgain
      modStrand va fun o => { o with illegal := true }
      jointEffect actEret
    else
      match s.miss with
      | some m => missFault s m .illegal h
      | none => retireFault (natBits (← theCore).cause.toNat 7 0)

/-- The directory entry that a request was made from. -/
def Requester.entry (r : Requester) : DirEnt :=
  { digest := r.entDigest, frame := r.entFrame, objVa := r.objVa, objSize := r.objSize, nat := r.entNat }

/-- A strand that waited in place is READY, and its core, which no other strand may take, takes it: it runs (Table 18.3). Code that
has been lost since it was installed is searched for again. Whether there was one. -/
def takeInPlace : M Bool := do
  let c ← theCore
  let me := (← read).core
  let x ← thePkg
  let va := c.strand.toNat
  match x.sched.strands.find? fun s => s.va == va && s.onCore == some me && s.state == .ready, c.mode with
  | some _, .resolving _ =>
    runAgain
    runOn
    raiseOwed
    return true
  | some _, .fetching h land =>
    match x.sched.endedFor me va with
    | none => return false
    | some r =>
      dropRequests va
      match r.found with
      | some k =>
        if c.store.contains k then goOn k h land
        else
          beginSearch va me h r.entry r.need
          setStrand va fun s => { s with state := .suspCode }
      | none => goWithout h land
      return true
  | _, _ => return false

/-! ### STRAND_DISPATCH -/

/-- STRAND_DISPATCH (R23, R336): an idle core takes the first item that it can take, and one that waited in place its own
strand. -/
def strandDispatch : M Unit := do
  let me := (← read).core
  if ← takeInPlace then return
  priorityAgeing
  match ← partOfCore me with
  | none => return
  | some part =>
    match ← chooseItem part with
    | none => return
    | some (s, plan) =>
      if ← refuseRecords plan then return
      let lv := (← thePkg).ctl.level s
      modSched fun x => { x with lastStarted := ((part, lv), s.dom) :: x.lastStarted.filter fun q => q.1 != (part, lv) }
      carryOut plan

def execStrandDispatch (s : State) : Host.Outcome State Fault Refusal := event strandDispatch s

/-! ### The dock loop (R24, R133, R155, R230, R333) -/

/-- The core as a strand is taken up: the CSRs of R333, and registers that hold zero or what the same strand left. -/
def Core.docked (c : Core) (s : Strand) (e : DomEntry) (keeps : Bool) : Core :=
  let r : Core := Core.reset
  let z : Core := if keeps then c else
    { c with a := r.a, s := r.s, pa := r.pa, px := r.px, bb := r.bb, v := r.v, e := r.e, m := r.m, kpos := r.kpos, t := r.t }
  let y : Core := { z.emptied with
    dom := BitVec.ofNat 13 s.dom, prio := BitVec.ofNat 6 s.prio, strand := BitVec.ofNat 64 s.va
    dirbase := e.dirbase, tvec := e.tvec, rmode := 0, fflags := 0, sMode := s.dom == 0, pMode := false, rcount := 0
    arcstat := s.arcstat, nest := 0, heldWaits := [], lineWait := none, sending := none, fp := s.frame, poisons := 0 }
  if c.lastDom == some s.dom then y else { y with table := Table.empty, tabstat := 0 }

/-- A strand that cannot be entered for want of its code or handle: ILLEGAL where it missed, or its end (R153, R333). -/
def noCode (s : Strand) (ea : Nat) : M Unit :=
  match s.miss with
  | some m => missFault s m .illegal ea
  | none => retireFault Cause.illegal.code

/-- The landing is entered; a restartable fault that system software has refused is raised there, the checkpoint of its region
(R169). -/
def dockLanding (s : Strand) (code : Code) (o : Nat × Nat) : M Unit := do
  enterLanding code s.handle s.landing o
  modCore fun c => { c with poisons := s.poisons }
  modStrand s.va fun q => { q with started := true, miss := none, poisons := 0 }
  raiseOwed

/-- A record received by the dock loop (R333). -/
def dockStrand (s : Strand) (e : DomEntry) : M Unit := do
  let me := (← read).core
  let t ← now
  modCore fun c =>
    let keeps := s.started && c.strand.toNat == s.va && Config.dockKeeps t c.serial
    c.docked s e keeps
  match s.illegal, s.miss, s.owed.head? with
  | true, _, _ => noCode s s.handle
  | false, some m, some f =>
    modStrand s.va fun o => { o with owed := o.owed.drop 1 }
    missFault s m f.cause f.ea.toNat
  | _, _, _ =>
    match ← attempt (dirEntry s.handle) with
    | .error (.restart cause ea report) =>
      let _ ← openReport cause ea report s.dom me (.strand s.va me .A)
      suspend .suspCode s.handle s.landing s.frame s.miss
    | .error (.raise cause _) => retireFault cause.code
    | .error x => throw x
    | .ok none => noCode s s.handle
    | .ok (some ent) =>
      match resident (← theCore) (← thePkg).ctl ent.digest with
      | some code =>
        match code.landing s.landing with
        | some o => dockLanding s code o
        | none => noCode s s.landing
      | none =>
        beginSearch s.va me s.handle ent none
        suspend .suspCode s.handle s.landing s.frame s.miss

/-- A strand whose code is found and not installed yet on the core it is placed on. -/
def Sched.uninstalled (x : Sched) (va : Nat) : Bool :=
  x.searches.any fun q => q.reqs.any fun r => r.strand == va && r.found.isSome

/-- DOCK_ENTER: the dock loop takes a record from channel 0 and enters its strand's landing. Only a scheduler's record is
one; a record of a strand that has ended since is dropped. -/
def dockEnter : M Unit := do
  let c ← theCore
  let me := (← read).core
  if c.mode != .idle then return
  match c.inbox.find? fun m => m.ch == 0 && m.sender == systemSender with
  | none => return
  | some m =>
    let x ← thePkg
    match x.sched.strands.find? fun s => s.onCore == some me && s.state == .running with
    | none => modCore fun c => { c with inbox := c.inbox.erase m }
    | some s =>
      if x.sched.uninstalled s.va then return
      modCore fun c => { c with inbox := c.inbox.erase m }
      match findAt x.ctl.doms s.dom with
      | some e => dockStrand s e
      | none => retireFault Cause.illegal.code

def execDockEnter (s : State) : Host.Outcome State Fault Refusal := event dockEnter s

/-! ### Copy-ins (R286, R340, R341) -/

/-- A declaration whose shape has been read: its source base, destination offset and shape. -/
structure CopyIn where
  src : Nat
  dst : Nat
  words : List Word
  shape : ShapeObj
  deriving DecidableEq, Repr

/-- One declaration: none where the list ends, or the cause it is refused with (Table 18.4). -/
def readDecl (s : Strand) (k : Nat) : M (Except Cause (Option CopyIn)) := do
  match ← sysReadAs s.dom (s.indecl.toNat + 32 * k) 32 with
  | .error c => return .error c
  | .ok v =>
    let w (j : Nat) : Nat := bytesAt v (8 * j) 8
    if natBits (w 0) 63 63 == 0 then return .ok none
    let shapeVa := natBits (w 0) 56 0
    if natBits (w 0) 62 57 != 0 || w 2 / 2 ^ 18 != 0 || shapeVa % 32 != 0 then return .error .shape
    match ← sysReadAs s.dom shapeVa 96 with
    | .error c => return .error c
    | .ok o =>
      let ws := shapeWords o
      match shapeOf ws with
      | none => return .error .shape
      | some sh =>
        let xy (hi lo : Nat) : Int := if s.point.isSome then (natBits s.arg0.toNat hi lo : Int) else 0
        let step (hi lo : Nat) : Int := natSigned 32 (natBits (w 3) hi lo)
        let src := (BitVec.ofInt 64 ((w 1 : Int) + xy 15 0 * step 31 0 + xy 31 16 * step 63 32)).toNat
        let dst := w 2
        if sh.mode != 0 then return .error .shape
        if src % sh.esize != 0 || dst % sh.esize != 0 then return .error .align
        return .ok (some { src := src, dst := dst, words := ws, shape := sh })

/-- The destination hull of a declaration, as offsets in the scratchpad, and its source hull. -/
def CopyIn.dest (c : CopyIn) : Int × Int := let h := c.shape.hull c.shape.dst; ((c.dst : Int) + h.1, (c.dst : Int) + h.2)

def CopyIn.from_ (c : CopyIn) : Int × Int := let h := c.shape.hull c.shape.sst; ((c.src : Int) + h.1, (c.src : Int) + h.2)

/-- The declarations up to the first that is absent, four at most. -/
def readDecls (s : Strand) : Nat → Nat → M (Except Cause (List CopyIn))
  | 0, _ => return .ok []
  | n + 1, k => do
    match ← readDecl s k with
    | .error c => return .error c
    | .ok none => return .ok []
    | .ok (some x) =>
      match ← readDecls s n (k + 1) with
      | .error c => return .error c
      | .ok xs => return .ok (x :: xs)

/-- Destination hulls that leave the scratchpad or overlap (R341). -/
def hullsBad : List CopyIn → Bool
  | [] => false
  | c :: rest =>
    let a := c.dest
    a.1 < 0 || (scratchBytes : Int) < a.2 || (rest.any fun o => a.1 < o.dest.2 && o.dest.1 < a.2) || hullsBad rest

/-- A source hull that leaves translated memory, as COPYS refuses it (R270, R286). -/
def CopyIn.astray (c : CopyIn) : Bool := let f := c.from_; f.1 < 0 || (windowBase : Int) < f.2

/-- A strand whose inputs failed is retired and runs nothing; one that is torn down is cancelled (R341, R360). -/
def inputFailed (s : Strand) (cause : Nat) : M Unit := do endAway s cause 0x400 (← strandTorn s)

/-- COPY_IN: the declarations of the strand placed on the core are read, and each is issued as a copy on the core's copy
engine. -/
def copyIn : M Unit := do
  let me := (← read).core
  match (← thePkg).sched.strands.find? fun s => s.onCore == some me && s.state == .suspInput && !s.started && s.bound.isNone with
  | none => return
  | some s =>
    let decls ← if s.indecl.toNat % 32 != 0 then pure (.error .shape) else readDecls s 4 0
    match decls with
    | .error c => inputFailed s c.code
    | .ok ds =>
      if hullsBad ds then inputFailed s Cause.shape.code
      else if ds.any CopyIn.astray then inputFailed s Cause.aperture.code
      else
        let ids ← ds.mapM fun _ => nextSerial
        let word (n : Nat) : Word := BitVec.ofNat 64 n
        let cmds : List Command := (ids.zip ds).map fun q =>
          { serial := q.1, engine := .copy, op := 0x73, slot := none, dom := s.dom
            args := [word (scratchBase + q.2.dst), word q.2.src] ++ q.2.words }
        modCore fun c => { c with cmds := c.cmds ++ cmds }
        setStrand s.va fun o => { o with bound := some me, copyIns := ids }

def execCopyIn (s : State) : Host.Outcome State Fault Refusal := event copyIn s

/-- COPY_IN_COMPLETE: every copy-in of the strand has completed; it starts, or is retired with the cause of one that
failed. -/
def copyInComplete : M Unit := do
  let me := (← read).core
  match (← thePkg).sched.strands.find? fun s =>
      s.onCore == some me && s.state == .suspInput && !s.started && s.bound == some me && s.copyIns.isEmpty with
  | none => return
  | some s =>
    if ← strandTorn s then endAway s 0 0 true
    else
      match s.copyBad with
      | some c => inputFailed s c
      | none =>
        setStrand s.va fun o => { o with state := .running, bound := if o.gang || o.gangId.isSome then some me else none }
        match ← findStrand s.va with
        | some s => deliver me s
        | none => return

def execCopyInComplete (s : State) : Host.Outcome State Fault Refusal := event copyInComplete s

end Sys2Proof.Machine
end

