-- ==== Sys2Proof/Machine/Fetcher.lean ====
section
/-!
DEFINITION. Sys2Proof/Machine/Fetcher.lean: the code fetcher: portable objects and native translations, the stages of a
search, their checks and the code log, installation in a code store, and code poison (spec 06, R137 to R153; spec 08,
R171, R172, R177, R182).
-/

namespace Sys2Proof.Machine

/-! ### Objects (Tables 6.1, 6.2) -/

def objMagic : Nat := 0x5A504631
def nativeMagic : Nat := 0x5A4E5431

/-- The halves of a body. -/
def halvesAt (v off n : Nat) : List Half := (List.range (n / 4)).map fun k => BitVec.ofNat 32 (bytesAt v (off + 4 * k) 4)

/-- Landing entries; none where the pair is all ones. -/
def landingsAt (v off n : Nat) : Landings :=
  (List.range n).map fun k =>
    let a := bytesAt v (off + 8 * k) 4
    let x := bytesAt v (off + 8 * k + 4) 4
    if a == 0xFFFFFFFF && x == 0xFFFFFFFF then none else some (a, x)

/-- Present offsets are units' places inside their bodies, and landing 0 is present. -/
def landingsOk (ls : Landings) (asize xsize : Nat) : Bool :=
  (ls.headD none).isSome && ls.all fun l =>
    match l with
    | some (a, x) => a % 4 == 0 && x % 4 == 0 && a < asize && x < xsize
    | none => true

/-- Two bodies and a table that lie inside an object. -/
def bodiesOk (size aoff asize xoff xsize loff nland : Nat) : Bool :=
  asize % 4 == 0 && xsize % 4 == 0 && aoff % 8 == 0 && xoff % 8 == 0 && aoff + asize <= size && xoff + xsize <= size &&
    loff + 8 * nland <= size && 1 <= nland && nland <= 4096

/-- The code of a portable object that meets Table 6.1, under its digest. -/
def parsePortable (o : Obj) (digest : Nat) : Option Code :=
  let v := o.bytes
  let w (off : Nat) : Nat := bytesAt v off 4
  let frame := w 0x08
  let nland := bytesAt v 0x0C 2
  let size := w 0x2C
  let ls := landingsAt v (w 0x20) nland
  let nimp := bytesAt v 0x24 2
  let ok :=
    w 0 == objMagic && bytesAt v 4 2 == 1 && bytesAt v 6 2 == 0 && frame % 16 == 0 && 16 <= frame && frame <= 0x100000 &&
    bytesAt v 0x0E 2 == 0 && bytesAt v 0x26 2 == 0 && bytesAt v 0x30 16 == 0 && 64 <= size && size <= 0x100000 &&
    nimp <= 4095 && w 0x28 + 32 * nimp <= size &&
    bodiesOk size (w 0x10) (w 0x14) (w 0x18) (w 0x1C) (w 0x20) nland && landingsOk ls (w 0x14) (w 0x1C)
  if ok then
    some { digest := digest, form := .portable, key := 0, frame := frame, landings := ls,
           aBody := halvesAt v (w 0x10) (w 0x14), xBody := halvesAt v (w 0x18) (w 0x1C) }
  else none

/-- A native translation's header fields that the checks read. -/
structure Native where
  model : Nat
  keyIx : Nat
  digest : Nat
  code : Option Code       -- none when its header or layout breaks Table 6.2
  deriving DecidableEq, Repr

/-- A native translation read as Table 6.2 lays it out; its code is signed with `key`. -/
def parseNative (o : Obj) (key : Nat) : Native :=
  let v := o.bytes
  let w (off : Nat) : Nat := bytesAt v off 4
  let keyIx := bytesAt v 0x0C 1
  let digest := bytesAt v 0x10 32
  let nland := bytesAt v 0x34 2
  let size := w 0x4C
  let ls := landingsAt v (w 0x48) nland
  let ok :=
    bytesAt v 4 2 == 1 && bytesAt v 6 2 == 0 && (keyIx <= 7 || keyIx == 0xFF) && bytesAt v 0x0D 3 == 0 &&
    bytesAt v 0x36 2 == 0 && bytesAt v 0x50 48 == 0 && size <= 0x100000 && 0x80 + 64 <= size && size == o.size &&
    bodiesOk size (w 0x38) (w 0x3C) (w 0x40) (w 0x44) (w 0x48) nland && landingsOk ls (w 0x3C) (w 0x44)
  { model := w 8, keyIx := keyIx, digest := digest
    code := if ok then
      some { digest := digest, form := .native keyIx, key := key, frame := w 0x30, landings := ls,
             aBody := halvesAt v (w 0x38) (w 0x3C), xBody := halvesAt v (w 0x40) (w 0x44) }
    else none }

def Obj.isNative (o : Obj) : Bool := bytesAt o.bytes 0 4 == nativeMagic

/-- The model id of this chip (R150). -/
def modelId : Nat := 0x00090001

/-- The largest function a code store can hold (R145). -/
def storeBytes : Nat := 0x8000

/-- How a form is judged: accepted, or rejected with a reason of Table 6.7. -/
abbrev Judged := Except Nat Code

/-- The six checks of a native translation, in order (R150). -/
def judgeNative (k : Ctl) (r : Requester) (o : Obj) : Judged :=
  let n := parseNative o 0
  if n.model != modelId then .error 1
  else
    match n.code with
    | none => .error 2
    | some c =>
      let key := if n.keyIx == 0xFF then some Config.verborKey else (k.trust.find? fun t => t.1 == (r.dom, n.keyIx)).map (·.2)
      match key with
      | none => .error 3
      | some key =>
        if !edVerify key (bytesAt o.bytes (o.size - 64) 64) (bytesLE (o.size - 64) o.bytes) then .error 4
        else if n.digest != r.entDigest then .error 5
        else if c.frame != r.entFrame then .error 6
        else .ok { c with key := key }

/-- The checks of a portable object (R151). -/
def judgePortable (r : Requester) (o : Obj) : Judged :=
  if sha256 o.size o.bytes != r.entDigest then .error 7
  else
    match parsePortable o r.entDigest with
    | none => .error 8
    | some c =>
      if c.frame != r.entFrame then .error 6
      else if bytesAt o.bytes 0x2C 4 != r.objSize then .error 8
      else .ok c

/-! ### The code log (R152) -/

/-- One rejection in the log of the requester's domain; a log that cannot be written loses it. -/
def logReject (r : Requester) (core reason stage pkg model : Nat) : M Unit := do
  match findAt (← thePkg).ctl.doms r.dom with
  | none => return
  | some d =>
    let base := dirBaseVa d.dirbase
    match ← sysRead base 64 with
    | .error _ => return
    | .ok hd =>
      let logVa := bytesAt hd 0x10 8
      let len := bytesAt hd 0x18 4
      let ix := bytesAt hd 0x20 8
      if bytesAt hd 0 4 != dirMagic || logVa % 32 != 0 || len < 16 || 65536 < len || 2 ^ len.log2 != len then return
      let e := Cause.codeReject.code + reason * 2 ^ 8 + stage * 2 ^ 16 + pkg % 1024 * 2 ^ 20 + model * 2 ^ 32 +
        r.entDigest % 2 ^ 64 * 2 ^ 64 + (core + r.dom * 2 ^ 16 + r.handle * 2 ^ 32) * 2 ^ 128 + (← deviceTime) * 2 ^ 192
      let ok ← sysWriteBy r.dom (logVa + 32 * (ix % len)) 32 e
      if ok then
        let _ ← sysWriteBy r.dom (base + 0x20) 8 ((ix + 1) % 2 ^ 64)

/-! ### Stages (R149) -/

/-- An offer of a stage: the object, the package that offers it, and whether it is offered as a native translation. -/
structure Offer where
  obj : Obj
  pkg : Nat
  native : Bool
  deriving DecidableEq, Repr

/-- An object of a cache or pool, in the form it holds. -/
def Obj.offered (o : Obj) (pkg : Nat) : Offer := { obj := o, pkg := pkg, native := o.isNative }

/-- The model id that a log entry gives for an offer (Table 6.7). -/
def Offer.model (o : Offer) : Nat := if o.native then bytesAt o.obj.bytes 8 4 else 0

/-- The neighbours of the partition whose core began a search. -/
def neighbours (core : Nat) : M (List Nat) := do
  let k := (← thePkg).ctl
  return ((k.partOf core).bind fun p => findAt k.parts p).elim [] (·.neigh)

/-- The place of a stage in the order of a search. -/
def stageRank (stage neighbour : Nat) : Nat := if stage == 3 then 3 + neighbour else if stage < 3 then stage else 16

/-- The bytes at OBJVA that stage 4 offers: as many as the header's SIZE names where it keeps its limits, and OBJSIZE of them
otherwise (R138, R151). -/
def objectAt (r : Requester) : M (Option Obj) := do
  match ← sysReadFor needRX r.dom r.objVa 64 with
  | .error _ => return none
  | .ok hd =>
    let size := bytesAt hd 0x2C 4
    let n := if 64 <= size && size <= 0x100000 then size else r.objSize
    match ← sysReadFor needRX r.dom r.objVa n with
    | .ok v => return some { digest := r.entDigest, size := n, bytes := v }
    | .error _ => return none

/-- What a stage offers a requester (Table 6.6), stage 4 the portable object only; none when a neighbour has not answered
and cannot. -/
def offersAt (q : Search) (r : Requester) : M (List Offer) := do
  let me := (← read).pkg
  let d ← get
  let x := d.pkg me
  match q.stage with
  | 1 => return (x.sched.dieCode.filter fun e => e.1 == q.die && e.2.digest == q.digest).map fun e => e.2.offered me
  | 2 => return (x.sched.pool.filter fun o => o.digest == q.digest).map fun o => o.offered me
  | 3 =>
    match (← neighbours q.core)[q.neighbour]? with
    | none => return []
    | some n =>
      let p := peerOf me n
      if x.fabric.unreachable.contains n then return []
      let y := (d.pkg p).sched
      return ((y.pool ++ y.dieCode.map (·.2)).filter fun o => o.digest == q.digest).map fun o => o.offered p
  | _ => return (← objectAt r).toList.map fun o => { obj := o, pkg := me, native := false }

/-- The exact form a resumption needs, or any. -/
def fitsNeed (r : Requester) (o : Offer) : Bool :=
  match r.need with
  | none => true
  | some .portable => !o.native
  | some (.native ix) => o.native && bytesAt o.obj.bytes 0x0C 1 == ix

/-- What the code logs have been told at a stage: the domain, the form, none for reason 10, and the reason. Each rejection is
written once to the log of each domain (R149). -/
abbrev Told := List (Nat × Option Offer × Nat)

/-- A rejection, logged where the requester's domain has not been told of it. -/
def tell (q : Search) (r : Requester) (told : Told) (o : Option Offer) (reason : Nat) : M Told := do
  if told.contains (r.dom, o, reason) then return told
  let me := (← read).pkg
  logReject r q.core reason q.stage ((o.map (·.pkg)).getD me) ((o.map Offer.model).getD 0)
  return told ++ [(r.dom, o, reason)]

/-- The forms of a stage judged for a requester in turn: native ones where its entry permits them, then the portable
one. The accepted form with its offer; each rejection is logged. -/
def judgeAll (q : Search) (r : Requester) : List Offer → Told → M (Option (Code × Offer) × Told)
  | [], told => return (none, told)
  | o :: rest, told => do
    let k := (← thePkg).ctl
    match if o.native then judgeNative k r o.obj else judgePortable r o.obj with
    | .ok c => return (some (c, o), told)
    | .error n => judgeAll q r rest (← tell q r told (some o) n)

def orderOffers (r : Requester) (os : List Offer) : List Offer :=
  let fit := os.filter (fitsNeed r)
  (if r.entNat then fit.filter (·.native) else []) ++ fit.filter fun o => !o.native

/-- The die code cache's size. -/
def dieCodeBytes : Nat := 2 ^ 24

/-- The newest objects that fit in `n` bytes. -/
def fitObjs (die : Nat) : Nat → List (Nat × Obj) → List (Nat × Obj)
  | _, [] => []
  | n, e :: es =>
    if e.1 != die then e :: fitObjs die n es
    else if e.2.size <= n then e :: fitObjs die (n - e.2.size) es
    else fitObjs die 0 es

/-- An accepted form enters the die code cache, and the package's pool when it came from afar. -/
def keepForm (die stage : Nat) (o : Obj) : M Unit :=
  modSched fun x => { x with
    dieCode := if x.dieCode.contains (die, o) then x.dieCode else fitObjs die dieCodeBytes ((die, o) :: x.dieCode)
    pool := if 3 <= stage && !x.pool.contains o then x.pool ++ [o] else x.pool }

/-- A requester judged at a search's stage. -/
def judgeFor (q : Search) (r : Requester) (told : Told) : M (Requester × Told) := do
  let rank := stageRank q.stage q.neighbour
  if r.found.isSome || r.missed || rank <= r.seen then return (r, told)
  let os ← offersAt q r
  match ← judgeAll q r (orderOffers r os) told with
  | (some (c, o), told) =>
    if storeBytes < c.occupancy then return ({ r with seen := rank, missed := true }, ← tell q r told (some o) 9)
    keepForm q.die q.stage o.obj
    return ({ r with seen := rank, found := some c }, told)
  | (none, told) =>
    if q.stage == 4 then return ({ r with seen := rank, missed := true }, ← tell q r told none 10)
    return ({ r with seen := rank }, told)

/-- The requesters judged one after another. -/
def judgeEach (q : Search) : List Requester → Told → M (List Requester)
  | [], _ => return []
  | r :: rest, told => do
    let (r', told') ← judgeFor q r told
    return r' :: (← judgeEach q rest told')

/-- The end of a search for a requester that waits off its core (R149, R153): a strand whose code is found is READY; one
whose code cannot be had meets ILLEGAL when it resumes, or is retired when it is new. One that waits on its core is told
by CODE_INSTALL. DEDUCED (log 60): a strand that has not missed a call, as after code poison at a landing (R148), is retired like
a new one. -/
def settleRequester (r : Requester) : M Bool := do
  match ← findStrand r.strand with
  | none => return false
  | some s =>
    if s.state.ended then return false
    if s.state != .suspCode || s.onCore.isSome then return true
    if r.found.isSome then
      setStrand s.va fun o => { o with state := .ready }
      enqueue s.va
      return true
    if r.missed then
      if s.miss.isNone then endAway s Cause.illegal.code 0 (← strandTorn s)
      else
        setStrand s.va fun o => { o with state := .ready, illegal := true }
        enqueue s.va
      return false
    return true

/-- The next stage of a search. -/
def Search.advance (q : Search) (n : Nat) : Search :=
  match q.stage with
  | 1 => { q with stage := 2 }
  | 2 => { q with stage := if n == 0 then 4 else 3, neighbour := 0 }
  | 3 => if q.neighbour + 1 < n then { q with neighbour := q.neighbour + 1 } else { q with stage := 4, neighbour := 0 }
  | _ => q

/-- Searches of a die and digest changed; one that nobody waits for is dropped. -/
def setSearch (die digest : Nat) (f : Search → Search) : M Unit :=
  modSched fun x =>
    let qs := x.searches.map fun q => if q.die == die && q.digest == digest then f q else q
    { x with searches := qs.filter fun q => !q.reqs.isEmpty }

/-- The search in which a strand or a joint unit of the core waits. -/
def coreSearch : M (Option Search) := do
  let me := (← read).core
  return (← thePkg).sched.searches.find? fun q => q.die == dieOf me && q.reqs.any fun r => r.core == me && r.found.isNone && !r.missed

/-- CODE_FETCH_STAGE: the next stage of the search that the core waits in yields its forms, which are judged for
each requester, and installed or passed on. -/
def codeFetchStage : M Unit := do
  match ← coreSearch with
  | none => return
  | some q =>
    let rs ← judgeEach q q.reqs []
    let keep ← rs.mapM settleRequester
    let left := ((rs.zip keep).filter (·.2)).map (·.1)
    let n := (← neighbours q.core).length
    setSearch q.die q.digest fun _ => { q.advance n with reqs := left }

def execCodeFetchStage (s : State) : Host.Outcome State Fault Refusal := event codeFetchStage s

/-- NEIGHBOUR_TIMEOUT: the neighbour that a search asks has not answered within 20 µs, and is skipped. -/
def neighbourTimeout : M Unit := do
  match ← coreSearch with
  | none => return
  | some q =>
    if q.stage != 3 then return
    let n := (← neighbours q.core).length
    let r := stageRank q.stage q.neighbour
    setSearch q.die q.digest fun _ => { q.advance n with reqs := q.reqs.map fun x => { x with seen := Nat.max x.seen r } }

def execNeighbourTimeout (s : State) : Host.Outcome State Fault Refusal := event neighbourTimeout s

/-! ### Installation (R147) -/

/-- The functions a core may hold (Table 6.5). -/
def Core.limit (c : Core) : Nat := if c.cslimit == 0 then 16 else c.cslimit.toNat

/-- The least recently entered functions leave until `n` more of `bytes` fit. -/
def evictFor (limit bytes : Nat) : List Code → List Code
  | [] => []
  | k :: ks =>
    if ks.length + 2 <= limit && ((k :: ks).foldl (fun n c => n + c.occupancy) 0) + bytes <= storeBytes then k :: ks
    else evictFor limit bytes ks

/-- A function is installed: it becomes the top. A native form under another key is another form (R146). -/
def Core.install (c : Core) (k : Code) : Core :=
  let rest := c.store.filter fun x => !(x.digest == k.digest && x.form == k.form && x.key == k.key)
  { c with store := evictFor c.limit k.occupancy rest ++ [k] }

/-- CODE_INSTALL: the code that a strand on this core waits for has been fetched, and is installed; a strand that waits in place
is READY, with code or without (R332), and one that is being restored stays PREEMPTED (R182). -/
def codeInstall : M Unit := do
  let me := (← read).core
  let x ← thePkg
  let c ← theCore
  match c.mode with
  | .idle =>
    match x.sched.strands.find? fun s => s.onCore == some me && s.state == .running with
    | none => return
    | some s =>
      match (x.sched.endedFor me s.va).bind (·.found) with
      | some k =>
        modCore fun c => c.install k
        dropRequests s.va
      | none => return
  | .fetching _ _ =>
    let va := c.strand.toNat
    match x.sched.endedFor me va, ← findStrand va with
    | some r, some s =>
      if s.savedAt.isSome then
        dropRequests va
        match r.found with
        | some k =>
          modCore fun c => c.install k
          modCore fun c => { c with cur := c.cur.map fun u => { u with key := k.key }, mode := .restored }
        | none =>
          modCore fun c => { c with mode := .restored }
          modStrand va fun o => { o with illegal := true }
      else if s.state == .suspCode then
        match r.found with
        | some k => modCore fun c => c.install k
        | none => pure ()
        setStrand va fun o => { o with state := .ready }
    | _, _ => return
  | _ => return

def execCodeInstall (s : State) : Host.Outcome State Fault Refusal := event codeInstall s

/-! ### Code poison (R148) -/

/-- The poisoned copy in the core's code store is discarded. A stream that runs it meets code poison; one that runs it later
meets it then. -/
def storePoisoned (k : Code) : M Unit := do
  let c ← theCore
  modCore fun c => { c with store := c.store.filter fun x => x != k }
  match c.mode, c.cur with
  | .running, some u => if u.names k then codeLost u
  | _, _ => return

/-- CODE_POISON: an uncorrectable error in code: place 0 the core's code store, 1 its die's cache, 2 the package's pool;
`n` counts the copies there. -/
def codePoison (place n : Nat) : M Unit := do
  match place with
  | 0 =>
    match (← theCore).store[n]? with
    | some k => storePoisoned k
    | none => return
  | 1 =>
    let die := dieOf (← read).core
    match ((← thePkg).sched.dieCode.filter fun e => e.1 == die)[n]? with
    | some e => modSched fun x => { x with dieCode := x.dieCode.erase e }
    | none => return
  | _ =>
    match (← thePkg).sched.pool[n]? with
    | some o => modSched fun x => { x with pool := x.pool.erase o }
    | none => return

def execCodePoison (place n : Nat) (s : State) : Host.Outcome State Fault Refusal := event (codePoison place n) s

end Sys2Proof.Machine
end

