-- ==== Sys2Proof/Machine/Launches.lean ====
section
/-!
DEFINITION. Sys2Proof/Machine/Launches.lean: launches: their validation and acceptance, plug-in advice, the creation of
strands, graphs, lattices and coverage bands, and completion (spec 18, R329 to R359; spec 20, R378, R379; spec 22, R390,
R393; spec 01, R24 to R29; spec 24, R414).
-/

namespace Sys2Proof.Machine

/-! ### Validation (R329, R330) -/

/-- The control core that serves a partition (R391). -/
def servingCore (part : Nat) : Nat := part % 32

/-- The firmware of a partition's serving core runs, and the core is changed. -/
def modServing (part : Nat) (f : CtlCore → CtlCore) : M Unit :=
  modCtl fun k => { k with cores := k.cores.modify (servingCore part) fun c => f (c.ran (servingCore part)) }

/-- The next entry of a ring that the control core validates, taken from those read (R393): none while the context is
barred or an event of it waits. The scheduler firmware runs in S mode (R390). -/
def nextEntry (ctx ring : Nat) (want : Nat → Bool) : M (Option (HostCtx × Fetched)) := do
  match ← ctxAt ctx with
  | none => return none
  | some x =>
    if x.barred || !x.evWaiting.isEmpty then return none
    match x.fetched.find? fun f => f.ring == ring with
    | none => return none
    | some f =>
      if want (bytesAt f.bytes.toNat 0 1) then
        modServing x.part fun k => { k with mode := .s }
        modCtx ctx fun y => { y with fetched := y.fetched.erase f }
        return some (x, f)
      else return none

/-- A directory entry of a domain's directory, read with its rights; none when the handle is invalid or cannot be read
(R143). -/
def dirEntryOf (dom h : Nat) : M (Option DirEnt) := do
  match findAt (← thePkg).ctl.doms dom with
  | none => return none
  | some d =>
    let rd (va n : Nat) : M Nat := do
      match ← sysReadAs dom va n with
      | .ok v => return v
      | .error c => raise c 0
    match ← attempt (dirLookup rd (dirBaseVa d.dirbase) h) with
    | .ok e => return e
    | .error .block => block
    | .error (.halt f) => throw (.halt f)
    | .error _ => return none

/-- Dwords of a command that its KIND leaves unused (Table 18.1). -/
def unusedDwords : Nat → List Nat
  | 0 => [7, 8, 9, 10]
  | 1 => [1, 4, 5, 8, 9, 10]
  | 2 => [3, 10]
  | _ => [8, 9]

/-- Reason 2: a reserved or unused field is not zero. -/
def reservedBad (b kind : Nat) : Bool :=
  let w (k : Nat) : Nat := bytesAt b (8 * k) 8
  w 0 / 2 ^ 30 != 0 || w 1 / 2 ^ 20 != 0 || w 7 / 2 ^ 32 != 0 ||
    ((unusedDwords kind ++ [11, 12, 13, 14, 15]).any fun k => w k != 0)

/-- Reason 5: a field is misaligned. -/
def alignBad (b kind : Nat) : Bool :=
  let w (k : Nat) : Nat := bytesAt b (8 * k) 8
  w 2 % 64 != 0 || (kind == 1 && w 3 % 64 != 0) || w 9 % 64 != 0 || w 10 % 64 != 0 || w 6 % 16 != 0 || w 7 % 16 != 0

/-- A graph's nodes as read: the dwords of each; none where the header breaks R346. -/
def readGraph (dom va : Nat) : M (Option (List (List Nat))) := do
  match ← sysReadAs dom va 64 with
  | .error _ => return none
  | .ok h =>
    let n := natBits h 47 32
    if h != 0x5A475231 + n * 2 ^ 32 || n == 0 || 4096 < n then return none
    match ← sysReadAs dom (va + 64) (64 * n) with
    | .error _ => return none
    | .ok v => return some ((List.range n).map fun i => (List.range 8).map fun k => bytesAt v (64 * i + 8 * k) 8)

/-- The lattice extents of a command. -/
def extents (b : Nat) : Nat × Nat × Nat := (bytesAt b 0x40 2 + 1, bytesAt b 0x42 2 + 1, bytesAt b 0x44 2 + 1)

/-- The partition's interval holds a whole quad. -/
def PartRec.hasQuad (p : PartRec) : Bool := 4 * ((p.base + 3) / 4) + 4 <= p.base + p.len

/-- Reason 7: QUAD or FUSE broken. -/
def quadBad (b kind : Nat) (part : Option PartRec) : Bool :=
  let quad := natBits (bytesAt b 0 8) 27 27 == 1
  let fuse := natBits (bytesAt b 0 8) 28 28 == 1
  let e := extents b
  (fuse && !quad) || (quad && (kind != 2 || bytesAt b 0x48 8 != 0 || e.1 * e.2.1 * e.2.2 % 4 != 0 ||
    !((part.map PartRec.hasQuad).getD false)))

/-- A coverage descriptor with its table, read with the launch's rights (R330, R353). -/
def readCoverage (dom b : Nat) : M (Option Coverage) := do
  match ← sysReadAs dom (bytesAt b 0x48 8) 192 with
  | .error _ => return none
  | .ok v =>
    let w (k : Nat) : Nat := bytesAt v (8 * k) 8
    let tb ←
      if natBits (w 0) 14 12 != 5 then pure (some Table.empty)
      else
        match ← sysReadAs dom (w 4) 1024 with
        | .error _ => pure none
        | .ok t => pure (some (Vector.ofFn fun i : Fin 256 => BitVec.ofNat 32 (bytesAt t (4 * i.val) 4)))
    return tb.bind fun tb => parseCoverage w tb (extents b).2.2 (bytesAt b 0x46 2)

/-- The unfenced cores of a partition's interval. -/
def Package.usableCores (x : Package) (p : PartRec) : Nat :=
  ((List.range p.len).filter fun k => !x.service.quads.contains (quadOf (p.base + k))).length

/-- An island entry that could be placed (R378). -/
def readIsland (v handle : Nat) : M (Option IslandSpec) := do
  let me := (← read).pkg
  let w0 := bytesAt v 0 8
  let w1 := bytesAt v 8 8
  let num := natBits w0 9 0
  let p := peerOf me num
  let x ← pkgAt p
  let i : IslandSpec := { pkg := p, dom := natBits w0 36 24, part := natBits w0 42 37, ncore := natBits w0 23 10 + 1,
                          frameBase := BitVec.ofNat 64 w1 }
  let far := (← thePkg).fabric
  let unreachable := far.unreachable.contains num || (p != me && (lookupD [] far.routes num).isEmpty)
  let bound := ((findAt x.ctl.doms i.dom).bind fun d => (findAt x.ctl.ctxs d.ctx).map (·.part)) == some i.part
  match findAt x.ctl.parts i.part with
  | none => return none
  | some r =>
    if w0 / 2 ^ 43 != 0 || w1 % 16 != 0 || unreachable || !bound || x.usableCores r < i.ncore then return none
    let ent ← atCore p 0 .A (dirEntryOf i.dom handle)
    return ent.map fun _ => i

/-- An archipelago descriptor read with the launch's rights (R330, R378). -/
def readArchipelago (dom va handle : Nat) : M (Option (List IslandSpec)) := do
  match ← sysReadAs dom va 64 with
  | .error _ => return none
  | .ok h =>
    let n := natBits h 41 32
    if h != 0x5A415231 + n * 2 ^ 32 then return none
    match ← sysReadAs dom (va + 64) (16 * (n + 1)) with
    | .error _ => return none
    | .ok v =>
      let is_ ← (List.range (n + 1)).mapM fun k => readIsland (bytesAt v (16 * k) 16) handle
      return is_.foldr (fun i acc => match i, acc with
        | some i, some l => some (i :: l)
        | _, _ => none) (some [])

/-- The launch of a command before its id, its graph and its walk. -/
def launchOf (b : Nat) (ctx ring part : Nat) : Launch :=
  let w (k : Nat) : Nat := bytesAt b (8 * k) 8
  let word (k : Nat) : Word := BitVec.ofNat 64 (w k)
  { id := 0, ctx := ctx, ring := ring, kind := natBits (w 0) 7 0, dom := natBits (w 0) 26 14, prio := natBits (w 0) 13 8,
    part := part, handle := natBits (w 1) 19 0, complVa := w 2, arg0 := word 3, arg1 := word 4, indecl := word 5,
    frameBase := word 6, fstride := natBits (w 7) 31 0, quad := natBits (w 0) 27 27 == 1, fuse := natBits (w 0) 28 28 == 1,
    graph := none, walk := none, tree := [], extra := 0, maxErr := 0, torn := false,
    nodeRuns := [], toCreate := [], arc := none }

/-- The walk of a lattice at its start. -/
def walkOf (b : Nat) (cov : Option Coverage) : Walk :=
  let e := extents b
  let r := (cov.map (·.start)).getD 0
  { nx := e.1, ny := e.2.1, nz := e.2.2, bandh := bytesAt b 0x46 2, next := 0, cov := cov, rung := r, last := 0,
    bandOpen := false, ranAt := [], hist := 0, bands := 0 }

/-- The handles of a command are valid in its domain's directory (reason 6); of a graph, those of the strand nodes that
can be read. -/
def handlesOk (dom kind handle : Nat) (raw : Option (List (List Nat))) : M Bool := do
  if kind != 1 then return (← dirEntryOf dom handle).isSome
  match raw with
  | none => return true
  | some ns =>
    let hs := (ns.filter fun ws => natBits (ws.getD 0 0) 2 0 == 0).map fun ws => natBits (ws.getD 0 0) 35 16
    hs.foldlM (fun ok h => if ok then do return (← dirEntryOf dom h).isSome else return false) true

/-- The nodes of a graph when they are all well formed. -/
def nodesOf (raw : List (List Nat)) : Option (List GNode) :=
  (raw.map parseNode).foldr (fun n acc => match n, acc with
    | some n, some l => some (n :: l)
    | _, _ => none) (some [])

/-- Table 18.2 in its order, then reason 11: the launch accepted, or the first failing check's reason. -/
def validateLaunch (ctx ring part b : Nat) : M (Except Nat Accepted) := do
  let k := (← thePkg).ctl
  let l := launchOf b ctx ring part
  let ok (l : Launch) (is_ : List IslandSpec) : Except Nat Accepted :=
    .ok { launch := l, islands := is_, bytes := BitVec.ofNat 1024 b, record := natBits (bytesAt b 0 8) 29 29 == 1
          index := 0, rack := none }
  if 3 < l.kind then return .error 1
  if reservedBad b l.kind then return .error 2
  if 47 < l.prio || l.prio < k.capOf l.dom then return .error 3
  if (← partOfDom l.dom) != some part then return .error 4
  if alignBad b l.kind then return .error 5
  let raw ← if l.kind == 1 then readGraph l.dom l.arg0.toNat else pure none
  if !(← handlesOk l.dom l.kind l.handle raw) then return .error 6
  if quadBad b l.kind (findAt k.parts part) then return .error 7
  let stopped := ((findAt k.doms l.dom).map (·.stopped)).getD false
  match l.kind with
  | 0 => return if stopped then .error 11 else ok { l with toCreate := [(0, 0)] } []
  | 1 =>
    match raw.bind nodesOf with
    | none => return .error 8
    | some ns =>
      if !graphOk ns then return .error 8
      return if stopped then .error 11 else ok { l with graph := some (ns, gStart ns) } []
  | 2 =>
    if bytesAt b 0x48 8 == 0 then return if stopped then .error 11 else ok { l with walk := some (walkOf b none) } []
    match ← readCoverage l.dom b with
    | none => return .error 9
    | some c =>
      return if stopped then .error 11 else ok { l with walk := some (walkOf b (some c)), extra := statusCover } []
  | _ =>
    match ← readArchipelago l.dom (bytesAt b 0x50 8) l.handle with
    | none => return .error 10
    | some is_ =>
      if stopped then return .error 11
      return ok { l with toCreate := is_.zipIdx.flatMap fun p => (List.range p.1.ncore).map fun c => (p.2, c) } is_

/-! ### Creation of strands (R331, R346, R352, R355, R379) -/

/-- Points of a lattice. -/
def Walk.total (w : Walk) : Nat := w.nx * w.ny * w.nz

/-- ARG0 of a point (R352). -/
def Walk.arg0 (w : Walk) (n : Nat) : Word :=
  let x := n % w.nx
  let y := n / w.nx % w.ny
  let z := n / (w.nx * w.ny)
  BitVec.ofNat 64 (x + y * 2 ^ 16 + z * 2 ^ 32 + (if w.bandh == 0 then 0 else y / w.bandh) * 2 ^ 48)

/-- A strand of a launch, of a domain on a package. -/
def strandFor (l : Launch) (lpkg dom va handle : Nat) : M Strand := do
  let x ← thePkg
  let pin := match (← pkgAt lpkg).service.replay with
    | some r => r.launch == l.id
    | none => false
  return { blankStrand va handle dom l.prio l.id with
    lpkg := lpkg, compl := BitVec.ofNat 64 l.complVa, prot := (x.ctl.keyOf dom).isSome, replayPin := pin }

/-- FRAMEBASE − FSTRIDE·n. -/
def frameFor (base : Word) (stride n : Nat) : Word := base - BitVec.ofNat 64 (stride * n)

/-- What a launch creates next. -/
inductive Due where
  | single
  | node (i : Nat)
  | point (n : Nat) (probe : Bool)
  | member (island icore : Nat)
  deriving DecidableEq, Repr

def Launch.due (l : Launch) : Option Due :=
  if l.torn then none
  else match l.kind, l.graph, l.walk with
  | 1, some (_, g), _ => (sortKey (fun n : Nat => n) g.toStart).head?.map Due.node
  | 2, _, some w =>
    if w.cov.isSome then l.toCreate.head?.map fun p => .point p.1 (p.2 == 1)
    else if w.next < w.total then some (.point w.next false) else none
  | 3, _, _ => l.toCreate.head?.map fun p => .member p.1 p.2
  | _, _, _ => l.toCreate.head?.map fun _ => .single

/-- The launch once what was due is created. -/
def Launch.created (l : Launch) (d : Due) : Launch :=
  match d with
  | .node i => { l with
      graph := l.graph.map fun g => (g.1, { g.2 with toStart := g.2.toStart.erase i })
      nodeRuns := setAt l.nodeRuns i (lookupD 0 l.nodeRuns i + 1) }
  | .point n _ =>
    if (l.walk.bind (·.cov)).isSome then { l with toCreate := l.toCreate.drop 1 }
    else { l with walk := l.walk.map fun w => { w with next := n + 1 } }
  | _ => { l with toCreate := l.toCreate.drop 1 }

/-- ARCSTAT of a member that has not joined (Table 20.7). -/
def arcStart (a : Archipelago) (island icore : Nat) : Word :=
  let n := ((a.islands[island]?).map fun i => i.cores.length).getD 1
  BitVec.ofNat 64 (island + (a.islands.length - 1) * 2 ^ 10 + icore * 2 ^ 20 + (n - 1) * 2 ^ 34 + 2 ^ 48)

/-- A member of an archipelago is created on its island's package. -/
def createMember (l : Launch) (lpkg : Nat) (a : Archipelago) (i c : Nat) : M Bool := do
  match a.islands[i]? with
  | none => return true
  | some isl =>
    atCore isl.pkg 0 .A (do
      match ← takeRecord isl.dom with
      | none => return false
      | some va =>
        let s ← strandFor l lpkg isl.dom va l.handle
        modArc a.id fun a =>
          match a.islands[i]? with
          | some isl => { a with islands := a.islands.set i { isl with strands := isl.strands ++ [va] } }
          | none => a
        createStrand { s with
          gang := true, island := i, arcstat := arcStart a i c, arg0 := l.arg0, arg1 := l.arg1, indecl := l.indecl
          frame := frameFor isl.frameBase l.fstride c, path := [i, c] }
        return true)

/-- What is due is created, if its pool has a record. -/
def createDue (l : Launch) (d : Due) : M Bool := do
  let p := (← read).pkg
  let withRecord (h : Nat) (f : Strand → Strand) : M Bool := do
    match ← takeRecord l.dom with
    | none => return false
    | some va =>
      createStrand (f (← strandFor l p l.dom va h))
      return true
  match d with
  | .single =>
    withRecord l.handle fun s => { s with arg0 := l.arg0, arg1 := l.arg1, indecl := l.indecl, frame := l.frameBase }
  | .node i =>
    match l.graph.bind fun g => g.1[i]? with
    | none => return true
    | some n =>
      withRecord n.handle fun s => { s with
        arg0 := BitVec.ofNat 64 n.w08, arg1 := BitVec.ofNat 64 n.w10, indecl := BitVec.ofNat 64 n.w18
        frame := frameFor l.frameBase l.fstride i, node := some i, path := [i, lookupD 0 l.nodeRuns i] }
  | .point n probe =>
    withRecord l.handle fun s => { s with
      arg0 := (l.walk.map fun w => w.arg0 n).getD 0, arg1 := l.arg1, indecl := l.indecl
      frame := frameFor l.frameBase l.fstride n, point := some n, probe := probe, path := [n]
      gangId := if l.quad then some (n / 4) else none, member := n % 4 }
  | .member i c =>
    match (← get).arcs.find? fun a => a.pkg == p && a.launch == l.id with
    | some a => createMember l p a i c
    | none => return true

/-- A launch's strands are created in order while records are free; `n` bounds how many. -/
def pump (id : Nat) : Nat → M Unit
  | 0 => return
  | n + 1 => do
    match ← findLaunch id with
    | none => return
    | some l =>
      match l.due with
      | none => return
      | some d =>
        if ← createDue l d then
          setLaunch id fun l => l.created d
          pump id n

/-- At most every record of every pool is taken. -/
def pumpLaunch (id : Nat) : M Unit := do
  let d ← get
  pump id (d.pkgs.foldl (fun n k => k.2.ctl.doms.foldl (fun n e => n + e.2.pool.n) n) 1)

/-! ### Recording (R414) -/

/-- A digest of a range that the domain can read. -/
def recordRange (id dom va n : Nat) : M Unit := do
  match ← sysReadAs dom va n with
  | .ok v => let _ ← recordItem (← read).pkg id (.digest va n (sha256 n v))
  | .error _ => return

/-- The strands a launch will have, as far as the digests need them. -/
def launchInputs (l : Launch) : List Strand :=
  let s : Strand := { blankStrand 0 l.handle l.dom l.prio 0 with arg0 := l.arg0, arg1 := l.arg1, indecl := l.indecl }
  match l.graph, l.walk with
  | some (ns, _), _ =>
    (ns.filter fun n => n.kind == 0).map fun n =>
      { s with arg0 := BitVec.ofNat 64 n.w08, arg1 := BitVec.ofNat 64 n.w10, indecl := BitVec.ofNat 64 n.w18 }
  | _, some w => (List.range w.total).map fun n => { s with arg0 := w.arg0 n, point := some n }
  | _, _ => [s]

/-- The digests of every input source range and of each page named by the ARG words. -/
def recordInputs (l : Launch) : M Unit :=
  (launchInputs l).forM fun s => do
    if s.indecl != 0 then
      match ← readDecls s 4 0 with
      | .ok ds => ds.forM fun d => do
        let h := d.from_
        if 0 <= h.1 then recordRange l.id l.dom h.1.toNat (h.2 - h.1).toNat
      | .error _ => pure ()
    recordRange l.id l.dom (s.arg0.toNat / 4096 * 4096) 4096
    recordRange l.id l.dom (s.arg1.toNat / 4096 * 4096) 4096

/-- A launch with RECORD in a partition with a record area starts a record with its command. -/
def startRecord (a : Accepted) (id : Nat) : M Unit := do
  match findAt (← thePkg).ctl.parts a.launch.part with
  | none => return
  | some p =>
    if !a.record || p.recPages == 0 then return
    let r : Record := { part := a.launch.part, ctx := a.launch.ctx, ring := a.launch.ring, launch := id, dom := a.launch.dom,
                        items := [], open_ := true }
    modService fun s => { s with records := s.records ++ [r] }
    let _ ← recordItem (← read).pkg id (.command a.bytes)
    recordInputs { a.launch with id := id }

/-! ### Acceptance (R24, R390) -/

/-- A completion record that was written survives while its launch id and a state stand in memory (R20). -/
def recordSurvives (id va : Nat) : M Bool := do
  match ← sysRead va 8 with
  | .ok v => return v % 2 ^ 32 == id && v / 2 ^ 32 != 0
  | .error _ => return false

/-- Launch ids in use (R20). -/
def usedLaunches : M (List Nat) := do
  let told ← (← thePkg).sched.written.filterM fun r => recordSurvives r.1 r.2
  let x ← thePkg
  let deferred := x.home.defRings.flatMap fun r => r.2.open_.map fun e => e.2.launch
  let kept := x.home.overflow.flatMap fun o => o.2.map (·.launch)
  return x.sched.launches.map (·.id) ++ x.sched.strands.map (·.launch) ++ deferred ++ kept ++ told.map (·.1)

/-- The first number at or after `n` that is not in use; there are at most `fuel` in use. -/
def skipUsed (used : List Nat) : Nat → Nat → Nat
  | 0, n => n
  | f + 1, n => if used.contains n then skipUsed used f ((n + 1) % 2 ^ 32) else n

/-- The id that the next launch takes (R20). -/
def comingId : M Nat := do
  let used ← usedLaunches
  return skipUsed used (used.length + 1) (← thePkg).ctl.nextLaunch

/-- An accepted launch takes its id, and its strands are created as records allow. -/
def acceptLaunch (a : Accepted) : M Nat := do
  let me := (← read).pkg
  let id ← comingId
  modCtl fun k => { k with nextLaunch := (id + 1) % 2 ^ 32 }
  modSched fun x => { x with launches := x.launches ++ [{ a.launch with id := id }] }
  if !a.islands.isEmpty then
    let aid := (← get).nextArc
    let isl (i : IslandSpec) : Island :=
      { pkg := i.pkg, dom := i.dom, part := i.part, frameBase := i.frameBase, cores := List.replicate i.ncore 0, strands := [],
        held := [], departed := false }
    modify fun d => { d with
      nextArc := aid + 1
      arcs := d.arcs ++ [{ id := aid, pkg := me, launch := id, islands := a.islands.map isl,
                           barriers := Vector.replicate 4 PodBarrier.reset }] }
    setLaunch id fun l => { l with arc := some aid }
  startRecord a id
  pumpLaunch id
  return id

/-- The refusal of a ring's command: one more guilt, and an event of KIND 1 (R26, R330, R394). -/
def refuse (ctx : Nat) (f : Fetched) (reason : Nat) : M Unit :=
  guiltEvent ctx { blankEvent 1 with code := reason, ring := f.ring, index := f.index }

/-! ### Residency reports (R363) -/

/-- The handle whose residence a report tells: of a graph, node 0's. -/
def reportHandle (l : Launch) : M Nat := do
  if l.kind != 1 then return l.handle
  match l.graph with
  | some (ns, _) => return (ns.head?.map (·.handle)).getD 0
  | none =>
    let raw ← readGraph l.dom l.arg0.toNat
    return (raw.bind (·.head?)).elim 0 fun ws => natBits (ws.getD 0 0) 35 16

/-- A residency report's bytes (Table 18.14). -/
def reportBytes (seq launch : Nat) (reason : Option Nat) (dies pool idle ready : Nat) : Nat :=
  0x5A525231 + seq * 2 ^ 64 + (launch + (if reason.isSome then 1 else 0) * 2 ^ 32 + reason.getD 0 * 2 ^ 40) * 2 ^ 128 +
    (dies + pool * 2 ^ 8) * 2 ^ 192 + idle * 2 ^ 256 + Nat.min ready (2 ^ 32 - 1) * 2 ^ 320

/-- Idle cores of a partition. -/
def idleCores (part : Nat) : M Nat := do
  let x ← thePkg
  let free (c : Nat) : Bool := (x.core c).mode == .idle && !x.service.quads.contains (quadOf c) && x.sched.strands.all fun s => s.onCore != some c
  match findAt x.ctl.parts part with
  | some p => return ((List.range p.len).filter fun k => free (p.base + k)).length
  | none => return 0

/-- Which dies hold a handle's function, and whether the pool does. -/
def residence (dom h : Nat) : M (Nat × Nat) := do
  let x ← thePkg
  match ← dirEntryOf dom h with
  | none => return (0, 0)
  | some e =>
    let dies := ((x.sched.dieCode.filter fun c => c.2.digest == e.digest).map (·.1)).eraseDups
    return (dies.foldl (fun n d => n + 2 ^ d) 0, if x.sched.pool.any fun o => o.digest == e.digest then 1 else 0)

/-- The answer to a rack packet, as things stand now: what accepts the launch, when it is accepted, gives its id. -/
def rackReport (l : Launch) (sender seq : Nat) (reason : Option Nat) (accept : M Nat) : M Unit := do
  let idle ← idleCores l.part
  let ready ← readyItems l.part
  let r ← residence l.dom (← reportHandle l)
  let id ← accept
  let bytes := reportBytes seq id reason r.1 r.2 idle ready
  modCtl fun k => { k with rackReports := k.rackReports ++ [{ sender := sender, bytes := bytes }] }

/-- A validated launch is accepted; a rack packet's sender hears of it. -/
def proceed (a : Accepted) : M Unit := do
  match a.rack with
  | none => let _ ← acceptLaunch a
  | some (sender, seq) => rackReport a.launch sender seq none (acceptLaunch a)

/-- The refusal of a rack packet: one more guilt, and a report (R362, R363). -/
def refuseRack (l : Launch) (sender seq reason : Nat) : M Unit := do
  addGuilt l.ctx
  rackReport l sender seq (some reason) (return 0)

/-! ### Policy plug-ins (R390) -/

/-- The PMP entries of a context's plug-in: its rings, which it may read, and its own 64 KiB. -/
def HostCtx.pmp (ctx : Nat) (x : HostCtx) : List Pmp :=
  [{ base := x.ringVa, bytes := x.rings.length * 128 * 2 ^ x.logn, read := true, write := false },
   { base := x.evVa, bytes := 32 * 2 ^ x.loge, read := true, write := false },
   { base := (Config.pluginRegion ctx).toNat, bytes := 0x10000, read := true, write := true }]

/-- An access that the PMP entries of a core grant it in its mode. -/
def CtlCore.grants (k : CtlCore) (write : Bool) (a : Nat) : Bool :=
  k.mode == .m || (a < 2 ^ 64 && k.pmp.any fun e => e.base <= a && a < e.base + e.bytes && (if write then e.write else e.read))

/-- A context's plug-in runs in U mode on the serving core, and advises `prio`. Above 63, `prio` − 64 tells an access
instead, an address twice over and one more for a write, which stores a free byte; an address past 64 bits stands for an
environment call that does not exist. Whether the plug-in is still there: a PMP fault or such a call ends it, with one more
guilt. -/
def plugRun (ctx : Nat) (x : HostCtx) (prio : Nat) : M Bool := do
  let k : CtlCore := { CtlCore.reset with mode := .u, pmp := x.pmp ctx }
  let core := servingCore x.part
  let n := ((← thePkg).ctl.cores.getD core CtlCore.reset).runs
  modServing x.part fun c => { c with mode := .s, pmp := k.pmp }
  if prio < 64 then return true
  let at_ := (prio - 64) / 2
  if k.grants (prio % 2 == 1) at_ then
    if prio % 2 == 1 then
      let off := at_ - (Config.pluginRegion ctx).toNat
      modCtx ctx fun y => { y with pluginMem := y.pluginMem.write off 1 (Config.pluginByte core n off).toNat }
    return true
  modCtx ctx fun y => { y with plugin := false }
  addGuilt ctx
  return false

/-- A launch that its context's plug-in has raised (R390): a PRIO numerically above, up to 47. -/
def Accepted.raised (a : Accepted) (prio : Nat) : Accepted :=
  if a.launch.prio < prio && prio <= 47 then { a with launch := { a.launch with prio := prio } } else a

/-- What a plug-in does with a validated launch (R390): `advice` 0 lets it proceed and 1 holds it, with a PRIO. -/
def advise (ctx : Nat) (x : HostCtx) (a : Accepted) (advice prio : Nat) : M Unit := do
  if !x.plugin then proceed a
  else if !(← plugRun ctx x prio) then proceed a
  else if advice == 1 then modCtl fun k => { k with plugHeld := k.plugHeld ++ [(ctx, a.raised prio)] }
  else proceed (a.raised prio)

/-- A held launch goes on; in a domain stopped meanwhile it is refused with reason 11 (R399). -/
def proceedHeld (a : Accepted) : M Unit := do
  if ← domStopped a.launch.dom then
    match a.rack with
    | none => refuse a.launch.ctx { ring := a.launch.ring, index := a.index, bytes := a.bytes } 11
    | some (sender, seq) => refuseRack a.launch sender seq 11
  else proceed a

/-- A held launch of a context proceeds: any, in the plug-in's order; the first once the plug-in has ended. -/
def releaseHeld (ctx n prio : Nat) (kinds : Nat → Bool) : M Unit := do
  match ← ctxAt ctx with
  | none => return
  | some x =>
    let live ← if x.plugin then plugRun ctx x prio else pure false
    let held := (← thePkg).ctl.plugHeld.filter fun h => h.1 == ctx
    match held[if live then n else 0]? with
    | none => return
    | some h =>
      if !kinds h.2.launch.kind then return
      modCtl fun k => { k with plugHeld := k.plugHeld.erase h }
      proceedHeld (if live then h.2.raised prio else h.2)

/-- A launch command of some kinds at the head of a ring is validated, and accepted or refused; `advice` of 2 or more
releases a launch that the plug-in holds. -/
def launchEvent (kinds : Nat → Bool) (ctx ring advice prio : Nat) : M Unit := do
  if 2 <= advice then releaseHeld ctx (advice - 2) prio kinds
  else
    match ← nextEntry ctx ring kinds with
    | none => return
    | some (x, f) =>
      match ← validateLaunch ctx ring x.part f.bytes.toNat with
      | .error n => refuse ctx f n
      | .ok a => advise ctx x { a with index := f.index, rack := none } advice prio

/-- A byte 0 that names neither another launch nor a control command (R395): KIND 0, or a reserved KIND, which is
refused. -/
def strandKind (k : Nat) : Bool := k == 0 || (4 <= k && k < 0x80) || 0x8C < k

/-- LAUNCH_STRAND (R329): a KIND 0 command is validated and expanded into one strand. -/
def execLaunchStrand (ctx ring advice prio : Nat) (s : State) : Host.Outcome State Fault Refusal :=
  event (launchEvent strandKind ctx ring advice prio) s

/-- LAUNCH_GRAPH (R346): a KIND 1 command is validated and its graph started. -/
def execLaunchGraph (ctx ring advice prio : Nat) (s : State) : Host.Outcome State Fault Refusal :=
  event (launchEvent (· == 1) ctx ring advice prio) s

/-- LAUNCH_LATTICE (R352): a KIND 2 command is validated and its walk started. -/
def execLaunchLattice (ctx ring advice prio : Nat) (s : State) : Host.Outcome State Fault Refusal :=
  event (launchEvent (· == 2) ctx ring advice prio) s

/-- LAUNCH_ARCHIPELAGO (R378): a KIND 3 command is validated and its islands' strands are made; STRAND_DISPATCH places them
all at once or not at all (R379). -/
def execLaunchArchipelago (ctx ring advice prio : Nat) (s : State) : Host.Outcome State Fault Refusal :=
  event (launchEvent (· == 3) ctx ring advice prio) s

/-! ### Graphs (R348 to R351) -/

/-- The graph of a launch goes on, and the strands of its started nodes are created. -/
def setGraph (id : Nat) (f : List GNode → GState → GState) : M Unit := do
  setLaunch id fun l => { l with graph := l.graph.map fun g => (g.1, f g.1 g.2) }
  pumpLaunch id

/-- GRAPH_NODE_FINISH: the strand of a node has ended, and its successors are updated. -/
def graphNodeFinish (launch node : Nat) : M Unit := do
  match (← thePkg).sched.strands.find? fun s => s.launch == launch && s.node == some node && s.state.ended with
  | none => return
  | some s =>
    modStrand s.va fun o => { o with node := none }
    setGraph launch fun ns g => gStrandEnd ns node g

def execGraphNodeFinish (launch node : Nat) (s : State) : Host.Outcome State Fault Refusal :=
  event (graphNodeFinish launch node) s

/-- A control node that awaits evaluation, with what its read gives; a fault is the launch's (R349). -/
def readControl (launch node : Nat) (kinds : Nat → Bool) : M (Option (Option Nat)) := do
  match ← findLaunch launch with
  | none => return none
  | some l =>
    match l.graph with
    | none => return none
    | some (ns, g) =>
      match ns[node]? with
      | none => return none
      | some n =>
        if l.torn || !g.awaiting.contains node || !kinds n.kind then return none
        match ← sysReadAs l.dom n.w08 8 with
        | .ok v => return some (some v)
        | .error c =>
          contribute (← read).pkg launch none (2 ^ 16 + c.code * 2 ^ 8 + statusFault)
          return some none

/-- CONTROL_NODE_EVAL: a conditional or switch node reads its word and chooses its successors. -/
def controlNodeEval (launch node : Nat) : M Unit := do
  match ← readControl launch node (fun k => k == 1 || k == 3) with
  | none => return
  | some w => setGraph launch fun ns g => gControl ns node w g

def execControlNodeEval (launch node : Nat) (s : State) : Host.Outcome State Fault Refusal :=
  event (controlNodeEval launch node) s

/-- LOOP_NODE_EVAL: a loop node is evaluated; MAXITER is told in the status. -/
def loopNodeEval (launch node : Nat) : M Unit := do
  match ← readControl launch node (· == 2) with
  | none => return
  | some w =>
    match (← findLaunch launch).bind (·.graph) with
    | none => return
    | some (ns, g) =>
      if (gLoop ns node w g).2 then contribute (← read).pkg launch none statusLoopCap
      setGraph launch fun ns g => (gLoop ns node w g).1

def execLoopNodeEval (launch node : Nat) (s : State) : Host.Outcome State Fault Refusal :=
  event (loopNodeEval launch node) s

/-! ### Coverage bands (R355 to R359) -/

/-- Every strand of a launch has ended. -/
def Dev.launchEnded (d : Dev) (p id : Nat) : Bool :=
  d.pkgs.all fun k => k.2.sched.strands.all fun s => s.launch != id || s.lpkg != p || s.state.ended

/-- A store of a launch's strand has still to perform. -/
def Dev.launchWrites (d : Dev) (p id : Nat) : Bool :=
  d.pkgs.any fun k => k.2.cores.any fun c => c.2.inflight.any fun w =>
    k.2.sched.strands.any fun s => s.va == w.strand && s.launch == id && s.lpkg == p

/-- The kept points and probes of a band in ascending number, probes marked. -/
def bandItems (w : Walk) (c : Coverage) : List (Nat × Nat) :=
  let skipped := c.skipped w.rung w.nx w.ny w.bandh w.next
  (bandPoints w.nx w.ny w.bandh w.next).filterMap fun p =>
    let n := p.1 + w.nx * p.2
    if c.kept w.rung p.1 p.2 then some (n, 0)
    else if skipped.contains (p, true) then some (n, 1)
    else none

/-- The next band of a coverage launch is opened. -/
def Launch.openBand (l : Launch) : Launch :=
  match l.walk with
  | some w =>
    match w.cov with
    | some c =>
      if !l.torn && !w.bandOpen && w.next * w.bandh < w.ny then
        { l with toCreate := bandItems w c, walk := some { w with bandOpen := true, ranAt := [] } }
      else l
    | none => l
  | none => l

/-- BAND_START: the walker creates the strands of a launch's next band, or its further strands now that records are
free. -/
def bandStart (launch : Nat) : M Unit := do
  setLaunch launch Launch.openBand
  pumpLaunch launch

def execBandStart (launch : Nat) (s : State) : Host.Outcome State Fault Refusal := event (bandStart launch) s

/-- A write with a domain's rights (R308). -/
def sysWriteAs (dom va n v : Nat) : M (Except Cause Unit) := do
  match ← attempt (do
      let m ← rightsOver needW dom va n
      writeBytesNow 0 0 m dom va n v) with
  | .ok _ => return .ok ()
  | .error .block => block
  | .error (.halt f) => throw (.halt f)
  | .error (.raise c _) => return .error c
  | .error (.restart c _ _) => return .error c

/-- A failure of the reconstruction unit (R359). -/
def reconFailed (launch : Nat) (c : Cause) : M Unit := do
  contribute (← read).pkg launch none (statusRecon + c.code * 2 ^ 8)

/-- One skipped point: its corners are read and its value is computed; it is written, or a probe gives its error. -/
def reconstructPoint (launch dom : Nat) (w : Walk) (c : Coverage) (x y : Nat) (probe : Bool) : M (Option Nat) := do
  let bandEnd := min w.ny ((w.next + 1) * w.bandh)
  let size := covSize c.typ
  let corners := ((c.corners w.rung w.nx bandEnd x y).map (·.1)).eraseDups
  let got ← corners.mapM fun p => do return (p, ← sysReadAs dom (c.elemVa p.1 p.2) size)
  let bad := got.findSome? fun q => match q.2 with
    | .error e => some e
    | .ok _ => none
  match bad with
  | some e =>
    reconFailed launch e
    return if probe then some f32.infBits else none
  | none =>
    let out (p : Nat × Nat) : Nat := match got.find? fun q => q.1 == p with
      | some (_, .ok v) => v
      | _ => 0
    let a := (corners.headD (0, 0))
    let core := lookupD 0 w.ranAt (a.1 + w.nx * a.2)
    let r := c.reconstruct w.rung w.nx bandEnd x y core out
    if probe then
      match ← sysReadAs dom (c.elemVa x y) size with
      | .ok v => return some (c.probeError v r)
      | .error e =>
        reconFailed launch e
        return some f32.infBits
    else
      match ← sysWriteAs dom (c.elemVa x y) size r with
      | .ok _ => return none
      | .error e =>
        reconFailed launch e
        return none

/-- The walk after a band with error `e` (R358). -/
def Walk.closeBand (w : Walk) (c : Coverage) (e : Nat) : Walk :=
  { w with
    hist := if w.bands < 21 then w.hist + w.rung * 2 ^ (3 * w.bands) else w.hist % 2 ^ 63 + 2 ^ 63
    bands := w.bands + 1, last := w.rung, next := w.next + 1, bandOpen := false, rung := c.nextRung w.rung e }

/-- BAND_RECONSTRUCT: once a band's strands have ended, its skipped points are reconstructed, and the controller sets the
next rung. -/
def bandReconstruct (launch : Nat) : M Unit := do
  match ← findLaunch launch with
  | none => return
  | some l =>
    match l.walk with
    | none => return
    | some w =>
      match w.cov with
      | none => return
      | some c =>
        if l.torn || !w.bandOpen || !l.toCreate.isEmpty || !(← get).launchEnded (← read).pkg launch then return
        if (← get).launchWrites (← read).pkg launch then return
        let errs ← (c.skipped w.rung w.nx w.ny w.bandh w.next).mapM fun q =>
          reconstructPoint launch l.dom w c q.1.1 q.1.2 q.2
        let e := c.bandError (errs.filterMap id)
        setLaunch launch fun l => { l with walk := some (w.closeBand c e), maxErr := Nat.max l.maxErr e }

def execBandReconstruct (launch : Nat) (s : State) : Host.Outcome State Fault Refusal := event (bandReconstruct launch) s

/-! ### Completion (R27 to R29, R344, R345) -/

/-- Nothing more of the launch is to be created. -/
def Launch.closed (l : Launch) : Bool :=
  l.torn || (match l.kind, l.graph, l.walk with
  | 1, some (_, g), _ => g.ended && g.running.isEmpty
  | 2, _, some w => if w.cov.isSome then w.ny <= w.next * w.bandh && !w.bandOpen else w.total <= w.next
  | _, _, _ => l.toCreate.isEmpty)

/-- The tree is fixed (R27): the last strand of the launch has been placed. -/
def Dev.treeFixed (d : Dev) (p : Nat) (l : Launch) : Bool :=
  l.closed && d.pkgs.all fun k => k.2.sched.strands.all fun s =>
    s.launch != l.id || s.lpkg != p || s.state.ended || s.slot.isSome

/-- The strands of a slot have all ended. -/
def Dev.slotEnded (d : Dev) (p id key : Nat) : Bool :=
  d.pkgs.all fun k => k.2.sched.strands.all fun s => s.launch != id || s.lpkg != p || s.slot != some key || s.state.ended

/-- The children of a tree index have forwarded. -/
def Launch.childrenDone (l : Launch) (i : Nat) : Bool :=
  (List.range 4).all fun j =>
    match l.tree[4 * i + 1 + j]? with
    | some n => n.forwarded
    | none => true

/-- The records of ended strands of a launch are returned to their pools: those of one slot, or all (R331). -/
def returnRecords (id : Nat) (slot : Option Nat) : M Unit := do
  let me := (← read).pkg
  let d ← get
  d.pkgs.forM fun k => atCore k.1 0 .A (do
    let vs := (k.2.sched.strands.filter fun s => s.launch == id && s.lpkg == me && (slot.isNone || s.slot == slot)).map (·.va)
    vs.forM freeRecord)

/-- COMPLETION_FORWARD (R28): a node of a launch's tree forwards its combined status to its parent. -/
def completionForward (launch key : Nat) : M Unit := do
  let d ← get
  let p := (← read).pkg
  match ← findLaunch launch with
  | none => return
  | some l =>
    match l.tree.findIdx? fun n => n.core == key with
    | none => return
    | some i =>
      match l.tree[i]? with
      | none => return
      | some n =>
        if i == 0 || n.forwarded || !d.treeFixed p l || !d.slotEnded p launch key || !l.childrenDone i then return
        let up (q : TreeNode × Nat) : TreeNode :=
          if q.2 == (i - 1) / 4 then
            { q.1 with word := combineStatus q.1.word n.word, maxErr := Nat.max q.1.maxErr n.maxErr, heard := q.1.heard ++ [key] }
          else if q.2 == i then { q.1 with forwarded := true }
          else q.1
        setLaunch launch fun l => { l with tree := l.tree.zipIdx.map up }
        returnRecords launch (some key)

def execCompletionForward (launch key : Nat) (s : State) : Host.Outcome State Fault Refusal :=
  event (completionForward launch key) s

/-- R29: posted reductions of a launch of package `p` that have neither performed nor been dropped. -/
def Dev.launchOutstanding (d : Dev) (p id : Nat) : Bool :=
  let posted (a : Posted) : Bool := a.lpkg == p && a.launch == id
  let deferred (e : Deferred) : Bool := e.lpkg == p && e.launch == id
  d.pkgs.any fun k =>
    (k.2.cores.any fun c => c.2.amons.any fun a => posted a.2) || k.2.home.accepted.any posted ||
    (k.2.fabric.contribs.any fun c => posted c.op) ||
    (k.2.home.defRings.any fun r => r.2.open_.any fun e => deferred e.2) || (k.2.home.overflow.any fun o => o.2.any deferred)

/-- The completion record's bytes (Table 18.7). -/
def recordBytes (l : Launch) (time : Nat) : Nat :=
  let root := (l.tree.head?.map (·.word)).getD 0
  let st := combineStatus root (combineStatus l.extra (if l.torn then statusCancelled else 0))
  let err := Nat.max l.maxErr ((l.tree.head?.map (·.maxErr)).getD 0)
  let w := l.walk
  let cov := (w.bind (·.cov)).isSome
  let get (f : Walk → Nat) : Nat := if cov then (w.map f).getD 0 else 0
  l.id + (if l.torn then 2 else 1) * 2 ^ 32 + st * 2 ^ 64 + (err + get (·.last) * 2 ^ 32) * 2 ^ 128 + get (·.hist) * 2 ^ 192 +
    time * 2 ^ 256 + get (·.bands) * 2 ^ 320

/-- A launch's recording, and a replay of it, end with it. -/
def Service.launchOver (s : Service) (launch : Nat) : Service :=
  { s with
    records := s.records.map fun r => if r.launch == launch then { r with open_ := false } else r
    replay := s.replay.filter fun r => r.launch != launch }

/-- COMPLETION_RECORD_WRITE (R29, R344, R345): the root writes the completion record, its first dword last. -/
def completionRecordWrite (launch : Nat) : M Unit := do
  let d ← get
  let p := (← read).pkg
  match ← findLaunch launch with
  | none => return
  | some l =>
    if !d.treeFixed p l || !d.launchEnded p launch || !(l.tree.drop 1).all (·.forwarded) || d.launchOutstanding p launch then return
    let r := recordBytes l (← deviceTime)
    sysWrite (l.complVa + 8) 56 (r / 2 ^ 64)
    sysWrite l.complVa 8 (r % 2 ^ 64)
    returnRecords launch none
    modSched fun x => { x with
      launches := x.launches.filter fun l => l.id != launch
      written := x.written ++ [(launch, l.complVa)] }
    modService fun s => s.launchOver launch
    match l.arc with
    | some a => modify fun d => { d with arcs := d.arcs.filter fun x => x.id != a }
    | none => return

def execCompletionRecordWrite (launch : Nat) (s : State) : Host.Outcome State Fault Refusal :=
  event (completionRecordWrite launch) s

end Sys2Proof.Machine
end

