-- ==== Sys2Proof/Machine/Fabric.lean ====
section
/-!
DEFINITION. Sys2Proof/Machine/Fabric.lean: the fabric engines: FXPUT, FXGET and FXRED, their messages and completion,
multicast-reduce rounds, and the tables that control cores write (spec 20, R367 to R377, R385 to R387).
-/

namespace Sys2Proof.Machine

/-! ### Issue (R375) -/

/-- The longest FXPUT or FXGET. -/
def fabricLimit : Nat := 0x1000000

/-- The checks of a remote range: translated memory, or wholly inside one island core's span of the window. -/
def checkRemote (s : Span) : M Unit := do
  if s.hi <= s.lo then return
  let lo := s.lo.toNat
  match space lo with
  | .mem => if windowBase < s.hi then raise .aperture (BitVec.ofNat 64 windowBase)
  | .arc i k off =>
    if 2 ^ 18 < off + (s.hi - s.lo) then raise .aperture (BitVec.ofNat 64 (lo - off + 2 ^ 18))
    let _ ← arcMember (BitVec.ofNat 64 lo) i k
  | _ => raise .aperture (BitVec.ofNat 64 lo)

/-- A command of `n` bytes between a local and a remote range, already checked. -/
def startFabric (op : Nat) (args : List Word) (near : Span) : M Word := do
  if near.hi <= near.lo then instantToken 0 else startCommand .fabric op args [near]

/-- FXPUT and FXGET; the arguments kept are remote, local and length. -/
def issueMove (op : Nat) (d : BitVec 5) (far near len : Word) : M Flow := do
  if fabricLimit < len.toNat then raise .illegal len
  checkWindows [spanAt near len.toNat]
  checkRemote (spanAt far len.toNat)
  dst d (← startFabric op [far, near, len] (spanAt near len.toNat))
  return .seq

/-- FXPUT (R375). -/
def actFxput (d : BitVec 5) (a : BitVec 5) (b : BitVec 5) (c : BitVec 5) : M Flow := do
  let far ← src a
  let near ← src b
  let len ← src c
  issueMove 0x78 d far near len

/-- FXPUT as a unit: a commit point (R374). -/
def execFxput (d : BitVec 5) (a : BitVec 5) (b : BitVec 5) (c : BitVec 5) (s : State) : Host.Outcome State Fault Refusal :=
  loneCommit (.fxput d a b c) (actFxput d a b c) s

/-- FXGET (R375). -/
def actFxget (d : BitVec 5) (a : BitVec 5) (b : BitVec 5) (c : BitVec 5) : M Flow := do
  let near ← src a
  let far ← src b
  let len ← src c
  issueMove 0x79 d far near len

/-- FXGET as a unit: a commit point (R374). -/
def execFxget (d : BitVec 5) (a : BitVec 5) (b : BitVec 5) (c : BitVec 5) (s : State) : Host.Outcome State Fault Refusal :=
  loneCommit (.fxget d a b c) (actFxget d a b c) s

/-- R70: the operations of an FXRED word. -/
def fxredOps : List Nat := [0, 4, 5, 6, 7, 9, 10, 11]

/-- The element size of an operation word (R375). -/
def fxredBytes (w : Nat) : Nat := if natBits w 36 36 == 0 then 4 else 8

def fxredOk (w : Nat) : Bool :=
  let op := natBits w 35 32
  fxredOps.contains op && natBits w 63 37 == 0 && natBits w 31 0 <= 2 ^ 22 && !(9 <= op && natBits w 36 36 == 1)

/-- FXRED (R375). -/
def actFxred (d : BitVec 5) (a : BitVec 5) (b : BitVec 5) (c : BitVec 5) : M Flow := do
  let far ← src a
  let near ← src b
  let w ← src c
  let n := fxredBytes w.toNat
  let len := natBits w.toNat 31 0 * n
  checkWindows [spanAt near len]
  checkRemote (spanAt far len)
  if far.toNat % n != 0 || near.toNat % n != 0 then raiseOpen .align
  let tok ← if fxredOk w.toNat then startFabric 0x7A [far, near, w] (spanAt near len)
    else instantToken (statusWord .fabric 1)
  dst d tok
  return .seq

/-- FXRED as a unit: a commit point (R374). -/
def execFxred (d : BitVec 5) (a : BitVec 5) (b : BitVec 5) (c : BitVec 5) (s : State) : Host.Outcome State Fault Refusal :=
  loneCommit (.fxred d a b c) (actFxred d a b c) s

/-! ### Remote accesses (R376, R377, R386) -/

/-- How a remote access of a command stops: a fault of Table 8.1, or FABRIC (no route, or the aperture entry invalid or
lost). -/
def noRoute {α : Type} : M α := raise .fabric 0

/-- Where a remote access performs: a scratchpad of the archipelago window, or a line of some package. -/
inductive FarRef where
  | scratch (pkg core off : Nat)
  | line (pkg va : Nat) (r : LineRef)
  deriving DecidableEq, Repr

/-- A line of a scale-out region: the page of the region that the leaf's FRAME names (R386). -/
def regionLine (ap : Aperture) (t : Trans) (va : Nat) : M FarRef := do
  match (← thePkg).fabric.endpoints.find? fun e => e.1 == (ap.port, ap.node) with
  | none => noRoute
  | some (_, peer) =>
    match (← pkgAt peer).fabric.regions.find? fun r => r.key == ap.key with
    | none => raise .keyRevoked 0
    | some r =>
      if r.revoked then raise .keyRevoked 0
      let page := t.pa va / 4096
      if r.pages <= page then raise .aperture 0
      let dest := r.va + 4096 * page + va % 4096
      match ← runHomeAt peer 0 (BitVec.ofNat 64 va) (reach (← thePart) dest) with
      | .line x => return .line peer dest x
      | .remote _ => raise .aperture 0

/-- The place of a remote access of a command, its rights checked in R322's order: M, read again once where it is missing
(R308), then the page's aperture, then RAP. -/
def farPlace (need : Need) (dom va : Nat) : M FarRef := do
  let ea := BitVec.ofNat 64 va
  match space va with
  | .arc i k off =>
    let (p, c) ← arcTarget ea i k off
    return .scratch p c off
  | _ =>
    let m ← checkRightsAt ea need dom va
    match ← runHome ea ea (reach (← thePart) va) with
    | .line r => return .line (← read).pkg va r
    | .remote t =>
      if !m then
        if !(← grantsM ea dom va) then raise .prot ea
      if t.leaf.apt == 63 then raise .aperture ea
      let f := (← thePkg).fabric
      let ap := lookupD Aperture.reset f.apertures t.leaf.apt
      if !ap.valid || ap.lost then noRoute
      if need.a && !t.leaf.rap then raise .remoteAtomic ea
      if ap.scaleOut then regionLine ap t va
      else
        let peer := peerOf (← read).pkg ap.pkg
        if (lookupD [] f.routes ap.pkg).isEmpty then noRoute
        waitForRoute ap.pkg
        return .line peer va (← runHomeAt peer ea ea (reachHanded (← thePart) va t))

/-- Up to 8 bytes of a remote place within one line, read. -/
def farRead (dom va n : Nat) : M Nat := do
  let ea := BitVec.ofNat 64 va
  match ← farPlace needR dom va with
  | .scratch p c off => scratchReadAt ea p c off n
  | .line p a r => runHomeAt p ea ea (readRef r a n)

/-- The checks of such a write, and the write. -/
def farCheck (need : Need) (dom va : Nat) : M Unit := do let _ ← farPlace need dom va

def farWrite (dom va n v : Nat) : M Unit := do
  let ea := BitVec.ofNat 64 va
  match ← farPlace needW dom va with
  | .scratch p c off => modCoreAt p c fun t => t.scratchWrite off n v
  | .line p a r => runHomeAt p ea ea (writeRef r a n v dom)

/-- An element of FXRED at its target (R376); in a scratchpad it is read and written as one. -/
def farReduce (dom va n op opnd : Nat) : M Unit := do
  let ea := BitVec.ofNat 64 va
  let me := (← read).core
  let l ← theLaunch
  let turn (r : FarRef) : M Bool := match r with
    | .scratch _ _ _ => return false
    | .line p _ _ => atomicTurn l p (homeSlice va) va me
  match ← placeInTurn (farPlace needWA dom va) turn with
  | .scratch p c off =>
    let old ← scratchReadAt ea p c off n
    modCoreAt p c fun t => t.scratchWrite off n (newValue true me op (8 * n) old opnd)
  | .line p a r =>
    let _ ← runHomeAt p ea ea (performAtomic true r me dom { va := a, op := op, wide := n == 8, opnd := opnd })

/-! ### Running a command (R376, R377) -/

/-- A check of a part of `n` bytes: its status. -/
def partStatus (detail : Nat) (need : Need) (dom va n : Nat) (x : M Unit) : M (Option EngStop) := do
  match ← engDo detail need dom va n x with
  | .ok _ => return none
  | .error st => return some (if st.status % 256 == Cause.fabric.code then { st with status := statusWord .fabric 2 } else st)

/-- A part of FXPUT or FXGET: read from the one side, checked at the other. -/
structure Part1 where
  from_ : Nat
  dest : Nat
  n : Nat
  deriving DecidableEq, Repr

def moveStatus (put : Bool) (dom : Nat) (b : Part1) : M (Option EngStop) := do
  let rd : M Unit := do let _ ← inPieces b.from_ b.n (if put then engRead dom else farRead dom)
  let wr : M Unit := if put then farCheck needW dom b.dest else engCheckWrite dom b.dest
  match ← partStatus (if put then 1 else 2) needR dom b.from_ b.n rd with
  | some st => return some st
  | none => partStatus (if put then 2 else 1) needW dom b.dest b.n wr

def movePart (put : Bool) (dom : Nat) (b : Part1) : M Unit := do
  if put then farWrite dom b.dest b.n (← inPieces b.from_ b.n (engRead dom))
  else engWrite dom b.dest b.n (← inPieces b.from_ b.n (farRead dom))

/-- FXPUT and FXGET: their status. -/
def runFabricMove (put : Bool) (serial dom far near len : Nat) : M Nat := do
  let (dest, from_) := if put then (far, near) else (near, far)
  let parts : List Part1 := (unitPieces dest len).map fun p => { from_ := from_ + (p.1 - dest), dest := p.1, n := p.2 }
  let order := sortKey (fun b : Part1 => Config.elemKey serial (b.dest / 8)) parts
  let sts ← order.mapM fun b => do return (b, ← moveStatus put dom b)
  match sts.filterMap (·.2) with
  | [] =>
    order.forM (movePart put dom)
    return 0
  | e :: _ =>
    let spoiled := sts.filterMap fun r => if r.2.isSome then some (r.1.dest / 8) else none
    order.forM fun b => do
      if !spoiled.contains (b.dest / 8) && Config.partDone serial (b.dest / 8) then movePart put dom b
    endCommand dom e

/-- FXRED: its status. -/
def runFabricReduce (serial dom far near w : Nat) : M Nat := do
  let n := fxredBytes w
  let op := natBits w 35 32
  let order := sortKey (Config.elemKey serial) (List.range (natBits w 31 0))
  let check (i : Nat) : M (Option EngStop) := do
    let rd : M Unit := do let _ ← engRead dom (near + n * i) n
    match ← partStatus 1 needR dom (near + n * i) n rd with
    | some st => return some st
    | none =>
      let probe : M Unit := do
        farCheck needWA dom (far + n * i)
        match ← farPlace needWA dom (far + n * i) with
        | .scratch p c off => let _ ← scratchReadAt 0 p c off n
        | .line p a r => let _ ← runHomeAt p 0 0 (readRef r a n)
      partStatus 2 needWA dom (far + n * i) n probe
  let sts ← order.mapM fun i => do return (i, ← check i)
  let doOne (i : Nat) : M Unit := do farReduce dom (far + n * i) n op (← engRead dom (near + n * i) n)
  match sts.filterMap (·.2) with
  | [] =>
    order.forM doOne
    return 0
  | e :: _ =>
    sts.forM fun r => do
      if r.2.isNone && Config.partDone serial r.1 then doOne r.1
    endCommand dom e

def runFabric (k : Command) : M Nat := do
  let w (n : Nat) : Nat := (k.args.getD n 0).toNat
  match k.op with
  | 0x78 => runFabricMove true k.serial k.dom (w 0) (w 1) (w 2)
  | 0x79 => runFabricMove false k.serial k.dom (w 0) (w 1) (w 2)
  | _ => runFabricReduce k.serial k.dom (w 0) (w 1) (w 2)

/-! ### Messages (R367) -/

/-- The bytes a command moves. -/
def Command.fabricBytes (k : Command) : Nat :=
  let w := (k.args.getD 2 0).toNat
  if k.op == 0x7A then natBits w 31 0 * fxredBytes w else w

/-- A command's first remote byte lies at a peer that answers. -/
def farPeer (k : Command) : M Bool := do
  let va := (k.args.getD 0 0).toNat
  let need := if k.op == 0x78 then needW else if k.op == 0x79 then needR else needWA
  match ← attempt (farPlace need k.dom va) with
  | .ok (.scratch p _ _) => return p != (← read).pkg
  | .ok (.line p _ _) => return p != (← read).pkg
  | .error .block => block
  | .error (.halt f) => throw (.halt f)
  | .error _ => return false

/-- The messages of a command of so many bytes: packets of 256 bytes, up to 64 in a message. -/
def messagesOf (core cmd bytes time : Nat) : List NMsg :=
  let packets := (bytes + 255) / 256
  (List.range ((packets + 63) / 64)).map fun j =>
    { core := core, cmd := cmd, packets := Nat.min 64 (packets - 64 * j), acked := 0, sentAt := time, sends := 1 }

def NMsg.full (m : NMsg) : Bool := m.acked.toNat % 2 ^ m.packets == 2 ^ m.packets - 1

def NMsg.of (m : NMsg) (core cmd : Nat) : Bool := m.core == core && m.cmd == cmd

/-- The j-th message of a command changed. -/
def modMessage (core cmd j : Nat) (f : NMsg → NMsg) : M Unit :=
  modFabric fun x =>
    let upd (r : List NMsg × Nat) (m : NMsg) : List NMsg × Nat :=
      if m.of core cmd then (r.1 ++ [if r.2 == j then f m else m], r.2 + 1) else (r.1 ++ [m], r.2)
    { x with messages := (x.messages.foldl upd ([], 0)).1 }

/-- FABRIC_COMMAND_COMPLETE: a command that reaches a peer first sends its messages; once every one is complete, or at
once for a target in this package, the command performs or fails, and ends. -/
def fabricCommandComplete (serial : Nat) : M Unit := do
  let c ← theCore
  let me := (← read).core
  match c.cmds.find? fun k => k.serial == serial && k.engine == .fabric with
  | none => return
  | some k =>
    if !(← writesBefore serial) then return
    let ms := (← thePkg).fabric.messages.filter fun m => m.of me serial
    let lost := !(← farPeer k)
    if ms.isEmpty && !lost then
      let t ← now
      modFabric fun x => { x with messages := x.messages ++ messagesOf me serial k.fabricBytes t }
    else if lost || ms.all NMsg.full then
      modFabric fun x => { x with messages := x.messages.filter fun m => !m.of me serial }
      commandDone serial (← runFabric k)

def execFabricCommandComplete (serial : Nat) (s : State) : Host.Outcome State Fault Refusal :=
  event (fabricCommandComplete serial) s

/-- NARROWS_MESSAGE_ACK: the target's bitmap for a message; a bit once set stays set (R367). -/
def narrowsMessageAck (serial j bitmap : Nat) : M Unit := do
  modMessage (← read).core serial j fun m => { m with acked := m.acked ||| BitVec.ofNat 64 bitmap }

def execNarrowsMessageAck (serial j bitmap : Nat) (s : State) : Host.Outcome State Fault Refusal :=
  event (narrowsMessageAck serial j bitmap) s

/-- How long a packet may stay without an answer, in nanoseconds. -/
def retransmitTime : Nat := 20000

/-- NARROWS_RETRANSMIT: the packets of a message that are not acknowledged after 20 µs are sent again. -/
def narrowsRetransmit (serial j : Nat) : M Unit := do
  let t ← now
  modMessage (← read).core serial j fun m =>
    if !m.full && retransmitTime <= t - m.sentAt then { m with sentAt := t, sends := m.sends + 1 } else m

def execNarrowsRetransmit (serial j : Nat) (s : State) : Host.Outcome State Fault Refusal :=
  event (narrowsRetransmit serial j) s

/-! ### Multicast-reduce rounds (R370 to R373) -/

/-- R371: the operation a group's format takes. -/
def groupOp (fmt : Nat) : Option Nat :=
  match fmt with
  | 0 => some 9
  | 1 => some 9
  | 2 => some 0
  | 3 => some 10
  | 4 => some 11
  | _ => none

/-- The NaN that stands for a set of f32 values: the one of smallest OrderKey, quieted (R188, log 95). -/
def roundNaN (xs : List Nat) : Option Nat :=
  let pick (b : Option Nat) (x : Nat) : Option Nat :=
    match b with
    | none => some x
    | some y => if nanRank x < nanRank y then some x else some y
  ((xs.filter f32.isNaN).foldl pick none).map f32.quiet

/-- An exact sum of f32 values, rounded once to nearest even; `nan` is what infinities of both signs create. -/
def exactSum (nan : Nat) (xs : List Nat) : Nat :=
  match roundNaN xs with
  | some n => n
  | none =>
    let vs := xs.map f32.unpack
    let infs := vs.filterMap fun v => match v with
      | .inf n => some n
      | _ => none
    match infs with
    | n :: rest => if rest.all (· == n) then f32.withSign n f32.infBits else nan
    | [] =>
      let fins := vs.filterMap fun v => match v with
        | .fin n m e => some (n, m, e)
        | _ => none
      let e0 := fins.foldl (fun b f => min b f.2.2) 0
      let s := fins.foldl (fun t f => t + scaled f.1 f.2.1 f.2.2 e0) 0
      if s == 0 then f32.withSign (fins.all fun f => f.1 && f.2.1 == 0) 0
      else (f32.round .rne (s < 0) s.natAbs e0).1

/-- Minimum or maximum of f32 values, −0 below +0. -/
def exactPick (isMax : Bool) (xs : List Nat) : Nat :=
  match roundNaN xs, xs with
  | some n, _ => n
  | none, [] => 0
  | none, x :: rest => rest.foldl (fun a b => (f32.minMax isMax false a b).1) x

/-- ExactCombine of operands, and Combine of parts, which are combined alike two at a time; a bf16 value is two f32
lanes. -/
def combineRound (fmt nan : Nat) (xs : List Nat) : Nat :=
  match fmt with
  | 0 => exactSum nan (xs.map (· % 2 ^ 32))
  | 1 => exactSum nan (xs.map (· % 2 ^ 32)) + 2 ^ 32 * exactSum nan (xs.map (· / 2 ^ 32 % 2 ^ 32))
  | 2 => xs.foldl (· + ·) 0 % 2 ^ 32
  | 3 => exactPick false (xs.map (· % 2 ^ 32))
  | _ => exactPick true (xs.map (· % 2 ^ 32))

/-- A contribution's operand as a part: bf16 lanes widened to f32. -/
def roundOperand (fmt opnd : Nat) : Nat :=
  if fmt == 1 then
    (convertFloat bf16 f32 .rne (opnd % 2 ^ 16)).1 + 2 ^ 32 * (convertFloat bf16 f32 .rne (opnd / 2 ^ 16 % 2 ^ 16)).1
  else opnd % 2 ^ 32

/-- Finish: bf16 lanes rounded to nearest even. -/
def roundFinish (fmt v : Nat) : Nat :=
  if fmt == 1 then
    (convertFloat f32 bf16 .rne (v % 2 ^ 32)).1 + 2 ^ 16 * (convertFloat f32 bf16 .rne (v / 2 ^ 32)).1
  else v

/-- The contributions of a list that a test picks, the first `n` of them only. -/
def markFirst {α : Type} (p : α → Bool) (f : α → Option α) : Nat → List α → List α
  | _, [] => []
  | 0, xs => xs
  | n + 1, x :: xs => if p x then (f x).toList ++ markFirst p f n xs else x :: markFirst p f (n + 1) xs

/-- MCR_ROUND (R372): the package's part of a round of an element, once its contributions and its children's parts are
there; it goes to the parent, or the root delivers to every member. -/
def mcrRound (group elem : Nat) : M Unit := do
  let me := (← read).pkg
  let f := (← thePkg).fabric
  let g := lookupD Group.reset f.groups group
  let mine (c : Contribution) : Bool := c.group == group && c.elem == elem && !c.closed
  let kids := ((f.parts.filter fun p => p.group == group && p.elem == elem).map (·.child)).eraseDups
  if !g.valid || (f.contribs.filter mine).length < g.contrib || kids.length != g.nchild then return
  if !g.root then waitForRoute g.parent
  let nan := f32.created (Config.roundCore group elem).toNat 0
  let own := combineRound g.fmt nan (((f.contribs.filter mine).take g.contrib).map fun c => roundOperand g.fmt c.op.at_.opnd)
  let first (k : Nat) : Nat :=
    ((f.parts.find? fun p => p.group == group && p.elem == elem && p.child == k).map (·.value)).getD 0
  let v := (sortKey id kids).foldl (fun v k => combineRound g.fmt nan [v, first k]) own
  let used (ps : List ChildPart) (k : Nat) : List ChildPart :=
    markFirst (fun p : ChildPart => p.group == group && p.elem == elem && p.child == k) (fun _ => none) 1 ps
  modFabric fun x => { x with
    contribs := markFirst mine (fun c => some { c with closed := true }) g.contrib x.contribs
    parts := kids.foldl used x.parts }
  let send (f : Fabric) : Fabric := { f with parts := f.parts ++ [{ group := group, elem := elem, child := me % 1024, value := v }] }
  let give (f : Fabric) : Fabric := { f with deliveries := f.deliveries ++ [{ group := group, elem := elem, value := v }] }
  if !g.root then modPkgAt (peerOf me g.parent) fun x => { x with fabric := send x.fabric }
  else
    let members := (← get).pkgs.filter fun p => p.1 / 1024 == me / 1024 && (lookupD Group.reset p.2.fabric.groups group).valid
    members.forM fun p => modPkgAt p.1 fun x => { x with fabric := give x.fabric }

def execMcrRound (group elem : Nat) (s : State) : Host.Outcome State Fault Refusal := event (mcrRound group elem) s

/-- A write at a home slice in the name of a domain; a fault leaves it unmade (log 13). -/
def slicedWrite (dom va n v : Nat) : M Unit := do
  match ← attempt (writeBytesNow 0 0 true dom va n v) with
  | .error .block => block
  | .error (.halt f) => throw (.halt f)
  | _ => return

/-- MCR_DELIVER (R372, R373): the oldest delivery of an element is written to the member's delivery page; the round's
contributions have then performed. -/
def mcrDeliver (group elem : Nat) : M Unit := do
  let f := (← thePkg).fabric
  let g := lookupD Group.reset f.groups group
  match f.deliveries.find? fun d => d.group == group && d.elem == elem with
  | none => return
  | some d =>
    slicedWrite g.dom (g.deliv + elem) 4 (roundFinish g.fmt d.value)
    modFabric fun x => { x with
      deliveries := x.deliveries.erase d
      contribs := markFirst (fun c : Contribution => c.group == group && c.elem == elem && c.closed) (fun _ => none) g.contrib
        x.contribs }

def execMcrDeliver (group elem : Nat) (s : State) : Host.Outcome State Fault Refusal := event (mcrDeliver group elem) s

/-! ### Tables (R367 to R370) -/

/-- ROUTE_TABLE_LOAD (R367): the fabric manager loads the next hops, at most four, of a destination package, which is then
reachable. -/
def routeTableLoad (dest : Nat) (hops : List Nat) : M Unit :=
  modFabric fun x => { x with
    routes := insertD [] x.routes (dest % 1024) ((hops.map (· % 1024)).take 4)
    unreachable := if hops.isEmpty then x.unreachable else x.unreachable.filter (· != dest % 1024) }

def execRouteTableLoad (dest : Nat) (hops : List Nat) (s : State) : Host.Outcome State Fault Refusal :=
  event (routeTableLoad dest hops) s

/-- The fields of an aperture entry (Table 20.1). -/
def parseAperture (w0 w1 : Nat) : Aperture :=
  let k1 := natBits w0 1 1 == 1
  { valid := natBits w0 0 0 == 1, scaleOut := k1, pkg := if k1 then 0 else natBits w0 11 2,
    port := if k1 then natBits w0 13 12 else 0, key := if k1 then natBits w1 31 0 else 0,
    node := if k1 then natBits w1 63 32 else 0, lost := false }

/-- POD_APERTURE_ENTRY_WRITE (R368): a control core writes entry 1-62. A valid entry of KIND 1 names its peer by an endpoint
index of a port; the package behind it is the fabric's (R386, log 53). -/
def podApertureEntryWrite (apt w0 w1 : Nat) : M Unit := do
  if apt == 0 || 62 < apt then return
  let lost := (← thePkg).fabric.unreachable
  let a := parseAperture w0 w1
  let b : Aperture := { a with lost := a.valid && !a.scaleOut && lost.contains a.pkg }
  let me := (← read).pkg
  modFabric fun x => { x with
    apertures := insertD Aperture.reset x.apertures apt b
    endpoints := if a.valid && a.scaleOut then
        ((a.port, a.node), Config.endpointPackage me a.port a.node) ::
          x.endpoints.filter fun e => e.1 != (a.port, a.node)
      else x.endpoints }

def execPodApertureEntryWrite (apt w0 w1 : Nat) (s : State) : Host.Outcome State Fault Refusal :=
  event (podApertureEntryWrite apt w0 w1) s

/-- The fields of a group entry (Table 20.2). -/
def parseGroup (w0 w1 : Nat) : Group :=
  { valid := natBits w0 0 0 == 1, fmt := natBits w0 3 1, root := natBits w0 4 4 == 1, parent := natBits w0 14 5,
    contrib := natBits w0 27 15 + 1, dom := natBits w0 44 32, nchild := natBits w0 63 54, deliv := natBits w1 56 12 * 4096 }

/-- A launch's status takes "late fault" (R293), at the package that holds the launch. -/
def markLate (lpkg launch : Nat) : M Unit := setLaunchAt lpkg launch fun l => { l with extra := combineStatus l.extra statusLate }

/-- A contribution is dropped: its launch's status takes "late fault" (R293, R373). -/
def dropContribution (c : Contribution) : M Unit := markLate c.op.lpkg c.op.launch

/-- The open rounds of a group are discarded on every member (R373). -/
def discardRounds (group : Nat) : M Unit := do
  let me := (← read).pkg
  let members := (← get).pkgs.filter fun p => p.1 / 1024 == me / 1024
  members.forM fun p => do
    (p.2.fabric.contribs.filter fun c => c.group == group).forM dropContribution
    modPkgAt p.1 fun x => { x with fabric := { x.fabric with
      contribs := x.fabric.contribs.filter fun c => c.group != group
      parts := x.fabric.parts.filter fun c => c.group != group
      deliveries := x.fabric.deliveries.filter fun c => c.group != group } }

/-- GROUP_ENTRY_WRITE (R370): a control core writes a group entry; one that was valid and is no longer discards the
rounds that are open. A reserved format leaves no valid group. -/
def groupEntryWrite (group w0 w1 : Nat) : M Unit := do
  if 4096 <= group then return
  let g := parseGroup w0 w1
  let g := if 4 < g.fmt then { g with valid := false } else g
  let was := lookupD Group.reset (← thePkg).fabric.groups group
  if was.valid && !g.valid then discardRounds group
  modFabric fun x => { x with groups := insertD Group.reset x.groups group g }

def execGroupEntryWrite (group w0 w1 : Nat) (s : State) : Host.Outcome State Fault Refusal :=
  event (groupEntryWrite group w0 w1) s

/-- PEER_DECLARED_LOST (R369): the fabric manager declares a peer lost; the entries that name it are unusable. -/
def peerDeclaredLost (peer : Nat) : M Unit :=
  modFabric fun x => { x with
    unreachable := if x.unreachable.contains (peer % 1024) then x.unreachable else x.unreachable ++ [peer % 1024]
    routes := dropAt x.routes (peer % 1024)
    apertures := x.apertures.map fun a =>
      if a.2.valid && !a.2.scaleOut && a.2.pkg == peer % 1024 then (a.1, { a.2 with lost := true }) else a }

def execPeerDeclaredLost (peer : Nat) (s : State) : Host.Outcome State Fault Refusal := event (peerDeclaredLost peer) s

/-! ### Scale-out regions (R385, R387) -/

/-- REGION_REGISTER: whole pages of one domain, bound to a key. -/
def regionRegister (key dom va pages : Nat) : M Unit := do
  if va % 4096 != 0 || pages == 0 || windowBase < va + 4096 * pages then return
  modFabric fun x =>
    if x.regions.any fun r => r.key == key % 2 ^ 32 then x
    else { x with regions := x.regions ++
      [{ key := key % 2 ^ 32, dom := dom % 8192, va := va, pages := pages, revoked := false }] }

def execRegionRegister (key dom va pages : Nat) (s : State) : Host.Outcome State Fault Refusal :=
  event (regionRegister key dom va pages) s

/-- REGION_DEREGISTER: its pages are no longer pinned. -/
def regionDeregister (key : Nat) : M Unit :=
  modFabric fun x => { x with regions := x.regions.filter fun r => r.key != key % 2 ^ 32 }

def execRegionDeregister (key : Nat) (s : State) : Host.Outcome State Fault Refusal := event (regionDeregister key) s

/-- KEY_REVOKE (R387): what arrives from now on is refused; every write accepted before has performed. -/
def keyRevoke (key : Nat) : M Unit :=
  modFabric fun x => { x with regions := x.regions.map fun r => if r.key == key % 2 ^ 32 then { r with revoked := true } else r }

def execKeyRevoke (key : Nat) (s : State) : Host.Outcome State Fault Refusal := event (keyRevoke key) s

end Sys2Proof.Machine
end

