-- ==== Sys2Proof/Machine/Slices.lean ====
section
/-!
DEFINITION. Sys2Proof/Machine/Slices.lean: what happens at the home slices by itself: stores and posted reductions
perform, faults of posted reductions are deferred, fills and walks, host accesses, and soft errors (spec 15, R287 to R305;
spec 16, R314; spec 24, R413).
-/

namespace Sys2Proof.Machine

/-! ### Stores (R51, R288) -/

/-- A released store may perform: earlier own stores and posted reductions to its line have, and every earlier one where it
is a release (R42, R50, R51). DESIGN CHOICE (log 94): a release orders the stream's stores for every agent, whatever its scope;
where a scope does not cover both agents R45 forms no edge, and permits other orders too. -/
def storeDue (ss : List Store) (ps : List Posted) (s : Store) : Bool :=
  !s.follows ps && (ss.takeWhile fun x => x.serial != s.serial).all fun x => s.release.isNone && x.va / 128 != s.va / 128

/-- STORE_PERFORM: a released store of the core performs. Where its peer has been declared lost since its release it does
not, and its strand meets APERTURE in the A stream, at once or when it runs next (R369, log 90). -/
def storePerform (serial : Nat) : M Unit := do
  let c ← theCore
  match c.inflight.find? fun s => s.serial == serial with
  | none => return
  | some s =>
    if storeDue c.inflight (← thePosted) s then
      let done : M Unit := modCore fun c => { c with inflight := c.inflight.filter fun x => x.serial != serial }
      match ← attempt (performStore s) with
      | .ok _ => done
      | .error (.raise .aperture ea) =>
        done
        modStrand s.strand fun x => { x with owed := x.owed ++ [{ cause := .aperture, ea := ea, stream := .A }] }
        if c.strand.toNat == s.strand then raiseOwed
      | .error x => throw x

def execStorePerform (serial : Nat) (s : State) : Host.Outcome State Fault Refusal := event (storePerform serial) s

/-! ### Posted reductions (R290 to R293) -/

/-- Deferred entries a slice keeps while a domain's queue is full. -/
def overflowLimit : Nat := 16

/-- The entries a slice keeps. -/
def Home.kept (h : Home) (slice : Nat) : List Deferred := lookupD [] h.overflow slice

def DefRing.full (r : DefRing) : Bool := r.len <= r.tail - r.head

/-- A slice can put no entry of a domain anywhere: its queue is full and so is the slice's buffer (R292). -/
def Home.clogged (h : Home) (slice dom : Nat) : Bool :=
  (lookupD DefRing.reset h.defRings dom).full && overflowLimit <= (h.kept slice).length

/-- The launches a slice counts: those of the reductions it has accepted that have neither performed nor entered a queue
(R290), each with the package that holds it. -/
def Home.counted (h : Home) (slice : Nat) : List (Nat × Nat) :=
  (((h.accepted.filter fun a => homeSlice a.at_.va == slice).map fun a => (a.lpkg, a.launch)) ++
    (h.kept slice).map fun d => (d.lpkg, d.launch)).eraseDups

/-- AMON_ACCEPT (R290): the oldest unaccepted AMON of the core at its home slice takes its place in the line's order, after
the stream's earlier stores to the line. The slice counts 512 launches at once. -/
def amonAccept (serial : Nat) : M Unit := do
  let c ← theCore
  match c.amons.find? fun e => e.1 == serial with
  | none => return
  | some (_, p) =>
    let s := homeSlice p.at_.va
    let h := (← thePkg).home
    let first := (c.amons.filter fun e => homeSlice e.2.at_.va == s).head?.map (·.1) == some serial
    let stores := c.inflight.any fun x => x.serial < serial && x.va / 128 == p.at_.va / 128
    let ls := h.counted s
    if first && !stores && !h.clogged s p.dom && (ls.contains (p.lpkg, p.launch) || ls.length < 512) then
      modCore fun c => { c with amons := c.amons.filter fun e => e.1 != serial }
      modPkg fun x => { x with home := { x.home with accepted := x.home.accepted ++ [p] } }

def execAmonAccept (serial : Nat) (s : State) : Host.Outcome State Fault Refusal := event (amonAccept serial) s

/-- The 32 bytes of a deferred entry (Table 15.1). -/
def Deferred.bytes (d : Deferred) : Nat :=
  d.at_.va + d.at_.opnd % 2 ^ 64 * 2 ^ 64 +
    (d.at_.op + (if d.at_.wide then 2 ^ 4 else 0) + d.cause.code * 2 ^ 8 + d.core * 2 ^ 16 + d.launch * 2 ^ 32) * 2 ^ 128 +
    d.time * 2 ^ 192

def defRingOf (dom : Nat) : M DefRing := return lookupD DefRing.reset (← thePkg).home.defRings dom

def setDefRing (dom : Nat) (r : DefRing) : M Unit :=
  modPkg fun x => { x with home := { x.home with defRings := insertD DefRing.reset x.home.defRings dom r } }

/-- An entry written at the tail of a domain's queue, which has room. -/
def pushDeferred (d : Deferred) : M Unit := do
  let r ← defRingOf d.dom
  sysWrite (r.base + 32 * (r.tail % r.len)) 32 d.bytes
  setDefRing d.dom { r with tail := r.tail + 1, open_ := r.open_ ++ [(r.tail, d)] }

/-- A posted reduction enters its domain's deferred-operation queue, or its slice's buffer while that is full (R291,
R292); with both full it waits in its line's order. -/
def defer (p : Posted) (cause : Cause) : M Unit := do
  let t ← deviceTime
  let d : Deferred := { origin := if p.replay.isNone then some (p.pkg, p.serial) else none, at_ := p.at_, cause := cause, core := p.core, launch := p.launch, lpkg := p.lpkg, time := t,
                        dom := p.dom, report := none }
  let s := homeSlice p.at_.va
  if (← thePkg).home.clogged s p.dom then block
  if (← defRingOf p.dom).full then
    modPkg fun x => { x with home := { x.home with overflow := insertD [] x.home.overflow s (x.home.kept s ++ [d]) } }
  else pushDeferred d

/-- The right M of a posted reduction whose page proves to need it, read again where its check found none (R308). -/
def Posted.remote (p : Posted) : M Bool := do
  if p.mRight then return true else grantsM (BitVec.ofNat 64 p.at_.va) p.dom p.at_.va

/-- An open entry leaves its queue. -/
def closeDeferred (dom index : Nat) : M Unit := do
  let r ← defRingOf dom
  setDefRing dom { r with open_ := r.open_.filter fun e => e.1 != index }

/-- A posted reduction at its home slice: it performs there or at a peer, or joins a round of its group (R288, R322,
R371). A contribution waits for every earlier store and posted reduction of its stream (R373). The entry that a replay
resolves leaves its queue once the replay has performed, or has faulted again (R293). -/
def performPosted (p : Posted) : M Unit := do
  let va := p.at_.va
  let ea := BitVec.ofNat 64 va
  let go : M Unit := do
    match ← runHome ea ea (reach p.part va) with
    | .remote t =>
      if t.leaf.apt == 63 then
        if !(← p.remote) then raise .prot ea
        let g := lookupD Group.reset (← thePkg).fabric.groups (t.leaf.frame % 4096)
        if !g.valid || 4096 <= t.leaf.frame || g.dom != t.leaf.own then raise .owner ea
        if groupOp g.fmt != some p.at_.op || p.at_.wide then raise .remoteAtomic ea
        if p.replay.isNone && ((← coreAt p.pkg p.core).inflight.any (fun s => s.serial < p.serial) ||
            (ownPosted (← get) p.pkg p.core).any fun q => q.serial < p.serial) then block
        let _ ← atomicTurn (p.lpkg, p.launch) p.pkg (homeSlice va) va p.core
        modFabric fun x => { x with contribs := x.contribs ++
          [{ group := t.leaf.frame, elem := va % 4096, op := p, closed := false }] }
        return
    | .line _ => pure ()
    let m ← match ← attempt (locate ea ea true p.mRight va) with
      | .error (.raise .prot _) => p.remote
      | _ => pure p.mRight
    let (k, r) ← placeInTurn (locate ea ea true m va) fun r => atomicTurn (p.lpkg, p.launch) r.1 (homeSlice va) va p.core
    let _ ← runHomeAt k ea ea (performAtomic true r p.core p.dom p.at_)
  match ← attempt (atCore p.pkg p.core .A go) with
  | .ok _ => pure ()
  | .error (.raise c _) => defer p c
  | .error (.restart c _ _) => defer p c
  | .error s => throw s
  match p.replay with
  | some i => closeDeferred p.dom i
  | none => return

/-- ATOMIC_PERFORM (R288): the first accepted posted reduction of a line performs. An AMO or CAS performs when its unit
does. -/
def atomicPerform (line : Nat) : M Unit := do
  match (← thePkg).home.accepted.find? fun p => p.at_.va / 128 == line with
  | none => return
  | some p =>
    modPkg fun x => { x with home := { x.home with accepted := x.home.accepted.erase p } }
    performPosted p

def execAtomicPerform (line : Nat) (s : State) : Host.Outcome State Fault Refusal := event (atomicPerform line) s

/-- A deferred operation is dropped: its launch's status takes "late fault" before its record is written (R293). -/
def dropDeferred (d : Deferred) : M Unit := markLate d.lpkg d.launch

/-- The oldest entry kept for a domain, with its slice. -/
def Home.keptFor (h : Home) (dom : Nat) : Option (Nat × Deferred) :=
  h.overflow.findSome? fun e => (e.2.find? fun d => d.dom == dom).map fun d => (e.1, d)

/-- DEFERRED_RESOLVE (R293): the firmware consumes the entry at HEAD. TRANSLATE and OWNER are reported and wait for the
answer; any other cause drops the operation. A kept entry then enters the queue. -/
def deferredResolve (dom : Nat) : M Unit := do
  let r ← defRingOf dom
  match r.open_.find? fun e => e.1 == r.head with
  | none => return
  | some (i, d) =>
    if d.cause == .translate || d.cause == .owner then
      let n ← openReport d.cause (BitVec.ofNat 64 d.at_.va) (BitVec.ofNat 64 d.at_.va) dom d.core (.deferred i)
      let told (e : Nat × Deferred) : Nat × Deferred := if e.1 == i then (i, { e.2 with report := some n }) else e
      setDefRing dom { r with head := r.head + 1, open_ := r.open_.map told }
    else
      dropDeferred d
      setDefRing dom { r with head := r.head + 1, open_ := r.open_.filter fun e => e.1 != i }
    match (← thePkg).home.keptFor dom with
    | some (s, k) =>
      modPkg fun x => { x with home := { x.home with overflow := insertD [] x.home.overflow s ((x.home.kept s).erase k) } }
      pushDeferred k
    | none => return

def execDeferredResolve (dom : Nat) (s : State) : Host.Outcome State Fault Refusal := event (deferredResolve dom) s

/-- A resolved report replays a deferred operation with its domain's rights, as a new atomic that takes its place in the
line's order where it arrives (R293). -/
def replayDeferred (dom index : Nat) : M Unit := do
  match (← defRingOf dom).open_.find? fun e => e.1 == index with
  | none => return
  | some (_, d) =>
    let part := (← partOfDom dom).getD 0
    let me := (← read).pkg
    let p : Posted := { serial := 0, pkg := me, core := d.core, dom := dom, part := part, launch := d.launch, lpkg := d.lpkg,
                        mRight := false, replay := some index, at_ := d.at_ }
    match ← attempt (checkRightsFresh needWA dom d.at_.va) with
    | .ok m => modPkg fun x => { x with home := { x.home with accepted := x.home.accepted ++ [{ p with mRight := m }] } }
    | .error (.halt f) => throw (.halt f)
    | .error .block => block
    | .error (.raise c _) => defer p c; closeDeferred dom index
    | .error (.restart c _ _) => defer p c; closeDeferred dom index

/-! ### Fills and walks (R296, R314) -/

/-- LINE_FILL: a home slice fills a line; a fault installs nothing. -/
def lineFill (va : Nat) : M Unit := do
  if windowBase <= va then return
  let part ← thePart
  match ← attempt (runHome 0 0 (reach part va)) with
  | .error (.halt f) => throw (.halt f)
  | _ => return

def execLineFill (va : Nat) (s : State) : Host.Outcome State Fault Refusal := event (lineFill va) s

/-- PAGE_WALK: a walker installs a leaf; a walk that fails installs nothing (R317). -/
def pageWalk (va : Nat) : M Unit := do
  if windowBase <= va then return
  match ← attempt (runHome 0 0 (freeWalk va)) with
  | .error (.halt f) => throw (.halt f)
  | _ => return

def execPageWalk (va : Nat) (s : State) : Host.Outcome State Fault Refusal := event (pageWalk va) s

/-! ### The host (R39, Table 3.1) -/

/-- R406: the save area of a partition is reached from the PF and from the partition's own VF. -/
def Package.hostReaches (x : Package) (fn va : Nat) : Bool :=
  fn == 0 || x.ctl.parts.all fun p =>
    fn == p.1 + 1 || va < p.2.saveVa || p.2.saveVa + saveBytes * p.2.saveN <= va

/-- HOST_MEM_ACCESS: the host reads or writes an aligned 8-byte part of device memory, through the PF (function 0) or a VF
(function p + 1 for partition p); what a read gives leaves the machine. A fault leaves it unmade. -/
def hostMemAccess (acc : HostAccess) (va v : Nat) : M Unit := do
  if va % 8 != 0 || windowBase <= va || !(← thePkg).hostReaches acc.fn va then return
  let x : M Unit := if acc.isWrite then writeBytesNow 0 0 true 0 va 8 v else do let _ ← readBytes 0 0 true va 8
  match ← attempt x with
  | .error (.halt f) => throw (.halt f)
  | _ => return

def execHostMemAccess (acc : HostAccess) (va v : Nat) (s : State) : Host.Outcome State Fault Refusal :=
  event (hostMemAccess acc va v) s

/-! ### Tag errors (R304, R305) -/

/-- A running strand of a stopped domain leaves its core: what it has released performs, and its store buffer is discarded (R359,
R399). -/
def expel (core : Nat) : M Unit := do
  atCore (← read).pkg core .A do
    leaveReleased
    freeCore

/-- R399: every strand of a domain is retired with TAGLOSS, in whatever state it is, a gang's held end too (log 43), its
context is told, and it is refused work from then on. -/
def stopDomain (dom : Nat) : M Unit := do
  modCtl fun k => { k with doms := k.doms.map fun e => if e.1 == dom then (e.1, { e.2 with stopped := true }) else e }
  let x ← thePkg
  let live := x.sched.strands.filter fun s => s.dom == dom && !s.state.ended
  live.forM fun s => do
    let at_ := x.cores.filter fun c => c.2.strand.toNat == s.va && c.2.mode != .idle
    at_.forM fun c => expel c.1
    endAway s Cause.tagloss.code 0 false
  match ← ctxOfDom dom with
  | some c => postEvent c { blankEvent 4 with dom := dom, code := Cause.tagloss.code }
  | none => return

/-- TAG_ERROR (R304): an uncorrectable error in the tag of a line; `mirrorBad` when the mirror of a dirty tag has failed
too. -/
def tagError (line : Nat) (mirrorBad : Bool) : M Unit := do
  let h := (← thePkg).home
  match h.tags.find? fun t => t.line == line with
  | none => return
  | some t =>
    let lose : M Unit := modPkg fun x => { x with home := { x.home with
      tags := x.home.tags.filter fun t => t.line != line
      lostRefs := x.home.lostRefs ++ [t.dptr] } }
    if !t.dirty then lose
    else if mirrorBad then
      lose
      (lookupD [] h.dirtyBits (homeSlice (128 * line))).forM stopDomain

def execTagError (line : Nat) (mirrorBad : Bool) (s : State) : Host.Outcome State Fault Refusal :=
  event (tagError line mirrorBad) s

/-- The domains that a slice's dirty tags name. -/
def Home.dirtyOwners (h : Home) (slice : Nat) : List Nat :=
  ((h.tags.filter fun t => t.dirty && homeSlice (128 * t.line) == slice).map (·.wdom)).eraseDups

/-- DIRTY_BITMAP_SWEEP (R305): each slice's bitmap is rebuilt from its dirty tags. -/
def dirtyBitmapSweep : M Unit := do
  let t ← now
  modPkg fun x =>
    let slices := ((x.home.tags.filter (·.dirty)).map fun t => homeSlice (128 * t.line)).eraseDups
    let bits := slices.foldl (fun b k => insertD [] b k (x.home.dirtyOwners k)) []
    { x with home := { x.home with dirtyBits := bits }, service := { x.service with swept := t } }

def execDirtyBitmapSweep (s : State) : Host.Outcome State Fault Refusal := event dirtyBitmapSweep s

/-- RECONCILIATION_SWEEP (R304): the references that invalidated tags can no longer name are released. -/
def reconciliationSweep : M Unit := do
  let ids := (← thePkg).home.lostRefs
  modPkg fun x => { x with home := { x.home with lostRefs := [] } }
  runHome 0 0 (ids.forM releaseEntry)

def execReconciliationSweep (s : State) : Host.Outcome State Fault Refusal := event reconciliationSweep s

/-! ### Data errors (R413) -/

/-- A number added to a list that does not hold it. -/
def addOnce (l : List Nat) (n : Nat) : List Nat := if l.contains n then l else l ++ [n]

/-- DATA_ERROR: an error in data. Kind 0: an 8-byte part of main memory, by physical address; kind 1: a part of a line of the
shared cache, by address; kind 2: a part of the core's scratchpad, by offset; kind 4: a part of a line of the core's L1, by
address; kind 5: an error that was corrected, which is counted; any other: a register, queue or accumulator of the core, whose strand is retired; a gang's end is held, as every end by a fault is (R388), and one held
already retires now (log 43). -/
def dataError (kind at_ : Nat) : M Unit := do
  match kind with
  | 0 =>
    if at_ + 8 <= hbmBytes then
      modPkg fun x => { x with home := { x.home with hbmPois := addOnce x.home.hbmPois (at_ / 8) } }
  | 1 =>
    modPkg fun x =>
      match x.home.tags.find? fun t => t.line == at_ / 128 with
      | some t =>
        let upd (d : DataEntry) : DataEntry := if d.id == t.dptr then { d with pois := d.pois ||| 2 ^ (at_ / 8 % 16) } else d
        { x with home := { x.home with data := x.home.data.map upd } }
      | none => x
  | 2 =>
    let t ← now
    if at_ < scratchBytes then
      modCore fun c => { c with
        scratch := c.scratch.write (at_ / 8 * 8) 8 (Config.lostData t (at_ / 8)).toNat
        scratchPois := addOnce c.scratchPois (at_ / 8) }
  | 4 =>
    let k := (← thePkg).home.l1Owner (← read).core (at_ / 128)
    let upd (e : L1Line) : L1Line := if e.line == at_ / 128 then { e with pois := e.pois ||| 2 ^ (at_ / 8 % 16) } else e
    modPkg fun x => { x with home := { x.home with l1 := x.home.l1.map fun c => if c.1 == k then (c.1, c.2.map upd) else c } }
  | 5 => modService fun s => { s with corrected := s.corrected + 1 }
  | _ =>
    let c ← theCore
    match c.mode with
    | .idle => return
    | .held =>
      match ← gangMember with
      | some (a, i, k) => if (a.islands[i]?).any fun isl => isl.held.any fun q => q.1 == k then
          dropHeld a.id i k
          endHere Cause.poison.code
          departWith c.strand.toNat
      | none => return
    | .stopped _ =>
      match ← gangMember with
      | some _ => modStrand c.strand.toNat fun s => { s with ending := some Cause.poison.code }
      | none => retireFault Cause.poison.code
    | _ => retireFault Cause.poison.code

def execDataError (kind at_ : Nat) (s : State) : Host.Outcome State Fault Refusal := event (dataError kind at_) s

/-- 24 h, the period of the scrubs of main memory (R413). -/
def scrubPeriod : Nat := 24 * 3600 * 1000000000

/-- SCRUB (R413): the shared cache, which is scrubbed continuously, has been scrubbed up to now; so is main memory once its 24 h
are over. A corrected error is counted where it is found (DATA_ERROR) and changes nothing that is visible. -/
def scrub : M Unit := do
  let t ← now
  modService fun s => { s with
    cacheScrubbed := t
    scrubbed := if scrubPeriod <= t - s.scrubbed then t else s.scrubbed }

def execScrub (s : State) : Host.Outcome State Fault Refusal := event scrub s

end Sys2Proof.Machine
end

