-- ==== Sys2Proof/Machine/Complex.lean ====
section
/-!
DEFINITION. Sys2Proof/Machine/Complex.lean: the control complex: doorbells and registers, the control commands, range
invalidations, the page-service mailbox, fault answers, teardown, restore commands, and rack launch packets (spec 22; spec
16, R310, R318; spec 17, R327, R328; spec 18, R360 to R363; spec 20, R385).
-/

namespace Sys2Proof.Machine

/-! ### Registers and doorbells (R392, R393) -/

/-- Where a register of a context's page lies: the context and the offset in its page. Function 0 is the PF, which
reaches context 0; function p + 1 is partition p's VF, which reaches its partition's other contexts. -/
def pageOf (fn off : Nat) : M (Option (Nat × Nat)) := do
  if off < 0x1000 then return none
  let c := off / 0x1000 - 1
  match ← ctxAt c with
  | none => return none
  | some x =>
    let ok := if fn == 0 then c == 0 else c != 0 && x.part == fn - 1
    return if ok then some (c, off % 0x1000) else none

/-- A queue error (R394): one more guilt. -/
def queueError (c : Nat) : M Unit := addGuilt c

/-- The entries of a ring from its head to its tail are read, each once; a page that cannot be read is a queue error. -/
def readEntries (c q : Nat) : Nat → M Unit
  | 0 => return
  | n + 1 => do
    match ← ctxAt c with
    | none => return
    | some x =>
      match x.rings[q]? with
      | none => return
      | some r =>
        if r.head == r.tail || x.barred then return
        match ← sysRead (x.ringVa + (q * 2 ^ x.logn + r.head) * 128) 128 with
        | .error _ => queueError c
        | .ok v =>
          modCtx c fun y => { y with
            rings := y.rings.set q { r with head := (r.head + 1) % 2 ^ y.logn }
            fetched := y.fetched ++ [{ ring := q, index := r.head, bytes := BitVec.ofNat 1024 v }] }
          readEntries c q n

/-- DOORBELL (R393, R394): a host write of a ring's TAIL; the entries it covers are read. A barred context's doorbells, and
the PF's before READY (R418), are ignored. -/
def doorbell (fn off v : Nat) : M Unit := do
  match ← pageOf fn off with
  | none => return
  | some (c, o) =>
    match ← ctxAt c with
    | none => return
    | some x =>
      if o % 8 != 0 || x.rings.length <= o / 8 then return
      if c == 0 && !(← thePkg).service.ready then return
      let q := o / 8
      let tail := v % 2 ^ 12
      if 2 ^ x.logn <= tail then
        if !x.barred then queueError c
      else
        modCtx c fun y => { y with rings := y.rings.modify q fun r => { r with tail := tail } }
        readEntries c q (2 ^ x.logn)

def execDoorbell (fn off v : Nat) (s : State) : Host.Outcome State Fault Refusal := event (doorbell fn off v) s

/-- EVENT_RING_SPACE (R393): the host has consumed `n` entries of a context's event ring; waiting events are written. -/
def eventRingSpace (c n : Nat) : M Unit := do
  modCtx c fun x => { x with evHead := Nat.min x.evTail (x.evHead + n), interrupt := false }
  match ← ctxAt c with
  | some x => writeEvents c (x.evWaiting.length + 1)
  | none => return

def execEventRingSpace (c n : Nat) (s : State) : Host.Outcome State Fault Refusal := event (eventRingSpace c n) s

/-- Context 0's ring as the PF's registers at 0x0000, 0x0008 and 0x0010 configure it, in the layout of CTXCFG's operands
(log 26). -/
def HostCtx.pfRegister (x : HostCtx) (off v : Nat) : HostCtx :=
  match off with
  | 0 =>
    let logn := natBits v 29 26
    let loge := natBits v 33 30
    if natBits v 21 14 != 0 && 4 <= logn && logn <= 12 && 4 <= loge && loge <= 12 then
      { x with limit := natBits v 21 14, logn := logn, loge := loge, plugin := Config.hasPlugin 0
               rings := List.replicate (natBits v 25 22 + 1) { tail := 0, head := 0 } }
    else x
  | 8 => { x with ringVa := v }
  | 16 => { x with evVa := v }
  | _ => x

/-- REGISTER_WRITE: a host write to a register that is no doorbell: the PF configures context 0's ring; heads are
read-only, and a write of any other page is discarded (R392). -/
def registerWrite (fn off v : Nat) : M Unit := do
  if fn == 0 && off < 0x18 then modCtx 0 fun x => x.pfRegister off v

def execRegisterWrite (fn off v : Nat) (s : State) : Host.Outcome State Fault Refusal := event (registerWrite fn off v) s

/-! ### Control commands (R395) -/

/-- A dword of a command. -/
def cmdWord (b k : Nat) : Nat := bytesAt b (8 * k) 8

/-- Reason 2: dwords that a command does not name, or bits above those it names in the others, are not zero. -/
def cmdReserved (b : Nat) (named : List (Nat × Nat)) : Bool :=
  cmdWord b 0 / 2 ^ 8 != 0 || (List.range 15).any fun k =>
    match findAt named (k + 1) with
    | some bits => cmdWord b (k + 1) / 2 ^ bits != 0
    | none => cmdWord b (k + 1) != 0

/-- A control command's outcome: refused with a reason, performed with an ARG for its event, or still to perform. -/
inductive CmdEnd where
  | refused (reason : Nat)
  | done (arg : Nat)
  | later
  deriving DecidableEq, Repr

/-- A control command of a KIND at the head of a ring is validated and carried out; its event of KIND 6 follows once it has
performed. -/
def command (kind : Nat) (named : List (Nat × Nat)) (ctx ring : Nat) (act : HostCtx → Fetched → Nat → M CmdEnd) : M Unit := do
  match ← nextEntry ctx ring (· == kind) with
  | none => return
  | some (x, f) =>
    let b := f.bytes.toNat
    let r ← if cmdReserved b named then pure (.refused 2) else act x f b
    match r with
    | .refused n => refuse ctx f n
    | .done a => postEvent ctx { blankEvent 6 with ring := f.ring, index := f.index, arg := BitVec.ofNat 64 a }
    | .later => return

/-- The domains of a partition. -/
def Ctl.domsOf (k : Ctl) (part : Nat) : List Nat :=
  (k.doms.filter fun d => (findAt k.ctxs d.2.ctx).map (·.part) == some part).map (·.1)

/-- A domain has a strand that has not ended. -/
def Sched.liveIn (x : Sched) (dom : Nat) : Bool := x.strands.any fun s => s.dom == dom && !s.state.ended

/-- A context has a launch in flight. -/
def Sched.inFlight (x : Sched) (ctx : Nat) : Bool := x.launches.any fun l => l.ctx == ctx

/-! ### Partitions and contexts (R396, R397) -/

/-- The record of Table 22.5 in a command, none when it breaks its limits. -/
def parsePart (w : Nat → Nat) : Option PartRec :=
  let p : PartRec :=
    { base := natBits (w 0) 13 1, len := natBits (w 0) 27 14, stackMask := BitVec.ofNat 16 (natBits (w 0) 43 28),
      slice := natBits (w 0) 59 44, hsmask := BitVec.ofNat 64 (w 1), quota := natBits (w 2) 20 0,
      tsBase := natBits (w 2) 26 21, tsCount := natBits (w 2) 33 27,
      neigh := (List.range (natBits (w 3) 42 40)).map fun k => natBits (w 3) (10 * k + 9) (10 * k),
      saveVa := w 4, saveN := natBits (w 5) 31 0, recPages := natBits (w 6) 31 0 }
  let quotaOk := (List.range 4).all fun k => natBits p.quota (5 * k + 4) (5 * k) <= 24
  let ok :=
    natBits (w 0) 63 60 == 0 && 1 <= p.len && p.base + p.len <= 8192 && p.stackMask != 0 && (p.slice == 0 || 100 <= p.slice) &&
    p.hsmask != 0 && w 2 / 2 ^ 34 == 0 && p.tsCount <= 64 && p.tsBase + p.tsCount <= 64 && natBits (w 3) 42 40 <= 4 &&
    w 3 / 2 ^ 43 == 0 && p.saveVa % 4096 == 0 && 1 <= p.saveN && p.saveN <= 65536 && w 5 / 2 ^ 32 == 0 &&
    w 6 / 2 ^ 32 == 0 && w 7 == 0 && quotaOk
  if ok then some p else none

/-- R397: intervals, or table-slot runs on a shared base die, overlap; an empty run overlaps none. -/
def PartRec.clashes (p q : PartRec) : Bool :=
  overlaps p.base (p.base + p.len) q.base (q.base + q.len) ||
    (p.stackMask &&& q.stackMask != 0 && p.tsCount != 0 && q.tsCount != 0 &&
      overlaps p.tsBase (p.tsBase + p.tsCount) q.tsBase (q.tsBase + q.tsCount))

/-- The quota word of a slice for a partition's record: GUAR only in slices of HSMASK (R301). -/
def PartRec.quotaIn (p : PartRec) (slice : Nat) : Quota :=
  { guar := natBits p.quota 20 20 == 1 && p.hsmask.getLsbD (slice / 8), kv := natBits p.quota 19 15, act := natBits p.quota 14 10,
    wt := natBits p.quota 9 5, oth := natBits p.quota 4 0 }

/-- PARTCFG (R396). -/
def partcfg (ctx ring : Nat) : M Unit :=
  command 0x80 ((List.range 9).map fun k => (k + 1, 64)) ctx ring fun _ _ b => do
    let x ← thePkg
    let part := cmdWord b 1
    let valid := natBits (cmdWord b 2) 0 0 == 1
    let rec_ := parsePart fun k => cmdWord b (k + 2)
    let doms := x.ctl.domsOf part
    let busy := doms.any x.sched.liveIn || x.sched.launches.any fun l => l.part == part
    if ctx != 0 then return .refused 12
    if 63 < part then return .refused 13
    match rec_, valid with
    | none, true => return .refused 13
    | some p, true =>
      if !(← systemOwned p.saveVa (saveBytes * p.saveN)) then return .refused 13
      if x.ctl.parts.any fun q => q.1 != part && p.clashes q.2 then return .refused 13
      if busy then return .refused 14
      modCtl fun k => { k with parts := setAt k.parts part p }
      modPkg fun x => { x with home := { x.home with
        quotas := (List.range 512).foldl (fun qs s => insertD Quota.reset qs (64 * s + part) (p.quotaIn s)) x.home.quotas } }
      return .done 0
    | _, false =>
      if busy || !doms.isEmpty then return .refused 14
      modCtl fun k => { k with parts := dropAt k.parts part }
      return .done 0

def execPartcfg (ctx ring : Nat) (s : State) : Host.Outcome State Fault Refusal := event (partcfg ctx ring) s

/-- CTXCFG (R392): the rings and the event ring lie in pages of domain 0. -/
def ctxcfg (ctx ring : Nat) : M Unit :=
  command 0x81 [(1, 34), (2, 64), (3, 64)] ctx ring fun _ _ b => do
    let w := cmdWord b 1
    let c := natBits w 7 0
    let part := natBits w 13 8
    let limit := natBits w 21 14
    let n := natBits w 25 22 + 1
    let logn := natBits w 29 26
    let loge := natBits w 33 30
    let x ← thePkg
    if ctx != 0 then return .refused 12
    if c == 0 || limit == 0 || logn < 4 || 12 < logn || loge < 4 || 12 < loge || (findAt x.ctl.parts part).isNone then
      return .refused 13
    let owned := (← systemOwned (cmdWord b 2) (n * 128 * 2 ^ logn)) && (← systemOwned (cmdWord b 3) (32 * 2 ^ loge))
    if !owned then return .refused 13
    if x.sched.inFlight c then return .refused 14
    let old := (findAt x.ctl.ctxs c).getD HostCtx.reset
    let y : HostCtx := { HostCtx.reset with
      part := part, limit := limit, logn := logn, loge := loge, ringVa := cmdWord b 2, evVa := cmdWord b 3
      rings := List.replicate n { tail := 0, head := 0 }, guilt := old.guilt, barred := old.barred, plugin := Config.hasPlugin c }
    modCtl fun k => { k with ctxs := setAt k.ctxs c y }
    return .done 0

def execCtxcfg (ctx ring : Nat) (s : State) : Host.Outcome State Fault Refusal := event (ctxcfg ctx ring) s

/-- CTXRESET (R394). -/
def ctxreset (ctx ring : Nat) : M Unit :=
  command 0x82 [(1, 64)] ctx ring fun _ _ b => do
    let c := cmdWord b 1
    if ctx != 0 then return .refused 12
    if (← ctxAt c).isNone then return .refused 13
    modCtx c fun x => { x with
      guilt := 0, barred := false, rings := x.rings.map fun r => { r with head := r.tail }
      fetched := if c == ctx then x.fetched else [] }
    return .done 0

def execCtxreset (ctx ring : Nat) (s : State) : Host.Outcome State Fault Refusal := event (ctxreset ctx ring) s

/-! ### Domains, trust and keys (R150, R307, R400) -/

/-- The open entries of a domain's deferred-operation queue, and those that slices keep for it, are dropped, as by a refusal
(R293); the queue is then the one given. -/
def dropOpen (dom : Nat) (ring : DefRing) : M Unit := do
  (← defRingOf dom).open_.forM fun e => do
    dropDeferred e.2
    modCtl fun k => { k with reports := k.reports.filter fun q => some q.id != e.2.report }
  (← thePkg).home.overflow.forM fun o => (o.2.filter fun d => d.dom == dom).forM dropDeferred
  modPkg fun x => { x with home := { x.home with
    overflow := (x.home.overflow.map fun o => (o.1, o.2.filter fun d => d.dom != dom)).filter fun o => !o.2.isEmpty } }
  setDefRing dom ring

/-- DOMCFG (R307). What becomes of the domain's open deferred operations is the model's choice (log 100). -/
def domcfg (ctx ring : Nat) : M Unit :=
  command 0x83 ((1, 19) :: (List.range 9).map fun k => (k + 2, 64)) ctx ring fun _ _ b => do
    let w := cmdWord b
    let dom := natBits (w 1) 12 0
    let cap := natBits (w 1) 18 13
    let len := w 7
    let x ← thePkg
    let old := findAt x.ctl.doms dom
    match old with
    | some d => if d.ctx != ctx then return .refused 12
    | none => pure ()
    let bad :=
      47 < cap || w 2 % 16 != 0 || windowBase <= w 2 || 2 ^ 20 < w 3 || w 4 % 64 != 0 || w 6 % 32 != 0 || len < 64 || 65536 < len ||
      2 ^ len.log2 != len || w 8 % 64 != 0 || w 9 / 2 ^ 57 != 0 || w 9 % 4096 != 0 || w 10 / 2 ^ 20 != 0
    if bad then return .refused 13
    if x.sched.liveIn dom then return .refused 14
    let ring_ := lookupD DefRing.reset x.home.defRings dom
    let used := match old with
      | some d => if d.pool.va == w 4 then d.pool.used.filter (· < w 5) else []
      | none => []
    let e : DomEntry :=
      { ctx := ctx, cap := cap, drtVa := w 2, drtCount := w 3, dirbase := BitVec.ofNat 64 (w 9), tvec := BitVec.ofNat 64 (w 10),
        pool := { va := w 4, n := w 5, used := used }, mailbox := w 8, stopped := false }
    modCtl fun k => { k with doms := setAt k.doms dom e }
    if ring_.base != w 6 || ring_.len != len then dropOpen dom { DefRing.reset with base := w 6, len := len }
    return .done 0

def execDomcfg (ctx ring : Nat) (s : State) : Host.Outcome State Fault Refusal := event (domcfg ctx ring) s

/-- DOMFREE: unbinds a domain without live strands, and clears its table slots and key binding. -/
def domfree (ctx ring : Nat) : M Unit :=
  command 0x84 [(1, 64)] ctx ring fun _ _ b => do
    let dom := cmdWord b 1
    let x ← thePkg
    match findAt x.ctl.doms dom with
    | none => return .refused 13
    | some d =>
      if d.ctx != ctx then return .refused 12
      if x.sched.liveIn dom then return .refused 14
      dropOpen dom DefRing.reset
      modCtl fun k => { k with
        doms := dropAt k.doms dom
        keys := k.keys.filter fun s => s.2.dom != dom }
      modPkg fun x => { x with bankSlots := x.bankSlots.filter fun s => s.2.owner != dom }
      return .done 0

def execDomfree (ctx ring : Nat) (s : State) : Host.Outcome State Fault Refusal := event (domfree ctx ring) s

/-- The 32 bytes at 0x10 of a command. -/
def cmdKey (b : Nat) : Nat := bytesAt b 0x10 32

/-- TRUST (R150). -/
def trust (ctx ring : Nat) : M Unit :=
  command 0x85 [(1, 17), (2, 64), (3, 64), (4, 64), (5, 64)] ctx ring fun _ _ b => do
    let w := cmdWord b 1
    let dom := natBits w 12 0
    let slot := natBits w 15 13
    if ctx == 0 || (← ctxOfDom dom) != some ctx then return .refused 12
    let clear := natBits w 16 16 == 1
    modCtl fun k =>
      let rest := k.trust.filter fun t => t.1 != (dom, slot)
      { k with trust := if clear then rest else ((dom, slot), cmdKey b) :: rest }
    return .done 0

def execTrust (ctx ring : Nat) (s : State) : Host.Outcome State Fault Refusal := event (trust ctx ring) s

/-- KEYSET (R400): at most one valid slot is bound to a domain. -/
def keyset (ctx ring : Nat) : M Unit :=
  command 0x8C [(1, 22), (2, 64), (3, 64), (4, 64), (5, 64)] ctx ring fun _ _ b => do
    let w := cmdWord b 1
    let slot := natBits w 7 0
    let dom := natBits w 20 8
    let k := (← thePkg).ctl
    if ctx != 0 then return .refused 12
    if natBits w 21 21 == 1 then
      modCtl fun k => { k with keys := dropAt k.keys slot }
      return .done 0
    if k.keys.any fun s => s.1 != slot && s.2.valid && s.2.dom == dom then return .refused 13
    modCtl fun k => { k with keys := setAt k.keys slot { key := cmdKey b, dom := dom, valid := true } }
    return .done 0

def execKeyset (ctx ring : Nat) (s : State) : Host.Outcome State Fault Refusal := event (keyset ctx ring) s

/-! ### Range invalidation (R310, R318, R385) -/

/-- A registered region pins a page of a range. -/
def Fabric.pins (x : Fabric) (lo hi : Nat) : Bool := x.regions.any fun r => overlaps lo hi r.va (r.va + 4096 * r.pages)

/-- An invalidation starts: the released stores in its range perform first, under the translation that admitted them;
then steps 2 and 3 of R318. -/
def startInvalidation (lo hi : Nat) (job : Job) : M Unit := do
  let p := (← read).pkg
  let x ← thePkg
  let hit (c : Core) : Bool := c.inflight.any fun s => overlaps lo hi s.va (s.va + s.n)
  (x.cores.filter fun c => hit c.2).forM fun c => atCore p c.1 .A performReleased
  let id := (← thePkg).ctl.nextInval
  modCtl fun k => { k with nextInval := id + 1, jobs := k.jobs ++ [(id, job)] }
  runHome 0 0 (invalidateRange lo hi)
  modPkg fun x => { x with home := { x.home with invals := x.home.invals ++ [{ id := id, lo := lo, hi := hi }] } }

/-- RANGEINV (R318): refused where a valid leaf of the range has an owner outside the partition's domains, or a registered
region pins a page. -/
def rangeinv (ctx ring : Nat) : M Unit :=
  command 0x86 [(1, 64), (2, 64)] ctx ring fun x f b => do
    let va := cmdWord b 1
    let n := cmdWord b 2
    if ctx == 0 then return .refused 12
    if va % 4096 != 0 || n == 0 || 2 ^ 32 < n || windowBase < va + 4096 * n then return .refused 13
    let k := (← thePkg).ctl
    let mine := k.domsOf x.part
    let bad ← foreignLeaf mine (va + 4096 * n) n va
    if bad || (← thePkg).fabric.pins va (va + 4096 * n) then return .refused 13
    startInvalidation va (va + 4096 * n) (.command ctx f.ring f.index)
    return .later

def execRangeinv (ctx ring : Nat) (s : State) : Host.Outcome State Fault Refusal := event (rangeinv ctx ring) s

/-- PLBSHOOT (R310): SYS.PLBINV on every core of the partition. -/
def plbshoot (ctx ring : Nat) : M Unit :=
  command 0x87 [(1, 64), (2, 64)] ctx ring fun x _ b => do
    let va := cmdWord b 1
    let len := cmdWord b 2
    if ctx == 0 then return .refused 12
    if va % 4096 != 0 || len % 4096 != 0 then return .refused 13
    let k := (← thePkg).ctl
    let hit (e : PlbEntry) : Bool := len == 0 || overlaps va (va + len) e.base (e.base + e.bytes)
    let shot (c : Nat × Core) : Nat × Core :=
      if k.partOf c.1 == some x.part then (c.1, { c.2 with plb := c.2.plb.filter fun e => !hit e }) else c
    modPkg fun y => { y with cores := y.cores.map shot }
    return .done 0

def execPlbshoot (ctx ring : Nat) (s : State) : Host.Outcome State Fault Refusal := event (plbshoot ctx ring) s

/-- The ranges of translated memory that a command touches, each with the detail of its side. -/
def Command.ranges (k : Command) : List (Int × Int × Nat) :=
  let w (n : Nat) : Nat := (k.args.getD n 0).toNat
  let span (a n d : Nat) : Int × Int × Nat := ((a : Int), (a : Int) + n, d)
  match k.engine with
  | .copy =>
    match k.op with
    | 0x72 => [span (w 1) (w 2) 1, span (w 0) (w 2) 2]
    | 0x74 => [span (w 0) (w 2) 2]
    | _ =>
      match shapeOf (k.args.drop 2) with
      | some sh =>
        let ms := shapeMoves sh (w 0) (w 1)
        let side (f : Move → Option Nat) (d : Nat) : List (Int × Int × Nat) := ms.filterMap fun m => (f m).map fun a => span a m.n d
        side (·.src) 1 ++ (if sh.mode == 2 then [] else side (·.dst) 2)
      | none => []
  | .fabric =>
    let n := k.fabricBytes
    if k.op == 0x79 then [span (w 1) n 1, span (w 0) n 2] else [span (w 1) n 1, span (w 0) n 2]
  | .bank =>
    let d := bankDesc fun n => w n
    let pages (ps : List PageUse) : List (Int × Int × Nat) := ps.map fun p => span p.va 4096 0
    if k.op == 0x6C then pages (bmvPages d)
    else if k.op == 0x6E then
      pages (((blayBlocks d).flatMap fun b => pageUses needW none (d.blockVa b.1 b.2) 2048) ++
        (blayRows d).flatMap fun r => pageUses needR none r.1 (r.2 - r.1))
    else if w 0 == 0 then []
    else [span (w 0) 1024 0]

/-- A BTAB that has loaded a slot, and has others to load (R265). -/
def Command.writing (k : Command) : Bool :=
  k.engine == .bank && (match btabHeld k with
    | some (left, _) => left != natBits (k.args.getD 1 0).toNat 31 16
    | none => false)

/-- A command touches a range. -/
def Command.touches (k : Command) (lo hi : Nat) : Option Nat :=
  (k.ranges.find? fun r => (lo : Int) < r.2.1 && r.1 < (hi : Int) && r.1 < r.2.1).map (·.2.2)

/-- A command of the core that has still to access the range ends with TRANSLATE, its side in the detail (R265, R285). -/
def settleCommands (lo hi : Nat) : M Unit := do
  (← theCore).cmds.forM fun k =>
    match k.touches lo hi with
    | some side => commandDone k.serial (statusWord .translate side)
    | none => return

/-- The stack that holds a frame (R251). -/
def frameStack (f : Nat) : Nat := f / 2 ^ 24

/-- The bank of a 2 KiB block of a stack: consecutive blocks rotate over its 256 banks (R251). -/
def bankOfBlock (stack block : Nat) : Nat := (Config.firstBank stack + block) % 256

/-- A block of a frame lies in a bank of a stack. -/
def inBank (stack bank f : Nat) : Bool :=
  frameStack f == stack && [0, 1].any fun k => bankOfBlock stack (2 * (f % 2 ^ 24) + k) == bank

/-- Frames given back to a package's free list (R328), but for those of a fenced bank (R410). -/
def giveFrames (fs : List (Nat × Nat)) : M Unit :=
  fs.forM fun f => modPkgAt f.1 fun x =>
    let fenced := x.service.banks.any fun b => inBank b.1 b.2 f.2
    let free := if fenced || x.ctl.freeFrames.contains f.2 then x.ctl.freeFrames else insertKey (fun n : Nat => n) f.2 x.ctl.freeFrames
    { x with ctl := { x.ctl with freeFrames := free } }

/-- The done word of a mailbox, then its KIND cleared (R328). -/
def mailboxDone (dom doneVa v : Nat) : M Unit := do
  match findAt (← thePkg).ctl.doms dom with
  | none => return
  | some d =>
    if doneVa % 8 == 0 then
      let _ ← sysWriteBy dom doneVa 8 v
    let _ ← sysWriteBy dom d.mailbox 8 0

/-- RANGE_INVALIDATION_PERFORM (R318): an invalidation performs, and what waited for it goes on. It waits for a BTAB that
has begun to load its slots (R265); translations read while it ran are dropped too. -/
def rangeInvalidationPerform (id : Nat) : M Unit := do
  let x ← thePkg
  let p := (← read).pkg
  match x.home.invals.find? fun i => i.id == id with
  | none => return
  | some i =>
    if x.cores.any fun c => c.2.cmds.any fun k => k.writing && (k.touches i.lo i.hi).isSome then return
    x.cores.forM fun c => atCore p c.1 .A (settleCommands i.lo i.hi)
    runHome 0 0 (dropTranslations i.lo i.hi)
    modPkg fun x => { x with home := { x.home with invals := x.home.invals.filter fun j => j.id != id } }
    let job := findAt x.ctl.jobs id
    modCtl fun k => { k with jobs := dropAt k.jobs id }
    match job with
    | some (.command ctx ring index) => postEvent ctx { blankEvent 6 with ring := ring, index := index }
    | some (.mailbox dom doneVa freed) =>
      giveFrames freed
      mailboxDone dom doneVa 1
    | _ => return

def execRangeInvalidationPerform (id : Nat) (s : State) : Host.Outcome State Fault Refusal :=
  event (rangeInvalidationPerform id) s

/-! ### The page-service mailbox (R327, R328) -/

/-- A mailbox entry. -/
structure Mail where
  kind : Nat
  stack : Nat
  va : Nat
  pages : Nat
  doneVa : Nat
  deriving DecidableEq, Repr

/-- The entry of a domain's mailbox, unless an entry of it is being served. -/
def readMail (dom : Nat) : M (Option (Mail × Bool)) := do
  let k := (← thePkg).ctl
  let busy := k.jobs.any fun j => match j.2 with
    | .mailbox d _ _ => d == dom
    | _ => false
  match findAt k.doms dom with
  | none => return none
  | some d =>
    if busy || d.mailbox == 0 then return none
    match ← sysRead d.mailbox 64 with
    | .error _ => return none
    | .ok v =>
      let w (n : Nat) : Nat := bytesAt v (8 * n) 8
      let m : Mail := { kind := natBits (w 0) 7 0, stack := natBits (w 0) 15 8, va := w 1, pages := w 2, doneVa := w 3 }
      if m.kind == 0 then return none
      let stackMask := ((findAt k.ctxs d.ctx).bind fun x => findAt k.parts x.part).elim 0 (·.stackMask.toNat)
      let ok := w 0 / 2 ^ 16 == 0 && m.va % 4096 == 0 && 1 <= m.pages && m.pages <= 512 && m.doneVa % 8 == 0 &&
        v / 2 ^ 256 == 0 && m.va + 4096 * m.pages <= windowBase &&
        (if m.kind == 1 then m.stack < 16 && stackMask / 2 ^ m.stack % 2 == 1 else m.kind == 2 && m.stack == 0)
      return some (m, ok)

/-- The leaves of an entry's pages, when every page is valid, of the mailbox's domain, and not pinned. -/
def mailLeaves (dom : Nat) (m : Mail) : M (Option (List (Nat × Nat × Nat × Nat))) := do
  if (← thePkg).fabric.pins m.va (m.va + 4096 * m.pages) then return none
  let ls ← (List.range m.pages).mapM fun i => do
    let va := m.va + 4096 * i
    return (← leafAt va).map fun l => (va, l)
  let good : Bool := ls.all fun l => match l with
    | some (_, _, e, _) => natBits e 25 13 == dom
    | none => false
  if good then
    return some (ls.filterMap id)
  else return none

/-- A leaf entry, a FOT entry or a page written to main memory by a control core; cached lines of it are written back and
dropped first, L1 copies with them, and the parts that are written whole lose their poison (R413). -/
def writeTable (pa n v : Nat) : M Unit := do
  if hbmBytes < pa + n then throw (.halt .noSuchFrame)
  runHome 0 0 do
    let ts := (← get).tags.filter fun t => overlaps pa (pa + n) t.pa (t.pa + 128)
    ts.forM dropTag
    modify fun h => { h with
      l1 := h.l1.map fun c => (c.1, c.2.filter fun e => !overlaps pa (pa + n) e.pa (e.pa + 128))
      hbm := h.hbm.write pa n v
      hbmPois := h.hbmPois.filter fun p => !(pa <= 8 * p && 8 * p + 8 <= pa + n) }

/-- The 4 KiB of a page as the peer that its leaf names holds them, with the peer; none when the peer does not answer. -/
def peerPage (va : Nat) (l : Leaf) : M (Option (Nat × Nat)) := do
  let f := (← thePkg).fabric
  let ap := lookupD Aperture.reset f.apertures l.apt
  if !ap.valid || ap.lost || ap.scaleOut || (lookupD [] f.routes ap.pkg).isEmpty then return none
  waitForRoute ap.pkg
  let p := peerOf (← read).pkg ap.pkg
  let part ← thePart
  let line (v i : Nat) : M Nat := do
    let a := va + 128 * i
    let b ← runHomeAt p 0 0 (do readRef (← reachHanded part a { base := va, leaf := l }) a 128)
    return v + b * 2 ^ (1024 * i)
  match ← attempt ((List.range 32).foldlM line 0) with
  | .ok v => return some (p, v)
  | .error (.halt x) => throw (.halt x)
  | .error .block => block
  | .error _ => return none

/-- One page moved from a peer's frame into a free local frame: the peer frame, which is freed later. -/
def movePage (stack : Nat) (l : Nat × Nat × Nat × Nat) : M (Option (Nat × Nat)) := do
  let (va, at_, e, level) := l
  match ← peerPage va (leafOf e level), (← thePkg).ctl.freeFrames.find? fun f => frameStack f == stack with
  | some (p, bytes), some f =>
    modCtl fun k => { k with freeFrames := k.freeFrames.filter (· != f) }
    writeTable (4096 * f) 4096 bytes
    writeTable ((← thePkg).home.fotBase + 2 * f) 2 (natBits e 25 13)
    writeTable at_ 8 (e - natBits e 57 26 * 2 ^ 26 + f * 2 ^ 26 - natBits e 12 7 * 2 ^ 7)
    return some (p, natBits e 57 26)
  | _, _ => return none

/-- MIGRATE's pages that a peer holds; none when one cannot be moved: a large page, or one whose peer does not answer
(log 27). -/
def peerPages (ls : List (Nat × Nat × Nat × Nat)) : M (Option (List (Nat × Nat × Nat × Nat))) := do
  let far := ls.filter fun l => let a := natBits l.2.2.1 12 7; 1 <= a && a <= 62
  let bad ← far.anyM fun l => do return l.2.2.2 != 1 || (← peerPage l.1 (leafOf l.2.2.1 1)).isNone
  return if bad then none else some far

/-- MIGRATE (R328): an entry of KIND 1, or one refused as malformed. -/
def migrate (dom : Nat) : M Unit := do
  match ← readMail dom with
  | none => return
  | some (m, ok) =>
    if m.kind == 2 then return
    if !ok then mailboxDone dom m.doneVa 2
    else
      match ← mailLeaves dom m with
      | none => mailboxDone dom m.doneVa 4
      | some ls =>
        let free := ((← thePkg).ctl.freeFrames.filter fun f => frameStack f == m.stack).length
        if free < m.pages then mailboxDone dom m.doneVa 3
        else
          match ← peerPages ls with
          | none => mailboxDone dom m.doneVa 4
          | some far =>
            let hi := m.va + 4096 * m.pages
            startInvalidation m.va hi .plain
            let freed ← far.mapM (movePage m.stack)
            let peers := (freed.filterMap fun f => f.map (·.1)).eraseDups
            peers.forM fun p => runHomeAt p 0 0 (invalidateRange m.va hi)
            modCtl fun k => { k with jobs := k.jobs.map fun j =>
              if j.1 + 1 == k.nextInval then (j.1, .mailbox dom m.doneVa (freed.filterMap id)) else j }

def execMigrate (dom : Nat) (s : State) : Host.Outcome State Fault Refusal := event (migrate dom) s

/-- SETRAP (R328): an entry of KIND 2. -/
def setrap (dom : Nat) : M Unit := do
  match ← readMail dom with
  | none => return
  | some (m, ok) =>
    if m.kind != 2 then return
    if !ok then mailboxDone dom m.doneVa 2
    else
      match ← mailLeaves dom m with
      | none => mailboxDone dom m.doneVa 4
      | some ls =>
        startInvalidation m.va (m.va + 4096 * m.pages) (.mailbox dom m.doneVa [])
        ls.forM fun l => writeTable l.2.1 8 (if natBits l.2.2.1 5 5 == 1 then l.2.2.1 else l.2.2.1 + 2 ^ 5)

def execSetrap (dom : Nat) (s : State) : Host.Outcome State Fault Refusal := event (setrap dom) s

/-! ### Fault answers (R169, R293, R398) -/

/-- A strand that waits off its core is ready again. -/
def wakeStrand (va : Nat) (f : Strand → Strand) : M Unit := do
  setStrand va fun s => { f s with state := .ready }
  enqueue va

/-- A strand's report answered: it is READY to restart, in its queue or in place (Table 18.3); refused, its cause is raised at the
unit where it restarts (R169, R171, log 45). A strand that has never run ends with the cause. -/
def answerStrand (s : Strand) (r : Report) (st : Strm) (refused : Bool) : M Unit := do
  let p := (← read).pkg
  let told (o : Strand) : Strand :=
    { o with owed := o.owed ++ if refused then [{ cause := r.cause, ea := r.ea, stream := st }] else [] }
  let atHome : M Unit :=
    if s.state == .suspCode then
      (if refused && s.miss.isNone then do endAway s r.cause.code 0 (← strandTorn s) else wakeStrand s.va told)
    else if s.state == .suspInput && s.savedAt.isNone then wakeStrand s.va told
    else modStrand s.va fun o => { told o with kept := o.kept.map fun k => { k with pending := none } }
  match s.onCore with
  | none => atHome
  | some c =>
    match (← coreAt p c).mode with
    | .resolving _ => setStrand s.va fun o => { told o with state := .ready }
    | .stopped (some _) =>
      modCoreAt p c fun k => { k with mode := .stopped none }
      setStrand s.va fun o => { told o with state := .ready }
    | _ => atHome

/-- FAULTRES (R398): a report resolved or refused. -/
def faultres (ctx ring : Nat) : M Unit :=
  command 0x88 [(1, 33)] ctx ring fun _ _ b => do
    let n := natBits (cmdWord b 1) 31 0
    let refused := natBits (cmdWord b 1) 32 32 == 1
    let k := (← thePkg).ctl
    if ctx == 0 then return .refused 12
    match k.reports.find? fun r => r.id == n with
    | none => return .refused 13
    | some r =>
      if (← ctxOfDom r.dom) != some ctx then return .refused 12
      modCtl fun k => { k with reports := k.reports.filter fun r => r.id != n }
      match r.who with
      | .strand va _ st =>
        match ← findStrand va with
        | some s => if !s.state.ended then answerStrand s r st refused
        | none => pure ()
      | .deferred i =>
        if refused then
          match (← defRingOf r.dom).open_.find? fun e => e.1 == i with
          | some e => dropDeferred e.2
          | none => pure ()
          closeDeferred r.dom i
        else replayDeferred r.dom i
      | .command => pure ()
      return .done 0

def execFaultres (ctx ring : Nat) (s : State) : Host.Outcome State Fault Refusal := event (faultres ctx ring) s

/-! ### Teardown (R360) -/

/-- A strand of a launch that is torn down, on the core's package: one that is not running is cancelled at once. -/
def tearStrand (s : Strand) : M Unit := do
  let p := (← read).pkg
  match s.onCore with
  | none => if !s.state.ended then endAway s 0 0 true
  | some c =>
    let k ← coreAt p c
    match s.state, k.mode with
    | .suspInput, .idle => if s.bound.isNone then endAway s 0 0 true
    | _, .stopped _ => return
    | .suspInput, _ => cancelOn c
    | .suspCode, _ => cancelOn c
    | .preempted, _ => cancelOn c
    | .suspMsg, _ => cancelOn c
    | .ready, _ => cancelOn c
    | _, _ => return
where
  cancelOn (c : Nat) : M Unit := do
    expel c
    endAway s 0 0 true

/-- The deferred operations of a launch of this package that await their reports are dropped, wherever they wait (R293). -/
def tearDeferred (launch : Nat) : M Unit := do
  let me := (← read).pkg
  (← get).pkgs.forM fun q => atCore q.1 0 .A (q.2.home.defRings.forM fun r => r.2.open_.forM fun e => do
    if e.2.lpkg == me && e.2.launch == launch && e.2.report.isSome then
      dropDeferred e.2
      closeDeferred r.1 e.1
      modCtl fun k => { k with reports := k.reports.filter fun q => some q.id != e.2.report })

/-- A launch once it is torn down: nothing more of it is created. -/
def Launch.teared (l : Launch) : Launch :=
  { l with torn := true, toCreate := [], graph := l.graph.map fun g => (g.1, { g.2 with stopped := true, toStart := [] }) }

/-- One launch torn down. -/
def tearLaunch (id : Nat) : M Unit := do
  let me := (← read).pkg
  setLaunch id Launch.teared
  let d ← get
  d.pkgs.forM fun k => atCore k.1 0 .A (do
    (k.2.sched.strands.filter fun s => s.launch == id && s.lpkg == me).forM tearStrand)
  tearDeferred id

/-- A launch that a plug-in holds is torn down: it is accepted with nothing to create, and completes CANCELLED. -/
def tearHeld (ctx ring : Nat) : M Unit := do
  let mine (h : Nat × Accepted) : Bool := h.1 == ctx && h.2.launch.ring == ring
  let held := (← thePkg).ctl.plugHeld.filter mine
  modCtl fun k => { k with plugHeld := k.plugHeld.filter fun h => !mine h }
  held.forM fun h => proceed { h.2 with launch := h.2.launch.teared, islands := [] }

/-- TEARDOWN (R360). -/
def teardown (ctx ring : Nat) : M Unit :=
  command 0x89 [(1, 4)] ctx ring fun _ _ b => do
    let q := cmdWord b 1
    if ctx == 0 then return .refused 12
    let ls := (← thePkg).sched.launches.filter fun l => l.ctx == ctx && l.ring == q
    ls.forM fun l => tearLaunch l.id
    tearHeld ctx q
    return .done 0

def execTeardown (ctx ring : Nat) (s : State) : Host.Outcome State Fault Refusal := event (teardown ctx ring) s

/-! ### PREEMPT and RESTORE (R403, R404, R407) -/

/-- The cores that run strands of a launch. -/
def Dev.launchCores (d : Dev) (p id : Nat) : List (Nat × Nat) :=
  d.pkgs.flatMap fun k =>
    (k.2.sched.strands.filter fun s => s.launch == id && s.lpkg == p).filterMap fun s => s.onCore.map fun c => (k.1, c)

/-- PREEMPT (R407): every core running a strand of the launch is stopped, and one that a slice end has stopped already waits for a
RESTORE too; its event waits for the images of them all. It waits for a strand that has not entered its landing yet. -/
def preempt (ctx ring : Nat) : M Unit :=
  command 0x8A [(1, 32)] ctx ring fun _ f b => do
    let id := cmdWord b 1
    if ctx == 0 then return .refused 12
    match ← findLaunch id with
    | none => return .refused 13
    | some l =>
      if l.ctx != ctx then return .refused 12
      let d ← get
      let all := d.launchCores (← read).pkg id
      if all.any fun q => ((d.pkg q.1).core q.2).mode == .idle && (d.pkg q.1).sched.strands.any fun s =>
          s.onCore == some q.2 && s.state == .running then block
      let cs := all.filter fun q => ((d.pkg q.1).core q.2).stoppable
      if !slotsSuffice d cs then return .refused 14
      cs.forM fun q => atCore q.1 q.2 .A (stopCore true)
      let e ← get
      let stopped := all.filter fun q => ((e.pkg q.1).core q.2).stopping
      stopped.forM fun q => modCoreAt q.1 q.2 fun c => { c with byHost := true }
      let left := stopped.map fun q => (q.1, ((e.pkg q.1).core q.2).strand.toNat)
      if left.isEmpty then return .done id
      modCtl fun k => { k with preempts := k.preempts ++ [{ ctx := ctx, ring := f.ring, index := f.index, launch := id, left := left }] }
      return .later

def execPreempt (ctx ring : Nat) (s : State) : Host.Outcome State Fault Refusal := event (preempt ctx ring) s

/-- A refused restore that a command asked for: an event of KIND 1 or 3 (R404). -/
def refuseRestore (ctx : Nat) (f : Fetched) (va : Nat) : Refused → M Unit
  | .reason n => refuse ctx f n
  | .image c dom =>
    guiltEvent ctx { blankEvent 3 with code := c.code, ring := f.ring, index := f.index, arg := BitVec.ofNat 64 va, dom := dom }

/-- An accepted RESTORE of a gang's member: the gang is placed all together, the other members from their save slots. -/
def restoreGang (s : Strand) (h : Header) (v : Nat) (plan : Plan) : M (Option (Nat × Refused)) := do
  match ← checkPlan (plan.filter fun q => q.2.2.va != s.va) with
  | .error (_, _, va, r) => return some (va, r)
  | .ok xs =>
    let e ← read
    modify fun d => { d with arcs := d.arcs.map fun a => { a with islands := a.islands.map (Island.placed plan) } }
    fuseQuad e.core s
    let mine := (plan.find? fun q => q.2.2.va == s.va).map fun q => q.2.1
    atCore e.pkg (mine.getD e.core) .A (placeImage (mine.getD e.core) s h v)
    xs.forM fun q => atCore q.1 q.2.1 .A (match q.2.2.2 with
      | some (h, v) => placeImage q.2.1 q.2.2.1 h v
      | none => if q.2.2.1.waits then placeFresh q.2.1 q.2.2.1
                else setStrand q.2.2.1.va fun o => { o with bound := some q.2.1 })
    return none

/-- RESTORE (R404): the image is checked in order and, if accepted, restored on the core, once R334 admits it there; a gang's member
that is READY is started with it, once its record has been judged (R21). A refusal leaves every strand as it was. -/
def restore (ctx ring : Nat) : M Unit :=
  command 0x8B [(1, 64)] ctx ring fun x f b => do
    let va := cmdWord b 1
    if ctx == 0 then return .refused 12
    if va % 64 != 0 then return .refused 13
    match ← checkImage true va with
    | .error r =>
      refuseRestore ctx f va r
      return .later
    | .ok (s, h, v) =>
      let e ← read
      if (← ctxOfDom s.dom) != some ctx then return .refused 12
      if (← partOfCore e.core) != some x.part || s.onCore.isSome then block
      let d ← get
      let members := d.gangOf e.pkg s
      let _ ← refuseRecords (members.filterMap fun q => if q.2.savedAt.isNone then some (q.1, 0, q.2) else none)
      let group := ((← get).gangOf e.pkg s).map fun q => (q.1, q.2.va)
      modify fun d => { d with pkgs := d.pkgs.map fun k => (k.1, { k.2 with sched := { k.2.sched with
        strands := k.2.sched.strands.map fun o => if group.contains (k.1, o.va) then { o with hostStop := false } else o } }) }
      match (← get).planFor e.time e.pkg e.core s with
      | none => block
      | some plan =>
        let fresh := plan.map fun q => (q.1, q.2.1, { q.2.2 with hostStop := false })
        match ← restoreGang s h v fresh with
        | some (at_, r) =>
          set d
          refuseRestore ctx f at_ r
          return .later
        | none => return .done va

def execRestore (ctx ring : Nat) (s : State) : Host.Outcome State Fault Refusal := event (restore ctx ring) s

/-! ### Rack launch packets (R362, R363) -/

/-- The reason a packet is refused by itself: its form, its key, its sequence number. -/
def packetBad (v sender dom : Nat) : M (Option Nat) := do
  let w (n : Nat) : Nat := bytesAt v (8 * n) 8
  let x ← thePkg
  let key := natBits (w 2) 31 0
  if !x.fabric.regions.any fun r => r.key == key && r.dom == dom && !r.revoked then return some 16
  match findAt x.ctl.rackSeq sender with
  | some last => if w 1 <= last then return some 17
  | none => pure ()
  return none

/-- A packet is validated as a command of a context (R362). -/
def validatePacket (ctx part sender v : Nat) : M (Except Nat Accepted) := do
  let w (n : Nat) : Nat := bytesAt v (8 * n) 8
  let b := bytesAt v 0x20 128
  if natBits (w 0) 31 0 != 0x5A524C31 || w 0 / 2 ^ 38 != 0 || w 2 / 2 ^ 32 != 0 || w 3 != 0 then return .error 2
  match ← validateLaunch ctx 0 part b with
  | .error n => return .error n
  | .ok a =>
    match ← packetBad v sender (natBits (bytesAt b 0 8) 26 14) with
    | some n => return .error n
    | none => return .ok { a with rack := some (sender, w 1) }

/-- The context whose command a packet is: its domain's, if that is of the packet's partition, else the partition's first. -/
def Ctl.packetCtx (k : Ctl) (part dom : Nat) : Option Nat :=
  let own := (findAt k.doms dom).bind fun d => if (findAt k.ctxs d.ctx).map (·.part) == some part then some d.ctx else none
  own <|> (k.ctxs.find? fun c => c.1 != 0 && c.2.part == part).map (·.1)

/-- RACK_LAUNCH_PACKET (R362, R363): a packet of 160 bytes from a sender is validated as a command of its partition's
context, advised on by its plug-in, and answered; one for a partition without a context is refused with reason 4. It waits
while an event of the context waits (R393). -/
def rackLaunchPacket (sender : Nat) (packet : RackPacket) : M Unit := do
  let v := packet.bytes
  let seq := bytesAt v 8 8
  let part := natBits (bytesAt v 0 8) 37 32
  let b := bytesAt v 0x20 128
  let k := (← thePkg).ctl
  match (k.packetCtx part (natBits (bytesAt b 0 8) 26 14)).bind fun c => (findAt k.ctxs c).map fun x => (c, x) with
  | none => rackReport (launchOf b 0 0 part) sender seq (some 4) (return 0)
  | some (c, x) =>
    if !x.evWaiting.isEmpty then block
    modServing part fun k => { k with mode := .s }
    match ← validatePacket c part sender v with
    | .error n => refuseRack (launchOf b c 0 part) sender seq n
    | .ok a =>
      modCtl fun k => { k with rackSeq := setAt k.rackSeq sender seq }
      advise c x a packet.advice packet.prio

def execRackLaunchPacket (sender : Nat) (packet : RackPacket) (s : State) : Host.Outcome State Fault Refusal :=
  event (rackLaunchPacket sender packet) s

end Sys2Proof.Machine
end

