-- ==== Sys2Proof/Machine/Control.lean ====
section
/-!
DEFINITION. Sys2Proof/Machine/Control.lean: NOP, the branches, BOUT, TWAIT and TRAP (spec 05, R90 to R92, R102, R135),
and the units that hold no instruction (spec 04, R59 to R61).
-/

namespace Sys2Proof.Machine

/-- The byte address of the unit in its stream's body. -/
def unitOffset : M Nat := return ((← theCore).str (← theStream)).off

/-- A branch target relative to the branch instruction, in 4-byte units (R61). -/
def relTarget (disp : Int) : M Word := do
  let off ← unitOffset
  return BitVec.ofInt 64 (off + 4 * disp)

/-- NOP (R73) performs nothing. -/
def actNop : M Flow := return .seq

/-- NOP as a unit (R73). -/
def execNop (s : State) : Host.Outcome State Fault Refusal :=
  lone (.nop) (actNop) s

/-- BC (R92): taken when its guard holds. -/
def actBc (d : BitVec 20) (g : BitVec 4) : M Flow := do
  let t ← relTarget d.toInt
  return .br (if ← guardHolds g then some t else none)

/-- BC as a unit (R90 to R92). -/
def execBc (d : BitVec 20) (g : BitVec 4) (s : State) : Host.Outcome State Fault Refusal :=
  lone (.bc d g) (actBc d g) s

/-- BQ (R92): taken on a popped bit of 1; blocks while the own bq is empty. -/
def actBq (d : BitVec 20) : M Flow := do
  let t ← relTarget d.toInt
  return .br (if ← bqPop then some t else none)

/-- BQ as a unit (R90 to R92). -/
def execBq (d : BitVec 20) (s : State) : Host.Outcome State Fault Refusal :=
  lone (.bq d) (actBq d) s

/-- BQ.N (R92): taken on a popped bit of 0. -/
def actBqN (d : BitVec 20) : M Flow := do
  let t ← relTarget d.toInt
  return .br (if ← bqPop then none else some t)

/-- BQ.N as a unit (R90 to R92). -/
def execBqN (d : BitVec 20) (s : State) : Host.Outcome State Fault Refusal :=
  lone (.bqN d) (actBqN d) s

/-- JR (R92): the target is an offset from the start of the body. -/
def actJr (a : BitVec 5) : M Flow := do
  return .br (some (← src a))

/-- JR as a unit (R90 to R92). -/
def execJr (a : BitVec 5) (s : State) : Host.Outcome State Fault Refusal :=
  lone (.jr a) (actJr a) s

/-- DBNZ (R92): the counter is written at issue. -/
def actDbnz (r : BitVec 5) (d : BitVec 19) : M Flow := do
  let t ← relTarget d.toInt
  let x ← src r
  dst r (x - 1)
  return .br (if x - 1 = 0 then none else some t)

/-- DBNZ as a unit (R90 to R92). -/
def execDbnz (r : BitVec 5) (d : BitVec 19) (s : State) : Host.Outcome State Fault Refusal :=
  lone (.dbnz r d) (actDbnz r d) s

/-- BOUT (R92): a predicate pushed into the other stream's bq. -/
def actBout (p : BitVec 3) : M Flow := do
  bqPush (← readPred p)
  return .seq

/-- BOUT as a unit (R92). -/
def execBout (p : BitVec 3) (s : State) : Host.Outcome State Fault Refusal :=
  lone (.bout p) (actBout p) s

/-- The slot a token value names: bits above [15:0] zero, the slot held, its generation the value's (R102). -/
def heldSlot (c : Core) (tok : Word) : Option Nat :=
  let k := tok.toNat % 64
  if tok.toNat < 2 ^ 16 && (findAt c.tokens k).isSome && (c.tokenGens.toList.getD k 0).toNat == tok.toNat / 64 then some k
  else none

/-- TWAIT (R102): waits for a token's operation, gives its status and frees the slot. -/
def actTwait (d : BitVec 5) (a : BitVec 5) : M Flow := do
  let tok ← src a
  let c ← theCore
  match heldSlot c tok with
  | none => raise .token tok
  | some k =>
    match findAt c.tokens k with
    | none => raise .token tok
    | some t =>
      match ← tokenStatus t with
      | none => block
      | some st =>
        dst d (st.setWidth 64)
        modCore fun c => c.freeToken k
        return .seq

/-- TWAIT as a unit (R102). -/
def execTwait (d : BitVec 5) (a : BitVec 5) (s : State) : Host.Outcome State Fault Refusal :=
  lone (.twait d a) (actTwait d a) s

/-- TRAP (R135): BREAK with its code, the stream standing at the unit after it; nothing else. -/
def trapUnit (i : Instr) (c : BitVec 16) : M Unit := do
  match ← attempt (gate i) with
  | .error (.raise k ea) => exception k ea 0 false
  | .error s => throw s
  | .ok _ =>
    let s ← theStream
    modCore fun k => k.setStr s { k.str s with off := (k.str s).off + 4 }
    exception .break_ (c.setWidth 64) 0 false

/-- TRAP as a unit (R135). -/
def execTrap (c : BitVec 16) (s : State) : Host.Outcome State Fault Refusal := unitOn (trapUnit (.trap c) c) s

/-- An all-zero half raises ZEROWORD before any other check (R60). -/
def execZeroword (s : State) : Host.Outcome State Fault Refusal := unitOn (exception .zeroword 0 0 false) s

/-- A word of a reserved major or with an unassigned code raises ILLEGAL (R60, R62, R65). -/
def execReservedMajor (w : Half) (s : State) : Host.Outcome State Fault Refusal :=
  unitOn (exception .illegal (w.setWidth 64) 0 false) s

/-- Execution past the last unit of a body raises ILLEGAL with the body's size (R61). -/
def pastBody : M Unit := do
  let s ← theStream
  let size := 4 * ((← theCore).body s).length
  modCore fun c => c.setStr s { c.str s with off := size }
  exception .illegal (BitVec.ofNat 64 size) 0 false

/-- Execution past the last unit of a body (R61). -/
def execRunPastBody (s : State) : Host.Outcome State Fault Refusal := unitOn pastBody s

end Sys2Proof.Machine
end

