-- ==== Sys2Proof/Machine/Memory.lean ====
section
/-!
DEFINITION. Sys2Proof/Machine/Memory.lean: the memory, atomic, fence and bit-stream instructions, and loads and stores of
event, barrier and mutex lines (spec 05, R106 to R126).
-/

namespace Sys2Proof.Machine

/-! ### Event, barrier and mutex lines (R119 to R123) -/

/-- The number of a line of a window, as a core reaches it: quad lines, then die lines, then package lines. -/
def lineKey (core : Nat) : Space → Option Nat
  | .quadLine n => some (32 * quadOf core + n)
  | .dieLine n => some (0x10000 + 64 * dieOf core + n)
  | .pkgLine n => some (0x20000 + n)
  | _ => none

def lineAt (k : Nat) : M Line := return lookupD Line.off (← thePkg).lines k

def setLine (k : Nat) (l : Line) : M Unit := modPkg fun x => { x with lines := insertD Line.off x.lines k l }

def setWait (w : Option LineWait) : M Unit := modCore fun c => { c with lineWait := w }

/-- LD.D of a line as it issues: the value it returns, or none when it has begun to wait (R120 to R122). -/
def lineLoad (ea : Word) (k : Nat) : M (Option Word) := do
  let me := (← read).core
  let l ← lineAt k
  match (← theCore).lineWait, l.kind with
  | some _, _ =>
    implicitCommit
    setWait (some (.counted k))
    return none
  | none, .off => raise .aperture ea
  | none, .barrier =>
    let covers ← theWrites
    implicitCommit
    setWait (some (.arriving k covers))
    return none
  | none, .mutex =>
    implicitCommit
    match l.holder with
    | none =>
      setLine k { l with holder := some me }
      return some 1
    | some _ =>
      setLine k { l with waiters := l.waiters ++ [me] }
      setWait (some (.queued k))
      return none
  | none, .event =>
    if l.pending != 0 then
      implicitCommit
      setLine k { l with pending := l.pending - 1 }
      return some (BitVec.ofNat 64 (l.pending - 1))
    else
      setLine k { l with waiters := l.waiters ++ [me] }
      setWait (some (.queued k))
      return none

/-- LD.D of a line that has issued and waits: the value it returns once its wait has ended. -/
def lineResume (w : LineWait) : M Word := do
  match w with
  | .fired _ g =>
    implicitCommit
    setWait none
    return g
  | .granted _ =>
    setWait none
    return 1
  | .queued k =>
    let l ← lineAt k
    if l.kind == .event && l.pending != 0 then
      implicitCommit
      setWait none
      let me := (← read).core
      setLine k { l with pending := l.pending - 1, waiters := l.waiters.filter (· != me) }
      return BitVec.ofNat 64 (l.pending - 1)
    else block
  | _ => block

/-- STD to a line (R120 to R122). A mutex is released, and a signal given, once every write before it has performed. -/
def lineStore (ea : Word) (k : Nat) : M Unit := do
  let me := (← read).core
  let l ← lineAt k
  match l.kind with
  | .off => raise .aperture ea
  | .barrier => raise .aperture ea
  | .mutex =>
    implicitCommit
    if l.holder == some me then
      settled
      passMutex k
  | .event =>
    implicitCommit
    settled
    setLine k { l with pending := Nat.min (l.pending + 1) 255 }
    match l.chain with
    | some (q, n) => modPkg fun x => { x with chainSignals := x.chainSignals ++ [32 * q + n] }
    | none => return

/-! ### Loads -/

/-- Bytes of a size code. -/
def sizeBytes (s : BitVec 2) : Nat := 2 ^ s.toNat

/-- A value of `n` bytes extended to 64 bits. -/
def extend (n : Nat) (zero : Bool) (v : Nat) : Word :=
  if zero then BitVec.ofNat 64 (v % 2 ^ (8 * n)) else BitVec.ofInt 64 (natSigned (8 * n) v)

/-- An lq entry reserved by a load, its data to be filled when it returns (R86). -/
def reserve (p : Port) (data : VReg) (mask : BitVec 32) (kind tol : Bool) : M Unit := do
  let k ← nextSerial
  pushQ p { data := data, mask := mask, kind := kind, filled := false, tol := tol, serial := k }

/-- The destination of a load: a register, a reserved lq entry, or discarded (R108). -/
def loadDst (d : BitVec 5) (v : Word) : M Unit := do
  match pushPort (← theStream) d.toNat with
  | some p => reserve p (v.setWidth 1024) 0xFFFFFFFF#32 false false
  | none => dst d v

def loadInto (d : BitVec 5) (n : Nat) (zero : Bool) (ea : Word) : M Flow := do
  let v ← load ea n
  loadDst d (extend n zero v)
  return .seq

/-- LD (R108): a load of 1 to 8 bytes; LD.D alone may name a line (R107). One that waits at a line has issued, and its
operands are gone (R84), but for a barrier load that a trap frame alone names (R176). -/
def actLd (d : BitVec 5) (a : BitVec 5) (s : BitVec 2) (n : BitVec 1) (i : BitVec 11) : M Flow := do
  let go : M Flow := do
    let ea := (← src a) + i.signExtend 64
    roomFor d
    match lineKey (← read).core (space ea.toNat) with
    | some k =>
      if s != 3 then raise .aperture ea
      match ← lineLoad ea k with
      | some v =>
        loadDst d v
        return .seq
      | none => return .wait
    | none =>
      setWait none
      loadInto d (sizeBytes s) (n == 1) ea
  match (← theCore).lineWait with
  | none => go
  | some .marked => go
  | some w =>
    loadDst d (← lineResume w)
    return .seq

/-- LD as a unit (R108). -/
def execLd (d : BitVec 5) (a : BitVec 5) (s : BitVec 2) (n : BitVec 1) (i : BitVec 11) (st : State) : Host.Outcome State Fault Refusal :=
  lone (.ld d a s n i) (actLd d a s n i) st

/-! ### Stores -/

/-- The store of a guarded store instruction; its data is popped even if the guard fails (R84, R109). -/
def storeFrom (n : Nat) (v a : BitVec 5) (disp : Word) (g : BitVec 4) : M Flow := do
  let data ← src v
  let base ← src a
  if ← guardHolds g then store none (base + disp) n data.toNat
  return .seq

/-- STB (R109). -/
def actStb (v : BitVec 5) (a : BitVec 5) (i : BitVec 10) (g : BitVec 4) : M Flow := storeFrom 1 v a (i.signExtend 64) g

/-- STB as a unit (R109). -/
def execStb (v : BitVec 5) (a : BitVec 5) (i : BitVec 10) (g : BitVec 4) (s : State) : Host.Outcome State Fault Refusal :=
  lone (.stb v a i g) (actStb v a i g) s

/-- STH (R109). -/
def actSth (v : BitVec 5) (a : BitVec 5) (i : BitVec 10) (g : BitVec 4) : M Flow := storeFrom 2 v a (i.signExtend 64) g

/-- STH as a unit (R109). -/
def execSth (v : BitVec 5) (a : BitVec 5) (i : BitVec 10) (g : BitVec 4) (s : State) : Host.Outcome State Fault Refusal :=
  lone (.sth v a i g) (actSth v a i g) s

/-- STW (R109). -/
def actStw (v : BitVec 5) (a : BitVec 5) (i : BitVec 10) (g : BitVec 4) : M Flow := storeFrom 4 v a (i.signExtend 64) g

/-- STW as a unit (R109). -/
def execStw (v : BitVec 5) (a : BitVec 5) (i : BitVec 10) (g : BitVec 4) (s : State) : Host.Outcome State Fault Refusal :=
  lone (.stw v a i g) (actStw v a i g) s

/-- STD (R109): the only store that may name a line (R107). -/
def actStd (v : BitVec 5) (a : BitVec 5) (i : BitVec 10) (g : BitVec 4) : M Flow := do
  let data ← src v
  let ea := (← src a) + i.signExtend 64
  if ← guardHolds g then
    match lineKey (← read).core (space ea.toNat) with
    | some k => lineStore ea k
    | none => store none ea 8 data.toNat
  return .seq

/-- STD as a unit (R109). -/
def execStd (v : BitVec 5) (a : BitVec 5) (i : BitVec 10) (g : BitVec 4) (s : State) : Host.Outcome State Fault Refusal :=
  lone (.std v a i g) (actStd v a i g) s

/-- LDA (R110): an acquire load. Every access after it is made after it in the model (log 5). -/
def actLda (d : BitVec 5) (a : BitVec 5) (s : BitVec 2) (n : BitVec 1) (c : BitVec 3) (i : BitVec 8) : M Flow := do
  let ea := (← src a) + i.signExtend 64
  roomFor d
  loadInto d (sizeBytes s) (n == 1) ea

/-- LDA as a unit (R110). -/
def execLda (d : BitVec 5) (a : BitVec 5) (s : BitVec 2) (n : BitVec 1) (c : BitVec 3) (i : BitVec 8) (st : State) : Host.Outcome State Fault Refusal :=
  lone (.lda d a s n c i) (actLda d a s n c i) st

/-- STREL (R110): a release store at a scope; it performs after every earlier store of its stream (R51). -/
def actStrel (v : BitVec 5) (a : BitVec 5) (s : BitVec 2) (c : BitVec 3) (g : BitVec 4) : M Flow := do
  let data ← src v
  let ea ← src a
  if ← guardHolds g then store (some c.toNat) ea (sizeBytes s) data.toNat
  return .seq

/-- STREL as a unit (R110). -/
def execStrel (v : BitVec 5) (a : BitVec 5) (s : BitVec 2) (c : BitVec 3) (g : BitVec 4) (st : State) : Host.Outcome State Fault Refusal :=
  lone (.strel v a s c g) (actStrel v a s c g) st

/-- LDV (R111): 128 bytes into an lq. -/
def actLdv (d : BitVec 5) (a : BitVec 5) (i : BitVec 14) : M Flow := do
  let ea := (← src a) + (i.signExtend 64 <<< 7)
  roomFor d
  let v ← load ea 128
  match pushPort (← theStream) d.toNat with
  | some p => reserve p (BitVec.ofNat 1024 v) 0xFFFFFFFF#32 true false
  | none => pure ()
  return .seq

/-- LDV as a unit (R111). -/
def execLdv (d : BitVec 5) (a : BitVec 5) (i : BitVec 14) (s : State) : Host.Outcome State Fault Refusal :=
  lone (.ldv d a i) (actLdv d a i) s

/-- STV (R111): 128 bytes from an sq, popped even when the guard fails. -/
def actStv (v : BitVec 5) (a : BitVec 5) (i : BitVec 10) (g : BitVec 4) : M Flow := do
  let e ← match popPort (← theStream) v.toNat with
    | some p => popQ p
    | none => pure (scalarEntry 0)
  let ea := (← src a) + (i.signExtend 64 <<< 7)
  if ← guardHolds g then store none ea 128 e.data.toNat
  return .seq

/-- STV as a unit (R111). -/
def execStv (v : BitVec 5) (a : BitVec 5) (i : BitVec 10) (g : BitVec 4) (s : State) : Host.Outcome State Fault Refusal :=
  lone (.stv v a i g) (actStv v a i g) s

/-! ### Gathers and scatters (R112 to R114) -/

/-- The 32 lane addresses: the offsets, scaled by the element size where X is set. -/
def laneAddrs (base : Word) (offs : VReg) (n : Nat) (scale : Bool) : List Word :=
  (words32 offs).map fun o =>
    base + BitVec.ofInt 64 (natSigned 32 o * (if scale then (n : Int) else 1))

/-- A vector popped from an sq by a specifier. -/
def popVec (r : BitVec 5) : M VReg := do
  match popPort (← theStream) r.toNat with
  | some p => return (← popQ p).vector
  | none => return 0

/-- Checks 1 and 2 of R106 over all lanes. -/
def checkLanesPlace (n : Nat) (eas : List Word) : M Unit := do
  eas.forM fun ea => do if ea.toNat % n != 0 then raise .align ea
  eas.forM fun ea => do
    match space ea.toNat with
    | .mem => return
    | .scratch _ => return
    | .arc i k _ =>
      let _ ← arcMember ea i k
    | _ => raise .aperture ea

/-- Check 4 of R106 over all lanes. -/
def checkLanesLocks (n : Nat) (eas : List Word) : M Unit :=
  eas.forM fun ea => do
    match space ea.toNat with
    | .arc _ _ _ => return
    | _ => checkLocks ea n

/-- The checks of R106 over all lanes: whether M holds at each. -/
def checkLanes (need : Need) (n : Nat) (eas : List Word) : M (List Bool) := do
  checkLanesPlace n eas
  let ms ← eas.mapM fun ea => do
    match space ea.toNat with
    | .mem => checkRights ea need ea.toNat n
    | _ => return true
  checkLanesLocks n eas
  return ms

/-- The lanes read in lane order, each extended to 32 bits. -/
def gatherLanes (n : Nat) (zero : Bool) (eas : List Word) (ms : List Bool) : M VReg := do
  let vs ← (eas.zip ms).mapM fun p => return ((extend n zero (← loadChecked p.2 p.1 n)).toNat % 2 ^ 32)
  return ofLanes 32 vs

/-- GATH (R112): any failing lane faults the whole instruction. -/
def actGath (d : BitVec 5) (a : BitVec 5) (b : BitVec 5) (s : BitVec 2) (n : BitVec 1) (x : BitVec 1) : M Flow := do
  let base ← src a
  let offs ← popVec b
  roomFor d
  let eas := laneAddrs base offs (sizeBytes s) (x == 1)
  let ms ← checkLanes needR (sizeBytes s) eas
  let v ← gatherLanes (sizeBytes s) (n == 1) eas ms
  match pushPort (← theStream) d.toNat with
  | some p => reserve p v 0xFFFFFFFF#32 true false
  | none => pure ()
  return .seq

/-- GATH as a unit (R112). -/
def execGath (d : BitVec 5) (a : BitVec 5) (b : BitVec 5) (s : BitVec 2) (n : BitVec 1) (x : BitVec 1) (st : State) : Host.Outcome State Fault Refusal :=
  lone (.gath d a b s n x) (actGath d a b s n x) st

/-- A lane's line needs no walk: it is cached, or its slice's buffer holds the translation (R113, R324). -/
def laneQuick (h : Home) (core va : Nat) : Bool :=
  (h.l1Find core va).isSome || (h.tags.any fun t => t.line == va / 128) ||
    (h.sliceBuf.any fun e => e.1 == homeSlice va && e.2.covers va)

/-- A walk that goes on after a tolerant gather has pushed; one that fails installs nothing (R324). -/
def walkOn (va : Nat) : M Unit := do
  let _ ← attempt (runHome 0 0 (freeWalk va))

/-- Check 3 of R106 for a lane of GATH.T: PROT is raised only where the PLB hits (R113). Whether the lane is still valid, and
whether M holds; a lane that misses is invalid, as is one whose DRT is read again and faults. -/
def laneRights (n : Nat) (ea : Word) : M (Option Bool) := do
  match space ea.toNat with
  | .mem =>
    let dom := (← theCore).dom.toNat
    match ← plbLookup dom ea.toNat with
    | none => return none
    | some _ =>
      match ← attempt (checkRights ea needR ea.toNat n) with
      | .ok m => return some m
      | .error (.raise .prot e) => raise .prot e
      | .error (.halt f) => throw (.halt f)
      | .error .block => block
      | .error _ => return none
  | _ => return some true

/-- The value of a lane of GATH.T that its checks have passed, or none when it is invalid (R113). -/
def tolerantLane (n : Nat) (zero : Bool) (ea : Word) (m : Bool) : M (Option Nat) := do
  let quick ← match space ea.toNat with
    | .mem => do pure (laneQuick (← thePkg).home (← read).core ea.toNat)
    | _ => pure true
  if quick then
    match ← attempt (loadChecked m ea n) with
    | .ok v => return some ((extend n zero v).toNat % 2 ^ 32)
    | .error (.raise .prot e) => raise .prot e
    | .error (.raise .aperture e) => raise .aperture e
    | .error (.halt f) => throw (.halt f)
    | .error .block => block
    | .error _ => return none
  else return none

/-- What a lane that is invalid leaves to go on, once every lane has been judged: its DRT walk where the PLB missed, else its
page walk (R113, R324). -/
def walkLane (ea : Word) (m : Option Bool) : M Unit := do
  let dom := (← theCore).dom.toNat
  match space ea.toNat, m with
  | .mem, none =>
    if (← plbLookup dom ea.toNat).isNone then
      let _ ← attempt (do
        match ← drtLookup ea dom ea.toNat with
        | some e => plbInstall e
        | none => pure ())
  | .mem, some _ => if !laneQuick (← thePkg).home (← read).core ea.toNat then walkOn ea.toNat
  | _, _ => return

def walkLanes (eas : List Word) (ms : List (Option Bool)) (vs : List (Option Nat)) : M Unit :=
  (eas.zip (ms.zip vs)).forM fun p => do if p.2.2.isNone then walkLane p.1 p.2.1

/-- The mask of the valid lanes. -/
def laneMask : List (Option Nat) → Nat
  | [] => 0
  | v :: vs => (if v.isSome then 1 else 0) + 2 * laneMask vs

/-- GATH.T (R113): lanes that need a walk or would fault are invalid; the entry is pushed by GATH_T_PUSH. -/
def actGathT (d : BitVec 5) (a : BitVec 5) (b : BitVec 5) (s : BitVec 2) (n : BitVec 1) (x : BitVec 1) : M Flow := do
  let base ← src a
  let offs ← popVec b
  roomFor d
  let eas := laneAddrs base offs (sizeBytes s) (x == 1)
  checkLanesPlace (sizeBytes s) eas
  let ms ← eas.mapM fun ea => laneRights (sizeBytes s) ea
  checkLanesLocks (sizeBytes s) eas
  let vs ← (eas.zip ms).mapM fun p =>
    match p.2 with
    | some m => tolerantLane (sizeBytes s) (n == 1) p.1 m
    | none => pure none
  walkLanes eas ms vs
  match pushPort (← theStream) d.toNat with
  | some p => reserve p (ofLanes 32 (vs.map (·.getD 0))) (BitVec.ofNat 32 (laneMask vs)) true true
  | none => pure ()
  return .seq

/-- GATH.T as a unit (R113). -/
def execGathT (d : BitVec 5) (a : BitVec 5) (b : BitVec 5) (s : BitVec 2) (n : BitVec 1) (x : BitVec 1) (st : State) : Host.Outcome State Fault Refusal :=
  lone (.gathT d a b s n x) (actGathT d a b s n x) st

/-- SCAT (R114): both queues are popped even when the guard fails; lanes are written in lane order. -/
def actScat (v : BitVec 5) (a : BitVec 5) (b : BitVec 5) (s : BitVec 2) (x : BitVec 1) (g : BitVec 4) : M Flow := do
  let data ← popVec v
  let base ← src a
  let offs ← popVec b
  if ← guardHolds g then
    let n := sizeBytes s
    let eas := laneAddrs base offs n (x == 1)
    let ms ← checkLanes needW n eas
    ((eas.zip ms).zip (words32 data)).forM fun p => storeChecked p.1.2 none p.1.1 n p.2
  return .seq

/-- SCAT as a unit (R114). -/
def execScat (v : BitVec 5) (a : BitVec 5) (b : BitVec 5) (s : BitVec 2) (x : BitVec 1) (g : BitVec 4) (st : State) : Host.Outcome State Fault Refusal :=
  lone (.scat v a b s x g) (actScat v a b s x g) st

/-! ### Atomics -/

/-- The operation code orders with release (Table 4.10: OD 10 and 11). -/
def orderRelease (r : BitVec 2) : Bool := r == 2 || r == 3

/-- AMO (R115): performs at the home slice in this step; nothing when its guard fails. -/
def actAmo (d : BitVec 5) (a : BitVec 5) (o : BitVec 4) (s : BitVec 1) (r : BitVec 2) (c : BitVec 3) (g : BitVec 4) : M Flow := do
  let x ← src d
  let ea ← src a
  if ← guardHolds g then
    let op : AtomicOp := { va := ea.toNat, op := o.toNat, wide := s == 1, opnd := x.toNat }
    let m ← checkAtomic needRWA ea op.bytes
    let (p, l) ← atomicAt ea m (orderRelease r)
    let old ← runHomeAt p ea ea (performAtomic false l (← read).core (← theCore).dom.toNat op)
    dst d (BitVec.ofNat 64 old)
  return .seq

/-- AMO as a unit, a commit point (R48, R115). -/
def execAmo (d : BitVec 5) (a : BitVec 5) (o : BitVec 4) (s : BitVec 1) (r : BitVec 2) (c : BitVec 3) (g : BitVec 4) (st : State) : Host.Outcome State Fault Refusal :=
  loneCommit (.amo d a o s r c g) (actAmo d a o s r c g) st

/-- Posted reductions a core may hold that no slice has accepted (R290). -/
def amonLimit : Nat := 32

/-- AMON (R116): posted to its home slice; it blocks while 32 are not accepted (R290). -/
def actAmon (v : BitVec 5) (a : BitVec 5) (o : BitVec 4) (s : BitVec 1) (g : BitVec 4) : M Flow := do
  let x ← src v
  let ea ← src a
  if ← guardHolds g then
    let op : AtomicOp := { va := ea.toNat, op := o.toNat, wide := s == 1, opnd := x.toNat }
    let m ← checkAtomic needWA ea op.bytes
    if amonLimit <= (← theCore).amons.length then block
    let k ← nextSerial
    let env ← read
    let l ← theLaunch
    let p : Posted := { serial := k, pkg := env.pkg, core := env.core, dom := (← theCore).dom.toNat, part := ← thePart,
                        launch := l.2, lpkg := l.1, mRight := m, replay := none, at_ := op }
    modCore fun c => { c with amons := c.amons ++ [(k, p)] }
  return .seq

/-- AMON as a unit, a commit point (R48, R116). -/
def execAmon (v : BitVec 5) (a : BitVec 5) (o : BitVec 4) (s : BitVec 1) (g : BitVec 4) (st : State) : Host.Outcome State Fault Refusal :=
  loneCommit (.amon v a o s g) (actAmon v a o s g) st

/-- CAS (R117): write permission is checked before the comparison. -/
def actCas (d : BitVec 5) (a : BitVec 5) (s : BitVec 1) (r : BitVec 2) (c : BitVec 3) (g : BitVec 4) : M Flow := do
  let ea ← src a
  if ← guardHolds g then
    let n := if s == 1 then 8 else 4
    let expected ← readReg d.toNat
    let new ← readReg (d.toNat + 1)
    let m ← checkAtomic needRWA ea n
    let (p, l) ← atomicAt ea m (orderRelease r)
    let old ← runHomeAt p ea ea (performCas l (← theCore).dom.toNat ea.toNat n expected.toNat new.toNat)
    writeReg d.toNat (BitVec.ofNat 64 old)
  return .seq

/-- CAS as a unit, a commit point (R48, R117). -/
def execCas (d : BitVec 5) (a : BitVec 5) (s : BitVec 1) (r : BitVec 2) (c : BitVec 3) (g : BitVec 4) (st : State) : Host.Outcome State Fault Refusal :=
  loneCommit (.cas d a s r c g) (actCas d a s r c g) st

/-! ### Fences -/

/-- What a fence covers (R46): its kind's released stores and posted reductions, its kind's loads. -/
def fenceCovers (k : BitVec 2) : M (List Nat) := do
  let c ← theCore
  let loads := ((c.lq0.ents ++ c.lq1.ents ++ c.lq2.ents).filter fun e => !e.filled).map (·.serial)
  let all := pendingSerials (← get) (← read).pkg (← read).core
  match k.toNat with
  | 0 => return loads
  | 1 => return all.filter fun s => !loads.contains s
  | _ => return all

/-- FENCE (R46, R118): issues at once and returns a token. -/
def actFence (d : BitVec 5) (k : BitVec 2) (c : BitVec 3) : M Flow := do
  let cov ← fenceCovers k
  let (_, tok) ← takeToken (.fence cov) none
  dst d tok
  return .seq

/-- FENCE as a unit (R118). -/
def execFence (d : BitVec 5) (k : BitVec 2) (c : BitVec 3) (s : State) : Host.Outcome State Fault Refusal :=
  lone (.fence d k c) (actFence d k c) s

/-! ### The bit-stream buffer (R124 to R126) -/

/-- The eight bits of a byte in the order they are taken. -/
def byteBits (b : Nat) (big : Bool) : Nat :=
  if big then (List.range 8).foldl (fun n i => n + b / 2 ^ (7 - i) % 2 * 2 ^ i) 0 else b % 256

/-- The first `w` bits taken as a result: the first is bit w−1 when big-bit-first, else bit 0. -/
def takenValue (buf w : Nat) (big : Bool) : Nat :=
  if big then (List.range w).foldl (fun n i => n + buf / 2 ^ i % 2 * 2 ^ (w - 1 - i)) 0 else buf % 2 ^ w

/-- The next byte to refill from: of memory at RP, or of the scratchpad at offset RP; an offset beyond it raises APERTURE. -/
def BitBuf.next (b : BitBuf) : M Nat := do
  if !b.m then load b.rp 1
  else
    let ea := b.rp + BitVec.ofNat 64 scratchBase
    if scratchBytes <= b.rp.toNat then raise .aperture ea
    load ea 1

/-- Refill while fewer than `w` bits are valid and bytes remain; `fuel` bounds the bytes read. -/
def refill (w : Nat) : Nat → BitBuf → M BitBuf
  | 0, b => return b
  | fuel + 1, b => do
    if b.fc < w && b.rp.toNat < b.ep.toNat then
      let x ← b.next
      refill w fuel { b with buf := BitVec.ofNat 128 (b.buf.toNat % 2 ^ b.fc + byteBits x b.o * 2 ^ b.fc),
                             fc := b.fc + 8, rp := b.rp + 1 }
    else return b

/-- The next `w` bits, zeros beyond the end of the stream, and the buffer with them consumed. -/
def takeBits (w : Nat) : M (Word × BitBuf × BitBuf) := do
  let b ← refill w 9 (← theCore).bb
  let v := takenValue (b.buf.toNat % 2 ^ b.fc) w b.o
  let k := Nat.min w b.fc
  return (BitVec.ofNat 64 v, b, { b with buf := b.buf >>> k, fc := b.fc - k })

def setBB (b : BitBuf) : M Unit := modCore fun c => { c with bb := b }

/-- BBSET (R125): reads no memory. -/
def actBbset (a : BitVec 5) (b : BitVec 5) (o : BitVec 1) (m : BitVec 1) : M Flow := do
  let rp ← src a
  let ep ← src b
  setBB { buf := 0, fc := 0, rp := rp, ep := ep, o := o == 1, m := m == 1 }
  return .seq

/-- BBSET as a unit (R125). -/
def execBbset (a : BitVec 5) (b : BitVec 5) (o : BitVec 1) (m : BitVec 1) (s : State) : Host.Outcome State Fault Refusal :=
  lone (.bbset a b o m) (actBbset a b o m) s

/-- BBGET (R126). -/
def actBbget (d : BitVec 5) (w : BitVec 7) : M Flow := do
  let (v, _, b) ← takeBits w.toNat
  setBB b
  dst d v
  return .seq

/-- BBGET as a unit (R126). -/
def execBbget (d : BitVec 5) (w : BitVec 7) (s : State) : Host.Outcome State Fault Refusal :=
  lone (.bbget d w) (actBbget d w) s

/-- BBPEEK (R126): nothing is consumed. -/
def actBbpeek (d : BitVec 5) (w : BitVec 7) : M Flow := do
  let (v, b, _) ← takeBits w.toNat
  setBB b
  dst d v
  return .seq

/-- BBPEEK as a unit (R126). -/
def execBbpeek (d : BitVec 5) (w : BitVec 7) (s : State) : Host.Outcome State Fault Refusal :=
  lone (.bbpeek d w) (actBbpeek d w) s

/-- BBSKIP (R126). -/
def actBbskip (w : BitVec 7) : M Flow := do
  let (_, _, b) ← takeBits w.toNat
  setBB b
  return .seq

/-- BBSKIP as a unit (R126). -/
def execBbskip (w : BitVec 7) (s : State) : Host.Outcome State Fault Refusal :=
  lone (.bbskip w) (actBbskip w) s

end Sys2Proof.Machine
end

