-- ==== Sys2Proof/Machine/Lines.lean ====
section
/-!
DEFINITION. Sys2Proof/Machine/Lines.lean: what comes back to a core by itself: load data, tolerant gathers, barrier-line
arrivals and chained event signals (spec 05, R86, R113, R120 to R123).
-/

namespace Sys2Proof.Machine

/-! ### Queue entries (R86, R113) -/

/-- A reserved entry filled, found by its order number; `f` may change the entry. -/
def Queue.fillOne (q : Queue QEntry) (serial : Nat) (f : QEntry → QEntry) : Queue QEntry :=
  let upd (e : QEntry) : QEntry := if e.serial == serial && !e.filled then { f e with filled := true } else e
  { q with ents := q.ents.map upd, kept := q.kept.map upd }

/-- The entry of a core's load queues that waits under an order number. -/
def Core.waiting (c : Core) (serial : Nat) : Option QEntry :=
  (c.lq0.ents ++ c.lq1.ents ++ c.lq2.ents).find? fun e => e.serial == serial && !e.filled

def fillEntry (serial : Nat) (f : QEntry → QEntry) : M Unit :=
  modCore fun c => { c with lq0 := c.lq0.fillOne serial f, lq1 := c.lq1.fillOne serial f, lq2 := c.lq2.fillOne serial f }

/-- LOAD_DATA_RETURN: the data of a load, LDV or GATH returns to its reserved entry. -/
def loadDataReturn (serial : Nat) : M Unit := do
  match (← theCore).waiting serial with
  | some e => if !e.tol then fillEntry serial id
  | none => return

def execLoadDataReturn (serial : Nat) (s : State) : Host.Outcome State Fault Refusal := event (loadDataReturn serial) s

/-- An entry without the lanes of a mask: their bits are 0 and their data 0. -/
def QEntry.without (e : QEntry) (late : Nat) : QEntry :=
  let keep : BitVec 32 := e.mask &&& ~~~(BitVec.ofNat 32 late)
  { e with
    mask := keep
    data := ofLanes 32 ((words32 e.data).zipIdx.map fun p => if keep.getLsbD p.2 then p.1 else 0) }

/-- GATH_T_PUSH: a tolerant gather's entry is pushed, without the lanes whose data has not returned by its bound. -/
def gathTPush (serial late : Nat) : M Unit := do
  match (← theCore).waiting serial with
  | some e => if e.tol then fillEntry serial (·.without late)
  | none => return

def execGathTPush (serial late : Nat) (s : State) : Host.Outcome State Fault Refusal := event (gathTPush serial late) s

/-! ### Barrier lines (R120, R123) -/

/-- A wait on a barrier line learns the generation it fired with. -/
def LineWait.fire (k : Nat) (g : Word) : LineWait → LineWait
  | .counted j => if j == k then .fired k g else .counted j
  | w => w

def Core.lineFired (c : Core) (k : Nat) (g : Word) : Core :=
  { c with lineWait := c.lineWait.map (LineWait.fire k g), heldWaits := c.heldWaits.map fun h => (h.1, h.2.fire k g) }

/-- The firing of a barrier line: every arrival learns the new generation, at its core or with its saved strand. -/
def fireLine (k : Nat) (l : Line) : M Unit := do
  let g := l.gen + 1
  setLine k { l with gen := g, arrived := [] }
  let p := (← read).pkg
  l.arrived.forM fun a =>
    match a with
    | .core c => modCoreAt p c fun x => x.lineFired k g
    | .strand va => modPkgAt p fun x => { x with savedGens := x.savedGens ++ [(va, k, g)] }

/-- BARRIER_LINE_ARRIVAL: the arrival of the core is counted once the stores released and the reductions posted before it have
performed (R45); the line fires at its count. -/
def barrierLineArrival : M Unit := do
  let c ← theCore
  let me := (← read).core
  match c.lineWait with
  | some (.arriving k covers) =>
    if (ownWrites (← get) (← read).pkg me).any covers.contains then return
    let l ← lineAt k
    if l.kind != .barrier then return
    setWait (some (.counted k))
    let l' : Line := { l with arrived := l.arrived ++ [.core me] }
    if l.count <= l'.arrived.length then fireLine k l' else setLine k l'
  | _ => return

def execBarrierLineArrival (s : State) : Host.Outcome State Fault Refusal := event barrierLineArrival s

/-! ### Event lines (R122) -/

/-- EVENT_CHAIN_SIGNAL: a chained signal arrives at its line, and signals it as a store would; a line that is no event
line discards it. -/
def eventChainSignal (k : Nat) : M Unit := do
  if !(← thePkg).chainSignals.contains k then return
  modPkg fun x => { x with chainSignals := x.chainSignals.erase k }
  let l ← lineAt k
  if l.kind != .event then return
  setLine k { l with pending := Nat.min (l.pending + 1) 255 }
  match l.chain with
  | some (q, n) => modPkg fun x => { x with chainSignals := x.chainSignals ++ [32 * q + n] }
  | none => return

def execEventChainSignal (k : Nat) (s : State) : Host.Outcome State Fault Refusal := event (eventChainSignal k) s

end Sys2Proof.Machine
end

