-- ==== Sys2Proof/Machine/Matrix.lean ====
section
/-!
DEFINITION. Sys2Proof/Machine/Matrix.lean: the matrix engine's instructions: operand checks, K-steps, accumulator moves
and scratchpad tiles (spec 11, R230 to R250).
-/

namespace Sys2Proof.Machine

/-! ### Operand tiles (R232 to R234) -/

def readT (n : BitVec 4) : M TileDesc := return TileDesc.ofWord ((← theCore).t.toList.getD n.toNat 0)

/-- A tile as an instruction uses it: its descriptor and its shape. -/
structure Tile where
  desc : TileDesc
  rows : Nat
  cols : Nat
  deriving DecidableEq, Repr

def Tile.bytes (t : Tile) : List Nat := t.desc.bytes t.rows t.cols

/-- A code format, which the decode table serves. -/
def codeFmt (f : Nat) : Bool := f == 3 || f == 4

def scratchEa (off : Nat) : Word := BitVec.ofNat 64 (scratchBase + off)

/-- The least of a list of offsets. -/
def lowest (xs : List Nat) : Nat := xs.foldl Nat.min (xs.headD 0)

/-- Checks 2 to 4 of R234 over an instruction's tiles, in the order its fields name them. Poison in the bytes it reads is no
fault of a matrix instruction: it takes the bytes as they stand (R234; log 44). -/
def checkTiles (ts : List Tile) : M Unit := do
  let c ← theCore
  if ts.any (fun t => codeFmt t.desc.fmt) && !c.tabstat.getLsbD 0 then raise .table 0
  let bytes := ts.flatMap Tile.bytes
  match bytes.find? fun a => scratchBytes <= a with
  | some a => raise .aperture (scratchEa a)
  | none =>
    let locked := bytes.filter fun a => c.locked (scratchBase + a) 1
    if !locked.isEmpty then raise .rangelock (scratchEa (lowest locked))

/-- A matrix instruction's operand accepts every format but f32 (Table 11.3). -/
def operandTile (n : BitVec 4) (rows cols : Nat) : M Tile := do
  let d ← readT n
  if d.fmt == 0 || 4 < d.fmt then raise .illegal (n.setWidth 64)
  return { desc := d, rows := rows, cols := cols }

def tileValues (t : Tile) : M (List (List Nat)) := do
  let c ← theCore
  return t.desc.read c.table (fun a => c.scratch.read a 1) t.rows t.cols

/-! ### Accumulators -/

def readM (n : BitVec 2) : M Accum := return (← theCore).m.toList.getD n.toNat Accum.zero
def writeM (n : BitVec 2) (x : Accum) : M Unit := modCore fun c => { c with m := c.m.setIfInBounds n.toNat x }
def readKpos (n : BitVec 2) : M (BitVec 8) := return (← theCore).kpos.toList.getD n.toNat 0
def writeKpos (n : BitVec 2) (k : BitVec 8) : M Unit :=
  modCore fun c => { c with kpos := c.kpos.setIfInBounds n.toNat k }

/-- One K-step of 16 into an accumulator (R238). -/
def stepInto (m : BitVec 2) (z : Bool) (a b : List (List Nat)) : M Unit := do
  let k0 := kStart z (← readKpos m)
  let r := kStep (← read).core k0 z (← readM m) a b
  writeM m r.1
  writeKpos m (BitVec.ofNat 8 (k0 + 16))
  raiseFlags r.2

/-- MMA and MMAZ (R238). -/
def mmaOf (m : BitVec 2) (ta tb : BitVec 4) (z : Bool) : M Flow := do
  let a ← operandTile ta 16 16
  let b ← operandTile tb 16 32
  checkTiles [a, b]
  stepInto m z (← tileValues a) (← tileValues b)
  return .seq

/-- MMAW and MMAWZ (R240): two K-steps as one unit. -/
def mmawOf (m : BitVec 2) (ta tb : BitVec 4) (z : Bool) : M Flow := do
  let a ← operandTile ta 16 32
  let b ← operandTile tb 32 32
  checkTiles [a, b]
  let av ← tileValues a
  let bv ← tileValues b
  stepInto m z (av.map (·.take 16)) (bv.take 16)
  stepInto m false (av.map (·.drop 16)) (bv.drop 16)
  return .seq

/-- MSCA (R243): the accumulator scaled by a vector's lanes. -/
def mscaOf (byCol : Bool) (m : BitVec 2) (v : BitVec 6) : M Flow := do
  let r := mscaAccum (← read).core (← readKpos m).toNat byCol (← readM m) (← readV v)
  writeM m r.1
  raiseFlags r.2
  return .seq

/-- A scratchpad after an element's bytes are written. -/
def putElem (d : TileDesc) (mem : Memory) (r c e : Nat) : Memory :=
  let b := d.elemBit r c
  (d.elemBytes r c).foldl (fun mem a => mem.write a 1 (mergeByte (mem.read a 1) a b (tileBits d.fmt) e)) mem

/-- The blocks marked and the poison lost where bytes of the scratchpad have been written (R180, R413). -/
def Core.marked (k : Core) (bytes : List Nat) : Core :=
  { k with
    touched := bytes.foldl (fun t a => t ||| BitVec.ofNat 64 (2 ^ (a / 4096))) k.touched
    scratchPois := k.scratchPois.filter fun p => !(List.range 8).all fun j => bytes.contains (8 * p + j) }

/-- TDSET: a descriptor written whole (R236). -/
def actTdset (t : BitVec 4) (a : BitVec 5) : M Flow := do
  let w ← src a
  if !tileWordOk w then raise .illegal w
  modCore fun c => { c with t := c.t.setIfInBounds t.toNat w }
  return .seq

/-- TDSET as a unit (R236). -/
def execTdset (t : BitVec 4) (a : BitVec 5) (s : State) : Host.Outcome State Fault Refusal :=
  lone (.tdset t a) (actTdset t a) s

/-- R234: a range's lowest byte that a lock covers is the faulting address. -/
def checkSpanLocks (ea : Word) (n : Nat) : M Unit := do
  let held := ((← theCore).locks.filter fun l =>
    overlaps ea.toNat (ea.toNat + n) l.2.base (l.2.base + l.2.len)).map fun l => max ea.toNat l.2.base
  if !held.isEmpty then raise .rangelock (BitVec.ofNat 64 (lowest held))

/-- LDTAB: 256 entries from the scratchpad as they stand, poisoned or not (R237, R234; log 44). -/
def actLdtab (a : BitVec 5) : M Flow := do
  let off ← src a
  let ea := BitVec.ofNat 64 scratchBase + off
  if off.extractLsb' 0 6 != 0#6 then raise .align ea
  if 0x3FC00 < off.toNat then raise .aperture ea
  let c ← theCore
  checkSpanLocks ea 1024
  let raw := c.scratch.read off.toNat 1024
  let tb : Table := Vector.ofFn fun i => BitVec.ofNat 32 (raw / 2 ^ (32 * i.val))
  if !tb.valid then raise .table ea
  modCore fun _ => { c with table := tb, tabstat := tb.stat }
  return .seq

/-- LDTAB as a unit (R237). -/
def execLdtab (a : BitVec 5) (s : State) : Host.Outcome State Fault Refusal :=
  lone (.ldtab a) (actLdtab a) s

/-- MMA: a K-step into md (R238, R239). -/
def actMma (m : BitVec 2) (a : BitVec 4) (b : BitVec 4) : M Flow := mmaOf m a b false

/-- MMA as a unit (R238, R239). -/
def execMma (m : BitVec 2) (a : BitVec 4) (b : BitVec 4) (s : State) : Host.Outcome State Fault Refusal :=
  lone (.mma m a b) (actMma m a b) s

/-- MMAZ: a K-step that starts md anew (R238, R239). -/
def actMmaz (m : BitVec 2) (a : BitVec 4) (b : BitVec 4) : M Flow := mmaOf m a b true

/-- MMAZ as a unit (R238, R239). -/
def execMmaz (m : BitVec 2) (a : BitVec 4) (b : BitVec 4) (s : State) : Host.Outcome State Fault Refusal :=
  lone (.mmaz m a b) (actMmaz m a b) s

/-- MMAW: two K-steps as one unit (R240). -/
def actMmaw (m : BitVec 2) (a : BitVec 4) (b : BitVec 4) : M Flow := mmawOf m a b false

/-- MMAW as a unit (R240). -/
def execMmaw (m : BitVec 2) (a : BitVec 4) (b : BitVec 4) (s : State) : Host.Outcome State Fault Refusal :=
  lone (.mmaw m a b) (actMmaw m a b) s

/-- MMAWZ: two K-steps that start md anew (R240). -/
def actMmawz (m : BitVec 2) (a : BitVec 4) (b : BitVec 4) : M Flow := mmawOf m a b true

/-- MMAWZ as a unit (R240). -/
def execMmawz (m : BitVec 2) (a : BitVec 4) (b : BitVec 4) (s : State) : Host.Outcome State Fault Refusal :=
  lone (.mmawz m a b) (actMmawz m a b) s

/-- MZERO: the accumulators of a mask and their KPOS (R242). -/
def actMzero (k : BitVec 4) : M Flow := do
  (List.range 4).forM fun i => do
    if k.getLsbD i then
      writeM (BitVec.ofNat 2 i) Accum.zero
      writeKpos (BitVec.ofNat 2 i) 0
  return .seq

/-- MZERO as a unit (R242). -/
def execMzero (k : BitVec 4) (s : State) : Host.Outcome State Fault Refusal :=
  lone (.mzero k) (actMzero k) s

/-- MSCA.ROW: lane i of VS scales row i (R243). -/
def actMscaRow (m : BitVec 2) (v : BitVec 6) : M Flow := mscaOf false m v

/-- MSCA.ROW as a unit (R243). -/
def execMscaRow (m : BitVec 2) (v : BitVec 6) (s : State) : Host.Outcome State Fault Refusal :=
  lone (.mscaRow m v) (actMscaRow m v) s

/-- MSCA.COL: lane j of VS scales column j (R243). -/
def actMscaCol (m : BitVec 2) (v : BitVec 6) : M Flow := mscaOf true m v

/-- MSCA.COL as a unit (R243). -/
def execMscaCol (m : BitVec 2) (v : BitVec 6) (s : State) : Host.Outcome State Fault Refusal :=
  lone (.mscaCol m v) (actMscaCol m v) s

/-- MCMB: MA added into MD (R244). -/
def actMcmb (m : BitVec 2) (a : BitVec 2) : M Flow := do
  let r := mcmbAccum (← read).core (← readKpos m).toNat (← readM m) (← readM a)
  writeM m r.1
  raiseFlags r.2
  return .seq

/-- MCMB as a unit (R244). -/
def execMcmb (m : BitVec 2) (a : BitVec 2) (s : State) : Host.Outcome State Fault Refusal :=
  lone (.mcmb m a) (actMcmb m a) s

/-- MRD: an accumulator row to a vector register (R245). -/
def actMrd (v : BitVec 6) (m : BitVec 2) (r : BitVec 4) : M Flow := do
  let x ← readM m
  writeV v (x.toList.getD r.toNat 0)
  return .seq

/-- MRD as a unit (R245). -/
def execMrd (v : BitVec 6) (m : BitVec 2) (r : BitVec 4) (s : State) : Host.Outcome State Fault Refusal :=
  lone (.mrd v m r) (actMrd v m r) s

/-- MWR: a vector register to an accumulator row (R245). -/
def actMwr (v : BitVec 6) (m : BitVec 2) (r : BitVec 4) : M Flow := do
  let x ← readM m
  writeM m (x.setIfInBounds r.toNat (← readV v))
  return .seq

/-- MWR as a unit (R245). -/
def execMwr (v : BitVec 6) (m : BitVec 2) (r : BitVec 4) (s : State) : Host.Outcome State Fault Refusal :=
  lone (.mwr v m r) (actMwr v m r) s

/-- MLD: a tile widened to f32 (R246). -/
def actMld (m : BitVec 2) (a : BitVec 4) : M Flow := do
  let d ← readT a
  checkTiles [{ desc := d, rows := 16, cols := 32 }]
  let c ← theCore
  writeM m (mldAccum d c.table fun x => c.scratch.read x 1)
  return .seq

/-- MLD as a unit (R246). -/
def execMld (m : BitVec 2) (a : BitVec 4) (s : State) : Host.Outcome State Fault Refusal :=
  lone (.mld m a) (actMld m a) s

/-- MST: an accumulator narrowed into a tile (R247). -/
def actMst (m : BitVec 2) (t : BitVec 4) (f : BitVec 3) (c : BitVec 4) (r : BitVec 2) : M Flow := do
  let d0 ← readT t
  let d : TileDesc := { d0 with fmt := f.toNat, cb := c.toNat }
  let tile : Tile := { desc := d, rows := 16, cols := 32 }
  checkTiles [tile]
  let k ← theCore
  let x ← readM m
  let es := (tilePositions 16 32).map fun p => (p, mstElem k.table d.fmt d.cb (mstRnd r) (x.at p.1 p.2))
  modCore fun k =>
    ({ k with scratch := es.foldl (fun mem e => putElem d mem e.1.1 e.1.2 e.2.1) k.scratch } : Core).marked tile.bytes
  raiseFlags (es.foldl (fun fl e => fl ||| e.2.2) 0)
  return .seq

/-- MST as a unit (R247). -/
def execMst (m : BitVec 2) (t : BitVec 4) (f : BitVec 3) (c : BitVec 4) (r : BitVec 2) (s : State) : Host.Outcome State Fault Refusal :=
  lone (.mst m t f c r) (actMst m t f c r) s

end Sys2Proof.Machine
end

