-- ==== Sys2Proof/Machine/Scalar.lean ====
section
/-!
DEFINITION. Sys2Proof/Machine/Scalar.lean: the scalar instructions (spec 05, R93 to R100): what each computes, and its
meaning as a unit.
-/

namespace Sys2Proof.Machine

/-! ### Values (Tables 5.5 and 5.6) -/

/-- Bits [127:64] of the exact signed product. -/
def mulHigh (a b : Word) : Word := BitVec.ofInt 64 (a.toInt * b.toInt / 2 ^ 64)

/-- Bits [127:64] of the exact natural product. -/
def mulHighN (a b : Word) : Word := BitVec.ofNat 64 (a.toNat * b.toNat / 2 ^ 64)

/-- R94: all ones for a zero divisor; else the quotient rounded towards zero, modulo 2^64. -/
def divS (a b : Word) : Word := if b = 0 then -1 else BitVec.ofInt 64 (a.toInt.tdiv b.toInt)

def divN (a b : Word) : Word := if b = 0 then -1 else BitVec.ofNat 64 (a.toNat / b.toNat)

/-- R94: the dividend for a zero divisor; else a − b · quotient. -/
def remS (a b : Word) : Word := if b = 0 then a else BitVec.ofInt 64 (a.toInt.tmod b.toInt)

def remN (a b : Word) : Word := if b = 0 then a else BitVec.ofNat 64 (a.toNat % b.toNat)

/-- A shift count is b[5:0]. -/
def shiftCount (b : Word) : Nat := b.toNat % 64

def shiftLeft (a b : Word) : Word := a <<< shiftCount b

def shiftRight (a b : Word) : Word := a >>> shiftCount b

def shiftArith (a b : Word) : Word := a.sshiftRight (shiftCount b)

def minS (a b : Word) : Word := if a.toInt <= b.toInt then a else b

def maxS (a b : Word) : Word := if a.toInt <= b.toInt then b else a

def minN (a b : Word) : Word := if a.toNat <= b.toNat then a else b

def maxN (a b : Word) : Word := if a.toNat <= b.toNat then b else a

/-- Leading zero bits of a number of `n` bits. -/
def leadingZeros : Nat → Nat → Nat
  | 0, _ => 0
  | n + 1, x => if x / 2 ^ n % 2 == 1 then 0 else 1 + leadingZeros n x

/-- Trailing zero bits of a number of `n` bits. -/
def trailingZeros : Nat → Nat → Nat
  | 0, _ => 0
  | n + 1, x => if x % 2 == 1 then 0 else 1 + trailingZeros n (x / 2)

def bitCount : Nat → Nat → Nat
  | 0, _ => 0
  | n + 1, x => x % 2 + bitCount n (x / 2)

/-- The `n` bytes of a number in reverse order. -/
def reverseBytes : Nat → Nat → Nat
  | 0, _ => 0
  | n + 1, x => x % 256 * 2 ^ (8 * n) + reverseBytes n (x / 256)

/-- LUI: SignExtend((IMM19 ≪ 13)[31:0]). -/
def luiValue (i : BitVec 19) : Word := ((i.setWidth 32) <<< 13).signExtend 64

/-- INSH: a register with one half replaced. -/
def inshValue (x : Word) (h : BitVec 2) (i : BitVec 16) : Word :=
  (x &&& ~~~((0xFFFF : Word) <<< (16 * h.toNat))) ||| ((i.setWidth 64) <<< (16 * h.toNat))

/-- The comparisons of CMP and CMPI (Table 4.19). -/
def scalarCc (c : BitVec 3) (a b : Word) : Bool :=
  match c.toNat with
  | 0 => a == b
  | 1 => a != b
  | 2 => a.toInt < b.toInt
  | 3 => a.toNat < b.toNat
  | 4 => a.toInt <= b.toInt
  | _ => a.toNat <= b.toNat

/-- CMPI's immediate: zero-extended for LTN and LEN, else sign-extended (R97). -/
def cmpiImm (c : BitVec 3) (i : BitVec 13) : Word := if c == 3 || c == 5 then i.setWidth 64 else i.signExtend 64

/-! ### Shapes -/

/-- d ← f(Src(RA), Src(RB)). -/
def binary (f : Word → Word → Word) (d a b : BitVec 5) : M Flow := do
  let x ← src a
  let y ← src b
  dst d (f x y)
  return .seq

/-- d ← f(Src(RA)). -/
def unary (f : Word → Word) (d a : BitVec 5) : M Flow := do
  let x ← src a
  dst d (f x)
  return .seq

/-! ### The instructions -/

/-- ADD (R93): a + b. -/
def actAdd (d : BitVec 5) (a : BitVec 5) (b : BitVec 5) : M Flow := binary (fun x y => x + y) d a b

/-- ADD as a unit (R93). -/
def execAdd (d : BitVec 5) (a : BitVec 5) (b : BitVec 5) (s : State) : Host.Outcome State Fault Refusal :=
  lone (.add d a b) (actAdd d a b) s

/-- SUB (R93): a − b. -/
def actSub (d : BitVec 5) (a : BitVec 5) (b : BitVec 5) : M Flow := binary (fun x y => x - y) d a b

/-- SUB as a unit (R93). -/
def execSub (d : BitVec 5) (a : BitVec 5) (b : BitVec 5) (s : State) : Host.Outcome State Fault Refusal :=
  lone (.sub d a b) (actSub d a b) s

/-- AND (R93): a AND b. -/
def actAnd (d : BitVec 5) (a : BitVec 5) (b : BitVec 5) : M Flow := binary (fun x y => x &&& y) d a b

/-- AND as a unit (R93). -/
def execAnd (d : BitVec 5) (a : BitVec 5) (b : BitVec 5) (s : State) : Host.Outcome State Fault Refusal :=
  lone (.and d a b) (actAnd d a b) s

/-- OR (R93): a OR b. -/
def actOr (d : BitVec 5) (a : BitVec 5) (b : BitVec 5) : M Flow := binary (fun x y => x ||| y) d a b

/-- OR as a unit (R93). -/
def execOr (d : BitVec 5) (a : BitVec 5) (b : BitVec 5) (s : State) : Host.Outcome State Fault Refusal :=
  lone (.or d a b) (actOr d a b) s

/-- XOR (R93): a XOR b. -/
def actXor (d : BitVec 5) (a : BitVec 5) (b : BitVec 5) : M Flow := binary (fun x y => x ^^^ y) d a b

/-- XOR as a unit (R93). -/
def execXor (d : BitVec 5) (a : BitVec 5) (b : BitVec 5) (s : State) : Host.Outcome State Fault Refusal :=
  lone (.xor d a b) (actXor d a b) s

/-- ANDN (R93): a AND NOT b. -/
def actAndn (d : BitVec 5) (a : BitVec 5) (b : BitVec 5) : M Flow := binary (fun x y => x &&& ~~~y) d a b

/-- ANDN as a unit (R93). -/
def execAndn (d : BitVec 5) (a : BitVec 5) (b : BitVec 5) (s : State) : Host.Outcome State Fault Refusal :=
  lone (.andn d a b) (actAndn d a b) s

/-- SHL (R93): a shifted left by b[5:0]. -/
def actShl (d : BitVec 5) (a : BitVec 5) (b : BitVec 5) : M Flow := binary shiftLeft d a b

/-- SHL as a unit (R93). -/
def execShl (d : BitVec 5) (a : BitVec 5) (b : BitVec 5) (s : State) : Host.Outcome State Fault Refusal :=
  lone (.shl d a b) (actShl d a b) s

/-- SHR (R93): a shifted right with zeros. -/
def actShr (d : BitVec 5) (a : BitVec 5) (b : BitVec 5) : M Flow := binary shiftRight d a b

/-- SHR as a unit (R93). -/
def execShr (d : BitVec 5) (a : BitVec 5) (b : BitVec 5) (s : State) : Host.Outcome State Fault Refusal :=
  lone (.shr d a b) (actShr d a b) s

/-- SRA (R93): a shifted right with copies of a[63]. -/
def actSra (d : BitVec 5) (a : BitVec 5) (b : BitVec 5) : M Flow := binary shiftArith d a b

/-- SRA as a unit (R93). -/
def execSra (d : BitVec 5) (a : BitVec 5) (b : BitVec 5) (s : State) : Host.Outcome State Fault Refusal :=
  lone (.sra d a b) (actSra d a b) s

/-- MIN (R93): the smaller, signed. -/
def actMin (d : BitVec 5) (a : BitVec 5) (b : BitVec 5) : M Flow := binary minS d a b

/-- MIN as a unit (R93). -/
def execMin (d : BitVec 5) (a : BitVec 5) (b : BitVec 5) (s : State) : Host.Outcome State Fault Refusal :=
  lone (.min d a b) (actMin d a b) s

/-- MAX (R93): the larger, signed. -/
def actMax (d : BitVec 5) (a : BitVec 5) (b : BitVec 5) : M Flow := binary maxS d a b

/-- MAX as a unit (R93). -/
def execMax (d : BitVec 5) (a : BitVec 5) (b : BitVec 5) (s : State) : Host.Outcome State Fault Refusal :=
  lone (.max d a b) (actMax d a b) s

/-- MINN (R93): the smaller, natural. -/
def actMinn (d : BitVec 5) (a : BitVec 5) (b : BitVec 5) : M Flow := binary minN d a b

/-- MINN as a unit (R93). -/
def execMinn (d : BitVec 5) (a : BitVec 5) (b : BitVec 5) (s : State) : Host.Outcome State Fault Refusal :=
  lone (.minn d a b) (actMinn d a b) s

/-- MAXN (R93): the larger, natural. -/
def actMaxn (d : BitVec 5) (a : BitVec 5) (b : BitVec 5) : M Flow := binary maxN d a b

/-- MAXN as a unit (R93). -/
def execMaxn (d : BitVec 5) (a : BitVec 5) (b : BitVec 5) (s : State) : Host.Outcome State Fault Refusal :=
  lone (.maxn d a b) (actMaxn d a b) s

/-- MUL (R93): the low 64 bits of the product. -/
def actMul (d : BitVec 5) (a : BitVec 5) (b : BitVec 5) : M Flow := binary (fun x y => x * y) d a b

/-- MUL as a unit (R93). -/
def execMul (d : BitVec 5) (a : BitVec 5) (b : BitVec 5) (s : State) : Host.Outcome State Fault Refusal :=
  lone (.mul d a b) (actMul d a b) s

/-- MULH (R93): bits [127:64] of the signed product. -/
def actMulh (d : BitVec 5) (a : BitVec 5) (b : BitVec 5) : M Flow := binary mulHigh d a b

/-- MULH as a unit (R93). -/
def execMulh (d : BitVec 5) (a : BitVec 5) (b : BitVec 5) (s : State) : Host.Outcome State Fault Refusal :=
  lone (.mulh d a b) (actMulh d a b) s

/-- MULHN (R93): bits [127:64] of the natural product. -/
def actMulhn (d : BitVec 5) (a : BitVec 5) (b : BitVec 5) : M Flow := binary mulHighN d a b

/-- MULHN as a unit (R93). -/
def execMulhn (d : BitVec 5) (a : BitVec 5) (b : BitVec 5) (s : State) : Host.Outcome State Fault Refusal :=
  lone (.mulhn d a b) (actMulhn d a b) s

/-- DIV (R93): the signed quotient (R94). -/
def actDiv (d : BitVec 5) (a : BitVec 5) (b : BitVec 5) : M Flow := binary divS d a b

/-- DIV as a unit (R93). -/
def execDiv (d : BitVec 5) (a : BitVec 5) (b : BitVec 5) (s : State) : Host.Outcome State Fault Refusal :=
  lone (.div d a b) (actDiv d a b) s

/-- DIVN (R93): the natural quotient (R94). -/
def actDivn (d : BitVec 5) (a : BitVec 5) (b : BitVec 5) : M Flow := binary divN d a b

/-- DIVN as a unit (R93). -/
def execDivn (d : BitVec 5) (a : BitVec 5) (b : BitVec 5) (s : State) : Host.Outcome State Fault Refusal :=
  lone (.divn d a b) (actDivn d a b) s

/-- REM (R93): the signed remainder (R94). -/
def actRem (d : BitVec 5) (a : BitVec 5) (b : BitVec 5) : M Flow := binary remS d a b

/-- REM as a unit (R93). -/
def execRem (d : BitVec 5) (a : BitVec 5) (b : BitVec 5) (s : State) : Host.Outcome State Fault Refusal :=
  lone (.rem d a b) (actRem d a b) s

/-- REMN (R93): the natural remainder (R94). -/
def actRemn (d : BitVec 5) (a : BitVec 5) (b : BitVec 5) : M Flow := binary remN d a b

/-- REMN as a unit (R93). -/
def execRemn (d : BitVec 5) (a : BitVec 5) (b : BitVec 5) (s : State) : Host.Outcome State Fault Refusal :=
  lone (.remn d a b) (actRemn d a b) s

/-- SHADD1 (R93): (a ≪ 1) + b. -/
def actShadd1 (d : BitVec 5) (a : BitVec 5) (b : BitVec 5) : M Flow := binary (fun x y => (x <<< 1) + y) d a b

/-- SHADD1 as a unit (R93). -/
def execShadd1 (d : BitVec 5) (a : BitVec 5) (b : BitVec 5) (s : State) : Host.Outcome State Fault Refusal :=
  lone (.shadd1 d a b) (actShadd1 d a b) s

/-- SHADD2 (R93): (a ≪ 2) + b. -/
def actShadd2 (d : BitVec 5) (a : BitVec 5) (b : BitVec 5) : M Flow := binary (fun x y => (x <<< 2) + y) d a b

/-- SHADD2 as a unit (R93). -/
def execShadd2 (d : BitVec 5) (a : BitVec 5) (b : BitVec 5) (s : State) : Host.Outcome State Fault Refusal :=
  lone (.shadd2 d a b) (actShadd2 d a b) s

/-- SHADD3 (R93): (a ≪ 3) + b. -/
def actShadd3 (d : BitVec 5) (a : BitVec 5) (b : BitVec 5) : M Flow := binary (fun x y => (x <<< 3) + y) d a b

/-- SHADD3 as a unit (R93). -/
def execShadd3 (d : BitVec 5) (a : BitVec 5) (b : BitVec 5) (s : State) : Host.Outcome State Fault Refusal :=
  lone (.shadd3 d a b) (actShadd3 d a b) s

/-- ADDI (R95). -/
def actAddi (d : BitVec 5) (a : BitVec 5) (i : BitVec 14) : M Flow := unary (fun x => x + i.signExtend 64) d a

/-- ADDI as a unit (R95). -/
def execAddi (d : BitVec 5) (a : BitVec 5) (i : BitVec 14) (s : State) : Host.Outcome State Fault Refusal :=
  lone (.addi d a i) (actAddi d a i) s

/-- ANDI (R95). -/
def actAndi (d : BitVec 5) (a : BitVec 5) (i : BitVec 14) : M Flow := unary (fun x => x &&& i.signExtend 64) d a

/-- ANDI as a unit (R95). -/
def execAndi (d : BitVec 5) (a : BitVec 5) (i : BitVec 14) (s : State) : Host.Outcome State Fault Refusal :=
  lone (.andi d a i) (actAndi d a i) s

/-- ORI (R95). -/
def actOri (d : BitVec 5) (a : BitVec 5) (i : BitVec 14) : M Flow := unary (fun x => x ||| i.signExtend 64) d a

/-- ORI as a unit (R95). -/
def execOri (d : BitVec 5) (a : BitVec 5) (i : BitVec 14) (s : State) : Host.Outcome State Fault Refusal :=
  lone (.ori d a i) (actOri d a i) s

/-- XORI (R95). -/
def actXori (d : BitVec 5) (a : BitVec 5) (i : BitVec 14) : M Flow := unary (fun x => x ^^^ i.signExtend 64) d a

/-- XORI as a unit (R95). -/
def execXori (d : BitVec 5) (a : BitVec 5) (i : BitVec 14) (s : State) : Host.Outcome State Fault Refusal :=
  lone (.xori d a i) (actXori d a i) s

/-- SHLI (R95). -/
def actShli (d : BitVec 5) (a : BitVec 5) (s : BitVec 6) : M Flow := unary (fun x => x <<< s.toNat) d a

/-- SHLI as a unit (R95). -/
def execShli (d : BitVec 5) (a : BitVec 5) (s : BitVec 6) (st : State) : Host.Outcome State Fault Refusal :=
  lone (.shli d a s) (actShli d a s) st

/-- SHRI (R95). -/
def actShri (d : BitVec 5) (a : BitVec 5) (s : BitVec 6) : M Flow := unary (fun x => x >>> s.toNat) d a

/-- SHRI as a unit (R95). -/
def execShri (d : BitVec 5) (a : BitVec 5) (s : BitVec 6) (st : State) : Host.Outcome State Fault Refusal :=
  lone (.shri d a s) (actShri d a s) st

/-- SRAI (R95). -/
def actSrai (d : BitVec 5) (a : BitVec 5) (s : BitVec 6) : M Flow := unary (fun x => x.sshiftRight s.toNat) d a

/-- SRAI as a unit (R95). -/
def execSrai (d : BitVec 5) (a : BitVec 5) (s : BitVec 6) (st : State) : Host.Outcome State Fault Refusal :=
  lone (.srai d a s) (actSrai d a s) st

/-- LUI (R95). -/
def actLui (d : BitVec 5) (i : BitVec 19) : M Flow := do
  dst d (luiValue i)
  return .seq

/-- LUI as a unit (R95). -/
def execLui (d : BitVec 5) (i : BitVec 19) (s : State) : Host.Outcome State Fault Refusal :=
  lone (.lui d i) (actLui d i) s

/-- INSH (R95): the other halves are kept. -/
def actInsh (d : BitVec 5) (h : BitVec 2) (i : BitVec 16) : M Flow := do
  let x ← src d
  dst d (inshValue x h i)
  return .seq

/-- INSH as a unit (R95). -/
def execInsh (d : BitVec 5) (h : BitVec 2) (i : BitVec 16) (s : State) : Host.Outcome State Fault Refusal :=
  lone (.insh d h i) (actInsh d h i) s

/-- CLZ (R96): leading zero bits, 64 for 0. -/
def actClz (d : BitVec 5) (a : BitVec 5) : M Flow := unary (fun x => BitVec.ofNat 64 (leadingZeros 64 x.toNat)) d a

/-- CLZ as a unit (R96). -/
def execClz (d : BitVec 5) (a : BitVec 5) (s : State) : Host.Outcome State Fault Refusal :=
  lone (.clz d a) (actClz d a) s

/-- CTZ (R96): trailing zero bits, 64 for 0. -/
def actCtz (d : BitVec 5) (a : BitVec 5) : M Flow := unary (fun x => BitVec.ofNat 64 (trailingZeros 64 x.toNat)) d a

/-- CTZ as a unit (R96). -/
def execCtz (d : BitVec 5) (a : BitVec 5) (s : State) : Host.Outcome State Fault Refusal :=
  lone (.ctz d a) (actCtz d a) s

/-- POPC (R96): one bits. -/
def actPopc (d : BitVec 5) (a : BitVec 5) : M Flow := unary (fun x => BitVec.ofNat 64 (bitCount 64 x.toNat)) d a

/-- POPC as a unit (R96). -/
def execPopc (d : BitVec 5) (a : BitVec 5) (s : State) : Host.Outcome State Fault Refusal :=
  lone (.popc d a) (actPopc d a) s

/-- BSWAP (R96): the eight bytes reversed. -/
def actBswap (d : BitVec 5) (a : BitVec 5) : M Flow := unary (fun x => BitVec.ofNat 64 (reverseBytes 8 x.toNat)) d a

/-- BSWAP as a unit (R96). -/
def execBswap (d : BitVec 5) (a : BitVec 5) (s : State) : Host.Outcome State Fault Refusal :=
  lone (.bswap d a) (actBswap d a) s

/-- EXTB (R96): a[7:0] sign-extended. -/
def actExtb (d : BitVec 5) (a : BitVec 5) : M Flow := unary (fun x => (x.setWidth 8).signExtend 64) d a

/-- EXTB as a unit (R96). -/
def execExtb (d : BitVec 5) (a : BitVec 5) (s : State) : Host.Outcome State Fault Refusal :=
  lone (.extb d a) (actExtb d a) s

/-- EXTH (R96): a[15:0] sign-extended. -/
def actExth (d : BitVec 5) (a : BitVec 5) : M Flow := unary (fun x => (x.setWidth 16).signExtend 64) d a

/-- EXTH as a unit (R96). -/
def execExth (d : BitVec 5) (a : BitVec 5) (s : State) : Host.Outcome State Fault Refusal :=
  lone (.exth d a) (actExth d a) s

/-- EXTW (R96): a[31:0] sign-extended. -/
def actExtw (d : BitVec 5) (a : BitVec 5) : M Flow := unary (fun x => (x.setWidth 32).signExtend 64) d a

/-- EXTW as a unit (R96). -/
def execExtw (d : BitVec 5) (a : BitVec 5) (s : State) : Host.Outcome State Fault Refusal :=
  lone (.extw d a) (actExtw d a) s

/-- EXTBN (R96): a[7:0] zero-extended. -/
def actExtbn (d : BitVec 5) (a : BitVec 5) : M Flow := unary (fun x => (x.setWidth 8).setWidth 64) d a

/-- EXTBN as a unit (R96). -/
def execExtbn (d : BitVec 5) (a : BitVec 5) (s : State) : Host.Outcome State Fault Refusal :=
  lone (.extbn d a) (actExtbn d a) s

/-- EXTHN (R96): a[15:0] zero-extended. -/
def actExthn (d : BitVec 5) (a : BitVec 5) : M Flow := unary (fun x => (x.setWidth 16).setWidth 64) d a

/-- EXTHN as a unit (R96). -/
def execExthn (d : BitVec 5) (a : BitVec 5) (s : State) : Host.Outcome State Fault Refusal :=
  lone (.exthn d a) (actExthn d a) s

/-- EXTWN (R96): a[31:0] zero-extended. -/
def actExtwn (d : BitVec 5) (a : BitVec 5) : M Flow := unary (fun x => (x.setWidth 32).setWidth 64) d a

/-- EXTWN as a unit (R96). -/
def execExtwn (d : BitVec 5) (a : BitVec 5) (s : State) : Host.Outcome State Fault Refusal :=
  lone (.extwn d a) (actExtwn d a) s

/-- CMP (R97): the sources are popped even when p0 is named. -/
def actCmp (p : BitVec 3) (c : BitVec 3) (a : BitVec 5) (b : BitVec 5) : M Flow := do
  let x ← src a
  let y ← src b
  writePred p (scalarCc c x y)
  return .seq

/-- CMP as a unit (R97). -/
def execCmp (p : BitVec 3) (c : BitVec 3) (a : BitVec 5) (b : BitVec 5) (s : State) : Host.Outcome State Fault Refusal :=
  lone (.cmp p c a b) (actCmp p c a b) s

/-- CMPI (R97). -/
def actCmpi (p : BitVec 3) (c : BitVec 3) (a : BitVec 5) (i : BitVec 13) : M Flow := do
  let x ← src a
  writePred p (scalarCc c x (cmpiImm c i))
  return .seq

/-- CMPI as a unit (R97). -/
def execCmpi (p : BitVec 3) (c : BitVec 3) (a : BitVec 5) (i : BitVec 13) (s : State) : Host.Outcome State Fault Refusal :=
  lone (.cmpi p c a i) (actCmpi p c a i) s

/-- PLOG's function (R98, Table 4.19): AND, OR, XOR, ANDN, ORN, MOV, SET, CLR. -/
def plogValue (f : BitVec 3) (a b : Bool) : Bool :=
  match f.toNat with
  | 0 => a && b
  | 1 => a || b
  | 2 => a != b
  | 3 => a && !b
  | 4 => a || !b
  | 5 => a
  | 6 => true
  | _ => false

/-- PLOG (R98). -/
def actPlog (d : BitVec 3) (f : BitVec 3) (a : BitVec 3) (b : BitVec 3) : M Flow := do
  let x ← readPred a
  let y ← readPred b
  writePred d (plogValue f x y)
  return .seq

/-- PLOG as a unit (R98). -/
def execPlog (d : BitVec 3) (f : BitVec 3) (a : BitVec 3) (b : BitVec 3) (s : State) : Host.Outcome State Fault Refusal :=
  lone (.plog d f a b) (actPlog d f a b) s

/-- SEL (R99): both sources are read. -/
def actSel (d : BitVec 5) (a : BitVec 5) (b : BitVec 5) (g : BitVec 4) : M Flow := do
  let x ← src a
  let y ← src b
  dst d (if ← guardHolds g then x else y)
  return .seq

/-- SEL as a unit (R99). -/
def execSel (d : BitVec 5) (a : BitVec 5) (b : BitVec 5) (g : BitVec 4) (s : State) : Host.Outcome State Fault Refusal :=
  lone (.sel d a b g) (actSel d a b g) s

/-- PMOV rd, pall (R100). -/
def actPmovToReg (r : BitVec 5) : M Flow := do
  dst r ((← readPreds).setWidth 64)
  return .seq

/-- PMOV rd, pall as a unit (R100). -/
def execPmovToReg (r : BitVec 5) (s : State) : Host.Outcome State Fault Refusal :=
  lone (.pmovToReg r) (actPmovToReg r) s

/-- PMOV pall, ra (R100). -/
def actPmovFromReg (r : BitVec 5) : M Flow := do
  let x ← src r
  writePreds (x.setWidth 8)
  return .seq

/-- PMOV pall, ra as a unit (R100). -/
def execPmovFromReg (r : BitVec 5) (s : State) : Host.Outcome State Fault Refusal :=
  lone (.pmovFromReg r) (actPmovFromReg r) s

end Sys2Proof.Machine
end

