-- ==== Sys2Proof/Machine/Vector.lean ====
section
/-!
DEFINITION. Sys2Proof/Machine/Vector.lean: the vector engine's instructions: each reads its sources, applies a lane
function of Lanes.lean, writes its destination and raises its flags (spec 10, R202 to R229).
-/

namespace Sys2Proof.Machine

/-! ### Shared forms -/

/-- A result and its flags written at once (R204). -/
def putV (d : BitVec 6) (r : VReg × Flags) : M Flow := do
  writeV d r.1
  raiseFlags r.2
  return .seq

/-- A result that sets no flag. -/
def putPlain (d : BitVec 6) (r : VReg) : M Flow := do
  writeV d r
  return .seq

/-- An operation on VA. -/
def vOn1 (d a : BitVec 6) (f : VReg → VReg × Flags) : M Flow := do
  let x ← readV a
  putV d (f x)

/-- An operation on VA and VB. -/
def vOn2 (d a b : BitVec 6) (f : VEnv → VReg → VReg → VReg × Flags) : M Flow := do
  let e ← vEnv
  let x ← readV a
  let y ← readV b
  putV d (f e x y)

/-- An operation on VA, VB and VD. -/
def vOn3 (d a b : BitVec 6) (f : VEnv → VReg → VReg → VReg → VReg × Flags) : M Flow := do
  let e ← vEnv
  let x ← readV a
  let y ← readV b
  let z ← readV d
  putV d (f e x y z)

/-- A function without flags, as one with none raised. -/
def noFlags (r : VReg) : VReg × Flags := (r, 0)

/-- R193: an instruction that decodes or encodes codes needs an accepted table. -/
def needTable : M Table := do
  let c ← theCore
  if !c.tabstat.getLsbD 0 then raiseOpen .table
  return c.table

/-- The residue register a conversion uses (R197); e0 stands in where there is none and is not written. -/
def CvtRnd.residue : CvtRnd → Nat
  | .ef k => k
  | .mode _ => 0

/-- A conversion's results: VD, the residue register of an error-feedback mode, the flags (R197). -/
def putCvt (d : BitVec 6) (rnd : CvtRnd) (r : VReg × VReg × Flags) : M Flow := do
  writeV d r.1
  match rnd with
  | .ef k => writeE k r.2.1
  | .mode _ => pure ()
  raiseFlags r.2.2
  return .seq

/-- VENC of a scope: the named part of VD replaced (R225). -/
def encode (d a : BitVec 6) (s : Scope) (r : BitVec 4) (q : BitVec 3) : M Flow := do
  let tb ← needTable
  let rnd ← resolveRnd true r
  let x ← readV a
  let z ← readV d
  let e ← readE rnd.residue
  putCvt d rnd (vEnc (← read).core tb s rnd q.toNat x z e)

/-- VDEC of a scope (R226). -/
def decodePart (d a : BitVec 6) (s : Scope) (q : BitVec 3) : M Flow := do
  let tb ← needTable
  putPlain d (vDec tb s q.toNat (← readV a))

/-! ### The instructions -/

/-- VADD: a + b (R206, R208). -/
def actVadd (d : BitVec 6) (a : BitVec 6) (b : BitVec 6) (t : BitVec 3) : M Flow := vOn2 d a b fun e x y => vAddSub e t false x y

/-- VADD as a unit (R206, R208). -/
def execVadd (d : BitVec 6) (a : BitVec 6) (b : BitVec 6) (t : BitVec 3) (s : State) : Host.Outcome State Fault Refusal :=
  lone (.vadd d a b t) (actVadd d a b t) s

/-- VADD.SAT.i: Sat(a + b), signed (R207). -/
def actVaddSatI (d : BitVec 6) (a : BitVec 6) (b : BitVec 6) (t : BitVec 3) : M Flow := vOn2 d a b fun _ x y => vAddSubSat t true false x y

/-- VADD.SAT.i as a unit (R207). -/
def execVaddSatI (d : BitVec 6) (a : BitVec 6) (b : BitVec 6) (t : BitVec 3) (s : State) : Host.Outcome State Fault Refusal :=
  lone (.vaddSatI d a b t) (actVaddSatI d a b t) s

/-- VADD.SAT.n: Sat(a + b), natural (R207). -/
def actVaddSatN (d : BitVec 6) (a : BitVec 6) (b : BitVec 6) (t : BitVec 3) : M Flow := vOn2 d a b fun _ x y => vAddSubSat t false false x y

/-- VADD.SAT.n as a unit (R207). -/
def execVaddSatN (d : BitVec 6) (a : BitVec 6) (b : BitVec 6) (t : BitVec 3) (s : State) : Host.Outcome State Fault Refusal :=
  lone (.vaddSatN d a b t) (actVaddSatN d a b t) s

/-- VSUB: a − b (R206, R208). -/
def actVsub (d : BitVec 6) (a : BitVec 6) (b : BitVec 6) (t : BitVec 3) : M Flow := vOn2 d a b fun e x y => vAddSub e t true x y

/-- VSUB as a unit (R206, R208). -/
def execVsub (d : BitVec 6) (a : BitVec 6) (b : BitVec 6) (t : BitVec 3) (s : State) : Host.Outcome State Fault Refusal :=
  lone (.vsub d a b t) (actVsub d a b t) s

/-- VSUB.SAT.i: Sat(a − b), signed (R207). -/
def actVsubSatI (d : BitVec 6) (a : BitVec 6) (b : BitVec 6) (t : BitVec 3) : M Flow := vOn2 d a b fun _ x y => vAddSubSat t true true x y

/-- VSUB.SAT.i as a unit (R207). -/
def execVsubSatI (d : BitVec 6) (a : BitVec 6) (b : BitVec 6) (t : BitVec 3) (s : State) : Host.Outcome State Fault Refusal :=
  lone (.vsubSatI d a b t) (actVsubSatI d a b t) s

/-- VSUB.SAT.n: Sat(a − b), natural (R207). -/
def actVsubSatN (d : BitVec 6) (a : BitVec 6) (b : BitVec 6) (t : BitVec 3) : M Flow := vOn2 d a b fun _ x y => vAddSubSat t false true x y

/-- VSUB.SAT.n as a unit (R207). -/
def execVsubSatN (d : BitVec 6) (a : BitVec 6) (b : BitVec 6) (t : BitVec 3) (s : State) : Host.Outcome State Fault Refusal :=
  lone (.vsubSatN d a b t) (actVsubSatN d a b t) s

/-- VMUL: a·b (R206, R208). -/
def actVmul (d : BitVec 6) (a : BitVec 6) (b : BitVec 6) (t : BitVec 3) : M Flow := vOn2 d a b fun e x y => vMul e t x y

/-- VMUL as a unit (R206, R208). -/
def execVmul (d : BitVec 6) (a : BitVec 6) (b : BitVec 6) (t : BitVec 3) (s : State) : Host.Outcome State Fault Refusal :=
  lone (.vmul d a b t) (actVmul d a b t) s

/-- VMUL.HI.i: the high half, signed (R206). -/
def actVmulHiI (d : BitVec 6) (a : BitVec 6) (b : BitVec 6) (t : BitVec 3) : M Flow := vOn2 d a b fun _ x y => vMulHi t true x y

/-- VMUL.HI.i as a unit (R206). -/
def execVmulHiI (d : BitVec 6) (a : BitVec 6) (b : BitVec 6) (t : BitVec 3) (s : State) : Host.Outcome State Fault Refusal :=
  lone (.vmulHiI d a b t) (actVmulHiI d a b t) s

/-- VMUL.HI.n: the high half, natural (R206). -/
def actVmulHiN (d : BitVec 6) (a : BitVec 6) (b : BitVec 6) (t : BitVec 3) : M Flow := vOn2 d a b fun _ x y => vMulHi t false x y

/-- VMUL.HI.n as a unit (R206). -/
def execVmulHiN (d : BitVec 6) (a : BitVec 6) (b : BitVec 6) (t : BitVec 3) (s : State) : Host.Outcome State Fault Refusal :=
  lone (.vmulHiN d a b t) (actVmulHiN d a b t) s

/-- VMUL.SAT.i: Sat(a·b), signed (R207). -/
def actVmulSat (d : BitVec 6) (a : BitVec 6) (b : BitVec 6) (t : BitVec 3) : M Flow := vOn2 d a b fun _ x y => vMulSat t x y

/-- VMUL.SAT.i as a unit (R207). -/
def execVmulSat (d : BitVec 6) (a : BitVec 6) (b : BitVec 6) (t : BitVec 3) (s : State) : Host.Outcome State Fault Refusal :=
  lone (.vmulSat d a b t) (actVmulSat d a b t) s

/-- VFMA: a·b + d (R206, R208). -/
def actVfma (d : BitVec 6) (a : BitVec 6) (b : BitVec 6) (t : BitVec 3) : M Flow := vOn3 d a b fun e x y z => vFma e t false false x y z

/-- VFMA as a unit (R206, R208). -/
def execVfma (d : BitVec 6) (a : BitVec 6) (b : BitVec 6) (t : BitVec 3) (s : State) : Host.Outcome State Fault Refusal :=
  lone (.vfma d a b t) (actVfma d a b t) s

/-- VFMA.MS: a·b − d (R206, R208). -/
def actVfmaMs (d : BitVec 6) (a : BitVec 6) (b : BitVec 6) (t : BitVec 3) : M Flow := vOn3 d a b fun e x y z => vFma e t false true x y z

/-- VFMA.MS as a unit (R206, R208). -/
def execVfmaMs (d : BitVec 6) (a : BitVec 6) (b : BitVec 6) (t : BitVec 3) (s : State) : Host.Outcome State Fault Refusal :=
  lone (.vfmaMs d a b t) (actVfmaMs d a b t) s

/-- VFMA.NA: −a·b + d (R206, R208). -/
def actVfmaNa (d : BitVec 6) (a : BitVec 6) (b : BitVec 6) (t : BitVec 3) : M Flow := vOn3 d a b fun e x y z => vFma e t true false x y z

/-- VFMA.NA as a unit (R206, R208). -/
def execVfmaNa (d : BitVec 6) (a : BitVec 6) (b : BitVec 6) (t : BitVec 3) (s : State) : Host.Outcome State Fault Refusal :=
  lone (.vfmaNa d a b t) (actVfmaNa d a b t) s

/-- VFMA.NMS: −a·b − d (R206, R208). -/
def actVfmaNms (d : BitVec 6) (a : BitVec 6) (b : BitVec 6) (t : BitVec 3) : M Flow := vOn3 d a b fun e x y z => vFma e t true true x y z

/-- VFMA.NMS as a unit (R206, R208). -/
def execVfmaNms (d : BitVec 6) (a : BitVec 6) (b : BitVec 6) (t : BitVec 3) (s : State) : Host.Outcome State Fault Refusal :=
  lone (.vfmaNms d a b t) (actVfmaNms d a b t) s

/-- VMIN: signed integers, or floats with NaNs first (R206, R209). -/
def actVmin (d : BitVec 6) (a : BitVec 6) (b : BitVec 6) (t : BitVec 3) : M Flow := vOn2 d a b fun _ x y => vMinMax t false false x y

/-- VMIN as a unit (R206, R209). -/
def execVmin (d : BitVec 6) (a : BitVec 6) (b : BitVec 6) (t : BitVec 3) (s : State) : Host.Outcome State Fault Refusal :=
  lone (.vmin d a b t) (actVmin d a b t) s

/-- VMIN of natural integers, and VMIN.NUM (R206, R209). -/
def actVminNum (d : BitVec 6) (a : BitVec 6) (b : BitVec 6) (t : BitVec 3) : M Flow := vOn2 d a b fun _ x y => vMinMax t false true x y

/-- VMIN of natural integers, and VMIN.NUM as a unit (R206, R209). -/
def execVminNum (d : BitVec 6) (a : BitVec 6) (b : BitVec 6) (t : BitVec 3) (s : State) : Host.Outcome State Fault Refusal :=
  lone (.vminNum d a b t) (actVminNum d a b t) s

/-- VMAX: signed integers, or floats with NaNs first (R206, R209). -/
def actVmax (d : BitVec 6) (a : BitVec 6) (b : BitVec 6) (t : BitVec 3) : M Flow := vOn2 d a b fun _ x y => vMinMax t true false x y

/-- VMAX as a unit (R206, R209). -/
def execVmax (d : BitVec 6) (a : BitVec 6) (b : BitVec 6) (t : BitVec 3) (s : State) : Host.Outcome State Fault Refusal :=
  lone (.vmax d a b t) (actVmax d a b t) s

/-- VMAX of natural integers, and VMAX.NUM (R206, R209). -/
def actVmaxNum (d : BitVec 6) (a : BitVec 6) (b : BitVec 6) (t : BitVec 3) : M Flow := vOn2 d a b fun _ x y => vMinMax t true true x y

/-- VMAX of natural integers, and VMAX.NUM as a unit (R206, R209). -/
def execVmaxNum (d : BitVec 6) (a : BitVec 6) (b : BitVec 6) (t : BitVec 3) (s : State) : Host.Outcome State Fault Refusal :=
  lone (.vmaxNum d a b t) (actVmaxNum d a b t) s

/-- VAND: all 1,024 bits (R212). -/
def actVand (d : BitVec 6) (a : BitVec 6) (b : BitVec 6) : M Flow := vOn2 d a b fun _ x y => noFlags (x &&& y)

/-- VAND as a unit (R212). -/
def execVand (d : BitVec 6) (a : BitVec 6) (b : BitVec 6) (s : State) : Host.Outcome State Fault Refusal :=
  lone (.vand d a b) (actVand d a b) s

/-- VOR: all 1,024 bits (R212). -/
def actVor (d : BitVec 6) (a : BitVec 6) (b : BitVec 6) : M Flow := vOn2 d a b fun _ x y => noFlags (x ||| y)

/-- VOR as a unit (R212). -/
def execVor (d : BitVec 6) (a : BitVec 6) (b : BitVec 6) (s : State) : Host.Outcome State Fault Refusal :=
  lone (.vor d a b) (actVor d a b) s

/-- VXOR: all 1,024 bits (R212). -/
def actVxor (d : BitVec 6) (a : BitVec 6) (b : BitVec 6) : M Flow := vOn2 d a b fun _ x y => noFlags (x ^^^ y)

/-- VXOR as a unit (R212). -/
def execVxor (d : BitVec 6) (a : BitVec 6) (b : BitVec 6) (s : State) : Host.Outcome State Fault Refusal :=
  lone (.vxor d a b) (actVxor d a b) s

/-- VANDN: va AND NOT vb (R212). -/
def actVandn (d : BitVec 6) (a : BitVec 6) (b : BitVec 6) : M Flow := vOn2 d a b fun _ x y => noFlags (x &&& ~~~y)

/-- VANDN as a unit (R212). -/
def execVandn (d : BitVec 6) (a : BitVec 6) (b : BitVec 6) (s : State) : Host.Outcome State Fault Refusal :=
  lone (.vandn d a b) (actVandn d a b) s

/-- VNOT: all 1,024 bits (R212). -/
def actVnot (d : BitVec 6) (a : BitVec 6) : M Flow := vOn1 d a fun x => noFlags (~~~x)

/-- VNOT as a unit (R212). -/
def execVnot (d : BitVec 6) (a : BitVec 6) (s : State) : Host.Outcome State Fault Refusal :=
  lone (.vnot d a) (actVnot d a) s

/-- VSHL: by the lanes of VB (R213). -/
def actVshl (d : BitVec 6) (a : BitVec 6) (b : BitVec 6) (t : BitVec 3) : M Flow := vOn2 d a b fun _ x y => noFlags (vShift t 0 x y)

/-- VSHL as a unit (R213). -/
def execVshl (d : BitVec 6) (a : BitVec 6) (b : BitVec 6) (t : BitVec 3) (s : State) : Host.Outcome State Fault Refusal :=
  lone (.vshl d a b t) (actVshl d a b t) s

/-- VSHR: by the lanes of VB (R213). -/
def actVshr (d : BitVec 6) (a : BitVec 6) (b : BitVec 6) (t : BitVec 3) : M Flow := vOn2 d a b fun _ x y => noFlags (vShift t 1 x y)

/-- VSHR as a unit (R213). -/
def execVshr (d : BitVec 6) (a : BitVec 6) (b : BitVec 6) (t : BitVec 3) (s : State) : Host.Outcome State Fault Refusal :=
  lone (.vshr d a b t) (actVshr d a b t) s

/-- VSRA: by the lanes of VB (R213). -/
def actVsra (d : BitVec 6) (a : BitVec 6) (b : BitVec 6) (t : BitVec 3) : M Flow := vOn2 d a b fun _ x y => noFlags (vShift t 2 x y)

/-- VSRA as a unit (R213). -/
def execVsra (d : BitVec 6) (a : BitVec 6) (b : BitVec 6) (t : BitVec 3) (s : State) : Host.Outcome State Fault Refusal :=
  lone (.vsra d a b t) (actVsra d a b t) s

/-- VSHLI: by an immediate (R213). -/
def actVshli (d : BitVec 6) (a : BitVec 6) (c : BitVec 6) (t : BitVec 3) : M Flow := vOn1 d a fun x => noFlags (vShiftImm t 0 c.toNat x)

/-- VSHLI as a unit (R213). -/
def execVshli (d : BitVec 6) (a : BitVec 6) (c : BitVec 6) (t : BitVec 3) (s : State) : Host.Outcome State Fault Refusal :=
  lone (.vshli d a c t) (actVshli d a c t) s

/-- VSHRI: by an immediate (R213). -/
def actVshri (d : BitVec 6) (a : BitVec 6) (c : BitVec 6) (t : BitVec 3) : M Flow := vOn1 d a fun x => noFlags (vShiftImm t 1 c.toNat x)

/-- VSHRI as a unit (R213). -/
def execVshri (d : BitVec 6) (a : BitVec 6) (c : BitVec 6) (t : BitVec 3) (s : State) : Host.Outcome State Fault Refusal :=
  lone (.vshri d a c t) (actVshri d a c t) s

/-- VSRAI: by an immediate (R213). -/
def actVsrai (d : BitVec 6) (a : BitVec 6) (c : BitVec 6) (t : BitVec 3) : M Flow := vOn1 d a fun x => noFlags (vShiftImm t 2 c.toNat x)

/-- VSRAI as a unit (R213). -/
def execVsrai (d : BitVec 6) (a : BitVec 6) (c : BitVec 6) (t : BitVec 3) (s : State) : Host.Outcome State Fault Refusal :=
  lone (.vsrai d a c t) (actVsrai d a c t) s

/-- VCMP: all ones or all zeros per lane (R214). -/
def actVcmp (d : BitVec 6) (a : BitVec 6) (b : BitVec 6) (t : BitVec 3) (c : BitVec 3) : M Flow := vOn2 d a b fun _ x y => vCmp t c x y

/-- VCMP as a unit (R214). -/
def execVcmp (d : BitVec 6) (a : BitVec 6) (b : BitVec 6) (t : BitVec 3) (c : BitVec 3) (s : State) : Host.Outcome State Fault Refusal :=
  lone (.vcmp d a b t c) (actVcmp d a b t c) s

/-- VSEL: the lanes of VD choose (R215). -/
def actVsel (d : BitVec 6) (a : BitVec 6) (b : BitVec 6) (t : BitVec 3) : M Flow := vOn3 d a b fun _ x y z => noFlags (vSel t x y z)

/-- VSEL as a unit (R215). -/
def execVsel (d : BitVec 6) (a : BitVec 6) (b : BitVec 6) (t : BitVec 3) (s : State) : Host.Outcome State Fault Refusal :=
  lone (.vsel d a b t) (actVsel d a b t) s

/-- VCVT: conversion between element types (R193, R223, R224). -/
def actVcvt (d : BitVec 6) (a : BitVec 6) (t : BitVec 4) (s : BitVec 4) (r : BitVec 4) : M Flow := do
  let tb ← if t == 9#4 || s == 9#4 then needTable else pure Table.empty
  let rnd ← resolveRnd (cvtEfPair t s) r
  let x ← readV a
  let e ← readE rnd.residue
  putCvt d rnd (vCvt (← read).core tb t s rnd x e)

/-- VCVT as a unit (R193, R223, R224). -/
def execVcvt (d : BitVec 6) (a : BitVec 6) (t : BitVec 4) (s : BitVec 4) (r : BitVec 4) (st : State) : Host.Outcome State Fault Refusal :=
  lone (.vcvt d a t s r) (actVcvt d a t s r) st

/-- VENC.c8: 32 codes into part q of VD (R193, R225). -/
def actVencC8 (d : BitVec 6) (a : BitVec 6) (r : BitVec 4) (q : BitVec 3) : M Flow := encode d a .c8 r q

/-- VENC.c8 as a unit (R193, R225). -/
def execVencC8 (d : BitVec 6) (a : BitVec 6) (r : BitVec 4) (q : BitVec 3) (s : State) : Host.Outcome State Fault Refusal :=
  lone (.vencC8 d a r q) (actVencC8 d a r q) s

/-- VENC.c4: 32 codes of codebook b into part q of VD (R193, R225). -/
def actVencC4 (d : BitVec 6) (a : BitVec 6) (b : BitVec 4) (r : BitVec 4) (q : BitVec 3) : M Flow := encode d a (.c4 b.toNat) r q

/-- VENC.c4 as a unit (R193, R225). -/
def execVencC4 (d : BitVec 6) (a : BitVec 6) (b : BitVec 4) (r : BitVec 4) (q : BitVec 3) (s : State) : Host.Outcome State Fault Refusal :=
  lone (.vencC4 d a b r q) (actVencC4 d a b r q) s

/-- VDEC.c8: 32 codes of part q of VA (R193, R226). -/
def actVdecC8 (d : BitVec 6) (a : BitVec 6) (q : BitVec 3) : M Flow := decodePart d a .c8 q

/-- VDEC.c8 as a unit (R193, R226). -/
def execVdecC8 (d : BitVec 6) (a : BitVec 6) (q : BitVec 3) (s : State) : Host.Outcome State Fault Refusal :=
  lone (.vdecC8 d a q) (actVdecC8 d a q) s

/-- VDEC.c4: 32 codes of codebook b, part q of VA (R193, R226). -/
def actVdecC4 (d : BitVec 6) (a : BitVec 6) (b : BitVec 4) (q : BitVec 3) : M Flow := decodePart d a (.c4 b.toNat) q

/-- VDEC.c4 as a unit (R193, R226). -/
def execVdecC4 (d : BitVec 6) (a : BitVec 6) (b : BitVec 4) (q : BitVec 3) (s : State) : Host.Outcome State Fault Refusal :=
  lone (.vdecC4 d a b q) (actVdecC4 d a b q) s

/-- VSPLAT of a scalar: every lane its low bits (R216). -/
def actVsplat (d : BitVec 6) (a : BitVec 6) (t : BitVec 3) : M Flow := do
  let x ← src (a.setWidth 5)
  putPlain d (vSplat t x.toNat)

/-- VSPLAT of a scalar as a unit (R216). -/
def execVsplat (d : BitVec 6) (a : BitVec 6) (t : BitVec 3) (s : State) : Host.Outcome State Fault Refusal :=
  lone (.vsplat d a t) (actVsplat d a t) s

/-- VSPLAT of an immediate: sign-extended to the lane (R216). -/
def actVsplatImm (d : BitVec 6) (i : BitVec 12) (t : BitVec 3) : M Flow := putPlain d (vSplat t (i.signExtend 64).toNat)

/-- VSPLAT of an immediate as a unit (R216). -/
def execVsplatImm (d : BitVec 6) (i : BitVec 12) (t : BitVec 3) (s : State) : Host.Outcome State Fault Refusal :=
  lone (.vsplatImm d i t) (actVsplatImm d i t) s

/-- VEXT: a lane, zero-extended, to a scalar destination (R217). -/
def actVext (d : BitVec 6) (a : BitVec 6) (k : BitVec 6) (t : BitVec 3) : M Flow := do
  let x ← readV a
  dst (d.setWidth 5) (BitVec.ofNat 64 (laneAt (laneWidth t) k.toNat x))
  return .seq

/-- VEXT as a unit (R217). -/
def execVext (d : BitVec 6) (a : BitVec 6) (k : BitVec 6) (t : BitVec 3) (s : State) : Host.Outcome State Fault Refusal :=
  lone (.vext d a k t) (actVext d a k t) s

/-- VINS: one lane of VD replaced (R217). -/
def actVins (d : BitVec 6) (a : BitVec 6) (k : BitVec 6) (t : BitVec 3) : M Flow := do
  let x ← src (a.setWidth 5)
  let z ← readV d
  putPlain d (setLaneAt (laneWidth t) k.toNat x.toNat z)

/-- VINS as a unit (R217). -/
def execVins (d : BitVec 6) (a : BitVec 6) (k : BitVec 6) (t : BitVec 3) (s : State) : Host.Outcome State Fault Refusal :=
  lone (.vins d a k t) (actVins d a k t) s

/-- VPERM: lanes of VA named by VB (R218). -/
def actVperm (d : BitVec 6) (a : BitVec 6) (b : BitVec 6) (t : BitVec 3) : M Flow := vOn2 d a b fun _ x y => noFlags (vPerm t x y)

/-- VPERM as a unit (R218). -/
def execVperm (d : BitVec 6) (a : BitVec 6) (b : BitVec 6) (t : BitVec 3) (s : State) : Host.Outcome State Fault Refusal :=
  lone (.vperm d a b t) (actVperm d a b t) s

/-- VSLIDEUP: towards higher lanes (R219). -/
def actVslideup (d : BitVec 6) (a : BitVec 6) (c : BitVec 6) (t : BitVec 3) : M Flow := vOn1 d a fun x => noFlags (vSlide t true c.toNat x)

/-- VSLIDEUP as a unit (R219). -/
def execVslideup (d : BitVec 6) (a : BitVec 6) (c : BitVec 6) (t : BitVec 3) (s : State) : Host.Outcome State Fault Refusal :=
  lone (.vslideup d a c t) (actVslideup d a c t) s

/-- VSLIDEDN: towards lower lanes (R219). -/
def actVslidedn (d : BitVec 6) (a : BitVec 6) (c : BitVec 6) (t : BitVec 3) : M Flow := vOn1 d a fun x => noFlags (vSlide t false c.toNat x)

/-- VSLIDEDN as a unit (R219). -/
def execVslidedn (d : BitVec 6) (a : BitVec 6) (c : BitVec 6) (t : BitVec 3) (s : State) : Host.Outcome State Fault Refusal :=
  lone (.vslidedn d a c t) (actVslidedn d a c t) s

/-- VRED: the pairwise tree (R221). -/
def actVred (d : BitVec 6) (a : BitVec 6) (t : BitVec 3) (o : BitVec 3) : M Flow := do
  let e ← vEnv
  let x ← readV a
  putV d (vRed e t o x)

/-- VRED as a unit (R221). -/
def execVred (d : BitVec 6) (a : BitVec 6) (t : BitVec 3) (o : BitVec 3) (s : State) : Host.Outcome State Fault Refusal :=
  lone (.vred d a t o) (actVred d a t o) s

/-- VMATH: RCP, RSQ, EXP2, LOG2 within their bounds (R222). -/
def actVmath (d : BitVec 6) (a : BitVec 6) (o : BitVec 3) : M Flow := do
  let e ← vEnv
  let x ← readV a
  putV d (vMath e.core o x)

/-- VMATH as a unit (R222). -/
def execVmath (d : BitVec 6) (a : BitVec 6) (o : BitVec 3) (s : State) : Host.Outcome State Fault Refusal :=
  lone (.vmath d a o) (actVmath d a o) s

/-- VABS (R206). -/
def actVabs (d : BitVec 6) (a : BitVec 6) (t : BitVec 3) : M Flow := vOn1 d a fun x => noFlags (vAbsNeg t false x)

/-- VABS as a unit (R206). -/
def execVabs (d : BitVec 6) (a : BitVec 6) (t : BitVec 3) (s : State) : Host.Outcome State Fault Refusal :=
  lone (.vabs d a t) (actVabs d a t) s

/-- VNEG (R206). -/
def actVneg (d : BitVec 6) (a : BitVec 6) (t : BitVec 3) : M Flow := vOn1 d a fun x => noFlags (vAbsNeg t true x)

/-- VNEG as a unit (R206). -/
def execVneg (d : BitVec 6) (a : BitVec 6) (t : BitVec 3) (s : State) : Host.Outcome State Fault Refusal :=
  lone (.vneg d a t) (actVneg d a t) s

/-- VABS.SAT (R207). -/
def actVabsSat (d : BitVec 6) (a : BitVec 6) (t : BitVec 3) : M Flow := vOn1 d a fun x => vAbsSat t x

/-- VABS.SAT as a unit (R207). -/
def execVabsSat (d : BitVec 6) (a : BitVec 6) (t : BitVec 3) (s : State) : Host.Outcome State Fault Refusal :=
  lone (.vabsSat d a t) (actVabsSat d a t) s

/-- VPOP: the head entry of lq k, its mask discarded (R227). -/
def actVpop (d : BitVec 6) (a : BitVec 6) : M Flow := do
  let q ← popQ (lqPort a.toNat)
  putPlain d q.vector

/-- VPOP as a unit (R227). -/
def execVpop (d : BitVec 6) (a : BitVec 6) (s : State) : Host.Outcome State Fault Refusal :=
  lone (.vpop d a) (actVpop d a) s

/-- VPUSH: an entry of kind 1 into sq k (R227). -/
def actVpush (d : BitVec 6) (a : BitVec 6) : M Flow := do
  let x ← readV a
  pushQ (sqPort d.toNat) { data := x, mask := 0xFFFFFFFF#32, kind := true, filled := true, tol := false, serial := 0 }
  return .seq

/-- VPUSH as a unit (R227). -/
def execVpush (d : BitVec 6) (a : BitVec 6) (s : State) : Host.Outcome State Fault Refusal :=
  lone (.vpush d a) (actVpush d a) s

/-- VMOV: all 1,024 bits (R220). -/
def actVmov (d : BitVec 6) (a : BitVec 6) : M Flow := vOn1 d a noFlags

/-- VMOV as a unit (R220). -/
def execVmov (d : BitVec 6) (a : BitVec 6) (s : State) : Host.Outcome State Fault Refusal :=
  lone (.vmov d a) (actVmov d a) s

/-- VZERO (R220). -/
def actVzero (d : BitVec 6) : M Flow := putPlain d 0

/-- VZERO as a unit (R220). -/
def execVzero (d : BitVec 6) (s : State) : Host.Outcome State Fault Refusal :=
  lone (.vzero d) (actVzero d) s

/-- VIOTA: the lane indices (R220). -/
def actViota (d : BitVec 6) (t : BitVec 3) : M Flow := putPlain d (vIota t)

/-- VIOTA as a unit (R220). -/
def execViota (d : BitVec 6) (t : BitVec 3) (s : State) : Host.Outcome State Fault Refusal :=
  lone (.viota d t) (actViota d t) s

/-- ECLR: a residue register to +0 (R220). -/
def actEclr (d : BitVec 6) : M Flow := do
  writeE d.toNat 0
  return .seq

/-- ECLR as a unit (R220). -/
def execEclr (d : BitVec 6) (s : State) : Host.Outcome State Fault Refusal :=
  lone (.eclr d) (actEclr d) s

/-- VDOT4: four byte products into each 32-bit lane (R210). -/
def actVdot4 (d : BitVec 6) (a : BitVec 6) (b : BitVec 6) (s : BitVec 3) : M Flow := vOn3 d a b fun _ x y z => noFlags (vDot4 s x y z)

/-- VDOT4 as a unit (R210). -/
def execVdot4 (d : BitVec 6) (a : BitVec 6) (b : BitVec 6) (s : BitVec 3) (st : State) : Host.Outcome State Fault Refusal :=
  lone (.vdot4 d a b s) (actVdot4 d a b s) st

/-- VMASK.V: the head entry's lane mask as words (R228). -/
def actVmaskV (d : BitVec 6) (a : BitVec 6) : M Flow := do
  let q ← peekQ (lqPort a.toNat)
  putPlain d (maskWords q.lanes)

/-- VMASK.V as a unit (R228). -/
def execVmaskV (d : BitVec 6) (a : BitVec 6) (s : State) : Host.Outcome State Fault Refusal :=
  lone (.vmaskV d a) (actVmaskV d a) s

/-- VMASK.C: the number of set mask bits (R228). -/
def actVmaskC (d : BitVec 6) (a : BitVec 6) : M Flow := do
  let q ← peekQ (lqPort a.toNat)
  dst (d.setWidth 5) (BitVec.ofNat 64 (maskCount q.lanes))
  return .seq

/-- VMASK.C as a unit (R228). -/
def execVmaskC (d : BitVec 6) (a : BitVec 6) (s : State) : Host.Outcome State Fault Refusal :=
  lone (.vmaskC d a) (actVmaskC d a) s

/-- VFMA2: two VFMAs, every source read before either write (R211). -/
def actVfma2 (d : BitVec 6) (a : BitVec 6) (b : BitVec 6) (t : BitVec 3) : M Flow := do
  let e ← vEnv
  let x ← readV a
  let y ← readV b
  let z ← readV d
  let x1 ← readV (a + 1)
  let y1 ← readV (b + 1)
  let z1 ← readV (d + 1)
  let _ ← putV d (vFma e t false false x y z)
  putV (d + 1) (vFma e t false false x1 y1 z1)

/-- VFMA2 as a unit (R211). -/
def execVfma2 (d : BitVec 6) (a : BitVec 6) (b : BitVec 6) (t : BitVec 3) (s : State) : Host.Outcome State Fault Refusal :=
  lone (.vfma2 d a b t) (actVfma2 d a b t) s

end Sys2Proof.Machine
end

