-- ==== Sys2Proof/Machine/Pair.lean ====
section
/-!
DEFINITION. Sys2Proof/Machine/Pair.lean: the fetch of a stream's next unit; pairs, whose halves read their sources before
either writes (spec 04, R58 to R62, R66); and QDEADLOCK (spec 05, R88).
-/

namespace Sys2Proof.Machine

/-! ### The next unit of a stream (R58 to R61) -/

/-- The core about to run a word as the one lone unit of a function, in both streams. -/
def Core.withWord (c : Core) (w : Half) : Core :=
  let code : Code := { digest := 0, form := .native 255, key := 0, frame := 0, landings := [some (0, 0)], aBody := [w], xBody := [w] }
  { c with
    cur := some { handle := 0, digest := 0, form := .native 255, key := 0 }
    store := code :: c.store
    strA := StreamState.reset
    strX := StreamState.reset
    mode := .running }

/-- What an engine, a control core, the host or the hardware does, rather than a unit of a stream. -/
def isEvent (i : Instr) : Bool :=
  match i with
  | .pair _ _ _ | .zeroword | .reservedMajor _ | .runPastBody => false
  | i => !i.encoded

/-! ### What may stand in a pair (R59, R62) -/

/-- Majors of Table 4.1. -/
def assignedMajor (m : Nat) : Bool :=
  (0x01 <= m && m <= 0x15) || (0x18 <= m && m <= 0x1B) || (0x20 <= m && m <= 0x2E) || (0x30 <= m && m <= 0x3D) ||
    (0x40 <= m && m <= 0x57) || (0x5F <= m && m <= 0x69) || (0x6B <= m && m <= 0x6E) || (0x70 <= m && m <= 0x74) ||
    (0x78 <= m && m <= 0x7B)

/-- Majors that are always lone. -/
def loneMajor (m : Nat) : Bool := 0x30 <= m && m <= 0x3D

/-- Two lists share an element. -/
def shares {α : Type} [BEq α] (x y : List α) : Bool := x.any y.contains

/-- Both halves write one register, predicate or port, or pop or push one port. Writes to specifier 31 and to p0 are none. -/
def halvesClash (s : Strm) (lo hi : Instr) : Bool :=
  shares (writesOf lo) (writesOf hi) || shares ((predsOf lo).filter (· != 0)) (predsOf hi) ||
    shares (popsOf s lo) (popsOf s hi) || shares (pushesOf s lo) (pushesOf s hi)

/-- The bits a format marks unused for a major whose instructions name scalar operands (Tables 4.3 to 4.16), with FN of the
majors whose functions share their operands: what R65 refuses after the conflicts of R59 are found. -/
def unusedBits (m : Nat) : Half :=
  match m with
  | 0x02 | 0x6D => 0x3FE#32
  | 0x07 => 0x607E#32
  | 0x0B => 0x1FE#32
  | 0x09 => 0x2#32
  | 0x0A | 0x15 | 0x2E | 0x6C | 0x6E | 0x70 | 0x7B => 0x7FFE#32
  | 0x0D => 0x1FFE#32
  | 0x0E | 0x26 | 0x2C => 0x3E0#32
  | 0x0F => 0x7FFFE#32
  | 0x11 => 0xE#32
  | 0x12 => 0x3FFFFE#32
  | 0x13 | 0x71 => 0x1F07FFE#32
  | 0x18 => 0x7F3E#32
  | 0x19 | 0x1A => 0xF80FE#32
  | 0x1B => 0x1FF80FE#32
  | 0x29 | 0x72 | 0x73 | 0x74 | 0x78 | 0x79 | 0x7A => 0x1E#32
  | 0x2A => 0xC0#32
  | 0x2D => 0x7800#32
  | 0x60 => 0xFFFE#32
  | 0x68 => 0xFFFFE#32
  | _ => 0#32

/-- A half with what R65 refuses put right, where its operands do not hang on it: a vector half whose SO names a scalar or a
queue is read with VB = 0 and an accepted TY. -/
def soundHalf (w : Half) : Half :=
  match majorOf w with
  | 0x4D => if w.extractLsb' 1 3 == 0#3 then w &&& ~~~(0x1F80#32) else w
  | 0x54 | 0x57 => (w &&& ~~~(0x1FF0#32)) ||| 0x20#32
  | m => w &&& ~~~(unusedBits m)

/-- The instruction whose operands a half's format names, its unused bits and the limits of its fields aside. DEDUCED (log 70):
an unassigned FN, K, OP, CC or TY leaves the operands that its major's row of the tables names, so they count for a conflict;
an unassigned SO names none, since SO decides which vector fields name scalars. -/
def operandsOf (w : Half) : Instr := (decodeRow (soundHalf w)).getD .nop

/-- The decode checks of a pair, in the order of R66; `span` is a unit that begins at a high half. -/
def pairChecks (lo hi : Half) (span : Bool) : M Unit := do
  if !span && lo = 0 then raise .zeroword 0
  if hi = 0 then raise .zeroword 0
  if !span && portable (← theCore) then raise .pairclass (lo.setWidth 64)
  if span || lone? hi then raise .pairclass (hi.setWidth 64)
  if !assignedMajor (majorOf lo) then raise .illegal (lo.setWidth 64)
  if !assignedMajor (majorOf hi) then raise .illegal (hi.setWidth 64)
  if !cClass (majorOf lo) || loneMajor (majorOf lo) then raise .pairclass (lo.setWidth 64)
  if !aClass (majorOf hi) then raise .pairclass (hi.setWidth 64)
  let l := decodeHalf lo
  let h := decodeHalf hi
  if halvesClash (← theStream) (operandsOf lo) (operandsOf hi) then raise .pairclass (hi.setWidth 64)
  half lo l
  half hi h
  check6 lo l
  check6 hi h
  check7 lo
  check7 hi
where
  half (w : Half) (i : Instr) : M Unit :=
    match i with
    | .reservedMajor v => raise .illegal (v.setWidth 64)
    | i => check5 w i

/-- The effect of an instruction that may stand in a pair; the checks let no other one reach it. -/
def halfAct (i : Instr) : M Flow :=
  match i with
  | .add d a b => actAdd d a b
  | .sub d a b => actSub d a b
  | .and d a b => actAnd d a b
  | .or d a b => actOr d a b
  | .xor d a b => actXor d a b
  | .shl d a b => actShl d a b
  | .shr d a b => actShr d a b
  | .sra d a b => actSra d a b
  | .min d a b => actMin d a b
  | .max d a b => actMax d a b
  | .minn d a b => actMinn d a b
  | .maxn d a b => actMaxn d a b
  | .mul d a b => actMul d a b
  | .mulh d a b => actMulh d a b
  | .mulhn d a b => actMulhn d a b
  | .div d a b => actDiv d a b
  | .divn d a b => actDivn d a b
  | .rem d a b => actRem d a b
  | .remn d a b => actRemn d a b
  | .shadd1 d a b => actShadd1 d a b
  | .shadd2 d a b => actShadd2 d a b
  | .shadd3 d a b => actShadd3 d a b
  | .andn d a b => actAndn d a b
  | .addi d a i => actAddi d a i
  | .andi d a i => actAndi d a i
  | .ori d a i => actOri d a i
  | .xori d a i => actXori d a i
  | .shli d a s => actShli d a s
  | .shri d a s => actShri d a s
  | .srai d a s => actSrai d a s
  | .lui d i => actLui d i
  | .insh d h i => actInsh d h i
  | .clz d a => actClz d a
  | .ctz d a => actCtz d a
  | .popc d a => actPopc d a
  | .bswap d a => actBswap d a
  | .extb d a => actExtb d a
  | .exth d a => actExth d a
  | .extw d a => actExtw d a
  | .extbn d a => actExtbn d a
  | .exthn d a => actExthn d a
  | .extwn d a => actExtwn d a
  | .cmp p c a b => actCmp p c a b
  | .cmpi p c a i => actCmpi p c a i
  | .plog d f a b => actPlog d f a b
  | .sel d a b g => actSel d a b g
  | .pmovToReg r => actPmovToReg r
  | .pmovFromReg r => actPmovFromReg r
  | .bc d g => actBc d g
  | .bq d => actBq d
  | .bqN d => actBqN d
  | .bout p => actBout p
  | .jr a => actJr a
  | .dbnz r d => actDbnz r d
  | .twait d a => actTwait d a
  | .bbset a b o m => actBbset a b o m
  | .bbget d w => actBbget d w
  | .bbpeek d w => actBbpeek d w
  | .bbskip w => actBbskip w
  | .ld d a s n i => actLd d a s n i
  | .stb v a i g => actStb v a i g
  | .sth v a i g => actSth v a i g
  | .stw v a i g => actStw v a i g
  | .std v a i g => actStd v a i g
  | .lda d a s n c i => actLda d a s n c i
  | .strel v a s c g => actStrel v a s c g
  | .ldv d a i => actLdv d a i
  | .stv v a i g => actStv v a i g
  | .gath d a b s n x => actGath d a b s n x
  | .gathT d a b s n x => actGathT d a b s n x
  | .scat v a b s x g => actScat v a b s x g
  | .amo d a o s r c g => actAmo d a o s r c g
  | .amon v a o s g => actAmon v a o s g
  | .cas d a s r c g => actCas d a s r c g
  | .fence d k c => actFence d k c
  | .vadd d a b t => actVadd d a b t
  | .vaddSatI d a b t => actVaddSatI d a b t
  | .vaddSatN d a b t => actVaddSatN d a b t
  | .vsub d a b t => actVsub d a b t
  | .vsubSatI d a b t => actVsubSatI d a b t
  | .vsubSatN d a b t => actVsubSatN d a b t
  | .vmul d a b t => actVmul d a b t
  | .vmulHiI d a b t => actVmulHiI d a b t
  | .vmulHiN d a b t => actVmulHiN d a b t
  | .vmulSat d a b t => actVmulSat d a b t
  | .vfma d a b t => actVfma d a b t
  | .vfmaMs d a b t => actVfmaMs d a b t
  | .vfmaNa d a b t => actVfmaNa d a b t
  | .vfmaNms d a b t => actVfmaNms d a b t
  | .vmin d a b t => actVmin d a b t
  | .vminNum d a b t => actVminNum d a b t
  | .vmax d a b t => actVmax d a b t
  | .vmaxNum d a b t => actVmaxNum d a b t
  | .vand d a b => actVand d a b
  | .vor d a b => actVor d a b
  | .vxor d a b => actVxor d a b
  | .vandn d a b => actVandn d a b
  | .vnot d a => actVnot d a
  | .vshl d a b t => actVshl d a b t
  | .vshr d a b t => actVshr d a b t
  | .vsra d a b t => actVsra d a b t
  | .vshli d a c t => actVshli d a c t
  | .vshri d a c t => actVshri d a c t
  | .vsrai d a c t => actVsrai d a c t
  | .vcmp d a b t c => actVcmp d a b t c
  | .vsel d a b t => actVsel d a b t
  | .vcvt d a t s r => actVcvt d a t s r
  | .vencC8 d a r q => actVencC8 d a r q
  | .vencC4 d a b r q => actVencC4 d a b r q
  | .vdecC8 d a q => actVdecC8 d a q
  | .vdecC4 d a b q => actVdecC4 d a b q
  | .vsplat d a t => actVsplat d a t
  | .vsplatImm d i t => actVsplatImm d i t
  | .vext d a k t => actVext d a k t
  | .vins d a k t => actVins d a k t
  | .vperm d a b t => actVperm d a b t
  | .vslideup d a c t => actVslideup d a c t
  | .vslidedn d a c t => actVslidedn d a c t
  | .vred d a t o => actVred d a t o
  | .vmath d a o => actVmath d a o
  | .vabs d a t => actVabs d a t
  | .vneg d a t => actVneg d a t
  | .vabsSat d a t => actVabsSat d a t
  | .vpop d a => actVpop d a
  | .vpush d a => actVpush d a
  | .vmov d a => actVmov d a
  | .vzero d => actVzero d
  | .viota d t => actViota d t
  | .eclr d => actEclr d
  | .vdot4 d a b s => actVdot4 d a b s
  | .vmaskV d a => actVmaskV d a
  | .vmaskC d a => actVmaskC d a
  | .vfma2 d a b t => actVfma2 d a b t
  | .tdset t a => actTdset t a
  | .mma m a b => actMma m a b
  | .mmaz m a b => actMmaz m a b
  | .mzero k => actMzero k
  | .mscaRow m v => actMscaRow m v
  | .mscaCol m v => actMscaCol m v
  | .mrd v m r => actMrd v m r
  | .mwr v m r => actMwr v m r
  | .mst m t f c r => actMst m t f c r
  | .mld m a => actMld m a
  | .ldtab a => actLdtab a
  | .mcmb m a => actMcmb m a
  | .mmaw m a b => actMmaw m a b
  | .mmawz m a b => actMmawz m a b
  | .bmv d a => actBmv d a
  | .btab d a b => actBtab d a b
  | .blay d a => actBlay d a
  | .shpmk d a => actShpmk d a
  | .shpdel a => actShpdel a
  | .copy d a b c => actCopy d a b c
  | .copys d a b c => actCopys d a b c
  | .cfill d a b c => actCfill d a b c
  | .fxput d a b c => actFxput d a b c
  | .fxget d a b c => actFxget d a b c
  | .fxred d a b c => actFxred d a b c
  | .arcJoin d a => actArcJoin d a
  | .arcLeave d a => actArcLeave d a
  | .nop => actNop
  | .arcBar d a => actArcBar d a
  | _ => block

/-- The low half is a commit point (R170). -/
def halfCommits (i : Instr) : Bool :=
  match i with
  | .amo _ _ _ _ _ _ _ | .amon _ _ _ _ _ | .cas _ _ _ _ _ _ | .bmv _ _ | .btab _ _ _ | .blay _ _ | .copy _ _ _ _
  | .copys _ _ _ _ | .cfill _ _ _ _ | .fxput _ _ _ _ | .fxget _ _ _ _ | .fxred _ _ _ _ | .arcJoin _ _
  | .arcLeave _ _ => true
  | _ => false

def pairPre (lo : Half) : M Unit := do
  let l := decodeHalf lo
  let waits := (← theCore).lineWait.isSome
  let bar : Bool := match l with
    | .arcBar _ _ => !waits
    | _ => false
  if halfCommits l || bar then commitPoint

/-- The pair holds a commit point, its low half's. -/
def pairCommits (lo : Half) : Bool :=
  let l := decodeHalf lo
  halfCommits l || (match l with
    | .arcBar _ _ => true
    | _ => false)

/-- Elements that differ from an earlier vector, and another's elsewhere. -/
def mergeVec {n : Nat} (old new other : Vector Word n) : Vector Word n :=
  Vector.ofFn fun i => if new[i] = old[i] then other[i] else new[i]

/-- Predicates that differ from earlier ones, and others elsewhere. -/
def mergePreds (old new other : BitVec 8) : BitVec 8 :=
  let m := old ^^^ new
  (new &&& m) ||| (other &&& ~~~m)

/-- The core with the sources that the low half found: what a low half can write and a high half can read. -/
def Core.withSources (c c0 : Core) : Core :=
  { c with a := c0.a, s := c0.s, pa := c0.pa, px := c0.px, t := c0.t, table := c0.table, tabstat := c0.tabstat }

/-- What the low half wrote to them, from `c0` to `c1`, beside what the high half wrote. -/
def Core.withWrites (c c0 c1 : Core) : Core :=
  { c with
    a := mergeVec c0.a c1.a c.a
    s := mergeVec c0.s c1.s c.s
    pa := mergePreds c0.pa c1.pa c.pa
    px := mergePreds c0.px c1.px c.px
    t := mergeVec c0.t c1.t c.t
    table := c1.table
    tabstat := c1.tabstat }

/-- The effect of a pair (R59): the high half reads what stood before the low half wrote. A low half that begins to wait does so
only where the high half can issue with it: its queues hold what it pops, which is gone from then on, and have room for what it
pushes (R83, R84, R86); what it writes comes when the unit completes. DEDUCED (log 70): a VMASK beside a pop of the same queue
reads the head that the pop has left. -/
def actPair (lo hi : Half) : M Flow := do
  let c0 ← theCore
  match ← halfAct (decodeHalf lo) with
  | .wait =>
    let c1 ← theCore
    modCore fun c => c.withSources c0
    let _ ← halfAct (decodeHalf hi)
    modCore fun c => { c1 with sq0 := c.sq0, sq1 := c.sq1 }
    return .wait
  | f =>
    let c1 ← theCore
    modCore fun c => c.withSources c0
    let _ ← halfAct (decodeHalf hi)
    modCore fun c => c.withWrites c0 c1
    return f

/-- PAIR as a unit of eight bytes (R59). -/
def execPair (lo hi : Half) (span : Bool) (s : State) : Host.Outcome State Fault Refusal :=
  unitOn (runUnit 8 false (pairCommits lo) (pairChecks lo hi span) (pairPre lo) (actPair lo hi)) s

/-! ### QDEADLOCK (R88) -/

/-- A TWAIT of a source waits for nothing but its destination; what it would pop stays. -/
def tokenDone (a : BitVec 5) : M Bool := do
  let d ← get
  let r ← attempt do
    let tok ← src a
    let c ← theCore
    match heldSlot c tok >>= findAt c.tokens with
    | none => return false
    | some t => return (← tokenStatus t).isSome
  set d
  match r with
  | .ok b => return b
  | .error _ => return false

/-- A queue holds fewer entries than an instruction pops, or no room for what it pushes. DEDUCED (log 70): a VMASK that finds
its queue empty waits as a pop does (Table 5.2), though it pops nothing (R228); and a RECV whose destination queue is full blocks
at issue (R86), so it does not yet wait in RECV, whether a message is there or not. -/
def queueShort (i : Instr) : M Bool := do
  let c ← theCore
  let s ← theStream
  let pops := popsOf s i
  let dry : Bool := pops.any fun p => (c.queue p).ents.length < (pops.filter (· == p)).length
  let full : Bool := (pushesOf s i).any fun p => queueDepth <= (c.queue p).ents.length
  let own := match s with
    | .A => c.bqA
    | .X => c.bqX
  let far := match s with
    | .A => c.bqX
    | .X => c.bqA
  match i with
  | .bq _ | .bqN _ => return own.ents.isEmpty
  | .bout _ => return bqDepth <= far.ents.length
  | .twait _ a => return dry || (full && (← tokenDone a))
  | .vmaskV _ a | .vmaskC _ a => return (c.queue (lqPort a.toNat)).ents.isEmpty || full
  | .amo _ _ _ _ _ _ g => return dry || (full && (← guardHolds g))
  | _ => return dry || full

/-- A stream is queue-blocked: it waits at a joint instruction, or its next unit waits for a queue. A unit that has issued
waits for its answer and for no queue, and one that the decode checks refuse waits for nothing. -/
def queueBlocked (s : Strm) : M Bool := do
  let c ← theCore
  if (c.str s).joint then return true
  if s == .A && (c.lineWait.isSome || c.sending.isSome) then return false
  let e ← read
  let passes (x : M Unit) : M Bool := return match ← attempt x with
    | .ok _ => true
    | .error _ => false
  atCore e.pkg e.core s (match c.nextInstr s with
    | .pair lo hi span => do
      if !(← passes (pairChecks lo hi span)) then return false
      return (← queueShort (decodeHalf lo)) || (← queueShort (decodeHalf hi))
    | i => do
      if !(← passes (gate i)) then return false
      queueShort i)

/-- No load, LDV or GATH that has reserved an entry is in flight. -/
def Core.loadsDone (c : Core) : Bool := (c.lq0.ents ++ c.lq1.ents ++ c.lq2.ents).all (·.filled)

/-- QDEADLOCK (R88): both streams are queue-blocked and nothing can free either. How long they have been is timing. -/
def qdeadlock : M Unit := do
  let c ← theCore
  let both := c.strA.joint && c.strX.joint
  if c.mode == .running && c.loadsDone && !both && (← queueBlocked .A) && (← queueBlocked .X) then
    exceptionOpen .qdeadlock (Config.openEaddr (← now) c.serial)

def execQdeadlock (s : State) : Host.Outcome State Fault Refusal := event qdeadlock s

end Sys2Proof.Machine
end

