-- ==== Sys2Proof/Machine/Upkeep.lean ====
section
/-!
DEFINITION. Sys2Proof/Machine/Upkeep.lean: the service of the device: ageing and clocks, fences and the management status
word, replay, checkpoints, and the bring-up after a reset (spec 24, R409 to R418; spec 00, R3, R4).
-/

namespace Sys2Proof.Machine

/-! ### Ageing, margins and clocks (R409, R417) -/

/-- A die of the package, changed. -/
def modDie (die : Nat) (f : Die → Die) : M Unit :=
  modService fun s => { s with dies := setAt s.dies die (f (lookupD Die.reset s.dies die)) }

def dieState (die : Nat) : M Die := return lookupD Die.reset (← thePkg).service.dies die

/-- 10 ms, the period of the path-delay monitors' samples (R409). -/
def samplePeriod : Nat := 10000000

/-- 30 days, the period of the re-plans (R409). -/
def replanPeriod : Nat := 30 * 24 * 3600 * 1000000000

/-- 10 µs, the least time between two clock steps of a die (R417). -/
def stepPeriod : Nat := 10000

/-- PDM_SAMPLE (R409): the sixteen path-delay monitors of a die are sampled; `slack` is what they show. -/
def pdmSample (die : Nat) (slack : List Nat) : M Unit := do
  let d ← dieState die
  let t ← now
  if 8 <= die || slack.length != 16 || t - d.sampled < samplePeriod then return
  modDie die fun d => { d with slack := slack, sampled := t }

def execPdmSample (die : Nat) (slack : List Nat) (s : State) : Host.Outcome State Fault Refusal := event (pdmSample die slack) s

/-- A monitor's slack has shrunk by more than 3 % since the last re-plan. -/
def Die.slackLost (d : Die) : Bool := (d.slack.zip d.planned).any fun p => 100 * p.1 < 97 * p.2

/-- No core of a die runs: an idle window. -/
def Package.dieIdle (x : Package) (die : Nat) : Bool := x.cores.all fun c => dieOf c.1 != die || c.2.mode == .idle

/-- The highest arithmetic clock, 1.2 GHz (Table 0.1). -/
def maxKhz : Nat := 1200000

/-- A table of points: some, their clocks rising, none above the highest clock. -/
def pointsOk (points : List (Nat × Nat)) : Bool :=
  !points.isEmpty && points.all (fun p => 0 < p.1 && p.1 <= maxKhz) && (points.zip (points.drop 1)).all fun p => p.1.1 < p.2.1

/-- The point of a table that has a clock. -/
def pointAt (points : List (Nat × Nat)) (khz : Nat) : Option (Nat × Nat) := points.find? fun p => p.1 == khz

/-- REPLAN (R409): a die's table of points is planned anew, every 30 days in an idle window or at once on lost slack, and
the die goes to a point of it. Nothing but clocks and voltages changes. -/
def replan (die khz : Nat) (points : List (Nat × Nat)) : M Unit := do
  let d ← dieState die
  let t ← now
  let due := d.slackLost || (replanPeriod <= t - d.replanned && (← thePkg).dieIdle die)
  if 8 <= die || !due || !pointsOk points then return
  match pointAt points khz with
  | none => return
  | some p => modDie die fun d => { d.hold t p with points := points, planned := d.slack, replanned := t }

def execReplan (die khz : Nat) (points : List (Nat × Nat)) (s : State) : Host.Outcome State Fault Refusal :=
  event (replan die khz points) s

/-- The point of a table with the clock `b`, where it is next to the one with the clock `a`. -/
def adjacentPoint (points : List (Nat × Nat)) (a b : Nat) : Option (Nat × Nat) :=
  if (points.zip (points.drop 1)).any fun p => (p.1.1, p.2.1) == (a, b) || (p.2.1, p.1.1) == (a, b) then pointAt points b else none

/-- CLOCK_STEP (R417): the power controller takes a die one point up or down its table, at most once every 10 µs.
No value and no order changes (R3, R4). -/
def clockStep (die khz : Nat) : M Unit := do
  let d ← dieState die
  let t ← now
  if 8 <= die || t - d.stepped < stepPeriod then return
  match adjacentPoint d.points d.khz khz with
  | none => return
  | some p => modDie die fun d => { d.hold t p with stepped := t }

def execClockStep (die khz : Nat) (s : State) : Host.Outcome State Fault Refusal := event (clockStep die khz) s

/-! ### Fences and health (R410 to R412) -/

/-- How many of a list's elements meet a test. -/
def countOf {α : Type} (l : List α) (p : α → Bool) : Nat := (l.filter p).length

/-- The condition of RR (Table 24.2): more than 16 quads of one die, more than 4 banks of one stack, or a whole link. -/
def Service.worn (s : Service) : Bool :=
  ((List.range 8).any fun d => 16 < countOf s.quads fun q => q / 256 == d) ||
  ((List.range 16).any fun k => 4 < countOf s.banks fun b => b.1 == k) || !s.links.isEmpty

/-- The MCTP event "replacement requested". -/
def mctpReplacement : Nat := 1

/-- When RR rises, an MCTP event is sent (R412). -/
def Service.noteWear (s : Service) : Service :=
  if s.worn && !s.rr then { s with rr := true, mctp := s.mctp ++ [mctpReplacement] } else s

/-- The management status word (Table 24.2), read over MCTP and at PF offset 0x0F00. -/
def Service.statusWord (s : Service) : Word :=
  BitVec.ofNat 64 ((if s.ready then 1 else 0) + (if s.rr then 2 else 0) + Nat.min s.quads.length 2048 * 2 ^ 20 +
    Nat.min s.banks.length 255 * 2 ^ 32 + Nat.min s.lanes.length 192 * 2 ^ 40)

/-- What a read over MCTP answers (R412): the management status word. -/
def mctpRead : M Word := return (← thePkg).service.statusWord

/-- What the host reads at an offset of a function (R392, R412): a head of a context's page, the management status word of the
PF, and zero from a page that a VF does not reach. The spec gives no value of any other register (log 26). -/
def pageRead (fn off : Nat) : M Nat := do
  let x ← thePkg
  if fn == 0 && off == 0x0F00 then return x.service.statusWord.toNat
  let t ← now
  match ← pageOf fn off with
  | none => return if fn == 0 then Config.pageValue t off else 0
  | some (c, o) =>
    if o < 0x80 || o % 8 != 0 then return Config.pageValue t off
    match (← ctxAt c).bind fun y => y.rings[(o - 0x80) / 8]? with
    | some r => return r.head
    | none => return Config.pageValue t off

/-- No strand stands on a quad's cores or is bound to one. -/
def Package.quadEmpty (x : Package) (quad : Nat) : Bool :=
  (List.range 4).all fun j =>
    let c := 4 * quad + j
    (x.core c).mode == .idle && (x.core c).cmds.isEmpty &&
      x.sched.strands.all fun s => s.state.ended || (s.onCore != some c && s.bound != some c)

/-- The cores that a fence of a quad stops: those of the quad that run strands, with their gangs. -/
def fenceStops (quad : Nat) : M (List (Nat × Nat)) := do
  let x ← thePkg
  let p := (← read).pkg
  (List.range 4).foldlM (fun acc j => do
    let c := 4 * quad + j
    if !(x.core c).stoppable then return acc
    match ← findStrand (x.core c).strand.toNat with
    | none => return acc
    | some s =>
      if ← gangEntering s then return acc
      let cs ← atCore p c .A (stopTogether s)
      return acc ++ cs.filter fun q => !acc.contains q) []

/-- A gang that stands off its cores altogether, bound to a quad that is to be fenced, is bound to it no longer: it is placed on
another whole quad (R335, R411). -/
def freeGangs (quad : Nat) : M Unit := do
  let d ← get
  let p := (← read).pkg
  (← thePkg).sched.strands.forM fun s => do
    if !s.state.ended && s.bound.any (fun c => quadOf c == quad) && (d.gangOf p s).all fun q => q.2.onCore.isNone then
      unbindGang s

/-- QUAD_FENCE (R411): the core's quad, which is failing, takes no further strand; those on it are pre-empted, and once none is left the quad
is fenced. -/
def quadFence : M Unit := do
  let quad := quadOf (← read).core
  if 2048 <= quad || (← thePkg).service.quads.contains quad then return
  modService fun s => if s.fencing.contains quad then s else { s with fencing := s.fencing ++ [quad] }
  freeGangs quad
  let cs ← fenceStops quad
  if slotsSuffice (← get) cs then
    cs.forM fun q => atCore q.1 q.2 .A (stopCore false)
  if (← thePkg).quadEmpty quad then
    modService fun s => ({ s with quads := s.quads ++ [quad], fencing := s.fencing.filter (· != quad) } : Service).noteWear

def execQuadFence (s : State) : Host.Outcome State Fault Refusal := event quadFence s

/-- The whole of the translated memory is written back from the caches. -/
def writeAllBack : H Unit := do (← get).tags.forM writeBack

/-- A valid entry of the page table: the first address it maps, where it stands, its word and its level. -/
structure TableEntry where
  va : Nat
  at_ : Nat
  word : Nat
  level : Nat
  deriving DecidableEq, Repr

/-- It maps a page held in this package's memory. -/
def TableEntry.isLeaf (e : TableEntry) : Bool := natBits e.word 1 1 == 1 && natBits e.word 12 7 == 0

/-- It names a table a level below. -/
def TableEntry.isTable (e : TableEntry) : Bool := natBits e.word 1 1 == 0

def TableEntry.frame (e : TableEntry) : Nat := natBits e.word 57 26

/-- The bytes that an entry maps. -/
def TableEntry.span (e : TableEntry) : Nat := 4096 * 512 ^ (e.level - 1)

/-- Every valid entry of a table and of those below it. -/
def entriesOf : Nat → Nat → Nat → H (List TableEntry)
  | 0, _, _ => pure []
  | l + 1, tbl, va => (List.range 512).foldlM (fun acc i => do
      let w ← readHbm (tbl + 8 * i) 8
      let e : TableEntry := { va := va + i * (4096 * 512 ^ l), at_ := tbl + 8 * i, word := w, level := l + 1 }
      if w % 2 == 0 then return acc
      if natBits w 1 1 == 1 then return acc ++ [e]
      return acc ++ e :: (← entriesOf l (4096 * e.frame) e.va)) []

/-- The page table as main memory holds it. -/
def pageTable : M (List TableEntry) := runHome 0 0 (do entriesOf 5 (← get).troot 0)

/-- The word of a table entry that names another frame. -/
def TableEntry.naming (e : TableEntry) (g : Nat) : Nat := e.word - e.frame * 2 ^ 26 + g * 2 ^ 26

/-- A 2 MiB leaf becomes a table of 512 leaves of 4 KiB in a free frame. -/
def splitLarge (e : TableEntry) (g : Nat) : M Unit := do
  modCtl fun k => { k with freeFrames := k.freeFrames.filter (· != g) }
  (List.range 512).forM fun i => writeTable (4096 * g + 8 * i) 8 (e.naming (e.frame + i))
  writeTable e.at_ 8 (g * 2 ^ 26 + 1)

/-- The leaves of a 64 KiB page become leaves of 4 KiB: CH is cleared in all sixteen (R313). -/
def splitGroup (all : List TableEntry) (e : TableEntry) : M Unit :=
  (all.filter fun o => o.level == 1 && o.at_ / 128 == e.at_ / 128 && natBits o.word 2 2 == 1).forM fun o => do
    writeTable o.at_ 8 (o.word - 4)

/-- Whatever names a frame, an entry of the page table or TROOT, names another. -/
def renameFrame (all : List TableEntry) (f g : Nat) : M Unit := do
  (all.filter fun e => (e.isLeaf || e.isTable) && e.frame == f).forM fun e => writeTable e.at_ 8 (e.naming g)
  modPkg fun x => { x with home := { x.home with
    troot := if x.home.troot / 4096 == f then 4096 * g + x.home.troot % 4096 else x.home.troot
    walkCache := x.home.walkCache.filter fun w => w.next / 4096 != f } }

/-- The contents of a frame moved to a free frame of its stack: its bytes, its poison and its ownership entry (R328). -/
def moveFrame (f g : Nat) : M Unit := do
  modCtl fun k => { k with freeFrames := k.freeFrames.filter (· != g) }
  let h := (← thePkg).home
  writeTable (4096 * g) 4096 (h.hbm.read (4096 * f) 4096)
  writeTable (h.fotBase + 2 * g) 2 (h.hbm.read (h.fotBase + 2 * f) 2)
  let kept := h.hbmPois.filter fun a => a / 512 != g
  let moved := (h.hbmPois.filter fun a => a / 512 == f).map fun a => 512 * g + a % 512
  modPkg fun x => { x with home := { x.home with hbmPois := moved ++ kept } }

/-- The large pages of a table that have a frame in a bank, and the frames in the bank that are live: those of its other leaves,
and the tables themselves. -/
def largeIn (stack bank : Nat) (all : List TableEntry) : List TableEntry :=
  all.filter fun e => e.isLeaf && e.level == 2 && (List.range 512).any fun i => inBank stack bank (e.frame + i)

def liveIn (stack bank troot : Nat) (all : List TableEntry) : List Nat :=
  ((troot / 4096 :: ((all.filter fun e => (e.isLeaf && e.level == 1) || e.isTable).map (·.frame))).filter (inBank stack bank)).eraseDups

/-- Free frames of a stack outside a bank. -/
def freeBeside (stack bank : Nat) : M (List Nat) := do
  return (← thePkg).ctl.freeFrames.filter fun f => frameStack f == stack && !inBank stack bank f

/-- Every whole translated page is written back, and the large pages that a bank's fence touches are divided: the page table then.
The fence waits for free frames and for pages that a registered region pins (log 28). -/
def dividePages (stack bank : Nat) : M (List TableEntry) := do
  runHome 0 0 writeAllBack
  let large := largeIn stack bank (← pageTable)
  let spare ← freeBeside stack bank
  let pins := (← thePkg).fabric
  if spare.length < large.length || large.any fun e => pins.pins e.va (e.va + e.span) then block
  large.forM fun e => startInvalidation e.va (e.va + e.span) .plain
  (large.zip spare).forM fun q => splitLarge q.1 q.2
  pageTable

/-- Each live frame of a bank moved (R411): a page goes with a range invalidation, as a MIGRATE to its own stack would. -/
def emptyBank (stack bank : Nat) : M Unit := do
  let all ← dividePages stack bank
  let live := liveIn stack bank (← thePkg).home.troot all
  let pages := all.filter fun e => e.isLeaf && e.level == 1 && live.contains e.frame
  let spare ← freeBeside stack bank
  let pins := (← thePkg).fabric
  if spare.length < live.length || pages.any fun e => pins.pins e.va (e.va + 4096) then block
  pages.forM fun e => startInvalidation e.va (e.va + 4096) .plain
  (pages.filter fun e => natBits e.word 2 2 == 1).forM (splitGroup all)
  let named ← pageTable
  (live.zip spare).forM fun q => renameFrame named q.1 q.2
  (live.zip spare).forM fun q => moveFrame q.1 q.2

/-- BANK_FENCE (R410, R411): each live frame of a failing bank is migrated within its stack, and the bank's frames leave the free
list. -/
def bankFence (stack bank : Nat) : M Unit := do
  if 16 <= stack || 256 <= bank || (← thePkg).service.banks.contains (stack, bank) then return
  emptyBank stack bank
  modCtl fun k => { k with freeFrames := k.freeFrames.filter fun f => !inBank stack bank f }
  modService fun s => ({ s with banks := s.banks ++ [(stack, bank)] } : Service).noteWear

def execBankFence (stack bank : Nat) (s : State) : Host.Outcome State Fault Refusal := event (bankFence stack bank) s

/-- HBM_ROW_REPAIR (R410): a failing row is replaced by a spare, its contents copied before the swap. -/
def hbmRowRepair (stack bank row : Nat) : M Unit := do
  if 16 <= stack || 256 <= bank then return
  modService fun s => if s.rows.contains (stack, bank, row) then s else { s with rows := s.rows ++ [(stack, bank, row)] }

def execHbmRowRepair (stack bank row : Nat) (s : State) : Host.Outcome State Fault Refusal :=
  event (hbmRowRepair stack bank row) s

/-- The lanes of a link that are fenced. -/
def Service.lanesOf (s : Service) (link : Nat) : List Nat := (s.lanes.filter fun l => l.1 == link).map (·.2)

/-- LINK_LANE_FENCE (R410): a failing lane is fenced; a link with fewer than 4 good lanes is fenced whole. The routes are
the fabric manager's (R367). -/
def linkLaneFence (link lane : Nat) : M Unit := do
  if 24 <= link || 8 <= lane || (← thePkg).service.lanes.contains (link, lane) then return
  modService fun s =>
    let bad := lane :: s.lanesOf link
    let whole := 8 < bad.length + 4
    let now_ := if whole then List.range 8 else bad
    ({ s with lanes := (s.lanes.filter fun l => l.1 != link) ++ now_.map fun k => (link, k)
              links := if whole then s.links ++ [link] else s.links } : Service).noteWear

def execLinkLaneFence (link lane : Nat) (s : State) : Host.Outcome State Fault Refusal := event (linkLaneFence link lane) s

/-! ### Replay (R415) -/

/-- A recorded digest agrees with memory. -/
def digestHolds (dom : Nat) : RecItem → M Bool
  | .digest va n sha => do
    match ← sysReadAs dom va n with
    | .ok v => return sha256 n v == sha
    | .error _ => return false
  | _ => return true

/-- A record's command. -/
def Record.command (r : Record) : Option VReg := r.items.findSome? fun i =>
  match i with
  | .command b => some b
  | _ => none

/-- REPLAY_ENTER (R415): a partition enters replay mode with a record. The digests are checked; then the launch is
reissued, its strands pinned to the recorded cores and its messages and atomics to the recorded orders. -/
def replayEnter (part launch : Nat) : M Unit := do
  match (← thePkg).service.records.find? fun r => r.part == part && r.launch == launch && !r.open_ with
  | none => refused
  | some r =>
    let same ← r.items.mapM fun i => digestHolds r.dom i
    match same.all (fun b => b), r.command with
    | true, some b =>
      match ← validateLaunch r.ctx r.ring part b.toNat with
      | .error _ => refused
      | .ok a =>
        let id ← comingId
        modService fun s => { s with replay := some { part := part, launch := id, items := r.items, all := r.items } }
        let _ ← acceptLaunch { a with record := false }
    | _, _ => refused
where
  /-- A management error code is sent. -/
  refused : M Unit := modService fun s => { s with refusedReplay := s.refusedReplay + 1 }

def execReplayEnter (part launch : Nat) (s : State) : Host.Outcome State Fault Refusal := event (replayEnter part launch) s

/-! ### Checkpoints (R416) -/

/-- Every partition has been pre-empted through PREEMPT (R407): no core holds a strand and none waits for one, and no command and
no store or reduction is under way. -/
def Package.still (x : Package) : Bool :=
  x.cores.all (fun c => c.2.mode == .idle && c.2.cmds.isEmpty && c.2.inflight.isEmpty && c.2.amons.isEmpty) &&
    x.ctl.ctxs.all (fun c => c.2.fetched.isEmpty) && x.home.accepted.isEmpty &&
    x.sched.strands.all fun s => s.onCore.isNone && s.state != .running && !s.waits

/-- A checkpoint of a package, whose archipelagos are those of a list that it accepted. -/
def Package.snap (x : Package) (me : Nat) (arcs : List Archipelago) : Snapshot :=
  { hbm := x.home.hbm, pois := x.home.hbmPois, troot := x.home.troot, fotBase := x.home.fotBase, overflow := x.home.overflow,
    defRings := x.home.defRings, sched := x.sched, saves := x.ctl.saves, savedGens := x.savedGens,
    arcs := arcs.filter fun a => a.pkg == me }

/-- CHECKPOINT (R416): all device memory is copied, the key slots and the counter table never. -/
def checkpoint : M Unit := do
  if !(← thePkg).still then block
  let me := (← read).pkg
  runHome 0 0 writeAllBack
  let arcs := (← get).arcs
  modPkg fun x => { x with service := { x.service with snapshot := some (x.snap me arcs) } }

def execCheckpoint (s : State) : Host.Outcome State Fault Refusal := event checkpoint s

/-- The memory side with a checkpoint's memory, its caches empty. -/
def Home.restored (h : Home) (m : Snapshot) : Home :=
  { Home.reset with hbm := m.hbm, hbmPois := m.pois, troot := m.troot, fotBase := m.fotBase, overflow := m.overflow,
                    defRings := m.defRings, quotas := h.quotas }

/-- The control complex after a checkpoint is restored: the monitor raises every counter by 2^32; the save slots, and the records in
use of each pool, are the checkpoint's. -/
def Ctl.restored (k : Ctl) (m : Snapshot) : Ctl :=
  let up (n : Nat) : Nat := (n + 2 ^ 32) % 2 ^ 64
  let used (p : Pool) : List Nat := (List.range p.n).filter fun i => m.sched.strands.any fun s => s.va == p.va + 64 * i
  { k with
    counters := k.counters.map fun c => (c.1, { c.2 with ctr := up c.2.ctr })
    ctrBase := up k.ctrBase
    saves := m.saves
    doms := k.doms.map fun d => (d.1, { d.2 with pool := { d.2.pool with used := used d.2.pool } }) }

/-- The schedulers after a checkpoint is restored: its strands and launches, and the code caches as they are. -/
def Sched.restored (x : Sched) (m : Snapshot) : Sched :=
  { m.sched with dieCode := x.dieCode, pool := x.pool, searches := [] }

/-- CHECKPOINT_RESTORE (R416): the memory is the checkpoint's, and the strands saved in it stand as they did there; a protected one
cannot resume, since every counter has risen. -/
def checkpointRestore : M Unit := do
  match (← thePkg).service.snapshot with
  | none => return
  | some m =>
    if !(← thePkg).still then block
    let me := (← read).pkg
    let clean (c : Nat × Core) : Nat × Core := (c.1, { c.2 with plb := [] })
    modPkg fun x => { x with
      home := x.home.restored m
      ctl := x.ctl.restored m
      sched := x.sched.restored m
      savedGens := m.savedGens
      cores := x.cores.map clean }
    modify fun d => { d with arcs := d.arcs.filter (fun a => a.pkg != me) ++ m.arcs }

def execCheckpointRestore (s : State) : Host.Outcome State Fault Refusal := event checkpointRestore s

/-! ### Bring-up (R418) -/

/-- The monitor's firmware is signed with the Verbor key. -/
def firmwareGood (len image sig : Nat) : Bool := edVerify Config.verborKey sig (bytesLE len image)

/-- The service state when a reset ends at a time: the recorded fences applied, so that RR rises anew from its reset value where
they ask for it (R412), and every clock counting from 0. -/
def Service.broughtUp (s : Service) (t : Nat) (good : Bool) : Service :=
  let die : Die := { Die.reset with since := t, stepped := t, sampled := t, replanned := t }
  Service.noteWear { Service.reset with
    dies := (List.range 8).map fun k => (k, die)
    quads := s.quads, banks := s.banks, rows := s.rows, lanes := s.lanes, links := s.links
    ready := good, started := t, scrubbed := t, cacheScrubbed := t, swept := t, snapshot := s.snapshot }

/-- DEVICE_RESET (R418): the device is reset and brings itself up: no partition is defined, every line is off, every key
slot and table slot empty; with the Verbor key's firmware it sets READY. Main memory keeps its bytes (log 2), but for those of the
translation cache, which is empty (log 92). -/
def deviceReset (len image sig : Nat) : M Unit := do
  let me := (← read).pkg
  let t ← now
  let gone (i : Island) : Island := if i.pkg == me then { i with departed := true } else i
  modPkg fun x =>
    { Package.reset with
      home := { Home.reset with hbm := x.home.hbm.filter (·.1 < transBase), hbmPois := x.home.hbmPois.filter (8 * · < transBase) }
      service := x.service.broughtUp t (firmwareGood len image sig) }
  modify fun d => { d with arcs := (d.arcs.filter fun a => a.pkg != me).map fun a => { a with islands := a.islands.map gone } }

def execDeviceReset (len image sig : Nat) (s : State) : Host.Outcome State Fault Refusal := event (deviceReset len image sig) s

end Sys2Proof.Machine
end

