-- ==== Sys2Proof/Machine/Dispatch.lean ====
section
/-!
DEFINITION. Sys2Proof/Machine/Dispatch.lean: one arm per constructor of `Instr`, each a direct call of its meaning.
-/

namespace Sys2Proof.Machine

open Sys2Proof

/-- The meaning of one instruction or event on a state. -/
def exec (i : Instr) (s : State) : Host.Outcome State Fault Refusal :=
  match i with
  | .add d a b => Sys2Proof.Machine.execAdd d a b s
  | .sub d a b => Sys2Proof.Machine.execSub d a b s
  | .and d a b => Sys2Proof.Machine.execAnd d a b s
  | .or d a b => Sys2Proof.Machine.execOr d a b s
  | .xor d a b => Sys2Proof.Machine.execXor d a b s
  | .shl d a b => Sys2Proof.Machine.execShl d a b s
  | .shr d a b => Sys2Proof.Machine.execShr d a b s
  | .sra d a b => Sys2Proof.Machine.execSra d a b s
  | .min d a b => Sys2Proof.Machine.execMin d a b s
  | .max d a b => Sys2Proof.Machine.execMax d a b s
  | .minn d a b => Sys2Proof.Machine.execMinn d a b s
  | .maxn d a b => Sys2Proof.Machine.execMaxn d a b s
  | .mul d a b => Sys2Proof.Machine.execMul d a b s
  | .mulh d a b => Sys2Proof.Machine.execMulh d a b s
  | .mulhn d a b => Sys2Proof.Machine.execMulhn d a b s
  | .div d a b => Sys2Proof.Machine.execDiv d a b s
  | .divn d a b => Sys2Proof.Machine.execDivn d a b s
  | .rem d a b => Sys2Proof.Machine.execRem d a b s
  | .remn d a b => Sys2Proof.Machine.execRemn d a b s
  | .shadd1 d a b => Sys2Proof.Machine.execShadd1 d a b s
  | .shadd2 d a b => Sys2Proof.Machine.execShadd2 d a b s
  | .shadd3 d a b => Sys2Proof.Machine.execShadd3 d a b s
  | .andn d a b => Sys2Proof.Machine.execAndn d a b s
  | .addi d a im => Sys2Proof.Machine.execAddi d a im s
  | .andi d a im => Sys2Proof.Machine.execAndi d a im s
  | .ori d a im => Sys2Proof.Machine.execOri d a im s
  | .xori d a im => Sys2Proof.Machine.execXori d a im s
  | .shli d a sz => Sys2Proof.Machine.execShli d a sz s
  | .shri d a sz => Sys2Proof.Machine.execShri d a sz s
  | .srai d a sz => Sys2Proof.Machine.execSrai d a sz s
  | .lui d im => Sys2Proof.Machine.execLui d im s
  | .insh d h im => Sys2Proof.Machine.execInsh d h im s
  | .clz d a => Sys2Proof.Machine.execClz d a s
  | .ctz d a => Sys2Proof.Machine.execCtz d a s
  | .popc d a => Sys2Proof.Machine.execPopc d a s
  | .bswap d a => Sys2Proof.Machine.execBswap d a s
  | .extb d a => Sys2Proof.Machine.execExtb d a s
  | .exth d a => Sys2Proof.Machine.execExth d a s
  | .extw d a => Sys2Proof.Machine.execExtw d a s
  | .extbn d a => Sys2Proof.Machine.execExtbn d a s
  | .exthn d a => Sys2Proof.Machine.execExthn d a s
  | .extwn d a => Sys2Proof.Machine.execExtwn d a s
  | .cmp p c a b => Sys2Proof.Machine.execCmp p c a b s
  | .cmpi p c a im => Sys2Proof.Machine.execCmpi p c a im s
  | .plog d f a b => Sys2Proof.Machine.execPlog d f a b s
  | .sel d a b g => Sys2Proof.Machine.execSel d a b g s
  | .pmovToReg r => Sys2Proof.Machine.execPmovToReg r s
  | .pmovFromReg r => Sys2Proof.Machine.execPmovFromReg r s
  | .bc d g => Sys2Proof.Machine.execBc d g s
  | .bq d => Sys2Proof.Machine.execBq d s
  | .bqN d => Sys2Proof.Machine.execBqN d s
  | .bout p => Sys2Proof.Machine.execBout p s
  | .jr a => Sys2Proof.Machine.execJr a s
  | .dbnz r d => Sys2Proof.Machine.execDbnz r d s
  | .twait d a => Sys2Proof.Machine.execTwait d a s
  | .bbset a b o m => Sys2Proof.Machine.execBbset a b o m s
  | .bbget d w => Sys2Proof.Machine.execBbget d w s
  | .bbpeek d w => Sys2Proof.Machine.execBbpeek d w s
  | .bbskip w => Sys2Proof.Machine.execBbskip w s
  | .ld d a sz n im => Sys2Proof.Machine.execLd d a sz n im s
  | .stb v a im g => Sys2Proof.Machine.execStb v a im g s
  | .sth v a im g => Sys2Proof.Machine.execSth v a im g s
  | .stw v a im g => Sys2Proof.Machine.execStw v a im g s
  | .std v a im g => Sys2Proof.Machine.execStd v a im g s
  | .lda d a sz n c im => Sys2Proof.Machine.execLda d a sz n c im s
  | .strel v a sz c g => Sys2Proof.Machine.execStrel v a sz c g s
  | .ldv d a im => Sys2Proof.Machine.execLdv d a im s
  | .stv v a im g => Sys2Proof.Machine.execStv v a im g s
  | .gath d a b sz n x => Sys2Proof.Machine.execGath d a b sz n x s
  | .gathT d a b sz n x => Sys2Proof.Machine.execGathT d a b sz n x s
  | .scat v a b sz x g => Sys2Proof.Machine.execScat v a b sz x g s
  | .amo d a o sz r c g => Sys2Proof.Machine.execAmo d a o sz r c g s
  | .amon v a o sz g => Sys2Proof.Machine.execAmon v a o sz g s
  | .cas d a sz r c g => Sys2Proof.Machine.execCas d a sz r c g s
  | .fence d k c => Sys2Proof.Machine.execFence d k c s
  | .calld h k => Sys2Proof.Machine.execCalld h k s
  | .taild h k => Sys2Proof.Machine.execTaild h k s
  | .susp k => Sys2Proof.Machine.execSusp k s
  | .spawn d a b => Sys2Proof.Machine.execSpawn d a b s
  | .send d a sz c => Sys2Proof.Machine.execSend d a sz c s
  | .recv d a c => Sys2Proof.Machine.execRecv d a c s
  | .recvT d a c => Sys2Proof.Machine.execRecvT d a c s
  | .csrr d c => Sys2Proof.Machine.execCsrr d c s
  | .csrw a c => Sys2Proof.Machine.execCsrw a c s
  | .trap c => Sys2Proof.Machine.execTrap c s
  | .sysPlbinv a b => Sys2Proof.Machine.execSysPlbinv a b s
  | .sysCsinv a => Sys2Proof.Machine.execSysCsinv a s
  | .sysQflush a => Sys2Proof.Machine.execSysQflush a s
  | .sysEvcfg a b => Sys2Proof.Machine.execSysEvcfg a b s
  | .vadd d a b t => Sys2Proof.Machine.execVadd d a b t s
  | .vaddSatI d a b t => Sys2Proof.Machine.execVaddSatI d a b t s
  | .vaddSatN d a b t => Sys2Proof.Machine.execVaddSatN d a b t s
  | .vsub d a b t => Sys2Proof.Machine.execVsub d a b t s
  | .vsubSatI d a b t => Sys2Proof.Machine.execVsubSatI d a b t s
  | .vsubSatN d a b t => Sys2Proof.Machine.execVsubSatN d a b t s
  | .vmul d a b t => Sys2Proof.Machine.execVmul d a b t s
  | .vmulHiI d a b t => Sys2Proof.Machine.execVmulHiI d a b t s
  | .vmulHiN d a b t => Sys2Proof.Machine.execVmulHiN d a b t s
  | .vmulSat d a b t => Sys2Proof.Machine.execVmulSat d a b t s
  | .vfma d a b t => Sys2Proof.Machine.execVfma d a b t s
  | .vfmaMs d a b t => Sys2Proof.Machine.execVfmaMs d a b t s
  | .vfmaNa d a b t => Sys2Proof.Machine.execVfmaNa d a b t s
  | .vfmaNms d a b t => Sys2Proof.Machine.execVfmaNms d a b t s
  | .vmin d a b t => Sys2Proof.Machine.execVmin d a b t s
  | .vminNum d a b t => Sys2Proof.Machine.execVminNum d a b t s
  | .vmax d a b t => Sys2Proof.Machine.execVmax d a b t s
  | .vmaxNum d a b t => Sys2Proof.Machine.execVmaxNum d a b t s
  | .vand d a b => Sys2Proof.Machine.execVand d a b s
  | .vor d a b => Sys2Proof.Machine.execVor d a b s
  | .vxor d a b => Sys2Proof.Machine.execVxor d a b s
  | .vandn d a b => Sys2Proof.Machine.execVandn d a b s
  | .vnot d a => Sys2Proof.Machine.execVnot d a s
  | .vshl d a b t => Sys2Proof.Machine.execVshl d a b t s
  | .vshr d a b t => Sys2Proof.Machine.execVshr d a b t s
  | .vsra d a b t => Sys2Proof.Machine.execVsra d a b t s
  | .vshli d a c t => Sys2Proof.Machine.execVshli d a c t s
  | .vshri d a c t => Sys2Proof.Machine.execVshri d a c t s
  | .vsrai d a c t => Sys2Proof.Machine.execVsrai d a c t s
  | .vcmp d a b t c => Sys2Proof.Machine.execVcmp d a b t c s
  | .vsel d a b t => Sys2Proof.Machine.execVsel d a b t s
  | .vcvt d a t sz r => Sys2Proof.Machine.execVcvt d a t sz r s
  | .vencC8 d a r q => Sys2Proof.Machine.execVencC8 d a r q s
  | .vencC4 d a b r q => Sys2Proof.Machine.execVencC4 d a b r q s
  | .vdecC8 d a q => Sys2Proof.Machine.execVdecC8 d a q s
  | .vdecC4 d a b q => Sys2Proof.Machine.execVdecC4 d a b q s
  | .vsplat d a t => Sys2Proof.Machine.execVsplat d a t s
  | .vsplatImm d im t => Sys2Proof.Machine.execVsplatImm d im t s
  | .vext d a k t => Sys2Proof.Machine.execVext d a k t s
  | .vins d a k t => Sys2Proof.Machine.execVins d a k t s
  | .vperm d a b t => Sys2Proof.Machine.execVperm d a b t s
  | .vslideup d a c t => Sys2Proof.Machine.execVslideup d a c t s
  | .vslidedn d a c t => Sys2Proof.Machine.execVslidedn d a c t s
  | .vred d a t o => Sys2Proof.Machine.execVred d a t o s
  | .vmath d a o => Sys2Proof.Machine.execVmath d a o s
  | .vabs d a t => Sys2Proof.Machine.execVabs d a t s
  | .vneg d a t => Sys2Proof.Machine.execVneg d a t s
  | .vabsSat d a t => Sys2Proof.Machine.execVabsSat d a t s
  | .vpop d a => Sys2Proof.Machine.execVpop d a s
  | .vpush d a => Sys2Proof.Machine.execVpush d a s
  | .vmov d a => Sys2Proof.Machine.execVmov d a s
  | .vzero d => Sys2Proof.Machine.execVzero d s
  | .viota d t => Sys2Proof.Machine.execViota d t s
  | .eclr d => Sys2Proof.Machine.execEclr d s
  | .vdot4 d a b sz => Sys2Proof.Machine.execVdot4 d a b sz s
  | .vmaskV d a => Sys2Proof.Machine.execVmaskV d a s
  | .vmaskC d a => Sys2Proof.Machine.execVmaskC d a s
  | .vfma2 d a b t => Sys2Proof.Machine.execVfma2 d a b t s
  | .tdset t a => Sys2Proof.Machine.execTdset t a s
  | .mma m a b => Sys2Proof.Machine.execMma m a b s
  | .mmaz m a b => Sys2Proof.Machine.execMmaz m a b s
  | .mzero k => Sys2Proof.Machine.execMzero k s
  | .mscaRow m v => Sys2Proof.Machine.execMscaRow m v s
  | .mscaCol m v => Sys2Proof.Machine.execMscaCol m v s
  | .mrd v m r => Sys2Proof.Machine.execMrd v m r s
  | .mwr v m r => Sys2Proof.Machine.execMwr v m r s
  | .mst m t f c r => Sys2Proof.Machine.execMst m t f c r s
  | .mld m a => Sys2Proof.Machine.execMld m a s
  | .ldtab a => Sys2Proof.Machine.execLdtab a s
  | .mcmb m a => Sys2Proof.Machine.execMcmb m a s
  | .mmaw m a b => Sys2Proof.Machine.execMmaw m a b s
  | .mmawz m a b => Sys2Proof.Machine.execMmawz m a b s
  | .bmv d a => Sys2Proof.Machine.execBmv d a s
  | .btab d a b => Sys2Proof.Machine.execBtab d a b s
  | .blay d a => Sys2Proof.Machine.execBlay d a s
  | .shpmk d a => Sys2Proof.Machine.execShpmk d a s
  | .shpdel a => Sys2Proof.Machine.execShpdel a s
  | .copy d a b c => Sys2Proof.Machine.execCopy d a b c s
  | .copys d a b c => Sys2Proof.Machine.execCopys d a b c s
  | .cfill d a b c => Sys2Proof.Machine.execCfill d a b c s
  | .fxput d a b c => Sys2Proof.Machine.execFxput d a b c s
  | .fxget d a b c => Sys2Proof.Machine.execFxget d a b c s
  | .fxred d a b c => Sys2Proof.Machine.execFxred d a b c s
  | .arcJoin d a => Sys2Proof.Machine.execArcJoin d a s
  | .arcLeave d a => Sys2Proof.Machine.execArcLeave d a s
  | .arcBar d a => Sys2Proof.Machine.execArcBar d a s
  | .launchStrand ctx ring advice prio => Sys2Proof.Machine.execLaunchStrand ctx ring advice prio s
  | .launchGraph ctx ring advice prio => Sys2Proof.Machine.execLaunchGraph ctx ring advice prio s
  | .launchLattice ctx ring advice prio => Sys2Proof.Machine.execLaunchLattice ctx ring advice prio s
  | .launchArchipelago ctx ring advice prio => Sys2Proof.Machine.execLaunchArchipelago ctx ring advice prio s
  | .doorbell fn off v => Sys2Proof.Machine.execDoorbell fn off v s
  | .eventRingSpace c n => Sys2Proof.Machine.execEventRingSpace c n s
  | .registerWrite fn off v => Sys2Proof.Machine.execRegisterWrite fn off v s
  | .partcfg ctx ring => Sys2Proof.Machine.execPartcfg ctx ring s
  | .ctxcfg ctx ring => Sys2Proof.Machine.execCtxcfg ctx ring s
  | .ctxreset ctx ring => Sys2Proof.Machine.execCtxreset ctx ring s
  | .domcfg ctx ring => Sys2Proof.Machine.execDomcfg ctx ring s
  | .domfree ctx ring => Sys2Proof.Machine.execDomfree ctx ring s
  | .trust ctx ring => Sys2Proof.Machine.execTrust ctx ring s
  | .rangeinv ctx ring => Sys2Proof.Machine.execRangeinv ctx ring s
  | .plbshoot ctx ring => Sys2Proof.Machine.execPlbshoot ctx ring s
  | .faultres ctx ring => Sys2Proof.Machine.execFaultres ctx ring s
  | .teardown ctx ring => Sys2Proof.Machine.execTeardown ctx ring s
  | .preempt ctx ring => Sys2Proof.Machine.execPreempt ctx ring s
  | .restore ctx ring => Sys2Proof.Machine.execRestore ctx ring s
  | .keyset ctx ring => Sys2Proof.Machine.execKeyset ctx ring s
  | .rackLaunchPacket sender packet => Sys2Proof.Machine.execRackLaunchPacket sender packet s
  | .migrate dom => Sys2Proof.Machine.execMigrate dom s
  | .setrap dom => Sys2Proof.Machine.execSetrap dom s
  | .rangeInvalidationPerform id => Sys2Proof.Machine.execRangeInvalidationPerform id s
  | .graphNodeFinish launch node => Sys2Proof.Machine.execGraphNodeFinish launch node s
  | .controlNodeEval launch node => Sys2Proof.Machine.execControlNodeEval launch node s
  | .loopNodeEval launch node => Sys2Proof.Machine.execLoopNodeEval launch node s
  | .bandStart launch => Sys2Proof.Machine.execBandStart launch s
  | .bandReconstruct launch => Sys2Proof.Machine.execBandReconstruct launch s
  | .completionForward launch key => Sys2Proof.Machine.execCompletionForward launch key s
  | .completionRecordWrite launch => Sys2Proof.Machine.execCompletionRecordWrite launch s
  | .codePoison place n => Sys2Proof.Machine.execCodePoison place n s
  | .loadDataReturn serial => Sys2Proof.Machine.execLoadDataReturn serial s
  | .gathTPush serial late => Sys2Proof.Machine.execGathTPush serial late s
  | .eventChainSignal k => Sys2Proof.Machine.execEventChainSignal k s
  | .storePerform serial => Sys2Proof.Machine.execStorePerform serial s
  | .atomicPerform line => Sys2Proof.Machine.execAtomicPerform line s
  | .amonAccept serial => Sys2Proof.Machine.execAmonAccept serial s
  | .deferredResolve dom => Sys2Proof.Machine.execDeferredResolve dom s
  | .lineFill va => Sys2Proof.Machine.execLineFill va s
  | .pageWalk va => Sys2Proof.Machine.execPageWalk va s
  | .copyCommandComplete serial => Sys2Proof.Machine.execCopyCommandComplete serial s
  | .bankCommandComplete serial => Sys2Proof.Machine.execBankCommandComplete serial s
  | .btabSlotReplace serial stack => Sys2Proof.Machine.execBtabSlotReplace serial stack s
  | .fabricCommandComplete serial => Sys2Proof.Machine.execFabricCommandComplete serial s
  | .narrowsRetransmit serial j => Sys2Proof.Machine.execNarrowsRetransmit serial j s
  | .narrowsMessageAck serial j bitmap => Sys2Proof.Machine.execNarrowsMessageAck serial j bitmap s
  | .mcrRound group elem => Sys2Proof.Machine.execMcrRound group elem s
  | .mcrDeliver group elem => Sys2Proof.Machine.execMcrDeliver group elem s
  | .regionRegister key dom va pages => Sys2Proof.Machine.execRegionRegister key dom va pages s
  | .keyRevoke key => Sys2Proof.Machine.execKeyRevoke key s
  | .hostMemAccess acc va v => Sys2Proof.Machine.execHostMemAccess acc va v s
  | .tagError line mirrorBad => Sys2Proof.Machine.execTagError line mirrorBad s
  | .dataError kind at_ => Sys2Proof.Machine.execDataError kind at_ s
  | .pdmSample die slack => Sys2Proof.Machine.execPdmSample die slack s
  | .replan die khz points => Sys2Proof.Machine.execReplan die khz points s
  | .clockStep die khz => Sys2Proof.Machine.execClockStep die khz s
  | .bankFence stack bank => Sys2Proof.Machine.execBankFence stack bank s
  | .hbmRowRepair stack bank row => Sys2Proof.Machine.execHbmRowRepair stack bank row s
  | .linkLaneFence link lane => Sys2Proof.Machine.execLinkLaneFence link lane s
  | .replayEnter part launch => Sys2Proof.Machine.execReplayEnter part launch s
  | .deviceReset len image sig => Sys2Proof.Machine.execDeviceReset len image sig s
  | .reservedMajor w => Sys2Proof.Machine.execReservedMajor w s
  | .pair lo hi span => Sys2Proof.Machine.execPair lo hi span s
  | .peerDeclaredLost peer => Sys2Proof.Machine.execPeerDeclaredLost peer s
  | .routeTableLoad dest hops => Sys2Proof.Machine.execRouteTableLoad dest hops s
  | .podApertureEntryWrite apt w0 w1 => Sys2Proof.Machine.execPodApertureEntryWrite apt w0 w1 s
  | .groupEntryWrite group w0 w1 => Sys2Proof.Machine.execGroupEntryWrite group w0 w1 s
  | .regionDeregister key => Sys2Proof.Machine.execRegionDeregister key s
  | .nop => Sys2Proof.Machine.execNop s
  | .retd => Sys2Proof.Machine.execRetd s
  | .done => Sys2Proof.Machine.execDone s
  | .commit => Sys2Proof.Machine.execCommit s
  | .eret => Sys2Proof.Machine.execEret s
  | .sysTabclr => Sys2Proof.Machine.execSysTabclr s
  | .strandDispatch => Sys2Proof.Machine.execStrandDispatch s
  | .dockEnter => Sys2Proof.Machine.execDockEnter s
  | .priorityAgeing => Sys2Proof.Machine.execPriorityAgeing s
  | .copyIn => Sys2Proof.Machine.execCopyIn s
  | .copyInComplete => Sys2Proof.Machine.execCopyInComplete s
  | .codeFetchStage => Sys2Proof.Machine.execCodeFetchStage s
  | .neighbourTimeout => Sys2Proof.Machine.execNeighbourTimeout s
  | .codeInstall => Sys2Proof.Machine.execCodeInstall s
  | .sliceEnd => Sys2Proof.Machine.execSliceEnd s
  | .imageSeal => Sys2Proof.Machine.execImageSeal s
  | .drainWatchdog => Sys2Proof.Machine.execDrainWatchdog s
  | .qdeadlock => Sys2Proof.Machine.execQdeadlock s
  | .barrierLineArrival => Sys2Proof.Machine.execBarrierLineArrival s
  | .podBarrierArrival => Sys2Proof.Machine.execPodBarrierArrival s
  | .islandDepart => Sys2Proof.Machine.execIslandDepart s
  | .messageArrival => Sys2Proof.Machine.execMessageArrival s
  | .parkedMessageForward => Sys2Proof.Machine.execParkedMessageForward s
  | .dirtyBitmapSweep => Sys2Proof.Machine.execDirtyBitmapSweep s
  | .scrub => Sys2Proof.Machine.execScrub s
  | .quadFence => Sys2Proof.Machine.execQuadFence s
  | .checkpoint => Sys2Proof.Machine.execCheckpoint s
  | .zeroword => Sys2Proof.Machine.execZeroword s
  | .runPastBody => Sys2Proof.Machine.execRunPastBody s
  | .checkpointRestore => Sys2Proof.Machine.execCheckpointRestore s
  | .reconciliationSweep => Sys2Proof.Machine.execReconciliationSweep s

end Sys2Proof.Machine
end

