-- ==== Sys2Proof/Machine/Step.lean ====
section
/-!
DEFINITION. Sys2Proof/Machine/Step.lean: one step of the machine: the next turn of the schedule (log 3), which is the next
unit of a stream, an event of an engine, or time that passes; and a word placed where the next step fetches.
-/

namespace Sys2Proof.Machine

/-- The unit at the cursor. -/
def State.unit (s : State) : Host.Outcome State Fault Refusal := exec (s.core.nextInstr s.cur.stream) s

/-- One step. Without a turn to come, the stream of the cursor goes on. -/
def step (s : State) : Host.Outcome State Fault Refusal :=
  match s.agenda with
  | [] => s.unit
  | .unit p c st :: rest => { s with cur := { pkg := p, core := c, stream := st }, agenda := rest }.unit
  | .event p c i :: rest =>
    let t : State := { s with cur := { pkg := p, core := c, stream := .A }, agenda := rest }
    if isEvent i then exec i t else .next t
  | .elapse ns :: rest => .next { s with time := s.time + ns, agenda := rest }

/-- The state whose next step fetches and runs an encoded instruction: a resident function of one lone unit stands at
offset 0 of the cursor's core, in both bodies, and the cursor is on a stream in which the word's major is legal (log 10). -/
def State.withFetchWord (s : State) (_nbits w : Nat) : State :=
  { s with
    dev := s.dev.setPkg s.cur.pkg ((s.dev.pkg s.cur.pkg).setCore s.cur.core (s.core.withWord (BitVec.ofNat 32 w ||| 1)))
    cur := { s.cur with stream := if legalIn .A (majorOf (BitVec.ofNat 32 w)) then .A else .X }
    agenda := [] }

end Sys2Proof.Machine
end

