-- ==== Sys2Proof/Safety.lean ====
section
/-!
DEFINITION. Sys2Proof/Safety.lean: the terms in which claims about the machine are made: what a computation gives at a
state, updates of the cursor's core, the position of a stream after a unit, and runs.
-/

namespace Sys2Proof.Machine

/-! ### Computations at a state -/

/-- A computation at a state answers a value and leaves the hardware in a given condition. -/
def State.gives {α : Type} (s : State) (x : M α) (v : α) (d : Dev) : Prop := (x s.env).run s.dev = .ok (v, d)

/-- A computation at a state ends without performing. -/
def State.stops {α : Type} (s : State) (x : M α) (e : Stop) : Prop := (x s.env).run s.dev = .error e

/-- The state with other hardware. -/
def State.on (s : State) (d : Dev) : State := { s with dev := d }

/-- A computation at a state answers a value and leads to a state. -/
def State.does {α : Type} (s : State) (x : M α) (v : α) (t : State) : Prop := s.gives x v t.dev ∧ t = s.on t.dev

/-- The state a computation leads to, the same where it stops. -/
def State.after {α : Type} (s : State) (x : M α) : State :=
  match (x s.env).run s.dev with
  | .ok (_, d) => s.on d
  | .error _ => s

/-! ### Updates -/

/-- The state with the cursor's package changed. -/
def State.putPkg (s : State) (f : Package → Package) : State :=
  s.on (s.dev.setPkg s.cur.pkg (f (s.dev.pkg s.cur.pkg)))

/-- The state with the cursor's core changed. -/
def State.put (s : State) (f : Core → Core) : State := s.putPkg fun x => x.setCore s.cur.core (f (x.core s.cur.core))

/-- The cursor's package. -/
def State.pkg (s : State) : Package := s.dev.pkg s.cur.pkg

/-- The cursor's stream. -/
def State.str (s : State) : StreamState := s.core.str s.cur.stream

/-- The core with a vector register written. -/
def Core.putV (c : Core) (n : BitVec 6) (x : VReg) : Core := { c with v := c.v.setIfInBounds n.toNat x }

/-- The core with flags raised; FFLAGS is sticky (R132). -/
def Core.flag (c : Core) (f : Flags) : Core := { c with fflags := c.fflags ||| f }

/-- A scalar register of the cursor's stream. -/
def State.reg (s : State) (n : Nat) : Word :=
  match s.cur.stream with
  | .A => s.core.a.toList.getD n 0
  | .X => s.core.s.toList.getD n 0

/-- The core with a scalar register of a stream written. -/
def Core.putReg (c : Core) (st : Strm) (n : Nat) (v : Word) : Core :=
  match st with
  | .A => { c with a := c.a.setIfInBounds n v }
  | .X => { c with s := c.s.setIfInBounds n v }

/-- The core with a predicate of a stream written; p0 keeps its value (R97). -/
def Core.putPred (c : Core) (st : Strm) (p : BitVec 3) (b : Bool) : Core :=
  if p = 0 then c
  else match st with
    | .A => { c with pa := setPredBit c.pa p.toNat b }
    | .X => { c with px := setPredBit c.px p.toNat b }

/-! ### Units -/

/-- The core runs, and the instruction passes the decode checks of a lone unit (R66). -/
def State.ready (s : State) (i : Instr) : Prop := s.core.mode = .running ∧ s.gives (gate i) () s.dev

/-- No transfer takes place after the unit: no branch is pending that this unit's end carries out (R90, R91). -/
def State.straight (s : State) (f : Flow) : Prop := (s.str.advance 4 f).2 = none

/-- The state with the stream advanced past a lone unit. -/
def State.past (s : State) (f : Flow) : State := s.put fun c => c.setStr s.cur.stream ((c.str s.cur.stream).advance 4 f).1

/-- The state with the region begun after a unit that holds a commit point (R170, Table 8.7); `m` is the state in which the unit
performs, its commit point taken. -/
def State.begun (s m : State) : State := s.put fun c => c.begun m.core s.cur.stream

/-! ### What the scalar instructions compute (R93 to R96) -/

/-- The instructions of two scalar sources, each with its result. -/
def twoSourceOps : List ((BitVec 5 → BitVec 5 → BitVec 5 → Instr) × (Word → Word → Word)) :=
  [(.add, fun a b => a + b), (.sub, fun a b => a - b), (.and, fun a b => a &&& b), (.or, fun a b => a ||| b),
   (.xor, fun a b => a ^^^ b), (.andn, fun a b => a &&& ~~~b),
   (.shl, fun a b => a <<< (b.toNat % 64)), (.shr, fun a b => a >>> (b.toNat % 64)),
   (.sra, fun a b => a.sshiftRight (b.toNat % 64)),
   (.min, fun a b => if a.toInt <= b.toInt then a else b), (.max, fun a b => if a.toInt <= b.toInt then b else a),
   (.minn, fun a b => if a.toNat <= b.toNat then a else b), (.maxn, fun a b => if a.toNat <= b.toNat then b else a),
   (.mul, fun a b => a * b), (.mulh, fun a b => BitVec.ofInt 64 (a.toInt * b.toInt / 2 ^ 64)),
   (.mulhn, fun a b => BitVec.ofNat 64 (a.toNat * b.toNat / 2 ^ 64)),
   (.div, fun a b => if b = 0 then -1 else BitVec.ofInt 64 (a.toInt.tdiv b.toInt)),
   (.divn, fun a b => if b = 0 then -1 else BitVec.ofNat 64 (a.toNat / b.toNat)),
   (.rem, fun a b => if b = 0 then a else BitVec.ofInt 64 (a.toInt.tmod b.toInt)),
   (.remn, fun a b => if b = 0 then a else BitVec.ofNat 64 (a.toNat % b.toNat)),
   (.shadd1, fun a b => (a <<< 1) + b), (.shadd2, fun a b => (a <<< 2) + b), (.shadd3, fun a b => (a <<< 3) + b)]

/-- The instructions of one scalar source, each with its result. -/
def oneSourceOps : List ((BitVec 5 → BitVec 5 → Instr) × (Word → Word)) :=
  [(.clz, fun a => BitVec.ofNat 64 (leadingZeros 64 a.toNat)), (.ctz, fun a => BitVec.ofNat 64 (trailingZeros 64 a.toNat)),
   (.popc, fun a => BitVec.ofNat 64 (bitCount 64 a.toNat)), (.bswap, fun a => BitVec.ofNat 64 (reverseBytes 8 a.toNat)),
   (.extb, fun a => (a.setWidth 8).signExtend 64), (.exth, fun a => (a.setWidth 16).signExtend 64),
   (.extw, fun a => (a.setWidth 32).signExtend 64), (.extbn, fun a => (a.setWidth 8).setWidth 64),
   (.exthn, fun a => (a.setWidth 16).setWidth 64), (.extwn, fun a => (a.setWidth 32).setWidth 64)]

/-- The instructions of a source and an immediate, each with its result. -/
def immediateOps : List ((BitVec 5 → BitVec 5 → BitVec 14 → Instr) × (Word → Word → Word)) :=
  [(.addi, fun a i => a + i), (.andi, fun a i => a &&& i), (.ori, fun a i => a ||| i), (.xori, fun a i => a ^^^ i)]

/-- The shifts by an immediate, each with its result. -/
def shiftOps : List ((BitVec 5 → BitVec 5 → BitVec 6 → Instr) × (Word → Nat → Word)) :=
  [(.shli, fun a n => a <<< n), (.shri, fun a n => a >>> n), (.srai, fun a n => a.sshiftRight n)]

/-! ### What the vector instructions compute (R202 to R229) -/

/-- A vector register. -/
def State.vreg (s : State) (n : BitVec 6) : VReg := s.core.v.toList.getD n.toNat 0

/-- What the vector engine's arithmetic depends on: RMODE's direction and the core number. -/
def State.venv (s : State) : VEnv := ⟨arithRnd s.core.rmode, s.cur.core⟩

/-- The state with a result in a vector register and its flags raised. -/
def State.putV (s : State) (d : BitVec 6) (r : VReg × Flags) : State := s.put fun c => (c.putV d r.1).flag r.2

/-- The instructions of VA and VB with an element type, each with its result. -/
def vectorTwoOps : List ((BitVec 6 → BitVec 6 → BitVec 6 → BitVec 3 → Instr) ×
    (VEnv → BitVec 3 → VReg → VReg → VReg × Flags)) :=
  [(.vadd, fun e t x y => vAddSub e t false x y), (.vsub, fun e t x y => vAddSub e t true x y),
   (.vaddSatI, fun _ t x y => vAddSubSat t true false x y), (.vaddSatN, fun _ t x y => vAddSubSat t false false x y),
   (.vsubSatI, fun _ t x y => vAddSubSat t true true x y), (.vsubSatN, fun _ t x y => vAddSubSat t false true x y),
   (.vmul, fun e t x y => vMul e t x y), (.vmulHiI, fun _ t x y => vMulHi t true x y),
   (.vmulHiN, fun _ t x y => vMulHi t false x y), (.vmulSat, fun _ t x y => vMulSat t x y),
   (.vmin, fun _ t x y => vMinMax t false false x y), (.vminNum, fun _ t x y => vMinMax t false true x y),
   (.vmax, fun _ t x y => vMinMax t true false x y), (.vmaxNum, fun _ t x y => vMinMax t true true x y),
   (.vshl, fun _ t x y => (vShift t 0 x y, 0)), (.vshr, fun _ t x y => (vShift t 1 x y, 0)),
   (.vsra, fun _ t x y => (vShift t 2 x y, 0)), (.vperm, fun _ t x y => (vPerm t x y, 0)),
   (fun d a b _ => .vand d a b, fun _ _ x y => (x &&& y, 0)), (fun d a b _ => .vor d a b, fun _ _ x y => (x ||| y, 0)),
   (fun d a b _ => .vxor d a b, fun _ _ x y => (x ^^^ y, 0)), (fun d a b _ => .vandn d a b, fun _ _ x y => (x &&& ~~~y, 0))]

/-- The instructions of VA alone, each with its result. -/
def vectorOneOps : List ((BitVec 6 → BitVec 6 → BitVec 3 → Instr) × (VEnv → BitVec 3 → VReg → VReg × Flags)) :=
  [(fun d a _ => .vnot d a, fun _ _ x => (~~~x, 0)), (.vabs, fun _ t x => (vAbsNeg t false x, 0)),
   (.vneg, fun _ t x => (vAbsNeg t true x, 0)), (.vabsSat, fun _ t x => vAbsSat t x), (fun d a _ => .vmov d a, fun _ _ x => (x, 0)),
   (fun d a o => .vmath d a o, fun e o x => vMath e.core o x)]

/-- The instructions of VA, VB and VD, each with its result. -/
def vectorThreeOps : List ((BitVec 6 → BitVec 6 → BitVec 6 → BitVec 3 → Instr) ×
    (VEnv → BitVec 3 → VReg → VReg → VReg → VReg × Flags)) :=
  [(.vfma, fun e t x y z => vFma e t false false x y z), (.vfmaMs, fun e t x y z => vFma e t false true x y z),
   (.vfmaNa, fun e t x y z => vFma e t true false x y z), (.vfmaNms, fun e t x y z => vFma e t true true x y z),
   (.vsel, fun _ t x y z => (vSel t x y z, 0)), (.vdot4, fun _ o x y z => (vDot4 o x y z, 0))]

/-- The shifts and slides by an immediate, each with its result. -/
def vectorCountOps : List ((BitVec 6 → BitVec 6 → BitVec 6 → BitVec 3 → Instr) × (BitVec 3 → Nat → VReg → VReg)) :=
  [(.vshli, fun t c x => vShiftImm t 0 c x), (.vshri, fun t c x => vShiftImm t 1 c x), (.vsrai, fun t c x => vShiftImm t 2 c x),
   (.vslideup, fun t c x => vSlide t true c x), (.vslidedn, fun t c x => vSlide t false c x)]

/-! ### The matrix engine -/

/-- A tile descriptor register, decoded. -/
def State.tile (s : State) (n : BitVec 4) : TileDesc := TileDesc.ofWord (s.core.t.toList.getD n.toNat 0)

/-- An accumulator. -/
def State.acc (s : State) (m : BitVec 2) : Accum := s.core.m.toList.getD m.toNat Accum.zero

/-- An accumulator's K position. -/
def State.kAt (s : State) (m : BitVec 2) : BitVec 8 := s.core.kpos.toList.getD m.toNat 0

/-- The values of a tile in the scratchpad. -/
def State.values (s : State) (n : BitVec 4) (rows cols : Nat) : List (List Nat) :=
  (s.tile n).read s.core.table (fun a => s.core.scratch.read a 1) rows cols

/-- The state after a K-step of 16 into an accumulator (R238). -/
def State.kStepped (s : State) (m : BitVec 2) (z : Bool) (a b : List (List Nat)) : State :=
  let k0 := kStart z (s.kAt m)
  let r := kStep s.cur.core k0 z (s.acc m) a b
  s.put fun c => ({ c with
    m := c.m.setIfInBounds m.toNat r.1, kpos := c.kpos.setIfInBounds m.toNat (BitVec.ofNat 8 (k0 + 16)) } : Core).flag r.2

/-! ### Frames -/

/-- A scalar specifier that names no queue. -/
def plain (r : BitVec 5) : Prop := r.toNat < 28 ∨ r = 31

/-- What a scalar specifier that names no queue reads. -/
def State.operand (s : State) (r : BitVec 5) : Word := if r = 31 then 0 else s.reg r.toNat

/-- Nothing outside the cursor's core differs: the other cores, every byte of memory, the tables, queues and registers of
the package, the other packages, the archipelagos, and the schedule. -/
def Elsewhere (s t : State) : Prop :=
  t.time = s.time ∧ t.cur = s.cur ∧ t.agenda = s.agenda ∧ t.dev.arcs = s.dev.arcs ∧
    (∀ p, p ≠ s.cur.pkg → t.dev.pkg p = s.dev.pkg p) ∧ (∀ c, c ≠ s.cur.core → t.pkg.core c = s.pkg.core c) ∧
    t.pkg = { s.pkg with cores := t.pkg.cores } ∧ ∀ a, t.pkg.home.hbm.read a 1 = s.pkg.home.hbm.read a 1

/-! ### Runs -/

/-- A step that goes on, to a state with a property. -/
def Goes (o : Host.Outcome State Fault Refusal) (P : State → Prop) : Prop := ∃ t, o = .next t ∧ P t

/-- `t` is reached from `s` in some number of steps. -/
def Reaches (s t : State) : Prop := ∃ k, Host.Core.run Sys2Proof.core k s = .next t

/-- No run from `s` stops. -/
def Safe (s : State) : Prop := ∀ k f, Host.Core.run Sys2Proof.core k s ≠ .fault f

end Sys2Proof.Machine
end

