-- ==== Sys2Proof/Certificates/Slice0/Obligations.lean ====
section
/-!
DEFINITION. Sys2Proof/Certificates/Slice0/Obligations.lean: the statements about the machine, each with the rules of spec/
that it rests on.
-/

open Sys2Proof Sys2Proof.Machine

/-! ### Encoding, fetch and the step -/

/-- R58 to R61: what stands at a stream's offset: nothing past the body's end, ZEROWORD for an all-zero half, a lone half as
it decodes, and a pair from the half and the one that follows. -/
def Obligations.UnitAtOffset : Prop :=
  ∀ (c : Core) (st : Strm),
    (halfAt (c.body st) (c.str st).off = none → c.nextInstr st = .runPastBody) ∧
    ∀ w, halfAt (c.body st) (c.str st).off = some w →
      (w = 0 → c.nextInstr st = .zeroword) ∧
      (w ≠ 0 → w.getLsbD 0 = true → c.nextInstr st = decodeHalf w) ∧
      (w.getLsbD 0 = false → w ≠ 0 → (c.str st).off % 8 = 0 →
        ∀ hi, halfAt (c.body st) ((c.str st).off + 4) = some hi → c.nextInstr st = .pair w hi false) ∧
      (w.getLsbD 0 = false → w ≠ 0 → (c.str st).off % 8 = 4 → c.nextInstr st = .pair 0 w true)

/-- A step without a turn to come runs the unit at the cursor's stream; a turn of a unit runs it at its core and stream; a
turn of an event runs the event there; a turn of time only lets time pass.
That turns are data of the state, and that time passes in turns of its own, are the model's choice (logs 3 and 4). -/
def Obligations.StepRunsDecoded : Prop :=
  ∀ (s : State),
    (s.agenda = [] → step s = exec (s.core.nextInstr s.cur.stream) s) ∧
    (∀ w, s.agenda = [] → halfAt (s.core.body s.cur.stream) s.str.off = some w → w ≠ 0 → w.getLsbD 0 = true →
      step s = exec (decodeHalf w) s) ∧
    (∀ p c st rest, s.agenda = .unit p c st :: rest →
      ∃ u : State, u.cur = ⟨p, c, st⟩ ∧ u.agenda = rest ∧ u.dev = s.dev ∧ u.time = s.time ∧
        step s = exec (u.core.nextInstr st) u) ∧
    (∀ p c i rest, s.agenda = .event p c i :: rest → isEvent i = true →
      ∃ u : State, u.cur = ⟨p, c, .A⟩ ∧ u.agenda = rest ∧ u.dev = s.dev ∧ u.time = s.time ∧ step s = exec i u) ∧
    (∀ n rest, s.agenda = .elapse n :: rest →
      ∃ u : State, u.time = s.time + n ∧ u.agenda = rest ∧ u.dev = s.dev ∧ u.cur = s.cur ∧ step s = .next u)

/-- Words written out from the encoding tables of spec 04 decode to the instructions they stand for. -/
def Obligations.WordsDecode : Prop :=
  decodeHalf 0x04108801#32 = .add 1 1 2 ∧ decodeHalf 0x0610FFFF#32 = .addi 1 1 0x3FFF ∧
    decodeHalf 0x20000121#32 = .bc 9 0 ∧ decodeHalf 0x68000001#32 = .done ∧ decodeHalf 0#32 = .zeroword ∧
    decodeHalf 0x00000002#32 = .reservedMajor 0x00000002#32 ∧ decodeHalf 0x02000001#32 = .nop

/-- Decoding what the encoder writes gives the instruction back, for every well-formed instruction of every family that has
a word, with every operand at every value its field admits. -/
def Obligations.DecodeEncode : Prop :=
  ∀ i : Instr, i.wf = true → i.encoded = true → ∃ w, encodeHalf i = some w ∧ w.getLsbD 0 = true ∧ decodeHalf w = i

/-! ### The schedule -/

/-- No instruction and no event changes the time, the cursor or the turns still to come.
That turns are data of the state is the model's choice (log 3), and so is that no unit and no event changes the time, which passes in
turns of its own (log 4). -/
def Obligations.ExecKeepsSchedule : Prop :=
  ∀ (i : Instr) (s t : State), exec i s = .next t → t.time = s.time ∧ t.cur = s.cur ∧ t.agenda = s.agenda

/-- What a run may not do to the schedule it began with: TIME has not gone back, the turns still to come are the last ones
of those there were, and the time that has passed is what the turns taken let pass. -/
def OnSchedule (start : State) (s : State) : Prop :=
  ∃ taken : List Turn, start.agenda = taken ++ s.agenda ∧
    s.time = start.time + (taken.map fun t => match t with
      | .elapse n => n
      | _ => 0).sum

/-- R134: TIME counts the nanoseconds that pass and nothing else; no unit, event or fault of the device moves it, or takes a
turn out of its order.
The order of turns, and time that passes in turns of its own, are the model's choice (logs 3 and 4). -/
def Obligations.StepKeepsSchedule : Prop :=
  ∀ start s t : State, OnSchedule start s → step s = .next t → OnSchedule start t

/-- The schedule holds where a run begins. At reset no partition is defined, every line is off, every key slot and table slot
is empty, READY is clear, every core is idle in S mode with p0 reading 1, and memory is in its form (R418). What other
registers hold is the model's choice (log 2). -/
def Obligations.ResetState : Prop :=
  (∀ s, OnSchedule s s) ∧
  (∀ p, let x := State.reset.dev.pkg p
    x.ctl.parts = [] ∧ x.ctl.keys = [] ∧ x.ctl.doms = [] ∧ x.bankSlots = [] ∧ x.sched.strands = [] ∧
      (∀ k, lookupD Line.off x.lines k = Line.off) ∧ x.service.ready = false ∧ Memory.wf x.home.hbm ∧
      ∀ c, (x.core c).mode = .idle ∧ (x.core c).sMode = true ∧ (x.core c).pa.getLsbD 0 = true ∧
        (x.core c).px.getLsbD 0 = true ∧ Memory.wf (x.core c).scratch)

/-! ### Operands (Table 4.2) -/

/-- R63, R84: what a scalar source specifier reads: registers 0 to 27, the streams' queues at 28 to 30, and 0 at 31; a pop of
an empty queue waits. -/
def Obligations.SourceOperand : Prop :=
  ∀ (s : State) (r : BitVec 5),
    (r.toNat < 28 → s.does (src r) (s.reg r.toNat) s) ∧
    (r = 31 → s.does (src r) 0 s) ∧
    ∀ q, (s.cur.stream, r.toNat, q) ∈ [(Strm.A, 28, Port.sq0), (.A, 29, .sq1), (.X, 28, .lq0), (.X, 29, .lq1), (.X, 30, .lq2)] →
      ((s.core.queue q).ents = [] → s.stops (src r) .block) ∧
      ∀ e rest, (s.core.queue q).ents = e :: rest →
        (e.filled = false → s.stops (src r) .block) ∧
        (e.filled = true → ∃ t, s.does (src r) (e.data.setWidth 64) t ∧ (t.core.queue q).ents = rest ∧
          (∀ p, p ≠ q → t.core.queue p = s.core.queue p) ∧ t.core.a = s.core.a ∧ t.core.s = s.core.s ∧
          t.core.pa = s.core.pa ∧ t.core.px = s.core.px ∧ t.pkg.home = s.pkg.home)

/-- R63: what a scalar destination specifier writes: registers 0 to 27, a push at 28 to 30, which waits while the queue holds
eight entries, and nothing at 31. -/
def Obligations.DestOperand : Prop :=
  ∀ (s : State) (r : BitVec 5) (v : Word),
    (r.toNat < 28 → s.does (dst r v) () (s.put fun c => c.putReg s.cur.stream r.toNat v)) ∧
    (r = 31 → s.does (dst r v) () s) ∧
    ∀ q, (s.cur.stream, r.toNat, q) ∈ [(Strm.A, 28, Port.lq0), (.A, 29, .lq1), (.A, 30, .lq2), (.X, 28, .sq0), (.X, 29, .sq1)] →
      (8 ≤ (s.core.queue q).ents.length → s.stops (dst r v) .block) ∧
      ((s.core.queue q).ents.length + (s.core.queue q).kept.length < 8 →
        s.does (dst r v) () (s.put fun c => c.setQueue q ((c.queue q).push (scalarEntry v))))

/-! ### Scalar instructions (R93 to R100) -/

/-- R93 to R95: each instruction of two scalar sources reads RA, then RB, and writes its result to RD, and the stream goes on
to the next unit. It holds for every specifier of Table 4.2. -/
def Obligations.ScalarTwoSources : Prop :=
  ∀ op ∈ twoSourceOps, ∀ (d a b : BitVec 5) (s s1 s2 s3 : State) (x y : Word),
    s.ready (op.1 d a b) → s.does (src a) x s1 → s1.does (src b) y s2 → s2.does (dst d (op.2 x y)) () s3 →
    s3.straight .seq → exec (op.1 d a b) s = .next (s3.past .seq)

/-- R93, R95, R96: the instructions of one scalar source, of a source and an immediate, and of an immediate alone. -/
def Obligations.ScalarOneSource : Prop :=
  ∀ (s s1 s2 : State) (x : Word),
    (∀ op ∈ oneSourceOps, ∀ d a : BitVec 5, s.ready (op.1 d a) → s.does (src a) x s1 → s1.does (dst d (op.2 x)) () s2 →
      s2.straight .seq → exec (op.1 d a) s = .next (s2.past .seq)) ∧
    (∀ op ∈ immediateOps, ∀ (d a : BitVec 5) (i : BitVec 14), s.ready (op.1 d a i) → s.does (src a) x s1 →
      s1.does (dst d (op.2 x (i.signExtend 64))) () s2 → s2.straight .seq → exec (op.1 d a i) s = .next (s2.past .seq)) ∧
    (∀ op ∈ shiftOps, ∀ (d a : BitVec 5) (n : BitVec 6), s.ready (op.1 d a n) → s.does (src a) x s1 →
      s1.does (dst d (op.2 x n.toNat)) () s2 → s2.straight .seq → exec (op.1 d a n) s = .next (s2.past .seq)) ∧
    (∀ (d : BitVec 5) (i : BitVec 19), s.ready (.lui d i) → s.does (dst d (((i.setWidth 32) <<< 13).signExtend 64)) () s2 →
      s2.straight .seq → exec (.lui d i) s = .next (s2.past .seq)) ∧
    (∀ (d : BitVec 5) (h : BitVec 2) (i : BitVec 16), s.ready (.insh d h i) → s.does (src d) x s1 →
      s1.does (dst d ((x &&& ~~~((0xFFFF : Word) <<< (16 * h.toNat))) ||| ((i.setWidth 64) <<< (16 * h.toNat)))) () s2 →
      s2.straight .seq → exec (.insh d h i) s = .next (s2.past .seq))

/-- R97 to R100: comparisons write one predicate, PLOG combines two, SEL chooses by its guard, and PMOV moves all eight, of
which p0 reads 1. A write of p0 is discarded. -/
def Obligations.Predicates : Prop :=
  ∀ (s s1 s2 s3 : State) (x y : Word),
    (∀ b, s.does (writePred 0 b) () s) ∧
    (∀ (p : BitVec 3) b, p ≠ 0 → s.does (writePred p b) () (s.put fun k => k.putPred s.cur.stream p b)) ∧
    (∀ (p c : BitVec 3) (a b : BitVec 5), s.ready (.cmp p c a b) → s.does (src a) x s1 → s1.does (src b) y s2 →
      s2.does (writePred p (scalarCc c x y)) () s3 → s3.straight .seq → exec (.cmp p c a b) s = .next (s3.past .seq)) ∧
    (∀ (p c : BitVec 3) (a : BitVec 5) (i : BitVec 13), s.ready (.cmpi p c a i) → s.does (src a) x s1 →
      s1.does (writePred p (scalarCc c x (if c = 3 ∨ c = 5 then i.setWidth 64 else i.signExtend 64))) () s2 →
      s2.straight .seq → exec (.cmpi p c a i) s = .next (s2.past .seq)) ∧
    (∀ (d f a b : BitVec 3) (u v : Bool), s.ready (.plog d f a b) → s.does (readPred a) u s → s.does (readPred b) v s →
      s.does (writePred d (plogValue f u v)) () s1 → s1.straight .seq → exec (.plog d f a b) s = .next (s1.past .seq)) ∧
    (∀ (d a b : BitVec 5) (g : BitVec 4) (u : Bool), s.ready (.sel d a b g) → s.does (src a) x s1 → s1.does (src b) y s2 →
      s2.does (guardHolds g) u s2 → s2.does (dst d (if u then x else y)) () s3 → s3.straight .seq →
      exec (.sel d a b g) s = .next (s3.past .seq)) ∧
    (∀ (r : BitVec 5) (v : BitVec 8), s.ready (.pmovToReg r) → s.does readPreds v s → s.does (dst r (v.setWidth 64)) () s1 →
      s1.straight .seq → v.getLsbD 0 = true ∧ exec (.pmovToReg r) s = .next (s1.past .seq)) ∧
    (∀ r : BitVec 5, s.ready (.pmovFromReg r) → s.does (src r) x s1 → s1.does (writePreds (x.setWidth 8)) () s2 →
      s2.straight .seq → exec (.pmovFromReg r) s = .next (s2.past .seq))

/-! ### Decode checks, faults and handlers -/

/-- R66: the checks of a lone instruction, in order: ILLEGAL for the wrong stream, a reserved specifier or CSR, or a native
instruction in portable code; then PRIV in T mode; then SLOT in a delay-slot unit. EADDR holds the faulting half. -/
def Obligations.DecodeChecks : Prop :=
  ∀ (i : Instr) (w : Half) (s : State), encodeHalf i = some w →
    let bad5 := i.wf = false ∨ legalIn s.cur.stream (majorOf w) = false ∨ specIllegal s.cur.stream i = true ∨
      csrIllegal s.core.sMode i = true ∨ (portable s.core = true ∧ nativeOnly (majorOf w) = true)
    let bad6 := s.core.sMode = false ∧ csrPriv i = true
    let bad7 := s.str.pend.isSome = true ∧ slotForbidden (majorOf w) = true
    (bad5 → s.stops (gate i) (.raise .illegal (w.setWidth 64))) ∧
    (¬ bad5 → bad6 → s.stops (gate i) (.raise .priv (w.setWidth 64))) ∧
    (¬ bad5 → ¬ bad6 → bad7 → s.stops (gate i) (.raise .slot (w.setWidth 64))) ∧
    (¬ bad5 → ¬ bad6 → ¬ bad7 → s.does (gate i) () s)

/-- R66, R84, R174: a lone unit that fails a decode check takes the exception of its cause and no part of it performs; one whose
effect raises a program fault takes that exception from the state before the effect; one that must wait performs nothing. -/
def Obligations.UnitOutcomes : Prop :=
  (∀ (i : Instr) (act : M Flow) (s t : State) (c : Cause) (ea : Word), s.core.mode = .running →
      s.stops (gate i) (.raise c ea) → s.does (exception c ea 0 false) () t →
      lone i act s = .next t ∧ loneCommit i act s = .next t) ∧
  (∀ (i : Instr) (act : M Flow) (s t : State) (c : Cause) (ea : Word), s.ready i →
      s.stops act (.raise c ea) → s.does (exception c ea 0 false) () t → lone i act s = .next t) ∧
  (∀ (i : Instr) (act : M Flow) (s : State), s.ready i → s.stops act .block → lone i act s = .next s)


/-- R174, R308: a program fault, PROT once the rights it was raised over are read again, releases the store buffer and sets
CAUSE, EADDR, EPA, EPX, PMODE and MODE; it writes the trap frame
0x1900 bytes below fp and the handler's frame below that, whose two words name the trap frame; and it enters TVEC's
handler at landing 0, its queues emptied. -/
def Obligations.HandlerEntry : Prop :=
  ∀ (s s0 s1 s2 s3 s5 s6 s7 s8 s9 t : State) (cause : Cause) (ea : Word) (orig : Nat) (m m2 : Bool) (ent : DirEnt) (k : Code)
    (o : Nat × Nat),
    (if cause = .prot then s.does (plbAfterProt s.core.dom.toNat ea) () s0 else s0 = s) →
    s0.does releaseStores () s1 → s1.does fillQueues () s2 → s2.does withdrawWait () s3 →
    let c := s3.core
    let s4 := s3.put fun c => { c with
      cause := BitVec.ofNat 64 (cause.code + orig * 2 ^ 8 + if s.cur.stream = .X then 2 ^ 16 else 0)
      eaddr := ea, epa := resumeWord c.cur c.strA.off, epx := resumeWord c.cur c.strX.off
      pMode := c.sMode, sMode := true
      strA := { c.strA with joint := false }, strX := { c.strX with joint := false } }
    let tf := c.fp - 0x1900#64
    let h := natBits c.tvec.toNat 19 0
    let hf := tf - BitVec.ofNat 64 ent.frame
    s4.does (checkSpan tf 0x1900) m s5 → s5.does (writeSpan m tf 0x1900 (layOut s4.core.frameParts)) () s6 →
    s6.does (dirEntry h) (some ent) s7 → s7.does (checkSpan hf 16) m2 s8 →
    s8.does (writeSpan m2 hf 16 (0x0000000100000000 + tf.toNat * 2 ^ 64)) () s9 →
    let s10 := s9.put fun k => { k.emptied with
      fp := hf, nest := s4.core.nest + 1, lineWait := none
      heldWaits := (s4.core.lineWait.map fun w => (s4.core.nest, w)).toList ++ s4.core.heldWaits }
    resident s10.core s10.pkg.ctl ent.digest = some k → k.landing 0 = some o → s10.does (enterLanding k h 0 o) () t →
    s.does (exception cause ea orig false) () t

/-- R135, R60, R61, R65: TRAP raises BREAK with its code in EADDR and resumes at the next unit; an all-zero half raises
ZEROWORD, a reserved word ILLEGAL with the word in EADDR, and execution past a body ILLEGAL with the body's size. -/
def Obligations.TrapsTaken : Prop :=
  ∀ s t : State, s.core.mode = .running →
    (∀ c : BitVec 16, s.does (gate (.trap c)) () s →
      (s.put fun k => k.setStr s.cur.stream { k.str s.cur.stream with off := (k.str s.cur.stream).off + 4 }).does
        (exception .break_ (c.setWidth 64) 0 false) () t → exec (.trap c) s = .next t) ∧
    (s.does (exception .zeroword 0 0 false) () t → exec .zeroword s = .next t) ∧
    (∀ w : Half, s.does (exception .illegal (w.setWidth 64) 0 false) () t → exec (.reservedMajor w) s = .next t) ∧
    ((s.put fun k => k.setStr s.cur.stream { k.str s.cur.stream with off := 4 * (s.core.body s.cur.stream).length }).does
      (exception .illegal (BitVec.ofNat 64 (4 * (s.core.body s.cur.stream).length)) 0 false) () t →
      exec .runPastBody s = .next t)

/-! ### Control flow (R90 to R92) -/

/-- R73, R91, R92: NOP performs nothing; BC, BQ, JR and DBNZ decide when they issue, and leave a branch of two delay-slot
units; DBNZ writes its counter at once; BOUT pushes a predicate into the other stream's queue. -/
def Obligations.BranchesDecide : Prop :=
  ∀ (s s1 s2 : State) (x : Word) (u : Bool),
    let rel (d : Int) : Word := BitVec.ofInt 64 (s.str.off + 4 * d)
    (s.ready .nop → s.straight .seq → exec .nop s = .next (s.past .seq)) ∧
    (∀ (d : BitVec 20) g, s.ready (.bc d g) → s.does (guardHolds g) u s →
      s.straight (.br (if u then some (rel d.toInt) else none)) →
      exec (.bc d g) s = .next (s.past (.br (if u then some (rel d.toInt) else none)))) ∧
    (∀ d : BitVec 20, s.ready (.bq d) → s.does bqPop u s1 → s1.straight (.br (if u then some (rel d.toInt) else none)) →
      exec (.bq d) s = .next (s1.past (.br (if u then some (rel d.toInt) else none)))) ∧
    (∀ d : BitVec 20, s.ready (.bqN d) → s.does bqPop u s1 → s1.straight (.br (if u then none else some (rel d.toInt))) →
      exec (.bqN d) s = .next (s1.past (.br (if u then none else some (rel d.toInt))))) ∧
    (∀ a, s.ready (.jr a) → s.does (src a) x s1 → s1.straight (.br (some x)) →
      exec (.jr a) s = .next (s1.past (.br (some x)))) ∧
    (∀ r (d : BitVec 19), s.ready (.dbnz r d) → s.does (src r) x s1 → s1.does (dst r (x - 1)) () s2 →
      s2.straight (.br (if x - 1 = 0 then none else some (rel d.toInt))) →
      exec (.dbnz r d) s = .next (s2.past (.br (if x - 1 = 0 then none else some (rel d.toInt))))) ∧
    (∀ p : BitVec 3, s.ready (.bout p) → s.does (readPred p) u s → s.does (bqPush u) () s1 → s1.straight .seq →
      exec (.bout p) s = .next (s1.past .seq))

/-- R90, R91: a branch that issues with none pending counts two units; each unit after it counts one down; the second
carries the transfer out. -/
def Obligations.DelaySlots : Prop :=
  (∀ (t : StreamState) tgt, t.pend = none →
    t.advance 4 (.br tgt) = ({ t with off := t.off + 4, pend := some ⟨2, tgt⟩ }, none)) ∧
  (∀ (t : StreamState) tgt n, t.pend = some ⟨2, tgt⟩ → t.advance n .seq = ({ t with off := t.off + n, pend := some ⟨1, tgt⟩ }, none)) ∧
  (∀ (t : StreamState) tgt n, t.pend = some ⟨1, tgt⟩ → t.advance n .seq = ({ t with off := t.off + n, pend := none }, tgt)) ∧
  ∀ (s : State) (t : Word),
    let u := s.put fun c => c.setStr s.cur.stream { c.str s.cur.stream with off := t.toNat % 2 ^ 32 }
    (unitStart (u.core.body s.cur.stream) t.toNat = true → s.does (transfer t) () u) ∧
    ∀ v, unitStart (u.core.body s.cur.stream) t.toNat = false → u.does (exception .illegal t 0 false) () v →
      s.does (transfer t) () v

/-- R101, R102, R118: FENCE takes the lowest free token slot for what it covers and gives its token; TWAIT gives the status of
a token whose operation has completed and frees its slot, and waits for one whose has not.
Which free slot is taken is the model's choice (log 14). -/
def Obligations.TokensWaited : Prop :=
  ∀ (s s1 s2 : State) (x : Word),
    (∀ d k c cov n tok, s.ready (.fence d k c) → s.does (fenceCovers k) cov s → s.does (takeToken (.fence cov) none) (n, tok) s1 →
      s1.does (dst d tok) () s2 → s2.straight .seq → exec (.fence d k c) s = .next (s2.past .seq)) ∧
    (∀ d a k tk st, s.ready (.twait d a) → s.does (src a) x s1 → heldSlot s1.core x = some k →
      findAt s1.core.tokens k = some tk → s1.does (tokenStatus tk) (some st) s1 → s1.does (dst d (st.setWidth 64)) () s2 →
      (s2.put fun c => c.freeToken k).straight .seq →
      exec (.twait d a) s = .next ((s2.put fun c => c.freeToken k).past .seq)) ∧
    (∀ d a k tk, s.ready (.twait d a) → s.does (src a) x s1 → heldSlot s1.core x = some k →
      findAt s1.core.tokens k = some tk → s1.does (tokenStatus tk) none s1 → exec (.twait d a) s = .next s)


/-! ### Vector instructions (R202 to R229) -/

/-- R204, R206 to R215, R218, R221: each instruction of VA and VB, and each of VA, VB and VD, writes its result to VD and raises
its flags, changes nothing else, and the stream goes on. VFMA2 reads six registers before it writes two. -/
def Obligations.VectorOperations : Prop :=
  (∀ op ∈ vectorTwoOps, ∀ (d a b : BitVec 6) (t : BitVec 3) (s : State), s.ready (op.1 d a b t) →
      let u := s.putV d (op.2 s.venv t (s.vreg a) (s.vreg b))
      u.straight .seq → exec (op.1 d a b t) s = .next (u.past .seq)) ∧
  (∀ (d a b : BitVec 6) (t : BitVec 3) (s : State),
      (∀ op ∈ vectorThreeOps, s.ready (op.1 d a b t) →
        let u := s.putV d (op.2 s.venv t (s.vreg a) (s.vreg b) (s.vreg d))
        u.straight .seq → exec (op.1 d a b t) s = .next (u.past .seq)) ∧
      (s.ready (.vfma2 d a b t) →
        let u := (s.putV d (vFma s.venv t false false (s.vreg a) (s.vreg b) (s.vreg d))).putV (d + 1)
          (vFma s.venv t false false (s.vreg (a + 1)) (s.vreg (b + 1)) (s.vreg (d + 1)))
        u.straight .seq → exec (.vfma2 d a b t) s = .next (u.past .seq))) ∧
  (∀ (d a b : BitVec 6) (t c : BitVec 3) (s : State),
      (s.ready (.vcmp d a b t c) →
        let u := s.putV d (vCmp t c (s.vreg a) (s.vreg b))
        u.straight .seq → exec (.vcmp d a b t c) s = .next (u.past .seq)) ∧
      (s.ready (.vred d a t c) →
        let u := s.putV d (vRed s.venv t c (s.vreg a))
        u.straight .seq → exec (.vred d a t c) s = .next (u.past .seq)))

/-- R206, R207, R212, R213, R219, R220, R222: the instructions of VA alone, and the shifts and slides by an immediate.
What VMATH picks within its bound is free (log 9). -/
def Obligations.VectorOneSource : Prop :=
  ∀ (d a : BitVec 6) (t : BitVec 3) (s : State),
    (∀ op ∈ vectorOneOps, s.ready (op.1 d a t) →
      let u := s.putV d (op.2 s.venv t (s.vreg a))
      u.straight .seq → exec (op.1 d a t) s = .next (u.past .seq)) ∧
    (∀ op ∈ vectorCountOps, ∀ c : BitVec 6, s.ready (op.1 d a c t) →
      let u := s.putV d (op.2 t c.toNat (s.vreg a), 0)
      u.straight .seq → exec (op.1 d a c t) s = .next (u.past .seq))


/-- R193, R223 to R226: the conversions between element types, and of codes, which need an accepted table. The residue
register is written in the error-feedback modes only.
Clamping between integer types is the model's reading (log 33). -/
def Obligations.VectorConversions : Prop :=
  ∀ (d a : BitVec 6) (s : State),
    let res (rnd : CvtRnd) := s.core.e.toList.getD rnd.residue 0
    let cvt (rnd : CvtRnd) (r : VReg × VReg × Flags) : State := s.put fun c =>
      (match rnd with
        | .ef k => { c.putV d r.1 with e := c.e.setIfInBounds k r.2.1 }
        | .mode _ => c.putV d r.1 : Core).flag r.2.2
    (∀ (t f r : BitVec 4) (rnd : CvtRnd), s.ready (.vcvt d a t f r) → (t = 9#4 ∨ f = 9#4 → s.core.tabstat.getLsbD 0 = true) →
      s.does (resolveRnd (cvtEfPair t f) r) rnd s →
      let u := cvt rnd (vCvt s.cur.core (if t = 9#4 ∨ f = 9#4 then s.core.table else Table.empty) t f rnd (s.vreg a) (res rnd))
      u.straight .seq → exec (.vcvt d a t f r) s = .next (u.past .seq)) ∧
    (s.core.tabstat.getLsbD 0 = true → ∀ (b r : BitVec 4) (q : BitVec 3) (rnd : CvtRnd), s.does (resolveRnd true r) rnd s →
      (s.ready (.vencC8 d a r q) →
        let u := cvt rnd (vEnc s.cur.core s.core.table .c8 rnd q.toNat (s.vreg a) (s.vreg d) (res rnd))
        u.straight .seq → exec (.vencC8 d a r q) s = .next (u.past .seq)) ∧
      (s.ready (.vencC4 d a b r q) →
        let u := cvt rnd (vEnc s.cur.core s.core.table (.c4 b.toNat) rnd q.toNat (s.vreg a) (s.vreg d) (res rnd))
        u.straight .seq → exec (.vencC4 d a b r q) s = .next (u.past .seq))) ∧
    (s.core.tabstat.getLsbD 0 = true → ∀ (b : BitVec 4) (q : BitVec 3),
      (s.ready (.vdecC8 d a q) →
        let u := s.putV d (vDec s.core.table .c8 q.toNat (s.vreg a), 0)
        u.straight .seq → exec (.vdecC8 d a q) s = .next (u.past .seq)) ∧
      (s.ready (.vdecC4 d a b q) →
        let u := s.putV d (vDec s.core.table (.c4 b.toNat) q.toNat (s.vreg a), 0)
        u.straight .seq → exec (.vdecC4 d a b q) s = .next (u.past .seq)))

/-- R216, R217, R220, R227, R228: splats, a lane out and a lane in, zero, the lane indices, a residue register cleared; VPOP takes
a whole entry and VPUSH gives one of kind 1; VMASK reads the head entry's mask, that of
the whole of an entry of kind 0, and pops nothing. -/
def Obligations.VectorMoves : Prop :=
  (∀ (d a k : BitVec 6) (t : BitVec 3) (s s1 s2 : State) (x : Word),
      (s.ready (.vsplat d a t) → s.does (src (a.setWidth 5)) x s1 →
        (s1.putV d (vSplat t x.toNat, 0)).straight .seq →
        exec (.vsplat d a t) s = .next ((s1.putV d (vSplat t x.toNat, 0)).past .seq)) ∧
      (∀ i : BitVec 12, s.ready (.vsplatImm d i t) →
        let u := s.putV d (vSplat t (i.signExtend 64).toNat, 0)
        u.straight .seq → exec (.vsplatImm d i t) s = .next (u.past .seq)) ∧
      (s.ready (.vext d a k t) → s.does (dst (d.setWidth 5) (BitVec.ofNat 64 (laneAt (laneWidth t) k.toNat (s.vreg a)))) () s2 →
        s2.straight .seq → exec (.vext d a k t) s = .next (s2.past .seq)) ∧
      (s.ready (.vins d a k t) → s.does (src (a.setWidth 5)) x s1 →
        let u := s1.putV d (setLaneAt (laneWidth t) k.toNat x.toNat (s1.vreg d), 0)
        u.straight .seq → exec (.vins d a k t) s = .next (u.past .seq)) ∧
      (s.ready (.vzero d) → (s.putV d (0, 0)).straight .seq → exec (.vzero d) s = .next ((s.putV d (0, 0)).past .seq)) ∧
      (s.ready (.viota d t) → (s.putV d (vIota t, 0)).straight .seq →
        exec (.viota d t) s = .next ((s.putV d (vIota t, 0)).past .seq)) ∧
      (s.ready (.eclr d) →
        let u := s.put fun c => { c with e := c.e.setIfInBounds d.toNat 0 }
        u.straight .seq → exec (.eclr d) s = .next (u.past .seq))) ∧
  (∀ (d a : BitVec 6) (s s1 : State) (q : QEntry),
      (s.ready (.vpop d a) → s.does (popQ (lqPort a.toNat)) q s1 → (s1.putV d (q.vector, 0)).straight .seq →
        exec (.vpop d a) s = .next ((s1.putV d (q.vector, 0)).past .seq)) ∧
      (s.ready (.vpush d a) →
        s.does (pushQ (sqPort d.toNat)
          { data := s.vreg a, mask := 0xFFFFFFFF#32, kind := true, filled := true, tol := false, serial := 0 }) () s1 →
        s1.straight .seq → exec (.vpush d a) s = .next (s1.past .seq)) ∧
      (∀ rest, (s.core.queue (lqPort a.toNat)).ents = q :: rest → q.filled = true →
        (s.ready (.vmaskV d a) → (s.putV d (maskWords q.lanes, 0)).straight .seq →
          exec (.vmaskV d a) s = .next ((s.putV d (maskWords q.lanes, 0)).past .seq)) ∧
        (s.ready (.vmaskC d a) → s.does (dst (d.setWidth 5) (BitVec.ofNat 64 (maskCount q.lanes))) () s1 → s1.straight .seq →
          exec (.vmaskC d a) s = .next (s1.past .seq))))


/-! ### Matrix instructions (R230 to R250) -/

/-- R236, R237, R242 to R245: TDSET writes an accepted descriptor, LDTAB an accepted table and its status, MZERO clears
accumulators and their positions, MSCA and MCMB scale and add, MRD and MWR move one row. -/
def Obligations.MatrixRegisters : Prop :=
  ∀ (m k : BitVec 2) (v : BitVec 6) (r t : BitVec 4) (a : BitVec 5) (s s1 : State) (x : Word),
    (s.ready (.tdset t a) → s.does (src a) x s1 → tileWordOk x = true →
      let u := s1.put fun c => { c with t := c.t.setIfInBounds t.toNat x }
      u.straight .seq → exec (.tdset t a) s = .next (u.past .seq)) ∧
    (s.ready (.ldtab a) → s.does (src a) x s1 → x.extractLsb' 0 6 = 0#6 → x.toNat ≤ 0x3FC00 →
      s1.does (checkSpanLocks (BitVec.ofNat 64 scratchBase + x) 1024) () s1 →
      let raw := s1.core.scratch.read x.toNat 1024
      let tb : Table := Vector.ofFn fun i => BitVec.ofNat 32 (raw / 2 ^ (32 * i.val))
      tb.valid = true →
      let u := s1.put fun c => { c with table := tb, tabstat := tb.stat }
      u.straight .seq → exec (.ldtab a) s = .next (u.past .seq)) ∧
    (∀ (byCol : Bool) (i : Instr), i = (if byCol then .mscaCol m v else .mscaRow m v) → s.ready i →
      let g := mscaAccum s.cur.core (s.kAt m).toNat byCol (s.acc m) (s.vreg v)
      let u := s.put fun c => ({ c with m := c.m.setIfInBounds m.toNat g.1 } : Core).flag g.2
      u.straight .seq → exec i s = .next (u.past .seq)) ∧
    (s.ready (.mcmb m k) →
      let g := mcmbAccum s.cur.core (s.kAt m).toNat (s.acc m) (s.acc k)
      let u := s.put fun c => ({ c with m := c.m.setIfInBounds m.toNat g.1 } : Core).flag g.2
      u.straight .seq → exec (.mcmb m k) s = .next (u.past .seq)) ∧
    (s.ready (.mrd v m r) →
      let u := s.put fun c => c.putV v ((s.acc m).toList.getD r.toNat 0)
      u.straight .seq → exec (.mrd v m r) s = .next (u.past .seq)) ∧
    (s.ready (.mwr v m r) →
      let u := s.put fun c => { c with m := c.m.setIfInBounds m.toNat ((s.acc m).setIfInBounds r.toNat (s.vreg v)) }
      u.straight .seq → exec (.mwr v m r) s = .next (u.past .seq)) ∧
    (s.ready (.mzero t) → s.straight .seq → Goes (exec (.mzero t) s) fun w =>
      w.core = ({ s.core with
        m := Vector.ofFn fun i => if t.getLsbD i.val then Accum.zero else s.core.m[i]
        kpos := Vector.ofFn fun i => if t.getLsbD i.val then 0 else s.core.kpos[i] } : Core).setStr s.cur.stream
          (s.str.advance 4 .seq).1 ∧ w.pkg.home = s.pkg.home)

/-- R234, R238 to R240, R246, R247: with its tiles accepted, MMA adds one K-step of 16 to the accumulator, MMAW two, the Z
forms begin anew; MLD widens a tile into an accumulator and MST narrows one into the scratchpad. -/
def Obligations.MatrixSteps : Prop :=
  ∀ (m : BitVec 2) (a b : BitVec 4) (s : State),
    let ok (n : BitVec 4) := 0 < (s.tile n).fmt ∧ (s.tile n).fmt ≤ 4
    (∀ (z : Bool) (i : Instr), i = (if z then .mmaz m a b else .mma m a b) → s.ready i → ok a → ok b →
      s.does (checkTiles [⟨s.tile a, 16, 16⟩, ⟨s.tile b, 16, 32⟩]) () s →
      let u := s.kStepped m z (s.values a 16 16) (s.values b 16 32)
      u.straight .seq → exec i s = .next (u.past .seq)) ∧
    (∀ (z : Bool) (i : Instr), i = (if z then .mmawz m a b else .mmaw m a b) → s.ready i → ok a → ok b →
      s.does (checkTiles [⟨s.tile a, 16, 32⟩, ⟨s.tile b, 32, 32⟩]) () s →
      let av := s.values a 16 32
      let bv := s.values b 32 32
      let u := (s.kStepped m z (av.map (·.take 16)) (bv.take 16)).kStepped m false (av.map (·.drop 16)) (bv.drop 16)
      u.straight .seq → exec i s = .next (u.past .seq)) ∧
    (s.ready (.mld m a) → s.does (checkTiles [⟨s.tile a, 16, 32⟩]) () s →
      let u := s.put fun c => { c with
        m := c.m.setIfInBounds m.toNat (mldAccum (s.tile a) s.core.table fun x => s.core.scratch.read x 1) }
      u.straight .seq → exec (.mld m a) s = .next (u.past .seq)) ∧
    (∀ (f : BitVec 3) (c : BitVec 4) (r : BitVec 2), s.ready (.mst m a f c r) →
      let d : TileDesc := { s.tile a with fmt := f.toNat, cb := c.toNat }
      let tile : Tile := ⟨d, 16, 32⟩
      s.does (checkTiles [tile]) () s →
      let es := (tilePositions 16 32).map fun p => (p, mstElem s.core.table d.fmt d.cb (mstRnd r) ((s.acc m).at p.1 p.2))
      let u := s.put fun k =>
        (({ k with scratch := es.foldl (fun mem e => putElem d mem e.1.1 e.1.2 e.2.1) k.scratch } : Core).marked tile.bytes).flag
          (es.foldl (fun fl e => fl ||| e.2.2) 0)
      u.straight .seq → exec (.mst m a f c r) s = .next (u.past .seq))

/-! ### Memory instructions (R104 to R117) -/

/-- R106, R107: the checks of a load or store of `n` bytes, in order: ALIGN, APERTURE, the rights, RANGELOCK; the first that
fails is the fault, with the address in EADDR. Atomics may use no window. -/
def Obligations.AccessChecks : Prop :=
  ∀ (s : State) (need : Need) (ea : Word) (n : Nat),
    (ea.toNat % n ≠ 0 → s.stops (checkAccess need ea n) (.raise .align ea) ∧ s.stops (checkAtomic need ea n) (.raise .align ea)) ∧
    (ea.toNat % n = 0 →
      ((∀ j, space ea.toNat ≠ .scratch j) → (∀ i k o, space ea.toNat ≠ .arc i k o) → space ea.toNat ≠ .mem →
        s.stops (checkAccess need ea n) (.raise .aperture ea)) ∧
      (space ea.toNat ≠ .mem → s.stops (checkAtomic need ea n) (.raise .aperture ea)) ∧
      (∀ e, space ea.toNat = .mem → s.stops (checkRights ea need ea.toNat n) e →
        s.stops (checkAccess need ea n) e ∧ s.stops (checkAtomic need ea n) e) ∧
      (∀ m t, space ea.toNat = .mem → s.does (checkRights ea need ea.toNat n) m t →
        (t.core.locked ea.toNat n = true →
          s.stops (checkAccess need ea n) (.raise .rangelock ea) ∧ s.stops (checkAtomic need ea n) (.raise .rangelock ea)) ∧
        (t.core.locked ea.toNat n = false → s.does (checkAccess need ea n) m t ∧ s.does (checkAtomic need ea n) m t)) ∧
      (∀ j, space ea.toNat = .scratch j →
        (s.core.locked ea.toNat n = true → s.stops (checkAccess need ea n) (.raise .rangelock ea)) ∧
        (s.core.locked ea.toNat n = false → s.does (checkAccess need ea n) true s)))

/-- R107 to R109: an access to the own scratchpad performs at the core: a load gives the bytes it holds and changes nothing, a
store puts its bytes there at once, one that releases at a scope of other agents once every write before it has performed, and a
poisoned part raises POISON. Elsewhere a load returns, byte by byte, the youngest of the stream's own held stores that covers the
byte, and otherwise what the memory side holds; it waits for a posted reduction of the stream that covers one of its bytes. R169: a
fault that system software has refused is raised at the strand's own unit once it runs, and is owed no more.
Which of the writes R43 allows a load returns is the model's choice (log 5); that a release to the own scratchpad orders so is its
reading (log 102), and so is the unit at which a refused fault is raised (log 45). -/
def Obligations.AccessEffects : Prop :=
  (∀ (s : State) (ea : Word) (j n v : Nat) (rel : Option Nat), space ea.toNat = .scratch j → ea.toNat % n = 0 →
      s.core.locked ea.toNat n = false →
      (poisonedParts s.core.scratchPois j n = false → s.does (load ea n) (s.core.scratch.read j n) s) ∧
      (poisonedParts s.core.scratchPois j n = true → s.stops (load ea n) (.raise .poison ea)) ∧
      (rel.any (4 ≤ ·) = false → s.does (store rel ea n v) () (s.put fun k => k.scratchWrite j n v)) ∧
      ∀ s1 s2, rel.any (4 ≤ ·) = true → s.does implicitCommit () s1 → s1.does settled () s2 →
        s.does (store rel ea n v) () (s2.put fun k => k.scratchWrite j n v)) ∧
  (∀ (s s1 s2 : State) (ea : Word) (n v : Nat) (m : Bool), space ea.toNat = .mem → s.does (checkAccess needR ea n) m s1 →
      ((∃ p ∈ ownPosted s1.dev s.cur.pkg s.cur.core,
          overlaps ea.toNat (ea.toNat + n) p.at_.va (p.at_.va + if p.at_.wide then 8 else 4) = true) →
        s.stops (load ea n) .block) ∧
      ((∀ p ∈ ownPosted s1.dev s.cur.pkg s.cur.core,
          overlaps ea.toNat (ea.toNat + n) p.at_.va (p.at_.va + if p.at_.wide then 8 else 4) = false) →
        s1.does (withM s1.core.dom.toNat m ea.toNat fun m => readUnder ea m n) v s2 →
          s.does (load ea n) (s2.core.overlay ea.toNat n v) s2)) ∧
  (∀ (s s1 t : State) (x : Strand) (o : Owed), s.core.mode = .running → x.owed = [o] →
      s.does (findStrand s.core.strand.toNat) (some x) s →
      s.does (modStrand s.core.strand.toNat fun y => { y with owed := y.owed.erase o }) () s1 →
      s1.does (atCore s.cur.pkg s.cur.core o.stream (exception o.cause o.ea 0 false)) () t → s.does raiseOwed () t) ∧
  ((∀ (c : Core) (va n v : Nat), c.overlay va n v = (c.inflight ++ c.sbuf).foldl (fun r s => s.overlay va n r) v) ∧
    ∀ (s : Store) (va n v i : Nat), i < n →
      s.overlay va n v / 2 ^ (8 * i) % 256 =
        if s.va ≤ va + i ∧ va + i < s.va + s.n then s.val / 2 ^ (8 * (va + i - s.va)) % 256 else v / 2 ^ (8 * i) % 256)

/-- What a store to the scratchpad leaves: its own bytes hold its value, every other byte reads as before, and the core's
registers, queues, flags, predicates and held stores are as they were. -/
def Obligations.ScratchStoreFrame : Prop :=
  ∀ (k : Core) (j n v : Nat),
    let t := k.scratchWrite j n v
    t.scratch.read j n = v % 2 ^ (8 * n) ∧
    (∀ a len, a + len ≤ j ∨ j + n ≤ a → t.scratch.read a len = k.scratch.read a len) ∧
    (Memory.wf k.scratch → Memory.wf t.scratch) ∧
    (∀ p, p ∈ t.scratchPois → p ∈ k.scratchPois) ∧
    t.a = k.a ∧ t.s = k.s ∧ t.pa = k.pa ∧ t.px = k.px ∧ t.v = k.v ∧ t.m = k.m ∧ t.kpos = k.kpos ∧ t.e = k.e ∧ t.t = k.t ∧
    t.fflags = k.fflags ∧ t.cause = k.cause ∧ t.eaddr = k.eaddr ∧ t.sMode = k.sMode ∧ t.sbuf = k.sbuf ∧
    t.lq0 = k.lq0 ∧ t.sq0 = k.sq0 ∧ t.strA = k.strA ∧ t.strX = k.strX


/-- R106, R108, R110 to R113: the loads. LD and LDA extend what the access gives; LDV and the gathers push entries; a lane of
GATH.T that its checks or its access turn away is invalid, and its walks go on once every lane has been judged; a load whose queue is full waits before it accesses anything. -/
def Obligations.LoadsComplete : Prop :=
  ∀ (d a b : BitVec 5) (sz : BitVec 2) (n x : BitVec 1) (s s1 s2 s3 s4 s5 s6 : State) (base : Word),
    s.does (src a) base s1 →
    (∀ (i : BitVec 11) v, let ea := base + i.signExtend 64
      s.ready (.ld d a sz n i) → s.core.lineWait = none → s1.does (roomFor d) () s1 →
      lineKey s.cur.core (space ea.toNat) = none →
      (s1.put fun c => { c with lineWait := none }).does (load ea (2 ^ sz.toNat)) v s2 → s2.does (loadDst d (extend (2 ^ sz.toNat) (n == 1) v)) () s3 →
      s3.straight .seq → exec (.ld d a sz n i) s = .next (s3.past .seq)) ∧
    (∀ (c : BitVec 3) (i : BitVec 8) v, let ea := base + i.signExtend 64
      s.ready (.lda d a sz n c i) → s1.does (roomFor d) () s1 → s1.does (load ea (2 ^ sz.toNat)) v s2 →
      s2.does (loadDst d (extend (2 ^ sz.toNat) (n == 1) v)) () s3 → s3.straight .seq →
      exec (.lda d a sz n c i) s = .next (s3.past .seq)) ∧
    (∀ (i : BitVec 14) v p, let ea := base + (i.signExtend 64 <<< 7)
      s.ready (.ldv d a i) → s1.does (roomFor d) () s1 → s1.does (load ea 128) v s2 → pushPort s.cur.stream d.toNat = some p →
      s2.does (reserve p (BitVec.ofNat 1024 v) 0xFFFFFFFF#32 true false) () s3 → s3.straight .seq →
      exec (.ldv d a i) s = .next (s3.past .seq)) ∧
    (∀ offs ms v p, let eas := laneAddrs base offs (2 ^ sz.toNat) (x == 1)
      s.ready (.gath d a b sz n x) → s1.does (popVec b) offs s2 → s2.does (roomFor d) () s2 →
      s2.does (checkLanes needR (2 ^ sz.toNat) eas) ms s3 → s3.does (gatherLanes (2 ^ sz.toNat) (n == 1) eas ms) v s4 →
      pushPort s.cur.stream d.toNat = some p → s4.does (reserve p v 0xFFFFFFFF#32 true false) () s5 → s5.straight .seq →
      exec (.gath d a b sz n x) s = .next (s5.past .seq)) ∧
    (∀ offs ms vs p, let eas := laneAddrs base offs (2 ^ sz.toNat) (x == 1)
      s.ready (.gathT d a b sz n x) → s1.does (popVec b) offs s2 → s2.does (roomFor d) () s2 →
      s2.does (checkLanesPlace (2 ^ sz.toNat) eas) () s2 → s2.does (eas.mapM fun ea => laneRights (2 ^ sz.toNat) ea) ms s3 →
      s3.does (checkLanesLocks (2 ^ sz.toNat) eas) () s3 →
      s3.does ((eas.zip ms).mapM fun p => match p.2 with
        | some m => tolerantLane (2 ^ sz.toNat) (n == 1) p.1 m
        | none => pure none) vs s4 → s4.does (walkLanes eas ms vs) () s5 → pushPort s.cur.stream d.toNat = some p →
      s5.does (reserve p (ofLanes 32 (vs.map (·.getD 0))) (BitVec.ofNat 32 (laneMask vs)) true true) () s6 → s6.straight .seq →
      exec (.gathT d a b sz n x) s = .next (s6.past .seq)) ∧
    (s1.stops (roomFor d) .block → s.core.lineWait = none →
      (∀ i : BitVec 11, s.ready (.ld d a sz n i) → exec (.ld d a sz n i) s = .next s) ∧
      (∀ (c : BitVec 3) (i : BitVec 8), s.ready (.lda d a sz n c i) → exec (.lda d a sz n c i) s = .next s) ∧
      (∀ i : BitVec 14, s.ready (.ldv d a i) → exec (.ldv d a i) s = .next s)) ∧
    (∀ offs, s1.does (popVec b) offs s2 → s2.stops (roomFor d) .block →
      (s.ready (.gath d a b sz n x) → exec (.gath d a b sz n x) s = .next s) ∧
      (s.ready (.gathT d a b sz n x) → exec (.gathT d a b sz n x) s = .next s))

/-- R84, R109 to R111, R114: the stores. The data is read and its queue popped whether or not the guard holds; the access is
made only where it holds. -/
def Obligations.StoresComplete : Prop :=
  ∀ (v a b : BitVec 5) (g : BitVec 4) (s s1 s2 s3 s4 : State) (data base : Word) (u : Bool),
    (∀ (i : BitVec 10) (n : Nat) (op : BitVec 5 → BitVec 5 → BitVec 10 → BitVec 4 → Instr),
      (n, op) ∈ [(1, Instr.stb), (2, .sth), (4, .stw), (8, .std)] → let ea := base + i.signExtend 64
      s.ready (op v a i g) → s.does (src v) data s1 → s1.does (src a) base s2 → s2.does (guardHolds g) u s2 →
      (u = true → n = 8 → lineKey s.cur.core (space ea.toNat) = none) →
      (if u then s2.does (store none ea n data.toNat) () s3 else s3 = s2) → s3.straight .seq →
      exec (op v a i g) s = .next (s3.past .seq)) ∧
    (∀ (sz : BitVec 2) (c : BitVec 3), s.ready (.strel v a sz c g) → s.does (src v) data s1 → s1.does (src a) base s2 →
      s2.does (guardHolds g) u s2 →
      (if u then s2.does (store (some c.toNat) base (2 ^ sz.toNat) data.toNat) () s3 else s3 = s2) → s3.straight .seq →
      exec (.strel v a sz c g) s = .next (s3.past .seq)) ∧
    (∀ (i : BitVec 10) p q, s.ready (.stv v a i g) → popPort s.cur.stream v.toNat = some p → s.does (popQ p) q s1 →
      s1.does (src a) base s2 → s2.does (guardHolds g) u s2 →
      (if u then s2.does (store none (base + (i.signExtend 64 <<< 7)) 128 q.data.toNat) () s3 else s3 = s2) →
      s3.straight .seq → exec (.stv v a i g) s = .next (s3.past .seq)) ∧
    (∀ (sz : BitVec 2) (x : BitVec 1) vec offs ms (s5 : State), s.ready (.scat v a b sz x g) → s.does (popVec v) vec s1 →
      s1.does (src a) base s2 → s2.does (popVec b) offs s3 → s3.does (guardHolds g) u s3 →
      let n := 2 ^ sz.toNat
      let eas := laneAddrs base offs n (x == 1)
      (if u then s3.does (checkLanes needW n eas) ms s4 ∧
        s4.does (((eas.zip ms).zip (words32 vec)).forM fun p => storeChecked p.1.2 none p.1.1 n p.2) () s5 else s5 = s3) →
      s5.straight .seq → exec (.scat v a b sz x g) s = .next (s5.past .seq))

/-- R115 to R117: the atomics, each a commit point. AMO and CAS perform at their home slice and give the old value; AMON is
posted, at most 32 at a time. An atomic whose guard fails performs nothing.
That AMO's RD names a source too is the model's reading (log 107). -/
def Obligations.AtomicsComplete : Prop :=
  ∀ (d a : BitVec 5) (o g : BitVec 4) (z : BitVec 1) (r : BitVec 2) (c : BitVec 3) (s s0 s1 s2 s3 s4 s5 s6 s7 : State)
    (ea x y : Word) (m : Bool) (p old : Nat) (l : LineRef), s.does commitPoint () s0 →
    (s.ready (.amo d a o z r c g) → s0.does (src d) x s1 → s1.does (src a) ea s2 →
      (s2.does (guardHolds g) false s2 → s2.straight .seq → exec (.amo d a o z r c g) s = .next ((s2.past .seq).begun s0)) ∧
      (s2.does (guardHolds g) true s2 →
        let op : AtomicOp := { va := ea.toNat, op := o.toNat, wide := z == 1, opnd := x.toNat }
        s2.does (checkAtomic needRWA ea op.bytes) m s3 → s3.does (atomicAt ea m (orderRelease r)) (p, l) s4 →
        s4.does (runHomeAt p ea ea (performAtomic false l s.cur.core s4.core.dom.toNat op)) old s5 →
        s5.does (dst d (BitVec.ofNat 64 old)) () s6 → s6.straight .seq →
        exec (.amo d a o z r c g) s = .next ((s6.past .seq).begun s0))) ∧
    (s.ready (.cas d a z r c g) → s0.does (src a) ea s1 →
      (s1.does (guardHolds g) false s1 → s1.straight .seq → exec (.cas d a z r c g) s = .next ((s1.past .seq).begun s0)) ∧
      (s1.does (guardHolds g) true s1 → s1.does (readReg d.toNat) x s1 → s1.does (readReg (d.toNat + 1)) y s1 →
        let n := if z == 1 then 8 else 4
        s1.does (checkAtomic needRWA ea n) m s3 → s3.does (atomicAt ea m (orderRelease r)) (p, l) s4 →
        s4.does (runHomeAt p ea ea (performCas l s4.core.dom.toNat ea.toNat n x.toNat y.toNat)) old s5 →
        s5.does (writeReg d.toNat (BitVec.ofNat 64 old)) () s6 → s6.straight .seq →
        exec (.cas d a z r c g) s = .next ((s6.past .seq).begun s0))) ∧
    (s.ready (.amon d a o z g) → s0.does (src d) x s1 → s1.does (src a) ea s2 →
      (s2.does (guardHolds g) false s2 → s2.straight .seq → exec (.amon d a o z g) s = .next ((s2.past .seq).begun s0)) ∧
      (s2.does (guardHolds g) true s2 →
        let op : AtomicOp := { va := ea.toNat, op := o.toNat, wide := z == 1, opnd := x.toNat }
        s2.does (checkAtomic needWA ea op.bytes) m s3 →
          (32 ≤ s3.core.amons.length → exec (.amon d a o z g) s = .next s) ∧
          ∀ k part launch, s3.core.amons.length < 32 → s3.does nextSerial k s4 → s4.does theLaunch launch s5 →
            s5.does thePart part s6 →
            let post : Posted := ⟨k, s.cur.pkg, s.cur.core, s6.core.dom.toNat, part, launch.2, launch.1, m, none, op⟩
            s7 = s6.put (fun c => { c with amons := c.amons ++ [(k, post)] }) →
            s7.straight .seq → exec (.amon d a o z g) s = .next ((s7.past .seq).begun s0)))

/-- R124 to R126: BBSET sets the buffer up and reads no memory; BBGET takes bits and consumes them, BBPEEK leaves them, BBSKIP
consumes them and gives none. -/
def Obligations.BitBuffer : Prop :=
  ∀ (d a b : BitVec 5) (w : BitVec 7) (s s1 s2 s3 : State) (x y : Word) (kept taken : BitBuf),
    (∀ o m : BitVec 1, s.ready (.bbset a b o m) → s.does (src a) x s1 → s1.does (src b) y s2 →
      let u := s2.put fun c => { c with bb := { buf := 0, fc := 0, rp := x, ep := y, o := o == 1, m := m == 1 } }
      u.straight .seq → exec (.bbset a b o m) s = .next (u.past .seq)) ∧
    (s.does (takeBits w.toNat) (x, kept, taken) s1 →
      (s.ready (.bbget d w) → (s1.put fun c => { c with bb := taken }).does (dst d x) () s3 → s3.straight .seq →
        exec (.bbget d w) s = .next (s3.past .seq)) ∧
      (s.ready (.bbpeek d w) → (s1.put fun c => { c with bb := kept }).does (dst d x) () s3 → s3.straight .seq →
        exec (.bbpeek d w) s = .next (s3.past .seq)) ∧
      (s.ready (.bbskip w) → (s1.put fun c => { c with bb := taken }).straight .seq →
        exec (.bbskip w) s = .next ((s1.put fun c => { c with bb := taken }).past .seq)))

/-! ### Event, barrier and mutex lines (R119 to R123) -/

/-- R119 to R123, R267: EVCFG configures a line within its limits, with generation 0, and ends every wait on it. LD.D arrives
at a barrier line, takes a free mutex or a pending signal, and otherwise issues and waits; it goes on once its wait has
ended. STD frees a mutex that its core holds, to the next waiter, once every write before it has performed, and signals
an event once every write before it has; it is discarded at another core's mutex, and faults at a barrier line or at
one that is off. -/
def Obligations.Lines : Prop :=
  ∀ (s s1 s2 s3 : State) (ea v : Word) (k : Nat),
    let l := lookupD Line.off s.pkg.lines k
    let me := s.cur.core
    let setTo (u : State) (x : Line) : State := u.putPkg fun p => { p with lines := insertD Line.off p.lines k x }
    let waits (u : State) (w : Option LineWait) : State := u.put fun c => { c with lineWait := w }
    (∀ (a b : BitVec 5) (w : Word) q, s.ready (.sysEvcfg a b) → s.does (src a) ea s1 → s1.does (src b) w s2 →
      ((space ea.toNat = .quadLine q ∧ k = 32 * quadOf me + q ∧ lineWordOk true 4 w.toNat = true) ∨
        (space ea.toNat = .dieLine q ∧ k = 0x10000 + 64 * dieOf me + q ∧ lineWordOk false 1024 w.toNat = true) ∨
        (space ea.toNat = .pkgLine q ∧ k = 0x20000 + q ∧ lineWordOk false 8192 w.toNat = true)) →
      s2.does (configureLine k w.toNat) () s3 →
        ((s2.pkg.lines.map (·.1)).Pairwise (· < ·) → lookupD Line.off s3.pkg.lines k = Line.configured w.toNat) ∧
        (∀ c, s3.pkg.core c = (s2.pkg.core c).lineCleared k) ∧
        (s3.straight .seq → exec (.sysEvcfg a b) s = .next (s3.past .seq))) ∧
    (s.core.lineWait = none →
      (l.kind = .off → s.stops (lineLoad ea k) (.raise .aperture ea)) ∧
      (l.kind = .event → l.pending = 0 →
        s.does (lineLoad ea k) none (waits (setTo s { l with waiters := l.waiters ++ [me] }) (some (.queued k)))) ∧
      (s.does implicitCommit () s1 →
        (l.kind = .barrier → s.does (lineLoad ea k) none (waits s1 (some (.arriving k (ownWrites s.dev s.cur.pkg me))))) ∧
        (l.kind = .mutex → l.holder = none → s.does (lineLoad ea k) (some 1) (setTo s1 { l with holder := some me })) ∧
        (l.kind = .mutex → l.holder ≠ none → s.does (lineLoad ea k) none
          (waits (setTo s1 { l with waiters := l.waiters ++ [me] }) (some (.queued k)))) ∧
        (l.kind = .event → l.pending ≠ 0 → s.does (lineLoad ea k) (some (BitVec.ofNat 64 (l.pending - 1)))
          (setTo s1 { l with pending := l.pending - 1 })))) ∧
    ((s.does implicitCommit () s1 → s.does (lineResume (.fired k v)) v (waits s1 none)) ∧ s.does (lineResume (.granted k)) 1 (waits s none) ∧
      (l.kind = .mutex ∨ l.pending = 0 → s.stops (lineResume (.queued k)) .block) ∧
      (l.kind = .event → l.pending ≠ 0 → s.does implicitCommit () s1 → s.does (lineResume (.queued k))
        (BitVec.ofNat 64 (l.pending - 1))
        (setTo (waits s1 none) { l with pending := l.pending - 1, waiters := l.waiters.filter (· != me) }))) ∧
    (l.kind = .off ∨ l.kind = .barrier → s.stops (lineStore ea k) (.raise .aperture ea)) ∧
    (s.does implicitCommit () s1 →
      (l.kind = .mutex → l.holder ≠ some me → s.does (lineStore ea k) () s1) ∧
      (l.kind = .mutex → l.holder = some me → s1.stops settled .block → s.stops (lineStore ea k) .block) ∧
      (l.kind = .mutex → l.holder = some me → s1.does settled () s2 → s2.does (passMutex k) () s3 →
        s.does (lineStore ea k) () s3) ∧
      (l.kind = .event → s1.does settled () s2 → let u := setTo s2 { l with pending := Nat.min (l.pending + 1) 255 }
        (l.chain = none → s.does (lineStore ea k) () u) ∧
        ∀ q n, l.chain = some (q, n) →
          s.does (lineStore ea k) () (u.putPkg fun x => { x with chainSignals := x.chainSignals ++ [32 * q + n] }))) ∧
    (l.waiters = [] → s.does (passMutex k) () (setTo s { l with holder := none })) ∧
    (∀ w ws, l.waiters = w :: ws → s.does (passMutex k) () ((setTo s { l with holder := some w, waiters := ws }).putPkg
      fun x => x.setCore w { x.core w with lineWait := some (.granted k) })) ∧
    (∀ (d a : BitVec 5) (n : BitVec 1) (i : BitVec 11) base, s.ready (.ld d a 3 n i) →
      (s.core.lineWait = none → s.does (src a) base s1 → ea = base + i.signExtend 64 → s1.does (roomFor d) () s1 →
        lineKey me (space ea.toNat) = some k →
        (s1.does (lineLoad ea k) (some v) s2 → s2.does (loadDst d v) () s3 → s3.straight .seq →
          exec (.ld d a 3 n i) s = .next (s3.past .seq)) ∧
        (s1.does (lineLoad ea k) none s2 → exec (.ld d a 3 n i) s = .next (s2.put fun c => c.issued s.core false))) ∧
      (∀ w, s.core.lineWait = some w → w ≠ .marked →
        (s.does (lineResume w) v s1 → s1.does (loadDst d v) () s2 → s2.straight .seq →
          exec (.ld d a 3 n i) s = .next (s2.past .seq)) ∧
        (s.stops (lineResume w) .block → exec (.ld d a 3 n i) s = .next s))) ∧
    (∀ (r a : BitVec 5) (i : BitVec 10) (g : BitVec 4) data base, s.ready (.std r a i g) → s.does (src r) data s1 →
      s1.does (src a) base s2 → s2.does (guardHolds g) true s2 → ea = base + i.signExtend 64 →
      lineKey me (space ea.toNat) = some k → s2.does (lineStore ea k) () s3 → s3.straight .seq →
      exec (.std r a i g) s = .next (s3.past .seq))

/-- R86, R113, R120 to R122: the data of a load returns to its entry, and a tolerant gather's entry is pushed without the lanes
that are late. An arrival at a barrier line counts once the writes before it have performed, and the last one fires the
line: its generation goes up and every arrival learns it, at its core or with its saved strand. A chained signal adds to
its line's count; a line that is no event line discards it.
That a chained signal is sent on again is the model's reading (log 55). -/
def Obligations.LineEvents : Prop :=
  ∀ (s : State) (k : Nat) (covers : List Nat),
    let l := lookupD Line.off s.pkg.lines k
    let me := s.cur.core
    let setTo (u : State) (x : Line) : State := u.putPkg fun p => { p with lines := insertD Line.off p.lines k x }
    (s.core.lineWait = some (.arriving k covers) →
      ((ownWrites s.dev s.cur.pkg me).any covers.contains = true ∨ l.kind ≠ .barrier → exec .barrierLineArrival s = .next s) ∧
      ((ownWrites s.dev s.cur.pkg me).any covers.contains = false → l.kind = .barrier →
        let s1 := s.put fun c => { c with lineWait := some (.counted k) }
        let l1 : Line := { l with arrived := l.arrived ++ [.core me] }
        (l1.arrived.length < l.count → exec .barrierLineArrival s = .next (setTo s1 l1)) ∧
        (l.count ≤ l1.arrived.length → ∃ t, exec .barrierLineArrival s = .next t ∧
          lookupD Line.off t.pkg.lines k = { l with gen := l.gen + 1, arrived := [] } ∧
          t.pkg.savedGens = s.pkg.savedGens ++ (l.arrived.filterMap fun a => match a with
            | .strand va => some (va, k, l.gen + 1)
            | .core _ => none) ∧
          ∀ c, t.pkg.core c =
            if l1.arrived.contains (.core c) then (s1.pkg.core c).lineFired k (l.gen + 1) else s1.pkg.core c))) ∧
    (s.core.lineWait = none → exec .barrierLineArrival s = .next s) ∧
    (s.pkg.chainSignals.contains k = false → exec (.eventChainSignal k) s = .next s) ∧
    (s.pkg.chainSignals.contains k = true →
      let s1 := s.putPkg fun x => { x with chainSignals := x.chainSignals.erase k }
      (l.kind ≠ .event → exec (.eventChainSignal k) s = .next s1) ∧
      (l.kind = .event → let u := setTo s1 { l with pending := Nat.min (l.pending + 1) 255 }
        (l.chain = none → exec (.eventChainSignal k) s = .next u) ∧
        ∀ q n, l.chain = some (q, n) → exec (.eventChainSignal k) s =
          .next (u.putPkg fun x => { x with chainSignals := x.chainSignals ++ [32 * q + n] }))) ∧
    ∀ n late : Nat,
      let filled (f : QEntry → QEntry) : State := s.put fun c =>
        { c with lq0 := c.lq0.fillOne n f, lq1 := c.lq1.fillOne n f, lq2 := c.lq2.fillOne n f }
      (s.core.waiting n = none → exec (.loadDataReturn n) s = .next s ∧ exec (.gathTPush n late) s = .next s) ∧
      ∀ e : QEntry, s.core.waiting n = some e →
        (e.tol = false → exec (.loadDataReturn n) s = .next (filled id) ∧ exec (.gathTPush n late) s = .next s) ∧
        (e.tol = true → exec (.gathTPush n late) s = .next (filled (·.without late)) ∧ exec (.loadDataReturn n) s = .next s)

/-! ### Messages, CSRs and SYS (R127 to R136) -/

/-- R86, R127, R128, R181: SEND issues, with room for its status, and waits with its message for a core of its partition; it
completes with the answer; a core outside the partition is answered 2 at once. MESSAGE_ARRIVAL waits for the writes of the
sender, and then brings the message to its target's queue, parked there for a strand that is saved, which it wakes
where that awaits the channel; it answers 1 where 30 entries stand there. RECV takes the oldest message of its channel;
RECV.T gives all ones where there is none.
The order in which SEND and RECV look at their operands is the model's reading (log 87), and so is that RECV may take a message that
is parked (log 108). -/
def Obligations.Messages : Prop :=
  ∀ (d a b : BitVec 5) (c : BitVec 4) (s s0 s1 s2 s3 s4 : State) (x y ea : Word),
    (s.ready (.send d a b c) → s.core.sending = none → s.does commitPoint () s0 → s0.core.sending = none →
      s0.does (src a) x s1 → s1.does (src b) y s2 →
      (s2.stops (roomFor d) .block → exec (.send d a b c) s = .next s) ∧
      (s2.does (roomFor d) () s2 → s2.does (payloadAt y) ea s2 →
        ∀ pl p q, s2.does (scratchRead ea y.toNat 64) pl s2 → s2.does (partOfCore x.toNat) p s2 →
          s2.does (partOfCore s.cur.core) q s2 →
          (x.toNat < 2 ^ 13 → p = q →
            let snd : Sending := ⟨x.toNat, ⟨false, c.toNat, s.cur.core, s0.core.dom.toNat, BitVec.ofNat 512 pl⟩, none⟩
            let u := s2.put fun k => { k with sending := some snd }
            exec (.send d a b c) s = .next (u.put fun k => k.issued s0.core true)) ∧
          (2 ^ 13 ≤ x.toNat ∨ p ≠ q → s2.does (dst d 2) () s3 → s3.straight .seq →
            exec (.send d a b c) s = .next ((s3.past .seq).begun s0)))) ∧
    (∀ snd, s.ready (.send d a b c) → s.core.sending = some snd →
      (snd.answer = none → exec (.send d a b c) s = .next s) ∧
      ∀ st, snd.answer = some st → (s.put fun k => { k with sending := none }).does (dst d st) () s3 → s3.straight .seq →
        exec (.send d a b c) s = .next ((s3.past .seq).begun s)) ∧
    (∀ snd, s.core.sending = some snd → snd.answer = none →
      let tk := s.pkg.core snd.target
      let answered (u : State) (v : Word) : State := u.put fun k => { k with sending := some { snd with answer := some v } }
      let bring (u : State) (f : Core → Core) : State := u.putPkg fun k => k.setCore snd.target (f (k.core snd.target))
      (ownWrites s.dev s.cur.pkg s.cur.core ≠ [] → exec .messageArrival s = .next s) ∧
      (ownWrites s.dev s.cur.pkg s.cur.core = [] →
        (30 ≤ tk.sendEntries → exec .messageArrival s = .next (answered s 1)) ∧
        (∀ mine its, tk.sendEntries < 30 → s.does (launchAt s.cur.core) mine s → s.does (launchAt snd.target) its s →
          s.does (messageTurn [mine, its] snd.target snd.msg.ch snd.msg.sender) () s1 →
          (savedStrand s1.pkg.sched.strands snd.msg.dom snd.target = none ∨
            (snd.msg.ch = 0 ∧ savedStrand s1.pkg.sched.strands snd.msg.dom snd.target ≠ none) →
            exec .messageArrival s = .next (answered (bring s1 fun k => { k with inbox := k.inbox ++ [snd.msg] }) 0)) ∧
          ∀ sv, savedStrand s1.pkg.sched.strands snd.msg.dom snd.target = some sv → snd.msg.ch ≠ 0 →
            let u := bring s1 fun k => { k with inbox := k.inbox ++ [{ snd.msg with parked := true }] }
            (sv.state ≠ .suspMsg ∨ sv.awaits ≠ snd.msg.ch → exec .messageArrival s = .next (answered u 0)) ∧
            (sv.state = .suspMsg → sv.awaits = snd.msg.ch →
              u.does (setStrand sv.va fun o => { o with state := .ready }) () s2 → s2.does (enqueue sv.va) () s3 →
              exec .messageArrival s = .next (answered s3 0))))) ∧
    (s.does (src a) y s1 → s1.does (payloadAt y) ea s1 →
      (∀ m, s1.core.takeable c.toNat = some m → ∀ i, i = .recv d a c ∨ i = .recvT d a c → s.ready i →
        (s1.put fun k => { k.scratchWrite y.toNat 64 m.payload.toNat with inbox := k.inbox.erase m }).does
          (dst d (BitVec.ofNat 64 (m.sender + m.dom * 2 ^ 16))) () s3 → s3.straight .seq → exec i s = .next (s3.past .seq)) ∧
      (s1.core.takeable c.toNat = none → (s.ready (.recv d a c) → exec (.recv d a c) s = .next s) ∧
        (s.ready (.recvT d a c) → s1.does (dst d (BitVec.allOnes 64)) () s4 → s4.straight .seq →
          exec (.recvT d a c) s = .next (s4.past .seq))))

/-- R130, R131, R136: CSRR gives a CSR's value; CSRW writes its writable fields within its limits, and MODE is no field it writes.
SYS.PLBINV drops the PLB entries of a range, SYS.CSINV code that does not run, SYS.QFLUSH the queues of a mask, and
SYS.TABCLR the decode table.
What CSINV of an unknown handle and QFLUSH of retained entries do is the model's reading (logs 38 and 39). -/
def Obligations.SystemUnits : Prop :=
  (∀ (d a : BitVec 5) (c : BitVec 12) (s s1 s2 : State) (v : Word),
      (s.ready (.csrr d c) → s.does (csrValue c.toNat) v s → s.does (dst d v) () s2 → s2.straight .seq →
        exec (.csrr d c) s = .next (s2.past .seq)) ∧
      (s.ready (.csrw a c) → s.does (src a) v s1 → csrValueOk c.toNat v = true →
        let u := s1.put fun k => k.setCsr c.toNat v
        u.straight .seq → exec (.csrw a c) s = .next (u.past .seq) ∧ u.core.sMode = s1.core.sMode) ∧
      (∀ k : Core, s.does (csrValue 0x024) s.core.tvec s ∧ ((k.setCsr 0x024 v).tvec = v) ∧
        (k.setCsr 0x020 v).cause = v ∧ (k.setCsr 0x011 v).fflags = v.setWidth 6 ∧ (k.setCsr 0x002 v).dom = v.setWidth 13 ∧
        (k.setCsr 0x025 v).pMode = v.getLsbD 1 ∧ (k.setCsr 0x025 v).rcount = v.extractLsb' 8 8)) ∧
  (∀ (a b : BitVec 5) (s s1 s2 : State) (x y : Word),
      (s.ready (.sysPlbinv a b) → s.does (src a) x s1 → s1.does (src b) y s2 → x.toNat % 4096 = 0 → y.toNat % 4096 = 0 →
        let u := s2.put fun c => { c with plb := c.plb.filter fun e =>
          !(y == 0 || overlaps x.toNat (x.toNat + y.toNat) e.base (e.base + e.bytes)) }
        u.straight .seq → exec (.sysPlbinv a b) s = .next (u.past .seq)) ∧
      (s.ready (.sysCsinv a) → s.does (src a) x s1 →
        (x = BitVec.allOnes 64 →
          let u := s1.put fun c => { c with store := c.store.filter fun k => c.isTop k }
          u.straight .seq → exec (.sysCsinv a) s = .next (u.past .seq)) ∧
        (∀ e, x ≠ BitVec.allOnes 64 → s1.does (dirEntry x.toNat) (some e) s2 →
          let u := s2.put fun c => { c with store := c.store.filter fun k => c.isTop k || k.digest != e.digest }
          u.straight .seq → exec (.sysCsinv a) s = .next (u.past .seq))) ∧
      (s.ready (.sysQflush a) → s.does (src a) x s1 → x.toNat < 2 ^ 7 →
        s2 = s1.put (fun c => { c with
          lq0 := if x.getLsbD 0 then Queue.empty else c.lq0, lq1 := if x.getLsbD 1 then Queue.empty else c.lq1
          lq2 := if x.getLsbD 2 then Queue.empty else c.lq2, sq0 := if x.getLsbD 3 then Queue.empty else c.sq0
          sq1 := if x.getLsbD 4 then Queue.empty else c.sq1, bqA := if x.getLsbD 5 then Queue.empty else c.bqA
          bqX := if x.getLsbD 6 then Queue.empty else c.bqX }) →
        s2.straight .seq → exec (.sysQflush a) s = .next (s2.past .seq)) ∧
      (s.ready .sysTabclr →
        let u := s.put fun c => { c with table := Table.empty, tabstat := 0 }
        u.straight .seq → exec .sysTabclr s = .next (u.past .seq)))

/-- R8 to R11, Table 1.2: CORE holds the core's number, its die, its quad, its place there and its package coordinates, and nothing
else. No two cores stand at one place of the package mesh; each quad is a block of two by two; a die's curve begins and ends at
two corners of the die; and a die's last core stands beside the next die's first. -/
def Obligations.CoreCoordinates : Prop :=
  (∀ core : Nat, core < 8192 →
    let at_ := meshOf core
    let w := (coreWord core).toNat
    at_.1 < 128 ∧ at_.2 < 64 ∧ natBits w 12 0 = core ∧ natBits w 15 13 = core / 1024 ∧ natBits w 26 16 = core / 4 ∧
      natBits w 28 27 = core % 4 ∧ natBits w 35 29 = at_.1 ∧ natBits w 41 36 = at_.2 ∧ natBits w 63 42 = 0) ∧
  (∀ c e : Nat, c < 8192 → e < 8192 → meshOf c = meshOf e → c = e) ∧
  (∀ q j : Nat, q < 2048 → j < 4 →
    (meshOf (4 * q + j)).1 / 2 = (meshOf (4 * q)).1 / 2 ∧ (meshOf (4 * q + j)).2 / 2 = (meshOf (4 * q)).2 / 2) ∧
  (∀ d : Nat, d < 4 → meshOf (1024 * d) = (32 * d, 31) ∧ meshOf (1024 * d + 1023) = (32 * d + 31, 31) ∧
    meshOf (1024 * (d + 4)) = (32 * (3 - d) + 31, 32) ∧ meshOf (1024 * (d + 4) + 1023) = (32 * (3 - d), 32)) ∧
  meshOf 17 = (1, 27)

/-! ### Joint instructions, strands and handlers (R147, R155 to R165, R170 to R177) -/

/-- R157: the first half of a joint instruction to arrive waits, and its stream goes on waiting, with nothing performed. -/
def Obligations.FirstHalfWaits : Prop :=
  ∀ (i : Instr) (s : State), (i ∈ [Instr.retd, .done, .commit, .eret] ∨ (∃ h k, i = .calld h k) ∨ (∃ h k, i = .taild h k) ∨ ∃ k, i = .susp k) →
    s.ready i → (s.core.str s.cur.stream.other).joint = false →
    (s.str.joint = false →
      exec i s = .next (s.put fun c => c.setStr s.cur.stream { c.str s.cur.stream with joint := true })) ∧
    (s.str.joint = true → exec i s = .next s)

/-- R170, R171: a commit point keeps the scalar state of both streams, releases the buffered stores and begins a region; a
rollback restores what it kept, discards the buffered stores and counts the restart. Vector registers, accumulators, flags
and the scratchpad keep what they hold. Once the unit that holds the commit point has completed, its stream restarts after it
(Table 8.7; the model's reading, log 77). -/
def Obligations.RegionsRestart : Prop :=
  (∀ s s1 : State, s.does releaseStores () s1 →
      let t := s1.put fun c => c.checkpoint none
      s.does commitPoint () t ∧
      t.core.ckpt = some ⟨s1.core.abar, s1.core.a, s1.core.s, s1.core.pa, s1.core.px, s1.core.bb, s1.core.strA.off, s1.core.strX.off,
        s1.core.strA.pend, s1.core.strX.pend⟩ ∧
      t.core.restartable = true ∧ t.core.rcount = 0 ∧ t.core.a = s1.core.a ∧ t.core.s = s1.core.s ∧
      t.core.lq0.ents = s1.core.lq0.ents ∧ t.core.sbuf = [] ∧
      (s.core.sbuf = [] → t.core.inflight = s.core.inflight)) ∧
  (∀ (c : Core) (k : Checkpoint), c.ckpt = some k →
      let t := c.rolledBack
      t.a = k.a ∧ t.s = k.s ∧ t.pa = k.pa ∧ t.px = k.px ∧ t.bb = k.bb ∧
        t.strA = { off := k.offA, pend := k.pendA, joint := false } ∧ t.strX = { off := k.offX, pend := k.pendX, joint := false } ∧
        t.sbuf = [] ∧ t.inflight = c.inflight ∧ t.rcount.toNat = Nat.min (c.rcount.toNat + 1) 255 ∧
        t.v = c.v ∧ t.m = c.m ∧ t.e = c.e ∧ t.fflags = c.fflags ∧ t.scratch = c.scratch ∧ t.sMode = c.sMode) ∧
  (∀ (c c0 : Core) (k : Checkpoint) (s : Strm), c.ckpt = some k →
      let t := (c.begun c0 s).rolledBack
      (t.str s).off = (c.str s).off ∧ (t.str s).pend = (c.str s).pend ∧
        (match s with
          | .A => t.a = c.a ∧ t.pa = c.pa ∧ t.s = k.s ∧ t.px = k.px ∧ t.strX.off = k.offX
          | .X => t.s = c.s ∧ t.px = c.px ∧ t.a = k.a ∧ t.pa = k.pa ∧ t.strA.off = k.offA))


/-- R147, R155, R172: a landing sets both streams' offsets with no branch pending, puts STRAND in a26 and s26 and the frame
pointer in a27 and s27, runs, and is a commit point; every other register keeps its value.
That a landing's entry takes a checkpoint is the model's reading (log 30). -/
def Obligations.LandingEntry : Prop :=
  ∀ (c : Core) (k : Code) (handle landing : Nat) (offs : Nat × Nat),
    let t := c.atEntry k handle landing offs
    t.mode = .running ∧ t.strA = ⟨offs.1, none, false⟩ ∧ t.strX = ⟨offs.2, none, false⟩ ∧
    t.a[26] = c.strand ∧ t.a[27] = c.fp ∧ t.s[26] = c.strand ∧ t.s[27] = c.fp ∧
    (∀ n : Fin 26, t.a[n.val] = c.a[n.val] ∧ t.s[n.val] = c.s[n.val]) ∧
    t.cur = some (k.as handle) ∧ t.lineWait = none ∧ k ∈ t.store ∧
    (∀ x ∈ t.store, x = k ∨ x ∈ c.store) ∧ t.restartable = true ∧
    t.atLanding = (if c.nest = 0 then some (handle, landing) else none) ∧
    t.v = c.v ∧ t.m = c.m ∧ t.pa = c.pa ∧ t.px = c.px ∧ t.fp = c.fp ∧ t.sMode = c.sMode ∧ t.tokens = c.tokens

/-- R157, R159 to R164, R177: the joint instructions when both halves have arrived and agree. COMMIT moves both streams on;
CALLD and TAILD write the frame words and enter their target; RETD enters the frame's landing; SUSP leaves the core at a
landing, or enters it within a handler, where a torn launch's strand ends instead (R360); DONE retires the strand, or holds a
gang member's end; ERET gives back what the trap frame holds, and waits first for a form that is not resident (log 41). -/
def Obligations.JointUnits : Prop :=
  ∀ (s c0 s1 s2 s3 s4 s5 t : State) (h : Nat) (ent : DirEnt) (m : Bool) (w : Nat) (rh : BitVec 5) (k : BitVec 12),
    (s.core.str s.cur.stream.other).joint = true → s.does commitPoint () c0 →
    let met (i : Instr) (needEmpty : Bool) : Prop := s.ready i ∧ s.does (jointChecks needEmpty) () s
    let c := c0.core
    (met .commit false → exec .commit s = .next (c0.put fun c => ({ c with
      strA := { c.strA with off := c.strA.off + 4, joint := false }
      strX := { c.strX with off := c.strX.off + 4, joint := false } } : Core).checkpoint none)) ∧
    (∀ code, met (.calld rh k) true → c.curCode = some code → (code.landing k.toNat).isSome → c0.does handleOperand h c0 →
      c0.does (dirEntry h) (some ent) s1 → let nfp := c.fp - BitVec.ofNat 64 ent.frame
      s1.does (checkSpan nfp 16) m s2 → s2.does drainTokens () s3 →
      s3.does (writeSpan m nfp 16 (k.toNat * 2 ^ 20 + (c.cur.map (·.handle)).getD 0 + c.fp.toNat * 2 ^ 64)) () s4 →
      s4.does (enterTarget h 0 ent nfp) () t → exec (.calld rh k) s = .next t) ∧
    (∀ code, met (.taild rh k) true → c.curCode = some code → c0.does handleOperand h c0 →
      c0.does (dirEntry h) (some ent) s1 → let nfp := c.fp + BitVec.ofNat 64 code.frame - BitVec.ofNat 64 ent.frame
      s1.does (loadSpan c.fp 16) w s2 → s2.does (checkSpan nfp 16) m s3 → s3.does drainTokens () s4 →
      s4.does (writeSpan m nfp 16 w) () s5 → s5.does (enterTarget h k.toNat ent nfp) () t → exec (.taild rh k) s = .next t) ∧
    (met .retd true → c0.does drainTokens () s1 → s1.does (loadSpan s1.core.fp 16) w s2 → natBits (w % 2 ^ 64) 63 32 = 0 →
      (natBits (w % 2 ^ 64) 19 0 = 0 → s2.does performDone () t → exec .retd s = .next t) ∧
      (natBits (w % 2 ^ 64) 19 0 ≠ 0 → s2.does (dirEntry (natBits (w % 2 ^ 64) 19 0)) (some ent) s3 →
        s3.does (enterTarget (natBits (w % 2 ^ 64) 19 0) (natBits (w % 2 ^ 64) 31 20) ent (BitVec.ofNat 64 (w / 2 ^ 64))) () t →
        exec .retd s = .next t)) ∧
    (∀ code o, met (.susp k) true → c.curCode = some code → code.landing k.toNat = some o → c0.does drainTokens () s1 →
      let here := (c.cur.map (·.handle)).getD 0
      (c.nest = 0 → s1.does (suspend .ready here k.toNat c.fp none) () t → exec (.susp k) s = .next t) ∧
      (c.nest ≠ 0 → s1.does tornHere true s1 → s1.does (suspensionPoint (pure ())) () t → exec (.susp k) s = .next t) ∧
      (c.nest ≠ 0 → s1.does tornHere false s1 →
        s1.does (setStrand c.strand.toNat fun x => { x with handle := here, landing := k.toNat, frame := c.fp }) () s2 →
        s2.does (enterLanding code here k.toNat o) () t → exec (.susp k) s = .next t)) ∧
    (met .done true → c0.does drainTokens () s1 → s1.does settle () s2 →
      (s2.dev.arcOf s.cur.pkg s.cur.core = none → s2.does (retire 0) () t → exec .done s = .next t) ∧
      ∀ arc i j, s2.dev.arcOf s.cur.pkg s.cur.core = some (arc, i, j) → s2.does (holdEnd arc i j 0) () t →
        exec .done s = .next t) ∧
    (∀ tf code v, met .eret true → c0.does (loadSpan c.fp 16) (0x0000000100000000 + tf * 2 ^ 64) s1 → tf < 2 ^ 64 →
      s1.does (loadSpan (BitVec.ofNat 64 tf) 0x1900) v s2 →
      s2.does (dirEntry (natBits (bytesAt v 0x1D8 8) 51 32)) (some ent) s3 →
      residentForm c s3.pkg.ctl ent.digest (formOf (bytesAt v 0x1D8 8)) = some code →
      trapFrameBad v (some code) (c.returned v (BitVec.ofNat 64 tf)) = false →
      Goes (exec .eret s) fun u =>
        u.core.sMode = (natBits (bytesAt v 0x1E8 8) 1 1 == 1) ∧ u.core.fp = BitVec.ofNat 64 tf + 0x1900#64 ∧
        u.core.nest = c.nest - 1 ∧ u.core.rcount = BitVec.ofNat 8 (natBits (bytesAt v 0x1E8 8) 15 8) ∧
        u.core.cur = some ⟨natBits (bytesAt v 0x1D8 8) 51 32, ent.digest, formOf (bytesAt v 0x1D8 8), code.key⟩ ∧
        u.core.a = (c.fromFrame v).a ∧ u.core.s = (c.fromFrame v).s ∧ u.core.v = (c.fromFrame v).v ∧
        u.core.strA = (c.fromFrame v).strA ∧ u.core.strX = (c.fromFrame v).strX ∧ u.core.restartable = true) ∧
    (∀ tf v x, met .eret true → c0.does (loadSpan c.fp 16) (0x0000000100000000 + tf * 2 ^ 64) s1 → tf < 2 ^ 64 →
      s1.does (loadSpan (BitVec.ofNat 64 tf) 0x1900) v s2 → let h := natBits (bytesAt v 0x1D8 8) 51 32
      s2.does (dirEntry h) (some ent) s3 → residentForm c s3.pkg.ctl ent.digest (formOf (bytesAt v 0x1D8 8)) = none →
      trapFrameBad v none (c.returned v (BitVec.ofNat 64 tf)) = false →
      s3.does (findStrand c.strand.toNat) (some x) s3 → x.illegal = false →
      let w := s3.put fun c => { c with mode := .fetching h 4097 }
      w.does (beginSearch c.strand.toNat s3.cur.core h ent (some (formOf (bytesAt v 0x1D8 8)))) () s4 →
      s4.does (setStrand c.strand.toNat fun s => { s with state := .suspCode }) () t → exec .eret s = .next t)

/-- R165, R20, R331, R399: SPAWN judges the argument block, the handle, the priority and the resources, in that order: statuses 4,
2, 3 and 1. With all good every write of the spawner performs, a record is taken from the pool, and a strand of the
parent's domain and launch with the block's fields is created, its place in the launch told by its parent's and its number
among the parent's spawns; the status is 0.
The size of the ready queue is free (log 17); the state of a strand with inputs is the model's reading (log 36). -/
def Obligations.SpawnMakesStrand : Prop :=
  ∀ (d a b : BitVec 5) (s s0 s1 s2 s3 s4 s5 s6 s7 : State) (h va : Word) (blk st : Nat),
    let prio := natBits (bytesAt blk 0x28 8) 5 0
    (s.ready (.spawn d a b) → s.does commitPoint () s0 → s0.does (src a) h s1 → s1.does (src b) va s2 → va.toNat % 64 = 0 →
      s2.does (loadSpan va 64) blk s3 → s3.does (spawn h blk) st s4 → s4.does (dst d (BitVec.ofNat 64 st)) () s5 →
      s5.straight .seq → exec (.spawn d a b) s = .next ((s5.past .seq).begun s0)) ∧
    (s0.does (src a) h s1 → s1.does (src b) va s2 → va.toNat % 64 ≠ 0 → s0.stops (actSpawn d a b) (.raise .align va)) ∧
    (spawnBlockOk blk = false → s3.does (spawn h blk) 4 s3) ∧
    (spawnBlockOk blk = true → s3.does (dirEntry h.toNat) none s4 → s3.does (spawn h blk) 2 s4) ∧
    (∀ ent, spawnBlockOk blk = true → s3.does (dirEntry h.toNat) (some ent) s4 →
      (prio < s3.core.prio.toNat ∨ 47 < prio → s3.does (spawn h blk) 3 s4) ∧
      (s3.core.prio.toNat ≤ prio → prio ≤ 47 →
        (s4.does (findStrand s3.core.strand.toNat) none s4 → s3.does (spawn h blk) 1 s4) ∧
        ∀ parent torn stopped part n, s4.does (findStrand s3.core.strand.toNat) (some parent) s4 →
          s4.does (strandTorn parent) torn s4 → s4.does (domStopped parent.dom) stopped s4 →
          (torn = true ∨ stopped = true → s3.does (spawn h blk) 1 s4) ∧
          (torn = false → stopped = false → s4.does (partOfDom parent.dom) part s4 → s4.does (readyItems (part.getD 0)) n s4 →
            (Config.readyQueueSize < n → s3.does (spawn h blk) 1 s4) ∧
            (n ≤ Config.readyQueueSize →
              (s4.does (takeRecord parent.dom) none s5 → s3.does (spawn h blk) 1 s5) ∧
              ∀ rec s8, s4.does (takeRecord parent.dom) (some rec) s5 → s5.does settled () s6 →
                let w (off : Nat) : Word := BitVec.ofNat 64 (bytesAt blk off 8)
                s6.does (modStrand parent.va fun o => { o with spawned := o.spawned + 1 }) () s8 →
                s8.does (createStrand { blankStrand rec h.toNat parent.dom prio parent.launch with
                  frame := w 0, compl := w 8, arg0 := w 0x10, arg1 := w 0x18, indecl := w 0x20, lpkg := parent.lpkg
                  replayPin := parent.replayPin, path := parent.path ++ [parent.spawned], island := parent.island
                  slot := parent.slot }) () s7 →
                s3.does (spawn h blk) 0 s7))))

/-! ### Commands (R101, R104, R258 to R286, R374 to R377) -/

/-- R276 to R281: SHPMK seals an object and gives its address, SHPDEL drops the copies; COPY, COPYS and CFILL take their
operands, check their windows and start a command of the copy engine; a length of 0 ends at once with status 0.
The order of the two windows is the model's reading (log 42). -/
def Obligations.CopyIssue : Prop :=
  ∀ (d a b c : BitVec 5) (s s0 s1 s2 s3 s4 s5 s6 : State) (x y z tok : Word) (ws : List Word),
    (s.ready (.shpmk d a) → s.does (src a) x s1 → s1.does (sealAt x) ws s2 → s2.does (dst d x) () s3 → s3.straight .seq →
      exec (.shpmk d a) s = .next (s3.past .seq)) ∧
    (s.ready (.shpdel a) → s.does (src a) x s1 →
      let u := s1.put fun c => { c with shapes := c.shapes.filter fun e => !(e.va == x.toNat && e.dom == c.dom.toNat) }
      u.straight .seq → exec (.shpdel a) s = .next (u.past .seq)) ∧
    (s.does commitPoint () s0 → s0.does (src a) x s1 → s1.does (src b) y s2 → s2.does (src c) z s3 →
      (s.ready (.copy d a b c) → z.toNat ≤ 0x1000000 → s3.does (checkWindows [spanAt y z.toNat, spanAt x z.toNat]) () s3 →
        (if z = 0 then s3.does (instantToken 0) tok s4
          else s3.does (startCommand .copy 0x72 [x, y, z] [spanAt y z.toNat, spanAt x z.toNat]) tok s4) →
        s4.does (dst d tok) () s5 → s5.straight .seq → exec (.copy d a b c) s = .next ((s5.past .seq).begun s0)) ∧
      (s.ready (.cfill d a b c) → z.toNat ≤ 0x1000000 → s3.does (checkWindows [spanAt x z.toNat]) () s3 →
        (if z = 0 then s3.does (instantToken 0) tok s4
          else s3.does (startCommand .copy 0x74 [x, y, z] [spanAt x z.toNat]) tok s4) →
        s4.does (dst d tok) () s5 → s5.straight .seq → exec (.cfill d a b c) s = .next ((s5.past .seq).begun s0)) ∧
      (∀ sh, s.ready (.copys d a b c) → s3.does (sealed x) ws s4 → shapeOf ws = some sh → y.toNat % sh.esize = 0 →
        z.toNat % sh.esize = 0 → (sh.mode = 2 → y = 0) →
        let ss := [hullAt sh z sh.sst, hullAt sh y sh.dst]
        s4.does (checkWindows (if sh.mode == 2 then ss.take 1 else ss)) () s4 →
        s4.does (startCommand .copy 0x73 ([y, z] ++ ws) ss) tok s5 → s5.does (dst d tok) () s6 → s6.straight .seq →
        exec (.copys d a b c) s = .next ((s6.past .seq).begun s0)))

/-- R258 to R263, R375: BMV and BLAY read their descriptor and BTAB judges its operands; a good one starts a command of the bank
units, a bad one ends at once with BANKUNIT, detail 1. FXPUT, FXGET and FXRED check their ranges and start a command of
the fabric engine. -/
def Obligations.EngineIssue : Prop :=
  (∀ (d a b : BitVec 5) (s s0 s1 s2 s3 s4 : State) (v w tok : Word) (raw : Nat),
      s.does commitPoint () s0 → s0.does (src a) v s1 →
      (∀ (lay : Bool) (i : Instr), i = (if lay then .blay d a else .bmv d a) → s.ready i → v.toNat % 64 = 0 →
        s1.does (loadSpan v 64) raw s2 →
        let ws : List Word := (List.range 8).map fun k => BitVec.ofNat 64 (bytesAt raw (8 * k) 8)
        let f (k : Nat) : Nat := (ws.getD k 0).toNat
        let x := bankDesc f
        let from_ : Span := if lay then ⟨x.xv, x.xv + (x.k - 1) * x.xpitch + (x.n * x.bits + 7) / 8⟩
          else ⟨x.xv, x.xv + x.batch * x.xpitch + 4 * x.k⟩
        let dest : Span := ⟨x.yv, x.yv + x.batch * x.ypitch + 4 * x.nj⟩
        (if bankDescOk lay f then
            s2.does (startCommand .bank (if lay then 0x6E else 0x6C) ws (if lay then [from_] else [from_, dest])) tok s3
          else s2.does (instantToken (statusWord .bankunit 1)) tok s3) →
        s3.does (dst d tok) () s4 → s4.straight .seq → exec i s = .next ((s4.past .seq).begun s0)) ∧
      (s.ready (.btab d a b) → s1.does (src b) w s2 →
        (if v.toNat % 64 = 0 ∧ natBits w.toNat 31 16 ≠ 0 ∧ natBits w.toNat 15 6 = 0 ∧ natBits w.toNat 63 32 = 0 then
            s2.does (startCommand .bank 0x6D [v, w] (if v = 0 then [] else [spanAt v 1024])) tok s3
          else s2.does (instantToken (statusWord .bankunit 1)) tok s3) →
        s3.does (dst d tok) () s4 → s4.straight .seq → exec (.btab d a b) s = .next ((s4.past .seq).begun s0))) ∧
  (∀ (d a b c : BitVec 5) (s s0 s1 s2 s3 s4 s5 : State) (x y z tok : Word),
      s.does commitPoint () s0 → s0.does (src a) x s1 → s1.does (src b) y s2 → s2.does (src c) z s3 →
      (∀ (put : Bool) (i : Instr), i = (if put then .fxput d a b c else .fxget d a b c) → s.ready i → z.toNat ≤ 0x1000000 →
        let far := if put then x else y
        let near := if put then y else x
        s3.does (checkWindows [spanAt near z.toNat]) () s3 → s3.does (checkRemote (spanAt far z.toNat)) () s3 →
        s3.does (startFabric (if put then 0x78 else 0x79) [far, near, z] (spanAt near z.toNat)) tok s4 →
        s4.does (dst d tok) () s5 → s5.straight .seq → exec i s = .next ((s5.past .seq).begun s0)) ∧
      (s.ready (.fxred d a b c) →
        let n := fxredBytes z.toNat
        let len := natBits z.toNat 31 0 * n
        s3.does (checkWindows [spanAt y len]) () s3 → s3.does (checkRemote (spanAt x len)) () s3 → x.toNat % n = 0 →
        y.toNat % n = 0 →
        (if fxredOk z.toNat then s3.does (startFabric 0x7A [x, y, z] (spanAt y len)) tok s4
          else s3.does (instantToken (statusWord .fabric 1)) tok s4) →
        s4.does (dst d tok) () s5 → s5.straight .seq → exec (.fxred d a b c) s = .next ((s5.past .seq).begun s0)))


/-- R53, R102, R104, R259, R262, R265, R284, R367: a command's ranges enter the table of sixteen locks, and it waits while too few
are free. It completes once the writes released before it have performed: its locks are released and its status stands in
its token. A BTAB reads its table, loads the slots of its stacks, and ends with the last. A command that reaches a peer
sends its messages; they are acknowledged, and sent again after 20 microseconds.
That a command performs whole at its completion is the model's choice (log 7). That a BTAB reads its table in one event, which
gives its locks up, then loads each stack's slot in an event of its own, and looks at the slot's owner again there, is the
model's reading (log 19): the refusals of R262 and R264 come in that first event, before any slot changes, and a slot whose check has
passed is claimed against every other BTAB (`checkPlace`), so the second look refuses only in a state that no run reaches. -/
def Obligations.CommandsComplete : Prop :=
  (∀ (s s1 s2 s3 : State) (e : Engine) (op slot n : Nat) (args : List Word) (ss : List Span) (tok : Word),
      s.does (takeToken .command none) (slot, tok) s1 → s1.does nextSerial n s2 →
      (s.core.freeLocks.length < ss.length → s.stops (startCommand e op args ss) .block) ∧
      (ss.length ≤ s.core.freeLocks.length → s2.does (lockRanges n ss) () s3 →
        s.does (startCommand e op args ss) tok
          (s3.put fun c => { c with cmds := c.cmds ++ [⟨n, e, op, some slot, c.dom.toNat, args⟩] }) ∧
        (∀ l ∈ s2.core.locks, l ∈ s3.core.locks) ∧
        ∀ x ∈ ss, ∃ k < 16, (k, (⟨x.lo.toNat, (x.hi - x.lo).toNat, n⟩ : RangeLock)) ∈ s3.core.locks)) ∧
  (∀ (s t : State) (n st : Nat), s.does (commandDone n st) () t → (∀ c ∈ t.core.cmds, c.serial ≠ n) ∧
      ∀ c slot tok, s.core.cmds.find? (fun c => c.serial == n) = some c → c.slot = some slot →
        findAt s.core.tokens slot = some tok → (∀ l ∈ t.core.locks, l.2.cmd ≠ n) ∧
          findAt t.core.tokens slot = some { tok with status := some (BitVec.ofNat 16 st) }) ∧
  (∀ (s s1 s2 t : State) (n st : Nat) (k : Command),
      let mine (e : Engine) : Prop := k.engine = e ∧ s.core.cmds.find? (fun c => c.serial == n && c.engine == e) = some k
      let before := ownWrites s.dev s.cur.pkg s.cur.core
      ((∃ x ∈ before, x < n) → exec (.copyCommandComplete n) s = .next s ∧ exec (.bankCommandComplete n) s = .next s ∧
        exec (.fabricCommandComplete n) s = .next s) ∧
      ((∀ x ∈ before, n ≤ x) →
        (mine .copy → s.does (runCopy k) st s1 → s1.does (commandDone n st) () t → exec (.copyCommandComplete n) s = .next t) ∧
        (mine .bank →
          (k.op = 0x6C → s.does (runBmv k (bankDesc fun j => (k.args.getD j 0).toNat)) st s1 →
            s1.does (commandDone n st) () t → exec (.bankCommandComplete n) s = .next t) ∧
          (k.op = 0x6E → s.does (runBlay k (bankDesc fun j => (k.args.getD j 0).toNat)) st s1 →
            s1.does (commandDone n st) () t → exec (.bankCommandComplete n) s = .next t) ∧
          (k.op = 0x6D → btabHeld k = none → s.does (btabCheck k) (.error st) s1 → s1.does (commandDone n st) () t →
            exec (.bankCommandComplete n) s = .next t) ∧
          (∀ tb, k.op = 0x6D → btabHeld k = none → s.does (btabCheck k) (.ok tb) s1 →
            let held := k.args ++ [BitVec.ofNat 64 (natBits (k.args.getD 1 0).toNat 31 16)] ++ tb.getD []
            exec (.bankCommandComplete n) s = .next (s1.put fun c => { c with
              cmds := c.cmds.map fun c => if c.serial == n then { c with args := held } else c
              locks := c.locks.filter fun l => l.2.cmd != n })) ∧
          (∀ left ds, k.op = 0x6D → btabHeld k = some (left, ds) →
            (left = 0 → s.does (commandDone n 0) () t → exec (.bankCommandComplete n) s = .next t) ∧
            (left ≠ 0 → exec (.bankCommandComplete n) s = .next s))) ∧
        (∀ peer, mine .fabric → s.does (farPeer k) peer s1 →
          let ms := s.pkg.fabric.messages.filter fun m => m.of s.cur.core n
          (ms = [] → peer = true → exec (.fabricCommandComplete n) s = .next (s1.putPkg fun x => { x with
            fabric := { x.fabric with messages := x.fabric.messages ++ messagesOf s.cur.core n k.fabricBytes s.time } })) ∧
          (ms ≠ [] → ms.all NMsg.full = false → peer = true → exec (.fabricCommandComplete n) s = .next s1) ∧
          (peer = false ∨ (ms ≠ [] ∧ ms.all NMsg.full = true) →
            (s1.putPkg fun x => { x with fabric := { x.fabric with
              messages := x.fabric.messages.filter fun m => !m.of s.cur.core n } }).does (runFabric k) st s2 →
            s2.does (commandDone n st) () t → exec (.fabricCommandComplete n) s = .next t)))) ∧
  (∀ (s : State) (n j bits : Nat) (xs ys : List NMsg) (m : NMsg),
      let told (m' : NMsg) : State := s.putPkg fun x => { x with fabric := { x.fabric with messages := xs ++ m' :: ys } }
      s.pkg.fabric.messages = xs ++ m :: ys → m.of s.cur.core n = true → (xs.filter fun m => m.of s.cur.core n).length = j →
      exec (.narrowsMessageAck n j bits) s = .next (told { m with acked := m.acked ||| BitVec.ofNat 64 bits }) ∧
      (m.full = false → 20000 ≤ s.time - m.sentAt →
        exec (.narrowsRetransmit n j) s = .next (told { m with sentAt := s.time, sends := m.sends + 1 })) ∧
      (m.full = true ∨ s.time - m.sentAt < 20000 → exec (.narrowsRetransmit n j) s = .next (told m))) ∧
  (∀ (s t : State) (n j m left : Nat) (k : Command) (ds : List Word),
      s.core.cmds.find? (fun k => k.serial == n && k.engine == .bank && k.op == 0x6D) = some k → btabHeld k = some (left, ds) →
      (left / 2 ^ j % 2 = 0 → exec (.btabSlotReplace n j) s = .next s) ∧
      (left / 2 ^ j % 2 = 1 → s.does (slotNumber (natBits (k.args.getD 1 0).toNat 5 0)) (some m) s →
        ((∃ b, findAt s.pkg.bankSlots (64 * j + m) = some b ∧ b.owner ≠ k.dom) → s.does (commandDone n (bankStatus 2)) () t →
          exec (.btabSlotReplace n j) s = .next t) ∧
        ((∀ b, findAt s.pkg.bankSlots (64 * j + m) = some b → b.owner = k.dom) →
          let slot : BankSlot := ⟨k.dom, ds.flatMap fun x => [x.setWidth 32, x.extractLsb' 32 32]⟩
          let load (b : List (Nat × BankSlot)) : List (Nat × BankSlot) :=
            if ds.isEmpty then dropAt b (64 * j + m) else setAt b (64 * j + m) slot
          let loaded (c : Command) : Command :=
            if c.serial == n then { c with args := c.args.set 2 (BitVec.ofNat 64 (left - 2 ^ j)) } else c
          exec (.btabSlotReplace n j) s = .next ((s.putPkg fun x => { x with bankSlots := load x.bankSlots }).put
            fun c => { c with cmds := c.cmds.map loaded }))))

/-! ### Archipelagos (R380 to R383) and pairs -/

/-- R381 to R383, R388: a strand that is no gang member is answered 1; a member JOINs from state 1, LEAVEs, and its BAR arrives,
waits, and gives the generation it fired with. A counted arrival joins its barrier. Once every other island has left, the
ends that an island holds retire, and it departs with its last strand.
That it departs once every strand has ended, whatever ended it, is the model's reading (log 43). -/
def Obligations.Archipelagos : Prop :=
  (∀ (d a : BitVec 5) (s s0 s1 s2 s3 : State) (v : Word),
      (s.does commitPoint () s0 → s0.does (src a) v s1 → s1.dev.arcOf s.cur.pkg s.cur.core = none → s1.does (dst d 1) () s2 →
        s2.straight .seq → s.core.lineWait = none →
        ∀ i ∈ [Instr.arcJoin d a, .arcLeave d a, .arcBar d a], s.ready i → exec i s = .next ((s2.past .seq).begun s0)) ∧
      (∀ arc, s.does commitPoint () s0 → s0.does (src a) v s1 → s1.dev.arcOf s.cur.pkg s.cur.core = some arc →
        (s.ready (.arcJoin d a) → natBits v.toNat 63 18 = 0 → natBits v.toNat 11 0 = 0 →
          (arcState s1.core.arcstat = 1 →
            s1.does (setArcstat (setField (setField s1.core.arcstat 49 48 2) 55 50 (natBits v.toNat 17 12))) () s2 →
            s2.does (dst d 0) () s3 → s3.straight .seq → exec (.arcJoin d a) s = .next ((s3.past .seq).begun s0)) ∧
          (arcState s1.core.arcstat ≠ 1 → s1.does (dst d 2) () s3 → s3.straight .seq →
            exec (.arcJoin d a) s = .next ((s3.past .seq).begun s0))) ∧
        (s.ready (.arcLeave d a) → v = 0 →
          (arcState s1.core.arcstat ≠ 3 → s1.does (leaveArc arc.1.id) () s2 →
            s2.does (dst d 0) () s3 → s3.straight .seq → exec (.arcLeave d a) s = .next ((s3.past .seq).begun s0)) ∧
          (arcState s1.core.arcstat = 3 → s1.does (dst d 3) () s3 → s3.straight .seq →
            exec (.arcLeave d a) s = .next ((s3.past .seq).begun s0))) ∧
        (s.ready (.arcBar d a) → natBits v.toNat 63 2 = 0 → s.core.lineWait = none → s0.core.lineWait = none →
          s1.does (roomFor d) () s1 →
          (arcState s1.core.arcstat = 2 →
            let u := s1.put fun c => { c with
              lineWait := some (.podArriving v.toNat (ownWrites s1.dev s.cur.pkg s.cur.core)) }
            exec (.arcBar d a) s = .next (u.put fun c => c.issued s0.core true)) ∧
          (arcState s1.core.arcstat ≠ 2 → s1.does (dst d (if arcState s1.core.arcstat = 1 then 2 else 3)) () s3 →
            s3.straight .seq → exec (.arcBar d a) s = .next ((s3.past .seq).begun s0)))) ∧
      (∀ w, s.ready (.arcBar d a) → s.core.lineWait = some w →
        (∀ j g, w = .podFired j g → (s.put fun c => { c with lineWait := none }).does (dst d (g.setWidth 64 <<< 16)) () s3 →
          s3.straight .seq → exec (.arcBar d a) s = .next ((s3.past .seq).begun s)) ∧
        ((∀ j g, w ≠ .podFired j g) → exec (.arcBar d a) s = .next s))) ∧
  (∀ s t : State,
      (s.dev.arcOf s.cur.pkg s.cur.core = none → exec .podBarrierArrival s = .next s ∧ exec .islandDepart s = .next s) ∧
      (∀ arc i k, s.dev.arcOf s.cur.pkg s.cur.core = some (arc, i, k) →
        (∀ j covers s2, s.core.lineWait = some (.podArriving j covers) →
          ((ownWrites s.dev s.cur.pkg s.cur.core).any covers.contains = true → exec .podBarrierArrival s = .next s) ∧
          ((ownWrites s.dev s.cur.pkg s.cur.core).any covers.contains = false →
            let s1 := s.put fun c => { c with lineWait := some (.podCounted j) }
            let arrive (b : PodBarrier) : PodBarrier := { b with arrived := b.arrived ++ [(i, k)] }
            s1.does (modArc arc.id fun a => { a with
              barriers := a.barriers.setIfInBounds j (arrive (a.barriers.toList.getD j PodBarrier.reset)) }) () s2 →
            s2.does (firePod arc.id j) () t → exec .podBarrierArrival s = .next t)) ∧
        (∀ j, s.core.lineWait = some (.podCounted j) → s.does (firePod arc.id j) () t → exec .podBarrierArrival s = .next t) ∧
        (∀ isl s1 s2, arc.islands[i]? = some isl →
          ((∃ o x, o ≠ i ∧ arc.islands[o]? = some x ∧ s.dev.islandLeft x = false) → exec .islandDepart s = .next s) ∧
          ((∀ o x, o ≠ i → arc.islands[o]? = some x → s.dev.islandLeft x = true) →
            s.does (isl.held.forM (retireHeld isl)) () s1 →
            s1.does (modArc arc.id fun a => { a with islands := a.islands.set i { isl with held := [] } }) () s2 →
            s2.does (departIsland arc.id i) () t → exec .islandDepart s = .next t))) ∧
      (∀ arc i isl, s.dev.arcs.find? (fun a => a.id == arc.id) = some arc → arc.islands[i]? = some isl → isl.departed = false →
        let gone (k : Nat) : Bool := ((s.dev.islandStrand isl k).map (·.state.ended)).getD true
        ((∃ k < isl.cores.length, gone k = false) → s.does (departIsland arc.id i) () s) ∧
        ((∀ k < isl.cores.length, gone k = true) → s.does (departIsland arc.id i) () t →
          ∃ a, t.dev.arcs.find? (fun a => a.id == arc.id) = some a ∧
            a.islands[i]? = some { isl with held := [], departed := true })))


/-- R57 to R59, R66, R170: the halves of a pair perform as one unit of eight bytes, the high half reading what stood before the
low half wrote; a pair whose low half is a commit point begins a region. A low half that begins to wait does so where the high
half can issue with it: what that half pops is gone (R84), and what it writes comes when the unit completes. -/
def Obligations.PairedHalves : Prop :=
  ∀ (lo hi : Half) (span : Bool) (s s0 s1 s2 : State) (f : Flow), s.core.mode = .running →
    s.does (pairChecks lo hi span) () s → s.does (pairPre lo) () s0 → s0.does (halfAct (decodeHalf lo)) f s1 →
    (f = .wait → ∀ g, (s1.put fun c => c.withSources s0.core).does (halfAct (decodeHalf hi)) g s2 →
      exec (.pair lo hi span) s = .next (s2.put fun c =>
        ({ s1.core with sq0 := c.sq0, sq1 := c.sq1 } : Core).issued s0.core (pairCommits lo))) ∧
    ((f = .seq ∨ ∃ t, f = .br t) →
      ∀ g, (s1.put fun c => c.withSources s0.core).does (halfAct (decodeHalf hi)) g s2 →
        let u := s2.put fun c => c.withWrites s0.core s1.core
        (u.str.advance 8 f).2 = none →
        let v := u.put fun c => c.setStr s.cur.stream ((c.str s.cur.stream).advance 8 f).1
        exec (.pair lo hi span) s = .next (if pairCommits lo then v.begun s0 else v))

/-- R88: when both streams wait for queues that nothing can change, QDEADLOCK is raised; while either can go on, or a load is
still to return, nothing happens.
EADDR is a free value (log 15), and the model does not count the 1,024 cycles (log 4). -/
def Obligations.QueueDeadlock : Prop :=
  ∀ (s t : State) (x y : Bool), s.does (queueBlocked .A) x s → s.does (queueBlocked .X) y s →
    let stuck := s.core.mode = .running ∧ s.core.loadsDone = true ∧ x = true ∧ y = true ∧
      (s.core.strA.joint = false ∨ s.core.strX.joint = false)
    (stuck → s.does (exceptionOpen .qdeadlock (Config.openEaddr s.time s.core.serial)) () t → exec .qdeadlock s = .next t) ∧
    (¬ stuck → exec .qdeadlock s = .next s)

/-! ### Home slices, walkers and the host (R39, R288 to R305, R314, R318) -/

/-- R288 to R293, R305, R314, R318, R369: a released store performs in its line's order; where its peer is lost it is dropped, and
its own strand owes APERTURE, raised at once where it runs and else when it next does (log 90). A posted reduction is accepted in its stream's order, where its slice counts its
launch and can keep its fault, and performs as the first of its line; a deferred one is reported, or dropped with its
launch told. Fills, walks and host accesses perform or change nothing; a bitmap is rebuilt from the dirty tags; a range
invalidation ends the commands that touch its range, drops its translations, and lets what waited for it go on. The scrub of
main memory comes round every 24 h, that of the shared cache without pause (R413).
That a fill and the read it serves are one step is the model's reading (log 11). -/
def Obligations.HomeEvents : Prop :=
  ∀ (s s1 s2 s3 t : State),
    let posted := ownPosted s.dev s.cur.pkg s.cur.core
    (∀ n x, s.core.inflight.find? (fun x => x.serial == n) = some x →
      let gone (u : State) : State := u.put fun c => { c with inflight := c.inflight.filter fun y => y.serial != n }
      (storeDue s.core.inflight posted x = false → exec (.storePerform n) s = .next s) ∧
      (storeDue s.core.inflight posted x = true →
        (s.does (performStore x) () s1 → exec (.storePerform n) s = .next (gone s1)) ∧
        ∀ ea, s.stops (performStore x) (.raise .aperture ea) →
          (gone s).does (modStrand x.strand fun y => { y with owed := y.owed ++ [⟨.aperture, ea, .A⟩] }) () s1 →
          (s.core.strand.toNat = x.strand → s1.does raiseOwed () t → exec (.storePerform n) s = .next t) ∧
          (s.core.strand.toNat ≠ x.strand → exec (.storePerform n) s = .next s1))) ∧
    (∀ n p, s.core.amons.find? (fun e => e.1 == n) = some (n, p) → let k := homeSlice p.at_.va
      let good := (s.core.amons.filter fun e => homeSlice e.2.at_.va == k).head?.map (·.1) = some n ∧
        (∀ x ∈ s.core.inflight, n ≤ x.serial ∨ x.va / 128 ≠ p.at_.va / 128) ∧ s.pkg.home.clogged k p.dom = false ∧
        ((p.lpkg, p.launch) ∈ s.pkg.home.counted k ∨ (s.pkg.home.counted k).length < 512)
      (good → exec (.amonAccept n) s = .next ((s.put fun c => { c with amons := c.amons.filter fun e => e.1 != n }).putPkg
        fun x => { x with home := { x.home with accepted := x.home.accepted ++ [p] } })) ∧
      (¬ good → exec (.amonAccept n) s = .next s)) ∧
    (∀ line p, s.pkg.home.accepted.find? (fun p => p.at_.va / 128 == line) = some p →
      (s.putPkg fun x => { x with home := { x.home with accepted := x.home.accepted.erase p } }).does (performPosted p) () t →
      exec (.atomicPerform line) s = .next t) ∧
    (∀ dom i d, let r := lookupD DefRing.reset s.pkg.home.defRings dom
      r.open_.find? (fun e => e.1 == r.head) = some (i, d) →
      (d.cause ≠ .translate → d.cause ≠ .owner → s.does (dropDeferred d) () s1 →
        s1.does (setDefRing dom { r with head := r.head + 1, open_ := r.open_.filter fun e => e.1 != i }) () s2 →
        (s1.dev.pkg d.lpkg).sched.launches = ((s.dev.pkg d.lpkg).sched.launches.map fun l =>
          if l.id == d.launch then { l with extra := combineStatus l.extra statusLate } else l) ∧
        (s2.pkg.home.keptFor dom = none → exec (.deferredResolve dom) s = .next s2)) ∧
      (∀ n, d.cause = .translate ∨ d.cause = .owner →
        s.does (openReport d.cause (BitVec.ofNat 64 d.at_.va) (BitVec.ofNat 64 d.at_.va) dom d.core (.deferred i)) n s1 →
        let told (e : Nat × Deferred) : Nat × Deferred := if e.1 == i then (i, { e.2 with report := some n }) else e
        s1.does (setDefRing dom { r with head := r.head + 1, open_ := r.open_.map told }) () s2 →
        (s2.pkg.home.keptFor dom = none → exec (.deferredResolve dom) s = .next s2) ∧
        ∀ k e, s2.pkg.home.keptFor dom = some (k, e) →
          (s2.putPkg fun x => { x with home := { x.home with
            overflow := insertD [] x.home.overflow k ((x.home.kept k).erase e) } }).does (pushDeferred e) () t →
          exec (.deferredResolve dom) s = .next t)) ∧
    (∀ va part, va < windowBase →
      (∀ v, s.does thePart part s → s.does (runHome 0 0 (reach part va)) v t → exec (.lineFill va) s = .next t) ∧
      (∀ e, s.does thePart part s → s.stops (runHome 0 0 (reach part va)) e → (∀ f, e ≠ .halt f) →
        exec (.lineFill va) s = .next s) ∧
      (∀ v, s.does (runHome 0 0 (freeWalk va)) v t → exec (.pageWalk va) s = .next t) ∧
      (∀ e, s.stops (runHome 0 0 (freeWalk va)) e → (∀ f, e ≠ .halt f) → exec (.pageWalk va) s = .next s)) ∧
    (∀ fn va v x, va % 8 = 0 → va < windowBase →
      (s.pkg.hostReaches fn va = false → exec (.hostMemAccess ⟨fn, true⟩ va v) s = .next s) ∧
      (s.pkg.hostReaches fn va = true → s.does (writeBytesNow 0 0 true 0 va 8 v) () t →
        exec (.hostMemAccess ⟨fn, true⟩ va v) s = .next t) ∧
      (s.pkg.hostReaches fn va = true → s.does (readBytes 0 0 true va 8) x t →
        exec (.hostMemAccess ⟨fn, false⟩ va v) s = .next t)) ∧
    (Goes (exec .dirtyBitmapSweep s) fun u => u.pkg.service.swept = s.time ∧ u.pkg.home.tags = s.pkg.home.tags ∧
      ∀ k, lookupD [] u.pkg.home.dirtyBits k = s.pkg.home.dirtyOwners k) ∧
    ((s.putPkg fun x => { x with home := { x.home with lostRefs := [] } }).does
      (runHome 0 0 (s.pkg.home.lostRefs.forM releaseEntry)) () t → exec .reconciliationSweep s = .next t) ∧
    exec .scrub s = .next (s.putPkg fun x => { x with service := { x.service with
      cacheScrubbed := s.time
      scrubbed := if 86400000000000 ≤ s.time - x.service.scrubbed then s.time else x.service.scrubbed } }) ∧
    (∀ id i, s.pkg.home.invals.find? (fun i => i.id == id) = some i →
      let loading := ∃ c ∈ s.pkg.cores, ∃ k ∈ c.2.cmds, k.writing = true ∧ (k.touches i.lo i.hi).isSome = true
      (loading → exec (.rangeInvalidationPerform id) s = .next s) ∧
      (¬ loading → s.does (s.pkg.cores.forM fun c => atCore s.cur.pkg c.1 .A (settleCommands i.lo i.hi)) () s1 →
        s1.does (runHome 0 0 (dropTranslations i.lo i.hi)) () s2 →
        let u := (s2.putPkg fun x => { x with home := { x.home with invals := x.home.invals.filter fun j => j.id != id } }).putPkg
          fun x => { x with ctl := { x.ctl with jobs := dropAt x.ctl.jobs id } }
        (findAt s.pkg.ctl.jobs id = none → exec (.rangeInvalidationPerform id) s = .next u) ∧
        (∀ ctx ring index, findAt s.pkg.ctl.jobs id = some (.command ctx ring index) →
          u.does (postEvent ctx { blankEvent 6 with ring := ring, index := index }) () t →
          exec (.rangeInvalidationPerform id) s = .next t) ∧
        (∀ dom doneVa freed, findAt s.pkg.ctl.jobs id = some (.mailbox dom doneVa freed) → u.does (giveFrames freed) () s3 →
          s3.does (mailboxDone dom doneVa 1) () t → exec (.rangeInvalidationPerform id) s = .next t)))

/-- R148, R304, R305, R388, R413: a lost clean tag is dropped, a dirty one with a good mirror stays, and one that is lost stops the
domains that its slice's bitmap names; poison marks a part of main memory, of a cached line or of the scratchpad; an error
in a register retires the strand, a gang's by way of its held end; an error that is corrected is counted; poisoned code leaves
its store, its die's cache or the pool.
The mirror is an operand (log 75); the bytes of a part of the scratchpad that is lost are free (log 44). That an end already
held retires at once, its island departing with it where it was the last, and that a stopped gang member's end waits for it to
run again, are the model's reading (log 43). -/
def Obligations.ErrorEvents : Prop :=
  ∀ (s s1 s2 t : State) (line a n : Nat) (bad : Bool),
    (∀ tag, s.pkg.home.tags.find? (fun t => t.line == line) = some tag →
      let lost := s.putPkg fun x => { x with home := { x.home with
        tags := x.home.tags.filter fun t => t.line != line, lostRefs := x.home.lostRefs ++ [tag.dptr] } }
      (tag.dirty = false → exec (.tagError line bad) s = .next lost) ∧
      (tag.dirty = true → exec (.tagError line false) s = .next s) ∧
      (tag.dirty = true → lost.does ((lookupD [] s.pkg.home.dirtyBits (homeSlice (128 * line))).forM stopDomain) () t →
        exec (.tagError line true) s = .next t)) ∧
    (a + 8 ≤ hbmBytes → exec (.dataError 0 a) s =
      .next (s.putPkg fun x => { x with home := { x.home with hbmPois := addOnce x.home.hbmPois (a / 8) } })) ∧
    (∀ tag, s.pkg.home.tags.find? (fun t => t.line == a / 128) = some tag →
      let hurt (d : DataEntry) : DataEntry := if d.id == tag.dptr then { d with pois := d.pois ||| 2 ^ (a / 8 % 16) } else d
      exec (.dataError 1 a) s = .next (s.putPkg fun x => { x with home := { x.home with data := x.home.data.map hurt } })) ∧
    (a < scratchBytes → exec (.dataError 2 a) s = .next (s.put fun c => { c with
      scratch := c.scratch.write (a / 8 * 8) 8 (Config.lostData s.time (a / 8)).toNat
      scratchPois := addOnce c.scratchPois (a / 8) })) ∧
    (let k := s.pkg.home.l1Owner s.cur.core (a / 128)
      let hurt (e : L1Line) : L1Line := if e.line == a / 128 then { e with pois := e.pois ||| 2 ^ (a / 8 % 16) } else e
      exec (.dataError 4 a) s = .next (s.putPkg fun x => { x with home := { x.home with
        l1 := x.home.l1.map fun c => if c.1 == k then (c.1, c.2.map hurt) else c } })) ∧
    exec (.dataError 5 a) s = .next (s.putPkg fun x => { x with service := { x.service with corrected := x.service.corrected + 1 } }) ∧
    (n = 3 ∨ 5 < n →
      let lone := s.dev.arcOf s.cur.pkg s.cur.core = none
      (s.core.mode = .idle → exec (.dataError n a) s = .next s) ∧
      (s.core.mode ≠ .idle → s.core.mode ≠ .held → ((∀ p, s.core.mode ≠ .stopped p) ∨ lone) →
        s.does (retireFault Cause.poison.code) () t → exec (.dataError n a) s = .next t) ∧
      (∀ p, s.core.mode = .stopped p → ¬ lone →
        s.does (modStrand s.core.strand.toNat fun x => { x with ending := some Cause.poison.code }) () t →
        exec (.dataError n a) s = .next t) ∧
      (s.core.mode = .held → lone → exec (.dataError n a) s = .next s) ∧
      ∀ arc i k isl, s.core.mode = .held → s.dev.arcOf s.cur.pkg s.cur.core = some (arc, i, k) → arc.islands[i]? = some isl →
        ((isl.held.any fun q => q.1 == k) = false → exec (.dataError n a) s = .next s) ∧
        ((isl.held.any fun q => q.1 == k) = true → s.does (dropHeld arc.id i k) () s1 →
          s1.does (endHere Cause.poison.code) () s2 → s2.does (departWith s.core.strand.toNat) () t →
          exec (.dataError n a) s = .next t)) ∧
    (∀ k, s.core.store[n]? = some k → s.does (storePoisoned k) () s1 → exec (.codePoison 0 n) s = .next s1) ∧
    (∀ e, (s.pkg.sched.dieCode.filter fun e => e.1 == dieOf s.cur.core)[n]? = some e → exec (.codePoison 1 n) s =
      .next (s.putPkg fun x => { x with sched := { x.sched with dieCode := x.sched.dieCode.erase e } })) ∧
    (∀ o, s.pkg.sched.pool[n]? = some o → exec (.codePoison 2 n) s =
      .next (s.putPkg fun x => { x with sched := { x.sched with pool := x.sched.pool.erase o } }))

/-! ### The fabric (R362 to R373, R385 to R387) -/

/-- R367 to R370, R373, R385 to R387: tables of routes, apertures and groups take what the fabric manager and control cores write,
and change nothing else; a lost peer's entries become unusable, and a peer with routes is reachable again; a group that is no
longer valid discards its open rounds; regions are registered under a key of their own, revoked and dropped.
A second registration and the return of a lost peer are the model's choice (logs 53 and 58), and so is the package behind an
endpoint (log 53). -/
def Obligations.FabricTables : Prop :=
  ∀ (s s1 : State) (n w0 w1 : Nat) (hops : List Nat),
    let f := s.pkg.fabric
    let set (u : State) (g : Fabric → Fabric) : State := u.putPkg fun x => { x with fabric := g x.fabric }
    (∀ key dom va pages, va % 4096 = 0 → pages ≠ 0 → va + 4096 * pages ≤ windowBase →
      ((f.regions.any fun r => r.key == key % 2 ^ 32) = false → exec (.regionRegister key dom va pages) s =
        .next (set s fun f => { f with regions := f.regions ++ [⟨key % 2 ^ 32, dom % 8192, va, pages, false⟩] })) ∧
      ((f.regions.any fun r => r.key == key % 2 ^ 32) = true →
        Goes (exec (.regionRegister key dom va pages) s) fun u => u.pkg = s.pkg)) ∧
    (∀ key, exec (.regionDeregister key) s =
        .next (set s fun f => { f with regions := f.regions.filter fun r => r.key != key % 2 ^ 32 }) ∧
      Goes (exec (.regionDeregister key) s) fun u => ∀ lo hi, u.pkg.fabric.pins lo hi = true → s.pkg.fabric.pins lo hi = true) ∧
    (∀ key, Goes (exec (.keyRevoke key) s) fun u =>
      u.pkg = { s.pkg with fabric := { f with regions := u.pkg.fabric.regions } } ∧
      u.pkg.fabric.regions.length = f.regions.length ∧
      ∀ (i : Nat) (r : Region), f.regions[i]? = some r → u.pkg.fabric.regions[i]? =
        some { r with revoked := r.revoked || r.key == key % 2 ^ 32 }) ∧
    (Goes (exec (.peerDeclaredLost n) s) fun u => let g := u.pkg.fabric
      u.pkg = { s.pkg with fabric := { f with
        unreachable := g.unreachable, routes := g.routes, apertures := g.apertures } } ∧
      (∀ p, p ∈ g.unreachable ↔ p ∈ f.unreachable ∨ p = n % 1024) ∧ findAt g.routes (n % 1024) = none ∧
      (∀ p, p ≠ n % 1024 → findAt g.routes p = findAt f.routes p) ∧
      ∀ (k : Nat) (a : Aperture), findAt f.apertures k = some a → findAt g.apertures k =
        some { a with lost := a.lost || (a.valid && !a.scaleOut && a.pkg == n % 1024) }) ∧
    (Goes (exec (.routeTableLoad n hops) s) fun u => let g := u.pkg.fabric
      u.pkg = { s.pkg with fabric := { f with unreachable := g.unreachable, routes := g.routes } } ∧
      (hops = [] → g.unreachable = f.unreachable) ∧
      (hops ≠ [] → lookupD [] g.routes (n % 1024) = (hops.map (· % 1024)).take 4 ∧
        ∀ p, p ∈ g.unreachable ↔ p ∈ f.unreachable ∧ p ≠ n % 1024)) ∧
    (0 < n → n ≤ 62 →
      let a := parseAperture w0 w1
      let b : Aperture := { a with lost := a.valid && !a.scaleOut && f.unreachable.contains a.pkg }
      let at_ := (a.port, a.node)
      exec (.podApertureEntryWrite n w0 w1) s = .next (set s fun f => { f with
        apertures := insertD Aperture.reset f.apertures n b
        endpoints := if a.valid && a.scaleOut then
          (at_, Config.endpointPackage s.cur.pkg a.port a.node) :: f.endpoints.filter fun e => e.1 != at_ else f.endpoints }) ∧
      (a.valid = true → lookupD Aperture.reset (insertD Aperture.reset f.apertures n b) n = b)) ∧
    (n = 0 ∨ 62 < n → exec (.podApertureEntryWrite n w0 w1) s = .next s) ∧
    (n < 4096 →
      let g : Group := { parseGroup w0 w1 with valid := (parseGroup w0 w1).valid && natBits w0 3 1 ≤ 4 }
      let put (u : State) : State := set u fun f => { f with groups := insertD Group.reset f.groups n g }
      ((lookupD Group.reset f.groups n).valid = false ∨ g.valid = true → exec (.groupEntryWrite n w0 w1) s = .next (put s)) ∧
      ((lookupD Group.reset f.groups n).valid = true → g.valid = false → s.does (discardRounds n) () s1 →
        exec (.groupEntryWrite n w0 w1) s = .next (put s1) ∧
        ∀ p ∈ s.dev.pkgs, p.1 / 1024 = s.cur.pkg / 1024 → let h := (s1.dev.pkg p.1).fabric
          (∀ c ∈ h.contribs, c.group ≠ n) ∧ (∀ c ∈ h.parts, c.group ≠ n) ∧ ∀ c ∈ h.deliveries, c.group ≠ n)) ∧
    (4096 ≤ n → exec (.groupEntryWrite n w0 w1) s = .next s)

/-- R372, R373: a package's part of a round, its contributions and its children's parts combined, goes to the group's parent, or
the root's result to every member, once every contribution and every child's part is there; until then nothing happens. Where
every link towards the parent is fenced the part waits for new routes (R410, log 110). The
oldest delivery of an element is written, and the round's contributions have performed.
R362, R363: a launch packet is validated as a command of its partition's context; a good one is advised on, starts its launch
and is answered with the residency report, and another is refused by a report.
R327, R328: MIGRATE moves the pages of a mailbox entry and SETRAP marks them, behind an invalidation of their range; an entry
that cannot be served is answered by its done word. R182: a restored strand runs once its parked messages have followed it.
The core of a NaN the round creates is free (log 20); packets of no context are the model's choice (log 65), and so is done
word 4 for large leaves, unreachable peers and pinned pages (log 27); that peers drop their translations of the range is the
model's reading (log 66). -/
def Obligations.FabricEvents : Prop :=
  ∀ (s s1 s2 s3 s4 s5 s6 t : State),
    (∀ group elem : Nat,
      let f := s.pkg.fabric
      let g := lookupD Group.reset f.groups group
      let mine (c : Contribution) : Bool := c.group == group && c.elem == elem && !c.closed
      let ofKid (k : Nat) (p : ChildPart) : Bool := p.group == group && p.elem == elem && p.child == k
      let kids := ((f.parts.filter fun p => p.group == group && p.elem == elem).map (·.child)).eraseDups
      let nan := f32.created (Config.roundCore group elem).toNat 0
      let own := combineRound g.fmt nan (((f.contribs.filter mine).take g.contrib).map fun c => roundOperand g.fmt c.op.at_.opnd)
      let v := (sortKey id kids).foldl
        (fun v k => combineRound g.fmt nan [v, ((f.parts.find? (ofKid k)).map (·.value)).getD 0]) own
      let closed := s.putPkg fun x => { x with fabric := { x.fabric with
        contribs := markFirst mine (fun c => some { c with closed := true }) g.contrib x.fabric.contribs
        parts := kids.foldl (fun ps k => markFirst (ofKid k) (fun _ => none) 1 ps) x.fabric.parts } }
      let ready := g.valid = true ∧ g.contrib ≤ (f.contribs.filter mine).length ∧ kids.length = g.nchild
      (¬ ready → exec (.mcrRound group elem) s = .next s) ∧
      (ready → g.root = false → s.stops (waitForRoute g.parent) .block → exec (.mcrRound group elem) s = .next s) ∧
      (ready → g.root = false → s.does (waitForRoute g.parent) () s →
        let up := peerOf s.cur.pkg g.parent
        let x := closed.dev.pkg up
        exec (.mcrRound group elem) s = .next (closed.on (closed.dev.setPkg up
          { x with fabric := { x.fabric with parts := x.fabric.parts ++ [⟨group, elem, s.cur.pkg % 1024, v⟩] } }))) ∧
      (ready → g.root = true → (s.dev.pkgs.map (·.1)).Pairwise (· < ·) → Goes (exec (.mcrRound group elem) s) fun u =>
        ∀ q, (u.dev.pkg q).fabric.deliveries = (s.dev.pkg q).fabric.deliveries ++
          if (findAt s.dev.pkgs q).isSome && q / 1024 == s.cur.pkg / 1024 &&
            (lookupD Group.reset (s.dev.pkg q).fabric.groups group).valid then [⟨group, elem, v⟩] else []) ∧
      (∀ d, f.deliveries.find? (fun d => d.group == group && d.elem == elem) = some d →
        s.does (slicedWrite g.dom (g.deliv + elem) 4 (roundFinish g.fmt d.value)) () s1 →
        exec (.mcrDeliver group elem) s = .next (s1.putPkg fun x => { x with fabric := { x.fabric with
          deliveries := x.fabric.deliveries.erase d
          contribs := markFirst (fun c : Contribution => c.group == group && c.elem == elem && c.closed) (fun _ => none) g.contrib
            x.fabric.contribs } }))) ∧
    (∀ (sender v advice prio : Nat),
      let part := natBits (bytesAt v 0 8) 37 32
      let b := bytesAt v 0x20 128
      let ctx := s.pkg.ctl.packetCtx part (natBits (bytesAt b 0 8) 26 14)
      (ctx = none → s.does (rackReport (launchOf b 0 0 part) sender (bytesAt v 8 8) (some 4) (pure 0)) () t →
        exec (.rackLaunchPacket sender ⟨v, advice, prio⟩) s = .next t) ∧
      ∀ c x, ctx = some c → findAt s.pkg.ctl.ctxs c = some x →
        (x.evWaiting ≠ [] → exec (.rackLaunchPacket sender ⟨v, advice, prio⟩) s = .next s) ∧
        (x.evWaiting = [] → s.does (modServing part fun k => { k with mode := .s }) () s1 →
          (∀ n, s1.does (validatePacket c part sender v) (.error n) s2 →
            s2.does (refuseRack (launchOf b c 0 part) sender (bytesAt v 8 8) n) () t →
            exec (.rackLaunchPacket sender ⟨v, advice, prio⟩) s = .next t) ∧
          ∀ a, s1.does (validatePacket c part sender v) (.ok a) s2 →
            let heard := s2.putPkg fun y => { y with ctl := { y.ctl with
              rackSeq := setAt y.ctl.rackSeq sender (bytesAt v 8 8) } }
            (heard.does (advise c x a advice prio) () t → exec (.rackLaunchPacket sender ⟨v, advice, prio⟩) s = .next t) ∧
            ∀ idle ready h r id, x.plugin = false → a.rack = some (sender, bytesAt v 8 8) →
              heard.does (idleCores a.launch.part) idle heard → heard.does (readyItems a.launch.part) ready heard →
              heard.does (reportHandle a.launch) h s3 → s3.does (residence a.launch.dom h) r s4 →
              s4.does (acceptLaunch a) id s5 → exec (.rackLaunchPacket sender ⟨v, advice, prio⟩) s =
                .next (s5.putPkg fun y => { y with ctl := { y.ctl with rackReports := y.ctl.rackReports ++
                  [⟨sender, reportBytes (bytesAt v 8 8) id none r.1 r.2 idle ready⟩] } }))) ∧
    (∀ (dom : Nat) (ok : Bool) (m : Mail),
      (s.does (readMail dom) none t → exec (.migrate dom) s = .next t ∧ exec (.setrap dom) s = .next t) ∧
      (s.does (readMail dom) (some (m, ok)) s1 →
        let answered (u : State) (n : Nat) (i : Instr) : Prop := u.does (mailboxDone dom m.doneVa n) () t → exec i s = .next t
        (m.kind = 2 → exec (.migrate dom) s = .next s1) ∧ (m.kind ≠ 2 → exec (.setrap dom) s = .next s1) ∧
        (m.kind ≠ 2 → ok = false → answered s1 2 (.migrate dom)) ∧ (m.kind = 2 → ok = false → answered s1 2 (.setrap dom)) ∧
        (m.kind ≠ 2 → ok = true →
          (s1.does (mailLeaves dom m) none s2 → answered s2 4 (.migrate dom)) ∧
          ∀ ls, s1.does (mailLeaves dom m) (some ls) s2 →
            let free := (s2.pkg.ctl.freeFrames.filter fun f => frameStack f == m.stack).length
            (free < m.pages → answered s2 3 (.migrate dom)) ∧
            (m.pages ≤ free → (s2.does (peerPages ls) none s3 → answered s3 4 (.migrate dom)) ∧
              ∀ far freed, s2.does (peerPages ls) (some far) s3 → let hi := m.va + 4096 * m.pages
                s3.does (startInvalidation m.va hi .plain) () s4 → s4.does (far.mapM (movePage m.stack)) freed s5 →
                s5.does ((freed.filterMap fun f => f.map (·.1)).eraseDups.forM
                  fun p => runHomeAt p 0 0 (invalidateRange m.va hi)) () s6 →
                exec (.migrate dom) s = .next (s6.putPkg fun x => { x with ctl := { x.ctl with jobs := x.ctl.jobs.map fun j =>
                  if j.1 + 1 == x.ctl.nextInval then (j.1, .mailbox dom m.doneVa (freed.filterMap id)) else j } }))) ∧
        (m.kind = 2 → ok = true →
          (s1.does (mailLeaves dom m) none s2 → answered s2 4 (.setrap dom)) ∧
          ∀ ls, s1.does (mailLeaves dom m) (some ls) s2 →
            s2.does (startInvalidation m.va (m.va + 4096 * m.pages) (.mailbox dom m.doneVa [])) () s3 →
            s3.does (ls.forM fun l => writeTable l.2.1 8 (if natBits l.2.2.1 5 5 == 1 then l.2.2.1 else l.2.2.1 + 2 ^ 5)) () t →
            exec (.setrap dom) s = .next t))) ∧
    (s.core.mode ≠ .restored → exec .parkedMessageForward s = .next s) ∧
    (∀ x old, s.core.mode = .restored → s.does (findStrand s.core.strand.toNat) (some x) s → x.savedAt = some old →
      let mine (m : Message) : Bool := m.parked && m.dom == x.dom
      let ms := ((s.pkg.core old).inbox.filter mine).map fun m => { m with parked := false }
      let pend := x.kept.bind (·.pending)
      s.does (do
        modCoreAt s.cur.pkg old fun y => { y with inbox := y.inbox.filter fun m => !mine m }
        modCore fun y => { y with inbox := y.inbox ++ ms }
        setStrand x.va fun y => { y with
          savedAt := none, kept := none, illegal := false, hostStop := false, ending := none
          state := if pend.isSome then .suspInput else .running }) () s1 →
      (∀ q, pend = some q → exec .parkedMessageForward s = .next (s1.put fun y => { y with mode := .resolving q })) ∧
      (∀ cause, pend = none → x.ending = some cause → (s1.put fun y => { y with mode := .running }).does (retireFault cause) () t →
        exec .parkedMessageForward s = .next t) ∧
      (pend = none → x.ending = none →
        (x.illegal = true → (s1.put fun y => { y with mode := .running }).does
          (exceptionOpen .illegal (BitVec.ofNat 64 ((s.core.cur.map (·.handle)).getD 0))) () t →
          exec .parkedMessageForward s = .next t) ∧
        (x.illegal = false → s1.does runOn () s2 → s2.does raiseOwed () t → exec .parkedMessageForward s = .next t)))

/-! ### Service life (R409 to R418) -/

/-- R409 to R418: a sample, a re-plan and a clock step change a die's clock and voltage and nothing else; a bank, a row, a lane or a
quad that fails is fenced or repaired: the pages of a bank's live frames are invalidated, whatever names a live frame names a
free one of its stack, which takes its bytes, its poison and its ownership entry, and then the bank's frames are no longer
free. A replay reissues a recorded launch; a checkpoint keeps all of memory and its restore gives it back, with every counter
raised by 2^32; DEVICE_RESET leaves no partition, strand or line and of the contexts only context 0 as reset leaves it.
The model's choices: the operands of REPLAN and of DEVICE_RESET and the conditions of CHECKPOINT (logs 72, 73 and 74), the
bytes of HBM and context 0 after DEVICE_RESET (log 2; the translation cache's part is empty, log 92), what a replay records of
itself (log 16), and how a bank's fence divides large pages and waits for frames and pins (log 28). -/
def Obligations.ServiceLife : Prop :=
  (∀ (s : State) (n khz row : Nat) (xs : List Nat) (ps : List (Nat × Nat)),
      let d := lookupD Die.reset s.pkg.service.dies n
      let u (e : Die) : State := s.putPkg fun x => { x with service := { x.service with dies := setAt x.service.dies n e } }
      (n < 8 → xs.length = 16 → samplePeriod ≤ s.time - d.sampled →
        exec (.pdmSample n xs) s = .next (u { d with slack := xs, sampled := s.time })) ∧
      (∀ p, n < 8 → d.slackLost = true ∨ (replanPeriod ≤ s.time - d.replanned ∧ s.pkg.dieIdle n = true) → pointsOk ps = true →
        pointAt ps khz = some p → exec (.replan n khz ps) s =
          .next (u { d.hold s.time p with points := ps, planned := d.slack, replanned := s.time })) ∧
      (∀ p, n < 8 → stepPeriod ≤ s.time - d.stepped → adjacentPoint d.points d.khz khz = some p →
        exec (.clockStep n khz) s = .next (u { d.hold s.time p with stepped := s.time })) ∧
      (n < 16 → khz < 256 → (n, khz, row) ∉ s.pkg.service.rows → exec (.hbmRowRepair n khz row) s =
        .next (s.putPkg fun x => { x with service := { x.service with rows := x.service.rows ++ [(n, khz, row)] } })) ∧
      (n < 24 → khz < 8 → (n, khz) ∉ s.pkg.service.lanes → Goes (exec (.linkLaneFence n khz) s) fun t =>
        (n, khz) ∈ t.pkg.service.lanes ∧ t.pkg.home = s.pkg.home ∧ t.pkg.cores = s.pkg.cores ∧
        (n ∈ t.pkg.service.links ↔ n ∈ s.pkg.service.links ∨ 4 < (s.pkg.service.lanesOf n).length + 1)) ∧
      (∀ s0 s1 s2 cs, let q := quadOf s.cur.core
        q < 2048 → s.pkg.service.quads.contains q = false →
        (s.putPkg fun x => { x with service := if x.service.fencing.contains q then x.service
          else { x.service with fencing := x.service.fencing ++ [q] } }).does (freeGangs q) () s0 → s0.does (fenceStops q) cs s1 →
        (if slotsSuffice s1.dev cs then s1.does (cs.forM fun q => atCore q.1 q.2 .A (stopCore false)) () s2 else s2 = s1) →
        (s2.pkg.quadEmpty q = false → exec .quadFence s = .next s2) ∧
        (s2.pkg.quadEmpty q = true → exec .quadFence s = .next (s2.putPkg fun x => { x with service := ({ x.service with
          quads := x.service.quads ++ [q], fencing := x.service.fencing.filter (· != q) } : Service).noteWear }))) ∧
      (n < 16 → khz < 256 → s.pkg.service.banks.contains (n, khz) = false →
        (s.stops (emptyBank n khz) .block → exec (.bankFence n khz) s = .next s) ∧
        ∀ s1, s.does (emptyBank n khz) () s1 → Goes (exec (.bankFence n khz) s) fun t =>
          (n, khz) ∈ t.pkg.service.banks ∧ (∀ f ∈ t.pkg.ctl.freeFrames, inBank n khz f = false) ∧
          t.pkg.home = s1.pkg.home ∧ t.pkg.cores = s1.pkg.cores)) ∧
  (∀ (s s1 s2 s3 s4 s5 s6 : State) (n khz : Nat) (all named : List TableEntry),
      s.does (dividePages n khz) all s1 →
      let live := liveIn n khz s1.pkg.home.troot all
      let pages := all.filter fun e => e.isLeaf && e.level == 1 && live.contains e.frame
      let free := s1.pkg.ctl.freeFrames.filter fun f => frameStack f == n && !inBank n khz f
      let pinned := ∃ e ∈ pages, s1.pkg.fabric.pins e.va (e.va + 4096) = true
      (free.length < live.length ∨ pinned → s.stops (emptyBank n khz) .block) ∧
      (live.length ≤ free.length → ¬ pinned →
        s1.does (pages.forM fun e => startInvalidation e.va (e.va + 4096) .plain) () s2 →
        s2.does ((pages.filter fun e => natBits e.word 2 2 == 1).forM (splitGroup all)) () s3 → s3.does pageTable named s4 →
        s4.does ((live.zip free).forM fun q => renameFrame named q.1 q.2) () s5 →
        s5.does ((live.zip free).forM fun q => moveFrame q.1 q.2) () s6 → s.does (emptyBank n khz) () s6)) ∧
  (∀ (s t : State) (f g : Nat), let h := s.pkg.home
      let k := t.pkg.home
      s.does (moveFrame f g) () t → g ∉ t.pkg.ctl.freeFrames ∧
        (h.hbm.wf → (∀ x ∈ h.tags, x.dirty = false) →
          (h.fotBase + 2 * g + 2 ≤ 4096 * g ∨ 4096 * g + 4096 ≤ h.fotBase + 2 * g) →
          k.hbm.read (4096 * g) 4096 = h.hbm.read (4096 * f) 4096 ∧
          k.hbm.read (h.fotBase + 2 * g) 2 = h.hbm.read (h.fotBase + 2 * f) 2 ∧
          ∀ a, a / 512 = g → (a ∈ k.hbmPois ↔ 512 * f + a % 512 ∈ h.hbmPois))) ∧
  (∀ (s s1 s2 s3 t : State) (n launch : Nat),
      (∀ r same b a id k, s.pkg.service.records.find? (fun r => r.part == n && r.launch == launch && !r.open_) = some r →
        s.does (r.items.mapM fun i => digestHolds r.dom i) same s1 → same.all (fun b => b) = true → r.command = some b →
        s1.does (validateLaunch r.ctx r.ring n b.toNat) (.ok a) s2 → s2.does comingId id s3 →
        (s3.putPkg fun x => { x with service := { x.service with replay := some { part := n, launch := id, items := r.items, all := r.items } } }).does
          (acceptLaunch { a with record := false }) k t → exec (.replayEnter n launch) s = .next t) ∧
      (s.pkg.still = true → s.does (runHome 0 0 writeAllBack) () s3 → Goes (exec .checkpoint s) fun t =>
        t.pkg.service.snapshot = some (s3.pkg.snap s.cur.pkg s3.dev.arcs) ∧ t.pkg.home = s3.pkg.home) ∧
      (∀ m, s.pkg.service.snapshot = some m → s.pkg.still = true → Goes (exec .checkpointRestore s) fun t =>
        t.pkg.home.hbm = m.hbm ∧ t.pkg.home.hbmPois = m.pois ∧ t.pkg.home.tags = [] ∧ t.pkg.home.l1 = [] ∧ t.core.plb = [] ∧
        t.core.a = s.core.a ∧ t.pkg.sched.strands = m.sched.strands ∧ t.pkg.ctl.saves = m.saves ∧
        t.pkg.ctl.ctrBase = (s.pkg.ctl.ctrBase + 2 ^ 32) % 2 ^ 64 ∧ t.pkg.ctl.keys = s.pkg.ctl.keys ∧
        t.pkg.ctl.counters = s.pkg.ctl.counters.map fun c => (c.1, { c.2 with ctr := (c.2.ctr + 2 ^ 32) % 2 ^ 64 })) ∧
      (∀ len image sig, Goes (exec (.deviceReset len image sig) s) fun t =>
        t.pkg.ctl.parts = [] ∧ t.pkg.ctl.ctxs = [(0, HostCtx.reset)] ∧ t.pkg.sched.strands = [] ∧ t.pkg.lines = [] ∧ t.pkg.bankSlots = [] ∧
        t.pkg.cores = [] ∧ t.core = Core.reset ∧ t.pkg.home.hbm = s.pkg.home.hbm.filter (·.1 < transBase) ∧
        t.pkg.service.rr = s.pkg.service.worn ∧ t.pkg.service.started = s.time ∧
        t.pkg.service.ready = firmwareGood len image sig ∧ t.pkg.service.quads = s.pkg.service.quads))

/-! ### The command processors (R329 to R331, R360, R392 to R404) -/

/-- R329 to R331, R390, R392, R393, R399: a doorbell sets a ring's tail and the entries it covers are read; a launch command at the
head of a ring is validated, and accepted with an id of its own, or refused with the reason in an event. A plug-in, which
runs in U mode on its partition's control core, may hold it, release it later, or raise its priority; one that makes an
access its PMP entries do not grant has ended.
A plug-in's advice is free (log 25), and how it is told is the model's (log 97), with what its core's registers and the bytes it
stores hold (log 109); the PF's registers below 0x18 are laid out as CTXCFG's operands by the model's choice (log 26); when
entries are read is the model's reading (log 62). -/
def Obligations.HostCommands : Prop :=
  (∀ (s t : State) (fn off v c n : Nat),
      (∀ o x, s.does (pageOf fn off) (some (c, o)) s → findAt s.pkg.ctl.ctxs c = some x → o % 8 = 0 → o / 8 < x.rings.length →
        (c = 0 → s.pkg.service.ready = true) → v % 2 ^ 12 < 2 ^ x.logn →
        ∀ s1, s.does (modCtx c fun y => { y with rings := y.rings.modify (o / 8) fun r => { r with tail := v % 2 ^ 12 } }) () s1 →
          s1.does (readEntries c (o / 8) (2 ^ x.logn)) () t → exec (.doorbell fn off v) s = .next t) ∧
      (∀ x s1, s.does (modCtx c fun x => { x with evHead := Nat.min x.evTail (x.evHead + n), interrupt := false }) () s1 →
        findAt s1.pkg.ctl.ctxs c = some x → s1.does (writeEvents c (x.evWaiting.length + 1)) () t →
        exec (.eventRingSpace c n) s = .next t) ∧
      (fn = 0 → off < 0x18 → s.does (modCtx 0 fun x => x.pfRegister off v) () t → exec (.registerWrite fn off v) s = .next t)) ∧
  (∀ (ctx ring prio advice : Nat) (i : Nat → Nat → Nat → Nat → Instr) (kinds : Nat → Bool) (s u u1 u2 t : State) (x : HostCtx),
      (i, kinds) ∈ [(Instr.launchStrand, strandKind), (.launchGraph, (· == 1)), (.launchLattice, (· == 2)),
        (.launchArchipelago, (· == 3))] →
      (∀ f, advice < 2 → s.does (nextEntry ctx ring kinds) (some (x, f)) u →
        (∀ a0 id, u.does (validateLaunch ctx ring x.part f.bytes.toNat) (.ok a0) u1 →
          let a : Accepted := { a0 with index := f.index, rack := none }
          (x.plugin = false → u1.does (acceptLaunch a) id t → exec (i ctx ring advice prio) s = .next t) ∧
          (x.plugin = true → u1.does (plugRun ctx x prio) false u2 → u2.does (acceptLaunch a) id t →
            exec (i ctx ring advice prio) s = .next t) ∧
          (x.plugin = true → u1.does (plugRun ctx x prio) true u2 →
            (advice = 0 → u2.does (acceptLaunch (a.raised prio)) id t → exec (i ctx ring advice prio) s = .next t) ∧
            (advice = 1 → exec (i ctx ring advice prio) s =
              .next (u2.putPkg fun y => { y with ctl := { y.ctl with plugHeld := y.ctl.plugHeld ++ [(ctx, a.raised prio)] } })))) ∧
        (∀ n, u.does (validateLaunch ctx ring x.part f.bytes.toNat) (.error n) u1 →
          u1.does (guiltEvent ctx { blankEvent 1 with code := n, ring := f.ring, index := f.index }) () t →
          exec (i ctx ring advice prio) s = .next t)) ∧
      (∀ h id, findAt s.pkg.ctl.ctxs ctx = some x → x.plugin = true → s.does (plugRun ctx x prio) true u →
        (u.pkg.ctl.plugHeld.filter fun h => h.1 == ctx)[advice]? = some h → kinds h.2.launch.kind = true → h.2.rack = none →
        let v := u.putPkg fun y => { y with ctl := { y.ctl with plugHeld := y.ctl.plugHeld.erase h } }
        (v.does (domStopped h.2.launch.dom) false v → v.does (acceptLaunch (h.2.raised prio)) id t →
          exec (i ctx ring (advice + 2) prio) s = .next t) ∧
        (v.does (domStopped h.2.launch.dom) true v →
          v.does (guiltEvent h.2.launch.ctx { blankEvent 1 with code := 11, ring := h.2.launch.ring, index := h.2.index }) () t →
          exec (i ctx ring (advice + 2) prio) s = .next t)) ∧
      (let k : CtlCore := { CtlCore.reset with mode := .u, pmp := x.pmp ctx }
       let core := x.part % 32
       let at_ := (prio - 64) / 2
       let off := at_ - (Config.pluginRegion ctx).toNat
       let byte := (Config.pluginByte core (s.pkg.ctl.cores.getD core CtlCore.reset).runs off).toNat
       let served := s.putPkg fun y => { y with ctl := { y.ctl with cores := y.ctl.cores.modify core fun c =>
         { c.ran core with mode := .s, pmp := x.pmp ctx } } }
       (prio < 64 ∨ (k.grants false at_ = true ∧ prio % 2 = 0) → s.does (plugRun ctx x prio) true served) ∧
       (64 ≤ prio → prio % 2 = 1 → k.grants true at_ = true →
          served.does (modCtx ctx fun y => { y with pluginMem := y.pluginMem.write off 1 byte }) () u →
          s.does (plugRun ctx x prio) true u) ∧
       (64 ≤ prio → k.grants (prio % 2 == 1) ((prio - 64) / 2) = false →
          served.does (modCtx ctx fun y => { y with plugin := false }) () u → u.does (addGuilt ctx) () t →
          s.does (plugRun ctx x prio) false t)))

/-- R307, R310, R318, R360, R394 to R400, R403, R404, R407: a control command at the head of its ring that passes its checks
performs, and its event of KIND 6 follows. A fault's answer makes its strand READY, with the fault owed where it was refused; a
deferred operation's replays it, or drops it.
The event of KIND 6 and refusal 12 are the model's reading (log 62), and so are PLBSHOOT in one step (log 64), what RESTORE does
for a whole gang (log 63), where a refused fault is raised (log 45), and that DOMFREE leaves the domain's trust list (log 69);
that DOMFREE, and DOMCFG with another queue, drop the domain's open deferred operations is the model's choice (log 100). -/
def Obligations.ControlCommands : Prop :=
  ∀ (ctx ring : Nat) (s u u1 u2 u3 u4 t : State) (x : HostCtx) (f : Fetched),
    let b := f.bytes.toNat
    let w := cmdWord b
    let head (kind : Nat) (named : List (Nat × Nat)) : Prop :=
      s.does (nextEntry ctx ring (· == kind)) (some (x, f)) u ∧ cmdReserved b named = false
    let ends (v : State) (arg : Nat) : Prop :=
      v.does (postEvent ctx { blankEvent 6 with ring := f.ring, index := f.index, arg := BitVec.ofNat 64 arg }) () t
    (∀ p, head 0x80 ((List.range 9).map fun k => (k + 1, 64)) → ctx = 0 → w 1 ≤ 63 → parsePart (fun k => w (k + 2)) = some p →
      natBits (w 2) 0 0 = 1 → u.does (systemOwned p.saveVa (saveBytes * p.saveN)) true u1 →
      (∀ q ∈ u.pkg.ctl.parts, q.1 = w 1 ∨ p.clashes q.2 = false) → (u.pkg.ctl.domsOf (w 1)).any u.pkg.sched.liveIn = false →
      (∀ l ∈ u.pkg.sched.launches, l.part ≠ w 1) →
      ends ((u1.putPkg fun y => { y with ctl := { y.ctl with parts := setAt y.ctl.parts (w 1) p } }).putPkg fun y =>
        { y with home := { y.home with quotas := (List.range 512).foldl (fun qs s =>
          insertD Quota.reset qs (64 * s + w 1) (p.quotaIn s)) y.home.quotas } }) 0 →
      exec (.partcfg ctx ring) s = .next t) ∧
    (∀ c, head 0x81 [(1, 34), (2, 64), (3, 64)] → ctx = 0 → c = natBits (w 1) 7 0 → 0 < c → 0 < natBits (w 1) 21 14 →
      4 ≤ natBits (w 1) 29 26 → natBits (w 1) 29 26 ≤ 12 → 4 ≤ natBits (w 1) 33 30 → natBits (w 1) 33 30 ≤ 12 →
      (findAt u.pkg.ctl.parts (natBits (w 1) 13 8)).isSome →
      u.does (systemOwned (w 2) ((natBits (w 1) 25 22 + 1) * 128 * 2 ^ natBits (w 1) 29 26)) true u1 →
      u1.does (systemOwned (w 3) (32 * 2 ^ natBits (w 1) 33 30)) true u2 →
      u.pkg.sched.inFlight c = false → let old := (findAt u.pkg.ctl.ctxs c).getD HostCtx.reset
      ends (u2.putPkg fun y => { y with ctl := { y.ctl with ctxs := setAt y.ctl.ctxs c { HostCtx.reset with
        part := natBits (w 1) 13 8, limit := natBits (w 1) 21 14, logn := natBits (w 1) 29 26, loge := natBits (w 1) 33 30
        ringVa := w 2, evVa := w 3, rings := List.replicate (natBits (w 1) 25 22 + 1) { tail := 0, head := 0 }
        guilt := old.guilt, barred := old.barred, plugin := Config.hasPlugin c } } }) 0 →
      exec (.ctxcfg ctx ring) s = .next t) ∧
    (head 0x82 [(1, 64)] → ctx = 0 → (findAt u.pkg.ctl.ctxs (w 1)).isSome →
      u.does (modCtx (w 1) fun y => { y with guilt := 0, barred := false, rings := y.rings.map fun r => { r with head := r.tail }, fetched := if w 1 == ctx then y.fetched else [] }) () u1 →
      ends u1 0 → exec (.ctxreset ctx ring) s = .next t) ∧
    (∀ e, head 0x83 ((1, 19) :: (List.range 9).map fun k => (k + 2, 64)) →
      (∀ d, findAt u.pkg.ctl.doms (natBits (w 1) 12 0) = some d → d.ctx = ctx) → natBits (w 1) 18 13 ≤ 47 →
      w 2 % 16 = 0 → w 2 < windowBase → w 3 ≤ 2 ^ 20 → w 4 % 64 = 0 → w 6 % 32 = 0 → 64 ≤ w 7 → w 7 ≤ 65536 →
      2 ^ (w 7).log2 = w 7 → w 8 % 64 = 0 → w 9 < 2 ^ 57 → w 9 % 4096 = 0 → w 10 < 2 ^ 20 →
      u.pkg.sched.liveIn (natBits (w 1) 12 0) = false →
      let used := match findAt u.pkg.ctl.doms (natBits (w 1) 12 0) with
        | some d => if d.pool.va == w 4 then d.pool.used.filter (· < w 5) else []
        | none => []
      e = (⟨ctx, natBits (w 1) 18 13, w 2, w 3, BitVec.ofNat 64 (w 9), BitVec.ofNat 64 (w 10), ⟨w 4, w 5, used⟩, w 8, false⟩ : DomEntry) →
      let bound := u.putPkg fun y => { y with ctl := { y.ctl with doms := setAt y.ctl.doms (natBits (w 1) 12 0) e } }
      let q := lookupD DefRing.reset u.pkg.home.defRings (natBits (w 1) 12 0)
      (q.base = w 6 → q.len = w 7 → ends bound 0 → exec (.domcfg ctx ring) s = .next t) ∧
      (q.base ≠ w 6 ∨ q.len ≠ w 7 →
        bound.does (dropOpen (natBits (w 1) 12 0) { base := w 6, len := w 7, tail := 0, head := 0, open_ := [] }) () u1 →
        ends u1 0 → exec (.domcfg ctx ring) s = .next t)) ∧
    (∀ dom q, u.does (dropOpen dom q) () u1 → (∀ e ∈ u1.pkg.home.overflow, ∀ d ∈ e.2, d.dom ≠ dom) ∧
      (q ≠ DefRing.reset → lookupD DefRing.reset u1.pkg.home.defRings dom = q)) ∧
    (∀ d, head 0x84 [(1, 64)] → findAt u.pkg.ctl.doms (w 1) = some d → d.ctx = ctx → u.pkg.sched.liveIn (w 1) = false →
      u.does (dropOpen (w 1) DefRing.reset) () u1 →
      ends ((u1.putPkg fun y => { y with ctl := { y.ctl with
        doms := dropAt y.ctl.doms (w 1), keys := y.ctl.keys.filter fun s => s.2.dom != w 1 } }).putPkg fun y =>
        { y with bankSlots := y.bankSlots.filter fun s => s.2.owner != w 1 }) 0 →
      exec (.domfree ctx ring) s = .next t) ∧
    (head 0x85 [(1, 17), (2, 64), (3, 64), (4, 64), (5, 64)] → ctx ≠ 0 → u.does (ctxOfDom (natBits (w 1) 12 0)) (some ctx) u →
      ends (u.putPkg fun y => { y with ctl :=
        let rest := y.ctl.trust.filter fun t => t.1 != (natBits (w 1) 12 0, natBits (w 1) 15 13)
        { y.ctl with trust := if natBits (w 1) 16 16 == 1 then rest
          else ((natBits (w 1) 12 0, natBits (w 1) 15 13), cmdKey b) :: rest } }) 0 →
      exec (.trust ctx ring) s = .next t) ∧
    (head 0x8C [(1, 22), (2, 64), (3, 64), (4, 64), (5, 64)] → ctx = 0 → natBits (w 1) 21 21 = 0 →
      (∀ q ∈ u.pkg.ctl.keys, q.1 = natBits (w 1) 7 0 ∨ q.2.valid = false ∨ q.2.dom ≠ natBits (w 1) 20 8) →
      let e : KeySlot := { key := cmdKey b, dom := natBits (w 1) 20 8, valid := true }
      ends (u.putPkg fun y => { y with ctl := { y.ctl with keys := setAt y.ctl.keys (natBits (w 1) 7 0) e } }) 0 →
      exec (.keyset ctx ring) s = .next t) ∧
    (head 0x8C [(1, 22), (2, 64), (3, 64), (4, 64), (5, 64)] → ctx = 0 → natBits (w 1) 21 21 = 1 →
      ends (u.putPkg fun y => { y with ctl := { y.ctl with keys := y.ctl.keys.filter fun q => q.1 != natBits (w 1) 7 0 } }) 0 →
      exec (.keyset ctx ring) s = .next t) ∧
    (∀ foreign, head 0x86 [(1, 64), (2, 64)] → ctx ≠ 0 → w 1 % 4096 = 0 → w 2 ≠ 0 → w 2 ≤ 2 ^ 32 → let hi := w 1 + 4096 * w 2
      hi ≤ windowBase → u.does (foreignLeaf (u.pkg.ctl.domsOf x.part) hi (w 2) (w 1)) foreign u1 →
      (foreign = false → u1.pkg.fabric.pins (w 1) hi = false →
        u1.does (startInvalidation (w 1) hi (.command ctx f.ring f.index)) () t → exec (.rangeinv ctx ring) s = .next t) ∧
      (foreign = true ∨ u1.pkg.fabric.pins (w 1) hi = true → u1.does (refuse ctx f 13) () t →
        exec (.rangeinv ctx ring) s = .next t)) ∧
    (∀ mine fuel lo hi l, lo < hi → u.does (leafAt lo) l u1 →
      let foreign := match l with
        | some (_, e, _) => !mine.contains (natBits e 25 13)
        | none => false
      (foreign = true ∨ hi ≤ lo + 4096 → u.does (foreignLeaf mine hi (fuel + 1) lo) foreign u1) ∧
      ∀ next b, foreign = false → lo + 4096 < hi → u1.does (nextSpan lo) next u2 → u2.does (foreignLeaf mine hi fuel next) b t →
        u.does (foreignLeaf mine hi (fuel + 1) lo) b t) ∧
    (head 0x87 [(1, 64), (2, 64)] → ctx ≠ 0 → w 1 % 4096 = 0 → w 2 % 4096 = 0 →
      ends (u.putPkg fun y => { y with cores := y.cores.map fun c => if u.pkg.ctl.partOf c.1 == some x.part then
        (c.1, { c.2 with plb := c.2.plb.filter fun e => !(w 2 == 0 || overlaps (w 1) (w 1 + w 2) e.base (e.base + e.bytes)) })
        else c }) 0 →
      exec (.plbshoot ctx ring) s = .next t) ∧
    (∀ r, head 0x88 [(1, 33)] → ctx ≠ 0 → u.pkg.ctl.reports.find? (fun r => r.id == natBits (w 1) 31 0) = some r →
      u.does (ctxOfDom r.dom) (some ctx) u →
      u1 = (u.putPkg fun y => { y with ctl := { y.ctl with reports := y.ctl.reports.filter fun r => r.id != natBits (w 1) 31 0 } }) →
      let refused := natBits (w 1) 32 32 == 1
      let entry (i : Nat) := (lookupD DefRing.reset u1.pkg.home.defRings r.dom).open_.find? fun e => e.1 == i
      (∀ va c str st, r.who = .strand va c str → u1.does (findStrand va) (some st) u1 → st.state.ended = false →
        u1.does (answerStrand st r str refused) () u2 → ends u2 0 → exec (.faultres ctx ring) s = .next t) ∧
      (∀ i, r.who = .deferred i → refused = false → u1.does (replayDeferred r.dom i) () u2 → ends u2 0 →
        exec (.faultres ctx ring) s = .next t) ∧
      (∀ i e, r.who = .deferred i → refused = true → entry i = some e → u1.does (dropDeferred e.2) () u2 →
        u2.does (closeDeferred r.dom i) () u3 → ends u3 0 → exec (.faultres ctx ring) s = .next t)) ∧
    (∀ r str refused st q, st.onCore = some q → let here := (u.pkg.core q).mode
      let told (o : Strand) : Strand :=
        { o with owed := o.owed ++ (if refused then [⟨r.cause, r.ea, str⟩] else []), state := .ready }
      (∀ p, here = .resolving p → u.does (setStrand st.va told) () t → u.does (answerStrand st r str refused) () t) ∧
      (∀ p, here = .stopped (some p) → u.does (modCoreAt u.cur.pkg q fun c => { c with mode := .stopped none }) () u1 →
        u1.does (setStrand st.va told) () t → u.does (answerStrand st r str refused) () t)) ∧
    (∀ dom i e part, (lookupD DefRing.reset u.pkg.home.defRings dom).open_.find? (fun e => e.1 == i) = some e →
      u.does (partOfDom dom) part u →
      let p (m : Bool) : Posted := ⟨0, u.cur.pkg, e.2.core, dom, part.getD 0, e.2.launch, e.2.lpkg, m, some i, e.2.at_⟩
      (∀ m, u.does (checkRightsFresh needWA dom e.2.at_.va) m u1 → u.does (replayDeferred dom i) () (u1.putPkg fun y =>
        { y with home := { y.home with accepted := y.home.accepted ++ [p m] } })) ∧
      ∀ c ea, u.stops (checkRightsFresh needWA dom e.2.at_.va) (.raise c ea) → u.does (defer (p false) c) () u1 →
        u1.does (closeDeferred dom i) () t → u.does (replayDeferred dom i) () t) ∧
    (head 0x89 [(1, 4)] → ctx ≠ 0 →
      u.does ((u.pkg.sched.launches.filter fun l => l.ctx == ctx && l.ring == w 1).forM fun l => tearLaunch l.id) () u1 →
      u1.does (tearHeld ctx (w 1)) () u2 → ends u2 0 → exec (.teardown ctx ring) s = .next t) ∧
    (∀ l, head 0x8A [(1, 32)] → ctx ≠ 0 → u.does (findLaunch (w 1)) (some l) u → l.ctx = ctx →
      let all := u.dev.launchCores s.cur.pkg (w 1)
      let cs := all.filter fun q => ((u.dev.pkg q.1).core q.2).stoppable
      (∀ q ∈ all, ((u.dev.pkg q.1).core q.2).mode = .idle →
        ∀ o ∈ (u.dev.pkg q.1).sched.strands, o.onCore = some q.2 → o.state ≠ .running) → slotsSuffice u.dev cs = true →
      u.does (cs.forM fun q => atCore q.1 q.2 .A (stopCore true)) () u1 →
      let stopped := all.filter fun q => ((u1.dev.pkg q.1).core q.2).stopping
      let left := stopped.map fun q => (q.1, ((u1.dev.pkg q.1).core q.2).strand.toNat)
      u1.does (stopped.forM fun q => modCoreAt q.1 q.2 fun c => { c with byHost := true }) () u2 →
      (left = [] → ends u2 (w 1) → exec (.preempt ctx ring) s = .next t) ∧
      (left ≠ [] → exec (.preempt ctx ring) s = .next (u2.putPkg fun y => { y with ctl := { y.ctl with
        preempts := y.ctl.preempts ++ [⟨ctx, f.ring, f.index, w 1, left⟩] } }))) ∧
    (∀ st h v plan bad, head 0x8B [(1, 64)] → ctx ≠ 0 → w 1 % 64 = 0 → u.does (checkImage true (w 1)) (.ok (st, h, v)) u1 →
      u1.does (ctxOfDom st.dom) (some ctx) u1 → u1.does (partOfCore s.cur.core) (some x.part) u1 → st.onCore = none →
      u1.does (refuseRecords ((u1.dev.gangOf s.cur.pkg st).filterMap fun q =>
        if q.2.savedAt.isNone then some (q.1, 0, q.2) else none)) bad u4 →
      u2 = u4.on { u4.dev with pkgs := u4.dev.pkgs.map fun k => (k.1, { k.2 with sched := { k.2.sched with
        strands := k.2.sched.strands.map fun o =>
          if ((u4.dev.gangOf s.cur.pkg st).map fun q => (q.1, q.2.va)).contains (k.1, o.va) then { o with hostStop := false } else o } }) } →
      u2.dev.planFor s.time s.cur.pkg s.cur.core st = some plan →
      u2.does (restoreGang st h v (plan.map fun q => (q.1, q.2.1, { q.2.2 with hostStop := false }))) none u3 →
      ends u3 (w 1) → exec (.restore ctx ring) s = .next t)


/-- R28, R29, R344 to R359: nodes of a graph finish and are evaluated, bands are opened and reconstructed, a tree's node forwards
its combined status, and the record is written once every part is in, its first dword last.
That a launch leaves its scheduler's list once its record is written is the model's reading (log 68). -/
def Obligations.LaunchEvents : Prop :=
  ∀ (s u u1 u2 t : State) (id n : Nat),
    (∀ x y z : Nat, combineStatus x y = combineStatus y x ∧ combineStatus (combineStatus x y) z = combineStatus x (combineStatus y z)) ∧
    (∀ x, s.pkg.sched.strands.find? (fun s => s.launch == id && s.node == some n && s.state.ended) = some x →
      (s.putPkg fun y => { y with sched := { y.sched with strands := y.sched.strands.map fun o =>
        if o.va == x.va then { o with node := none } else o } }).does (setGraph id fun ns g => gStrandEnd ns n g) () t →
      exec (.graphNodeFinish id n) s = .next t) ∧
    (∀ w, s.does (readControl id n (fun k => k == 1 || k == 3)) (some w) u →
      u.does (setGraph id fun ns g => gControl ns n w g) () t → exec (.controlNodeEval id n) s = .next t) ∧
    (∀ w l ns g, s.does (readControl id n (· == 2)) (some w) u → u.does (findLaunch id) (some l) u → l.graph = some (ns, g) →
      (if (gLoop ns n w g).2 then u.does (contribute s.cur.pkg id none statusLoopCap) () u1 else u1 = u) →
      u1.does (setGraph id fun ns g => (gLoop ns n w g).1) () t → exec (.loopNodeEval id n) s = .next t) ∧
    (s.does (setLaunch id Launch.openBand) () u → u.does (pumpLaunch id) () t → exec (.bandStart id) s = .next t) ∧
    (∀ l w c errs, s.does (findLaunch id) (some l) s → l.walk = some w → w.cov = some c → l.torn = false → w.bandOpen = true →
      l.toCreate = [] → s.dev.launchEnded s.cur.pkg id = true →
      s.dev.launchWrites s.cur.pkg id = false →
      s.does ((c.skipped w.rung w.nx w.ny w.bandh w.next).mapM fun q => reconstructPoint id l.dom w c q.1.1 q.1.2 q.2) errs u →
      let e := c.bandError (errs.filterMap fun x => x)
      u.does (setLaunch id fun l => { l with walk := some (w.closeBand c e), maxErr := Nat.max l.maxErr e }) () t →
      exec (.bandReconstruct id) s = .next t) ∧
    (∀ l i node, s.does (findLaunch id) (some l) s → l.tree.findIdx? (fun q => q.core == n) = some i → l.tree[i]? = some node →
      i ≠ 0 → node.forwarded = false → s.dev.treeFixed s.cur.pkg l = true → s.dev.slotEnded s.cur.pkg id n = true →
      l.childrenDone i = true →
      let up (q : TreeNode × Nat) : TreeNode := if q.2 == (i - 1) / 4 then { q.1 with
          word := combineStatus q.1.word node.word, maxErr := Nat.max q.1.maxErr node.maxErr, heard := q.1.heard ++ [n] }
        else if q.2 == i then { q.1 with forwarded := true } else q.1
      s.does (setLaunch id fun l => { l with tree := l.tree.zipIdx.map up }) () u → u.does (returnRecords id (some n)) () t →
      exec (.completionForward id n) s = .next t) ∧
    (∀ l, s.does (findLaunch id) (some l) s → s.dev.treeFixed s.cur.pkg l = true → s.dev.launchEnded s.cur.pkg id = true →
      (l.tree.drop 1).all (·.forwarded) = true → s.dev.launchOutstanding s.cur.pkg id = false → l.arc = none →
      let r := recordBytes l ((s.time - s.pkg.service.started) % 2 ^ 64)
      s.does (sysWrite (l.complVa + 8) 56 (r / 2 ^ 64)) () u →
      u.does (sysWrite l.complVa 8 (r % 2 ^ 64)) () u1 → u1.does (returnRecords id none) () u2 →
      exec (.completionRecordWrite id) s = .next ((u2.putPkg fun y => { y with sched := { y.sched with
        launches := y.sched.launches.filter fun l => l.id != id, written := y.sched.written ++ [(id, l.complVa)] } }).putPkg fun y =>
          { y with service := y.service.launchOver id }))

/-! ### The schedulers (R23, R149 to R154, R179, R334 to R341, R402 to R404) -/

/-- R21, R23, R334 to R341: an idle core takes the first item it can take, unless the record of one of its strands is bad, and its
dock loop enters the strand; a core whose strand waited in place and is READY takes that one; levels fall with age; the inputs of
a strand are copied in, and it starts once they are there; a source outside translated memory ends it with APERTURE (R270).
Which core takes an item and what registers hold are free (logs 22 and 23); copy-ins follow log 59; what a bad record's
strand ends with is free (log 86). -/
def Obligations.SchedulerEvents : Prop :=
  ∀ (s u u1 u2 t : State),
    (∀ x, s.pkg.sched.strands.find? (fun q => q.va == s.core.strand.toNat && q.onCore == some s.cur.core && q.state == .ready) =
        some x →
      (∀ p, s.core.mode = .resolving p → s.does runAgain () u → u.does runOn () u1 → u1.does raiseOwed () t →
        exec .strandDispatch s = .next t) ∧
      ∀ h land r, s.core.mode = .fetching h land → s.pkg.sched.endedFor s.cur.core s.core.strand.toNat = some r →
        s.does (dropRequests s.core.strand.toNat) () u →
        (∀ k, r.found = some k → s.core.store.contains k = true → u.does (goOn k h land) () t → exec .strandDispatch s = .next t) ∧
        (r.found = none → u.does (goWithout h land) () t → exec .strandDispatch s = .next t)) ∧
    (∀ part x plan, s.does takeInPlace false s → s.does (priorityAgeing) () u → u.does (partOfCore s.cur.core) (some part) u →
      u.does (chooseItem part) (some (x, plan)) u1 →
      let lv := u2.pkg.ctl.level x
      let last (y : Sched) : Sched :=
        { y with lastStarted := ((part, lv), x.dom) :: y.lastStarted.filter fun q => q.1 != (part, lv) }
      (u1.does (refuseRecords plan) true t → exec .strandDispatch s = .next t) ∧
      (u1.does (refuseRecords plan) false u2 → (u2.putPkg fun y => { y with sched := last y.sched }).does (carryOut plan) () t →
        exec .strandDispatch s = .next t)) ∧
    (∀ (q : Nat × Nat × Strand) (v : Nat), q.2.2.waits = true → s.does (atCore q.1 q.2.1 .A (sysRead q.2.2.va 64)) (.ok v) u →
      (recordBad v = false → s.does (refuseRecords [q]) false u) ∧
      (recordBad v = true → u.does (atCore q.1 q.2.1 .A (endAway q.2.2 Config.badRecordCause.toNat 0 false)) () t →
        s.does (refuseRecords [q]) true t)) ∧
    (Goes (exec .priorityAgeing s) fun v => v.pkg.sched = s.pkg.sched.age s.pkg.ctl s.time (48 * s.pkg.sched.strands.length) ∧
      v.pkg.cores = s.pkg.cores ∧ v.pkg.home = s.pkg.home) ∧
    (∀ m x e, s.core.mode = .idle → s.core.inbox.find? (fun m => m.ch == 0 && m.sender == systemSender) = some m →
      s.pkg.sched.strands.find? (fun q => q.onCore == some s.cur.core && q.state == .running) = some x →
      s.pkg.sched.uninstalled x.va = false → findAt s.pkg.ctl.doms x.dom = some e →
      (s.put fun c => { c with inbox := c.inbox.erase m }).does (dockStrand x e) () t → exec .dockEnter s = .next t) ∧
    (∀ x ds ids, s.pkg.sched.strands.find? (fun q =>
        q.onCore == some s.cur.core && q.state == .suspInput && !q.started && q.bound.isNone) = some x → x.indecl.toNat % 32 = 0 →
      s.does (readDecls x 4 0) (.ok ds) u → hullsBad ds = false →
      (ds.any CopyIn.astray = true → u.does (inputFailed x Cause.aperture.code) () t → exec .copyIn s = .next t) ∧
      (ds.any CopyIn.astray = false → u.does (ds.mapM fun _ => nextSerial) ids u1 →
      let word (n : Nat) : Word := BitVec.ofNat 64 n
      let cmds : List Command := (ids.zip ds).map fun q =>
        ⟨q.1, .copy, 0x73, none, x.dom, [word (scratchBase + q.2.dst), word q.2.src] ++ q.2.words⟩
      (u1.put fun c => { c with cmds := c.cmds ++ cmds }).does
        (setStrand x.va fun o => { o with bound := some s.cur.core, copyIns := ids }) () t →
      exec .copyIn s = .next t)) ∧
    (∀ x y, s.pkg.sched.strands.find? (fun q => q.onCore == some s.cur.core && q.state == .suspInput && !q.started &&
        q.bound == some s.cur.core && q.copyIns.isEmpty) = some x → s.does (strandTorn x) false s → x.copyBad = none →
      s.does (setStrand x.va fun o => { o with
        state := .running, bound := if o.gang || o.gangId.isSome then some s.cur.core else none }) () u →
      u.does (findStrand x.va) (some y) u → u.does (deliver s.cur.core y) () t → exec .copyInComplete s = .next t)

/-- R149 to R154, R179, R332, R402, R403: a search goes through its stages, a neighbour that does not answer is skipped, and fetched
code is installed, its strand READY; a slice's end stops cores, a drain that takes too long ends its commands with WATCHDOG, and a
drained context is sealed.
That commands drain before a seal is the model's reading (log 56). -/
def Obligations.CoreChanges : Prop :=
  ∀ (s u u1 t : State),
    (∀ q rs keep nb, s.does coreSearch (some q) s → s.does (judgeEach q q.reqs []) rs u →
      u.does (rs.mapM settleRequester) keep u1 → u1.does (neighbours q.core) nb u1 →
      u1.does (setSearch q.die q.digest fun _ => { q.advance nb.length with reqs := ((rs.zip keep).filter (·.2)).map (·.1) }) () t →
      exec .codeFetchStage s = .next t) ∧
    (∀ q nb, s.does coreSearch (some q) s → q.stage = 3 → s.does (neighbours q.core) nb s →
      s.does (setSearch q.die q.digest fun _ => { q.advance nb.length with
        reqs := q.reqs.map fun x => { x with seen := Nat.max x.seen (stageRank q.stage q.neighbour) } }) () t →
      exec .neighbourTimeout s = .next t) ∧
    (∀ h land r x, s.core.mode = .fetching h land → s.pkg.sched.endedFor s.cur.core s.core.strand.toNat = some r →
      s.does (findStrand s.core.strand.toNat) (some x) s → x.savedAt = none →
      let ready := setStrand s.core.strand.toNat fun o => { o with state := .ready }
      (x.state ≠ .suspCode → exec .codeInstall s = .next s) ∧
      (∀ k, x.state = .suspCode → r.found = some k → (s.put fun c => c.install k).does ready () t →
        exec .codeInstall s = .next t) ∧
      (x.state = .suspCode → r.found = none → s.does ready () t → exec .codeInstall s = .next t)) ∧
    (∀ part p x cs, s.does thePart part s → findAt s.pkg.ctl.parts part = some p →
      s.does (findStrand s.core.strand.toNat) (some x) s → s.core.stoppable = true → p.sliceTime ≤ s.time - s.core.sliceStart →
      s.does (gangEntering x) false s → s.does (stopTogether x) cs u →
      (slotsSuffice u.dev cs = true → u.does (cs.forM fun q => atCore q.1 q.2 .A (stopCore false)) () t →
        exec .sliceEnd s = .next t) ∧
      (slotsSuffice u.dev cs = false → exec .sliceEnd s = .next (u.put fun c => { c with sliceStart := s.time }))) ∧
    (∀ q t0 x, s.core.mode = .stopped q → findAt s.pkg.ctl.drains s.cur.core = some t0 → drainLimit ≤ s.time - t0 →
      s.core.cmds ≠ [] → s.does (s.core.cmds.forM fun k => commandDone k.serial (statusWord .watchdog 0)) () u →
      let u2 := u.putPkg fun y => { y with fabric := { y.fabric with
        messages := y.fabric.messages.filter fun m => m.core != s.cur.core } }
      u2.does (ctxOfDom s.core.dom.toNat) (some x) u2 → u2.does (addGuilt x) () t → exec .drainWatchdog s = .next t) ∧
    (∀ q x sts, s.core.mode = .stopped q → s.does (findStrand s.core.strand.toNat) (some x) s → s.core.cmds = [] →
      ownPosted s.dev s.cur.pkg s.cur.core = [] → s.does gangBusy false s → s.does performReleased () u →
      u.does (s.core.tokens.mapM fun t => do return (t.1, ← tokenStatus t.2)) sts u1 → (∀ z ∈ sts, z.2 ≠ none) →
      u1.does (strandTorn x) false u1 →
      u1.does (sealStrand x q (sts.filterMap fun z => z.2.map fun st => (z.1, st))) () t → exec .imageSeal s = .next t)

/-! ### Frames -/

/-- What the instructions of registers leave unchanged. A scalar one changes its destination register and its stream's
position, a comparison its predicate, a vector one VD and the flags it raises; every other register, queue, flag, CSR and
every byte of memory and scratchpad reads as before, and nothing outside the core changes. -/
def Obligations.RegisterFrames : Prop :=
  ∀ (s : State) (d a b : BitVec 5) (vd va vb : BitVec 6) (t : BitVec 3),
    (∀ i : Instr, ((∃ op ∈ twoSourceOps, i = op.1 d a b) ∨ (∃ op ∈ oneSourceOps, i = op.1 d a) ∨
        (∃ op ∈ immediateOps, ∃ n, i = op.1 d a n) ∨ (∃ op ∈ shiftOps, ∃ n, i = op.1 d a n) ∨ (∃ n, i = .lui d n)) →
      plain d → plain a → plain b → s.ready i → s.straight .seq → Goes (exec i s) fun u => Elsewhere s u ∧
        u.core = { s.core with a := u.core.a, s := u.core.s, strA := u.core.strA, strX := u.core.strX } ∧
        (u.core.str s.cur.stream.other) = s.core.str s.cur.stream.other ∧
        (s.cur.stream = .A → u.core.s = s.core.s) ∧ (s.cur.stream = .X → u.core.a = s.core.a) ∧
        ∀ n, n ≠ d.toNat → u.reg n = s.reg n) ∧
    (∀ (p c : BitVec 3), plain a → plain b → s.ready (.cmp p c a b) → s.straight .seq →
      Goes (exec (.cmp p c a b) s) fun u => Elsewhere s u ∧
        u.core = { s.core with pa := u.core.pa, px := u.core.px, strA := u.core.strA, strX := u.core.strX } ∧
        ∀ q : BitVec 3, q ≠ p → u.core.pa.getLsbD q.toNat = s.core.pa.getLsbD q.toNat ∧
          u.core.px.getLsbD q.toNat = s.core.px.getLsbD q.toNat) ∧
    (∀ i : Instr, ((∃ op ∈ vectorTwoOps, i = op.1 vd va vb t) ∨ (∃ op ∈ vectorOneOps, i = op.1 vd va t) ∨
        (∃ op ∈ vectorThreeOps, i = op.1 vd va vb t) ∨ (∃ op ∈ vectorCountOps, ∃ n, i = op.1 vd va n t)) →
      s.ready i → s.straight .seq → Goes (exec i s) fun u => Elsewhere s u ∧
        u.core = { s.core with v := u.core.v, fflags := u.core.fflags, strA := u.core.strA, strX := u.core.strX } ∧
        u.core.fflags ||| s.core.fflags = u.core.fflags ∧ ∀ n, n ≠ vd → u.vreg n = s.vreg n)

/-- What the loads and stores of the own scratchpad do from registers: the address is RA plus the displacement; a store puts
its bytes there, every other byte of the scratchpad and every byte of memory reads as before; a load changes its
destination register alone, and with destination 31 nothing. -/
def Obligations.ScratchUnits : Prop :=
  ∀ (s : State) (r a : BitVec 5) (n j : Nat) (st : BitVec 5 → BitVec 5 → BitVec 10 → BitVec 4 → Instr) (sz : BitVec 2)
    (z : BitVec 1), (n, sz, st) ∈ [(1, 0#2, Instr.stb), (2, 1#2, .sth), (4, 2#2, .stw), (8, 3#2, .std)] →
    plain r → plain a → s.cur.stream = .A → s.straight .seq →
    (∀ (i : BitVec 10) (g : BitVec 4), let ea := s.operand a + i.signExtend 64
      s.ready (st r a i g) → s.does (guardHolds g) true s → space ea.toNat = .scratch j → ea.toNat % n = 0 →
      s.core.locked ea.toNat n = false → Goes (exec (st r a i g) s) fun u => Elsewhere s u ∧
        u.core = { s.core with scratch := u.core.scratch, scratchPois := u.core.scratchPois, touched := u.core.touched, strA := u.core.strA } ∧
        u.core.scratch.read j n = (s.operand r).toNat % 2 ^ (8 * n) ∧
        ∀ x, x < j ∨ j + n ≤ x → u.core.scratch.read x 1 = s.core.scratch.read x 1) ∧
    (∀ (i : BitVec 10) (g : BitVec 4), s.ready (st r a i g) → s.does (guardHolds g) false s →
      exec (st r a i g) s = .next (s.past .seq)) ∧
    (∀ i : BitVec 11, let ea := s.operand a + i.signExtend 64
      s.ready (.ld r a sz z i) → s.core.lineWait = none → space ea.toNat = .scratch j → ea.toNat % n = 0 → s.core.locked ea.toNat n = false →
      poisonedParts s.core.scratchPois j n = false → Goes (exec (.ld r a sz z i) s) fun u => Elsewhere s u ∧
        u.core = { s.core with a := u.core.a, strA := u.core.strA } ∧
        (r ≠ 31 → u.reg r.toNat = extend n (z == 1) (s.core.scratch.read j n)) ∧ ∀ x, x ≠ r.toNat → u.reg x = s.reg x)
end

