-- ==== Sys2Proof/Laws/Memory.lean ====
section
/-!
SUPPORT. Sys2Proof/Laws/Memory.lean: bytes of memory: the canonical form is kept by a write, and a read after a write.
-/

namespace Sys2Proof.Machine

/-! ### The canonical form -/

theorem Memory.wf_nil : Memory.wf [] := rfl

/-- A memory listed from an address on is listed from every address before it. -/
theorem Memory.wfFrom_mono {m : Memory} {lo hi : Nat} (h : lo ≤ hi) (hm : Memory.wfFrom hi m = true) :
    Memory.wfFrom lo m = true := by
  cases m with
  | nil => rfl
  | cons c rest =>
    simp only [Memory.wfFrom, Bool.and_eq_true, decide_eq_true_eq] at hm ⊢
    exact ⟨⟨by omega, hm.1.2⟩, hm.2⟩

theorem Memory.wfFrom_filter {m : Memory} (p : Host.Cell → Bool) {lo : Nat} (hm : Memory.wfFrom lo m = true) :
    Memory.wfFrom lo (m.filter p) = true := by
  induction m generalizing lo with
  | nil => rfl
  | cons c rest ih =>
    simp only [Memory.wfFrom, Bool.and_eq_true, decide_eq_true_eq] at hm
    rw [List.filter_cons]
    split
    · simp only [Memory.wfFrom, Bool.and_eq_true, decide_eq_true_eq]
      exact ⟨hm.1, ih hm.2⟩
    · exact wfFrom_mono (by omega) (ih hm.2)

/-- What stands at or above an address keeps its form there. -/
theorem Memory.wfFrom_above {m : Memory} (hi : Nat) {lo : Nat} (hm : Memory.wfFrom lo m = true) :
    Memory.wfFrom hi (m.filter fun c => hi ≤ c.1) = true := by
  induction m generalizing lo with
  | nil => rfl
  | cons c rest ih =>
    simp only [Memory.wfFrom, Bool.and_eq_true, decide_eq_true_eq] at hm
    rw [List.filter_cons]
    split
    · rename_i h
      simp only [decide_eq_true_eq] at h
      simp only [Memory.wfFrom, Bool.and_eq_true, decide_eq_true_eq]
      exact ⟨⟨h, hm.1.2⟩, wfFrom_filter _ hm.2⟩
    · exact ih hm.2

/-- Two memories in form, the second above the first, are in form together. -/
theorem Memory.wfFrom_append {m k : Memory} {lo hi : Nat} (h : lo ≤ hi) (hm : Memory.wfFrom lo m = true)
    (hb : ∀ c ∈ m, c.1 < hi) (hk : Memory.wfFrom hi k = true) : Memory.wfFrom lo (m ++ k) = true := by
  induction m generalizing lo with
  | nil => exact wfFrom_mono h hk
  | cons c rest ih =>
    simp only [Memory.wfFrom, Bool.and_eq_true, decide_eq_true_eq] at hm
    simp only [List.cons_append, Memory.wfFrom, Bool.and_eq_true, decide_eq_true_eq]
    have hc := hb c List.mem_cons_self
    exact ⟨hm.1, ih (by omega) hm.2 fun d hd => hb d (List.mem_cons_of_mem _ hd)⟩

theorem cellsOf_bounds {a n v : Nat} : ∀ c ∈ cellsOf a n v, a ≤ c.1 ∧ c.1 < a + n := by
  induction n generalizing a v with
  | zero => intro c hc; cases hc
  | succ n ih =>
    intro c hc
    simp only [cellsOf] at hc
    split at hc
    · have := ih c hc; omega
    · rcases List.mem_cons.mp hc with rfl | hc
      · exact ⟨Nat.le_refl _, by omega⟩
      · have := ih c hc; omega

theorem cellsOf_wfFrom {a n v : Nat} : Memory.wfFrom a (cellsOf a n v) = true := by
  induction n generalizing a v with
  | zero => rfl
  | succ n ih =>
    simp only [cellsOf]
    split
    · exact Memory.wfFrom_mono (by omega) ih
    · rename_i h
      simp only [Memory.wfFrom, Bool.and_eq_true, decide_eq_true_eq, bne_iff_ne, ne_eq]
      exact ⟨⟨Nat.le_refl _, h⟩, ih⟩

/-- A write keeps the canonical form. -/
theorem Memory.write_wf {m : Memory} (hm : m.wf) (a n v : Nat) : (m.write a n v).wf := by
  unfold Memory.write
  refine wfFrom_append (Nat.zero_le (a + n)) (wfFrom_append (Nat.zero_le a) (wfFrom_filter _ hm) ?_ cellsOf_wfFrom) ?_
    (wfFrom_above _ hm)
  · intro c hc; simpa using (List.mem_filter.mp hc).2
  · intro c hc
    rcases List.mem_append.mp hc with h | h
    · have : c.1 < a := by simpa using (List.mem_filter.mp h).2
      omega
    · exact (cellsOf_bounds c h).2

/-! ### Reading -/

/-- What one cell adds to a read. -/
def readPart (a n : Nat) (c : Host.Cell) : Nat := if a ≤ c.1 ∧ c.1 < a + n then c.2.toNat * 2 ^ (8 * (c.1 - a)) else 0

theorem Memory.read_eq_sum (m : Memory) (a n : Nat) : m.read a n = (m.map (readPart a n)).sum := by
  have key : ∀ (m : Memory) (v : Nat),
      m.foldl (fun v c => if a <= c.1 && c.1 < a + n then v + c.2.toNat * 2 ^ (8 * (c.1 - a)) else v) v =
        v + (m.map (readPart a n)).sum := by
    intro m
    induction m with
    | nil => intro v; simp
    | cons c rest ih =>
      intro v
      rw [List.foldl_cons, ih, List.map_cons, List.sum_cons]
      by_cases h : a ≤ c.1 ∧ c.1 < a + n
      · simp only [readPart, h, decide_true, Bool.and_self, if_true, and_self]; omega
      · have : ¬ (decide (a ≤ c.1) && decide (c.1 < a + n)) = true := by simpa using h
        simp only [readPart, if_neg h, if_neg this]; omega
  unfold Memory.read
  rw [key]; omega

theorem sum_readPart_outside {m : Memory} {a n : Nat} (h : ∀ c ∈ m, c.1 < a ∨ a + n ≤ c.1) : (m.map (readPart a n)).sum = 0 := by
  induction m with
  | nil => rfl
  | cons c rest ih =>
    have hc := h c List.mem_cons_self
    have : ¬ (a ≤ c.1 ∧ c.1 < a + n) := by omega
    rw [List.map_cons, List.sum_cons, ih fun d hd => h d (List.mem_cons_of_mem _ hd), readPart, if_neg this]

theorem cellsOf_read (a n v : Nat) : ((cellsOf a n v).map (readPart a n)).sum = v % 2 ^ (8 * n) := by
  have key : ∀ (n v b : Nat), a ≤ b → ((cellsOf b n v).map fun c => c.2.toNat * 2 ^ (8 * (c.1 - a))).sum =
      v % 2 ^ (8 * n) * 2 ^ (8 * (b - a)) := by
    intro n
    induction n with
    | zero => intro v b _; simp [cellsOf, Nat.mod_one]
    | succ n ih =>
      intro v b hb
      have hs : v % 2 ^ (8 * (n + 1)) = v % 256 + 256 * (v / 256 % 2 ^ (8 * n)) := by
        rw [show 8 * (n + 1) = 8 + 8 * n by omega, Nat.pow_add, Nat.mod_mul]
      have hp : 2 ^ (8 * (b + 1 - a)) = 256 * 2 ^ (8 * (b - a)) := by
        rw [show 8 * (b + 1 - a) = 8 + 8 * (b - a) by omega, Nat.pow_add]
      simp only [cellsOf]
      split
      · rename_i h
        have hz : v % 256 = 0 := by
          have := congrArg BitVec.toNat h
          simpa [unlistedByte] using this
        rw [ih _ _ (by omega), hs, hz, hp, Nat.zero_add, ← Nat.mul_assoc, Nat.mul_comm (v / 256 % _) 256]
      · rw [List.map_cons, List.sum_cons, ih _ _ (by omega), hs, hp, BitVec.toNat_ofNat, Nat.add_mul,
          ← Nat.mul_assoc, Nat.mul_comm (v / 256 % _) 256]
  have h1 : (cellsOf a n v).map (readPart a n) = (cellsOf a n v).map fun c => c.2.toNat * 2 ^ (8 * (c.1 - a)) := by
    apply List.map_congr_left
    intro c hc
    rw [readPart, if_pos (cellsOf_bounds c hc)]
  rw [h1, key n v a (Nat.le_refl _)]
  simp

/-- A read after a write of the same bytes gives the value written. -/
theorem Memory.read_write (m : Memory) (a n v : Nat) : (m.write a n v).read a n = v % 2 ^ (8 * n) := by
  rw [read_eq_sum, write, List.map_append, List.map_append, List.sum_append, List.sum_append, cellsOf_read,
    sum_readPart_outside, sum_readPart_outside]
  · omega
  · intro c hc; right; simpa using (List.mem_filter.mp hc).2
  · intro c hc; left; simpa using (List.mem_filter.mp hc).2

/-- A read of bytes a write leaves alone gives what it gave before. -/
theorem Memory.read_write_ne (m : Memory) (a n v b k : Nat) (h : b + k ≤ a ∨ a + n ≤ b) :
    (m.write a n v).read b k = m.read b k := by
  rw [read_eq_sum, read_eq_sum, write, List.map_append, List.map_append, List.sum_append, List.sum_append,
    sum_readPart_outside (m := cellsOf a n v)]
  · induction m with
    | nil => rfl
    | cons c rest ih =>
      simp only [List.filter_cons, List.map_cons, List.sum_cons] at ih ⊢
      by_cases h1 : c.1 < a <;> by_cases h2 : a + n ≤ c.1
      · have : n = 0 := by omega
        omega
      · simp only [h1, h2, decide_true, decide_false, Bool.false_eq_true, if_true, if_false, List.map_cons, List.sum_cons]
        omega
      · simp only [h1, h2, decide_true, decide_false, Bool.false_eq_true, if_true, if_false, List.map_cons, List.sum_cons]
        omega
      · have : readPart b k c = 0 := by rw [readPart, if_neg (by omega)]
        simp only [h1, h2, decide_false, Bool.false_eq_true, if_false, this]
        omega
  · intro c hc
    have := cellsOf_bounds c hc
    omega

end Sys2Proof.Machine
end

