-- ==== Sys2Proof/Laws/PerInstr.lean ====
section
/-!
SUPPORT. Sys2Proof/Laws/PerInstr.lean: decoding what the encoder writes gives the instruction back, one lemma for each
constructor of `Instr`.
-/

namespace Sys2Proof.Laws

/-- A field of a word, read back. -/
theorem word_field {base : Nat} {fs : List (Nat × Nat)} (lo len v : Nat) (h1 : wordNat base fs < 2 ^ 32)
    (h2 : wordNat base fs / 2 ^ lo % 2 ^ len = v) : (word base fs).extractLsb' lo len = BitVec.ofNat len v := by
  apply BitVec.eq_of_toNat_eq
  simp only [word, BitVec.extractLsb'_toNat, BitVec.toNat_ofNat, Nat.shiftRight_eq_div_pow]
  rw [Nat.mod_eq_of_lt h1, h2, ← h2, Nat.mod_mod]

theorem word_field_is {base : Nat} {fs : List (Nat × Nat)} {len : Nat} (lo : Nat) (x : BitVec len)
    (h1 : wordNat base fs < 2 ^ 32) (h2 : wordNat base fs / 2 ^ lo % 2 ^ len = x.toNat) :
    (word base fs).extractLsb' lo len = x := by
  rw [word_field lo len x.toNat h1 h2, BitVec.ofNat_toNat, BitVec.setWidth_eq]

theorem word_field_ne {base : Nat} {fs : List (Nat × Nat)} (lo len c : Nat) (h1 : wordNat base fs < 2 ^ 32)
    (h2 : wordNat base fs / 2 ^ lo % 2 ^ len ≠ c % 2 ^ len) :
    ((word base fs).extractLsb' lo len == BitVec.ofNat len c) = false := by
  rw [word_field lo len _ h1 rfl, beq_eq_false_iff_ne]
  intro h
  have := congrArg BitVec.toNat h
  simp only [BitVec.toNat_ofNat, Nat.mod_mod] at this
  exact h2 this

theorem word_ne_zero {base : Nat} {fs : List (Nat × Nat)} (h1 : wordNat base fs < 2 ^ 32) (h2 : 0 < wordNat base fs) :
    word base fs ≠ 0#32 := by
  intro h
  have := congrArg BitVec.toNat h
  simp [word, Nat.mod_eq_of_lt h1] at this
  omega

theorem decodeHalf_of {w : Half} {i : Instr} (h0 : w ≠ 0#32) (h : decodeRow w = some i) (hw : i.wf = true) :
    decodeHalf w = i := by
  simp [decodeHalf, h0, h, hw]

/-- The decoder gives back a well-formed instruction from its encoded word. -/
def Roundtrip.Statement (i : Instr) : Prop :=
  i.wf = true → i.encoded = true → (encodeHalf i).map decodeHalf = some i

theorem row01 {w : Half} (h : w.extractLsb' 25 7 = 1#7) : decodeRow w = decodeMajor01 w := by
  unfold decodeRow
  rw [h]
  rfl

theorem row02 {w : Half} (h : w.extractLsb' 25 7 = 2#7) : decodeRow w = decodeMajor02 w := by
  unfold decodeRow
  rw [h]
  rfl

theorem row03 {w : Half} (h : w.extractLsb' 25 7 = 3#7) : decodeRow w = decodeMajor03 w := by
  unfold decodeRow
  rw [h]
  rfl

theorem row04 {w : Half} (h : w.extractLsb' 25 7 = 4#7) : decodeRow w = decodeMajor04 w := by
  unfold decodeRow
  rw [h]
  rfl

theorem row05 {w : Half} (h : w.extractLsb' 25 7 = 5#7) : decodeRow w = decodeMajor05 w := by
  unfold decodeRow
  rw [h]
  rfl

theorem row06 {w : Half} (h : w.extractLsb' 25 7 = 6#7) : decodeRow w = decodeMajor06 w := by
  unfold decodeRow
  rw [h]
  rfl

theorem row07 {w : Half} (h : w.extractLsb' 25 7 = 7#7) : decodeRow w = decodeMajor07 w := by
  unfold decodeRow
  rw [h]
  rfl

theorem row08 {w : Half} (h : w.extractLsb' 25 7 = 8#7) : decodeRow w = decodeMajor08 w := by
  unfold decodeRow
  rw [h]
  rfl

theorem row09 {w : Half} (h : w.extractLsb' 25 7 = 9#7) : decodeRow w = decodeMajor09 w := by
  unfold decodeRow
  rw [h]
  rfl

theorem row0A {w : Half} (h : w.extractLsb' 25 7 = 10#7) : decodeRow w = decodeMajor0A w := by
  unfold decodeRow
  rw [h]
  rfl

theorem row0B {w : Half} (h : w.extractLsb' 25 7 = 11#7) : decodeRow w = decodeMajor0B w := by
  unfold decodeRow
  rw [h]
  rfl

theorem row0C {w : Half} (h : w.extractLsb' 25 7 = 12#7) : decodeRow w = decodeMajor0C w := by
  unfold decodeRow
  rw [h]
  rfl

theorem row0D {w : Half} (h : w.extractLsb' 25 7 = 13#7) : decodeRow w = decodeMajor0D w := by
  unfold decodeRow
  rw [h]
  rfl

theorem row0E {w : Half} (h : w.extractLsb' 25 7 = 14#7) : decodeRow w = decodeMajor0E w := by
  unfold decodeRow
  rw [h]
  rfl

theorem row0F {w : Half} (h : w.extractLsb' 25 7 = 15#7) : decodeRow w = decodeMajor0F w := by
  unfold decodeRow
  rw [h]
  rfl

theorem row10 {w : Half} (h : w.extractLsb' 25 7 = 16#7) : decodeRow w = decodeMajor10 w := by
  unfold decodeRow
  rw [h]
  rfl

theorem row11 {w : Half} (h : w.extractLsb' 25 7 = 17#7) : decodeRow w = decodeMajor11 w := by
  unfold decodeRow
  rw [h]
  rfl

theorem row12 {w : Half} (h : w.extractLsb' 25 7 = 18#7) : decodeRow w = decodeMajor12 w := by
  unfold decodeRow
  rw [h]
  rfl

theorem row13 {w : Half} (h : w.extractLsb' 25 7 = 19#7) : decodeRow w = decodeMajor13 w := by
  unfold decodeRow
  rw [h]
  rfl

theorem row14 {w : Half} (h : w.extractLsb' 25 7 = 20#7) : decodeRow w = decodeMajor14 w := by
  unfold decodeRow
  rw [h]
  rfl

theorem row15 {w : Half} (h : w.extractLsb' 25 7 = 21#7) : decodeRow w = decodeMajor15 w := by
  unfold decodeRow
  rw [h]
  rfl

theorem row18 {w : Half} (h : w.extractLsb' 25 7 = 24#7) : decodeRow w = decodeMajor18 w := by
  unfold decodeRow
  rw [h]
  rfl

theorem row19 {w : Half} (h : w.extractLsb' 25 7 = 25#7) : decodeRow w = decodeMajor19 w := by
  unfold decodeRow
  rw [h]
  rfl

theorem row1A {w : Half} (h : w.extractLsb' 25 7 = 26#7) : decodeRow w = decodeMajor1A w := by
  unfold decodeRow
  rw [h]
  rfl

theorem row1B {w : Half} (h : w.extractLsb' 25 7 = 27#7) : decodeRow w = decodeMajor1B w := by
  unfold decodeRow
  rw [h]
  rfl

theorem row20 {w : Half} (h : w.extractLsb' 25 7 = 32#7) : decodeRow w = decodeMajor20 w := by
  unfold decodeRow
  rw [h]
  rfl

theorem row21 {w : Half} (h : w.extractLsb' 25 7 = 33#7) : decodeRow w = decodeMajor21 w := by
  unfold decodeRow
  rw [h]
  rfl

theorem row22 {w : Half} (h : w.extractLsb' 25 7 = 34#7) : decodeRow w = decodeMajor22 w := by
  unfold decodeRow
  rw [h]
  rfl

theorem row23 {w : Half} (h : w.extractLsb' 25 7 = 35#7) : decodeRow w = decodeMajor23 w := by
  unfold decodeRow
  rw [h]
  rfl

theorem row24 {w : Half} (h : w.extractLsb' 25 7 = 36#7) : decodeRow w = decodeMajor24 w := by
  unfold decodeRow
  rw [h]
  rfl

theorem row25 {w : Half} (h : w.extractLsb' 25 7 = 37#7) : decodeRow w = decodeMajor25 w := by
  unfold decodeRow
  rw [h]
  rfl

theorem row26 {w : Half} (h : w.extractLsb' 25 7 = 38#7) : decodeRow w = decodeMajor26 w := by
  unfold decodeRow
  rw [h]
  rfl

theorem row27 {w : Half} (h : w.extractLsb' 25 7 = 39#7) : decodeRow w = decodeMajor27 w := by
  unfold decodeRow
  rw [h]
  rfl

theorem row28 {w : Half} (h : w.extractLsb' 25 7 = 40#7) : decodeRow w = decodeMajor28 w := by
  unfold decodeRow
  rw [h]
  rfl

theorem row29 {w : Half} (h : w.extractLsb' 25 7 = 41#7) : decodeRow w = decodeMajor29 w := by
  unfold decodeRow
  rw [h]
  rfl

theorem row2A {w : Half} (h : w.extractLsb' 25 7 = 42#7) : decodeRow w = decodeMajor2A w := by
  unfold decodeRow
  rw [h]
  rfl

theorem row2B {w : Half} (h : w.extractLsb' 25 7 = 43#7) : decodeRow w = decodeMajor2B w := by
  unfold decodeRow
  rw [h]
  rfl

theorem row2C {w : Half} (h : w.extractLsb' 25 7 = 44#7) : decodeRow w = decodeMajor2C w := by
  unfold decodeRow
  rw [h]
  rfl

theorem row2D {w : Half} (h : w.extractLsb' 25 7 = 45#7) : decodeRow w = decodeMajor2D w := by
  unfold decodeRow
  rw [h]
  rfl

theorem row2E {w : Half} (h : w.extractLsb' 25 7 = 46#7) : decodeRow w = decodeMajor2E w := by
  unfold decodeRow
  rw [h]
  rfl

theorem row30 {w : Half} (h : w.extractLsb' 25 7 = 48#7) : decodeRow w = decodeMajor30 w := by
  unfold decodeRow
  rw [h]
  rfl

theorem row31 {w : Half} (h : w.extractLsb' 25 7 = 49#7) : decodeRow w = decodeMajor31 w := by
  unfold decodeRow
  rw [h]
  rfl

theorem row32 {w : Half} (h : w.extractLsb' 25 7 = 50#7) : decodeRow w = decodeMajor32 w := by
  unfold decodeRow
  rw [h]
  rfl

theorem row33 {w : Half} (h : w.extractLsb' 25 7 = 51#7) : decodeRow w = decodeMajor33 w := by
  unfold decodeRow
  rw [h]
  rfl

theorem row34 {w : Half} (h : w.extractLsb' 25 7 = 52#7) : decodeRow w = decodeMajor34 w := by
  unfold decodeRow
  rw [h]
  rfl

theorem row35 {w : Half} (h : w.extractLsb' 25 7 = 53#7) : decodeRow w = decodeMajor35 w := by
  unfold decodeRow
  rw [h]
  rfl

theorem row36 {w : Half} (h : w.extractLsb' 25 7 = 54#7) : decodeRow w = decodeMajor36 w := by
  unfold decodeRow
  rw [h]
  rfl

theorem row37 {w : Half} (h : w.extractLsb' 25 7 = 55#7) : decodeRow w = decodeMajor37 w := by
  unfold decodeRow
  rw [h]
  rfl

theorem row38 {w : Half} (h : w.extractLsb' 25 7 = 56#7) : decodeRow w = decodeMajor38 w := by
  unfold decodeRow
  rw [h]
  rfl

theorem row39 {w : Half} (h : w.extractLsb' 25 7 = 57#7) : decodeRow w = decodeMajor39 w := by
  unfold decodeRow
  rw [h]
  rfl

theorem row3A {w : Half} (h : w.extractLsb' 25 7 = 58#7) : decodeRow w = decodeMajor3A w := by
  unfold decodeRow
  rw [h]
  rfl

theorem row3B {w : Half} (h : w.extractLsb' 25 7 = 59#7) : decodeRow w = decodeMajor3B w := by
  unfold decodeRow
  rw [h]
  rfl

theorem row3C {w : Half} (h : w.extractLsb' 25 7 = 60#7) : decodeRow w = decodeMajor3C w := by
  unfold decodeRow
  rw [h]
  rfl

theorem row3D {w : Half} (h : w.extractLsb' 25 7 = 61#7) : decodeRow w = decodeMajor3D w := by
  unfold decodeRow
  rw [h]
  rfl

theorem row40 {w : Half} (h : w.extractLsb' 25 7 = 64#7) : decodeRow w = decodeMajor40 w := by
  unfold decodeRow
  rw [h]
  rfl

theorem row41 {w : Half} (h : w.extractLsb' 25 7 = 65#7) : decodeRow w = decodeMajor41 w := by
  unfold decodeRow
  rw [h]
  rfl

theorem row42 {w : Half} (h : w.extractLsb' 25 7 = 66#7) : decodeRow w = decodeMajor42 w := by
  unfold decodeRow
  rw [h]
  rfl

theorem row43 {w : Half} (h : w.extractLsb' 25 7 = 67#7) : decodeRow w = decodeMajor43 w := by
  unfold decodeRow
  rw [h]
  rfl

theorem row44 {w : Half} (h : w.extractLsb' 25 7 = 68#7) : decodeRow w = decodeMajor44 w := by
  unfold decodeRow
  rw [h]
  rfl

theorem row45 {w : Half} (h : w.extractLsb' 25 7 = 69#7) : decodeRow w = decodeMajor45 w := by
  unfold decodeRow
  rw [h]
  rfl

theorem row46 {w : Half} (h : w.extractLsb' 25 7 = 70#7) : decodeRow w = decodeMajor46 w := by
  unfold decodeRow
  rw [h]
  rfl

theorem row47 {w : Half} (h : w.extractLsb' 25 7 = 71#7) : decodeRow w = decodeMajor47 w := by
  unfold decodeRow
  rw [h]
  rfl

theorem row48 {w : Half} (h : w.extractLsb' 25 7 = 72#7) : decodeRow w = decodeMajor48 w := by
  unfold decodeRow
  rw [h]
  rfl

theorem row49 {w : Half} (h : w.extractLsb' 25 7 = 73#7) : decodeRow w = decodeMajor49 w := by
  unfold decodeRow
  rw [h]
  rfl

theorem row4A {w : Half} (h : w.extractLsb' 25 7 = 74#7) : decodeRow w = decodeMajor4A w := by
  unfold decodeRow
  rw [h]
  rfl

theorem row4B {w : Half} (h : w.extractLsb' 25 7 = 75#7) : decodeRow w = decodeMajor4B w := by
  unfold decodeRow
  rw [h]
  rfl

theorem row4C {w : Half} (h : w.extractLsb' 25 7 = 76#7) : decodeRow w = decodeMajor4C w := by
  unfold decodeRow
  rw [h]
  rfl

theorem row4D {w : Half} (h : w.extractLsb' 25 7 = 77#7) : decodeRow w = decodeMajor4D w := by
  unfold decodeRow
  rw [h]
  rfl

theorem row4E {w : Half} (h : w.extractLsb' 25 7 = 78#7) : decodeRow w = decodeMajor4E w := by
  unfold decodeRow
  rw [h]
  rfl

theorem row4F {w : Half} (h : w.extractLsb' 25 7 = 79#7) : decodeRow w = decodeMajor4F w := by
  unfold decodeRow
  rw [h]
  rfl

theorem row50 {w : Half} (h : w.extractLsb' 25 7 = 80#7) : decodeRow w = decodeMajor50 w := by
  unfold decodeRow
  rw [h]
  rfl

theorem row51 {w : Half} (h : w.extractLsb' 25 7 = 81#7) : decodeRow w = decodeMajor51 w := by
  unfold decodeRow
  rw [h]
  rfl

theorem row52 {w : Half} (h : w.extractLsb' 25 7 = 82#7) : decodeRow w = decodeMajor52 w := by
  unfold decodeRow
  rw [h]
  rfl

theorem row53 {w : Half} (h : w.extractLsb' 25 7 = 83#7) : decodeRow w = decodeMajor53 w := by
  unfold decodeRow
  rw [h]
  rfl

theorem row54 {w : Half} (h : w.extractLsb' 25 7 = 84#7) : decodeRow w = decodeMajor54 w := by
  unfold decodeRow
  rw [h]
  rfl

theorem row55 {w : Half} (h : w.extractLsb' 25 7 = 85#7) : decodeRow w = decodeMajor55 w := by
  unfold decodeRow
  rw [h]
  rfl

theorem row56 {w : Half} (h : w.extractLsb' 25 7 = 86#7) : decodeRow w = decodeMajor56 w := by
  unfold decodeRow
  rw [h]
  rfl

theorem row57 {w : Half} (h : w.extractLsb' 25 7 = 87#7) : decodeRow w = decodeMajor57 w := by
  unfold decodeRow
  rw [h]
  rfl

theorem row5F {w : Half} (h : w.extractLsb' 25 7 = 95#7) : decodeRow w = decodeMajor5F w := by
  unfold decodeRow
  rw [h]
  rfl

theorem row60 {w : Half} (h : w.extractLsb' 25 7 = 96#7) : decodeRow w = decodeMajor60 w := by
  unfold decodeRow
  rw [h]
  rfl

theorem row61 {w : Half} (h : w.extractLsb' 25 7 = 97#7) : decodeRow w = decodeMajor61 w := by
  unfold decodeRow
  rw [h]
  rfl

theorem row62 {w : Half} (h : w.extractLsb' 25 7 = 98#7) : decodeRow w = decodeMajor62 w := by
  unfold decodeRow
  rw [h]
  rfl

theorem row63 {w : Half} (h : w.extractLsb' 25 7 = 99#7) : decodeRow w = decodeMajor63 w := by
  unfold decodeRow
  rw [h]
  rfl

theorem row64 {w : Half} (h : w.extractLsb' 25 7 = 100#7) : decodeRow w = decodeMajor64 w := by
  unfold decodeRow
  rw [h]
  rfl

theorem row65 {w : Half} (h : w.extractLsb' 25 7 = 101#7) : decodeRow w = decodeMajor65 w := by
  unfold decodeRow
  rw [h]
  rfl

theorem row66 {w : Half} (h : w.extractLsb' 25 7 = 102#7) : decodeRow w = decodeMajor66 w := by
  unfold decodeRow
  rw [h]
  rfl

theorem row67 {w : Half} (h : w.extractLsb' 25 7 = 103#7) : decodeRow w = decodeMajor67 w := by
  unfold decodeRow
  rw [h]
  rfl

theorem row68 {w : Half} (h : w.extractLsb' 25 7 = 104#7) : decodeRow w = decodeMajor68 w := by
  unfold decodeRow
  rw [h]
  rfl

theorem row69 {w : Half} (h : w.extractLsb' 25 7 = 105#7) : decodeRow w = decodeMajor69 w := by
  unfold decodeRow
  rw [h]
  rfl

theorem row6B {w : Half} (h : w.extractLsb' 25 7 = 107#7) : decodeRow w = decodeMajor6B w := by
  unfold decodeRow
  rw [h]
  rfl

theorem row6C {w : Half} (h : w.extractLsb' 25 7 = 108#7) : decodeRow w = decodeMajor6C w := by
  unfold decodeRow
  rw [h]
  rfl

theorem row6D {w : Half} (h : w.extractLsb' 25 7 = 109#7) : decodeRow w = decodeMajor6D w := by
  unfold decodeRow
  rw [h]
  rfl

theorem row6E {w : Half} (h : w.extractLsb' 25 7 = 110#7) : decodeRow w = decodeMajor6E w := by
  unfold decodeRow
  rw [h]
  rfl

theorem row70 {w : Half} (h : w.extractLsb' 25 7 = 112#7) : decodeRow w = decodeMajor70 w := by
  unfold decodeRow
  rw [h]
  rfl

theorem row71 {w : Half} (h : w.extractLsb' 25 7 = 113#7) : decodeRow w = decodeMajor71 w := by
  unfold decodeRow
  rw [h]
  rfl

theorem row72 {w : Half} (h : w.extractLsb' 25 7 = 114#7) : decodeRow w = decodeMajor72 w := by
  unfold decodeRow
  rw [h]
  rfl

theorem row73 {w : Half} (h : w.extractLsb' 25 7 = 115#7) : decodeRow w = decodeMajor73 w := by
  unfold decodeRow
  rw [h]
  rfl

theorem row74 {w : Half} (h : w.extractLsb' 25 7 = 116#7) : decodeRow w = decodeMajor74 w := by
  unfold decodeRow
  rw [h]
  rfl

theorem row78 {w : Half} (h : w.extractLsb' 25 7 = 120#7) : decodeRow w = decodeMajor78 w := by
  unfold decodeRow
  rw [h]
  rfl

theorem row79 {w : Half} (h : w.extractLsb' 25 7 = 121#7) : decodeRow w = decodeMajor79 w := by
  unfold decodeRow
  rw [h]
  rfl

theorem row7A {w : Half} (h : w.extractLsb' 25 7 = 122#7) : decodeRow w = decodeMajor7A w := by
  unfold decodeRow
  rw [h]
  rfl

theorem row7B {w : Half} (h : w.extractLsb' 25 7 = 123#7) : decodeRow w = decodeMajor7B w := by
  unfold decodeRow
  rw [h]
  rfl

theorem Roundtrip.add (d : BitVec 5) (a : BitVec 5) (b : BitVec 5) : Roundtrip.Statement (.add d a b) := by
  intro hw _
  have h_d := d.isLt
  have h_a := a.isLt
  have h_b := b.isLt
  have hn : wordNat 0x04000001 [(d.toNat, 20), (a.toNat, 15), (b.toNat, 10)] < 2 ^ 32 := by simp only [wordNat]; omega
  refine congrArg some (decodeHalf_of (word_ne_zero hn (by simp only [wordNat]; omega)) ?_ hw)
  rw [row02 (word_field 25 7 2 hn (by simp only [wordNat]; omega))]
  unfold decodeMajor02
  rw [word_field 1 9 0 hn (by simp only [wordNat]; omega),
    word_field_is 20 d hn (by simp only [wordNat]; omega),
    word_field_is 15 a hn (by simp only [wordNat]; omega),
    word_field_is 10 b hn (by simp only [wordNat]; omega)]
  rfl

theorem Roundtrip.sub (d : BitVec 5) (a : BitVec 5) (b : BitVec 5) : Roundtrip.Statement (.sub d a b) := by
  intro hw _
  have h_d := d.isLt
  have h_a := a.isLt
  have h_b := b.isLt
  have hn : wordNat 0x04000021 [(d.toNat, 20), (a.toNat, 15), (b.toNat, 10)] < 2 ^ 32 := by simp only [wordNat]; omega
  refine congrArg some (decodeHalf_of (word_ne_zero hn (by simp only [wordNat]; omega)) ?_ hw)
  rw [row02 (word_field 25 7 2 hn (by simp only [wordNat]; omega))]
  unfold decodeMajor02
  rw [word_field 1 9 16 hn (by simp only [wordNat]; omega),
    word_field_is 20 d hn (by simp only [wordNat]; omega),
    word_field_is 15 a hn (by simp only [wordNat]; omega),
    word_field_is 10 b hn (by simp only [wordNat]; omega)]
  rfl

theorem Roundtrip.and (d : BitVec 5) (a : BitVec 5) (b : BitVec 5) : Roundtrip.Statement (.and d a b) := by
  intro hw _
  have h_d := d.isLt
  have h_a := a.isLt
  have h_b := b.isLt
  have hn : wordNat 0x04000041 [(d.toNat, 20), (a.toNat, 15), (b.toNat, 10)] < 2 ^ 32 := by simp only [wordNat]; omega
  refine congrArg some (decodeHalf_of (word_ne_zero hn (by simp only [wordNat]; omega)) ?_ hw)
  rw [row02 (word_field 25 7 2 hn (by simp only [wordNat]; omega))]
  unfold decodeMajor02
  rw [word_field 1 9 32 hn (by simp only [wordNat]; omega),
    word_field_is 20 d hn (by simp only [wordNat]; omega),
    word_field_is 15 a hn (by simp only [wordNat]; omega),
    word_field_is 10 b hn (by simp only [wordNat]; omega)]
  rfl

theorem Roundtrip.or (d : BitVec 5) (a : BitVec 5) (b : BitVec 5) : Roundtrip.Statement (.or d a b) := by
  intro hw _
  have h_d := d.isLt
  have h_a := a.isLt
  have h_b := b.isLt
  have hn : wordNat 0x04000061 [(d.toNat, 20), (a.toNat, 15), (b.toNat, 10)] < 2 ^ 32 := by simp only [wordNat]; omega
  refine congrArg some (decodeHalf_of (word_ne_zero hn (by simp only [wordNat]; omega)) ?_ hw)
  rw [row02 (word_field 25 7 2 hn (by simp only [wordNat]; omega))]
  unfold decodeMajor02
  rw [word_field 1 9 48 hn (by simp only [wordNat]; omega),
    word_field_is 20 d hn (by simp only [wordNat]; omega),
    word_field_is 15 a hn (by simp only [wordNat]; omega),
    word_field_is 10 b hn (by simp only [wordNat]; omega)]
  rfl

theorem Roundtrip.xor (d : BitVec 5) (a : BitVec 5) (b : BitVec 5) : Roundtrip.Statement (.xor d a b) := by
  intro hw _
  have h_d := d.isLt
  have h_a := a.isLt
  have h_b := b.isLt
  have hn : wordNat 0x04000081 [(d.toNat, 20), (a.toNat, 15), (b.toNat, 10)] < 2 ^ 32 := by simp only [wordNat]; omega
  refine congrArg some (decodeHalf_of (word_ne_zero hn (by simp only [wordNat]; omega)) ?_ hw)
  rw [row02 (word_field 25 7 2 hn (by simp only [wordNat]; omega))]
  unfold decodeMajor02
  rw [word_field 1 9 64 hn (by simp only [wordNat]; omega),
    word_field_is 20 d hn (by simp only [wordNat]; omega),
    word_field_is 15 a hn (by simp only [wordNat]; omega),
    word_field_is 10 b hn (by simp only [wordNat]; omega)]
  rfl

theorem Roundtrip.shl (d : BitVec 5) (a : BitVec 5) (b : BitVec 5) : Roundtrip.Statement (.shl d a b) := by
  intro hw _
  have h_d := d.isLt
  have h_a := a.isLt
  have h_b := b.isLt
  have hn : wordNat 0x040000A1 [(d.toNat, 20), (a.toNat, 15), (b.toNat, 10)] < 2 ^ 32 := by simp only [wordNat]; omega
  refine congrArg some (decodeHalf_of (word_ne_zero hn (by simp only [wordNat]; omega)) ?_ hw)
  rw [row02 (word_field 25 7 2 hn (by simp only [wordNat]; omega))]
  unfold decodeMajor02
  rw [word_field 1 9 80 hn (by simp only [wordNat]; omega),
    word_field_is 20 d hn (by simp only [wordNat]; omega),
    word_field_is 15 a hn (by simp only [wordNat]; omega),
    word_field_is 10 b hn (by simp only [wordNat]; omega)]
  rfl

theorem Roundtrip.shr (d : BitVec 5) (a : BitVec 5) (b : BitVec 5) : Roundtrip.Statement (.shr d a b) := by
  intro hw _
  have h_d := d.isLt
  have h_a := a.isLt
  have h_b := b.isLt
  have hn : wordNat 0x040000C1 [(d.toNat, 20), (a.toNat, 15), (b.toNat, 10)] < 2 ^ 32 := by simp only [wordNat]; omega
  refine congrArg some (decodeHalf_of (word_ne_zero hn (by simp only [wordNat]; omega)) ?_ hw)
  rw [row02 (word_field 25 7 2 hn (by simp only [wordNat]; omega))]
  unfold decodeMajor02
  rw [word_field 1 9 96 hn (by simp only [wordNat]; omega),
    word_field_is 20 d hn (by simp only [wordNat]; omega),
    word_field_is 15 a hn (by simp only [wordNat]; omega),
    word_field_is 10 b hn (by simp only [wordNat]; omega)]
  rfl

theorem Roundtrip.sra (d : BitVec 5) (a : BitVec 5) (b : BitVec 5) : Roundtrip.Statement (.sra d a b) := by
  intro hw _
  have h_d := d.isLt
  have h_a := a.isLt
  have h_b := b.isLt
  have hn : wordNat 0x040000E1 [(d.toNat, 20), (a.toNat, 15), (b.toNat, 10)] < 2 ^ 32 := by simp only [wordNat]; omega
  refine congrArg some (decodeHalf_of (word_ne_zero hn (by simp only [wordNat]; omega)) ?_ hw)
  rw [row02 (word_field 25 7 2 hn (by simp only [wordNat]; omega))]
  unfold decodeMajor02
  rw [word_field 1 9 112 hn (by simp only [wordNat]; omega),
    word_field_is 20 d hn (by simp only [wordNat]; omega),
    word_field_is 15 a hn (by simp only [wordNat]; omega),
    word_field_is 10 b hn (by simp only [wordNat]; omega)]
  rfl

theorem Roundtrip.min (d : BitVec 5) (a : BitVec 5) (b : BitVec 5) : Roundtrip.Statement (.min d a b) := by
  intro hw _
  have h_d := d.isLt
  have h_a := a.isLt
  have h_b := b.isLt
  have hn : wordNat 0x04000101 [(d.toNat, 20), (a.toNat, 15), (b.toNat, 10)] < 2 ^ 32 := by simp only [wordNat]; omega
  refine congrArg some (decodeHalf_of (word_ne_zero hn (by simp only [wordNat]; omega)) ?_ hw)
  rw [row02 (word_field 25 7 2 hn (by simp only [wordNat]; omega))]
  unfold decodeMajor02
  rw [word_field 1 9 128 hn (by simp only [wordNat]; omega),
    word_field_is 20 d hn (by simp only [wordNat]; omega),
    word_field_is 15 a hn (by simp only [wordNat]; omega),
    word_field_is 10 b hn (by simp only [wordNat]; omega)]
  rfl

theorem Roundtrip.max (d : BitVec 5) (a : BitVec 5) (b : BitVec 5) : Roundtrip.Statement (.max d a b) := by
  intro hw _
  have h_d := d.isLt
  have h_a := a.isLt
  have h_b := b.isLt
  have hn : wordNat 0x04000121 [(d.toNat, 20), (a.toNat, 15), (b.toNat, 10)] < 2 ^ 32 := by simp only [wordNat]; omega
  refine congrArg some (decodeHalf_of (word_ne_zero hn (by simp only [wordNat]; omega)) ?_ hw)
  rw [row02 (word_field 25 7 2 hn (by simp only [wordNat]; omega))]
  unfold decodeMajor02
  rw [word_field 1 9 144 hn (by simp only [wordNat]; omega),
    word_field_is 20 d hn (by simp only [wordNat]; omega),
    word_field_is 15 a hn (by simp only [wordNat]; omega),
    word_field_is 10 b hn (by simp only [wordNat]; omega)]
  rfl

theorem Roundtrip.minn (d : BitVec 5) (a : BitVec 5) (b : BitVec 5) : Roundtrip.Statement (.minn d a b) := by
  intro hw _
  have h_d := d.isLt
  have h_a := a.isLt
  have h_b := b.isLt
  have hn : wordNat 0x04000141 [(d.toNat, 20), (a.toNat, 15), (b.toNat, 10)] < 2 ^ 32 := by simp only [wordNat]; omega
  refine congrArg some (decodeHalf_of (word_ne_zero hn (by simp only [wordNat]; omega)) ?_ hw)
  rw [row02 (word_field 25 7 2 hn (by simp only [wordNat]; omega))]
  unfold decodeMajor02
  rw [word_field 1 9 160 hn (by simp only [wordNat]; omega),
    word_field_is 20 d hn (by simp only [wordNat]; omega),
    word_field_is 15 a hn (by simp only [wordNat]; omega),
    word_field_is 10 b hn (by simp only [wordNat]; omega)]
  rfl

theorem Roundtrip.maxn (d : BitVec 5) (a : BitVec 5) (b : BitVec 5) : Roundtrip.Statement (.maxn d a b) := by
  intro hw _
  have h_d := d.isLt
  have h_a := a.isLt
  have h_b := b.isLt
  have hn : wordNat 0x04000161 [(d.toNat, 20), (a.toNat, 15), (b.toNat, 10)] < 2 ^ 32 := by simp only [wordNat]; omega
  refine congrArg some (decodeHalf_of (word_ne_zero hn (by simp only [wordNat]; omega)) ?_ hw)
  rw [row02 (word_field 25 7 2 hn (by simp only [wordNat]; omega))]
  unfold decodeMajor02
  rw [word_field 1 9 176 hn (by simp only [wordNat]; omega),
    word_field_is 20 d hn (by simp only [wordNat]; omega),
    word_field_is 15 a hn (by simp only [wordNat]; omega),
    word_field_is 10 b hn (by simp only [wordNat]; omega)]
  rfl

theorem Roundtrip.mul (d : BitVec 5) (a : BitVec 5) (b : BitVec 5) : Roundtrip.Statement (.mul d a b) := by
  intro hw _
  have h_d := d.isLt
  have h_a := a.isLt
  have h_b := b.isLt
  have hn : wordNat 0x04000181 [(d.toNat, 20), (a.toNat, 15), (b.toNat, 10)] < 2 ^ 32 := by simp only [wordNat]; omega
  refine congrArg some (decodeHalf_of (word_ne_zero hn (by simp only [wordNat]; omega)) ?_ hw)
  rw [row02 (word_field 25 7 2 hn (by simp only [wordNat]; omega))]
  unfold decodeMajor02
  rw [word_field 1 9 192 hn (by simp only [wordNat]; omega),
    word_field_is 20 d hn (by simp only [wordNat]; omega),
    word_field_is 15 a hn (by simp only [wordNat]; omega),
    word_field_is 10 b hn (by simp only [wordNat]; omega)]
  rfl

theorem Roundtrip.mulh (d : BitVec 5) (a : BitVec 5) (b : BitVec 5) : Roundtrip.Statement (.mulh d a b) := by
  intro hw _
  have h_d := d.isLt
  have h_a := a.isLt
  have h_b := b.isLt
  have hn : wordNat 0x040001A1 [(d.toNat, 20), (a.toNat, 15), (b.toNat, 10)] < 2 ^ 32 := by simp only [wordNat]; omega
  refine congrArg some (decodeHalf_of (word_ne_zero hn (by simp only [wordNat]; omega)) ?_ hw)
  rw [row02 (word_field 25 7 2 hn (by simp only [wordNat]; omega))]
  unfold decodeMajor02
  rw [word_field 1 9 208 hn (by simp only [wordNat]; omega),
    word_field_is 20 d hn (by simp only [wordNat]; omega),
    word_field_is 15 a hn (by simp only [wordNat]; omega),
    word_field_is 10 b hn (by simp only [wordNat]; omega)]
  rfl

theorem Roundtrip.mulhn (d : BitVec 5) (a : BitVec 5) (b : BitVec 5) : Roundtrip.Statement (.mulhn d a b) := by
  intro hw _
  have h_d := d.isLt
  have h_a := a.isLt
  have h_b := b.isLt
  have hn : wordNat 0x040001C1 [(d.toNat, 20), (a.toNat, 15), (b.toNat, 10)] < 2 ^ 32 := by simp only [wordNat]; omega
  refine congrArg some (decodeHalf_of (word_ne_zero hn (by simp only [wordNat]; omega)) ?_ hw)
  rw [row02 (word_field 25 7 2 hn (by simp only [wordNat]; omega))]
  unfold decodeMajor02
  rw [word_field 1 9 224 hn (by simp only [wordNat]; omega),
    word_field_is 20 d hn (by simp only [wordNat]; omega),
    word_field_is 15 a hn (by simp only [wordNat]; omega),
    word_field_is 10 b hn (by simp only [wordNat]; omega)]
  rfl

theorem Roundtrip.div (d : BitVec 5) (a : BitVec 5) (b : BitVec 5) : Roundtrip.Statement (.div d a b) := by
  intro hw _
  have h_d := d.isLt
  have h_a := a.isLt
  have h_b := b.isLt
  have hn : wordNat 0x040001E1 [(d.toNat, 20), (a.toNat, 15), (b.toNat, 10)] < 2 ^ 32 := by simp only [wordNat]; omega
  refine congrArg some (decodeHalf_of (word_ne_zero hn (by simp only [wordNat]; omega)) ?_ hw)
  rw [row02 (word_field 25 7 2 hn (by simp only [wordNat]; omega))]
  unfold decodeMajor02
  rw [word_field 1 9 240 hn (by simp only [wordNat]; omega),
    word_field_is 20 d hn (by simp only [wordNat]; omega),
    word_field_is 15 a hn (by simp only [wordNat]; omega),
    word_field_is 10 b hn (by simp only [wordNat]; omega)]
  rfl

theorem Roundtrip.divn (d : BitVec 5) (a : BitVec 5) (b : BitVec 5) : Roundtrip.Statement (.divn d a b) := by
  intro hw _
  have h_d := d.isLt
  have h_a := a.isLt
  have h_b := b.isLt
  have hn : wordNat 0x04000201 [(d.toNat, 20), (a.toNat, 15), (b.toNat, 10)] < 2 ^ 32 := by simp only [wordNat]; omega
  refine congrArg some (decodeHalf_of (word_ne_zero hn (by simp only [wordNat]; omega)) ?_ hw)
  rw [row02 (word_field 25 7 2 hn (by simp only [wordNat]; omega))]
  unfold decodeMajor02
  rw [word_field 1 9 256 hn (by simp only [wordNat]; omega),
    word_field_is 20 d hn (by simp only [wordNat]; omega),
    word_field_is 15 a hn (by simp only [wordNat]; omega),
    word_field_is 10 b hn (by simp only [wordNat]; omega)]
  rfl

theorem Roundtrip.rem (d : BitVec 5) (a : BitVec 5) (b : BitVec 5) : Roundtrip.Statement (.rem d a b) := by
  intro hw _
  have h_d := d.isLt
  have h_a := a.isLt
  have h_b := b.isLt
  have hn : wordNat 0x04000221 [(d.toNat, 20), (a.toNat, 15), (b.toNat, 10)] < 2 ^ 32 := by simp only [wordNat]; omega
  refine congrArg some (decodeHalf_of (word_ne_zero hn (by simp only [wordNat]; omega)) ?_ hw)
  rw [row02 (word_field 25 7 2 hn (by simp only [wordNat]; omega))]
  unfold decodeMajor02
  rw [word_field 1 9 272 hn (by simp only [wordNat]; omega),
    word_field_is 20 d hn (by simp only [wordNat]; omega),
    word_field_is 15 a hn (by simp only [wordNat]; omega),
    word_field_is 10 b hn (by simp only [wordNat]; omega)]
  rfl

theorem Roundtrip.remn (d : BitVec 5) (a : BitVec 5) (b : BitVec 5) : Roundtrip.Statement (.remn d a b) := by
  intro hw _
  have h_d := d.isLt
  have h_a := a.isLt
  have h_b := b.isLt
  have hn : wordNat 0x04000241 [(d.toNat, 20), (a.toNat, 15), (b.toNat, 10)] < 2 ^ 32 := by simp only [wordNat]; omega
  refine congrArg some (decodeHalf_of (word_ne_zero hn (by simp only [wordNat]; omega)) ?_ hw)
  rw [row02 (word_field 25 7 2 hn (by simp only [wordNat]; omega))]
  unfold decodeMajor02
  rw [word_field 1 9 288 hn (by simp only [wordNat]; omega),
    word_field_is 20 d hn (by simp only [wordNat]; omega),
    word_field_is 15 a hn (by simp only [wordNat]; omega),
    word_field_is 10 b hn (by simp only [wordNat]; omega)]
  rfl

theorem Roundtrip.shadd1 (d : BitVec 5) (a : BitVec 5) (b : BitVec 5) : Roundtrip.Statement (.shadd1 d a b) := by
  intro hw _
  have h_d := d.isLt
  have h_a := a.isLt
  have h_b := b.isLt
  have hn : wordNat 0x04000261 [(d.toNat, 20), (a.toNat, 15), (b.toNat, 10)] < 2 ^ 32 := by simp only [wordNat]; omega
  refine congrArg some (decodeHalf_of (word_ne_zero hn (by simp only [wordNat]; omega)) ?_ hw)
  rw [row02 (word_field 25 7 2 hn (by simp only [wordNat]; omega))]
  unfold decodeMajor02
  rw [word_field 1 9 304 hn (by simp only [wordNat]; omega),
    word_field_is 20 d hn (by simp only [wordNat]; omega),
    word_field_is 15 a hn (by simp only [wordNat]; omega),
    word_field_is 10 b hn (by simp only [wordNat]; omega)]
  rfl

theorem Roundtrip.shadd2 (d : BitVec 5) (a : BitVec 5) (b : BitVec 5) : Roundtrip.Statement (.shadd2 d a b) := by
  intro hw _
  have h_d := d.isLt
  have h_a := a.isLt
  have h_b := b.isLt
  have hn : wordNat 0x04000281 [(d.toNat, 20), (a.toNat, 15), (b.toNat, 10)] < 2 ^ 32 := by simp only [wordNat]; omega
  refine congrArg some (decodeHalf_of (word_ne_zero hn (by simp only [wordNat]; omega)) ?_ hw)
  rw [row02 (word_field 25 7 2 hn (by simp only [wordNat]; omega))]
  unfold decodeMajor02
  rw [word_field 1 9 320 hn (by simp only [wordNat]; omega),
    word_field_is 20 d hn (by simp only [wordNat]; omega),
    word_field_is 15 a hn (by simp only [wordNat]; omega),
    word_field_is 10 b hn (by simp only [wordNat]; omega)]
  rfl

theorem Roundtrip.shadd3 (d : BitVec 5) (a : BitVec 5) (b : BitVec 5) : Roundtrip.Statement (.shadd3 d a b) := by
  intro hw _
  have h_d := d.isLt
  have h_a := a.isLt
  have h_b := b.isLt
  have hn : wordNat 0x040002A1 [(d.toNat, 20), (a.toNat, 15), (b.toNat, 10)] < 2 ^ 32 := by simp only [wordNat]; omega
  refine congrArg some (decodeHalf_of (word_ne_zero hn (by simp only [wordNat]; omega)) ?_ hw)
  rw [row02 (word_field 25 7 2 hn (by simp only [wordNat]; omega))]
  unfold decodeMajor02
  rw [word_field 1 9 336 hn (by simp only [wordNat]; omega),
    word_field_is 20 d hn (by simp only [wordNat]; omega),
    word_field_is 15 a hn (by simp only [wordNat]; omega),
    word_field_is 10 b hn (by simp only [wordNat]; omega)]
  rfl

theorem Roundtrip.andn (d : BitVec 5) (a : BitVec 5) (b : BitVec 5) : Roundtrip.Statement (.andn d a b) := by
  intro hw _
  have h_d := d.isLt
  have h_a := a.isLt
  have h_b := b.isLt
  have hn : wordNat 0x040002C1 [(d.toNat, 20), (a.toNat, 15), (b.toNat, 10)] < 2 ^ 32 := by simp only [wordNat]; omega
  refine congrArg some (decodeHalf_of (word_ne_zero hn (by simp only [wordNat]; omega)) ?_ hw)
  rw [row02 (word_field 25 7 2 hn (by simp only [wordNat]; omega))]
  unfold decodeMajor02
  rw [word_field 1 9 352 hn (by simp only [wordNat]; omega),
    word_field_is 20 d hn (by simp only [wordNat]; omega),
    word_field_is 15 a hn (by simp only [wordNat]; omega),
    word_field_is 10 b hn (by simp only [wordNat]; omega)]
  rfl

theorem Roundtrip.addi (d : BitVec 5) (a : BitVec 5) (i : BitVec 14) : Roundtrip.Statement (.addi d a i) := by
  intro hw _
  have h_d := d.isLt
  have h_a := a.isLt
  have h_i := i.isLt
  have hn : wordNat 0x06000001 [(d.toNat, 20), (a.toNat, 15), (i.toNat, 1)] < 2 ^ 32 := by simp only [wordNat]; omega
  refine congrArg some (decodeHalf_of (word_ne_zero hn (by simp only [wordNat]; omega)) ?_ hw)
  rw [row03 (word_field 25 7 3 hn (by simp only [wordNat]; omega))]
  unfold decodeMajor03
  rw [word_field_is 20 d hn (by simp only [wordNat]; omega),
    word_field_is 15 a hn (by simp only [wordNat]; omega),
    word_field_is 1 i hn (by simp only [wordNat]; omega)]

theorem Roundtrip.andi (d : BitVec 5) (a : BitVec 5) (i : BitVec 14) : Roundtrip.Statement (.andi d a i) := by
  intro hw _
  have h_d := d.isLt
  have h_a := a.isLt
  have h_i := i.isLt
  have hn : wordNat 0x08000001 [(d.toNat, 20), (a.toNat, 15), (i.toNat, 1)] < 2 ^ 32 := by simp only [wordNat]; omega
  refine congrArg some (decodeHalf_of (word_ne_zero hn (by simp only [wordNat]; omega)) ?_ hw)
  rw [row04 (word_field 25 7 4 hn (by simp only [wordNat]; omega))]
  unfold decodeMajor04
  rw [word_field_is 20 d hn (by simp only [wordNat]; omega),
    word_field_is 15 a hn (by simp only [wordNat]; omega),
    word_field_is 1 i hn (by simp only [wordNat]; omega)]

theorem Roundtrip.ori (d : BitVec 5) (a : BitVec 5) (i : BitVec 14) : Roundtrip.Statement (.ori d a i) := by
  intro hw _
  have h_d := d.isLt
  have h_a := a.isLt
  have h_i := i.isLt
  have hn : wordNat 0x0A000001 [(d.toNat, 20), (a.toNat, 15), (i.toNat, 1)] < 2 ^ 32 := by simp only [wordNat]; omega
  refine congrArg some (decodeHalf_of (word_ne_zero hn (by simp only [wordNat]; omega)) ?_ hw)
  rw [row05 (word_field 25 7 5 hn (by simp only [wordNat]; omega))]
  unfold decodeMajor05
  rw [word_field_is 20 d hn (by simp only [wordNat]; omega),
    word_field_is 15 a hn (by simp only [wordNat]; omega),
    word_field_is 1 i hn (by simp only [wordNat]; omega)]

theorem Roundtrip.xori (d : BitVec 5) (a : BitVec 5) (i : BitVec 14) : Roundtrip.Statement (.xori d a i) := by
  intro hw _
  have h_d := d.isLt
  have h_a := a.isLt
  have h_i := i.isLt
  have hn : wordNat 0x0C000001 [(d.toNat, 20), (a.toNat, 15), (i.toNat, 1)] < 2 ^ 32 := by simp only [wordNat]; omega
  refine congrArg some (decodeHalf_of (word_ne_zero hn (by simp only [wordNat]; omega)) ?_ hw)
  rw [row06 (word_field 25 7 6 hn (by simp only [wordNat]; omega))]
  unfold decodeMajor06
  rw [word_field_is 20 d hn (by simp only [wordNat]; omega),
    word_field_is 15 a hn (by simp only [wordNat]; omega),
    word_field_is 1 i hn (by simp only [wordNat]; omega)]

theorem Roundtrip.shli (d : BitVec 5) (a : BitVec 5) (s : BitVec 6) : Roundtrip.Statement (.shli d a s) := by
  intro hw _
  have h_d := d.isLt
  have h_a := a.isLt
  have h_s := s.isLt
  have hn : wordNat 0x0E000001 [(d.toNat, 20), (a.toNat, 15), (s.toNat, 7)] < 2 ^ 32 := by simp only [wordNat]; omega
  refine congrArg some (decodeHalf_of (word_ne_zero hn (by simp only [wordNat]; omega)) ?_ hw)
  rw [row07 (word_field 25 7 7 hn (by simp only [wordNat]; omega))]
  unfold decodeMajor07
  rw [word_field 13 2 0 hn (by simp only [wordNat]; omega),
    word_field 1 6 0 hn (by simp only [wordNat]; omega),
    word_field_is 20 d hn (by simp only [wordNat]; omega),
    word_field_is 15 a hn (by simp only [wordNat]; omega),
    word_field_is 7 s hn (by simp only [wordNat]; omega)]
  rfl

theorem Roundtrip.shri (d : BitVec 5) (a : BitVec 5) (s : BitVec 6) : Roundtrip.Statement (.shri d a s) := by
  intro hw _
  have h_d := d.isLt
  have h_a := a.isLt
  have h_s := s.isLt
  have hn : wordNat 0x0E002001 [(d.toNat, 20), (a.toNat, 15), (s.toNat, 7)] < 2 ^ 32 := by simp only [wordNat]; omega
  refine congrArg some (decodeHalf_of (word_ne_zero hn (by simp only [wordNat]; omega)) ?_ hw)
  rw [row07 (word_field 25 7 7 hn (by simp only [wordNat]; omega))]
  unfold decodeMajor07
  rw [word_field 13 2 1 hn (by simp only [wordNat]; omega),
    word_field 1 6 0 hn (by simp only [wordNat]; omega),
    word_field_is 20 d hn (by simp only [wordNat]; omega),
    word_field_is 15 a hn (by simp only [wordNat]; omega),
    word_field_is 7 s hn (by simp only [wordNat]; omega)]
  rfl

theorem Roundtrip.srai (d : BitVec 5) (a : BitVec 5) (s : BitVec 6) : Roundtrip.Statement (.srai d a s) := by
  intro hw _
  have h_d := d.isLt
  have h_a := a.isLt
  have h_s := s.isLt
  have hn : wordNat 0x0E004001 [(d.toNat, 20), (a.toNat, 15), (s.toNat, 7)] < 2 ^ 32 := by simp only [wordNat]; omega
  refine congrArg some (decodeHalf_of (word_ne_zero hn (by simp only [wordNat]; omega)) ?_ hw)
  rw [row07 (word_field 25 7 7 hn (by simp only [wordNat]; omega))]
  unfold decodeMajor07
  rw [word_field 13 2 2 hn (by simp only [wordNat]; omega),
    word_field 1 6 0 hn (by simp only [wordNat]; omega),
    word_field_is 20 d hn (by simp only [wordNat]; omega),
    word_field_is 15 a hn (by simp only [wordNat]; omega),
    word_field_is 7 s hn (by simp only [wordNat]; omega)]
  rfl

theorem Roundtrip.lui (d : BitVec 5) (i : BitVec 19) : Roundtrip.Statement (.lui d i) := by
  intro hw _
  have h_d := d.isLt
  have h_i := i.isLt
  have hn : wordNat 0x10000001 [(d.toNat, 20), (i.toNat, 1)] < 2 ^ 32 := by simp only [wordNat]; omega
  refine congrArg some (decodeHalf_of (word_ne_zero hn (by simp only [wordNat]; omega)) ?_ hw)
  rw [row08 (word_field 25 7 8 hn (by simp only [wordNat]; omega))]
  unfold decodeMajor08
  rw [word_field_is 20 d hn (by simp only [wordNat]; omega),
    word_field_is 1 i hn (by simp only [wordNat]; omega)]

theorem Roundtrip.insh (d : BitVec 5) (h : BitVec 2) (i : BitVec 16) : Roundtrip.Statement (.insh d h i) := by
  intro hw _
  have h_d := d.isLt
  have h_h := h.isLt
  have h_i := i.isLt
  have hn : wordNat 0x12000001 [(d.toNat, 20), (h.toNat, 18), (i.toNat, 2)] < 2 ^ 32 := by simp only [wordNat]; omega
  refine congrArg some (decodeHalf_of (word_ne_zero hn (by simp only [wordNat]; omega)) ?_ hw)
  rw [row09 (word_field 25 7 9 hn (by simp only [wordNat]; omega))]
  unfold decodeMajor09
  rw [word_field 1 1 0 hn (by simp only [wordNat]; omega),
    word_field_is 20 d hn (by simp only [wordNat]; omega),
    word_field_is 18 h hn (by simp only [wordNat]; omega),
    word_field_is 2 i hn (by simp only [wordNat]; omega)]
  rfl

theorem Roundtrip.clz (d : BitVec 5) (a : BitVec 5) : Roundtrip.Statement (.clz d a) := by
  intro hw _
  have h_d := d.isLt
  have h_a := a.isLt
  have hn : wordNat 0x14000001 [(d.toNat, 20), (a.toNat, 15)] < 2 ^ 32 := by simp only [wordNat]; omega
  refine congrArg some (decodeHalf_of (word_ne_zero hn (by simp only [wordNat]; omega)) ?_ hw)
  rw [row0A (word_field 25 7 10 hn (by simp only [wordNat]; omega))]
  unfold decodeMajor0A
  rw [word_field 1 14 0 hn (by simp only [wordNat]; omega),
    word_field_is 20 d hn (by simp only [wordNat]; omega),
    word_field_is 15 a hn (by simp only [wordNat]; omega)]
  rfl

theorem Roundtrip.ctz (d : BitVec 5) (a : BitVec 5) : Roundtrip.Statement (.ctz d a) := by
  intro hw _
  have h_d := d.isLt
  have h_a := a.isLt
  have hn : wordNat 0x14000021 [(d.toNat, 20), (a.toNat, 15)] < 2 ^ 32 := by simp only [wordNat]; omega
  refine congrArg some (decodeHalf_of (word_ne_zero hn (by simp only [wordNat]; omega)) ?_ hw)
  rw [row0A (word_field 25 7 10 hn (by simp only [wordNat]; omega))]
  unfold decodeMajor0A
  rw [word_field 1 14 16 hn (by simp only [wordNat]; omega),
    word_field_is 20 d hn (by simp only [wordNat]; omega),
    word_field_is 15 a hn (by simp only [wordNat]; omega)]
  rfl

theorem Roundtrip.popc (d : BitVec 5) (a : BitVec 5) : Roundtrip.Statement (.popc d a) := by
  intro hw _
  have h_d := d.isLt
  have h_a := a.isLt
  have hn : wordNat 0x14000041 [(d.toNat, 20), (a.toNat, 15)] < 2 ^ 32 := by simp only [wordNat]; omega
  refine congrArg some (decodeHalf_of (word_ne_zero hn (by simp only [wordNat]; omega)) ?_ hw)
  rw [row0A (word_field 25 7 10 hn (by simp only [wordNat]; omega))]
  unfold decodeMajor0A
  rw [word_field 1 14 32 hn (by simp only [wordNat]; omega),
    word_field_is 20 d hn (by simp only [wordNat]; omega),
    word_field_is 15 a hn (by simp only [wordNat]; omega)]
  rfl

theorem Roundtrip.bswap (d : BitVec 5) (a : BitVec 5) : Roundtrip.Statement (.bswap d a) := by
  intro hw _
  have h_d := d.isLt
  have h_a := a.isLt
  have hn : wordNat 0x14000061 [(d.toNat, 20), (a.toNat, 15)] < 2 ^ 32 := by simp only [wordNat]; omega
  refine congrArg some (decodeHalf_of (word_ne_zero hn (by simp only [wordNat]; omega)) ?_ hw)
  rw [row0A (word_field 25 7 10 hn (by simp only [wordNat]; omega))]
  unfold decodeMajor0A
  rw [word_field 1 14 48 hn (by simp only [wordNat]; omega),
    word_field_is 20 d hn (by simp only [wordNat]; omega),
    word_field_is 15 a hn (by simp only [wordNat]; omega)]
  rfl

theorem Roundtrip.extb (d : BitVec 5) (a : BitVec 5) : Roundtrip.Statement (.extb d a) := by
  intro hw _
  have h_d := d.isLt
  have h_a := a.isLt
  have hn : wordNat 0x14000081 [(d.toNat, 20), (a.toNat, 15)] < 2 ^ 32 := by simp only [wordNat]; omega
  refine congrArg some (decodeHalf_of (word_ne_zero hn (by simp only [wordNat]; omega)) ?_ hw)
  rw [row0A (word_field 25 7 10 hn (by simp only [wordNat]; omega))]
  unfold decodeMajor0A
  rw [word_field 1 14 64 hn (by simp only [wordNat]; omega),
    word_field_is 20 d hn (by simp only [wordNat]; omega),
    word_field_is 15 a hn (by simp only [wordNat]; omega)]
  rfl

theorem Roundtrip.exth (d : BitVec 5) (a : BitVec 5) : Roundtrip.Statement (.exth d a) := by
  intro hw _
  have h_d := d.isLt
  have h_a := a.isLt
  have hn : wordNat 0x140000A1 [(d.toNat, 20), (a.toNat, 15)] < 2 ^ 32 := by simp only [wordNat]; omega
  refine congrArg some (decodeHalf_of (word_ne_zero hn (by simp only [wordNat]; omega)) ?_ hw)
  rw [row0A (word_field 25 7 10 hn (by simp only [wordNat]; omega))]
  unfold decodeMajor0A
  rw [word_field 1 14 80 hn (by simp only [wordNat]; omega),
    word_field_is 20 d hn (by simp only [wordNat]; omega),
    word_field_is 15 a hn (by simp only [wordNat]; omega)]
  rfl

theorem Roundtrip.extw (d : BitVec 5) (a : BitVec 5) : Roundtrip.Statement (.extw d a) := by
  intro hw _
  have h_d := d.isLt
  have h_a := a.isLt
  have hn : wordNat 0x140000C1 [(d.toNat, 20), (a.toNat, 15)] < 2 ^ 32 := by simp only [wordNat]; omega
  refine congrArg some (decodeHalf_of (word_ne_zero hn (by simp only [wordNat]; omega)) ?_ hw)
  rw [row0A (word_field 25 7 10 hn (by simp only [wordNat]; omega))]
  unfold decodeMajor0A
  rw [word_field 1 14 96 hn (by simp only [wordNat]; omega),
    word_field_is 20 d hn (by simp only [wordNat]; omega),
    word_field_is 15 a hn (by simp only [wordNat]; omega)]
  rfl

theorem Roundtrip.extbn (d : BitVec 5) (a : BitVec 5) : Roundtrip.Statement (.extbn d a) := by
  intro hw _
  have h_d := d.isLt
  have h_a := a.isLt
  have hn : wordNat 0x140000E1 [(d.toNat, 20), (a.toNat, 15)] < 2 ^ 32 := by simp only [wordNat]; omega
  refine congrArg some (decodeHalf_of (word_ne_zero hn (by simp only [wordNat]; omega)) ?_ hw)
  rw [row0A (word_field 25 7 10 hn (by simp only [wordNat]; omega))]
  unfold decodeMajor0A
  rw [word_field 1 14 112 hn (by simp only [wordNat]; omega),
    word_field_is 20 d hn (by simp only [wordNat]; omega),
    word_field_is 15 a hn (by simp only [wordNat]; omega)]
  rfl

theorem Roundtrip.exthn (d : BitVec 5) (a : BitVec 5) : Roundtrip.Statement (.exthn d a) := by
  intro hw _
  have h_d := d.isLt
  have h_a := a.isLt
  have hn : wordNat 0x14000101 [(d.toNat, 20), (a.toNat, 15)] < 2 ^ 32 := by simp only [wordNat]; omega
  refine congrArg some (decodeHalf_of (word_ne_zero hn (by simp only [wordNat]; omega)) ?_ hw)
  rw [row0A (word_field 25 7 10 hn (by simp only [wordNat]; omega))]
  unfold decodeMajor0A
  rw [word_field 1 14 128 hn (by simp only [wordNat]; omega),
    word_field_is 20 d hn (by simp only [wordNat]; omega),
    word_field_is 15 a hn (by simp only [wordNat]; omega)]
  rfl

theorem Roundtrip.extwn (d : BitVec 5) (a : BitVec 5) : Roundtrip.Statement (.extwn d a) := by
  intro hw _
  have h_d := d.isLt
  have h_a := a.isLt
  have hn : wordNat 0x14000121 [(d.toNat, 20), (a.toNat, 15)] < 2 ^ 32 := by simp only [wordNat]; omega
  refine congrArg some (decodeHalf_of (word_ne_zero hn (by simp only [wordNat]; omega)) ?_ hw)
  rw [row0A (word_field 25 7 10 hn (by simp only [wordNat]; omega))]
  unfold decodeMajor0A
  rw [word_field 1 14 144 hn (by simp only [wordNat]; omega),
    word_field_is 20 d hn (by simp only [wordNat]; omega),
    word_field_is 15 a hn (by simp only [wordNat]; omega)]
  rfl

theorem Roundtrip.cmp (p : BitVec 3) (c : BitVec 3) (a : BitVec 5) (b : BitVec 5) : Roundtrip.Statement (.cmp p c a b) := by
  intro hw _
  have h_p := p.isLt
  have h_c := c.isLt
  have h_a := a.isLt
  have h_b := b.isLt
  have hn : wordNat 0x16000001 [(p.toNat, 22), (c.toNat, 19), (a.toNat, 14), (b.toNat, 9)] < 2 ^ 32 := by simp only [wordNat]; omega
  refine congrArg some (decodeHalf_of (word_ne_zero hn (by simp only [wordNat]; omega)) ?_ hw)
  rw [row0B (word_field 25 7 11 hn (by simp only [wordNat]; omega))]
  unfold decodeMajor0B
  rw [word_field 1 8 0 hn (by simp only [wordNat]; omega),
    word_field_is 22 p hn (by simp only [wordNat]; omega),
    word_field_is 19 c hn (by simp only [wordNat]; omega),
    word_field_is 14 a hn (by simp only [wordNat]; omega),
    word_field_is 9 b hn (by simp only [wordNat]; omega)]
  rfl

theorem Roundtrip.cmpi (p : BitVec 3) (c : BitVec 3) (a : BitVec 5) (i : BitVec 13) : Roundtrip.Statement (.cmpi p c a i) := by
  intro hw _
  have h_p := p.isLt
  have h_c := c.isLt
  have h_a := a.isLt
  have h_i := i.isLt
  have hn : wordNat 0x18000001 [(p.toNat, 22), (c.toNat, 19), (a.toNat, 14), (i.toNat, 1)] < 2 ^ 32 := by simp only [wordNat]; omega
  refine congrArg some (decodeHalf_of (word_ne_zero hn (by simp only [wordNat]; omega)) ?_ hw)
  rw [row0C (word_field 25 7 12 hn (by simp only [wordNat]; omega))]
  unfold decodeMajor0C
  rw [word_field_is 22 p hn (by simp only [wordNat]; omega),
    word_field_is 19 c hn (by simp only [wordNat]; omega),
    word_field_is 14 a hn (by simp only [wordNat]; omega),
    word_field_is 1 i hn (by simp only [wordNat]; omega)]

theorem Roundtrip.plog (d : BitVec 3) (f : BitVec 3) (a : BitVec 3) (b : BitVec 3) : Roundtrip.Statement (.plog d f a b) := by
  intro hw _
  have h_d := d.isLt
  have h_f := f.isLt
  have h_a := a.isLt
  have h_b := b.isLt
  have hn : wordNat 0x1A000001 [(d.toNat, 22), (f.toNat, 19), (a.toNat, 16), (b.toNat, 13)] < 2 ^ 32 := by simp only [wordNat]; omega
  refine congrArg some (decodeHalf_of (word_ne_zero hn (by simp only [wordNat]; omega)) ?_ hw)
  rw [row0D (word_field 25 7 13 hn (by simp only [wordNat]; omega))]
  unfold decodeMajor0D
  rw [word_field 1 12 0 hn (by simp only [wordNat]; omega),
    word_field_is 22 d hn (by simp only [wordNat]; omega),
    word_field_is 19 f hn (by simp only [wordNat]; omega),
    word_field_is 16 a hn (by simp only [wordNat]; omega),
    word_field_is 13 b hn (by simp only [wordNat]; omega)]
  rfl

theorem Roundtrip.sel (d : BitVec 5) (a : BitVec 5) (b : BitVec 5) (g : BitVec 4) : Roundtrip.Statement (.sel d a b g) := by
  intro hw _
  have h_d := d.isLt
  have h_a := a.isLt
  have h_b := b.isLt
  have h_g := g.isLt
  have hn : wordNat 0x1C000001 [(d.toNat, 20), (a.toNat, 15), (b.toNat, 10), (g.toNat, 1)] < 2 ^ 32 := by simp only [wordNat]; omega
  refine congrArg some (decodeHalf_of (word_ne_zero hn (by simp only [wordNat]; omega)) ?_ hw)
  rw [row0E (word_field 25 7 14 hn (by simp only [wordNat]; omega))]
  unfold decodeMajor0E
  rw [word_field 5 5 0 hn (by simp only [wordNat]; omega),
    word_field_is 20 d hn (by simp only [wordNat]; omega),
    word_field_is 15 a hn (by simp only [wordNat]; omega),
    word_field_is 10 b hn (by simp only [wordNat]; omega),
    word_field_is 1 g hn (by simp only [wordNat]; omega)]
  rfl

theorem Roundtrip.pmovToReg (r : BitVec 5) : Roundtrip.Statement (.pmovToReg r) := by
  intro hw _
  have h_r := r.isLt
  have hn : wordNat 0x1E000001 [(r.toNat, 20)] < 2 ^ 32 := by simp only [wordNat]; omega
  refine congrArg some (decodeHalf_of (word_ne_zero hn (by simp only [wordNat]; omega)) ?_ hw)
  rw [row0F (word_field 25 7 15 hn (by simp only [wordNat]; omega))]
  unfold decodeMajor0F
  rw [word_field 1 19 0 hn (by simp only [wordNat]; omega),
    word_field_is 20 r hn (by simp only [wordNat]; omega)]
  rfl

theorem Roundtrip.pmovFromReg (r : BitVec 5) : Roundtrip.Statement (.pmovFromReg r) := by
  intro hw _
  have h_r := r.isLt
  have hn : wordNat 0x1E080001 [(r.toNat, 20)] < 2 ^ 32 := by simp only [wordNat]; omega
  refine congrArg some (decodeHalf_of (word_ne_zero hn (by simp only [wordNat]; omega)) ?_ hw)
  rw [row0F (word_field 25 7 15 hn (by simp only [wordNat]; omega))]
  unfold decodeMajor0F
  rw [word_field 1 19 262144 hn (by simp only [wordNat]; omega),
    word_field_is 20 r hn (by simp only [wordNat]; omega)]
  rfl

theorem Roundtrip.bc (d : BitVec 20) (g : BitVec 4) : Roundtrip.Statement (.bc d g) := by
  intro hw _
  have h_d := d.isLt
  have h_g := g.isLt
  have hn : wordNat 0x20000001 [(d.toNat, 5), (g.toNat, 1)] < 2 ^ 32 := by simp only [wordNat]; omega
  refine congrArg some (decodeHalf_of (word_ne_zero hn (by simp only [wordNat]; omega)) ?_ hw)
  rw [row10 (word_field 25 7 16 hn (by simp only [wordNat]; omega))]
  unfold decodeMajor10
  rw [word_field_is 5 d hn (by simp only [wordNat]; omega),
    word_field_is 1 g hn (by simp only [wordNat]; omega)]

theorem Roundtrip.bq (d : BitVec 20) : Roundtrip.Statement (.bq d) := by
  intro hw _
  have h_d := d.isLt
  have hn : wordNat 0x22000001 [(d.toNat, 5)] < 2 ^ 32 := by simp only [wordNat]; omega
  refine congrArg some (decodeHalf_of (word_ne_zero hn (by simp only [wordNat]; omega)) ?_ hw)
  rw [row11 (word_field 25 7 17 hn (by simp only [wordNat]; omega))]
  unfold decodeMajor11
  rw [word_field 1 4 0 hn (by simp only [wordNat]; omega),
    word_field_is 5 d hn (by simp only [wordNat]; omega)]
  rfl

theorem Roundtrip.bqN (d : BitVec 20) : Roundtrip.Statement (.bqN d) := by
  intro hw _
  have h_d := d.isLt
  have hn : wordNat 0x22000011 [(d.toNat, 5)] < 2 ^ 32 := by simp only [wordNat]; omega
  refine congrArg some (decodeHalf_of (word_ne_zero hn (by simp only [wordNat]; omega)) ?_ hw)
  rw [row11 (word_field 25 7 17 hn (by simp only [wordNat]; omega))]
  unfold decodeMajor11
  rw [word_field 1 4 8 hn (by simp only [wordNat]; omega),
    word_field_is 5 d hn (by simp only [wordNat]; omega)]
  rfl

theorem Roundtrip.bout (p : BitVec 3) : Roundtrip.Statement (.bout p) := by
  intro hw _
  have h_p := p.isLt
  have hn : wordNat 0x24000001 [(p.toNat, 22)] < 2 ^ 32 := by simp only [wordNat]; omega
  refine congrArg some (decodeHalf_of (word_ne_zero hn (by simp only [wordNat]; omega)) ?_ hw)
  rw [row12 (word_field 25 7 18 hn (by simp only [wordNat]; omega))]
  unfold decodeMajor12
  rw [word_field 1 21 0 hn (by simp only [wordNat]; omega),
    word_field_is 22 p hn (by simp only [wordNat]; omega)]
  rfl

theorem Roundtrip.jr (a : BitVec 5) : Roundtrip.Statement (.jr a) := by
  intro hw _
  have h_a := a.isLt
  have hn : wordNat 0x26000001 [(a.toNat, 15)] < 2 ^ 32 := by simp only [wordNat]; omega
  refine congrArg some (decodeHalf_of (word_ne_zero hn (by simp only [wordNat]; omega)) ?_ hw)
  rw [row13 (word_field 25 7 19 hn (by simp only [wordNat]; omega))]
  unfold decodeMajor13
  rw [word_field 20 5 0 hn (by simp only [wordNat]; omega),
    word_field 1 14 0 hn (by simp only [wordNat]; omega),
    word_field_is 15 a hn (by simp only [wordNat]; omega)]
  rfl

theorem Roundtrip.dbnz (r : BitVec 5) (d : BitVec 19) : Roundtrip.Statement (.dbnz r d) := by
  intro hw _
  have h_r := r.isLt
  have h_d := d.isLt
  have hn : wordNat 0x28000001 [(r.toNat, 20), (d.toNat, 1)] < 2 ^ 32 := by simp only [wordNat]; omega
  refine congrArg some (decodeHalf_of (word_ne_zero hn (by simp only [wordNat]; omega)) ?_ hw)
  rw [row14 (word_field 25 7 20 hn (by simp only [wordNat]; omega))]
  unfold decodeMajor14
  rw [word_field_is 20 r hn (by simp only [wordNat]; omega),
    word_field_is 1 d hn (by simp only [wordNat]; omega)]

theorem Roundtrip.twait (d : BitVec 5) (a : BitVec 5) : Roundtrip.Statement (.twait d a) := by
  intro hw _
  have h_d := d.isLt
  have h_a := a.isLt
  have hn : wordNat 0x2A000001 [(d.toNat, 20), (a.toNat, 15)] < 2 ^ 32 := by simp only [wordNat]; omega
  refine congrArg some (decodeHalf_of (word_ne_zero hn (by simp only [wordNat]; omega)) ?_ hw)
  rw [row15 (word_field 25 7 21 hn (by simp only [wordNat]; omega))]
  unfold decodeMajor15
  rw [word_field 1 14 0 hn (by simp only [wordNat]; omega),
    word_field_is 20 d hn (by simp only [wordNat]; omega),
    word_field_is 15 a hn (by simp only [wordNat]; omega)]
  rfl

theorem Roundtrip.bbset (a : BitVec 5) (b : BitVec 5) (o : BitVec 1) (m : BitVec 1) : Roundtrip.Statement (.bbset a b o m) := by
  intro hw _
  have h_a := a.isLt
  have h_b := b.isLt
  have h_o := o.isLt
  have h_m := m.isLt
  have hn : wordNat 0x30000001 [(a.toNat, 20), (b.toNat, 15), (o.toNat, 7), (m.toNat, 6)] < 2 ^ 32 := by simp only [wordNat]; omega
  refine congrArg some (decodeHalf_of (word_ne_zero hn (by simp only [wordNat]; omega)) ?_ hw)
  rw [row18 (word_field 25 7 24 hn (by simp only [wordNat]; omega))]
  unfold decodeMajor18
  rw [word_field 8 7 0 hn (by simp only [wordNat]; omega),
    word_field 1 5 0 hn (by simp only [wordNat]; omega),
    word_field_is 20 a hn (by simp only [wordNat]; omega),
    word_field_is 15 b hn (by simp only [wordNat]; omega),
    word_field_is 7 o hn (by simp only [wordNat]; omega),
    word_field_is 6 m hn (by simp only [wordNat]; omega)]
  rfl

theorem Roundtrip.bbget (d : BitVec 5) (w : BitVec 7) : Roundtrip.Statement (.bbget d w) := by
  intro hw _
  have h_d := d.isLt
  have h_w := w.isLt
  have hn : wordNat 0x32000001 [(d.toNat, 20), (w.toNat, 8)] < 2 ^ 32 := by simp only [wordNat]; omega
  refine congrArg some (decodeHalf_of (word_ne_zero hn (by simp only [wordNat]; omega)) ?_ hw)
  rw [row19 (word_field 25 7 25 hn (by simp only [wordNat]; omega))]
  unfold decodeMajor19
  rw [word_field 15 5 0 hn (by simp only [wordNat]; omega),
    word_field 1 7 0 hn (by simp only [wordNat]; omega),
    word_field_is 20 d hn (by simp only [wordNat]; omega),
    word_field_is 8 w hn (by simp only [wordNat]; omega)]
  rfl

theorem Roundtrip.bbpeek (d : BitVec 5) (w : BitVec 7) : Roundtrip.Statement (.bbpeek d w) := by
  intro hw _
  have h_d := d.isLt
  have h_w := w.isLt
  have hn : wordNat 0x34000001 [(d.toNat, 20), (w.toNat, 8)] < 2 ^ 32 := by simp only [wordNat]; omega
  refine congrArg some (decodeHalf_of (word_ne_zero hn (by simp only [wordNat]; omega)) ?_ hw)
  rw [row1A (word_field 25 7 26 hn (by simp only [wordNat]; omega))]
  unfold decodeMajor1A
  rw [word_field 15 5 0 hn (by simp only [wordNat]; omega),
    word_field 1 7 0 hn (by simp only [wordNat]; omega),
    word_field_is 20 d hn (by simp only [wordNat]; omega),
    word_field_is 8 w hn (by simp only [wordNat]; omega)]
  rfl

theorem Roundtrip.bbskip (w : BitVec 7) : Roundtrip.Statement (.bbskip w) := by
  intro hw _
  have h_w := w.isLt
  have hn : wordNat 0x36000001 [(w.toNat, 8)] < 2 ^ 32 := by simp only [wordNat]; omega
  refine congrArg some (decodeHalf_of (word_ne_zero hn (by simp only [wordNat]; omega)) ?_ hw)
  rw [row1B (word_field 25 7 27 hn (by simp only [wordNat]; omega))]
  unfold decodeMajor1B
  rw [word_field 15 10 0 hn (by simp only [wordNat]; omega),
    word_field 1 7 0 hn (by simp only [wordNat]; omega),
    word_field_is 8 w hn (by simp only [wordNat]; omega)]
  rfl

theorem Roundtrip.ld (d : BitVec 5) (a : BitVec 5) (s : BitVec 2) (n : BitVec 1) (i : BitVec 11) : Roundtrip.Statement (.ld d a s n i) := by
  intro hw _
  have h_d := d.isLt
  have h_a := a.isLt
  have h_s := s.isLt
  have h_n := n.isLt
  have h_i := i.isLt
  have hn : wordNat 0x40000001 [(d.toNat, 20), (a.toNat, 15), (s.toNat, 13), (n.toNat, 12), (i.toNat, 1)] < 2 ^ 32 := by simp only [wordNat]; omega
  refine congrArg some (decodeHalf_of (word_ne_zero hn (by simp only [wordNat]; omega)) ?_ hw)
  rw [row20 (word_field 25 7 32 hn (by simp only [wordNat]; omega))]
  unfold decodeMajor20
  rw [word_field_is 20 d hn (by simp only [wordNat]; omega),
    word_field_is 15 a hn (by simp only [wordNat]; omega),
    word_field_is 13 s hn (by simp only [wordNat]; omega),
    word_field_is 12 n hn (by simp only [wordNat]; omega),
    word_field_is 1 i hn (by simp only [wordNat]; omega)]

theorem Roundtrip.stb (v : BitVec 5) (a : BitVec 5) (i : BitVec 10) (g : BitVec 4) : Roundtrip.Statement (.stb v a i g) := by
  intro hw _
  have h_v := v.isLt
  have h_a := a.isLt
  have h_i := i.isLt
  have h_g := g.isLt
  have hn : wordNat 0x42000001 [(v.toNat, 20), (a.toNat, 15), (i.toNat, 5), (g.toNat, 1)] < 2 ^ 32 := by simp only [wordNat]; omega
  refine congrArg some (decodeHalf_of (word_ne_zero hn (by simp only [wordNat]; omega)) ?_ hw)
  rw [row21 (word_field 25 7 33 hn (by simp only [wordNat]; omega))]
  unfold decodeMajor21
  rw [word_field_is 20 v hn (by simp only [wordNat]; omega),
    word_field_is 15 a hn (by simp only [wordNat]; omega),
    word_field_is 5 i hn (by simp only [wordNat]; omega),
    word_field_is 1 g hn (by simp only [wordNat]; omega)]

theorem Roundtrip.sth (v : BitVec 5) (a : BitVec 5) (i : BitVec 10) (g : BitVec 4) : Roundtrip.Statement (.sth v a i g) := by
  intro hw _
  have h_v := v.isLt
  have h_a := a.isLt
  have h_i := i.isLt
  have h_g := g.isLt
  have hn : wordNat 0x44000001 [(v.toNat, 20), (a.toNat, 15), (i.toNat, 5), (g.toNat, 1)] < 2 ^ 32 := by simp only [wordNat]; omega
  refine congrArg some (decodeHalf_of (word_ne_zero hn (by simp only [wordNat]; omega)) ?_ hw)
  rw [row22 (word_field 25 7 34 hn (by simp only [wordNat]; omega))]
  unfold decodeMajor22
  rw [word_field_is 20 v hn (by simp only [wordNat]; omega),
    word_field_is 15 a hn (by simp only [wordNat]; omega),
    word_field_is 5 i hn (by simp only [wordNat]; omega),
    word_field_is 1 g hn (by simp only [wordNat]; omega)]

theorem Roundtrip.stw (v : BitVec 5) (a : BitVec 5) (i : BitVec 10) (g : BitVec 4) : Roundtrip.Statement (.stw v a i g) := by
  intro hw _
  have h_v := v.isLt
  have h_a := a.isLt
  have h_i := i.isLt
  have h_g := g.isLt
  have hn : wordNat 0x46000001 [(v.toNat, 20), (a.toNat, 15), (i.toNat, 5), (g.toNat, 1)] < 2 ^ 32 := by simp only [wordNat]; omega
  refine congrArg some (decodeHalf_of (word_ne_zero hn (by simp only [wordNat]; omega)) ?_ hw)
  rw [row23 (word_field 25 7 35 hn (by simp only [wordNat]; omega))]
  unfold decodeMajor23
  rw [word_field_is 20 v hn (by simp only [wordNat]; omega),
    word_field_is 15 a hn (by simp only [wordNat]; omega),
    word_field_is 5 i hn (by simp only [wordNat]; omega),
    word_field_is 1 g hn (by simp only [wordNat]; omega)]

theorem Roundtrip.std (v : BitVec 5) (a : BitVec 5) (i : BitVec 10) (g : BitVec 4) : Roundtrip.Statement (.std v a i g) := by
  intro hw _
  have h_v := v.isLt
  have h_a := a.isLt
  have h_i := i.isLt
  have h_g := g.isLt
  have hn : wordNat 0x48000001 [(v.toNat, 20), (a.toNat, 15), (i.toNat, 5), (g.toNat, 1)] < 2 ^ 32 := by simp only [wordNat]; omega
  refine congrArg some (decodeHalf_of (word_ne_zero hn (by simp only [wordNat]; omega)) ?_ hw)
  rw [row24 (word_field 25 7 36 hn (by simp only [wordNat]; omega))]
  unfold decodeMajor24
  rw [word_field_is 20 v hn (by simp only [wordNat]; omega),
    word_field_is 15 a hn (by simp only [wordNat]; omega),
    word_field_is 5 i hn (by simp only [wordNat]; omega),
    word_field_is 1 g hn (by simp only [wordNat]; omega)]

theorem Roundtrip.lda (d : BitVec 5) (a : BitVec 5) (s : BitVec 2) (n : BitVec 1) (c : BitVec 3) (i : BitVec 8) : Roundtrip.Statement (.lda d a s n c i) := by
  intro hw _
  have h_d := d.isLt
  have h_a := a.isLt
  have h_s := s.isLt
  have h_n := n.isLt
  have h_c := c.isLt
  have h_i := i.isLt
  have hn : wordNat 0x4A000001 [(d.toNat, 20), (a.toNat, 15), (s.toNat, 13), (n.toNat, 12), (c.toNat, 9), (i.toNat, 1)] < 2 ^ 32 := by simp only [wordNat]; omega
  refine congrArg some (decodeHalf_of (word_ne_zero hn (by simp only [wordNat]; omega)) ?_ hw)
  rw [row25 (word_field 25 7 37 hn (by simp only [wordNat]; omega))]
  unfold decodeMajor25
  rw [word_field_is 20 d hn (by simp only [wordNat]; omega),
    word_field_is 15 a hn (by simp only [wordNat]; omega),
    word_field_is 13 s hn (by simp only [wordNat]; omega),
    word_field_is 12 n hn (by simp only [wordNat]; omega),
    word_field_is 9 c hn (by simp only [wordNat]; omega),
    word_field_is 1 i hn (by simp only [wordNat]; omega)]

theorem Roundtrip.strel (v : BitVec 5) (a : BitVec 5) (s : BitVec 2) (c : BitVec 3) (g : BitVec 4) : Roundtrip.Statement (.strel v a s c g) := by
  intro hw _
  have h_v := v.isLt
  have h_a := a.isLt
  have h_s := s.isLt
  have h_c := c.isLt
  have h_g := g.isLt
  have hn : wordNat 0x4C000001 [(v.toNat, 20), (a.toNat, 15), (s.toNat, 13), (c.toNat, 10), (g.toNat, 1)] < 2 ^ 32 := by simp only [wordNat]; omega
  refine congrArg some (decodeHalf_of (word_ne_zero hn (by simp only [wordNat]; omega)) ?_ hw)
  rw [row26 (word_field 25 7 38 hn (by simp only [wordNat]; omega))]
  unfold decodeMajor26
  rw [word_field 5 5 0 hn (by simp only [wordNat]; omega),
    word_field_is 20 v hn (by simp only [wordNat]; omega),
    word_field_is 15 a hn (by simp only [wordNat]; omega),
    word_field_is 13 s hn (by simp only [wordNat]; omega),
    word_field_is 10 c hn (by simp only [wordNat]; omega),
    word_field_is 1 g hn (by simp only [wordNat]; omega)]
  rfl

theorem Roundtrip.ldv (d : BitVec 5) (a : BitVec 5) (i : BitVec 14) : Roundtrip.Statement (.ldv d a i) := by
  intro hw _
  have h_d := d.isLt
  have h_a := a.isLt
  have h_i := i.isLt
  have hn : wordNat 0x4E000001 [(d.toNat, 20), (a.toNat, 15), (i.toNat, 1)] < 2 ^ 32 := by simp only [wordNat]; omega
  refine congrArg some (decodeHalf_of (word_ne_zero hn (by simp only [wordNat]; omega)) ?_ hw)
  rw [row27 (word_field 25 7 39 hn (by simp only [wordNat]; omega))]
  unfold decodeMajor27
  rw [word_field_is 20 d hn (by simp only [wordNat]; omega),
    word_field_is 15 a hn (by simp only [wordNat]; omega),
    word_field_is 1 i hn (by simp only [wordNat]; omega)]

theorem Roundtrip.stv (v : BitVec 5) (a : BitVec 5) (i : BitVec 10) (g : BitVec 4) : Roundtrip.Statement (.stv v a i g) := by
  intro hw _
  have h_v := v.isLt
  have h_a := a.isLt
  have h_i := i.isLt
  have h_g := g.isLt
  have hn : wordNat 0x50000001 [(v.toNat, 20), (a.toNat, 15), (i.toNat, 5), (g.toNat, 1)] < 2 ^ 32 := by simp only [wordNat]; omega
  refine congrArg some (decodeHalf_of (word_ne_zero hn (by simp only [wordNat]; omega)) ?_ hw)
  rw [row28 (word_field 25 7 40 hn (by simp only [wordNat]; omega))]
  unfold decodeMajor28
  rw [word_field_is 20 v hn (by simp only [wordNat]; omega),
    word_field_is 15 a hn (by simp only [wordNat]; omega),
    word_field_is 5 i hn (by simp only [wordNat]; omega),
    word_field_is 1 g hn (by simp only [wordNat]; omega)]

theorem Roundtrip.gath (d : BitVec 5) (a : BitVec 5) (b : BitVec 5) (s : BitVec 2) (n : BitVec 1) (x : BitVec 1) : Roundtrip.Statement (.gath d a b s n x) := by
  intro hw _
  have h_d := d.isLt
  have h_a := a.isLt
  have h_b := b.isLt
  have h_s := s.isLt
  have h_n := n.isLt
  have h_x := x.isLt
  have hn : wordNat 0x52000001 [(d.toNat, 20), (a.toNat, 15), (b.toNat, 10), (s.toNat, 8), (n.toNat, 7), (x.toNat, 5)] < 2 ^ 32 := by simp only [wordNat]; omega
  refine congrArg some (decodeHalf_of (word_ne_zero hn (by simp only [wordNat]; omega)) ?_ hw)
  rw [row29 (word_field 25 7 41 hn (by simp only [wordNat]; omega))]
  unfold decodeMajor29
  rw [word_field 6 1 0 hn (by simp only [wordNat]; omega),
    word_field 1 4 0 hn (by simp only [wordNat]; omega),
    word_field_is 20 d hn (by simp only [wordNat]; omega),
    word_field_is 15 a hn (by simp only [wordNat]; omega),
    word_field_is 10 b hn (by simp only [wordNat]; omega),
    word_field_is 8 s hn (by simp only [wordNat]; omega),
    word_field_is 7 n hn (by simp only [wordNat]; omega),
    word_field_is 5 x hn (by simp only [wordNat]; omega)]
  rfl

theorem Roundtrip.gathT (d : BitVec 5) (a : BitVec 5) (b : BitVec 5) (s : BitVec 2) (n : BitVec 1) (x : BitVec 1) : Roundtrip.Statement (.gathT d a b s n x) := by
  intro hw _
  have h_d := d.isLt
  have h_a := a.isLt
  have h_b := b.isLt
  have h_s := s.isLt
  have h_n := n.isLt
  have h_x := x.isLt
  have hn : wordNat 0x52000041 [(d.toNat, 20), (a.toNat, 15), (b.toNat, 10), (s.toNat, 8), (n.toNat, 7), (x.toNat, 5)] < 2 ^ 32 := by simp only [wordNat]; omega
  refine congrArg some (decodeHalf_of (word_ne_zero hn (by simp only [wordNat]; omega)) ?_ hw)
  rw [row29 (word_field 25 7 41 hn (by simp only [wordNat]; omega))]
  unfold decodeMajor29
  rw [word_field 6 1 1 hn (by simp only [wordNat]; omega),
    word_field 1 4 0 hn (by simp only [wordNat]; omega),
    word_field_is 20 d hn (by simp only [wordNat]; omega),
    word_field_is 15 a hn (by simp only [wordNat]; omega),
    word_field_is 10 b hn (by simp only [wordNat]; omega),
    word_field_is 8 s hn (by simp only [wordNat]; omega),
    word_field_is 7 n hn (by simp only [wordNat]; omega),
    word_field_is 5 x hn (by simp only [wordNat]; omega)]
  rfl

theorem Roundtrip.scat (v : BitVec 5) (a : BitVec 5) (b : BitVec 5) (s : BitVec 2) (x : BitVec 1) (g : BitVec 4) : Roundtrip.Statement (.scat v a b s x g) := by
  intro hw _
  have h_v := v.isLt
  have h_a := a.isLt
  have h_b := b.isLt
  have h_s := s.isLt
  have h_x := x.isLt
  have h_g := g.isLt
  have hn : wordNat 0x54000001 [(v.toNat, 20), (a.toNat, 15), (b.toNat, 10), (s.toNat, 8), (x.toNat, 5), (g.toNat, 1)] < 2 ^ 32 := by simp only [wordNat]; omega
  refine congrArg some (decodeHalf_of (word_ne_zero hn (by simp only [wordNat]; omega)) ?_ hw)
  rw [row2A (word_field 25 7 42 hn (by simp only [wordNat]; omega))]
  unfold decodeMajor2A
  rw [word_field 6 2 0 hn (by simp only [wordNat]; omega),
    word_field_is 20 v hn (by simp only [wordNat]; omega),
    word_field_is 15 a hn (by simp only [wordNat]; omega),
    word_field_is 10 b hn (by simp only [wordNat]; omega),
    word_field_is 8 s hn (by simp only [wordNat]; omega),
    word_field_is 5 x hn (by simp only [wordNat]; omega),
    word_field_is 1 g hn (by simp only [wordNat]; omega)]
  rfl

theorem Roundtrip.amo (d : BitVec 5) (a : BitVec 5) (o : BitVec 4) (s : BitVec 1) (r : BitVec 2) (c : BitVec 3) (g : BitVec 4) : Roundtrip.Statement (.amo d a o s r c g) := by
  intro hw _
  have h_d := d.isLt
  have h_a := a.isLt
  have h_o := o.isLt
  have h_s := s.isLt
  have h_r := r.isLt
  have h_c := c.isLt
  have h_g := g.isLt
  have hn : wordNat 0x56000001 [(d.toNat, 20), (a.toNat, 15), (o.toNat, 11), (s.toNat, 10), (r.toNat, 8), (c.toNat, 5), (g.toNat, 1)] < 2 ^ 32 := by simp only [wordNat]; omega
  refine congrArg some (decodeHalf_of (word_ne_zero hn (by simp only [wordNat]; omega)) ?_ hw)
  rw [row2B (word_field 25 7 43 hn (by simp only [wordNat]; omega))]
  unfold decodeMajor2B
  rw [word_field_is 20 d hn (by simp only [wordNat]; omega),
    word_field_is 15 a hn (by simp only [wordNat]; omega),
    word_field_is 11 o hn (by simp only [wordNat]; omega),
    word_field_is 10 s hn (by simp only [wordNat]; omega),
    word_field_is 8 r hn (by simp only [wordNat]; omega),
    word_field_is 5 c hn (by simp only [wordNat]; omega),
    word_field_is 1 g hn (by simp only [wordNat]; omega)]

theorem Roundtrip.amon (v : BitVec 5) (a : BitVec 5) (o : BitVec 4) (s : BitVec 1) (g : BitVec 4) : Roundtrip.Statement (.amon v a o s g) := by
  intro hw _
  have h_v := v.isLt
  have h_a := a.isLt
  have h_o := o.isLt
  have h_s := s.isLt
  have h_g := g.isLt
  have hn : wordNat 0x58000001 [(v.toNat, 20), (a.toNat, 15), (o.toNat, 11), (s.toNat, 10), (g.toNat, 1)] < 2 ^ 32 := by simp only [wordNat]; omega
  refine congrArg some (decodeHalf_of (word_ne_zero hn (by simp only [wordNat]; omega)) ?_ hw)
  rw [row2C (word_field 25 7 44 hn (by simp only [wordNat]; omega))]
  unfold decodeMajor2C
  rw [word_field 5 5 0 hn (by simp only [wordNat]; omega),
    word_field_is 20 v hn (by simp only [wordNat]; omega),
    word_field_is 15 a hn (by simp only [wordNat]; omega),
    word_field_is 11 o hn (by simp only [wordNat]; omega),
    word_field_is 10 s hn (by simp only [wordNat]; omega),
    word_field_is 1 g hn (by simp only [wordNat]; omega)]
  rfl

theorem Roundtrip.cas (d : BitVec 5) (a : BitVec 5) (s : BitVec 1) (r : BitVec 2) (c : BitVec 3) (g : BitVec 4) : Roundtrip.Statement (.cas d a s r c g) := by
  intro hw _
  have h_d := d.isLt
  have h_a := a.isLt
  have h_s := s.isLt
  have h_r := r.isLt
  have h_c := c.isLt
  have h_g := g.isLt
  have hn : wordNat 0x5A000001 [(d.toNat, 20), (a.toNat, 15), (s.toNat, 10), (r.toNat, 8), (c.toNat, 5), (g.toNat, 1)] < 2 ^ 32 := by simp only [wordNat]; omega
  refine congrArg some (decodeHalf_of (word_ne_zero hn (by simp only [wordNat]; omega)) ?_ hw)
  rw [row2D (word_field 25 7 45 hn (by simp only [wordNat]; omega))]
  unfold decodeMajor2D
  rw [word_field 11 4 0 hn (by simp only [wordNat]; omega),
    word_field_is 20 d hn (by simp only [wordNat]; omega),
    word_field_is 15 a hn (by simp only [wordNat]; omega),
    word_field_is 10 s hn (by simp only [wordNat]; omega),
    word_field_is 8 r hn (by simp only [wordNat]; omega),
    word_field_is 5 c hn (by simp only [wordNat]; omega),
    word_field_is 1 g hn (by simp only [wordNat]; omega)]
  rfl

theorem Roundtrip.fence (d : BitVec 5) (k : BitVec 2) (c : BitVec 3) : Roundtrip.Statement (.fence d k c) := by
  intro hw _
  have h_d := d.isLt
  have h_k := k.isLt
  have h_c := c.isLt
  have hn : wordNat 0x5C000001 [(d.toNat, 20), (k.toNat, 18), (c.toNat, 15)] < 2 ^ 32 := by simp only [wordNat]; omega
  refine congrArg some (decodeHalf_of (word_ne_zero hn (by simp only [wordNat]; omega)) ?_ hw)
  rw [row2E (word_field 25 7 46 hn (by simp only [wordNat]; omega))]
  unfold decodeMajor2E
  rw [word_field 1 14 0 hn (by simp only [wordNat]; omega),
    word_field_is 20 d hn (by simp only [wordNat]; omega),
    word_field_is 18 k hn (by simp only [wordNat]; omega),
    word_field_is 15 c hn (by simp only [wordNat]; omega)]
  rfl

theorem Roundtrip.calld (h : BitVec 5) (k : BitVec 12) : Roundtrip.Statement (.calld h k) := by
  intro hw _
  have h_h := h.isLt
  have h_k := k.isLt
  have hn : wordNat 0x60000001 [(h.toNat, 20), (k.toNat, 8)] < 2 ^ 32 := by simp only [wordNat]; omega
  refine congrArg some (decodeHalf_of (word_ne_zero hn (by simp only [wordNat]; omega)) ?_ hw)
  rw [row30 (word_field 25 7 48 hn (by simp only [wordNat]; omega))]
  unfold decodeMajor30
  rw [word_field 1 7 0 hn (by simp only [wordNat]; omega),
    word_field_is 20 h hn (by simp only [wordNat]; omega),
    word_field_is 8 k hn (by simp only [wordNat]; omega)]
  rfl

theorem Roundtrip.taild (h : BitVec 5) (k : BitVec 12) : Roundtrip.Statement (.taild h k) := by
  intro hw _
  have h_h := h.isLt
  have h_k := k.isLt
  have hn : wordNat 0x62000001 [(h.toNat, 20), (k.toNat, 8)] < 2 ^ 32 := by simp only [wordNat]; omega
  refine congrArg some (decodeHalf_of (word_ne_zero hn (by simp only [wordNat]; omega)) ?_ hw)
  rw [row31 (word_field 25 7 49 hn (by simp only [wordNat]; omega))]
  unfold decodeMajor31
  rw [word_field 1 7 0 hn (by simp only [wordNat]; omega),
    word_field_is 20 h hn (by simp only [wordNat]; omega),
    word_field_is 8 k hn (by simp only [wordNat]; omega)]
  rfl

theorem Roundtrip.susp (k : BitVec 12) : Roundtrip.Statement (.susp k) := by
  intro hw _
  have h_k := k.isLt
  have hn : wordNat 0x66000001 [(k.toNat, 8)] < 2 ^ 32 := by simp only [wordNat]; omega
  refine congrArg some (decodeHalf_of (word_ne_zero hn (by simp only [wordNat]; omega)) ?_ hw)
  rw [row33 (word_field 25 7 51 hn (by simp only [wordNat]; omega))]
  unfold decodeMajor33
  rw [word_field 20 5 0 hn (by simp only [wordNat]; omega),
    word_field 1 7 0 hn (by simp only [wordNat]; omega),
    word_field_is 8 k hn (by simp only [wordNat]; omega)]
  rfl

theorem Roundtrip.spawn (d : BitVec 5) (a : BitVec 5) (b : BitVec 5) : Roundtrip.Statement (.spawn d a b) := by
  intro hw _
  have h_d := d.isLt
  have h_a := a.isLt
  have h_b := b.isLt
  have hn : wordNat 0x6A000001 [(d.toNat, 20), (a.toNat, 15), (b.toNat, 10)] < 2 ^ 32 := by simp only [wordNat]; omega
  refine congrArg some (decodeHalf_of (word_ne_zero hn (by simp only [wordNat]; omega)) ?_ hw)
  rw [row35 (word_field 25 7 53 hn (by simp only [wordNat]; omega))]
  unfold decodeMajor35
  rw [word_field 1 9 0 hn (by simp only [wordNat]; omega),
    word_field_is 20 d hn (by simp only [wordNat]; omega),
    word_field_is 15 a hn (by simp only [wordNat]; omega),
    word_field_is 10 b hn (by simp only [wordNat]; omega)]
  rfl

theorem Roundtrip.send (d : BitVec 5) (a : BitVec 5) (s : BitVec 5) (c : BitVec 4) : Roundtrip.Statement (.send d a s c) := by
  intro hw _
  have h_d := d.isLt
  have h_a := a.isLt
  have h_s := s.isLt
  have h_c := c.isLt
  have hn : wordNat 0x6C000001 [(d.toNat, 20), (a.toNat, 15), (s.toNat, 10), (c.toNat, 6)] < 2 ^ 32 := by simp only [wordNat]; omega
  refine congrArg some (decodeHalf_of (word_ne_zero hn (by simp only [wordNat]; omega)) ?_ hw)
  rw [row36 (word_field 25 7 54 hn (by simp only [wordNat]; omega))]
  unfold decodeMajor36
  rw [word_field 1 5 0 hn (by simp only [wordNat]; omega),
    word_field_is 20 d hn (by simp only [wordNat]; omega),
    word_field_is 15 a hn (by simp only [wordNat]; omega),
    word_field_is 10 s hn (by simp only [wordNat]; omega),
    word_field_is 6 c hn (by simp only [wordNat]; omega)]
  rfl

theorem Roundtrip.recv (d : BitVec 5) (a : BitVec 5) (c : BitVec 4) : Roundtrip.Statement (.recv d a c) := by
  intro hw _
  have h_d := d.isLt
  have h_a := a.isLt
  have h_c := c.isLt
  have hn : wordNat 0x6E000001 [(d.toNat, 20), (a.toNat, 15), (c.toNat, 11)] < 2 ^ 32 := by simp only [wordNat]; omega
  refine congrArg some (decodeHalf_of (word_ne_zero hn (by simp only [wordNat]; omega)) ?_ hw)
  rw [row37 (word_field 25 7 55 hn (by simp only [wordNat]; omega))]
  unfold decodeMajor37
  rw [word_field 1 10 0 hn (by simp only [wordNat]; omega),
    word_field_is 20 d hn (by simp only [wordNat]; omega),
    word_field_is 15 a hn (by simp only [wordNat]; omega),
    word_field_is 11 c hn (by simp only [wordNat]; omega)]
  rfl

theorem Roundtrip.recvT (d : BitVec 5) (a : BitVec 5) (c : BitVec 4) : Roundtrip.Statement (.recvT d a c) := by
  intro hw _
  have h_d := d.isLt
  have h_a := a.isLt
  have h_c := c.isLt
  have hn : wordNat 0x6E000401 [(d.toNat, 20), (a.toNat, 15), (c.toNat, 11)] < 2 ^ 32 := by simp only [wordNat]; omega
  refine congrArg some (decodeHalf_of (word_ne_zero hn (by simp only [wordNat]; omega)) ?_ hw)
  rw [row37 (word_field 25 7 55 hn (by simp only [wordNat]; omega))]
  unfold decodeMajor37
  rw [word_field 1 10 512 hn (by simp only [wordNat]; omega),
    word_field_is 20 d hn (by simp only [wordNat]; omega),
    word_field_is 15 a hn (by simp only [wordNat]; omega),
    word_field_is 11 c hn (by simp only [wordNat]; omega)]
  rfl

theorem Roundtrip.csrr (d : BitVec 5) (c : BitVec 12) : Roundtrip.Statement (.csrr d c) := by
  intro hw _
  have h_d := d.isLt
  have h_c := c.isLt
  have hn : wordNat 0x72000001 [(d.toNat, 20), (c.toNat, 8)] < 2 ^ 32 := by simp only [wordNat]; omega
  refine congrArg some (decodeHalf_of (word_ne_zero hn (by simp only [wordNat]; omega)) ?_ hw)
  rw [row39 (word_field 25 7 57 hn (by simp only [wordNat]; omega))]
  unfold decodeMajor39
  rw [word_field 1 7 0 hn (by simp only [wordNat]; omega),
    word_field_is 20 d hn (by simp only [wordNat]; omega),
    word_field_is 8 c hn (by simp only [wordNat]; omega)]
  rfl

theorem Roundtrip.csrw (a : BitVec 5) (c : BitVec 12) : Roundtrip.Statement (.csrw a c) := by
  intro hw _
  have h_a := a.isLt
  have h_c := c.isLt
  have hn : wordNat 0x74000001 [(a.toNat, 20), (c.toNat, 8)] < 2 ^ 32 := by simp only [wordNat]; omega
  refine congrArg some (decodeHalf_of (word_ne_zero hn (by simp only [wordNat]; omega)) ?_ hw)
  rw [row3A (word_field 25 7 58 hn (by simp only [wordNat]; omega))]
  unfold decodeMajor3A
  rw [word_field 1 7 0 hn (by simp only [wordNat]; omega),
    word_field_is 20 a hn (by simp only [wordNat]; omega),
    word_field_is 8 c hn (by simp only [wordNat]; omega)]
  rfl

theorem Roundtrip.trap (c : BitVec 16) : Roundtrip.Statement (.trap c) := by
  intro hw _
  have h_c := c.isLt
  have hn : wordNat 0x76000001 [(c.toNat, 9)] < 2 ^ 32 := by simp only [wordNat]; omega
  refine congrArg some (decodeHalf_of (word_ne_zero hn (by simp only [wordNat]; omega)) ?_ hw)
  rw [row3B (word_field 25 7 59 hn (by simp only [wordNat]; omega))]
  unfold decodeMajor3B
  rw [word_field 1 8 0 hn (by simp only [wordNat]; omega),
    word_field_is 9 c hn (by simp only [wordNat]; omega)]
  rfl

theorem Roundtrip.sysPlbinv (a : BitVec 5) (b : BitVec 5) : Roundtrip.Statement (.sysPlbinv a b) := by
  intro hw _
  have h_a := a.isLt
  have h_b := b.isLt
  have hn : wordNat 0x7A000001 [(a.toNat, 15), (b.toNat, 10)] < 2 ^ 32 := by simp only [wordNat]; omega
  refine congrArg some (decodeHalf_of (word_ne_zero hn (by simp only [wordNat]; omega)) ?_ hw)
  rw [row3D (word_field 25 7 61 hn (by simp only [wordNat]; omega))]
  unfold decodeMajor3D
  rw [word_field 20 5 0 hn (by simp only [wordNat]; omega),
    word_field 1 9 0 hn (by simp only [wordNat]; omega),
    word_field_is 15 a hn (by simp only [wordNat]; omega),
    word_field_is 10 b hn (by simp only [wordNat]; omega)]
  rfl

theorem Roundtrip.sysCsinv (a : BitVec 5) : Roundtrip.Statement (.sysCsinv a) := by
  intro hw _
  have h_a := a.isLt
  have hn : wordNat 0x7A000021 [(a.toNat, 15)] < 2 ^ 32 := by simp only [wordNat]; omega
  refine congrArg some (decodeHalf_of (word_ne_zero hn (by simp only [wordNat]; omega)) ?_ hw)
  rw [row3D (word_field 25 7 61 hn (by simp only [wordNat]; omega))]
  unfold decodeMajor3D
  rw [word_field 20 5 0 hn (by simp only [wordNat]; omega),
    word_field 1 9 16 hn (by simp only [wordNat]; omega),
    word_field 1 14 16 hn (by simp only [wordNat]; omega),
    word_field_is 15 a hn (by simp only [wordNat]; omega)]
  rfl

theorem Roundtrip.sysQflush (a : BitVec 5) : Roundtrip.Statement (.sysQflush a) := by
  intro hw _
  have h_a := a.isLt
  have hn : wordNat 0x7A000041 [(a.toNat, 15)] < 2 ^ 32 := by simp only [wordNat]; omega
  refine congrArg some (decodeHalf_of (word_ne_zero hn (by simp only [wordNat]; omega)) ?_ hw)
  rw [row3D (word_field 25 7 61 hn (by simp only [wordNat]; omega))]
  unfold decodeMajor3D
  rw [word_field 20 5 0 hn (by simp only [wordNat]; omega),
    word_field 1 9 32 hn (by simp only [wordNat]; omega),
    word_field 1 14 32 hn (by simp only [wordNat]; omega),
    word_field_is 15 a hn (by simp only [wordNat]; omega)]
  rfl

theorem Roundtrip.sysEvcfg (a : BitVec 5) (b : BitVec 5) : Roundtrip.Statement (.sysEvcfg a b) := by
  intro hw _
  have h_a := a.isLt
  have h_b := b.isLt
  have hn : wordNat 0x7A000061 [(a.toNat, 15), (b.toNat, 10)] < 2 ^ 32 := by simp only [wordNat]; omega
  refine congrArg some (decodeHalf_of (word_ne_zero hn (by simp only [wordNat]; omega)) ?_ hw)
  rw [row3D (word_field 25 7 61 hn (by simp only [wordNat]; omega))]
  unfold decodeMajor3D
  rw [word_field 20 5 0 hn (by simp only [wordNat]; omega),
    word_field 1 9 48 hn (by simp only [wordNat]; omega),
    word_field_ne 1 14 16 hn (by simp only [wordNat]; omega),
    word_field_ne 1 14 32 hn (by simp only [wordNat]; omega),
    word_field_is 15 a hn (by simp only [wordNat]; omega),
    word_field_is 10 b hn (by simp only [wordNat]; omega)]
  rfl

theorem Roundtrip.vadd (d : BitVec 6) (a : BitVec 6) (b : BitVec 6) (t : BitVec 3) : Roundtrip.Statement (.vadd d a b t) := by
  intro hw _
  have h_d := d.isLt
  have h_a := a.isLt
  have h_b := b.isLt
  have h_t := t.isLt
  have hn : wordNat 0x80000001 [(d.toNat, 19), (a.toNat, 13), (b.toNat, 7), (t.toNat, 4)] < 2 ^ 32 := by simp only [wordNat]; omega
  refine congrArg some (decodeHalf_of (word_ne_zero hn (by simp only [wordNat]; omega)) ?_ hw)
  rw [row40 (word_field 25 7 64 hn (by simp only [wordNat]; omega))]
  unfold decodeMajor40
  rw [word_field 1 3 0 hn (by simp only [wordNat]; omega),
    word_field_is 19 d hn (by simp only [wordNat]; omega),
    word_field_is 13 a hn (by simp only [wordNat]; omega),
    word_field_is 7 b hn (by simp only [wordNat]; omega),
    word_field_is 4 t hn (by simp only [wordNat]; omega)]
  rfl

theorem Roundtrip.vaddSatI (d : BitVec 6) (a : BitVec 6) (b : BitVec 6) (t : BitVec 3) : Roundtrip.Statement (.vaddSatI d a b t) := by
  intro hw _
  have h_d := d.isLt
  have h_a := a.isLt
  have h_b := b.isLt
  have h_t := t.isLt
  have hn : wordNat 0x80000003 [(d.toNat, 19), (a.toNat, 13), (b.toNat, 7), (t.toNat, 4)] < 2 ^ 32 := by simp only [wordNat]; omega
  refine congrArg some (decodeHalf_of (word_ne_zero hn (by simp only [wordNat]; omega)) ?_ hw)
  rw [row40 (word_field 25 7 64 hn (by simp only [wordNat]; omega))]
  unfold decodeMajor40
  rw [word_field 1 3 1 hn (by simp only [wordNat]; omega),
    word_field_is 19 d hn (by simp only [wordNat]; omega),
    word_field_is 13 a hn (by simp only [wordNat]; omega),
    word_field_is 7 b hn (by simp only [wordNat]; omega),
    word_field_is 4 t hn (by simp only [wordNat]; omega)]
  rfl

theorem Roundtrip.vaddSatN (d : BitVec 6) (a : BitVec 6) (b : BitVec 6) (t : BitVec 3) : Roundtrip.Statement (.vaddSatN d a b t) := by
  intro hw _
  have h_d := d.isLt
  have h_a := a.isLt
  have h_b := b.isLt
  have h_t := t.isLt
  have hn : wordNat 0x80000005 [(d.toNat, 19), (a.toNat, 13), (b.toNat, 7), (t.toNat, 4)] < 2 ^ 32 := by simp only [wordNat]; omega
  refine congrArg some (decodeHalf_of (word_ne_zero hn (by simp only [wordNat]; omega)) ?_ hw)
  rw [row40 (word_field 25 7 64 hn (by simp only [wordNat]; omega))]
  unfold decodeMajor40
  rw [word_field 1 3 2 hn (by simp only [wordNat]; omega),
    word_field_is 19 d hn (by simp only [wordNat]; omega),
    word_field_is 13 a hn (by simp only [wordNat]; omega),
    word_field_is 7 b hn (by simp only [wordNat]; omega),
    word_field_is 4 t hn (by simp only [wordNat]; omega)]
  rfl

theorem Roundtrip.vsub (d : BitVec 6) (a : BitVec 6) (b : BitVec 6) (t : BitVec 3) : Roundtrip.Statement (.vsub d a b t) := by
  intro hw _
  have h_d := d.isLt
  have h_a := a.isLt
  have h_b := b.isLt
  have h_t := t.isLt
  have hn : wordNat 0x82000001 [(d.toNat, 19), (a.toNat, 13), (b.toNat, 7), (t.toNat, 4)] < 2 ^ 32 := by simp only [wordNat]; omega
  refine congrArg some (decodeHalf_of (word_ne_zero hn (by simp only [wordNat]; omega)) ?_ hw)
  rw [row41 (word_field 25 7 65 hn (by simp only [wordNat]; omega))]
  unfold decodeMajor41
  rw [word_field 1 3 0 hn (by simp only [wordNat]; omega),
    word_field_is 19 d hn (by simp only [wordNat]; omega),
    word_field_is 13 a hn (by simp only [wordNat]; omega),
    word_field_is 7 b hn (by simp only [wordNat]; omega),
    word_field_is 4 t hn (by simp only [wordNat]; omega)]
  rfl

theorem Roundtrip.vsubSatI (d : BitVec 6) (a : BitVec 6) (b : BitVec 6) (t : BitVec 3) : Roundtrip.Statement (.vsubSatI d a b t) := by
  intro hw _
  have h_d := d.isLt
  have h_a := a.isLt
  have h_b := b.isLt
  have h_t := t.isLt
  have hn : wordNat 0x82000003 [(d.toNat, 19), (a.toNat, 13), (b.toNat, 7), (t.toNat, 4)] < 2 ^ 32 := by simp only [wordNat]; omega
  refine congrArg some (decodeHalf_of (word_ne_zero hn (by simp only [wordNat]; omega)) ?_ hw)
  rw [row41 (word_field 25 7 65 hn (by simp only [wordNat]; omega))]
  unfold decodeMajor41
  rw [word_field 1 3 1 hn (by simp only [wordNat]; omega),
    word_field_is 19 d hn (by simp only [wordNat]; omega),
    word_field_is 13 a hn (by simp only [wordNat]; omega),
    word_field_is 7 b hn (by simp only [wordNat]; omega),
    word_field_is 4 t hn (by simp only [wordNat]; omega)]
  rfl

theorem Roundtrip.vsubSatN (d : BitVec 6) (a : BitVec 6) (b : BitVec 6) (t : BitVec 3) : Roundtrip.Statement (.vsubSatN d a b t) := by
  intro hw _
  have h_d := d.isLt
  have h_a := a.isLt
  have h_b := b.isLt
  have h_t := t.isLt
  have hn : wordNat 0x82000005 [(d.toNat, 19), (a.toNat, 13), (b.toNat, 7), (t.toNat, 4)] < 2 ^ 32 := by simp only [wordNat]; omega
  refine congrArg some (decodeHalf_of (word_ne_zero hn (by simp only [wordNat]; omega)) ?_ hw)
  rw [row41 (word_field 25 7 65 hn (by simp only [wordNat]; omega))]
  unfold decodeMajor41
  rw [word_field 1 3 2 hn (by simp only [wordNat]; omega),
    word_field_is 19 d hn (by simp only [wordNat]; omega),
    word_field_is 13 a hn (by simp only [wordNat]; omega),
    word_field_is 7 b hn (by simp only [wordNat]; omega),
    word_field_is 4 t hn (by simp only [wordNat]; omega)]
  rfl

theorem Roundtrip.vmul (d : BitVec 6) (a : BitVec 6) (b : BitVec 6) (t : BitVec 3) : Roundtrip.Statement (.vmul d a b t) := by
  intro hw _
  have h_d := d.isLt
  have h_a := a.isLt
  have h_b := b.isLt
  have h_t := t.isLt
  have hn : wordNat 0x84000001 [(d.toNat, 19), (a.toNat, 13), (b.toNat, 7), (t.toNat, 4)] < 2 ^ 32 := by simp only [wordNat]; omega
  refine congrArg some (decodeHalf_of (word_ne_zero hn (by simp only [wordNat]; omega)) ?_ hw)
  rw [row42 (word_field 25 7 66 hn (by simp only [wordNat]; omega))]
  unfold decodeMajor42
  rw [word_field 1 3 0 hn (by simp only [wordNat]; omega),
    word_field_is 19 d hn (by simp only [wordNat]; omega),
    word_field_is 13 a hn (by simp only [wordNat]; omega),
    word_field_is 7 b hn (by simp only [wordNat]; omega),
    word_field_is 4 t hn (by simp only [wordNat]; omega)]
  rfl

theorem Roundtrip.vmulHiI (d : BitVec 6) (a : BitVec 6) (b : BitVec 6) (t : BitVec 3) : Roundtrip.Statement (.vmulHiI d a b t) := by
  intro hw _
  have h_d := d.isLt
  have h_a := a.isLt
  have h_b := b.isLt
  have h_t := t.isLt
  have hn : wordNat 0x84000003 [(d.toNat, 19), (a.toNat, 13), (b.toNat, 7), (t.toNat, 4)] < 2 ^ 32 := by simp only [wordNat]; omega
  refine congrArg some (decodeHalf_of (word_ne_zero hn (by simp only [wordNat]; omega)) ?_ hw)
  rw [row42 (word_field 25 7 66 hn (by simp only [wordNat]; omega))]
  unfold decodeMajor42
  rw [word_field 1 3 1 hn (by simp only [wordNat]; omega),
    word_field_is 19 d hn (by simp only [wordNat]; omega),
    word_field_is 13 a hn (by simp only [wordNat]; omega),
    word_field_is 7 b hn (by simp only [wordNat]; omega),
    word_field_is 4 t hn (by simp only [wordNat]; omega)]
  rfl

theorem Roundtrip.vmulHiN (d : BitVec 6) (a : BitVec 6) (b : BitVec 6) (t : BitVec 3) : Roundtrip.Statement (.vmulHiN d a b t) := by
  intro hw _
  have h_d := d.isLt
  have h_a := a.isLt
  have h_b := b.isLt
  have h_t := t.isLt
  have hn : wordNat 0x84000005 [(d.toNat, 19), (a.toNat, 13), (b.toNat, 7), (t.toNat, 4)] < 2 ^ 32 := by simp only [wordNat]; omega
  refine congrArg some (decodeHalf_of (word_ne_zero hn (by simp only [wordNat]; omega)) ?_ hw)
  rw [row42 (word_field 25 7 66 hn (by simp only [wordNat]; omega))]
  unfold decodeMajor42
  rw [word_field 1 3 2 hn (by simp only [wordNat]; omega),
    word_field_is 19 d hn (by simp only [wordNat]; omega),
    word_field_is 13 a hn (by simp only [wordNat]; omega),
    word_field_is 7 b hn (by simp only [wordNat]; omega),
    word_field_is 4 t hn (by simp only [wordNat]; omega)]
  rfl

theorem Roundtrip.vmulSat (d : BitVec 6) (a : BitVec 6) (b : BitVec 6) (t : BitVec 3) : Roundtrip.Statement (.vmulSat d a b t) := by
  intro hw _
  have h_d := d.isLt
  have h_a := a.isLt
  have h_b := b.isLt
  have h_t := t.isLt
  have hn : wordNat 0x84000007 [(d.toNat, 19), (a.toNat, 13), (b.toNat, 7), (t.toNat, 4)] < 2 ^ 32 := by simp only [wordNat]; omega
  refine congrArg some (decodeHalf_of (word_ne_zero hn (by simp only [wordNat]; omega)) ?_ hw)
  rw [row42 (word_field 25 7 66 hn (by simp only [wordNat]; omega))]
  unfold decodeMajor42
  rw [word_field 1 3 3 hn (by simp only [wordNat]; omega),
    word_field_is 19 d hn (by simp only [wordNat]; omega),
    word_field_is 13 a hn (by simp only [wordNat]; omega),
    word_field_is 7 b hn (by simp only [wordNat]; omega),
    word_field_is 4 t hn (by simp only [wordNat]; omega)]
  rfl

theorem Roundtrip.vfma (d : BitVec 6) (a : BitVec 6) (b : BitVec 6) (t : BitVec 3) : Roundtrip.Statement (.vfma d a b t) := by
  intro hw _
  have h_d := d.isLt
  have h_a := a.isLt
  have h_b := b.isLt
  have h_t := t.isLt
  have hn : wordNat 0x86000001 [(d.toNat, 19), (a.toNat, 13), (b.toNat, 7), (t.toNat, 4)] < 2 ^ 32 := by simp only [wordNat]; omega
  refine congrArg some (decodeHalf_of (word_ne_zero hn (by simp only [wordNat]; omega)) ?_ hw)
  rw [row43 (word_field 25 7 67 hn (by simp only [wordNat]; omega))]
  unfold decodeMajor43
  rw [word_field 1 3 0 hn (by simp only [wordNat]; omega),
    word_field_is 19 d hn (by simp only [wordNat]; omega),
    word_field_is 13 a hn (by simp only [wordNat]; omega),
    word_field_is 7 b hn (by simp only [wordNat]; omega),
    word_field_is 4 t hn (by simp only [wordNat]; omega)]
  rfl

theorem Roundtrip.vfmaMs (d : BitVec 6) (a : BitVec 6) (b : BitVec 6) (t : BitVec 3) : Roundtrip.Statement (.vfmaMs d a b t) := by
  intro hw _
  have h_d := d.isLt
  have h_a := a.isLt
  have h_b := b.isLt
  have h_t := t.isLt
  have hn : wordNat 0x86000003 [(d.toNat, 19), (a.toNat, 13), (b.toNat, 7), (t.toNat, 4)] < 2 ^ 32 := by simp only [wordNat]; omega
  refine congrArg some (decodeHalf_of (word_ne_zero hn (by simp only [wordNat]; omega)) ?_ hw)
  rw [row43 (word_field 25 7 67 hn (by simp only [wordNat]; omega))]
  unfold decodeMajor43
  rw [word_field 1 3 1 hn (by simp only [wordNat]; omega),
    word_field_is 19 d hn (by simp only [wordNat]; omega),
    word_field_is 13 a hn (by simp only [wordNat]; omega),
    word_field_is 7 b hn (by simp only [wordNat]; omega),
    word_field_is 4 t hn (by simp only [wordNat]; omega)]
  rfl

theorem Roundtrip.vfmaNa (d : BitVec 6) (a : BitVec 6) (b : BitVec 6) (t : BitVec 3) : Roundtrip.Statement (.vfmaNa d a b t) := by
  intro hw _
  have h_d := d.isLt
  have h_a := a.isLt
  have h_b := b.isLt
  have h_t := t.isLt
  have hn : wordNat 0x86000005 [(d.toNat, 19), (a.toNat, 13), (b.toNat, 7), (t.toNat, 4)] < 2 ^ 32 := by simp only [wordNat]; omega
  refine congrArg some (decodeHalf_of (word_ne_zero hn (by simp only [wordNat]; omega)) ?_ hw)
  rw [row43 (word_field 25 7 67 hn (by simp only [wordNat]; omega))]
  unfold decodeMajor43
  rw [word_field 1 3 2 hn (by simp only [wordNat]; omega),
    word_field_is 19 d hn (by simp only [wordNat]; omega),
    word_field_is 13 a hn (by simp only [wordNat]; omega),
    word_field_is 7 b hn (by simp only [wordNat]; omega),
    word_field_is 4 t hn (by simp only [wordNat]; omega)]
  rfl

theorem Roundtrip.vfmaNms (d : BitVec 6) (a : BitVec 6) (b : BitVec 6) (t : BitVec 3) : Roundtrip.Statement (.vfmaNms d a b t) := by
  intro hw _
  have h_d := d.isLt
  have h_a := a.isLt
  have h_b := b.isLt
  have h_t := t.isLt
  have hn : wordNat 0x86000007 [(d.toNat, 19), (a.toNat, 13), (b.toNat, 7), (t.toNat, 4)] < 2 ^ 32 := by simp only [wordNat]; omega
  refine congrArg some (decodeHalf_of (word_ne_zero hn (by simp only [wordNat]; omega)) ?_ hw)
  rw [row43 (word_field 25 7 67 hn (by simp only [wordNat]; omega))]
  unfold decodeMajor43
  rw [word_field 1 3 3 hn (by simp only [wordNat]; omega),
    word_field_is 19 d hn (by simp only [wordNat]; omega),
    word_field_is 13 a hn (by simp only [wordNat]; omega),
    word_field_is 7 b hn (by simp only [wordNat]; omega),
    word_field_is 4 t hn (by simp only [wordNat]; omega)]
  rfl

theorem Roundtrip.vmin (d : BitVec 6) (a : BitVec 6) (b : BitVec 6) (t : BitVec 3) : Roundtrip.Statement (.vmin d a b t) := by
  intro hw _
  have h_d := d.isLt
  have h_a := a.isLt
  have h_b := b.isLt
  have h_t := t.isLt
  have hn : wordNat 0x88000001 [(d.toNat, 19), (a.toNat, 13), (b.toNat, 7), (t.toNat, 4)] < 2 ^ 32 := by simp only [wordNat]; omega
  refine congrArg some (decodeHalf_of (word_ne_zero hn (by simp only [wordNat]; omega)) ?_ hw)
  rw [row44 (word_field 25 7 68 hn (by simp only [wordNat]; omega))]
  unfold decodeMajor44
  rw [word_field 1 3 0 hn (by simp only [wordNat]; omega),
    word_field_is 19 d hn (by simp only [wordNat]; omega),
    word_field_is 13 a hn (by simp only [wordNat]; omega),
    word_field_is 7 b hn (by simp only [wordNat]; omega),
    word_field_is 4 t hn (by simp only [wordNat]; omega)]
  rfl

theorem Roundtrip.vminNum (d : BitVec 6) (a : BitVec 6) (b : BitVec 6) (t : BitVec 3) : Roundtrip.Statement (.vminNum d a b t) := by
  intro hw _
  have h_d := d.isLt
  have h_a := a.isLt
  have h_b := b.isLt
  have h_t := t.isLt
  have hn : wordNat 0x88000003 [(d.toNat, 19), (a.toNat, 13), (b.toNat, 7), (t.toNat, 4)] < 2 ^ 32 := by simp only [wordNat]; omega
  refine congrArg some (decodeHalf_of (word_ne_zero hn (by simp only [wordNat]; omega)) ?_ hw)
  rw [row44 (word_field 25 7 68 hn (by simp only [wordNat]; omega))]
  unfold decodeMajor44
  rw [word_field 1 3 1 hn (by simp only [wordNat]; omega),
    word_field_is 19 d hn (by simp only [wordNat]; omega),
    word_field_is 13 a hn (by simp only [wordNat]; omega),
    word_field_is 7 b hn (by simp only [wordNat]; omega),
    word_field_is 4 t hn (by simp only [wordNat]; omega)]
  rfl

theorem Roundtrip.vmax (d : BitVec 6) (a : BitVec 6) (b : BitVec 6) (t : BitVec 3) : Roundtrip.Statement (.vmax d a b t) := by
  intro hw _
  have h_d := d.isLt
  have h_a := a.isLt
  have h_b := b.isLt
  have h_t := t.isLt
  have hn : wordNat 0x8A000001 [(d.toNat, 19), (a.toNat, 13), (b.toNat, 7), (t.toNat, 4)] < 2 ^ 32 := by simp only [wordNat]; omega
  refine congrArg some (decodeHalf_of (word_ne_zero hn (by simp only [wordNat]; omega)) ?_ hw)
  rw [row45 (word_field 25 7 69 hn (by simp only [wordNat]; omega))]
  unfold decodeMajor45
  rw [word_field 1 3 0 hn (by simp only [wordNat]; omega),
    word_field_is 19 d hn (by simp only [wordNat]; omega),
    word_field_is 13 a hn (by simp only [wordNat]; omega),
    word_field_is 7 b hn (by simp only [wordNat]; omega),
    word_field_is 4 t hn (by simp only [wordNat]; omega)]
  rfl

theorem Roundtrip.vmaxNum (d : BitVec 6) (a : BitVec 6) (b : BitVec 6) (t : BitVec 3) : Roundtrip.Statement (.vmaxNum d a b t) := by
  intro hw _
  have h_d := d.isLt
  have h_a := a.isLt
  have h_b := b.isLt
  have h_t := t.isLt
  have hn : wordNat 0x8A000003 [(d.toNat, 19), (a.toNat, 13), (b.toNat, 7), (t.toNat, 4)] < 2 ^ 32 := by simp only [wordNat]; omega
  refine congrArg some (decodeHalf_of (word_ne_zero hn (by simp only [wordNat]; omega)) ?_ hw)
  rw [row45 (word_field 25 7 69 hn (by simp only [wordNat]; omega))]
  unfold decodeMajor45
  rw [word_field 1 3 1 hn (by simp only [wordNat]; omega),
    word_field_is 19 d hn (by simp only [wordNat]; omega),
    word_field_is 13 a hn (by simp only [wordNat]; omega),
    word_field_is 7 b hn (by simp only [wordNat]; omega),
    word_field_is 4 t hn (by simp only [wordNat]; omega)]
  rfl

theorem Roundtrip.vand (d : BitVec 6) (a : BitVec 6) (b : BitVec 6) : Roundtrip.Statement (.vand d a b) := by
  intro hw _
  have h_d := d.isLt
  have h_a := a.isLt
  have h_b := b.isLt
  have hn : wordNat 0x8C000021 [(d.toNat, 19), (a.toNat, 13), (b.toNat, 7)] < 2 ^ 32 := by simp only [wordNat]; omega
  refine congrArg some (decodeHalf_of (word_ne_zero hn (by simp only [wordNat]; omega)) ?_ hw)
  rw [row46 (word_field 25 7 70 hn (by simp only [wordNat]; omega))]
  unfold decodeMajor46
  rw [word_field 1 6 16 hn (by simp only [wordNat]; omega),
    word_field_is 19 d hn (by simp only [wordNat]; omega),
    word_field_is 13 a hn (by simp only [wordNat]; omega),
    word_field_is 7 b hn (by simp only [wordNat]; omega)]
  rfl

theorem Roundtrip.vor (d : BitVec 6) (a : BitVec 6) (b : BitVec 6) : Roundtrip.Statement (.vor d a b) := by
  intro hw _
  have h_d := d.isLt
  have h_a := a.isLt
  have h_b := b.isLt
  have hn : wordNat 0x8C000023 [(d.toNat, 19), (a.toNat, 13), (b.toNat, 7)] < 2 ^ 32 := by simp only [wordNat]; omega
  refine congrArg some (decodeHalf_of (word_ne_zero hn (by simp only [wordNat]; omega)) ?_ hw)
  rw [row46 (word_field 25 7 70 hn (by simp only [wordNat]; omega))]
  unfold decodeMajor46
  rw [word_field 1 6 17 hn (by simp only [wordNat]; omega),
    word_field_is 19 d hn (by simp only [wordNat]; omega),
    word_field_is 13 a hn (by simp only [wordNat]; omega),
    word_field_is 7 b hn (by simp only [wordNat]; omega)]
  rfl

theorem Roundtrip.vxor (d : BitVec 6) (a : BitVec 6) (b : BitVec 6) : Roundtrip.Statement (.vxor d a b) := by
  intro hw _
  have h_d := d.isLt
  have h_a := a.isLt
  have h_b := b.isLt
  have hn : wordNat 0x8C000025 [(d.toNat, 19), (a.toNat, 13), (b.toNat, 7)] < 2 ^ 32 := by simp only [wordNat]; omega
  refine congrArg some (decodeHalf_of (word_ne_zero hn (by simp only [wordNat]; omega)) ?_ hw)
  rw [row46 (word_field 25 7 70 hn (by simp only [wordNat]; omega))]
  unfold decodeMajor46
  rw [word_field 1 6 18 hn (by simp only [wordNat]; omega),
    word_field_is 19 d hn (by simp only [wordNat]; omega),
    word_field_is 13 a hn (by simp only [wordNat]; omega),
    word_field_is 7 b hn (by simp only [wordNat]; omega)]
  rfl

theorem Roundtrip.vandn (d : BitVec 6) (a : BitVec 6) (b : BitVec 6) : Roundtrip.Statement (.vandn d a b) := by
  intro hw _
  have h_d := d.isLt
  have h_a := a.isLt
  have h_b := b.isLt
  have hn : wordNat 0x8C000027 [(d.toNat, 19), (a.toNat, 13), (b.toNat, 7)] < 2 ^ 32 := by simp only [wordNat]; omega
  refine congrArg some (decodeHalf_of (word_ne_zero hn (by simp only [wordNat]; omega)) ?_ hw)
  rw [row46 (word_field 25 7 70 hn (by simp only [wordNat]; omega))]
  unfold decodeMajor46
  rw [word_field 1 6 19 hn (by simp only [wordNat]; omega),
    word_field_is 19 d hn (by simp only [wordNat]; omega),
    word_field_is 13 a hn (by simp only [wordNat]; omega),
    word_field_is 7 b hn (by simp only [wordNat]; omega)]
  rfl

theorem Roundtrip.vnot (d : BitVec 6) (a : BitVec 6) : Roundtrip.Statement (.vnot d a) := by
  intro hw _
  have h_d := d.isLt
  have h_a := a.isLt
  have hn : wordNat 0x8C000029 [(d.toNat, 19), (a.toNat, 13)] < 2 ^ 32 := by simp only [wordNat]; omega
  refine congrArg some (decodeHalf_of (word_ne_zero hn (by simp only [wordNat]; omega)) ?_ hw)
  rw [row46 (word_field 25 7 70 hn (by simp only [wordNat]; omega))]
  unfold decodeMajor46
  rw [word_field 1 6 20 hn (by simp only [wordNat]; omega),
    word_field 1 12 20 hn (by simp only [wordNat]; omega),
    word_field_is 19 d hn (by simp only [wordNat]; omega),
    word_field_is 13 a hn (by simp only [wordNat]; omega)]
  rfl

theorem Roundtrip.vshl (d : BitVec 6) (a : BitVec 6) (b : BitVec 6) (t : BitVec 3) : Roundtrip.Statement (.vshl d a b t) := by
  intro hw _
  have h_d := d.isLt
  have h_a := a.isLt
  have h_b := b.isLt
  have h_t := t.isLt
  have hn : wordNat 0x8E000001 [(d.toNat, 19), (a.toNat, 13), (b.toNat, 7), (t.toNat, 4)] < 2 ^ 32 := by simp only [wordNat]; omega
  refine congrArg some (decodeHalf_of (word_ne_zero hn (by simp only [wordNat]; omega)) ?_ hw)
  rw [row47 (word_field 25 7 71 hn (by simp only [wordNat]; omega))]
  unfold decodeMajor47
  rw [word_field 1 3 0 hn (by simp only [wordNat]; omega),
    word_field_is 19 d hn (by simp only [wordNat]; omega),
    word_field_is 13 a hn (by simp only [wordNat]; omega),
    word_field_is 7 b hn (by simp only [wordNat]; omega),
    word_field_is 4 t hn (by simp only [wordNat]; omega)]
  rfl

theorem Roundtrip.vshr (d : BitVec 6) (a : BitVec 6) (b : BitVec 6) (t : BitVec 3) : Roundtrip.Statement (.vshr d a b t) := by
  intro hw _
  have h_d := d.isLt
  have h_a := a.isLt
  have h_b := b.isLt
  have h_t := t.isLt
  have hn : wordNat 0x8E000003 [(d.toNat, 19), (a.toNat, 13), (b.toNat, 7), (t.toNat, 4)] < 2 ^ 32 := by simp only [wordNat]; omega
  refine congrArg some (decodeHalf_of (word_ne_zero hn (by simp only [wordNat]; omega)) ?_ hw)
  rw [row47 (word_field 25 7 71 hn (by simp only [wordNat]; omega))]
  unfold decodeMajor47
  rw [word_field 1 3 1 hn (by simp only [wordNat]; omega),
    word_field_is 19 d hn (by simp only [wordNat]; omega),
    word_field_is 13 a hn (by simp only [wordNat]; omega),
    word_field_is 7 b hn (by simp only [wordNat]; omega),
    word_field_is 4 t hn (by simp only [wordNat]; omega)]
  rfl

theorem Roundtrip.vsra (d : BitVec 6) (a : BitVec 6) (b : BitVec 6) (t : BitVec 3) : Roundtrip.Statement (.vsra d a b t) := by
  intro hw _
  have h_d := d.isLt
  have h_a := a.isLt
  have h_b := b.isLt
  have h_t := t.isLt
  have hn : wordNat 0x8E000005 [(d.toNat, 19), (a.toNat, 13), (b.toNat, 7), (t.toNat, 4)] < 2 ^ 32 := by simp only [wordNat]; omega
  refine congrArg some (decodeHalf_of (word_ne_zero hn (by simp only [wordNat]; omega)) ?_ hw)
  rw [row47 (word_field 25 7 71 hn (by simp only [wordNat]; omega))]
  unfold decodeMajor47
  rw [word_field 1 3 2 hn (by simp only [wordNat]; omega),
    word_field_is 19 d hn (by simp only [wordNat]; omega),
    word_field_is 13 a hn (by simp only [wordNat]; omega),
    word_field_is 7 b hn (by simp only [wordNat]; omega),
    word_field_is 4 t hn (by simp only [wordNat]; omega)]
  rfl

theorem Roundtrip.vshli (d : BitVec 6) (a : BitVec 6) (c : BitVec 6) (t : BitVec 3) : Roundtrip.Statement (.vshli d a c t) := by
  intro hw _
  have h_d := d.isLt
  have h_a := a.isLt
  have h_c := c.isLt
  have h_t := t.isLt
  have hn : wordNat 0x8E000009 [(d.toNat, 19), (a.toNat, 13), (c.toNat, 7), (t.toNat, 4)] < 2 ^ 32 := by simp only [wordNat]; omega
  refine congrArg some (decodeHalf_of (word_ne_zero hn (by simp only [wordNat]; omega)) ?_ hw)
  rw [row47 (word_field 25 7 71 hn (by simp only [wordNat]; omega))]
  unfold decodeMajor47
  rw [word_field 1 3 4 hn (by simp only [wordNat]; omega),
    word_field_is 19 d hn (by simp only [wordNat]; omega),
    word_field_is 13 a hn (by simp only [wordNat]; omega),
    word_field_is 7 c hn (by simp only [wordNat]; omega),
    word_field_is 4 t hn (by simp only [wordNat]; omega)]
  rfl

theorem Roundtrip.vshri (d : BitVec 6) (a : BitVec 6) (c : BitVec 6) (t : BitVec 3) : Roundtrip.Statement (.vshri d a c t) := by
  intro hw _
  have h_d := d.isLt
  have h_a := a.isLt
  have h_c := c.isLt
  have h_t := t.isLt
  have hn : wordNat 0x8E00000B [(d.toNat, 19), (a.toNat, 13), (c.toNat, 7), (t.toNat, 4)] < 2 ^ 32 := by simp only [wordNat]; omega
  refine congrArg some (decodeHalf_of (word_ne_zero hn (by simp only [wordNat]; omega)) ?_ hw)
  rw [row47 (word_field 25 7 71 hn (by simp only [wordNat]; omega))]
  unfold decodeMajor47
  rw [word_field 1 3 5 hn (by simp only [wordNat]; omega),
    word_field_is 19 d hn (by simp only [wordNat]; omega),
    word_field_is 13 a hn (by simp only [wordNat]; omega),
    word_field_is 7 c hn (by simp only [wordNat]; omega),
    word_field_is 4 t hn (by simp only [wordNat]; omega)]
  rfl

theorem Roundtrip.vsrai (d : BitVec 6) (a : BitVec 6) (c : BitVec 6) (t : BitVec 3) : Roundtrip.Statement (.vsrai d a c t) := by
  intro hw _
  have h_d := d.isLt
  have h_a := a.isLt
  have h_c := c.isLt
  have h_t := t.isLt
  have hn : wordNat 0x8E00000D [(d.toNat, 19), (a.toNat, 13), (c.toNat, 7), (t.toNat, 4)] < 2 ^ 32 := by simp only [wordNat]; omega
  refine congrArg some (decodeHalf_of (word_ne_zero hn (by simp only [wordNat]; omega)) ?_ hw)
  rw [row47 (word_field 25 7 71 hn (by simp only [wordNat]; omega))]
  unfold decodeMajor47
  rw [word_field 1 3 6 hn (by simp only [wordNat]; omega),
    word_field_is 19 d hn (by simp only [wordNat]; omega),
    word_field_is 13 a hn (by simp only [wordNat]; omega),
    word_field_is 7 c hn (by simp only [wordNat]; omega),
    word_field_is 4 t hn (by simp only [wordNat]; omega)]
  rfl

theorem Roundtrip.vcmp (d : BitVec 6) (a : BitVec 6) (b : BitVec 6) (t : BitVec 3) (c : BitVec 3) : Roundtrip.Statement (.vcmp d a b t c) := by
  intro hw _
  have h_d := d.isLt
  have h_a := a.isLt
  have h_b := b.isLt
  have h_t := t.isLt
  have h_c := c.isLt
  have hn : wordNat 0x90000001 [(d.toNat, 19), (a.toNat, 13), (b.toNat, 7), (t.toNat, 4), (c.toNat, 1)] < 2 ^ 32 := by simp only [wordNat]; omega
  refine congrArg some (decodeHalf_of (word_ne_zero hn (by simp only [wordNat]; omega)) ?_ hw)
  rw [row48 (word_field 25 7 72 hn (by simp only [wordNat]; omega))]
  unfold decodeMajor48
  rw [word_field_is 19 d hn (by simp only [wordNat]; omega),
    word_field_is 13 a hn (by simp only [wordNat]; omega),
    word_field_is 7 b hn (by simp only [wordNat]; omega),
    word_field_is 4 t hn (by simp only [wordNat]; omega),
    word_field_is 1 c hn (by simp only [wordNat]; omega)]

theorem Roundtrip.vsel (d : BitVec 6) (a : BitVec 6) (b : BitVec 6) (t : BitVec 3) : Roundtrip.Statement (.vsel d a b t) := by
  intro hw _
  have h_d := d.isLt
  have h_a := a.isLt
  have h_b := b.isLt
  have h_t := t.isLt
  have hn : wordNat 0x92000001 [(d.toNat, 19), (a.toNat, 13), (b.toNat, 7), (t.toNat, 4)] < 2 ^ 32 := by simp only [wordNat]; omega
  refine congrArg some (decodeHalf_of (word_ne_zero hn (by simp only [wordNat]; omega)) ?_ hw)
  rw [row49 (word_field 25 7 73 hn (by simp only [wordNat]; omega))]
  unfold decodeMajor49
  rw [word_field 1 3 0 hn (by simp only [wordNat]; omega),
    word_field_is 19 d hn (by simp only [wordNat]; omega),
    word_field_is 13 a hn (by simp only [wordNat]; omega),
    word_field_is 7 b hn (by simp only [wordNat]; omega),
    word_field_is 4 t hn (by simp only [wordNat]; omega)]
  rfl

theorem Roundtrip.vcvt (d : BitVec 6) (a : BitVec 6) (t : BitVec 4) (s : BitVec 4) (r : BitVec 4) : Roundtrip.Statement (.vcvt d a t s r) := by
  intro hw _
  have h_d := d.isLt
  have h_a := a.isLt
  have h_t := t.isLt
  have h_s := s.isLt
  have h_r := r.isLt
  have hn : wordNat 0x94000001 [(d.toNat, 19), (a.toNat, 13), (t.toNat, 9), (s.toNat, 5), (r.toNat, 1)] < 2 ^ 32 := by simp only [wordNat]; omega
  refine congrArg some (decodeHalf_of (word_ne_zero hn (by simp only [wordNat]; omega)) ?_ hw)
  rw [row4A (word_field 25 7 74 hn (by simp only [wordNat]; omega))]
  unfold decodeMajor4A
  rw [word_field_is 19 d hn (by simp only [wordNat]; omega),
    word_field_is 13 a hn (by simp only [wordNat]; omega),
    word_field_is 9 t hn (by simp only [wordNat]; omega),
    word_field_is 5 s hn (by simp only [wordNat]; omega),
    word_field_is 1 r hn (by simp only [wordNat]; omega)]

theorem Roundtrip.vencC8 (d : BitVec 6) (a : BitVec 6) (r : BitVec 4) (q : BitVec 3) : Roundtrip.Statement (.vencC8 d a r q) := by
  intro hw _
  have h_d := d.isLt
  have h_a := a.isLt
  have h_r := r.isLt
  have h_q := q.isLt
  have hn : wordNat 0x96000001 [(d.toNat, 19), (a.toNat, 13), (r.toNat, 5), (q.toNat, 1)] < 2 ^ 32 := by simp only [wordNat]; omega
  refine congrArg some (decodeHalf_of (word_ne_zero hn (by simp only [wordNat]; omega)) ?_ hw)
  rw [row4B (word_field 25 7 75 hn (by simp only [wordNat]; omega))]
  unfold decodeMajor4B
  rw [word_field 4 1 0 hn (by simp only [wordNat]; omega),
    word_field 9 4 0 hn (by simp only [wordNat]; omega),
    word_field_is 19 d hn (by simp only [wordNat]; omega),
    word_field_is 13 a hn (by simp only [wordNat]; omega),
    word_field_is 5 r hn (by simp only [wordNat]; omega),
    word_field_is 1 q hn (by simp only [wordNat]; omega)]
  rfl

theorem Roundtrip.vencC4 (d : BitVec 6) (a : BitVec 6) (b : BitVec 4) (r : BitVec 4) (q : BitVec 3) : Roundtrip.Statement (.vencC4 d a b r q) := by
  intro hw _
  have h_d := d.isLt
  have h_a := a.isLt
  have h_b := b.isLt
  have h_r := r.isLt
  have h_q := q.isLt
  have hn : wordNat 0x96000011 [(d.toNat, 19), (a.toNat, 13), (b.toNat, 9), (r.toNat, 5), (q.toNat, 1)] < 2 ^ 32 := by simp only [wordNat]; omega
  refine congrArg some (decodeHalf_of (word_ne_zero hn (by simp only [wordNat]; omega)) ?_ hw)
  rw [row4B (word_field 25 7 75 hn (by simp only [wordNat]; omega))]
  unfold decodeMajor4B
  rw [word_field 4 1 1 hn (by simp only [wordNat]; omega),
    word_field_is 19 d hn (by simp only [wordNat]; omega),
    word_field_is 13 a hn (by simp only [wordNat]; omega),
    word_field_is 9 b hn (by simp only [wordNat]; omega),
    word_field_is 5 r hn (by simp only [wordNat]; omega),
    word_field_is 1 q hn (by simp only [wordNat]; omega)]
  rfl

theorem Roundtrip.vdecC8 (d : BitVec 6) (a : BitVec 6) (q : BitVec 3) : Roundtrip.Statement (.vdecC8 d a q) := by
  intro hw _
  have h_d := d.isLt
  have h_a := a.isLt
  have h_q := q.isLt
  have hn : wordNat 0x98000001 [(d.toNat, 19), (a.toNat, 13), (q.toNat, 1)] < 2 ^ 32 := by simp only [wordNat]; omega
  refine congrArg some (decodeHalf_of (word_ne_zero hn (by simp only [wordNat]; omega)) ?_ hw)
  rw [row4C (word_field 25 7 76 hn (by simp only [wordNat]; omega))]
  unfold decodeMajor4C
  rw [word_field 4 9 0 hn (by simp only [wordNat]; omega),
    word_field 4 5 0 hn (by simp only [wordNat]; omega),
    word_field_is 19 d hn (by simp only [wordNat]; omega),
    word_field_is 13 a hn (by simp only [wordNat]; omega),
    word_field_is 1 q hn (by simp only [wordNat]; omega)]
  rfl

theorem Roundtrip.vdecC4 (d : BitVec 6) (a : BitVec 6) (b : BitVec 4) (q : BitVec 3) : Roundtrip.Statement (.vdecC4 d a b q) := by
  intro hw _
  have h_d := d.isLt
  have h_a := a.isLt
  have h_b := b.isLt
  have h_q := q.isLt
  have hn : wordNat 0x98000011 [(d.toNat, 19), (a.toNat, 13), (b.toNat, 9), (q.toNat, 1)] < 2 ^ 32 := by simp only [wordNat]; omega
  refine congrArg some (decodeHalf_of (word_ne_zero hn (by simp only [wordNat]; omega)) ?_ hw)
  rw [row4C (word_field 25 7 76 hn (by simp only [wordNat]; omega))]
  unfold decodeMajor4C
  rw [word_field_ne 4 9 0 hn (by simp only [wordNat]; omega),
    word_field 4 5 1 hn (by simp only [wordNat]; omega),
    word_field_is 19 d hn (by simp only [wordNat]; omega),
    word_field_is 13 a hn (by simp only [wordNat]; omega),
    word_field_is 9 b hn (by simp only [wordNat]; omega),
    word_field_is 1 q hn (by simp only [wordNat]; omega)]
  rfl

theorem Roundtrip.vsplat (d : BitVec 6) (a : BitVec 6) (t : BitVec 3) : Roundtrip.Statement (.vsplat d a t) := by
  intro hw _
  have h_d := d.isLt
  have h_a := a.isLt
  have h_t := t.isLt
  have hn : wordNat 0x9A000001 [(d.toNat, 19), (a.toNat, 13), (t.toNat, 4)] < 2 ^ 32 := by simp only [wordNat]; omega
  refine congrArg some (decodeHalf_of (word_ne_zero hn (by simp only [wordNat]; omega)) ?_ hw)
  rw [row4D (word_field 25 7 77 hn (by simp only [wordNat]; omega))]
  unfold decodeMajor4D
  rw [word_field 1 3 0 hn (by simp only [wordNat]; omega),
    word_field 7 6 0 hn (by simp only [wordNat]; omega),
    word_field_is 19 d hn (by simp only [wordNat]; omega),
    word_field_is 13 a hn (by simp only [wordNat]; omega),
    word_field_is 4 t hn (by simp only [wordNat]; omega)]
  rfl

theorem Roundtrip.vsplatImm (d : BitVec 6) (i : BitVec 12) (t : BitVec 3) : Roundtrip.Statement (.vsplatImm d i t) := by
  intro hw _
  have h_d := d.isLt
  have h_i := i.isLt
  have h_t := t.isLt
  have hn : wordNat 0x9A000003 [(d.toNat, 19), (i.toNat, 7), (t.toNat, 4)] < 2 ^ 32 := by simp only [wordNat]; omega
  refine congrArg some (decodeHalf_of (word_ne_zero hn (by simp only [wordNat]; omega)) ?_ hw)
  rw [row4D (word_field 25 7 77 hn (by simp only [wordNat]; omega))]
  unfold decodeMajor4D
  rw [word_field 1 3 1 hn (by simp only [wordNat]; omega),
    word_field_is 19 d hn (by simp only [wordNat]; omega),
    word_field_is 7 i hn (by simp only [wordNat]; omega),
    word_field_is 4 t hn (by simp only [wordNat]; omega)]
  rfl

theorem Roundtrip.vext (d : BitVec 6) (a : BitVec 6) (k : BitVec 6) (t : BitVec 3) : Roundtrip.Statement (.vext d a k t) := by
  intro hw _
  have h_d := d.isLt
  have h_a := a.isLt
  have h_k := k.isLt
  have h_t := t.isLt
  have hn : wordNat 0x9C000001 [(d.toNat, 19), (a.toNat, 13), (k.toNat, 7), (t.toNat, 4)] < 2 ^ 32 := by simp only [wordNat]; omega
  refine congrArg some (decodeHalf_of (word_ne_zero hn (by simp only [wordNat]; omega)) ?_ hw)
  rw [row4E (word_field 25 7 78 hn (by simp only [wordNat]; omega))]
  unfold decodeMajor4E
  rw [word_field 1 3 0 hn (by simp only [wordNat]; omega),
    word_field_is 19 d hn (by simp only [wordNat]; omega),
    word_field_is 13 a hn (by simp only [wordNat]; omega),
    word_field_is 7 k hn (by simp only [wordNat]; omega),
    word_field_is 4 t hn (by simp only [wordNat]; omega)]
  rfl

theorem Roundtrip.vins (d : BitVec 6) (a : BitVec 6) (k : BitVec 6) (t : BitVec 3) : Roundtrip.Statement (.vins d a k t) := by
  intro hw _
  have h_d := d.isLt
  have h_a := a.isLt
  have h_k := k.isLt
  have h_t := t.isLt
  have hn : wordNat 0x9C000003 [(d.toNat, 19), (a.toNat, 13), (k.toNat, 7), (t.toNat, 4)] < 2 ^ 32 := by simp only [wordNat]; omega
  refine congrArg some (decodeHalf_of (word_ne_zero hn (by simp only [wordNat]; omega)) ?_ hw)
  rw [row4E (word_field 25 7 78 hn (by simp only [wordNat]; omega))]
  unfold decodeMajor4E
  rw [word_field 1 3 1 hn (by simp only [wordNat]; omega),
    word_field_is 19 d hn (by simp only [wordNat]; omega),
    word_field_is 13 a hn (by simp only [wordNat]; omega),
    word_field_is 7 k hn (by simp only [wordNat]; omega),
    word_field_is 4 t hn (by simp only [wordNat]; omega)]
  rfl

theorem Roundtrip.vperm (d : BitVec 6) (a : BitVec 6) (b : BitVec 6) (t : BitVec 3) : Roundtrip.Statement (.vperm d a b t) := by
  intro hw _
  have h_d := d.isLt
  have h_a := a.isLt
  have h_b := b.isLt
  have h_t := t.isLt
  have hn : wordNat 0x9E000001 [(d.toNat, 19), (a.toNat, 13), (b.toNat, 7), (t.toNat, 4)] < 2 ^ 32 := by simp only [wordNat]; omega
  refine congrArg some (decodeHalf_of (word_ne_zero hn (by simp only [wordNat]; omega)) ?_ hw)
  rw [row4F (word_field 25 7 79 hn (by simp only [wordNat]; omega))]
  unfold decodeMajor4F
  rw [word_field 1 3 0 hn (by simp only [wordNat]; omega),
    word_field_is 19 d hn (by simp only [wordNat]; omega),
    word_field_is 13 a hn (by simp only [wordNat]; omega),
    word_field_is 7 b hn (by simp only [wordNat]; omega),
    word_field_is 4 t hn (by simp only [wordNat]; omega)]
  rfl

theorem Roundtrip.vslideup (d : BitVec 6) (a : BitVec 6) (c : BitVec 6) (t : BitVec 3) : Roundtrip.Statement (.vslideup d a c t) := by
  intro hw _
  have h_d := d.isLt
  have h_a := a.isLt
  have h_c := c.isLt
  have h_t := t.isLt
  have hn : wordNat 0xA0000001 [(d.toNat, 19), (a.toNat, 13), (c.toNat, 7), (t.toNat, 4)] < 2 ^ 32 := by simp only [wordNat]; omega
  refine congrArg some (decodeHalf_of (word_ne_zero hn (by simp only [wordNat]; omega)) ?_ hw)
  rw [row50 (word_field 25 7 80 hn (by simp only [wordNat]; omega))]
  unfold decodeMajor50
  rw [word_field 1 3 0 hn (by simp only [wordNat]; omega),
    word_field_is 19 d hn (by simp only [wordNat]; omega),
    word_field_is 13 a hn (by simp only [wordNat]; omega),
    word_field_is 7 c hn (by simp only [wordNat]; omega),
    word_field_is 4 t hn (by simp only [wordNat]; omega)]
  rfl

theorem Roundtrip.vslidedn (d : BitVec 6) (a : BitVec 6) (c : BitVec 6) (t : BitVec 3) : Roundtrip.Statement (.vslidedn d a c t) := by
  intro hw _
  have h_d := d.isLt
  have h_a := a.isLt
  have h_c := c.isLt
  have h_t := t.isLt
  have hn : wordNat 0xA0000003 [(d.toNat, 19), (a.toNat, 13), (c.toNat, 7), (t.toNat, 4)] < 2 ^ 32 := by simp only [wordNat]; omega
  refine congrArg some (decodeHalf_of (word_ne_zero hn (by simp only [wordNat]; omega)) ?_ hw)
  rw [row50 (word_field 25 7 80 hn (by simp only [wordNat]; omega))]
  unfold decodeMajor50
  rw [word_field 1 3 1 hn (by simp only [wordNat]; omega),
    word_field_is 19 d hn (by simp only [wordNat]; omega),
    word_field_is 13 a hn (by simp only [wordNat]; omega),
    word_field_is 7 c hn (by simp only [wordNat]; omega),
    word_field_is 4 t hn (by simp only [wordNat]; omega)]
  rfl

theorem Roundtrip.vred (d : BitVec 6) (a : BitVec 6) (t : BitVec 3) (o : BitVec 3) : Roundtrip.Statement (.vred d a t o) := by
  intro hw _
  have h_d := d.isLt
  have h_a := a.isLt
  have h_t := t.isLt
  have h_o := o.isLt
  have hn : wordNat 0xA2000001 [(d.toNat, 19), (a.toNat, 13), (t.toNat, 4), (o.toNat, 1)] < 2 ^ 32 := by simp only [wordNat]; omega
  refine congrArg some (decodeHalf_of (word_ne_zero hn (by simp only [wordNat]; omega)) ?_ hw)
  rw [row51 (word_field 25 7 81 hn (by simp only [wordNat]; omega))]
  unfold decodeMajor51
  rw [word_field 7 6 0 hn (by simp only [wordNat]; omega),
    word_field_is 19 d hn (by simp only [wordNat]; omega),
    word_field_is 13 a hn (by simp only [wordNat]; omega),
    word_field_is 4 t hn (by simp only [wordNat]; omega),
    word_field_is 1 o hn (by simp only [wordNat]; omega)]
  rfl

theorem Roundtrip.vmath (d : BitVec 6) (a : BitVec 6) (o : BitVec 3) : Roundtrip.Statement (.vmath d a o) := by
  intro hw _
  have h_d := d.isLt
  have h_a := a.isLt
  have h_o := o.isLt
  have hn : wordNat 0xA4000051 [(d.toNat, 19), (a.toNat, 13), (o.toNat, 1)] < 2 ^ 32 := by simp only [wordNat]; omega
  refine congrArg some (decodeHalf_of (word_ne_zero hn (by simp only [wordNat]; omega)) ?_ hw)
  rw [row52 (word_field 25 7 82 hn (by simp only [wordNat]; omega))]
  unfold decodeMajor52
  rw [word_field 4 9 5 hn (by simp only [wordNat]; omega),
    word_field_is 19 d hn (by simp only [wordNat]; omega),
    word_field_is 13 a hn (by simp only [wordNat]; omega),
    word_field_is 1 o hn (by simp only [wordNat]; omega)]
  rfl

theorem Roundtrip.vabs (d : BitVec 6) (a : BitVec 6) (t : BitVec 3) : Roundtrip.Statement (.vabs d a t) := by
  intro hw _
  have h_d := d.isLt
  have h_a := a.isLt
  have h_t := t.isLt
  have hn : wordNat 0xA6000001 [(d.toNat, 19), (a.toNat, 13), (t.toNat, 4)] < 2 ^ 32 := by simp only [wordNat]; omega
  refine congrArg some (decodeHalf_of (word_ne_zero hn (by simp only [wordNat]; omega)) ?_ hw)
  rw [row53 (word_field 25 7 83 hn (by simp only [wordNat]; omega))]
  unfold decodeMajor53
  rw [word_field 7 6 0 hn (by simp only [wordNat]; omega),
    word_field 1 3 0 hn (by simp only [wordNat]; omega),
    word_field_is 19 d hn (by simp only [wordNat]; omega),
    word_field_is 13 a hn (by simp only [wordNat]; omega),
    word_field_is 4 t hn (by simp only [wordNat]; omega)]
  rfl

theorem Roundtrip.vneg (d : BitVec 6) (a : BitVec 6) (t : BitVec 3) : Roundtrip.Statement (.vneg d a t) := by
  intro hw _
  have h_d := d.isLt
  have h_a := a.isLt
  have h_t := t.isLt
  have hn : wordNat 0xA6000003 [(d.toNat, 19), (a.toNat, 13), (t.toNat, 4)] < 2 ^ 32 := by simp only [wordNat]; omega
  refine congrArg some (decodeHalf_of (word_ne_zero hn (by simp only [wordNat]; omega)) ?_ hw)
  rw [row53 (word_field 25 7 83 hn (by simp only [wordNat]; omega))]
  unfold decodeMajor53
  rw [word_field 7 6 0 hn (by simp only [wordNat]; omega),
    word_field 1 3 1 hn (by simp only [wordNat]; omega),
    word_field_is 19 d hn (by simp only [wordNat]; omega),
    word_field_is 13 a hn (by simp only [wordNat]; omega),
    word_field_is 4 t hn (by simp only [wordNat]; omega)]
  rfl

theorem Roundtrip.vabsSat (d : BitVec 6) (a : BitVec 6) (t : BitVec 3) : Roundtrip.Statement (.vabsSat d a t) := by
  intro hw _
  have h_d := d.isLt
  have h_a := a.isLt
  have h_t := t.isLt
  have hn : wordNat 0xA6000005 [(d.toNat, 19), (a.toNat, 13), (t.toNat, 4)] < 2 ^ 32 := by simp only [wordNat]; omega
  refine congrArg some (decodeHalf_of (word_ne_zero hn (by simp only [wordNat]; omega)) ?_ hw)
  rw [row53 (word_field 25 7 83 hn (by simp only [wordNat]; omega))]
  unfold decodeMajor53
  rw [word_field 7 6 0 hn (by simp only [wordNat]; omega),
    word_field 1 3 2 hn (by simp only [wordNat]; omega),
    word_field_is 19 d hn (by simp only [wordNat]; omega),
    word_field_is 13 a hn (by simp only [wordNat]; omega),
    word_field_is 4 t hn (by simp only [wordNat]; omega)]
  rfl

theorem Roundtrip.vpop (d : BitVec 6) (a : BitVec 6) : Roundtrip.Statement (.vpop d a) := by
  intro hw _
  have h_d := d.isLt
  have h_a := a.isLt
  have hn : wordNat 0xA8000021 [(d.toNat, 19), (a.toNat, 13)] < 2 ^ 32 := by simp only [wordNat]; omega
  refine congrArg some (decodeHalf_of (word_ne_zero hn (by simp only [wordNat]; omega)) ?_ hw)
  rw [row54 (word_field 25 7 84 hn (by simp only [wordNat]; omega))]
  unfold decodeMajor54
  rw [word_field 1 12 16 hn (by simp only [wordNat]; omega),
    word_field_is 19 d hn (by simp only [wordNat]; omega),
    word_field_is 13 a hn (by simp only [wordNat]; omega)]
  rfl

theorem Roundtrip.vpush (d : BitVec 6) (a : BitVec 6) : Roundtrip.Statement (.vpush d a) := by
  intro hw _
  have h_d := d.isLt
  have h_a := a.isLt
  have hn : wordNat 0xA8000023 [(d.toNat, 19), (a.toNat, 13)] < 2 ^ 32 := by simp only [wordNat]; omega
  refine congrArg some (decodeHalf_of (word_ne_zero hn (by simp only [wordNat]; omega)) ?_ hw)
  rw [row54 (word_field 25 7 84 hn (by simp only [wordNat]; omega))]
  unfold decodeMajor54
  rw [word_field 1 12 17 hn (by simp only [wordNat]; omega),
    word_field_is 19 d hn (by simp only [wordNat]; omega),
    word_field_is 13 a hn (by simp only [wordNat]; omega)]
  rfl

theorem Roundtrip.vmov (d : BitVec 6) (a : BitVec 6) : Roundtrip.Statement (.vmov d a) := by
  intro hw _
  have h_d := d.isLt
  have h_a := a.isLt
  have hn : wordNat 0xAA000021 [(d.toNat, 19), (a.toNat, 13)] < 2 ^ 32 := by simp only [wordNat]; omega
  refine congrArg some (decodeHalf_of (word_ne_zero hn (by simp only [wordNat]; omega)) ?_ hw)
  rw [row55 (word_field 25 7 85 hn (by simp only [wordNat]; omega))]
  unfold decodeMajor55
  rw [word_field 1 12 16 hn (by simp only [wordNat]; omega),
    word_field 1 3 0 hn (by simp only [wordNat]; omega),
    word_field_is 19 d hn (by simp only [wordNat]; omega),
    word_field_is 13 a hn (by simp only [wordNat]; omega)]
  rfl

theorem Roundtrip.vzero (d : BitVec 6) : Roundtrip.Statement (.vzero d) := by
  intro hw _
  have h_d := d.isLt
  have hn : wordNat 0xAA000023 [(d.toNat, 19)] < 2 ^ 32 := by simp only [wordNat]; omega
  refine congrArg some (decodeHalf_of (word_ne_zero hn (by simp only [wordNat]; omega)) ?_ hw)
  rw [row55 (word_field 25 7 85 hn (by simp only [wordNat]; omega))]
  unfold decodeMajor55
  rw [word_field 1 12 17 hn (by simp only [wordNat]; omega),
    word_field 1 18 17 hn (by simp only [wordNat]; omega),
    word_field 7 12 0 hn (by simp only [wordNat]; omega),
    word_field 1 3 1 hn (by simp only [wordNat]; omega),
    word_field_is 19 d hn (by simp only [wordNat]; omega)]
  rfl

theorem Roundtrip.viota (d : BitVec 6) (t : BitVec 3) : Roundtrip.Statement (.viota d t) := by
  intro hw _
  have h_d := d.isLt
  have h_t := t.isLt
  have hn : wordNat 0xAA000005 [(d.toNat, 19), (t.toNat, 4)] < 2 ^ 32 := by simp only [wordNat]; omega
  refine congrArg some (decodeHalf_of (word_ne_zero hn (by simp only [wordNat]; omega)) ?_ hw)
  rw [row55 (word_field 25 7 85 hn (by simp only [wordNat]; omega))]
  unfold decodeMajor55
  rw [word_field_ne 1 12 16 hn (by simp only [wordNat]; omega),
    word_field_ne 1 18 17 hn (by simp only [wordNat]; omega),
    word_field 7 12 0 hn (by simp only [wordNat]; omega),
    word_field 1 3 2 hn (by simp only [wordNat]; omega),
    word_field_is 19 d hn (by simp only [wordNat]; omega),
    word_field_is 4 t hn (by simp only [wordNat]; omega)]
  rfl

theorem Roundtrip.eclr (d : BitVec 6) : Roundtrip.Statement (.eclr d) := by
  intro hw _
  have h_d := d.isLt
  have hn : wordNat 0xAA000027 [(d.toNat, 19)] < 2 ^ 32 := by simp only [wordNat]; omega
  refine congrArg some (decodeHalf_of (word_ne_zero hn (by simp only [wordNat]; omega)) ?_ hw)
  rw [row55 (word_field 25 7 85 hn (by simp only [wordNat]; omega))]
  unfold decodeMajor55
  rw [word_field 1 12 19 hn (by simp only [wordNat]; omega),
    word_field 1 18 19 hn (by simp only [wordNat]; omega),
    word_field 7 12 0 hn (by simp only [wordNat]; omega),
    word_field 1 3 3 hn (by simp only [wordNat]; omega),
    word_field_is 19 d hn (by simp only [wordNat]; omega)]
  rfl

theorem Roundtrip.vdot4 (d : BitVec 6) (a : BitVec 6) (b : BitVec 6) (s : BitVec 3) : Roundtrip.Statement (.vdot4 d a b s) := by
  intro hw _
  have h_d := d.isLt
  have h_a := a.isLt
  have h_b := b.isLt
  have h_s := s.isLt
  have hn : wordNat 0xAC000001 [(d.toNat, 19), (a.toNat, 13), (b.toNat, 7), (s.toNat, 1)] < 2 ^ 32 := by simp only [wordNat]; omega
  refine congrArg some (decodeHalf_of (word_ne_zero hn (by simp only [wordNat]; omega)) ?_ hw)
  rw [row56 (word_field 25 7 86 hn (by simp only [wordNat]; omega))]
  unfold decodeMajor56
  rw [word_field 4 3 0 hn (by simp only [wordNat]; omega),
    word_field_is 19 d hn (by simp only [wordNat]; omega),
    word_field_is 13 a hn (by simp only [wordNat]; omega),
    word_field_is 7 b hn (by simp only [wordNat]; omega),
    word_field_is 1 s hn (by simp only [wordNat]; omega)]
  rfl

theorem Roundtrip.vmaskV (d : BitVec 6) (a : BitVec 6) : Roundtrip.Statement (.vmaskV d a) := by
  intro hw _
  have h_d := d.isLt
  have h_a := a.isLt
  have hn : wordNat 0xAE000021 [(d.toNat, 19), (a.toNat, 13)] < 2 ^ 32 := by simp only [wordNat]; omega
  refine congrArg some (decodeHalf_of (word_ne_zero hn (by simp only [wordNat]; omega)) ?_ hw)
  rw [row57 (word_field 25 7 87 hn (by simp only [wordNat]; omega))]
  unfold decodeMajor57
  rw [word_field 1 12 16 hn (by simp only [wordNat]; omega),
    word_field_is 19 d hn (by simp only [wordNat]; omega),
    word_field_is 13 a hn (by simp only [wordNat]; omega)]
  rfl

theorem Roundtrip.vmaskC (d : BitVec 6) (a : BitVec 6) : Roundtrip.Statement (.vmaskC d a) := by
  intro hw _
  have h_d := d.isLt
  have h_a := a.isLt
  have hn : wordNat 0xAE000023 [(d.toNat, 19), (a.toNat, 13)] < 2 ^ 32 := by simp only [wordNat]; omega
  refine congrArg some (decodeHalf_of (word_ne_zero hn (by simp only [wordNat]; omega)) ?_ hw)
  rw [row57 (word_field 25 7 87 hn (by simp only [wordNat]; omega))]
  unfold decodeMajor57
  rw [word_field 1 12 17 hn (by simp only [wordNat]; omega),
    word_field_is 19 d hn (by simp only [wordNat]; omega),
    word_field_is 13 a hn (by simp only [wordNat]; omega)]
  rfl

theorem Roundtrip.vfma2 (d : BitVec 6) (a : BitVec 6) (b : BitVec 6) (t : BitVec 3) : Roundtrip.Statement (.vfma2 d a b t) := by
  intro hw _
  have h_d := d.isLt
  have h_a := a.isLt
  have h_b := b.isLt
  have h_t := t.isLt
  have hn : wordNat 0xBE000001 [(d.toNat, 19), (a.toNat, 13), (b.toNat, 7), (t.toNat, 4)] < 2 ^ 32 := by simp only [wordNat]; omega
  refine congrArg some (decodeHalf_of (word_ne_zero hn (by simp only [wordNat]; omega)) ?_ hw)
  rw [row5F (word_field 25 7 95 hn (by simp only [wordNat]; omega))]
  unfold decodeMajor5F
  rw [word_field 1 3 0 hn (by simp only [wordNat]; omega),
    word_field_is 19 d hn (by simp only [wordNat]; omega),
    word_field_is 13 a hn (by simp only [wordNat]; omega),
    word_field_is 7 b hn (by simp only [wordNat]; omega),
    word_field_is 4 t hn (by simp only [wordNat]; omega)]
  rfl

theorem Roundtrip.tdset (t : BitVec 4) (a : BitVec 5) : Roundtrip.Statement (.tdset t a) := by
  intro hw _
  have h_t := t.isLt
  have h_a := a.isLt
  have hn : wordNat 0xC0000001 [(t.toNat, 21), (a.toNat, 16)] < 2 ^ 32 := by simp only [wordNat]; omega
  refine congrArg some (decodeHalf_of (word_ne_zero hn (by simp only [wordNat]; omega)) ?_ hw)
  rw [row60 (word_field 25 7 96 hn (by simp only [wordNat]; omega))]
  unfold decodeMajor60
  rw [word_field 1 15 0 hn (by simp only [wordNat]; omega),
    word_field_is 21 t hn (by simp only [wordNat]; omega),
    word_field_is 16 a hn (by simp only [wordNat]; omega)]
  rfl

theorem Roundtrip.mma (m : BitVec 2) (a : BitVec 4) (b : BitVec 4) : Roundtrip.Statement (.mma m a b) := by
  intro hw _
  have h_m := m.isLt
  have h_a := a.isLt
  have h_b := b.isLt
  have hn : wordNat 0xC2000001 [(m.toNat, 23), (a.toNat, 19), (b.toNat, 15)] < 2 ^ 32 := by simp only [wordNat]; omega
  refine congrArg some (decodeHalf_of (word_ne_zero hn (by simp only [wordNat]; omega)) ?_ hw)
  rw [row61 (word_field 25 7 97 hn (by simp only [wordNat]; omega))]
  unfold decodeMajor61
  rw [word_field 1 14 0 hn (by simp only [wordNat]; omega),
    word_field_is 23 m hn (by simp only [wordNat]; omega),
    word_field_is 19 a hn (by simp only [wordNat]; omega),
    word_field_is 15 b hn (by simp only [wordNat]; omega)]
  rfl

theorem Roundtrip.mmaz (m : BitVec 2) (a : BitVec 4) (b : BitVec 4) : Roundtrip.Statement (.mmaz m a b) := by
  intro hw _
  have h_m := m.isLt
  have h_a := a.isLt
  have h_b := b.isLt
  have hn : wordNat 0xC2004001 [(m.toNat, 23), (a.toNat, 19), (b.toNat, 15)] < 2 ^ 32 := by simp only [wordNat]; omega
  refine congrArg some (decodeHalf_of (word_ne_zero hn (by simp only [wordNat]; omega)) ?_ hw)
  rw [row61 (word_field 25 7 97 hn (by simp only [wordNat]; omega))]
  unfold decodeMajor61
  rw [word_field 1 14 8192 hn (by simp only [wordNat]; omega),
    word_field_is 23 m hn (by simp only [wordNat]; omega),
    word_field_is 19 a hn (by simp only [wordNat]; omega),
    word_field_is 15 b hn (by simp only [wordNat]; omega)]
  rfl

theorem Roundtrip.mzero (k : BitVec 4) : Roundtrip.Statement (.mzero k) := by
  intro hw _
  have h_k := k.isLt
  have hn : wordNat 0xC4000001 [(k.toNat, 21)] < 2 ^ 32 := by simp only [wordNat]; omega
  refine congrArg some (decodeHalf_of (word_ne_zero hn (by simp only [wordNat]; omega)) ?_ hw)
  rw [row62 (word_field 25 7 98 hn (by simp only [wordNat]; omega))]
  unfold decodeMajor62
  rw [word_field 1 20 0 hn (by simp only [wordNat]; omega),
    word_field_is 21 k hn (by simp only [wordNat]; omega)]
  rfl

theorem Roundtrip.mscaRow (m : BitVec 2) (v : BitVec 6) : Roundtrip.Statement (.mscaRow m v) := by
  intro hw _
  have h_m := m.isLt
  have h_v := v.isLt
  have hn : wordNat 0xC6000001 [(m.toNat, 23), (v.toNat, 17)] < 2 ^ 32 := by simp only [wordNat]; omega
  refine congrArg some (decodeHalf_of (word_ne_zero hn (by simp only [wordNat]; omega)) ?_ hw)
  rw [row63 (word_field 25 7 99 hn (by simp only [wordNat]; omega))]
  unfold decodeMajor63
  rw [word_field 1 16 0 hn (by simp only [wordNat]; omega),
    word_field_is 23 m hn (by simp only [wordNat]; omega),
    word_field_is 17 v hn (by simp only [wordNat]; omega)]
  rfl

theorem Roundtrip.mscaCol (m : BitVec 2) (v : BitVec 6) : Roundtrip.Statement (.mscaCol m v) := by
  intro hw _
  have h_m := m.isLt
  have h_v := v.isLt
  have hn : wordNat 0xC6010001 [(m.toNat, 23), (v.toNat, 17)] < 2 ^ 32 := by simp only [wordNat]; omega
  refine congrArg some (decodeHalf_of (word_ne_zero hn (by simp only [wordNat]; omega)) ?_ hw)
  rw [row63 (word_field 25 7 99 hn (by simp only [wordNat]; omega))]
  unfold decodeMajor63
  rw [word_field 1 16 32768 hn (by simp only [wordNat]; omega),
    word_field_is 23 m hn (by simp only [wordNat]; omega),
    word_field_is 17 v hn (by simp only [wordNat]; omega)]
  rfl

theorem Roundtrip.mrd (v : BitVec 6) (m : BitVec 2) (r : BitVec 4) : Roundtrip.Statement (.mrd v m r) := by
  intro hw _
  have h_v := v.isLt
  have h_m := m.isLt
  have h_r := r.isLt
  have hn : wordNat 0xC8000001 [(v.toNat, 19), (m.toNat, 17), (r.toNat, 13)] < 2 ^ 32 := by simp only [wordNat]; omega
  refine congrArg some (decodeHalf_of (word_ne_zero hn (by simp only [wordNat]; omega)) ?_ hw)
  rw [row64 (word_field 25 7 100 hn (by simp only [wordNat]; omega))]
  unfold decodeMajor64
  rw [word_field 1 12 0 hn (by simp only [wordNat]; omega),
    word_field_is 19 v hn (by simp only [wordNat]; omega),
    word_field_is 17 m hn (by simp only [wordNat]; omega),
    word_field_is 13 r hn (by simp only [wordNat]; omega)]
  rfl

theorem Roundtrip.mwr (v : BitVec 6) (m : BitVec 2) (r : BitVec 4) : Roundtrip.Statement (.mwr v m r) := by
  intro hw _
  have h_v := v.isLt
  have h_m := m.isLt
  have h_r := r.isLt
  have hn : wordNat 0xCA000001 [(v.toNat, 19), (m.toNat, 17), (r.toNat, 13)] < 2 ^ 32 := by simp only [wordNat]; omega
  refine congrArg some (decodeHalf_of (word_ne_zero hn (by simp only [wordNat]; omega)) ?_ hw)
  rw [row65 (word_field 25 7 101 hn (by simp only [wordNat]; omega))]
  unfold decodeMajor65
  rw [word_field 1 12 0 hn (by simp only [wordNat]; omega),
    word_field_is 19 v hn (by simp only [wordNat]; omega),
    word_field_is 17 m hn (by simp only [wordNat]; omega),
    word_field_is 13 r hn (by simp only [wordNat]; omega)]
  rfl

theorem Roundtrip.mst (m : BitVec 2) (t : BitVec 4) (f : BitVec 3) (c : BitVec 4) (r : BitVec 2) : Roundtrip.Statement (.mst m t f c r) := by
  intro hw _
  have h_m := m.isLt
  have h_t := t.isLt
  have h_f := f.isLt
  have h_c := c.isLt
  have h_r := r.isLt
  have hn : wordNat 0xCC000001 [(m.toNat, 23), (t.toNat, 19), (f.toNat, 16), (c.toNat, 12), (r.toNat, 10)] < 2 ^ 32 := by simp only [wordNat]; omega
  refine congrArg some (decodeHalf_of (word_ne_zero hn (by simp only [wordNat]; omega)) ?_ hw)
  rw [row66 (word_field 25 7 102 hn (by simp only [wordNat]; omega))]
  unfold decodeMajor66
  rw [word_field 1 9 0 hn (by simp only [wordNat]; omega),
    word_field_is 23 m hn (by simp only [wordNat]; omega),
    word_field_is 19 t hn (by simp only [wordNat]; omega),
    word_field_is 16 f hn (by simp only [wordNat]; omega),
    word_field_is 12 c hn (by simp only [wordNat]; omega),
    word_field_is 10 r hn (by simp only [wordNat]; omega)]
  rfl

theorem Roundtrip.mld (m : BitVec 2) (a : BitVec 4) : Roundtrip.Statement (.mld m a) := by
  intro hw _
  have h_m := m.isLt
  have h_a := a.isLt
  have hn : wordNat 0xCE000001 [(m.toNat, 23), (a.toNat, 19)] < 2 ^ 32 := by simp only [wordNat]; omega
  refine congrArg some (decodeHalf_of (word_ne_zero hn (by simp only [wordNat]; omega)) ?_ hw)
  rw [row67 (word_field 25 7 103 hn (by simp only [wordNat]; omega))]
  unfold decodeMajor67
  rw [word_field 1 18 0 hn (by simp only [wordNat]; omega),
    word_field_is 23 m hn (by simp only [wordNat]; omega),
    word_field_is 19 a hn (by simp only [wordNat]; omega)]
  rfl

theorem Roundtrip.ldtab (a : BitVec 5) : Roundtrip.Statement (.ldtab a) := by
  intro hw _
  have h_a := a.isLt
  have hn : wordNat 0xD0000001 [(a.toNat, 20)] < 2 ^ 32 := by simp only [wordNat]; omega
  refine congrArg some (decodeHalf_of (word_ne_zero hn (by simp only [wordNat]; omega)) ?_ hw)
  rw [row68 (word_field 25 7 104 hn (by simp only [wordNat]; omega))]
  unfold decodeMajor68
  rw [word_field 1 19 0 hn (by simp only [wordNat]; omega),
    word_field_is 20 a hn (by simp only [wordNat]; omega)]
  rfl

theorem Roundtrip.mcmb (m : BitVec 2) (a : BitVec 2) : Roundtrip.Statement (.mcmb m a) := by
  intro hw _
  have h_m := m.isLt
  have h_a := a.isLt
  have hn : wordNat 0xD2000001 [(m.toNat, 23), (a.toNat, 21)] < 2 ^ 32 := by simp only [wordNat]; omega
  refine congrArg some (decodeHalf_of (word_ne_zero hn (by simp only [wordNat]; omega)) ?_ hw)
  rw [row69 (word_field 25 7 105 hn (by simp only [wordNat]; omega))]
  unfold decodeMajor69
  rw [word_field 1 20 0 hn (by simp only [wordNat]; omega),
    word_field_is 23 m hn (by simp only [wordNat]; omega),
    word_field_is 21 a hn (by simp only [wordNat]; omega)]
  rfl

theorem Roundtrip.mmaw (m : BitVec 2) (a : BitVec 4) (b : BitVec 4) : Roundtrip.Statement (.mmaw m a b) := by
  intro hw _
  have h_m := m.isLt
  have h_a := a.isLt
  have h_b := b.isLt
  have hn : wordNat 0xD6000001 [(m.toNat, 23), (a.toNat, 19), (b.toNat, 15)] < 2 ^ 32 := by simp only [wordNat]; omega
  refine congrArg some (decodeHalf_of (word_ne_zero hn (by simp only [wordNat]; omega)) ?_ hw)
  rw [row6B (word_field 25 7 107 hn (by simp only [wordNat]; omega))]
  unfold decodeMajor6B
  rw [word_field 1 14 0 hn (by simp only [wordNat]; omega),
    word_field_is 23 m hn (by simp only [wordNat]; omega),
    word_field_is 19 a hn (by simp only [wordNat]; omega),
    word_field_is 15 b hn (by simp only [wordNat]; omega)]
  rfl

theorem Roundtrip.mmawz (m : BitVec 2) (a : BitVec 4) (b : BitVec 4) : Roundtrip.Statement (.mmawz m a b) := by
  intro hw _
  have h_m := m.isLt
  have h_a := a.isLt
  have h_b := b.isLt
  have hn : wordNat 0xD6004001 [(m.toNat, 23), (a.toNat, 19), (b.toNat, 15)] < 2 ^ 32 := by simp only [wordNat]; omega
  refine congrArg some (decodeHalf_of (word_ne_zero hn (by simp only [wordNat]; omega)) ?_ hw)
  rw [row6B (word_field 25 7 107 hn (by simp only [wordNat]; omega))]
  unfold decodeMajor6B
  rw [word_field 1 14 8192 hn (by simp only [wordNat]; omega),
    word_field_is 23 m hn (by simp only [wordNat]; omega),
    word_field_is 19 a hn (by simp only [wordNat]; omega),
    word_field_is 15 b hn (by simp only [wordNat]; omega)]
  rfl

theorem Roundtrip.bmv (d : BitVec 5) (a : BitVec 5) : Roundtrip.Statement (.bmv d a) := by
  intro hw _
  have h_d := d.isLt
  have h_a := a.isLt
  have hn : wordNat 0xD8000001 [(d.toNat, 20), (a.toNat, 15)] < 2 ^ 32 := by simp only [wordNat]; omega
  refine congrArg some (decodeHalf_of (word_ne_zero hn (by simp only [wordNat]; omega)) ?_ hw)
  rw [row6C (word_field 25 7 108 hn (by simp only [wordNat]; omega))]
  unfold decodeMajor6C
  rw [word_field 1 14 0 hn (by simp only [wordNat]; omega),
    word_field_is 20 d hn (by simp only [wordNat]; omega),
    word_field_is 15 a hn (by simp only [wordNat]; omega)]
  rfl

theorem Roundtrip.btab (d : BitVec 5) (a : BitVec 5) (b : BitVec 5) : Roundtrip.Statement (.btab d a b) := by
  intro hw _
  have h_d := d.isLt
  have h_a := a.isLt
  have h_b := b.isLt
  have hn : wordNat 0xDA000001 [(d.toNat, 20), (a.toNat, 15), (b.toNat, 10)] < 2 ^ 32 := by simp only [wordNat]; omega
  refine congrArg some (decodeHalf_of (word_ne_zero hn (by simp only [wordNat]; omega)) ?_ hw)
  rw [row6D (word_field 25 7 109 hn (by simp only [wordNat]; omega))]
  unfold decodeMajor6D
  rw [word_field 1 9 0 hn (by simp only [wordNat]; omega),
    word_field_is 20 d hn (by simp only [wordNat]; omega),
    word_field_is 15 a hn (by simp only [wordNat]; omega),
    word_field_is 10 b hn (by simp only [wordNat]; omega)]
  rfl

theorem Roundtrip.blay (d : BitVec 5) (a : BitVec 5) : Roundtrip.Statement (.blay d a) := by
  intro hw _
  have h_d := d.isLt
  have h_a := a.isLt
  have hn : wordNat 0xDC000001 [(d.toNat, 20), (a.toNat, 15)] < 2 ^ 32 := by simp only [wordNat]; omega
  refine congrArg some (decodeHalf_of (word_ne_zero hn (by simp only [wordNat]; omega)) ?_ hw)
  rw [row6E (word_field 25 7 110 hn (by simp only [wordNat]; omega))]
  unfold decodeMajor6E
  rw [word_field 1 14 0 hn (by simp only [wordNat]; omega),
    word_field_is 20 d hn (by simp only [wordNat]; omega),
    word_field_is 15 a hn (by simp only [wordNat]; omega)]
  rfl

theorem Roundtrip.shpmk (d : BitVec 5) (a : BitVec 5) : Roundtrip.Statement (.shpmk d a) := by
  intro hw _
  have h_d := d.isLt
  have h_a := a.isLt
  have hn : wordNat 0xE0000001 [(d.toNat, 20), (a.toNat, 15)] < 2 ^ 32 := by simp only [wordNat]; omega
  refine congrArg some (decodeHalf_of (word_ne_zero hn (by simp only [wordNat]; omega)) ?_ hw)
  rw [row70 (word_field 25 7 112 hn (by simp only [wordNat]; omega))]
  unfold decodeMajor70
  rw [word_field 1 14 0 hn (by simp only [wordNat]; omega),
    word_field_is 20 d hn (by simp only [wordNat]; omega),
    word_field_is 15 a hn (by simp only [wordNat]; omega)]
  rfl

theorem Roundtrip.shpdel (a : BitVec 5) : Roundtrip.Statement (.shpdel a) := by
  intro hw _
  have h_a := a.isLt
  have hn : wordNat 0xE2000001 [(a.toNat, 15)] < 2 ^ 32 := by simp only [wordNat]; omega
  refine congrArg some (decodeHalf_of (word_ne_zero hn (by simp only [wordNat]; omega)) ?_ hw)
  rw [row71 (word_field 25 7 113 hn (by simp only [wordNat]; omega))]
  unfold decodeMajor71
  rw [word_field 20 5 0 hn (by simp only [wordNat]; omega),
    word_field 1 14 0 hn (by simp only [wordNat]; omega),
    word_field_is 15 a hn (by simp only [wordNat]; omega)]
  rfl

theorem Roundtrip.copy (d : BitVec 5) (a : BitVec 5) (b : BitVec 5) (c : BitVec 5) : Roundtrip.Statement (.copy d a b c) := by
  intro hw _
  have h_d := d.isLt
  have h_a := a.isLt
  have h_b := b.isLt
  have h_c := c.isLt
  have hn : wordNat 0xE4000001 [(d.toNat, 20), (a.toNat, 15), (b.toNat, 10), (c.toNat, 5)] < 2 ^ 32 := by simp only [wordNat]; omega
  refine congrArg some (decodeHalf_of (word_ne_zero hn (by simp only [wordNat]; omega)) ?_ hw)
  rw [row72 (word_field 25 7 114 hn (by simp only [wordNat]; omega))]
  unfold decodeMajor72
  rw [word_field 1 4 0 hn (by simp only [wordNat]; omega),
    word_field_is 20 d hn (by simp only [wordNat]; omega),
    word_field_is 15 a hn (by simp only [wordNat]; omega),
    word_field_is 10 b hn (by simp only [wordNat]; omega),
    word_field_is 5 c hn (by simp only [wordNat]; omega)]
  rfl

theorem Roundtrip.copys (d : BitVec 5) (a : BitVec 5) (b : BitVec 5) (c : BitVec 5) : Roundtrip.Statement (.copys d a b c) := by
  intro hw _
  have h_d := d.isLt
  have h_a := a.isLt
  have h_b := b.isLt
  have h_c := c.isLt
  have hn : wordNat 0xE6000001 [(d.toNat, 20), (a.toNat, 15), (b.toNat, 10), (c.toNat, 5)] < 2 ^ 32 := by simp only [wordNat]; omega
  refine congrArg some (decodeHalf_of (word_ne_zero hn (by simp only [wordNat]; omega)) ?_ hw)
  rw [row73 (word_field 25 7 115 hn (by simp only [wordNat]; omega))]
  unfold decodeMajor73
  rw [word_field 1 4 0 hn (by simp only [wordNat]; omega),
    word_field_is 20 d hn (by simp only [wordNat]; omega),
    word_field_is 15 a hn (by simp only [wordNat]; omega),
    word_field_is 10 b hn (by simp only [wordNat]; omega),
    word_field_is 5 c hn (by simp only [wordNat]; omega)]
  rfl

theorem Roundtrip.cfill (d : BitVec 5) (a : BitVec 5) (b : BitVec 5) (c : BitVec 5) : Roundtrip.Statement (.cfill d a b c) := by
  intro hw _
  have h_d := d.isLt
  have h_a := a.isLt
  have h_b := b.isLt
  have h_c := c.isLt
  have hn : wordNat 0xE8000001 [(d.toNat, 20), (a.toNat, 15), (b.toNat, 10), (c.toNat, 5)] < 2 ^ 32 := by simp only [wordNat]; omega
  refine congrArg some (decodeHalf_of (word_ne_zero hn (by simp only [wordNat]; omega)) ?_ hw)
  rw [row74 (word_field 25 7 116 hn (by simp only [wordNat]; omega))]
  unfold decodeMajor74
  rw [word_field 1 4 0 hn (by simp only [wordNat]; omega),
    word_field_is 20 d hn (by simp only [wordNat]; omega),
    word_field_is 15 a hn (by simp only [wordNat]; omega),
    word_field_is 10 b hn (by simp only [wordNat]; omega),
    word_field_is 5 c hn (by simp only [wordNat]; omega)]
  rfl

theorem Roundtrip.fxput (d : BitVec 5) (a : BitVec 5) (b : BitVec 5) (c : BitVec 5) : Roundtrip.Statement (.fxput d a b c) := by
  intro hw _
  have h_d := d.isLt
  have h_a := a.isLt
  have h_b := b.isLt
  have h_c := c.isLt
  have hn : wordNat 0xF0000001 [(d.toNat, 20), (a.toNat, 15), (b.toNat, 10), (c.toNat, 5)] < 2 ^ 32 := by simp only [wordNat]; omega
  refine congrArg some (decodeHalf_of (word_ne_zero hn (by simp only [wordNat]; omega)) ?_ hw)
  rw [row78 (word_field 25 7 120 hn (by simp only [wordNat]; omega))]
  unfold decodeMajor78
  rw [word_field 1 4 0 hn (by simp only [wordNat]; omega),
    word_field_is 20 d hn (by simp only [wordNat]; omega),
    word_field_is 15 a hn (by simp only [wordNat]; omega),
    word_field_is 10 b hn (by simp only [wordNat]; omega),
    word_field_is 5 c hn (by simp only [wordNat]; omega)]
  rfl

theorem Roundtrip.fxget (d : BitVec 5) (a : BitVec 5) (b : BitVec 5) (c : BitVec 5) : Roundtrip.Statement (.fxget d a b c) := by
  intro hw _
  have h_d := d.isLt
  have h_a := a.isLt
  have h_b := b.isLt
  have h_c := c.isLt
  have hn : wordNat 0xF2000001 [(d.toNat, 20), (a.toNat, 15), (b.toNat, 10), (c.toNat, 5)] < 2 ^ 32 := by simp only [wordNat]; omega
  refine congrArg some (decodeHalf_of (word_ne_zero hn (by simp only [wordNat]; omega)) ?_ hw)
  rw [row79 (word_field 25 7 121 hn (by simp only [wordNat]; omega))]
  unfold decodeMajor79
  rw [word_field 1 4 0 hn (by simp only [wordNat]; omega),
    word_field_is 20 d hn (by simp only [wordNat]; omega),
    word_field_is 15 a hn (by simp only [wordNat]; omega),
    word_field_is 10 b hn (by simp only [wordNat]; omega),
    word_field_is 5 c hn (by simp only [wordNat]; omega)]
  rfl

theorem Roundtrip.fxred (d : BitVec 5) (a : BitVec 5) (b : BitVec 5) (c : BitVec 5) : Roundtrip.Statement (.fxred d a b c) := by
  intro hw _
  have h_d := d.isLt
  have h_a := a.isLt
  have h_b := b.isLt
  have h_c := c.isLt
  have hn : wordNat 0xF4000001 [(d.toNat, 20), (a.toNat, 15), (b.toNat, 10), (c.toNat, 5)] < 2 ^ 32 := by simp only [wordNat]; omega
  refine congrArg some (decodeHalf_of (word_ne_zero hn (by simp only [wordNat]; omega)) ?_ hw)
  rw [row7A (word_field 25 7 122 hn (by simp only [wordNat]; omega))]
  unfold decodeMajor7A
  rw [word_field 1 4 0 hn (by simp only [wordNat]; omega),
    word_field_is 20 d hn (by simp only [wordNat]; omega),
    word_field_is 15 a hn (by simp only [wordNat]; omega),
    word_field_is 10 b hn (by simp only [wordNat]; omega),
    word_field_is 5 c hn (by simp only [wordNat]; omega)]
  rfl

theorem Roundtrip.arcJoin (d : BitVec 5) (a : BitVec 5) : Roundtrip.Statement (.arcJoin d a) := by
  intro hw _
  have h_d := d.isLt
  have h_a := a.isLt
  have hn : wordNat 0xF6000001 [(d.toNat, 20), (a.toNat, 15)] < 2 ^ 32 := by simp only [wordNat]; omega
  refine congrArg some (decodeHalf_of (word_ne_zero hn (by simp only [wordNat]; omega)) ?_ hw)
  rw [row7B (word_field 25 7 123 hn (by simp only [wordNat]; omega))]
  unfold decodeMajor7B
  rw [word_field 1 14 0 hn (by simp only [wordNat]; omega),
    word_field_is 20 d hn (by simp only [wordNat]; omega),
    word_field_is 15 a hn (by simp only [wordNat]; omega)]
  rfl

theorem Roundtrip.arcLeave (d : BitVec 5) (a : BitVec 5) : Roundtrip.Statement (.arcLeave d a) := by
  intro hw _
  have h_d := d.isLt
  have h_a := a.isLt
  have hn : wordNat 0xF6000021 [(d.toNat, 20), (a.toNat, 15)] < 2 ^ 32 := by simp only [wordNat]; omega
  refine congrArg some (decodeHalf_of (word_ne_zero hn (by simp only [wordNat]; omega)) ?_ hw)
  rw [row7B (word_field 25 7 123 hn (by simp only [wordNat]; omega))]
  unfold decodeMajor7B
  rw [word_field 1 14 16 hn (by simp only [wordNat]; omega),
    word_field_is 20 d hn (by simp only [wordNat]; omega),
    word_field_is 15 a hn (by simp only [wordNat]; omega)]
  rfl

theorem Roundtrip.arcBar (d : BitVec 5) (a : BitVec 5) : Roundtrip.Statement (.arcBar d a) := by
  intro hw _
  have h_d := d.isLt
  have h_a := a.isLt
  have hn : wordNat 0xF6000041 [(d.toNat, 20), (a.toNat, 15)] < 2 ^ 32 := by simp only [wordNat]; omega
  refine congrArg some (decodeHalf_of (word_ne_zero hn (by simp only [wordNat]; omega)) ?_ hw)
  rw [row7B (word_field 25 7 123 hn (by simp only [wordNat]; omega))]
  unfold decodeMajor7B
  rw [word_field 1 14 32 hn (by simp only [wordNat]; omega),
    word_field_is 20 d hn (by simp only [wordNat]; omega),
    word_field_is 15 a hn (by simp only [wordNat]; omega)]
  rfl

theorem Roundtrip.launchStrand (ctx : Nat) (ring : Nat) (advice : Nat) (prio : Nat) : Roundtrip.Statement (.launchStrand ctx ring advice prio) := by
  intro _ h
  exact absurd h Bool.false_ne_true

theorem Roundtrip.launchGraph (ctx : Nat) (ring : Nat) (advice : Nat) (prio : Nat) : Roundtrip.Statement (.launchGraph ctx ring advice prio) := by
  intro _ h
  exact absurd h Bool.false_ne_true

theorem Roundtrip.launchLattice (ctx : Nat) (ring : Nat) (advice : Nat) (prio : Nat) : Roundtrip.Statement (.launchLattice ctx ring advice prio) := by
  intro _ h
  exact absurd h Bool.false_ne_true

theorem Roundtrip.launchArchipelago (ctx : Nat) (ring : Nat) (advice : Nat) (prio : Nat) : Roundtrip.Statement (.launchArchipelago ctx ring advice prio) := by
  intro _ h
  exact absurd h Bool.false_ne_true

theorem Roundtrip.doorbell (fn : Nat) (off : Nat) (v : Nat) : Roundtrip.Statement (.doorbell fn off v) := by
  intro _ h
  exact absurd h Bool.false_ne_true

theorem Roundtrip.eventRingSpace (c : Nat) (n : Nat) : Roundtrip.Statement (.eventRingSpace c n) := by
  intro _ h
  exact absurd h Bool.false_ne_true

theorem Roundtrip.registerWrite (fn : Nat) (off : Nat) (v : Nat) : Roundtrip.Statement (.registerWrite fn off v) := by
  intro _ h
  exact absurd h Bool.false_ne_true

theorem Roundtrip.partcfg (ctx : Nat) (ring : Nat) : Roundtrip.Statement (.partcfg ctx ring) := by
  intro _ h
  exact absurd h Bool.false_ne_true

theorem Roundtrip.ctxcfg (ctx : Nat) (ring : Nat) : Roundtrip.Statement (.ctxcfg ctx ring) := by
  intro _ h
  exact absurd h Bool.false_ne_true

theorem Roundtrip.ctxreset (ctx : Nat) (ring : Nat) : Roundtrip.Statement (.ctxreset ctx ring) := by
  intro _ h
  exact absurd h Bool.false_ne_true

theorem Roundtrip.domcfg (ctx : Nat) (ring : Nat) : Roundtrip.Statement (.domcfg ctx ring) := by
  intro _ h
  exact absurd h Bool.false_ne_true

theorem Roundtrip.domfree (ctx : Nat) (ring : Nat) : Roundtrip.Statement (.domfree ctx ring) := by
  intro _ h
  exact absurd h Bool.false_ne_true

theorem Roundtrip.trust (ctx : Nat) (ring : Nat) : Roundtrip.Statement (.trust ctx ring) := by
  intro _ h
  exact absurd h Bool.false_ne_true

theorem Roundtrip.rangeinv (ctx : Nat) (ring : Nat) : Roundtrip.Statement (.rangeinv ctx ring) := by
  intro _ h
  exact absurd h Bool.false_ne_true

theorem Roundtrip.plbshoot (ctx : Nat) (ring : Nat) : Roundtrip.Statement (.plbshoot ctx ring) := by
  intro _ h
  exact absurd h Bool.false_ne_true

theorem Roundtrip.faultres (ctx : Nat) (ring : Nat) : Roundtrip.Statement (.faultres ctx ring) := by
  intro _ h
  exact absurd h Bool.false_ne_true

theorem Roundtrip.teardown (ctx : Nat) (ring : Nat) : Roundtrip.Statement (.teardown ctx ring) := by
  intro _ h
  exact absurd h Bool.false_ne_true

theorem Roundtrip.preempt (ctx : Nat) (ring : Nat) : Roundtrip.Statement (.preempt ctx ring) := by
  intro _ h
  exact absurd h Bool.false_ne_true

theorem Roundtrip.restore (ctx : Nat) (ring : Nat) : Roundtrip.Statement (.restore ctx ring) := by
  intro _ h
  exact absurd h Bool.false_ne_true

theorem Roundtrip.keyset (ctx : Nat) (ring : Nat) : Roundtrip.Statement (.keyset ctx ring) := by
  intro _ h
  exact absurd h Bool.false_ne_true

theorem Roundtrip.rackLaunchPacket (sender : Nat) (packet : RackPacket) : Roundtrip.Statement (.rackLaunchPacket sender packet) := by
  intro _ h
  exact absurd h Bool.false_ne_true

theorem Roundtrip.migrate (dom : Nat) : Roundtrip.Statement (.migrate dom) := by
  intro _ h
  exact absurd h Bool.false_ne_true

theorem Roundtrip.setrap (dom : Nat) : Roundtrip.Statement (.setrap dom) := by
  intro _ h
  exact absurd h Bool.false_ne_true

theorem Roundtrip.rangeInvalidationPerform (id : Nat) : Roundtrip.Statement (.rangeInvalidationPerform id) := by
  intro _ h
  exact absurd h Bool.false_ne_true

theorem Roundtrip.graphNodeFinish (launch : Nat) (node : Nat) : Roundtrip.Statement (.graphNodeFinish launch node) := by
  intro _ h
  exact absurd h Bool.false_ne_true

theorem Roundtrip.controlNodeEval (launch : Nat) (node : Nat) : Roundtrip.Statement (.controlNodeEval launch node) := by
  intro _ h
  exact absurd h Bool.false_ne_true

theorem Roundtrip.loopNodeEval (launch : Nat) (node : Nat) : Roundtrip.Statement (.loopNodeEval launch node) := by
  intro _ h
  exact absurd h Bool.false_ne_true

theorem Roundtrip.bandStart (launch : Nat) : Roundtrip.Statement (.bandStart launch) := by
  intro _ h
  exact absurd h Bool.false_ne_true

theorem Roundtrip.bandReconstruct (launch : Nat) : Roundtrip.Statement (.bandReconstruct launch) := by
  intro _ h
  exact absurd h Bool.false_ne_true

theorem Roundtrip.completionForward (launch : Nat) (key : Nat) : Roundtrip.Statement (.completionForward launch key) := by
  intro _ h
  exact absurd h Bool.false_ne_true

theorem Roundtrip.completionRecordWrite (launch : Nat) : Roundtrip.Statement (.completionRecordWrite launch) := by
  intro _ h
  exact absurd h Bool.false_ne_true

theorem Roundtrip.codePoison (place : Nat) (n : Nat) : Roundtrip.Statement (.codePoison place n) := by
  intro _ h
  exact absurd h Bool.false_ne_true

theorem Roundtrip.loadDataReturn (serial : Nat) : Roundtrip.Statement (.loadDataReturn serial) := by
  intro _ h
  exact absurd h Bool.false_ne_true

theorem Roundtrip.gathTPush (serial : Nat) (late : Nat) : Roundtrip.Statement (.gathTPush serial late) := by
  intro _ h
  exact absurd h Bool.false_ne_true

theorem Roundtrip.eventChainSignal (k : Nat) : Roundtrip.Statement (.eventChainSignal k) := by
  intro _ h
  exact absurd h Bool.false_ne_true

theorem Roundtrip.storePerform (serial : Nat) : Roundtrip.Statement (.storePerform serial) := by
  intro _ h
  exact absurd h Bool.false_ne_true

theorem Roundtrip.atomicPerform (line : Nat) : Roundtrip.Statement (.atomicPerform line) := by
  intro _ h
  exact absurd h Bool.false_ne_true

theorem Roundtrip.amonAccept (serial : Nat) : Roundtrip.Statement (.amonAccept serial) := by
  intro _ h
  exact absurd h Bool.false_ne_true

theorem Roundtrip.deferredResolve (dom : Nat) : Roundtrip.Statement (.deferredResolve dom) := by
  intro _ h
  exact absurd h Bool.false_ne_true

theorem Roundtrip.lineFill (va : Nat) : Roundtrip.Statement (.lineFill va) := by
  intro _ h
  exact absurd h Bool.false_ne_true

theorem Roundtrip.pageWalk (va : Nat) : Roundtrip.Statement (.pageWalk va) := by
  intro _ h
  exact absurd h Bool.false_ne_true

theorem Roundtrip.copyCommandComplete (serial : Nat) : Roundtrip.Statement (.copyCommandComplete serial) := by
  intro _ h
  exact absurd h Bool.false_ne_true

theorem Roundtrip.bankCommandComplete (serial : Nat) : Roundtrip.Statement (.bankCommandComplete serial) := by
  intro _ h
  exact absurd h Bool.false_ne_true

theorem Roundtrip.btabSlotReplace (serial : Nat) (stack : Nat) : Roundtrip.Statement (.btabSlotReplace serial stack) := by
  intro _ h
  exact absurd h Bool.false_ne_true

theorem Roundtrip.fabricCommandComplete (serial : Nat) : Roundtrip.Statement (.fabricCommandComplete serial) := by
  intro _ h
  exact absurd h Bool.false_ne_true

theorem Roundtrip.narrowsRetransmit (serial : Nat) (j : Nat) : Roundtrip.Statement (.narrowsRetransmit serial j) := by
  intro _ h
  exact absurd h Bool.false_ne_true

theorem Roundtrip.narrowsMessageAck (serial : Nat) (j : Nat) (bitmap : Nat) : Roundtrip.Statement (.narrowsMessageAck serial j bitmap) := by
  intro _ h
  exact absurd h Bool.false_ne_true

theorem Roundtrip.mcrRound (group : Nat) (elem : Nat) : Roundtrip.Statement (.mcrRound group elem) := by
  intro _ h
  exact absurd h Bool.false_ne_true

theorem Roundtrip.mcrDeliver (group : Nat) (elem : Nat) : Roundtrip.Statement (.mcrDeliver group elem) := by
  intro _ h
  exact absurd h Bool.false_ne_true

theorem Roundtrip.regionRegister (key : Nat) (dom : Nat) (va : Nat) (pages : Nat) : Roundtrip.Statement (.regionRegister key dom va pages) := by
  intro _ h
  exact absurd h Bool.false_ne_true

theorem Roundtrip.keyRevoke (key : Nat) : Roundtrip.Statement (.keyRevoke key) := by
  intro _ h
  exact absurd h Bool.false_ne_true

theorem Roundtrip.hostMemAccess (acc : HostAccess) (va : Nat) (v : Nat) : Roundtrip.Statement (.hostMemAccess acc va v) := by
  intro _ h
  exact absurd h Bool.false_ne_true

theorem Roundtrip.tagError (line : Nat) (mirrorBad : Bool) : Roundtrip.Statement (.tagError line mirrorBad) := by
  intro _ h
  exact absurd h Bool.false_ne_true

theorem Roundtrip.dataError (kind : Nat) (at_ : Nat) : Roundtrip.Statement (.dataError kind at_) := by
  intro _ h
  exact absurd h Bool.false_ne_true

theorem Roundtrip.pdmSample (die : Nat) (slack : List Nat) : Roundtrip.Statement (.pdmSample die slack) := by
  intro _ h
  exact absurd h Bool.false_ne_true

theorem Roundtrip.replan (die : Nat) (khz : Nat) (points : List (Nat × Nat)) : Roundtrip.Statement (.replan die khz points) := by
  intro _ h
  exact absurd h Bool.false_ne_true

theorem Roundtrip.clockStep (die : Nat) (khz : Nat) : Roundtrip.Statement (.clockStep die khz) := by
  intro _ h
  exact absurd h Bool.false_ne_true

theorem Roundtrip.bankFence (stack : Nat) (bank : Nat) : Roundtrip.Statement (.bankFence stack bank) := by
  intro _ h
  exact absurd h Bool.false_ne_true

theorem Roundtrip.hbmRowRepair (stack : Nat) (bank : Nat) (row : Nat) : Roundtrip.Statement (.hbmRowRepair stack bank row) := by
  intro _ h
  exact absurd h Bool.false_ne_true

theorem Roundtrip.linkLaneFence (link : Nat) (lane : Nat) : Roundtrip.Statement (.linkLaneFence link lane) := by
  intro _ h
  exact absurd h Bool.false_ne_true

theorem Roundtrip.replayEnter (part : Nat) (launch : Nat) : Roundtrip.Statement (.replayEnter part launch) := by
  intro _ h
  exact absurd h Bool.false_ne_true

theorem Roundtrip.deviceReset (len : Nat) (image : Nat) (sig : Nat) : Roundtrip.Statement (.deviceReset len image sig) := by
  intro _ h
  exact absurd h Bool.false_ne_true

theorem Roundtrip.reservedMajor (w : Half) : Roundtrip.Statement (.reservedMajor w) := by
  intro _ h
  exact absurd h Bool.false_ne_true

theorem Roundtrip.pair (lo : Half) (hi : Half) (span : Bool) : Roundtrip.Statement (.pair lo hi span) := by
  intro _ h
  exact absurd h Bool.false_ne_true

theorem Roundtrip.peerDeclaredLost (peer : Nat) : Roundtrip.Statement (.peerDeclaredLost peer) := by
  intro _ h
  exact absurd h Bool.false_ne_true

theorem Roundtrip.routeTableLoad (dest : Nat) (hops : List Nat) : Roundtrip.Statement (.routeTableLoad dest hops) := by
  intro _ h
  exact absurd h Bool.false_ne_true

theorem Roundtrip.podApertureEntryWrite (apt : Nat) (w0 : Nat) (w1 : Nat) : Roundtrip.Statement (.podApertureEntryWrite apt w0 w1) := by
  intro _ h
  exact absurd h Bool.false_ne_true

theorem Roundtrip.groupEntryWrite (group : Nat) (w0 : Nat) (w1 : Nat) : Roundtrip.Statement (.groupEntryWrite group w0 w1) := by
  intro _ h
  exact absurd h Bool.false_ne_true

theorem Roundtrip.regionDeregister (key : Nat) : Roundtrip.Statement (.regionDeregister key) := by
  intro _ h
  exact absurd h Bool.false_ne_true

theorem Roundtrip.nop : Roundtrip.Statement .nop := by
  intro _ _
  rfl

theorem Roundtrip.retd : Roundtrip.Statement .retd := by
  intro _ _
  rfl

theorem Roundtrip.done : Roundtrip.Statement .done := by
  intro _ _
  rfl

theorem Roundtrip.commit : Roundtrip.Statement .commit := by
  intro _ _
  rfl

theorem Roundtrip.eret : Roundtrip.Statement .eret := by
  intro _ _
  rfl

theorem Roundtrip.sysTabclr : Roundtrip.Statement .sysTabclr := by
  intro _ _
  rfl

theorem Roundtrip.strandDispatch : Roundtrip.Statement .strandDispatch := by
  intro _ h
  exact absurd h (by decide)

theorem Roundtrip.dockEnter : Roundtrip.Statement .dockEnter := by
  intro _ h
  exact absurd h (by decide)

theorem Roundtrip.priorityAgeing : Roundtrip.Statement .priorityAgeing := by
  intro _ h
  exact absurd h (by decide)

theorem Roundtrip.copyIn : Roundtrip.Statement .copyIn := by
  intro _ h
  exact absurd h (by decide)

theorem Roundtrip.copyInComplete : Roundtrip.Statement .copyInComplete := by
  intro _ h
  exact absurd h (by decide)

theorem Roundtrip.codeFetchStage : Roundtrip.Statement .codeFetchStage := by
  intro _ h
  exact absurd h (by decide)

theorem Roundtrip.neighbourTimeout : Roundtrip.Statement .neighbourTimeout := by
  intro _ h
  exact absurd h (by decide)

theorem Roundtrip.codeInstall : Roundtrip.Statement .codeInstall := by
  intro _ h
  exact absurd h (by decide)

theorem Roundtrip.sliceEnd : Roundtrip.Statement .sliceEnd := by
  intro _ h
  exact absurd h (by decide)

theorem Roundtrip.imageSeal : Roundtrip.Statement .imageSeal := by
  intro _ h
  exact absurd h (by decide)

theorem Roundtrip.drainWatchdog : Roundtrip.Statement .drainWatchdog := by
  intro _ h
  exact absurd h (by decide)

theorem Roundtrip.qdeadlock : Roundtrip.Statement .qdeadlock := by
  intro _ h
  exact absurd h (by decide)

theorem Roundtrip.barrierLineArrival : Roundtrip.Statement .barrierLineArrival := by
  intro _ h
  exact absurd h (by decide)

theorem Roundtrip.podBarrierArrival : Roundtrip.Statement .podBarrierArrival := by
  intro _ h
  exact absurd h (by decide)

theorem Roundtrip.islandDepart : Roundtrip.Statement .islandDepart := by
  intro _ h
  exact absurd h (by decide)

theorem Roundtrip.messageArrival : Roundtrip.Statement .messageArrival := by
  intro _ h
  exact absurd h (by decide)

theorem Roundtrip.parkedMessageForward : Roundtrip.Statement .parkedMessageForward := by
  intro _ h
  exact absurd h (by decide)

theorem Roundtrip.dirtyBitmapSweep : Roundtrip.Statement .dirtyBitmapSweep := by
  intro _ h
  exact absurd h (by decide)

theorem Roundtrip.scrub : Roundtrip.Statement .scrub := by
  intro _ h
  exact absurd h (by decide)

theorem Roundtrip.quadFence : Roundtrip.Statement .quadFence := by
  intro _ h
  exact absurd h (by decide)

theorem Roundtrip.checkpoint : Roundtrip.Statement .checkpoint := by
  intro _ h
  exact absurd h (by decide)

theorem Roundtrip.zeroword : Roundtrip.Statement .zeroword := by
  intro _ h
  exact absurd h (by decide)

theorem Roundtrip.runPastBody : Roundtrip.Statement .runPastBody := by
  intro _ h
  exact absurd h (by decide)

theorem Roundtrip.checkpointRestore : Roundtrip.Statement .checkpointRestore := by
  intro _ h
  exact absurd h (by decide)

theorem Roundtrip.reconciliationSweep : Roundtrip.Statement .reconciliationSweep := by
  intro _ h
  exact absurd h (by decide)

end Sys2Proof.Laws
end

