-- ==== Sys2Proof/Laws/State.lean ====
section
/-!
SUPPORT. Sys2Proof/Laws/State.lean: what is read from a state after an update of it, and the laws of sparse maps.
-/

namespace Sys2Proof.Machine

/-! ### Sparse maps -/

@[simp] theorem lookupD_setAt_same {α : Type} (l : List (Nat × α)) (k : Nat) (x d : α) : lookupD d (setAt l k x) k = x := by
  induction l with
  | nil => simp [setAt, lookupD]
  | cons p l ih =>
    obtain ⟨j, y⟩ := p
    unfold setAt
    split
    · simp [lookupD]
    · split
      · simp [lookupD]
      · next h1 h2 =>
        have h3 : ¬ j = k := by simpa using h2
        simp only [lookupD] at ih ⊢
        simp [h3, ih]

theorem lookupD_setAt_ne {α : Type} (l : List (Nat × α)) (j k : Nat) (x d : α) (h : j ≠ k) :
    lookupD d (setAt l k x) j = lookupD d l j := by
  have h' : ¬ k = j := fun e => h e.symm
  induction l with
  | nil => simp [setAt, lookupD, h']
  | cons p l ih =>
    obtain ⟨i, y⟩ := p
    unfold setAt
    split
    · simp [lookupD, h']
    · split
      · next h1 h2 =>
        have h3 : i = k := by simpa using h2
        subst h3
        simp [lookupD, h']
      · simp only [lookupD] at ih ⊢
        by_cases hi : i = j
        · simp [hi]
        · simp [hi, ih]

theorem setAt_setAt {α : Type} (l : List (Nat × α)) (k : Nat) (x y : α) : setAt (setAt l k x) k y = setAt l k y := by
  induction l with
  | nil => simp [setAt]
  | cons p l ih =>
    obtain ⟨j, z⟩ := p
    by_cases h1 : k < j
    · simp [setAt, h1]
    · by_cases h2 : j = k
      · simp [setAt, h2]
      · simp [setAt, h1, h2, ih]

/-! ### Packages and cores -/

@[simp] theorem Dev.pkg_setPkg (d : Dev) (p : Nat) (x : Package) : (d.setPkg p x).pkg p = x := by
  simp [Dev.pkg, Dev.setPkg]

theorem Dev.pkg_setPkg_ne (d : Dev) (p q : Nat) (x : Package) (h : q ≠ p) : (d.setPkg p x).pkg q = d.pkg q := by
  simp [Dev.pkg, Dev.setPkg, lookupD_setAt_ne _ _ _ _ _ h]

@[simp] theorem Dev.setPkg_setPkg (d : Dev) (p : Nat) (x y : Package) : (d.setPkg p x).setPkg p y = d.setPkg p y := by
  simp [Dev.setPkg, setAt_setAt]

@[simp] theorem Dev.setPkg_arcs (d : Dev) (p : Nat) (x : Package) : (d.setPkg p x).arcs = d.arcs := rfl

@[simp] theorem Package.core_setCore (x : Package) (c : Nat) (y : Core) : (x.setCore c y).core c = y := by
  simp [Package.core, Package.setCore]

theorem Package.core_setCore_ne (x : Package) (c e : Nat) (y : Core) (h : e ≠ c) : (x.setCore c y).core e = x.core e := by
  simp [Package.core, Package.setCore, lookupD_setAt_ne _ _ _ _ _ h]

@[simp] theorem Package.setCore_setCore (x : Package) (c : Nat) (y z : Core) : (x.setCore c y).setCore c z = x.setCore c z := by
  simp [Package.setCore, setAt_setAt]

@[simp] theorem Package.setCore_home (x : Package) (c : Nat) (y : Core) : (x.setCore c y).home = x.home := rfl
@[simp] theorem Package.setCore_sched (x : Package) (c : Nat) (y : Core) : (x.setCore c y).sched = x.sched := rfl
@[simp] theorem Package.setCore_ctl (x : Package) (c : Nat) (y : Core) : (x.setCore c y).ctl = x.ctl := rfl
@[simp] theorem Package.setCore_fabric (x : Package) (c : Nat) (y : Core) : (x.setCore c y).fabric = x.fabric := rfl
@[simp] theorem Package.setCore_service (x : Package) (c : Nat) (y : Core) : (x.setCore c y).service = x.service := rfl
@[simp] theorem Package.setCore_bankSlots (x : Package) (c : Nat) (y : Core) : (x.setCore c y).bankSlots = x.bankSlots := rfl
@[simp] theorem Package.setCore_lines (x : Package) (c : Nat) (y : Core) : (x.setCore c y).lines = x.lines := rfl
@[simp] theorem Package.setCore_chainSignals (x : Package) (c : Nat) (y : Core) :
    (x.setCore c y).chainSignals = x.chainSignals := rfl
@[simp] theorem Package.setCore_savedGens (x : Package) (c : Nat) (y : Core) : (x.setCore c y).savedGens = x.savedGens := rfl

/-! ### States -/

@[simp] theorem State.on_dev (s : State) (d : Dev) : (s.on d).dev = d := rfl
@[simp] theorem State.on_time (s : State) (d : Dev) : (s.on d).time = s.time := rfl
@[simp] theorem State.on_cur (s : State) (d : Dev) : (s.on d).cur = s.cur := rfl
@[simp] theorem State.on_agenda (s : State) (d : Dev) : (s.on d).agenda = s.agenda := rfl
@[simp] theorem State.on_env (s : State) (d : Dev) : (s.on d).env = s.env := rfl
@[simp] theorem State.on_on (s : State) (d e : Dev) : (s.on d).on e = s.on e := rfl
@[simp] theorem State.on_self (s : State) : s.on s.dev = s := rfl

@[simp] theorem State.putPkg_time (s : State) (f : Package → Package) : (s.putPkg f).time = s.time := rfl
@[simp] theorem State.putPkg_cur (s : State) (f : Package → Package) : (s.putPkg f).cur = s.cur := rfl
@[simp] theorem State.putPkg_agenda (s : State) (f : Package → Package) : (s.putPkg f).agenda = s.agenda := rfl
@[simp] theorem State.putPkg_env (s : State) (f : Package → Package) : (s.putPkg f).env = s.env := rfl
@[simp] theorem State.putPkg_arcs (s : State) (f : Package → Package) : (s.putPkg f).dev.arcs = s.dev.arcs := rfl
@[simp] theorem State.putPkg_pkg (s : State) (f : Package → Package) : (s.putPkg f).pkg = f s.pkg := by
  simp [State.pkg, State.putPkg]

@[simp] theorem State.put_time (s : State) (f : Core → Core) : (s.put f).time = s.time := rfl
@[simp] theorem State.put_cur (s : State) (f : Core → Core) : (s.put f).cur = s.cur := rfl
@[simp] theorem State.put_agenda (s : State) (f : Core → Core) : (s.put f).agenda = s.agenda := rfl
@[simp] theorem State.put_env (s : State) (f : Core → Core) : (s.put f).env = s.env := rfl
@[simp] theorem State.put_core (s : State) (f : Core → Core) : (s.put f).core = f s.core := by
  simp [State.core, State.put, State.putPkg]
@[simp] theorem State.put_put (s : State) (f g : Core → Core) : (s.put f).put g = s.put fun c => g (f c) := by
  simp [State.put, State.putPkg, State.on]

/-! ### Streams of a core -/

@[simp] theorem Core.str_setStr (c : Core) (s : Strm) (x : StreamState) : (c.setStr s x).str s = x := by cases s <;> rfl
@[simp] theorem Core.str_setStr_other (c : Core) (s : Strm) (x : StreamState) :
    (c.setStr s x).str s.other = c.str s.other := by cases s <;> rfl
@[simp] theorem Core.setStr_a (c : Core) (s : Strm) (x : StreamState) : (c.setStr s x).a = c.a := by cases s <;> rfl
@[simp] theorem Core.setStr_s (c : Core) (s : Strm) (x : StreamState) : (c.setStr s x).s = c.s := by cases s <;> rfl
@[simp] theorem Core.setStr_pa (c : Core) (s : Strm) (x : StreamState) : (c.setStr s x).pa = c.pa := by cases s <;> rfl
@[simp] theorem Core.setStr_px (c : Core) (s : Strm) (x : StreamState) : (c.setStr s x).px = c.px := by cases s <;> rfl
@[simp] theorem Core.setStr_v (c : Core) (s : Strm) (x : StreamState) : (c.setStr s x).v = c.v := by cases s <;> rfl
@[simp] theorem Core.setStr_mode (c : Core) (s : Strm) (x : StreamState) : (c.setStr s x).mode = c.mode := by cases s <;> rfl
@[simp] theorem Core.setStr_fflags (c : Core) (s : Strm) (x : StreamState) : (c.setStr s x).fflags = c.fflags := by cases s <;> rfl

end Sys2Proof.Machine
end

