-- ==== Sys2Proof/Laws/Units.lean ====
section
/-!
SUPPORT. Sys2Proof/Laws/Units.lean: what computations give, one lemma for each way of composing them; and what a lone unit
and an event do, said once.
-/

namespace Sys2Proof.Machine

variable {α β : Type}

theorem gives_pure (s : State) (v : α) : s.gives (pure v) v s.dev := rfl

theorem gives_bind {s : State} {x : M α} {f : α → M β} {v : α} {w : β} {d e : Dev}
    (hx : s.gives x v d) (hf : (s.on d).gives (f v) w e) : s.gives (x >>= f) w e := by
  have h1 : (x s.env).run s.dev = .ok (v, d) := hx
  have h2 : (f v s.env).run d = .ok (w, e) := hf
  show ((x s.env) >>= fun v => f v s.env).run s.dev = _
  simp only [StateT.run_bind, h1]
  exact h2

theorem stops_bind {s : State} {x : M α} {f : α → M β} {e : Stop} (hx : s.stops x e) : s.stops (x >>= f) e := by
  have h1 : (x s.env).run s.dev = .error e := hx
  show ((x s.env) >>= fun v => f v s.env).run s.dev = _
  simp only [StateT.run_bind, h1]
  rfl

theorem gives_bind_stops {s : State} {x : M α} {f : α → M β} {v : α} {d : Dev} {e : Stop}
    (hx : s.gives x v d) (hf : (s.on d).stops (f v) e) : s.stops (x >>= f) e := by
  have h1 : (x s.env).run s.dev = .ok (v, d) := hx
  have h2 : (f v s.env).run d = .error e := hf
  show ((x s.env) >>= fun v => f v s.env).run s.dev = _
  simp only [StateT.run_bind, h1]
  exact h2

theorem gives_attempt {s : State} {x : M α} {v : α} {d : Dev} (hx : s.gives x v d) : s.gives (attempt x) (.ok v) d := by
  have h1 : (x s.env).run s.dev = .ok (v, d) := hx
  show attempt x s.env s.dev = _
  simp only [attempt, h1]

theorem gives_attempt_stops {s : State} {x : M α} {e : Stop} (hx : s.stops x e) :
    s.gives (attempt x) (.error e) s.dev := by
  have h1 : (x s.env).run s.dev = .error e := hx
  show attempt x s.env s.dev = _
  simp only [attempt, h1]

theorem gives_modCore (s : State) (f : Core → Core) : s.gives (modCore f) () (s.put f).dev := rfl

theorem gives_modPkg (s : State) (f : Package → Package) : s.gives (modPkg f) () (s.putPkg f).dev := rfl

theorem gives_theCore (s : State) : s.gives theCore s.core s.dev := rfl

theorem gives_thePkg (s : State) : s.gives thePkg s.pkg s.dev := rfl

theorem gives_theStream (s : State) : s.gives theStream s.cur.stream s.dev := rfl

theorem gives_now (s : State) : s.gives now s.time s.dev := rfl

/-! ### Computations that lead to states -/

theorem does_pure (s : State) (v : α) : s.does (pure v) v s := ⟨rfl, rfl⟩

theorem does_bind {s t u : State} {x : M α} {f : α → M β} {v : α} {w : β}
    (hx : s.does x v t) (hf : t.does (f v) w u) : s.does (x >>= f) w u := by
  obtain ⟨h1, h2⟩ := hx
  obtain ⟨h3, h4⟩ := hf
  refine ⟨gives_bind h1 (by rw [← h2]; exact h3), ?_⟩
  rw [h4, h2]
  rfl

theorem does_bind_stops {s t : State} {x : M α} {f : α → M β} {v : α} {e : Stop}
    (hx : s.does x v t) (hf : t.stops (f v) e) : s.stops (x >>= f) e := by
  obtain ⟨h1, h2⟩ := hx
  exact gives_bind_stops h1 (by rw [← h2]; exact hf)

theorem does_attempt {s t : State} {x : M α} {v : α} (hx : s.does x v t) : s.does (attempt x) (.ok v) t :=
  ⟨gives_attempt hx.1, hx.2⟩

theorem does_attempt_stops {s : State} {x : M α} {e : Stop} (hx : s.stops x e) : s.does (attempt x) (.error e) s :=
  ⟨gives_attempt_stops hx, rfl⟩

theorem does_modCore (s : State) (f : Core → Core) : s.does (modCore f) () (s.put f) := ⟨rfl, rfl⟩

theorem does_modPkg (s : State) (f : Package → Package) : s.does (modPkg f) () (s.putPkg f) := ⟨rfl, rfl⟩

theorem does_theCore (s : State) : s.does theCore s.core s := ⟨rfl, rfl⟩

theorem does_thePkg (s : State) : s.does thePkg s.pkg s := ⟨rfl, rfl⟩

theorem does_theStream (s : State) : s.does theStream s.cur.stream s := ⟨rfl, rfl⟩

theorem does_now (s : State) : s.does now s.time s := ⟨rfl, rfl⟩

theorem does_read (s : State) : s.does (read : M Env) s.env s := ⟨rfl, rfl⟩

theorem does_get (s : State) : s.does (get : M Dev) s.dev s := ⟨rfl, rfl⟩

/-- A computation answers one value and leads to one state. -/
theorem does_unique {s t u : State} {x : M α} {v w : α} (h1 : s.does x v t) (h2 : s.does x w u) : v = w ∧ t = u := by
  have e : (Except.ok (v, t.dev) : Except Stop (α × Dev)) = .ok (w, u.dev) := h1.1.symm.trans h2.1
  obtain ⟨rfl, hd⟩ := Prod.mk.inj (Except.ok.inj e)
  exact ⟨rfl, by rw [h1.2, h2.2, hd]⟩

/-! ### Performing -/

theorem perform_gives {s : State} {x : M Unit} {d : Dev} (hx : s.gives x () d) : perform x s = .next (s.on d) := by
  have h1 : (x s.env).run s.dev = .ok ((), d) := hx
  simp only [perform, h1]
  rfl

theorem perform_blocks {s : State} {x : M Unit} (hx : s.stops x .block) : perform x s = .next s := by
  have h1 : (x s.env).run s.dev = .error .block := hx
  simp only [perform, h1]

/-- No computation changes the time, the cursor or the schedule. -/
theorem perform_next {s t : State} {x : M Unit} (h : perform x s = .next t) : ∃ d, t = s.on d := by
  unfold perform at h
  split at h
  · exact ⟨_, (Host.Outcome.next.inj h).symm⟩
  · cases h
  · exact ⟨s.dev, (Host.Outcome.next.inj h).symm⟩

theorem unitOn_next {s t : State} {x : M Unit} (h : unitOn x s = .next t) : ∃ d, t = s.on d := by
  unfold unitOn at h
  split at h
  · exact perform_next h
  · exact ⟨s.dev, (Host.Outcome.next.inj h).symm⟩

theorem event_on {s t : State} {x : M Unit} (h : event x s = .next t) : ∃ d, t = s.on d := perform_next h

theorem lone_on {s t : State} {i : Instr} {x : M Flow} (h : lone i x s = .next t) : ∃ d, t = s.on d := unitOn_next h

theorem loneCommit_on {s t : State} {i : Instr} {x : M Flow} (h : loneCommit i x s = .next t) : ∃ d, t = s.on d :=
  unitOn_next h

theorem joint_on {s t : State} {i : Instr} {b : Bool} {x : M Unit} (h : joint i b x s = .next t) : ∃ d, t = s.on d :=
  unitOn_next h

/-! ### Lone units -/

theorem gives_finishUnit {s : State} {f : Flow} (hf : f = .seq ∨ ∃ t, f = .br t) (h : s.straight f) :
    s.gives (finishUnit 4 f) () (s.past f).dev := by
  have h' : ((s.core.str s.cur.stream).advance 4 f).2 = none := h
  have key : s.gives (do
      let st ← theStream
      let (t, tgt) := ((← theCore).str st).advance 4 f
      modCore fun c => c.setStr st t
      match tgt with
      | some w => transfer w
      | none => return) () (s.past f).dev := by
    refine gives_bind (gives_theStream s) (gives_bind (gives_theCore _) ?_)
    show State.gives _ (modCore _ >>= _) _ _
    refine gives_bind (gives_modCore _ _) ?_
    change (s.put fun c => c.setStr s.cur.stream ((s.core.str s.cur.stream).advance 4 f).1).gives
      (match ((s.core.str s.cur.stream).advance 4 f).2 with
        | some w => transfer w
        | none => pure ()) () (s.past f).dev
    rw [h']
    have e : (s.put fun c => c.setStr s.cur.stream ((s.core.str s.cur.stream).advance 4 f).1) = s.past f := by
      simp only [State.past, State.put, State.putPkg]
      rfl
    rw [e]
    exact gives_pure (s.past f) ()
  rcases hf with rfl | ⟨t, rfl⟩ <;> exact key

/-- A lone unit that performs. -/
theorem lone_next {i : Instr} {act : M Flow} {s u : State} {f : Flow} (hr : s.ready i) (hu : s.does act f u)
    (hf : f = .seq ∨ ∃ t, f = .br t) (h : u.straight f) : lone i act s = .next (u.past f) := by
  obtain ⟨ha, hu⟩ := hu
  generalize u.dev = d at ha hu
  subst hu
  obtain ⟨hm, hg⟩ := hr
  unfold lone unitOn
  rw [if_pos hm]
  refine perform_gives (d := ((s.on d).past f).dev) ?_
  unfold runUnit
  refine gives_bind (gives_attempt hg) ?_
  refine gives_bind (gives_attempt (gives_pure _ ())) ?_
  refine gives_bind (gives_theCore _) (gives_bind (gives_attempt ha) ?_)
  rcases hf with rfl | ⟨t, rfl⟩
  · exact gives_bind (gives_finishUnit (s := s.on d) (.inl rfl) h) (gives_pure _ ())
  · exact gives_bind (gives_finishUnit (s := s.on d) (.inr ⟨t, rfl⟩) h) (gives_pure _ ())

theorem gives_beginRegion (s : State) (c0 : Core) :
    s.gives (beginRegion c0) () (s.put fun c => c.begun c0 s.cur.stream).dev :=
  gives_bind (gives_theStream s) (gives_modCore _ _)

/-- A lone unit that is a commit point, and performs. -/
theorem loneCommit_next {i : Instr} {act : M Flow} {s m u : State} {f : Flow} (hr : s.ready i)
    (hc : s.does commitPoint () m) (hu : m.does act f u)
    (hf : f = .seq ∨ ∃ t, f = .br t) (h : u.straight f) : loneCommit i act s = .next ((u.past f).begun m) := by
  obtain ⟨hc, hm⟩ := hc
  generalize m.dev = c at hc hm
  subst hm
  obtain ⟨ha, hu⟩ := hu
  generalize u.dev = d at ha hu
  subst hu
  obtain ⟨hm, hg⟩ := hr
  unfold loneCommit unitOn
  rw [if_pos hm]
  refine perform_gives (d := (((s.on d).past f).begun (s.on c)).dev) ?_
  unfold runUnit
  refine gives_bind (gives_attempt hg) ?_
  refine gives_bind (gives_attempt hc) ?_
  refine gives_bind (gives_theCore _) (gives_bind (gives_attempt ha) ?_)
  rcases hf with rfl | ⟨t, rfl⟩
  · exact gives_bind (gives_finishUnit (s := s.on d) (.inl rfl) h) (gives_beginRegion _ _)
  · exact gives_bind (gives_finishUnit (s := s.on d) (.inr ⟨t, rfl⟩) h) (gives_beginRegion _ _)

/-- A lone unit that waits performs nothing. -/
theorem lone_blocks {i : Instr} {act : M Flow} {s : State} (hr : s.ready i) (ha : s.stops act .block) :
    lone i act s = .next s := by
  obtain ⟨hm, hg⟩ := hr
  unfold lone unitOn
  rw [if_pos hm]
  refine perform_blocks ?_
  unfold runUnit
  refine gives_bind_stops (gives_attempt hg) ?_
  refine gives_bind_stops (gives_attempt (gives_pure _ ())) ?_
  refine gives_bind_stops (gives_theCore _) (gives_bind_stops (gives_attempt_stops ha) ?_)
  rfl

/-- An event that performs. -/
theorem event_next {s t : State} {x : M Unit} (hx : s.does x () t) : event x s = .next t := by
  rw [hx.2]
  exact perform_gives hx.1

/-! ### Computations that change nothing -/

/-- Where it answers, a computation leaves the hardware as it was. -/
def ReadOnly (x : M α) : Prop := ∀ e d v d', (x e).run d = .ok (v, d') → d' = d

theorem readOnly_pure (v : α) : ReadOnly (pure v) := by
  intro e d w d' h
  have h2 : Except.ok (v, d) = (Except.ok (w, d') : Except Stop (α × Dev)) := h
  cases h2
  rfl

theorem readOnly_raise (c : Cause) (ea : Word) : ReadOnly (raise c ea : M α) := by
  intro e d w d' h
  have h2 : (Except.error (.raise c ea) : Except Stop (α × Dev)) = .ok (w, d') := h
  cases h2

theorem readOnly_theCore : ReadOnly theCore := by
  intro e d w d' h
  have h2 : (Except.ok (_, d) : Except Stop (Core × Dev)) = .ok (w, d') := h
  cases h2
  rfl

theorem readOnly_thePkg : ReadOnly thePkg := by
  intro e d w d' h
  have h2 : (Except.ok (_, d) : Except Stop (Package × Dev)) = .ok (w, d') := h
  cases h2
  rfl

theorem readOnly_theStream : ReadOnly theStream := by
  intro e d w d' h
  have h2 : (Except.ok (e.stream, d) : Except Stop (Strm × Dev)) = .ok (w, d') := h
  cases h2
  rfl

theorem readOnly_bind {x : M α} {f : α → M β} (hx : ReadOnly x) (hf : ∀ v, ReadOnly (f v)) : ReadOnly (x >>= f) := by
  intro e d w d' h
  have h1 : ((x e) >>= fun v => f v e).run d = .ok (w, d') := h
  rw [StateT.run_bind] at h1
  cases h2 : (x e).run d with
  | error q => rw [h2] at h1; cases h1
  | ok p =>
    rw [h2] at h1
    have h3 : (f p.1 e).run p.2 = .ok (w, d') := h1
    rw [hf _ _ _ _ _ h3, hx e d p.1 p.2 h2]

theorem readOnly_ite {c : Prop} [Decidable c] {x y : M α} (hx : ReadOnly x) (hy : ReadOnly y) : ReadOnly (if c then x else y) := by
  split
  · exact hx
  · exact hy

/-- The decode checks look at the core and change nothing. -/
theorem gate_readOnly (i : Instr) : ReadOnly (gate i) := by
  unfold gate check5 check6 check7
  refine readOnly_bind (readOnly_bind readOnly_theCore fun _ => readOnly_bind readOnly_theStream fun _ =>
    readOnly_ite (readOnly_raise _ _) (readOnly_pure _)) fun _ => readOnly_bind (readOnly_bind readOnly_theCore fun _ =>
    readOnly_ite (readOnly_raise _ _) (readOnly_pure _)) fun _ =>
    readOnly_bind readOnly_theCore fun _ => readOnly_bind readOnly_theStream fun _ => readOnly_ite (readOnly_raise _ _) (readOnly_pure _)

end Sys2Proof.Machine
end

