-- ==== Sys2Proof/Tests/Slice0.lean ====
section
/-!
SUPPORT. Sys2Proof/Tests/Slice0.lean: the model's own tests. A term that breaks each limit of WellFormed.lean is refused;
words laid out from the formats of spec 04 decode to the instructions they stand for; single units of each family give
the results the spec works out; and each statement of the slice that has hypotheses has states and operands that meet them.
-/

namespace Sys2Proof.Tests

open Sys2Proof Sys2Proof.Machine

set_option Elab.async false

/-! ### Words laid out from the formats of spec 04 -/

/-- A word from its fields, the highest first, each a width and a value. -/
def fields (fs : List (Nat × Nat)) : Half := BitVec.ofNat 32 (fs.foldl (fun w f => w * 2 ^ f.1 + f.2) 0)

/-- Table 4.3, format G, a lone half: RD, RA, RB, FN and G. -/
def fG (major rd ra rb fn : Nat) (g : Nat := 0) : Half := fields [(7, major), (5, rd), (5, ra), (5, rb), (5, fn), (4, g), (1, 1)]

/-- Table 4.14, format V: VD, VA, VB, TY and SO. -/
def fV (major vd va vb ty so : Nat) : Half := fields [(7, major), (6, vd), (6, va), (6, vb), (3, ty), (3, so), (1, 1)]

/-- Table 4.8, format CL: RH and LAND. -/
def fCL (major rh land : Nat) : Half := fields [(7, major), (5, rh), (12, land), (7, 0), (1, 1)]

/-- Table 4.10, format S: RV, RA, DISP10 and G. -/
def fS (major rv ra disp g : Nat) : Half := fields [(7, major), (5, rv), (5, ra), (10, disp), (4, g), (1, 1)]

/-- Each word decodes to its instruction. -/
def allDecode (ps : List (Half × Instr)) : Bool := ps.all fun p => decodeHalf p.1 == p.2

/-- Tables 4.17 and 4.18, the arithmetic of two registers and of one. -/
theorem test_decode_alu : allDecode
    [(fG 2 1 2 3 0, .add 1 2 3), (fG 2 1 2 3 1, .sub 1 2 3), (fG 2 1 2 3 2, .and 1 2 3), (fG 2 1 2 3 3, .or 1 2 3),
     (fG 2 1 2 3 4, .xor 1 2 3), (fG 2 1 2 3 5, .shl 1 2 3), (fG 2 1 2 3 6, .shr 1 2 3), (fG 2 1 2 3 7, .sra 1 2 3),
     (fG 2 1 2 3 8, .min 1 2 3), (fG 2 1 2 3 9, .max 1 2 3), (fG 2 1 2 3 10, .minn 1 2 3), (fG 2 1 2 3 11, .maxn 1 2 3),
     (fG 2 1 2 3 12, .mul 1 2 3), (fG 2 1 2 3 13, .mulh 1 2 3), (fG 2 1 2 3 14, .mulhn 1 2 3), (fG 2 1 2 3 15, .div 1 2 3),
     (fG 2 1 2 3 16, .divn 1 2 3), (fG 2 1 2 3 17, .rem 1 2 3), (fG 2 1 2 3 18, .remn 1 2 3), (fG 2 1 2 3 19, .shadd1 1 2 3),
     (fG 2 1 2 3 20, .shadd2 1 2 3), (fG 2 1 2 3 21, .shadd3 1 2 3), (fG 2 31 28 29 22, .andn 31 28 29),
     (fG 10 1 2 0 0, .clz 1 2), (fG 10 1 2 0 1, .ctz 1 2), (fG 10 1 2 0 2, .popc 1 2), (fG 10 1 2 0 3, .bswap 1 2),
     (fG 10 1 2 0 4, .extb 1 2), (fG 10 1 2 0 5, .exth 1 2), (fG 10 1 2 0 6, .extw 1 2), (fG 10 1 2 0 7, .extbn 1 2),
     (fG 10 1 2 0 8, .exthn 1 2), (fG 10 1 2 0 9, .extwn 1 2)] = true := by decide +kernel

/-- Tables 4.4 to 4.7: immediates, predicates and branches. -/
theorem test_decode_scalar : allDecode
    [(fG 1 0 0 0 0, .nop), (fields [(7, 3), (5, 1), (5, 2), (14, 0x3FFF), (1, 1)], .addi 1 2 0x3FFF),
     (fields [(7, 4), (5, 1), (5, 2), (14, 5), (1, 1)], .andi 1 2 5), (fields [(7, 5), (5, 1), (5, 2), (14, 6), (1, 1)], .ori 1 2 6),
     (fields [(7, 6), (5, 1), (5, 2), (14, 7), (1, 1)], .xori 1 2 7),
     (fields [(7, 7), (5, 1), (5, 2), (2, 0), (6, 63), (6, 0), (1, 1)], .shli 1 2 63),
     (fields [(7, 7), (5, 1), (5, 2), (2, 1), (6, 62), (6, 0), (1, 1)], .shri 1 2 62),
     (fields [(7, 7), (5, 1), (5, 2), (2, 2), (6, 61), (6, 0), (1, 1)], .srai 1 2 61),
     (fields [(7, 8), (5, 27), (19, 0x40001), (1, 1)], .lui 27 0x40001),
     (fields [(7, 9), (5, 3), (2, 2), (16, 0x8001), (1, 0), (1, 1)], .insh 3 2 0x8001),
     (fields [(7, 11), (3, 7), (3, 5), (5, 1), (5, 2), (8, 0), (1, 1)], .cmp 7 5 1 2),
     (fields [(7, 12), (3, 1), (3, 2), (5, 4), (13, 0x1FFF), (1, 1)], .cmpi 1 2 4 0x1FFF),
     (fields [(7, 13), (3, 1), (3, 4), (3, 2), (3, 3), (12, 0), (1, 1)], .plog 1 4 2 3),
     (fG 14 1 2 3 0 9, .sel 1 2 3 9), (fields [(7, 15), (5, 5), (1, 0), (18, 0), (1, 1)], .pmovToReg 5),
     (fields [(7, 15), (5, 5), (1, 1), (18, 0), (1, 1)], .pmovFromReg 5),
     (fields [(7, 16), (20, 0x80001), (4, 15), (1, 1)], .bc 0x80001 15), (fields [(7, 17), (20, 4), (1, 0), (3, 0), (1, 1)], .bq 4),
     (fields [(7, 17), (20, 4), (1, 1), (3, 0), (1, 1)], .bqN 4), (fields [(7, 18), (3, 6), (21, 0), (1, 1)], .bout 6),
     (fG 19 0 4 0 0, .jr 4), (fields [(7, 20), (5, 27), (19, 0x7FFFE), (1, 1)], .dbnz 27 0x7FFFE),
     (fG 21 1 2 0 0, .twait 1 2)] = true := by decide +kernel

/-- Tables 4.8 to 4.11: the bit buffer, CSRs and memory. -/
theorem test_decode_memory : allDecode
    [(fields [(7, 0x18), (5, 1), (5, 2), (7, 0), (1, 1), (1, 0), (5, 0), (1, 1)], .bbset 1 2 1 0),
     (fields [(7, 0x19), (5, 1), (5, 0), (7, 64), (1, 0), (1, 0), (5, 0), (1, 1)], .bbget 1 64),
     (fields [(7, 0x1A), (5, 1), (5, 0), (7, 1), (1, 0), (1, 0), (5, 0), (1, 1)], .bbpeek 1 1),
     (fields [(7, 0x1B), (5, 0), (5, 0), (7, 33), (1, 0), (1, 0), (5, 0), (1, 1)], .bbskip 33),
     (fields [(7, 0x20), (5, 28), (5, 2), (2, 2), (1, 1), (11, 0x7FF), (1, 1)], .ld 28 2 2 1 0x7FF),
     (fS 0x21 1 2 0x3FF 0, .stb 1 2 0x3FF 0), (fS 0x22 1 2 2 3, .sth 1 2 2 3), (fS 0x23 1 2 4 15, .stw 1 2 4 15),
     (fS 0x24 29 2 8 1, .std 29 2 8 1),
     (fields [(7, 0x25), (5, 1), (5, 2), (2, 3), (1, 0), (3, 5), (8, 0x80), (1, 1)], .lda 1 2 3 0 5 0x80),
     (fields [(7, 0x26), (5, 1), (5, 2), (2, 1), (3, 4), (5, 0), (4, 2), (1, 1)], .strel 1 2 1 4 2),
     (fields [(7, 0x27), (5, 30), (5, 2), (14, 0x2001), (1, 1)], .ldv 30 2 0x2001), (fS 0x28 29 2 1 0, .stv 29 2 1 0),
     (fields [(7, 0x29), (5, 28), (5, 2), (5, 29), (2, 2), (1, 1), (1, 0), (1, 1), (4, 0), (1, 1)], .gath 28 2 29 2 1 1),
     (fields [(7, 0x29), (5, 30), (5, 2), (5, 28), (2, 0), (1, 0), (1, 1), (1, 0), (4, 0), (1, 1)], .gathT 30 2 28 0 0 0),
     (fields [(7, 0x2A), (5, 29), (5, 2), (5, 28), (2, 1), (2, 0), (1, 1), (4, 4), (1, 1)], .scat 29 2 28 1 1 4),
     (fields [(7, 0x2B), (5, 1), (5, 2), (4, 11), (1, 0), (2, 3), (3, 5), (4, 0), (1, 1)], .amo 1 2 11 0 3 5 0),
     (fields [(7, 0x2C), (5, 1), (5, 2), (4, 8), (1, 1), (5, 0), (4, 7), (1, 1)], .amon 1 2 8 1 7),
     (fields [(7, 0x2D), (5, 26), (5, 2), (4, 0), (1, 1), (2, 1), (3, 2), (4, 0), (1, 1)], .cas 26 2 1 1 2 0),
     (fields [(7, 0x2E), (5, 1), (2, 2), (3, 4), (14, 0), (1, 1)], .fence 1 2 4)] = true := by decide +kernel

/-- Tables 4.8, 4.12 and 4.13: calls, strands, messages, CSRs, SYS, engines and archipelagos. -/
theorem test_decode_system : allDecode
    [(fCL 0x30 27 0xFFF, .calld 27 0xFFF), (fCL 0x31 31 7, .taild 31 7), (fCL 0x32 0 0, .retd), (fCL 0x33 0 9, .susp 9),
     (fCL 0x34 0 0, .done), (fCL 0x38 0 0, .commit), (fCL 0x3C 0 0, .eret), (fG 0x35 1 2 3 0, .spawn 1 2 3),
     (fields [(7, 0x36), (5, 1), (5, 2), (5, 3), (4, 15), (5, 0), (1, 1)], .send 1 2 3 15),
     (fields [(7, 0x37), (5, 1), (5, 2), (4, 14), (1, 0), (9, 0), (1, 1)], .recv 1 2 14),
     (fields [(7, 0x37), (5, 1), (5, 2), (4, 14), (1, 1), (9, 0), (1, 1)], .recvT 1 2 14),
     (fields [(7, 0x39), (5, 1), (12, 0x024), (7, 0), (1, 1)], .csrr 1 0x024),
     (fields [(7, 0x3A), (5, 1), (12, 0x024), (7, 0), (1, 1)], .csrw 1 0x024),
     (fields [(7, 0x3B), (16, 0xFFFE), (8, 0), (1, 1)], .trap 0xFFFE), (fG 0x3D 0 1 2 0, .sysPlbinv 1 2), (fG 0x3D 0 1 0 1, .sysCsinv 1),
     (fG 0x3D 0 1 0 2, .sysQflush 1), (fG 0x3D 0 1 2 3, .sysEvcfg 1 2), (fG 0x3D 0 0 0 4, .sysTabclr), (fG 0x6C 1 2 0 0, .bmv 1 2),
     (fG 0x6D 1 2 3 0, .btab 1 2 3), (fG 0x6E 1 2 0 0, .blay 1 2), (fG 0x70 1 2 0 0, .shpmk 1 2), (fG 0x71 0 2 0 0, .shpdel 2),
     (fG 0x72 1 2 3 4, .copy 1 2 3 4), (fG 0x73 1 2 3 4, .copys 1 2 3 4), (fG 0x74 1 2 3 4, .cfill 1 2 3 4),
     (fG 0x78 1 2 3 4, .fxput 1 2 3 4), (fG 0x79 1 2 3 4, .fxget 1 2 3 4), (fG 0x7A 1 2 3 4, .fxred 1 2 3 4),
     (fG 0x7B 1 2 0 0, .arcJoin 1 2), (fG 0x7B 1 2 0 1, .arcLeave 1 2), (fG 0x7B 1 2 0 2, .arcBar 1 2)] = true := by decide +kernel

/-- Table 4.22: the vector instructions. -/
theorem test_decode_vector : allDecode
    [(fV 0x40 1 2 3 5 0, .vadd 1 2 3 5), (fV 0x40 1 2 3 2 1, .vaddSatI 1 2 3 2), (fV 0x40 1 2 3 2 2, .vaddSatN 1 2 3 2),
     (fV 0x41 1 2 3 5 0, .vsub 1 2 3 5), (fV 0x41 1 2 3 1 1, .vsubSatI 1 2 3 1), (fV 0x41 1 2 3 0 2, .vsubSatN 1 2 3 0),
     (fV 0x42 1 2 3 4 0, .vmul 1 2 3 4), (fV 0x42 1 2 3 2 1, .vmulHiI 1 2 3 2), (fV 0x42 1 2 3 2 2, .vmulHiN 1 2 3 2),
     (fV 0x42 1 2 3 2 3, .vmulSat 1 2 3 2), (fV 0x43 1 2 3 2 0, .vfma 1 2 3 2), (fV 0x43 1 2 3 3 1, .vfmaMs 1 2 3 3),
     (fV 0x43 1 2 3 4 2, .vfmaNa 1 2 3 4), (fV 0x43 1 2 3 5 3, .vfmaNms 1 2 3 5), (fV 0x44 1 2 3 1 0, .vmin 1 2 3 1),
     (fV 0x44 1 2 3 3 1, .vminNum 1 2 3 3), (fV 0x45 1 2 3 1 0, .vmax 1 2 3 1), (fV 0x45 1 2 3 5 1, .vmaxNum 1 2 3 5),
     (fV 0x46 1 2 3 2 0, .vand 1 2 3), (fV 0x46 1 2 3 2 1, .vor 1 2 3), (fV 0x46 1 2 3 2 2, .vxor 1 2 3), (fV 0x46 1 2 3 2 3, .vandn 1 2 3),
     (fV 0x46 1 2 0 2 4, .vnot 1 2), (fV 0x47 1 2 3 0 0, .vshl 1 2 3 0), (fV 0x47 1 2 3 1 1, .vshr 1 2 3 1), (fV 0x47 1 2 3 2 2, .vsra 1 2 3 2),
     (fV 0x47 1 2 7 0 4, .vshli 1 2 7 0), (fV 0x47 1 2 15 1 5, .vshri 1 2 15 1), (fV 0x47 1 2 31 2 6, .vsrai 1 2 31 2),
     (fV 0x48 1 2 3 3 6, .vcmp 1 2 3 3 6), (fV 0x49 1 2 3 2 0, .vsel 1 2 3 2),
     (fields [(7, 0x4A), (6, 1), (6, 2), (4, 8), (4, 2), (4, 1), (1, 1)], .vcvt 1 2 8 2 1),
     (fields [(7, 0x4B), (6, 1), (6, 2), (4, 0), (4, 2), (1, 0), (3, 3), (1, 1)], .vencC8 1 2 2 3),
     (fields [(7, 0x4B), (6, 1), (6, 2), (4, 15), (4, 2), (1, 1), (3, 7), (1, 1)], .vencC4 1 2 15 2 7),
     (fields [(7, 0x4C), (6, 1), (6, 2), (4, 0), (4, 0), (1, 0), (3, 3), (1, 1)], .vdecC8 1 2 3),
     (fields [(7, 0x4C), (6, 1), (6, 2), (4, 15), (4, 0), (1, 1), (3, 7), (1, 1)], .vdecC4 1 2 15 7),
     (fV 0x4D 1 28 0 5 0, .vsplat 1 28 5), (fields [(7, 0x4D), (6, 1), (12, 0xFFF), (3, 1), (3, 1), (1, 1)], .vsplatImm 1 0xFFF 1),
     (fV 0x4E 1 2 31 2 0, .vext 1 2 31 2), (fV 0x4E 1 2 63 1 1, .vins 1 2 63 1), (fV 0x4F 1 2 3 2 0, .vperm 1 2 3 2),
     (fV 0x50 1 2 31 2 0, .vslideup 1 2 31 2), (fV 0x50 1 2 63 1 1, .vslidedn 1 2 63 1), (fV 0x51 1 2 0 2 4, .vred 1 2 2 4),
     (fV 0x52 1 2 0 5 3, .vmath 1 2 3), (fV 0x53 1 2 0 0 0, .vabs 1 2 0), (fV 0x53 1 2 0 5 1, .vneg 1 2 5), (fV 0x53 1 2 0 1 2, .vabsSat 1 2 1),
     (fV 0x54 1 2 0 2 0, .vpop 1 2), (fV 0x54 1 2 0 2 1, .vpush 1 2), (fV 0x55 1 2 0 2 0, .vmov 1 2), (fV 0x55 1 0 0 2 1, .vzero 1),
     (fV 0x55 1 0 0 2 2, .viota 1 2), (fV 0x55 7 0 0 2 3, .eclr 7), (fV 0x56 1 2 3 0 3, .vdot4 1 2 3 3), (fV 0x57 1 2 0 2 0, .vmaskV 1 2),
     (fV 0x57 31 2 0 2 1, .vmaskC 31 2), (fV 0x5F 62 2 4 5 0, .vfma2 62 2 4 5)] = true := by decide +kernel

/-- Table 4.16: the matrix instructions. -/
theorem test_decode_matrix : allDecode
    [(fields [(7, 0x60), (4, 15), (5, 1), (16, 1)], .tdset 15 1), (fields [(7, 0x61), (2, 3), (4, 1), (4, 2), (1, 0), (14, 1)], .mma 3 1 2),
     (fields [(7, 0x61), (2, 3), (4, 1), (4, 2), (1, 1), (14, 1)], .mmaz 3 1 2), (fields [(7, 0x62), (4, 9), (21, 1)], .mzero 9),
     (fields [(7, 0x63), (2, 1), (6, 33), (1, 0), (16, 1)], .mscaRow 1 33), (fields [(7, 0x63), (2, 1), (6, 33), (1, 1), (16, 1)], .mscaCol 1 33),
     (fields [(7, 0x64), (6, 63), (2, 2), (4, 15), (13, 1)], .mrd 63 2 15), (fields [(7, 0x65), (6, 63), (2, 2), (4, 15), (13, 1)], .mwr 63 2 15),
     (fields [(7, 0x66), (2, 1), (4, 5), (3, 4), (4, 15), (2, 3), (10, 1)], .mst 1 5 4 15 3),
     (fields [(7, 0x67), (2, 1), (4, 5), (19, 1)], .mld 1 5), (fields [(7, 0x68), (5, 1), (20, 1)], .ldtab 1),
     (fields [(7, 0x69), (2, 1), (2, 2), (21, 1)], .mcmb 1 2), (fields [(7, 0x6B), (2, 3), (4, 1), (4, 2), (1, 0), (14, 1)], .mmaw 3 1 2),
     (fields [(7, 0x6B), (2, 3), (4, 1), (4, 2), (1, 1), (14, 1)], .mmawz 3 1 2)] = true := by decide +kernel

/-- R59, R60 and the reserved majors of Table 4.1. -/
theorem test_decode_refused : allDecode
    [(0, .zeroword), (fG 0x16 0 0 0 0, .reservedMajor (fG 0x16 0 0 0 0)), (fG 0x2F 0 0 0 0, .reservedMajor (fG 0x2F 0 0 0 0)),
     (fG 0x7F 0 0 0 0, .reservedMajor (fG 0x7F 0 0 0 0)), (fG 2 1 2 3 23, .reservedMajor (fG 2 1 2 3 23)),
     (fG 1 1 0 0 0, .reservedMajor (fG 1 1 0 0 0)), (fG 2 1 2 3 0 1, .reservedMajor (fG 2 1 2 3 0 1))] = true := by decide +kernel

/-! ### Ill-formed terms -/

/-- A term that breaks each limit of WellFormed.lean: guards, ports, scopes, atomics, orders, widths, types, ranges. -/
theorem test_ill_formed :
    [Instr.insh 28 0 0, .cmp 1 6 0 0, .cmpi 1 7 0 0, .plog 1 5 0 1, .plog 1 6 1 0, .sel 0 0 0 8, .bc 0 8, .dbnz 28 0, .bbget 0 0,
     .bbpeek 0 65, .bbskip 0, .ld 0 0 3 1 0, .stb 0 0 0 8, .sth 0 0 0 8, .stw 0 0 0 8, .std 0 0 0 8, .lda 0 0 0 0 6 0, .lda 0 0 3 1 0 0,
     .strel 0 0 0 7 0, .ldv 27 0 0, .ldv 31 0 0, .stv 30 0 0 0, .gath 28 0 30 0 0 0, .gath 28 0 28 3 0 0, .gathT 27 0 28 0 0 0, .scat 28 0 28 0 0 0,
     .amo 28 0 0 0 0 0 0, .amo 0 0 12 0 0 0 0, .amo 0 0 9 1 0 0 0, .amo 0 0 0 0 0 1 0, .amo 0 0 0 0 1 6 0, .amon 0 0 0 0 8, .cas 27 0 0 0 0 0,
     .cas 25 0 0 0 0 0, .fence 0 3 0, .fence 0 0 6, .calld 28 0, .taild 30 0, .vadd 0 0 0 6, .vaddSatI 0 0 0 3, .vaddSatN 0 0 0 3,
     .vsub 0 0 0 7, .vsubSatI 0 0 0 4, .vsubSatN 0 0 0 4, .vmul 0 0 0 6, .vmulHiI 0 0 0 3, .vmulHiN 0 0 0 3, .vmulSat 0 0 0 3,
     .vfma 0 0 0 1, .vfmaMs 0 0 0 2, .vfmaNa 0 0 0 2, .vfmaNms 0 0 0 6, .vmin 0 0 0 6, .vminNum 0 0 0 6, .vmax 0 0 0 6, .vmaxNum 0 0 0 7,
     .vshl 0 0 0 3, .vshr 0 0 0 3, .vsra 0 0 0 3, .vshli 0 0 8 0, .vshri 0 0 16 1, .vsrai 0 0 32 2, .vcmp 0 0 0 3 3, .vcmp 0 0 0 2 6,
     .vcmp 0 0 0 0 7, .vsel 0 0 0 3, .vcvt 0 0 8 8 0, .vcvt 0 0 10 0 0, .vcvt 0 0 8 6 1, .vcvt 0 0 6 8 6, .vcvt 0 0 2 8 8, .vencC8 0 0 0 4, .vencC8 0 0 6 0,
     .vencC4 0 0 0 7 0, .vdecC8 0 0 4, .vsplat 0 32 0, .vsplatImm 0 0 3, .vext 0 0 0 0, .vext 32 0 0 1, .vext 0 0 32 2, .vins 0 32 0 1,
     .vins 0 0 63 2, .vperm 0 0 0 3, .vslideup 0 0 32 2, .vslidedn 0 0 0 3, .vred 0 0 5 3, .vred 0 0 0 5, .vmath 0 0 4, .vabs 0 0 6,
     .vneg 0 0 7, .vabsSat 0 0 3, .vpop 0 3, .vpush 2 0, .viota 0 3, .eclr 8, .vdot4 0 0 0 4, .vmaskV 0 3, .vmaskC 32 0,
     .vfma2 1 0 0 5, .vfma2 0 1 0 5, .vfma2 0 0 1 5, .vfma2 0 0 0 2, .mzero 0, .mst 0 0 5 0 0, .mst 0 0 3 1 0].all
      (fun i => !i.wf) = true := by decide +kernel

/-! ### States to try statements on -/

/-- The value a computation answers at a state. -/
def val {α : Type} (s : State) (x : M α) (d : α) : α :=
  match (x s.env).run s.dev with
  | .ok (v, _) => v
  | .error _ => d

/-- A computation ends well at a state. -/
def runs {α : Type} (s : State) (x : M α) : Bool :=
  match (x s.env).run s.dev with
  | .ok _ => true
  | .error _ => false

/-- A computation answers a value at a state. -/
def answers {α : Type} [DecidableEq α] (s : State) (x : M α) (v : α) : Bool :=
  match (x s.env).run s.dev with
  | .ok (w, _) => w == v
  | .error _ => false

/-- A computation ends at a state with a stop. -/
def ends {α : Type} (s : State) (x : M α) (e : Stop) : Bool :=
  match (x s.env).run s.dev with
  | .ok _ => false
  | .error f => f == e

theorem goes {α : Type} {s : State} {x : M α} (d : α) (h : runs s x = true := by decide +kernel) : s.does x (val s x d) (s.after x) := by
  unfold runs at h
  unfold State.does State.gives State.after val
  split at h
  · rename_i e
    rw [e]
    exact ⟨rfl, rfl⟩
  · cases h

theorem acts {s : State} {x : M Unit} (h : runs s x = true := by decide +kernel) : s.does x () (s.after x) := goes () h

theorem gives {α : Type} [DecidableEq α] {s : State} {x : M α} {v : α} (h : answers s x v = true := by decide +kernel) : s.does x v (s.after x) := by
  unfold answers at h
  unfold State.does State.gives State.after
  split at h
  · rename_i e
    rw [e, ← eq_of_beq h]
    exact ⟨rfl, rfl⟩
  · cases h

/-- A computation answers a value that passes a test. -/
def picks {α : Type} (s : State) (x : M α) (p : α → Bool) : Bool :=
  match (x s.env).run s.dev with
  | .ok (w, _) => p w
  | .error _ => false

theorem picked {α : Type} {s : State} {x : M α} {v : α} (p : α → Bool) (hp : ∀ w, p w = true → w = v) (h : picks s x p = true) :
    s.does x v (s.after x) := by
  unfold picks at h
  unfold State.does State.gives State.after
  split at h
  · rename_i e
    rw [e, ← hp _ h]
    exact ⟨rfl, rfl⟩
  · cases h

theorem halts {α : Type} {s : State} {x : M α} {e : Stop} (h : ends s x e = true := by decide +kernel) : s.stops x e := by
  unfold ends at h
  unfold State.stops
  split at h
  · cases h
  · rename_i f
    rw [f, eq_of_beq h]

theorem findStrand_readOnly (va : Nat) : ReadOnly (findStrand va) := readOnly_bind readOnly_thePkg fun _ => readOnly_pure _

theorem pkgAt_readOnly (p : Nat) : ReadOnly (pkgAt p) := by
  intro e d v d' h
  have h2 : (Except.ok (_, d) : Except Stop (Package × Dev)) = .ok (v, d') := h
  cases h2
  rfl

theorem strandTorn_readOnly (s : Strand) : ReadOnly (strandTorn s) := readOnly_bind (pkgAt_readOnly _) fun _ => readOnly_pure _

theorem tornHere_readOnly : ReadOnly tornHere :=
  readOnly_bind readOnly_theCore fun _ => readOnly_bind (findStrand_readOnly _) fun o => by
    cases o with
    | none => exact readOnly_pure _
    | some s => exact strandTorn_readOnly s

/-- A computation that looks at the package alone. -/
theorem looks {α : Type} (f : Package → α) : ReadOnly (do return f (← thePkg)) := readOnly_bind readOnly_thePkg fun _ => readOnly_pure _

theorem raiseOpen_readOnly {α : Type} (f : Cause) : ReadOnly (raiseOpen f : M α) := by
  unfold raiseOpen
  have hn : ReadOnly now := by
    intro e d v d' h
    have h2 : (Except.ok (_, d) : Except Stop (Nat × Dev)) = .ok (v, d') := h
    cases h2
    rfl
  exact readOnly_bind hn fun _ => readOnly_bind readOnly_theCore fun _ => readOnly_raise _ _

theorem jointChecks_readOnly (b : Bool) : ReadOnly (jointChecks b) := by
  unfold jointChecks
  have hq : ∀ p : Bool, ReadOnly (if p then raiseOpen .qnotempty else pure ()) := fun _ =>
    readOnly_ite (raiseOpen_readOnly _) (readOnly_pure _)
  exact readOnly_bind readOnly_theCore fun _ => readOnly_ite (readOnly_bind (raiseOpen_readOnly _) fun _ => hq _) (hq _)

/-- What the kernel decides. -/
theorem yes {p : Prop} (h : p := by decide +kernel) : p := h

/-- Two facts that hold by computation. -/
theorem both {α β : Type} {a b : α} {c d : β} (h : a = b := by rfl) (g : c = d := by rfl) : a = b ∧ c = d := ⟨h, g⟩

/-- The gate lets an instruction through. -/
def fit (s : State) (i : Instr) : Bool := s.core.mode == .running && runs s (gate i)

/-- What a computation answers is a value. -/
def isOk {ε α : Type} [DecidableEq α] (a : α) : Except ε α → Bool
  | .ok b => b == a
  | .error _ => false

theorem passes {ε α : Type} [DecidableEq α] {s : State} {x : M (Except ε α)} {a : α} (h : picks s x (isOk a) = true := by decide +kernel) :
    s.does x (.ok a) (s.after x) :=
  picked _ (fun w hw => by
    cases w with
    | ok b => exact congrArg Except.ok (eq_of_beq hw)
    | error _ => cases hw) h

theorem fails {ε α : Type} [DecidableEq ε] {s : State} {x : M (Except ε α)} {e : ε}
    (h : picks s x (fun w => match w with
      | .error b => b == e
      | .ok _ => false) = true := by decide +kernel) : s.does x (.error e) (s.after x) :=
  picked _ (fun w hw => by
    cases w with
    | error b => exact congrArg Except.error (eq_of_beq hw)
    | ok _ => cases hw) h

theorem still {α : Type} [DecidableEq α] {s : State} {x : M α} {v : α} (hx : ReadOnly x) (h : answers s x v = true) : s.does x v s := by
  have h1 := (gives h).1
  have h2 := hx _ _ _ _ h1
  rw [h2] at h1
  exact ⟨h1, rfl⟩

theorem ready {s : State} {i : Instr} (h : fit s i = true := by decide +kernel) : s.ready i := by
  unfold fit at h
  rw [Bool.and_eq_true] at h
  have h1 := (acts h.2).1
  rw [gate_readOnly i _ _ _ _ h1] at h1
  exact ⟨eq_of_beq h.1, h1⟩

theorem straight {s : State} {f : Flow} (h : (s.str.advance 4 f).2.isNone = true := by decide +kernel) : s.straight f :=
  Option.isNone_iff_eq_none.mp h

/-- What is asked of the state a step or unit leads to. -/
def leads (o : Host.Outcome State Fault Refusal) (p : State → Bool) : Bool :=
  match o with
  | .next t => p t
  | _ => false

/-- Core 0 of package 0 runs a resident function of one NOP, on the A stream. -/
def onA : State := State.reset.withFetchWord 32 0x02000001

/-- Core 0 of package 0 runs a resident function of one unit. -/
def running (i : Instr) : State := State.reset.withFetchWord 32 ((encodeHalf i).getD 0).toNat

/-- The resident function of `running i`. -/
def codeOf (i : Instr) : Code :=
  { digest := 0, form := .native 255, key := 0, frame := 0, landings := [some (0, 0)], aBody := [(encodeHalf i).getD 0],
    xBody := [(encodeHalf i).getD 0] }

/-- The resident function of `onA`. -/
def nopCode : Code :=
  { digest := 0, form := .native 255, key := 0, frame := 0, landings := [some (0, 0)], aBody := [0x02000001], xBody := [0x02000001] }

/-- The same on the X stream. -/
def onX : State := { onA with cur := { onA.cur with stream := .X } }

/-- The state with a scalar register of the cursor's stream. -/
def State.with (s : State) (n : Nat) (v : Word) : State := s.put fun c => c.putReg s.cur.stream n v

/-- A leaf of the page at address 0, in the translation buffers of the slices that the tests touch. -/
def cached (leaf : Leaf) : List (Nat × Trans) :=
  ([0, 0x1000, 0x1080, 0x2000, 0x3000].map homeSlice).eraseDups.map fun k => (k, ⟨0, leaf⟩)

/-- A released or held store of 8 bytes. -/
def held (serial va v : Nat) : Store := ⟨serial, 0, va, 8, v, none, 0, true⟩

/-- A 2 MiB page at address 0, frame 0, of domain 0, with every right: memory for the tests. -/
def mapped (s : State) : State :=
  (s.put fun c => { c with plb := [⟨0, 0x1F, 512⟩] }).putPkg fun x => { x with home := { x.home with
    sliceBuf := cached { frame := 0, own := 0, apt := 0, pub := false, rap := true, cls := 3, size := 2 ^ 21 } } }

/-- The state with eight bytes of main memory. -/
def State.stored (s : State) (a : Nat) (v : Nat) : State :=
  s.putPkg fun x => { x with home := { x.home with hbm := x.home.hbm.write a 8 v } }

/-- A frame area, and a directory whose handle 1 names the resident function of `onA`, in the scratchpad; TVEC names it. -/
def framed (s : State) : State :=
  let base : Word := BitVec.ofNat 64 scratchBase
  s.put fun c => { c with
    scratch := ((((c.scratch.write 0 8 dirMagic).write 8 8 2).write 96 4 1).write 100 4 16).write 112 4 64
    dirbase := base, tvec := 1, fp := base + 0x10000, strand := 0x40
    cur := some { handle := 1, digest := 0, form := .native 255, key := 0 } }

/-- Page tables at 4 MiB that map the first eight pages to the first eight frames, of domain 1; their owners; and in them a
range table of domain 1 at 0x3000 and a directory at 0x4000 whose handle 1 names code of digest 0. -/
def tables : Memory :=
  let next (m : Memory) (k : Nat) : Memory := m.write (0x400000 + 0x1000 * k) 8 (1 + (0x401 + k) * 2 ^ 26)
  let m := [0, 1, 2, 3].foldl next []
  let leaf (m : Memory) (k : Nat) : Memory := m.write (0x404000 + 8 * k) 8 (3 + 2 ^ 13 + 3 * 2 ^ 3 + k * 2 ^ 26)
  let m := (List.range 8).foldl leaf m
  let m := (m.write 0x600000 8 0x1000100010001).write 0x600008 8 0x1000100010001
  let m := (m.write 0x3000 8 0x1F).write 0x3008 8 8
  (((m.write 0x4000 8 dirMagic).write 0x4008 8 2).write 0x4060 8 0x1000000001).write 0x4070 8 64

/-- Partition 0 of the first four cores. -/
def part0 : PartRec :=
  { base := 0, len := 4, stackMask := 1, slice := 0, hsmask := 1, quota := 0, tsBase := 2, tsCount := 3, neigh := [], saveVa := 0x100000, saveN := 4, recPages := 0 }

/-- Domain 1 of context 1: its range table, directory, two records at 0x5000 and mailbox at 0x2000. -/
def dom1 : DomEntry :=
  { ctx := 1, cap := 0, drtVa := 0x3000, drtCount := 1, dirbase := 0x4000, tvec := 0, pool := { va := 0x5000, n := 2, used := [] }, mailbox := 0x2000,
    stopped := false }

/-- A package that serves context 1 of partition 0, one entry read from its ring 0 and one of context 0. -/
def hosted (entry : VReg) : State :=
  let ctx : HostCtx := { HostCtx.reset with
    rings := [⟨1, 0⟩], evVa := 0x7000, ringVa := 0x6000, fetched := [⟨0, 0, entry⟩] }
  State.reset.putPkg fun x => { x with
    home := { x.home with hbm := tables, troot := 0x400000, fotBase := 0x600000 }
    ctl := { x.ctl with parts := [(0, part0)], ctxs := [(0, ctx), (1, ctx)], doms := [(1, dom1)] } }

/-- A command from its dwords. -/
def dwords (ws : List (Nat × Nat)) : VReg := BitVec.ofNat 1024 ((ws.map fun w => w.2 * 2 ^ (64 * w.1)).sum)

/-- What a launch command is accepted as. -/
def accepted (s : State) (ctx ring part b : Nat) : Accepted :=
  match val s (validateLaunch ctx ring part b) (.error 0) with
  | .ok a => a
  | .error _ => { launch := launchOf 0 0 0 0, islands := [], bytes := 0, record := false, index := 0, rack := none }

/-! ### Encoding, fetch, schedule and operands -/

theorem witness_UnitAtOffset : (halfAt (onA.core.body .A) 4 = none) ∧
    (∃ w, halfAt (onA.core.body .A) (onA.core.str .A).off = some w ∧ w ≠ 0 ∧ w.getLsbD 0 = true) ∧
    (∃ c : Core, ∃ w hi, halfAt (c.body .A) (c.str .A).off = some w ∧ w ≠ 0 ∧ w.getLsbD 0 = false ∧
      halfAt (c.body .A) ((c.str .A).off + 4) = some hi) :=
  ⟨yes, ⟨0x02000001, yes⟩,
    { onA.core with store := [{ digest := 0, form := .native 255, key := 0, frame := 0, landings := [], aBody := [2, 4], xBody := [] }] },
    2, 4, yes⟩

theorem witness_StepRunsDecoded : onA.agenda = [] ∧ (halfAt (onA.core.body .A) onA.str.off = some 0x02000001) ∧
    (∃ s : State, s.agenda = [.event 0 0 .scrub] ∧ isEvent .scrub = true) ∧ (∃ s : State, s.agenda = [.elapse 3]) ∧
    ∃ s : State, s.agenda = [.unit 0 1 .X] :=
  ⟨rfl, yes, ⟨{ onA with agenda := [.event 0 0 .scrub] }, rfl, rfl⟩, ⟨{ onA with agenda := [.elapse 3] }, rfl⟩,
    { onA with agenda := [.unit 0 1 .X] }, rfl⟩

theorem witness_DecodeEncode : Instr.wf (.bc 0xFFFFF 15) = true ∧ Instr.encoded (.bc 0xFFFFF 15) = true := by decide +kernel

theorem test_nop_steps : leads (step onA) (fun t => t.core.strA.off == 4 && t.core.strX.off == 0 && t.time == 0) = true := by
  decide +kernel

theorem witness_schedule : (∃ t, exec .nop onA = .next t) ∧ OnSchedule onA onA ∧ ∃ t, step onA = .next t := by
  have h : leads (exec .nop onA) (fun _ => true) = true := by decide +kernel
  have g : leads (step onA) (fun _ => true) = true := by decide +kernel
  unfold leads at h g
  refine ⟨?_, ⟨[], rfl, rfl⟩, ?_⟩
  · split at h
    · exact ⟨_, by assumption⟩
    · cases h
  · split at g
    · exact ⟨_, by assumption⟩
    · cases g

/-- An entry of a queue, filled. -/
def entry (v : Nat) : QEntry := scalarEntry (BitVec.ofNat 64 v)

theorem witness_SourceOperand : ∃ s : State, ∃ e, s.cur.stream = .A ∧ (s.core.queue .sq0).ents = [e] ∧ e.filled = true ∧
    (s.core.queue .sq1).ents = [] :=
  ⟨onA.put fun c => c.setQueue .sq0 (c.sq0.push (entry 7)), entry 7, yes⟩

theorem witness_DestOperand : ∃ s u : State, s.cur.stream = .X ∧ (s.core.queue .sq0).ents.length + (s.core.queue .sq0).kept.length < 8 ∧
    8 ≤ (u.core.queue .sq0).ents.length :=
  ⟨onX, onX.put fun c => c.setQueue .sq0 { c.sq0 with ents := List.replicate 8 (entry 1) }, yes⟩

/-! ### Scalar instructions -/

/-- All the instructions of two scalar sources are ready on both streams. -/
theorem test_two_sources_ready : (twoSourceOps.all fun op => fit onA (op.1 30 29 31) && fit onX (op.1 31 30 27)) = true := by
  decide +kernel

theorem witness_ScalarTwoSources : ∃ s s1 s2 s3 : State, ∃ x y, s.ready (.add 31 27 28) ∧ s.does (src 27) x s1 ∧
    s1.does (src 28) y s2 ∧ s2.does (dst 31 (x + y)) () s3 ∧ s3.straight .seq :=
  let s := onA.put fun c => c.setQueue .sq0 (c.sq0.push (entry 7))
  ⟨s, _, _, _, _, _, both, goes 0 rfl, goes 0 rfl, acts rfl,
    straight rfl⟩

theorem witness_ScalarOneSource : ∃ s s1 s2 : State, ∃ x, s.ready (.clz 30 29) ∧ s.ready (.addi 30 29 0x2000) ∧ s.ready (.shli 30 29 63) ∧
    s.ready (.lui 30 0) ∧ s.ready (.insh 27 3 0xFFFF) ∧ s.does (src 29) x s1 ∧
    s1.does (dst 30 (BitVec.ofNat 64 (leadingZeros 64 x.toNat))) () s2 ∧ s2.straight .seq :=
  let s := onA.put fun c => c.setQueue .sq1 (c.sq1.push (entry 7))
  ⟨s, _, _, _, both, both, both, both,
    both, goes 0 rfl, acts rfl, straight rfl⟩

theorem witness_Predicates : ∃ s s1 s2 s3 : State, ∃ x y, s.ready (.cmp 0 5 1 2) ∧ s.ready (.cmpi 7 3 1 0x1FFF) ∧ s.ready (.plog 7 7 0 0) ∧
    s.ready (.sel 1 2 3 15) ∧ s.ready (.pmovToReg 31) ∧ s.ready (.pmovFromReg 0) ∧ s.does (src 1) x s1 ∧ s1.does (src 2) y s2 ∧
    s2.does (writePred 0 (scalarCc 5 x y)) () s3 ∧ s3.straight .seq ∧ s.does (readPred 0) true s ∧ s.does (guardHolds 15) true s :=
  ⟨onX, _, _, _, _, _, both, both, both, both,
    both, both, goes 0 rfl, goes 0 rfl, acts rfl,
    straight rfl, both, both⟩

/-- One unit and one scalar register after it. -/
def gets (s : State) (i : Instr) (n : Nat) (v : Word) : Bool := leads (exec i s) fun t => t.reg n == v

/-- R93: wrap, sign and the division corners. -/
theorem test_scalar_results :
    (gets (State.with onA 1 (-1)) (.add 2 1 1) 2 (-2) && gets (State.with onA 1 5) (.sub 2 31 1) 2 (-5) &&
     gets (State.with onA 1 5) (.div 2 1 31) 2 (-1) && gets (State.with onA 1 5) (.rem 2 1 31) 2 5 &&
     gets (State.with onA 1 (1 <<< 63)) (.addi 2 1 0x3FFF) 2 0x7FFFFFFFFFFFFFFF &&
     gets (State.with onA 1 (-8)) (.srai 2 1 2) 2 (-2) && gets (State.with onA 1 (-1)) (.mulhn 2 1 1) 2 (-2) &&
     gets (State.with onA 1 (-1)) (.mulh 2 1 1) 2 0 && gets onA (.lui 2 0x40000) 2 0xFFFFFFFF80000000 &&
     gets (State.with onA 1 0x0102030405060708) (.bswap 2 1) 2 0x0807060504030201 && gets onX (.clz 2 31) 2 64) = true := by
  decide +kernel

/-- R98: LTN compares as natural numbers, LT as integers; p0 stays 1. -/
theorem test_compare : (leads (exec (.cmp 1 2 1 31) (State.with onA 1 (-1))) (fun t => t.core.pa == 3) &&
    leads (exec (.cmp 1 3 1 31) (State.with onA 1 (-1))) (fun t => t.core.pa == 1) &&
    leads (exec (.cmp 0 1 31 31) onA) (fun t => t.core.pa == 1)) = true := by decide +kernel

/-! ### Decode checks, faults, branches and tokens -/

theorem witness_DecodeChecks : (∃ w, encodeHalf (.add 1 30 2) = some w ∧ specIllegal onA.cur.stream (.add 1 30 2) = true) ∧
    (∃ s : State, s.core.sMode = false ∧ csrPriv .sysTabclr = true ∧ csrIllegal s.core.sMode .sysTabclr = false) ∧
    (∃ s : State, ∃ w, encodeHalf (.trap 0xFFFF) = some w ∧ s.str.pend.isSome = true ∧ slotForbidden (majorOf w) = true) :=
  ⟨⟨_, rfl, rfl⟩, ⟨onA.put fun c => { c with sMode := false }, rfl, rfl, rfl⟩,
    onA.put fun c => { c with strA := { c.strA with pend := some ⟨2, none⟩ } }, _, rfl, rfl, rfl⟩

theorem witness_UnitOutcomes : ∃ s t : State, s.core.mode = .running ∧ s.stops (gate (.add 1 30 2)) (.raise .illegal 0x041F0801#64) ∧
    s.does (exception .illegal 0x041F0801 0 false) () t :=
  ⟨framed onA, _, rfl, halts, acts⟩

theorem witness_HandlerEntry : ∃ s s0 s1 s2 s3 s5 s6 s7 s8 s9 t : State, ∃ m m2 ent k o,
    (if Cause.illegal = .prot then s.does (plbAfterProt s.core.dom.toNat 9) () s0 else s0 = s) ∧ s0.does releaseStores () s1 ∧
    s1.does fillQueues () s2 ∧ s2.does withdrawWait () s3 ∧
    (let c := s3.core
     let s4 := s3.put fun c => { c with
       cause := BitVec.ofNat 64 (Cause.code .illegal + 0 * 2 ^ 8 + if s.cur.stream = .X then 2 ^ 16 else 0)
       eaddr := 9, epa := resumeWord c.cur c.strA.off, epx := resumeWord c.cur c.strX.off
       pMode := c.sMode, sMode := true
       strA := { c.strA with joint := false }, strX := { c.strX with joint := false } }
     let tf := c.fp - 0x1900#64
     let h := natBits c.tvec.toNat 19 0
     let hf := tf - BitVec.ofNat 64 ent.frame
     s4.does (checkSpan tf 0x1900) m s5 ∧ s5.does (writeSpan m tf 0x1900 (layOut s4.core.frameParts)) () s6 ∧
     s6.does (dirEntry h) (some ent) s7 ∧ s7.does (checkSpan hf 16) m2 s8 ∧
     s8.does (writeSpan m2 hf 16 (0x0000000100000000 + tf.toNat * 2 ^ 64)) () s9 ∧
     let s10 := s9.put fun k => { k.emptied with
       fp := hf, nest := s4.core.nest + 1, lineWait := none
       heldWaits := (s4.core.lineWait.map fun w => (s4.core.nest, w)).toList ++ s4.core.heldWaits }
     resident s10.core s10.pkg.ctl ent.digest = some k ∧ k.landing 0 = some o ∧ s10.does (enterLanding k h 0 o) () t) :=
  ⟨framed onX, _, _, _, _, _, _, _, _, _, _, _, _, ⟨0, 16, 0, 64, false⟩, nopCode, (0, 0), rfl,
    acts, acts, acts, goes true,
    acts, gives, goes true, acts,
    yes, yes, acts⟩

theorem witness_TrapsTaken : ∃ s t u v w : State, s.core.mode = .running ∧ s.does (gate (.trap 0xFFFF)) () s ∧
    (s.put fun k => k.setStr s.cur.stream { k.str s.cur.stream with off := (k.str s.cur.stream).off + 4 }).does
      (exception .break_ 0xFFFF 0 false) () t ∧ s.does (exception .zeroword 0 0 false) () u ∧
    s.does (exception .illegal 2 0 false) () v ∧
    (s.put fun k => k.setStr s.cur.stream { k.str s.cur.stream with off := 4 * (s.core.body s.cur.stream).length }).does
      (exception .illegal (BitVec.ofNat 64 (4 * (s.core.body s.cur.stream).length)) 0 false) () w :=
  ⟨framed onA, _, _, _, _, rfl, both, acts, acts, acts,
    acts⟩

/-- TRAP writes CAUSE, EADDR and the saved offsets, and enters TVEC's handler at landing 0 below the trap frame. -/
theorem test_trap : leads (exec (.trap 0xFFFF) (framed onA)) (fun t =>
    t.core.cause.toNat == Cause.code .break_ && t.core.eaddr == 0xFFFF && t.core.sMode && t.core.nest == 1 && t.core.strA.off == 0 &&
    t.core.fp == (framed onA).core.fp - 0x1900#64 - 16#64 && natBits t.core.epa.toNat 31 0 == 4) = true := by decide +kernel

theorem witness_BranchesDecide : ∃ s s1 s2 : State, ∃ x, s.ready .nop ∧ s.straight .seq ∧ s.ready (.bc 0x80000 15) ∧
    s.does (guardHolds 15) true s ∧ s.straight (.br (some (BitVec.ofInt 64 (s.str.off + 4 * (0x80000#20).toInt)))) ∧ s.ready (.bq 1) ∧
    s.ready (.bqN 1) ∧ s.does bqPop true s1 ∧ s.ready (.jr 31) ∧ s.does (src 31) 0 s ∧ s.ready (.dbnz 27 1) ∧ s.does (src 27) x s ∧
    s.does (dst 27 (x - 1)) () s2 ∧ s.ready (.bout 7) ∧ s.does (readPred 7) false s :=
  ⟨onA.put fun c => { c with bqA := c.bqA.push true }, _, _, 0, both, straight rfl, both, both, straight rfl, both,
    both, gives rfl, both, both, both, both, acts rfl, both, both⟩

theorem witness_DelaySlots : ∃ t u : StreamState, t.pend = none ∧ u.pend = some ⟨2, some 8⟩ ∧ ∃ s v : State,
    unitStart ((s.put fun c => c.setStr .A { c.strA with off := 0 }).core.body .A) 0 = true ∧
    unitStart ((s.put fun c => c.setStr .A { c.strA with off := 2 }).core.body .A) 2 = false ∧
    (s.put fun c => c.setStr .A { c.strA with off := 2 }).does (exception .illegal 2 0 false) () v :=
  ⟨⟨0, none, false⟩, ⟨0, some ⟨2, some 8⟩, false⟩, rfl, rfl, framed onA, _, yes, yes, acts⟩

/-- R90: the second unit after a taken branch carries it out. -/
theorem test_branch_lands : leads (exec .nop (onA.put fun c => { c with strA := ⟨8, some ⟨1, some 0⟩, false⟩ })) (fun t =>
    t.core.strA == ⟨0, none, false⟩) = true := by decide +kernel

theorem witness_TokensWaited : ∃ s s1 s2 : State, ∃ cov n tok k tk st, s.ready (.fence 0 2 5) ∧ s.does (fenceCovers 2) cov s ∧
    s.does (takeToken (.fence cov) none) (n, tok) s1 ∧ s1.does (dst 0 tok) () s2 ∧ s2.straight .seq ∧ s.ready (.twait 1 31) ∧
    heldSlot s1.core 0 = some k ∧ findAt s1.core.tokens k = some tk ∧ s1.does (tokenStatus tk) (some st) s1 ∧
    (s1.put fun c => c.freeToken k).straight .seq :=
  ⟨onA, _, _, [], 0, 0, 0, ⟨.fence [], none⟩, 0, both, both, gives rfl, acts rfl, straight rfl, both, rfl, rfl, both,
    straight rfl⟩

theorem witness_TokensWaited_open : ∃ s : State, ∃ tk, s.ready (.twait 1 31) ∧ s.does (src 31) 0 s ∧ heldSlot s.core 0 = some 0 ∧
    findAt s.core.tokens 0 = some tk ∧ s.does (tokenStatus tk) none s :=
  ⟨onA.put fun c => { c with tokens := [(0, ⟨.command, none⟩)] }, ⟨.command, none⟩, both, both, rfl, rfl, both⟩

/-! ### Vectors and matrices -/

theorem test_vector_ready : (vectorTwoOps.all (fun op => fit onX (op.1 0 63 1 2) || fit onX (op.1 0 63 1 5)) &&
    vectorOneOps.all (fun op => fit onX (op.1 0 63 2)) && vectorThreeOps.all (fun op => fit onX (op.1 0 63 1 2) || fit onX (op.1 0 63 1 5)) &&
    vectorCountOps.all (fun op => fit onX (op.1 0 63 31 2))) = true := by decide +kernel

theorem witness_VectorOperations : ∃ s : State, s.ready (.vadd 0 63 1 5) ∧ s.ready (.vfma 0 63 1 2) ∧ s.ready (.vfma2 62 0 2 3) ∧
    s.ready (.vcmp 0 63 1 5 6) ∧ s.ready (.vred 0 1 2 4) ∧
    (s.putV 0 (vAddSub s.venv 5 false (s.vreg 63) (s.vreg 1))).straight .seq :=
  ⟨onX, both, both, both, both, both, straight⟩

theorem witness_VectorOneSource : ∃ s : State, s.ready (.vabs 0 63 5) ∧ s.ready (.vmath 0 63 3) ∧ s.ready (.vslideup 0 63 31 2) ∧
    (s.putV 0 (vSlide 2 true 31 (s.vreg 63), 0)).straight .seq :=
  ⟨onX, both, both, both, straight⟩

theorem witness_VectorConversions : ∃ s : State, s.ready (.vcvt 0 63 9 8 15) ∧ s.core.tabstat.getLsbD 0 = true ∧
    s.does (resolveRnd (cvtEfPair 9 8) 15) (.ef 7) s ∧ s.ready (.vencC8 0 1 15 3) ∧ s.ready (.vencC4 0 1 15 15 7) ∧ s.ready (.vdecC8 0 1 3) ∧
    s.ready (.vdecC4 0 1 15 7) :=
  ⟨onX.put fun c => { c with tabstat := 1 }, both, rfl, both, both, both, both, both⟩

theorem witness_VectorMoves : ∃ s s1 s2 s3 s4 : State, ∃ q, s.ready (.vsplat 0 31 5) ∧ s.does (src 31) 0 s ∧ s.ready (.vsplatImm 0 0x800 0) ∧
    s.ready (.vext 31 0 63 1) ∧ s.does (dst 31 0) () s ∧ s.ready (.vins 0 31 63 1) ∧ s.ready (.vzero 63) ∧ s.ready (.viota 63 0) ∧
    s.ready (.eclr 7) ∧ s.ready (.vpop 0 2) ∧ s.does (popQ (lqPort 2)) q s1 ∧ s.ready (.vpush 1 0) ∧
    s.does (pushQ (sqPort 1)
      { data := s.vreg 0, mask := 0xFFFFFFFF#32, kind := true, filled := true, tol := false, serial := 0 }) () s3 ∧
    (s.core.queue (lqPort 2)).ents = [q] ∧ q.filled = true ∧ s.ready (.vmaskV 0 2) ∧ s.ready (.vmaskC 31 2) ∧ s3.straight .seq ∧
    s2 = s.putV 0 (0, 0) ∧ s2.straight .seq ∧ s4 = s ∧
    s.does (dst 31 (BitVec.ofNat 64 (maskCount q.lanes))) () s4 :=
  ⟨onX.put fun c => c.setQueue .lq2 (c.lq2.push (entry 7)), _, _, _, _, entry 7, both, both, both, both, both,
    both, both, both, both, both, gives rfl, both, acts rfl, rfl, rfl, both, both,
    straight rfl, rfl, straight rfl, rfl, both⟩

/-- R206 to R229 on small values: sums, a saturated sum, a sum of lanes, and 1.5 · 2 in f32. -/
theorem test_vector_results :
    (leads (exec (.viota 1 2) onX) (fun t => laneAt 32 31 (t.vreg 1) == 31) &&
     leads (exec (.vaddSatI 1 0 0 0) (onX.put fun c => c.putV 0 (vSplat 0 0x7F))) (fun t => laneAt 8 127 (t.vreg 1) == 0x7F) &&
     leads (exec (.vadd 1 0 0 0) (onX.put fun c => c.putV 0 (vSplat 0 0x7F))) (fun t => laneAt 8 127 (t.vreg 1) == 0xFE) &&
     leads (exec (.vmul 1 0 2 5) (onX.put fun c => (c.putV 0 (vSplat 5 0x3FC00000)).putV 2 (vSplat 5 0x40000000)))
       (fun t => laneAt 32 7 (t.vreg 1) == 0x40400000 && t.core.fflags == 0)) = true := by decide +kernel

/-- Tiles of bf16 in the scratchpad, 64 bytes a row, at offset 0. -/
def tiled : State := onX.put fun c => { c with t := Vector.replicate 16 (BitVec.ofNat 64 (64 * 2 ^ 18 + 2 ^ 34)) }

theorem witness_MatrixRegisters : ∃ s s1 : State, ∃ x raw, s.ready (.tdset 15 31) ∧ s.does (src 31) x s ∧ tileWordOk x = true ∧
    s.ready (.ldtab 31) ∧ x.extractLsb' 0 6 = 0#6 ∧ x.toNat ≤ 0x3FC00 ∧ s.does (checkSpanLocks (BitVec.ofNat 64 scratchBase + x) 1024) () s ∧
    s1 = s ∧ raw = s.core.scratch.read x.toNat 1024 ∧
    Table.valid (Vector.ofFn fun i => BitVec.ofNat 32 (raw / 2 ^ (32 * i.val))) = true ∧ s.ready (.mscaRow 3 63) ∧ s.ready (.mscaCol 0 0) ∧
    s.ready (.mcmb 3 0) ∧ s.ready (.mrd 63 3 15) ∧ s.ready (.mwr 63 3 15) ∧ s.ready (.mzero 8) ∧ s.straight .seq :=
  ⟨onX, _, 0, 0, both, both, yes, both, rfl, by decide, both, rfl, rfl, yes,
    both, both, both, both, both, both, straight rfl⟩

set_option maxRecDepth 100000 in
theorem witness_MatrixSteps : ∃ s : State, s.ready (.mmaz 3 0 15) ∧ s.ready (.mmaw 3 0 15) ∧ s.ready (.mld 3 0) ∧ s.ready (.mst 3 0 4 15 3) ∧
    0 < (s.tile 0).fmt ∧ (s.tile 15).fmt ≤ 4 ∧
    s.does (checkTiles [⟨s.tile 0, 16, 16⟩, ⟨s.tile 15, 16, 32⟩]) () s ∧ s.does (checkTiles [⟨s.tile 0, 16, 32⟩]) () s ∧
    s.does (checkTiles [⟨{ s.tile 0 with fmt := 2, cb := 0 }, 16, 32⟩]) () s :=
  ⟨tiled, both, both, both, both, yes, yes, both, both, both⟩

/-- R242, R244: MWR then MRD; MZERO leaves the accumulators outside its mask. -/
theorem test_matrix_rows :
    (leads (exec (.mwr 1 2 15) (onX.put fun c => c.putV 1 7)) (fun t => (t.acc 2).toList.getD 15 0 == 7 && (t.acc 2).toList.getD 14 0 == 0) &&
     leads (exec (.mzero 4) (onX.put fun c => { c with m := Vector.replicate 4 (Vector.replicate 16 1), kpos := Vector.replicate 4 16 }))
       (fun t => t.acc 2 == Accum.zero && t.kAt 2 == 0 && t.kAt 1 == 16 && (t.acc 3).toList.getD 0 0 == 1)) = true := by decide +kernel

/-! ### Memory -/

theorem witness_AccessChecks : ∃ s t u : State, ∃ m, (0x101 : Word).toNat % 2 ≠ 0 ∧ space (0x1000 : Word).toNat = .mem ∧
    s.does (checkRights 0x1000 needRWA 0x1000 8) m t ∧ t.core.locked 0x1000 8 = false ∧
    u.stops (checkRights 0x1000 needR 0x1000 8) (.raise .prot 0x1000) ∧ u.core.locked 0x1000 8 = true ∧
    space (BitVec.ofNat 64 scratchBase).toNat = .scratch 0 ∧ s.core.locked scratchBase 8 = false ∧
    space (windowBase + 2 ^ 42) = .nothing :=
  ⟨mapped onA, _, onA.put fun c => { c with locks := [(0, ⟨0x1007, 1, 0⟩)] }, true, by decide, rfl, gives,
    yes, halts, yes, yes, yes, yes⟩

/-- Register 1 holds the scratchpad's address, and sq0 an entry of zeros of kind 1. -/
def near : State :=
  (State.with onA 1 (BitVec.ofNat 64 scratchBase)).put fun c => c.setQueue .sq0 (c.sq0.push
    { data := 0, mask := 0xFFFFFFFF#32, kind := true, filled := true, tol := false, serial := 0 })

/-- `near` with the entry popped. -/
def popped : State := near.put fun c => c.setQueue .sq0 Queue.empty

theorem witness_AccessEffects : ∃ s u : State, ∃ ea : Word, space ea.toNat = .scratch 0x3FFF8 ∧ ea.toNat % 8 = 0 ∧
    s.core.locked ea.toNat 8 = false ∧ poisonedParts s.core.scratchPois 0x3FFF8 8 = false ∧ poisonedParts u.core.scratchPois 0x3FFF8 8 = true :=
  ⟨onA, onA.put fun c => { c with scratchPois := [0x7FFF] }, BitVec.ofNat 64 (scratchBase + 0x3FFF8), yes, yes,
    yes, yes, yes⟩

/-- Translated memory, its address in register 1. -/
def farther : State := mapped (State.with onA 1 0x1000)

/-- The same with a posted reduction on the address. -/
def reducing : State := farther.put fun c => { c with amons := [(1, ⟨1, 0, 0, 0, 0, 0, 0, true, none, ⟨0x1000, 0, true, 5⟩⟩)] }

/-- What a strand owes: a fault that system software has refused. -/
def owed1 : Owed := ⟨.translate, 0x1000, .A⟩

/-- Core 0 runs a strand that owes it. -/
def owing : State := (framed (mapped onA)).putPkg fun x => { x with sched := { x.sched with
  strands := [{ blankStrand 0x40 1 0 0 0 with state := .running, onCore := some 0, owed := [owed1] }] } }

theorem witness_AccessEffects_memory : ∃ s s1 s2 u u1 : State, ∃ v m, space (0x1000 : Word).toNat = .mem ∧
    s.does (checkAccess needR 0x1000 8) m s1 ∧ ownPosted s1.dev s.cur.pkg s.cur.core = [] ∧
    s1.does (withM s1.core.dom.toNat m 0x1000 fun m => readUnder 0x1000 m 8) v s2 ∧ u.does (checkAccess needR 0x1000 8) m u1 ∧
    ∃ p ∈ ownPosted u1.dev u.cur.pkg u.cur.core, overlaps 0x1000 0x1008 p.at_.va (p.at_.va + if p.at_.wide then 8 else 4) = true :=
  ⟨farther, _, _, reducing, _, 0, true, yes, gives, yes, gives, gives, yes⟩

theorem witness_AccessEffects_owed : ∃ s s1 t u u1 : State, ∃ x : Strand, owing.core.mode = .running ∧ x.owed = [owed1] ∧
    owing.does (findStrand owing.core.strand.toNat) (some x) owing ∧
    owing.does (modStrand owing.core.strand.toNat fun y => { y with owed := y.owed.erase owed1 }) () s1 ∧
    s1.does (atCore 0 0 owed1.stream (exception owed1.cause owed1.ea 0 false)) () t ∧ s = onA ∧ s.does implicitCommit () u ∧
    u.does settled () u1 ∧ (some 5).any (fun n : Nat => 4 ≤ n) = true :=
  ⟨_, _, _, _, _, { blankStrand 0x40 1 0 0 0 with state := .running, onCore := some 0, owed := [owed1] }, yes, rfl, both, acts, acts, rfl, acts,
    acts, rfl⟩

/-- R169: a fault that system software has refused is raised where its strand runs, and is owed no more. -/
theorem test_refused : leads (exec .parkedMessageForward ((owing.put fun c => { c with mode := .restored }).putPkg fun x => { x with sched :=
    { x.sched with strands := x.sched.strands.map fun s => { s with savedAt := some 1 } } })) (fun t =>
      t.core.cause.toNat == Cause.code .translate && t.core.eaddr == 0x1000 && t.pkg.sched.strands.all (·.owed.isEmpty)) = true := by
  decide +kernel

/-- A load waits for the stream's own posted reduction. -/
theorem test_load_waits_reduction : leads (exec (.ld 2 1 3 0 0) reducing) (fun t => t == reducing) = true := by decide +kernel

theorem witness_ScratchStoreFrame : Memory.wf Core.reset.scratch ∧ (∃ a len j n : Nat, a + len ≤ j ∨ j + n ≤ a) :=
  ⟨by decide, 0, 1, 1, 1, .inl (by decide)⟩

theorem witness_LoadsComplete : ∃ s s1 s2 s3 t2 t3 u2 u3 w3 w4 w5 : State, ∃ base v vv offs ms g p, s.does (src 1) base s1 ∧
    s.ready (.ld 27 1 3 0 0) ∧ s1.does (roomFor 27) () s1 ∧ lineKey s.cur.core (space (base + 0).toNat) = none ∧ s.core.lineWait = none ∧
    (s1.put fun c => { c with lineWait := none }).does (load (base + (0#11).signExtend 64) 8) v s2 ∧ s2.does (loadDst 27 (extend 8 false v)) () s3 ∧ s3.straight .seq ∧
    s.ready (.lda 27 1 3 0 5 0) ∧ s.ready (.ldv 30 1 0x1FFF) ∧ s.ready (.ldv 30 1 0) ∧ s1.does (roomFor 30) () s1 ∧ s1.does (load base 128) vv t2 ∧
    pushPort s.cur.stream 30 = some p ∧ t2.does (reserve p (BitVec.ofNat 1024 vv) 0xFFFFFFFF#32 true false) () t3 ∧ t3.straight .seq ∧
    s.ready (.gath 30 1 28 2 1 1) ∧ s1.does (popVec 28) offs u2 ∧ u2.does (roomFor 30) () u2 ∧
    u2.does (checkLanes needR 4 (laneAddrs base offs 4 true)) ms u3 ∧ u3.does (gatherLanes 4 true (laneAddrs base offs 4 true) ms) g w4 ∧
    w4.does (reserve p g 0xFFFFFFFF#32 true false) () w5 ∧ w5.straight .seq ∧ w3 = w4 :=
  ⟨near, near, _, _, _, _, popped, _, _, _, _, BitVec.ofNat 64 scratchBase, _, _, 0, _, _, .lq2, both, both, both, yes, rfl,
    goes 0, acts, straight, both, both, both, both,
    goes 0, rfl, acts, straight, both, both, both,
    goes [] (by decide +kernel), goes 0, acts, straight, rfl⟩

set_option maxRecDepth 100000 in
set_option exponentiation.threshold 2000 in
theorem witness_LoadsComplete_tolerant : ∃ s s1 s2 s3 s4 s5 s6 : State, ∃ base offs ms vs, s.does (src 1) base s1 ∧ s.ready (.gathT 28 1 28 2 0 0) ∧
    s1.does (popVec 28) offs s2 ∧ s2.does (roomFor 28) () s2 ∧ s2.does (checkLanesPlace 4 (laneAddrs base offs 4 false)) () s2 ∧
    s2.does ((laneAddrs base offs 4 false).mapM fun ea => laneRights 4 ea) ms s3 ∧
    s3.does (checkLanesLocks 4 (laneAddrs base offs 4 false)) () s3 ∧
    s3.does (((laneAddrs base offs 4 false).zip ms).mapM fun p => match p.2 with
      | some m => tolerantLane 4 false p.1 m
      | none => pure none) vs s4 ∧
    s4.does (walkLanes (laneAddrs base offs 4 false) ms vs) () s5 ∧
    s5.does (reserve .lq0 (ofLanes 32 (vs.map (·.getD 0))) (BitVec.ofNat 32 (laneMask vs)) true true) () s6 ∧ s6.straight .seq :=
  ⟨near, near, popped, _, _, _, _, BitVec.ofNat 64 scratchBase, 0, List.replicate 32 (some true), _, both, both, both,
    both, both, gives, both, goes [] (by decide +kernel), acts, acts, straight⟩

theorem witness_LoadsComplete_full : ∃ s u u2 : State, ∃ offs, s.does (src 1) (BitVec.ofNat 64 scratchBase) s ∧ s.stops (roomFor 28) .block ∧
    s.core.lineWait = none ∧ s.ready (.ld 28 1 3 0 0) ∧ s.ready (.lda 28 1 3 0 0 0) ∧ s.ready (.ldv 28 1 0) ∧
    u.does (popVec 28) offs u2 ∧ u2.stops (roomFor 28) .block ∧ u.ready (.gath 28 1 28 2 0 0) ∧ u.ready (.gathT 28 1 28 2 0 0) :=
  let fill (s : State) : State := s.put fun c => { c with lq0 := { c.lq0 with ents := List.replicate queueDepth (entry 0) } }
  ⟨fill (State.with onA 1 (BitVec.ofNat 64 scratchBase)), fill near, _, 0, both, halts, rfl, both, both,
    both, gives, halts, both, both⟩

theorem witness_StoresComplete : ∃ s s1 s2 s3 t1 t2 t3 t5 : State, ∃ base q vec, s.ready (.std 31 1 0x1FF 0) ∧ s.does (src 31) 0 s ∧
    s.does (src 1) base s ∧ s.does (guardHolds 0) true s ∧ lineKey s.cur.core (space base.toNat) = none ∧ s.ready (.std 31 1 0 0) ∧
    s.does (store none base 8 0) () s1 ∧ s1.straight .seq ∧ s.ready (.strel 31 1 3 5 0) ∧ s.does (store (some 5) base 8 0) () s2 ∧
    s2.straight .seq ∧ s.ready (.stv 28 1 0 0) ∧ popPort s.cur.stream 28 = some .sq0 ∧ s.does (popQ .sq0) q t1 ∧
    t1.does (store none base 128 q.data.toNat) () t2 ∧ t2.straight .seq ∧ s.ready (.scat 29 1 28 2 1 1) ∧ s.does (popVec 29) vec s3 ∧
    s3.does (popVec 28) 0 t3 ∧ t3.does (guardHolds 1) false t5 ∧ t5.straight .seq :=
  let s := near.put fun c => c.setQueue .sq1 (c.sq1.push
    { data := 0, mask := 0xFFFFFFFF#32, kind := true, filled := true, tol := false, serial := 0 })
  ⟨s, _, _, _, _, _, _, _, BitVec.ofNat 64 scratchBase, _, 0, both, both, both, both, yes, both,
    acts, straight, both, acts, straight, both, rfl,
    goes (entry 0), acts, straight, both, gives,
    gives, gives, straight⟩

/-- Held stores come back to a load of their stream before they perform, the youngest last. -/
theorem test_own_stores : gets (((mapped (State.with onA 1 0x1000)).put fun c => { c with
      sbuf := [held 1 0x1000 0x1122334455667788, ⟨2, 0, 0x1002, 2, 0xAAAA, none, 0, true⟩] })) (.ld 2 1 3 0 0) 2 0x11223344AAAA7788 = true := by
  decide +kernel

/-- R108: LD.B extends the sign, LD.BN does not; R106: a misaligned address faults. -/
theorem test_load_extends : (gets (near.put fun c => { c with scratch := c.scratch.write 0 1 0x80 }) (.ld 2 1 0 0 0) 2 (-128) &&
    gets (near.put fun c => { c with scratch := c.scratch.write 0 1 0x80 }) (.ld 2 1 0 1 0) 2 128 &&
    leads (exec (.ld 2 1 3 0 1) (framed near)) (fun t => t.core.cause.toNat == Cause.code .align && t.core.eaddr.toNat == scratchBase + 1)) = true := by
  decide +kernel

theorem witness_AtomicsComplete : ∃ s s0 s1 s2 s3 s4 s5 s6 : State, ∃ ea x m p l old, s.does commitPoint () s0 ∧ s.ready (.amo 2 1 0 1 3 5 0) ∧
    s0.does (src 2) x s1 ∧ s1.does (src 1) ea s2 ∧ s2.does (guardHolds 0) true s2 ∧ s2.does (checkAtomic needRWA ea 8) m s3 ∧
    s3.does (atomicAt ea m true) (p, l) s4 ∧
    s4.does (runHomeAt p ea ea (performAtomic false l s.cur.core s4.core.dom.toNat { va := ea.toNat, op := 0, wide := true, opnd := x.toNat })) old s5 ∧
    s5.does (dst 2 (BitVec.ofNat 64 old)) () s6 ∧ s6.straight .seq :=
  let s := mapped (State.with (State.with onA 1 0x1000) 2 5)
  ⟨s, _, _, _, _, _, _, _, 0x1000, 5, true, 0, .entry 0, 0, acts, both, gives, gives,
    both, gives, gives, gives,
    acts, straight⟩

theorem witness_AtomicsComplete_rest : ∃ s s0 s3 s4 s5 s6 u3 u4 u5 u6 : State, ∃ m l old, s.does commitPoint () s0 ∧ s.ready (.cas 26 1 1 1 0 0) ∧
    s.does (readReg 26) 0 s ∧ s.does (src 1) 0x1000 s ∧ s0.does (checkAtomic needRWA 0x1000 8) m s3 ∧
    s3.does (atomicAt 0x1000 m (orderRelease 1)) (0, l) s4 ∧
    s4.does (runHomeAt 0 0x1000 0x1000 (performCas l s4.core.dom.toNat 0x1000 8 0 0)) old s5 ∧
    s5.does (writeReg 26 (BitVec.ofNat 64 old)) () s6 ∧ s6.straight .seq ∧ s.ready (.amon 26 1 8 1 0) ∧
    s0.does (checkAtomic needWA 0x1000 8) m u3 ∧ u3.core.amons.length < 32 ∧ u3.does nextSerial 0 u4 ∧ u4.does theLaunch (0, 0) u5 ∧
    u5.does thePart 0 u6 ∧ u6.straight .seq ∧ s.ready (.amo 26 1 0 1 0 0 1) ∧ s.does (guardHolds 1) false s :=
  ⟨farther, _, _, _, _, _, _, _, _, _, true, .entry 0, 0, acts, both, both, both, gives,
    gives, gives, acts, straight, both,
    gives, yes, gives, gives, gives,
    straight, both, both⟩

theorem witness_AtomicsComplete_full : ∃ s s0 s3 : State, ∃ m, s.does commitPoint () s0 ∧ s.ready (.amon 26 1 8 1 0) ∧ s.does (guardHolds 0) true s ∧
    s0.does (checkAtomic needWA 0x1000 8) m s3 ∧ 32 ≤ s3.core.amons.length :=
  ⟨farther.put fun c => { c with amons := List.replicate 32 (1, ⟨1, 0, 0, 0, 0, 0, 0, true, none, ⟨0x2000, 0, true, 5⟩⟩) }, _, _, true,
    acts, both, both, gives, yes⟩

/-- R116: AMO.ADD gives the old value and leaves the sum. -/
theorem test_amo : leads (exec (.amo 2 1 0 1 0 0 0) (State.stored (mapped (State.with (State.with onA 1 0x1000) 2 5)) 0x1000 37)) (fun t =>
    t.reg 2 == 37 && val t (readBytes 0 0 true 0x1000 8) 0 == 42) = true := by decide +kernel

theorem witness_BitBuffer : ∃ s s1 s3 : State, ∃ x kept taken, s.ready (.bbset 31 1 1 1) ∧ s.ready (.bbget 27 64) ∧ s.ready (.bbpeek 31 1) ∧
    s.ready (.bbskip 64) ∧ s.does (takeBits 64) (x, kept, taken) s1 ∧ (s1.put fun c => { c with bb := taken }).does (dst 27 x) () s3 ∧
    s3.straight .seq :=
  ⟨onA, _, _, 0, BitBuf.empty, BitBuf.empty, both, both, both, both, gives, acts,
    straight⟩

/-! ### Lines and messages -/

/-- Quad line 0 of core 0 in a condition. -/
def lined (l : Line) : State := onA.putPkg fun x => { x with lines := [(0, l)] }

theorem witness_Lines : ∃ s s1 s2 : State, ∃ ea : Word, s.ready (.sysEvcfg 1 31) ∧ s.does (src 1) ea s1 ∧ s1.does (src 31) 0 s2 ∧
    space ea.toNat = .quadLine 31 ∧ lineWordOk true 4 0 = true ∧ lineWordOk true 4 0x1FFFF0003 = true ∧ (∃ d, space d = .dieLine 63) ∧
    (∃ q, space q = .pkgLine 31) ∧ s.core.lineWait = none ∧ (lookupD Line.off s.pkg.lines 31).kind = .off :=
  ⟨State.with onA 1 (BitVec.ofNat 64 (scratchBase + 0x100000000 + 31 * 64)), _, _, _, both, goes 0,
    gives, yes, yes, yes,
    ⟨scratchBase + 0x200000000 + 63 * 64, yes⟩, ⟨scratchBase + 0x300000000 + 31 * 64, yes⟩, yes,
    yes⟩

theorem witness_Lines_loads : ∃ m h e b : State, ∃ m1 h1 e1 : State,
    (lookupD Line.off m.pkg.lines 0).kind = .mutex ∧ (lookupD Line.off m.pkg.lines 0).holder = none ∧ m.does implicitCommit () m1 ∧
    m1.pkg.lines = m.pkg.lines ∧ (lookupD Line.off h.pkg.lines 0).holder = some 5 ∧ h.does implicitCommit () h1 ∧ h1.core.lineWait = none ∧
    h1.pkg.lines = h.pkg.lines ∧ (lookupD Line.off e.pkg.lines 0).kind = .event ∧ (lookupD Line.off e.pkg.lines 0).pending ≠ 0 ∧
    (lookupD Line.off e.pkg.lines 0).chain = none ∧ e.does implicitCommit () e1 ∧ e1.pkg.lines = e.pkg.lines ∧
    (lookupD Line.off b.pkg.lines 0).kind = .barrier :=
  ⟨lined { Line.off with kind := .mutex }, lined { Line.off with kind := .mutex, holder := some 5 },
    lined { Line.off with kind := .event, pending := 255 }, lined { Line.off with kind := .barrier, count := 4 }, _, _, _,
    yes, yes, acts, yes, yes, acts,
    yes, yes, yes, yes, yes, acts,
    yes, yes⟩

/-- The address of quad line 0. -/
def line0 : Word := BitVec.ofNat 64 (scratchBase + 0x100000000)

/-- Quad line 0 in a condition, its address in register 1. -/
def atLine (l : Line) : State := (lined l).put fun c => { c with a := c.a.setIfInBounds 1 line0 }

theorem witness_Lines_units : ∃ e e2 e3 b b2 g g1 g2 q o o3 : State, e.core.lineWait = none ∧ e.ready (.ld 2 1 3 0 0) ∧ e.does (src 1) line0 e ∧
    e.does (roomFor 2) () e ∧ lineKey e.cur.core (space (line0 + (0#11).signExtend 64).toNat) = some 0 ∧ e.does (lineLoad line0 0) (some 1) e2 ∧
    e2.does (loadDst 2 1) () e3 ∧ e3.straight .seq ∧ b.does (lineLoad line0 0) none b2 ∧ g.core.lineWait = some (.granted 0) ∧
    g.ready (.ld 2 1 3 0 0) ∧ g.does (lineResume (.granted 0)) 1 g1 ∧ g1.does (loadDst 2 1) () g2 ∧ g2.straight .seq ∧
    q.core.lineWait = some (.queued 0) ∧ q.stops (lineResume (.queued 0)) .block ∧ o.ready (.std 31 1 0 0) ∧ o.does (src 31) 0 o ∧
    o.does (src 1) line0 o ∧ o.does (guardHolds 0) true o ∧ o.does (lineStore line0 0) () o3 ∧ o3.straight .seq :=
  let waits (w : LineWait) (s : State) : State := s.put fun c => { c with lineWait := some w }
  let m : Line := { Line.off with kind := .mutex, holder := some 0, waiters := [3] }
  ⟨atLine { Line.off with kind := .event, pending := 2 }, _, _, atLine { Line.off with kind := .barrier, count := 4 }, _,
    waits (.granted 0) (atLine m), _, _, waits (.queued 0) (atLine { m with holder := some 5 }), atLine m, _, rfl, both, both, both,
    yes, gives, acts, straight, gives, rfl, both,
    gives, acts, straight, rfl, halts, both, both,
    both, both, acts, straight⟩

theorem witness_Lines_stores : ∃ s s1 s2 s3 u u1 v v1 v2 w x x1 : State, (lookupD Line.off s.pkg.lines 0).holder = some s.cur.core ∧
    s.does implicitCommit () s1 ∧ s1.does settled () s2 ∧ s2.does (passMutex 0) () s3 ∧ u.does implicitCommit () u1 ∧ u1.stops settled .block ∧
    (lookupD Line.off v.pkg.lines 0).kind = .event ∧ v.does implicitCommit () v1 ∧ v1.does settled () v2 ∧
    (lookupD Line.off w.pkg.lines 0).waiters = [] ∧ (lookupD Line.off s.pkg.lines 0).waiters = [3] ∧
    (lookupD Line.off x.pkg.lines 0).pending ≠ 0 ∧ x.does implicitCommit () x1 :=
  let m : Line := { Line.off with kind := .mutex, holder := some 0, waiters := [3] }
  ⟨lined m, _, _, _, (lined m).put fun c => { c with amons := [(1, ⟨1, 0, 0, 0, 0, 0, 0, true, none, ⟨0x2000, 0, true, 5⟩⟩)] }, _, lined { Line.off with kind := .event }, _, _,
    lined { m with waiters := [] }, lined { Line.off with kind := .event, pending := 2, chain := some (1, 2) }, _, yes,
    acts, acts, acts, acts, halts,
    yes, acts, acts, yes, yes, yes,
    acts⟩

/-- R121: a STD of the holder hands the mutex to the next waiter. -/
theorem test_mutex_passes : leads (exec (.std 31 1 0 0) (atLine { Line.off with kind := .mutex, holder := some 0, waiters := [3] })) (fun t =>
    (lookupD Line.off t.pkg.lines 0).holder == some 3 && (t.pkg.core 3).lineWait == some (.granted 0)) = true := by decide +kernel

theorem witness_LineEvents : ∃ s u v w z : State, ∃ e f, s.core.lineWait = some (.arriving 0 [1]) ∧
    (ownWrites s.dev s.cur.pkg s.cur.core).any [1].contains = false ∧ (lookupD Line.off s.pkg.lines 0).kind = .barrier ∧
    (lookupD Line.off s.pkg.lines 0).count = 1 ∧ u.core.lineWait = some (.arriving 0 [1]) ∧
    (ownWrites u.dev u.cur.pkg u.cur.core).any [1].contains = true ∧ v.pkg.chainSignals.contains 0 = true ∧
    (lookupD Line.off v.pkg.lines 0).kind = .event ∧ w.core.waiting 3 = some e ∧ e.tol = true ∧ z.core.waiting 3 = some f ∧ f.tol = false ∧
    z.core.waiting 4 = none :=
  let wait (s : State) : State := s.put fun c => { c with lineWait := some (.arriving 0 [1]) }
  ⟨wait (lined { Line.off with kind := .barrier, count := 1 }), wait onA |>.put fun c => { c with inflight := [held 1 0 0] },
    (lined { Line.off with kind := .event }).putPkg fun x => { x with chainSignals := [0] },
    onA.put fun c => { c with lq0 := c.lq0.push { entry 0 with filled := false, tol := true, serial := 3 } },
    onA.put fun c => { c with lq0 := c.lq0.push { entry 0 with filled := false, serial := 3 } },
    { entry 0 with filled := false, tol := true, serial := 3 }, { entry 0 with filled := false, serial := 3 }, yes, yes,
    yes, yes, yes, yes, yes, yes, yes,
    yes, yes, yes, yes⟩

/-- R120: the last arrival fires a barrier of one and its load gets the new generation. -/
theorem test_barrier_fires : leads (exec .barrierLineArrival
    ((lined { Line.off with kind := .barrier, count := 1, gen := 6 }).put fun c => { c with lineWait := some (.arriving 0 []) })) (fun t =>
    t.core.lineWait == some (.fired 0 7) && (lookupD Line.off t.pkg.lines 0).arrived.isEmpty) = true := by decide +kernel

theorem witness_Messages : ∃ s s0 s2 s3 : State, ∃ ea pl, s.ready (.send 1 31 31 15) ∧ s.core.sending = none ∧ s.does commitPoint () s0 ∧
    s0.core.sending = none ∧ s0.does (src 31) 0 s2 ∧ s.does (payloadAt 0) ea s ∧ s.does (scratchRead ea 0 64) pl s ∧
    s.does (partOfCore 0) none s ∧ s.ready (.recv 31 31 0) ∧ s.ready (.recvT 31 31 15) ∧ s.core.takeable 15 = none ∧
    s.does (dst 1 2) () s3 ∧ s3.straight .seq :=
  ⟨onA, _, _, _, _, _, both, rfl, acts, yes, gives, both, both,
    both, both, both, yes, acts, straight⟩

theorem witness_Messages_answers : ∃ s u u1 w : State, ∃ snd m, s.ready (.send 1 31 31 15) ∧ s.core.sending = some snd ∧ snd.answer = some 0 ∧
    u.core.sending = some { snd with answer := none } ∧ (u.pkg.core snd.target).sendEntries < 30 ∧
    u.does (launchAt u.cur.core) (0, 0) u ∧ u.does (launchAt snd.target) (0, 0) u ∧ u.does (messageTurn [(0, 0), (0, 0)] 1 15 0) () u1 ∧
    savedStrand u1.pkg.sched.strands snd.msg.dom snd.target = none ∧ w.core.takeable 15 = some m :=
  ⟨onA.put fun c => { c with sending := some ⟨1, ⟨false, 15, 0, 0, 7⟩, some 0⟩ }, onA.put fun c => { c with sending := some ⟨1, ⟨false, 15, 0, 0, 7⟩, none⟩ }, _,
    onA.put fun c => { c with inbox := [⟨false, 15, 3, 0, 7⟩] }, ⟨1, ⟨false, 15, 0, 0, 7⟩, some 0⟩, ⟨false, 15, 3, 0, 7⟩, both, rfl, rfl, rfl, yes,
    both, both, acts, yes, yes⟩

/-- A saved strand that waits on channel 15, and a message for it under way from core 0 to core 1. -/
def sendingTo : State := (onA.put fun c => { c with sending := some ⟨1, ⟨false, 15, 0, 0, 7⟩, none⟩ }).putPkg fun x => { x with sched := { x.sched with
  strands := [{ blankStrand 0x40 1 0 0 0 with state := .suspMsg, savedAt := some 1, awaits := 15 }] } }

theorem witness_Messages_parked : ∃ s1 s2 s3 : State, ∃ sv, sendingTo.does (messageTurn [(0, 0), (0, 0)] 1 15 0) () s1 ∧
    savedStrand s1.pkg.sched.strands 0 1 = some sv ∧ sv.state = .suspMsg ∧ sv.awaits = 15 ∧
    (s1.putPkg fun k => k.setCore 1 { k.core 1 with inbox := (k.core 1).inbox ++ [⟨true, 15, 0, 0, 7⟩] }).does
      (setStrand sv.va fun o => { o with state := .ready }) () s2 ∧ s2.does (enqueue sv.va) () s3 :=
  ⟨_, _, _, { blankStrand 0x40 1 0 0 0 with state := .suspMsg, savedAt := some 1, awaits := 15 }, acts, yes, rfl, rfl, acts, acts⟩

/-- R128: RECV stores the payload and gives sender and domain. -/
theorem test_recv : leads (exec (.recv 2 31 15) (onA.put fun c => { c with inbox := [⟨false, 15, 3, 0, 7⟩] })) (fun t =>
    t.reg 2 == 3 && t.core.scratch.read 0 64 == 7 && t.core.inbox.isEmpty) = true := by decide +kernel

theorem witness_SystemUnits : ∃ s s1 s2 u2 : State, ∃ v, s.ready (.csrr 0 0x024) ∧ s.does (csrValue 0x024) v s ∧ s.does (dst 0 v) () s2 ∧
    s2.straight .seq ∧ s.ready (.csrw 31 0x024) ∧ csrValueOk 0x024 0 = true ∧ s.ready (.sysPlbinv 31 31) ∧ s.ready (.sysCsinv 1) ∧
    s.does (src 1) (BitVec.allOnes 64) s1 ∧ s.ready (.sysQflush 31) ∧ s.ready .sysTabclr ∧ s.does (dirEntry 1) (some ⟨0, 16, 0, 64, false⟩) u2 :=
  ⟨framed (State.with onA 1 (BitVec.allOnes 64)), _, _, _, 1, both, both, acts, straight, both,
    yes, both, both, gives, both, both, gives⟩

/-- Table 5.13's example: core 17 stands at column 1, row 27 of its die's mesh. -/
theorem test_mesh : meshOf 17 = (1, 27) := by decide +kernel

/-! ### Joint instructions, handlers and strands -/

/-- `framed onA` with the X half waiting at its joint unit. -/
def paired (s : State) : State := s.put fun c => { c with strX := { c.strX with joint := true } }

theorem witness_FirstHalfWaits : ∃ s u : State, s.ready .done ∧ s.ready (.calld 27 0xFFF) ∧ s.ready (.taild 31 0) ∧ s.ready (.susp 0) ∧
    (s.core.str s.cur.stream.other).joint = false ∧ s.str.joint = false ∧ u.ready .commit ∧ u.str.joint = true ∧
    (u.core.str u.cur.stream.other).joint = false :=
  ⟨onA, onA.put fun c => { c with strA := { c.strA with joint := true } }, both, both, both, both, rfl, rfl, both,
    rfl, rfl⟩

theorem witness_RegionsRestart : ∃ s s1 : State, s.does releaseStores () s1 ∧ s.core.sbuf ≠ [] ∧ ∃ c : Core, ∃ k, c.ckpt = some k :=
  ⟨(mapped onA).put fun c => { c with sbuf := [held 1 0x1000 5] }, _, acts, yes,
    Core.reset.checkpoint none, _, rfl⟩

/-- R170, R171: the stores of a region are released at its end, and discarded when it restarts. -/
theorem test_regions : (leads (exec .commit ((paired (mapped onA)).put fun c => { c with sbuf := [held 1 0x1000 5] })) (fun t =>
    t.core.sbuf.isEmpty && t.core.inflight.length == 1 && t.core.strA.off == 4 && t.core.strX.off == 4 && !t.core.strX.joint) &&
    (({ Core.reset with rcount := 255 } : Core).checkpoint none).rcount == 0) = true := by decide +kernel

/-- `running i` with register 0 at 1, frames and a directory, the X half waiting. -/
def meeting (i : Instr) : State := paired (framed (State.with (running i) 0 1))

/-- `meeting i` after the commit point of its joint unit. -/
def met (i : Instr) : State := (meeting i).put fun c => c.checkpoint none

theorem witness_JointUnits : ∃ s c0 s1 s2 s3 s4 t : State, ∃ ent m code, (s.core.str s.cur.stream.other).joint = true ∧ s.does commitPoint () c0 ∧
    s.ready (.calld 0 0) ∧ s.does (jointChecks true) () s ∧ c0.core.curCode = some code ∧
    (code.landing 0).isSome ∧ c0.does handleOperand 1 c0 ∧ c0.does (dirEntry 1) (some ent) s1 ∧
    s1.does (checkSpan (c0.core.fp - BitVec.ofNat 64 ent.frame) 16) m s2 ∧ s2.does drainTokens () s3 ∧
    s3.does (writeSpan m (c0.core.fp - BitVec.ofNat 64 ent.frame) 16
      (0 * 2 ^ 20 + (c0.core.cur.map (·.handle)).getD 0 + c0.core.fp.toNat * 2 ^ 64)) () s4 ∧
    s4.does (enterTarget 1 0 ent (c0.core.fp - BitVec.ofNat 64 ent.frame)) () t :=
  ⟨meeting (.calld 0 0), met (.calld 0 0), _, _, _, _, _, ⟨0, 16, 0, 64, false⟩, true, codeOf (.calld 0 0), rfl, both, both,
    both, yes, yes, both, gives, gives,
    acts, acts, acts⟩

/-- A frame of `met` whose first word names a landing, the caller of a RETD. -/
def calling (i : Instr) : State := (meeting i).put fun c => { c with scratch := c.scratch.write 0x10000 8 1 }

theorem witness_JointUnits_leave : ∃ s c0 s1 s2 s3 t d1 d2 d3 : State, ∃ ent, s.ready .retd ∧ s.does (jointChecks true) () s ∧
    s.does commitPoint () c0 ∧ c0.does drainTokens () s1 ∧ s1.does (loadSpan s1.core.fp 16) 1 s2 ∧
    s2.does (dirEntry 1) (some ent) s3 ∧ s3.does (enterTarget 1 0 ent (BitVec.ofNat 64 (1 / 2 ^ 64))) () t ∧
    (meeting .done).ready .done ∧ (meeting .done).does (jointChecks true) () (meeting .done) ∧ (met .done).does drainTokens () d1 ∧
    d1.does settle () d2 ∧ d2.dev.arcOf 0 0 = none ∧ d2.does (retire 0) () d3 ∧ (meeting .commit).ready .commit ∧
    (meeting .commit).does (jointChecks false) () (meeting .commit) :=
  ⟨calling .retd, _, _, _, _, _, _, _, _, ⟨0, 16, 0, 64, false⟩, both, both, acts, acts,
    gives, gives, acts, both, both, acts,
    acts, yes, acts, both, both⟩

theorem witness_JointUnits_susp : ∃ s1 s2 t u1 u2 u3 u4 u5 : State, ∃ w m, (meeting (.susp 0)).ready (.susp 0) ∧
    (meeting (.susp 0)).does (jointChecks true) () (meeting (.susp 0)) ∧ (met (.susp 0)).core.curCode = some (codeOf (.susp 0)) ∧
    (codeOf (.susp 0)).landing 0 = some (0, 0) ∧ (met (.susp 0)).does drainTokens () s1 ∧ (met (.susp 0)).core.nest = 0 ∧ s2 = s1 ∧
    s2.does (suspend .ready (((met (.susp 0)).core.cur.map (·.handle)).getD 0) 0 (met (.susp 0)).core.fp none) () t ∧
    (meeting (.taild 0 0)).ready (.taild 0 0) ∧ (met (.taild 0 0)).does handleOperand 1 (met (.taild 0 0)) ∧
    (met (.taild 0 0)).does (dirEntry 1) (some ⟨0, 16, 0, 64, false⟩) u1 ∧ u1.does (loadSpan (met (.taild 0 0)).core.fp 16) w u2 ∧
    u2.does (checkSpan ((met (.taild 0 0)).core.fp + 0#64 - 16#64) 16) m u3 ∧ u3.does drainTokens () u4 ∧
    u4.does (writeSpan m ((met (.taild 0 0)).core.fp + 0#64 - 16#64) 16 w) () u5 :=
  ⟨_, _, _, _, _, _, _, _, 0, true, both, both, yes, yes, acts, yes,
    rfl, acts, both, both, gives, gives,
    gives, acts, acts⟩

/-- An archipelago of the one core 0. -/
def alone : Archipelago := { id := 3, pkg := 0, launch := 1, barriers := Vector.replicate 4 PodBarrier.reset, islands := [⟨0, 0, 0, 0, [0], [0x40], [], false⟩] }

/-- Core 0, its member, at its DONE. -/
def ganged : State := { meeting .done with dev := { (meeting .done).dev with arcs := [alone] } }

theorem witness_JointUnits_rest : ∃ s c0 s1 s2 t g c1 g1 g2 u : State, ∃ o arc i j, s.ready (.susp 0) ∧ s.does (jointChecks true) () s ∧ s.does commitPoint () c0 ∧
    c0.core.curCode = some (codeOf (.susp 0)) ∧ (codeOf (.susp 0)).landing 0 = some o ∧ c0.does drainTokens () s1 ∧ c0.core.nest ≠ 0 ∧ s1.does tornHere false s1 ∧
    s1.does (setStrand c0.core.strand.toNat fun x => { x with handle := 1, landing := 0, frame := c0.core.fp }) () s2 ∧
    s2.does (enterLanding (codeOf (.susp 0)) 1 0 o) () t ∧ g.ready .done ∧ g.does (jointChecks true) () g ∧ g.does commitPoint () c1 ∧
    c1.does drainTokens () g1 ∧ g1.does settle () g2 ∧ g2.dev.arcOf 0 0 = some (arc, i, j) ∧ g2.does (holdEnd arc i j 0) () u :=
  ⟨(meeting (.susp 0)).put fun c => { c with nest := 1 }, _, _, _, _, ganged, _, _, _, _, (0, 0), alone, 0, 0, both, both, acts,
    yes, yes, acts, yes, still tornHere_readOnly (by decide +kernel), acts, acts, both,
    both, acts, acts, acts, yes, acts⟩

/-- Core 0 in a handler at its SUSP, its strand one of a launch torn down. -/
def tornNested : State := ((meeting (.susp 0)).put fun c => { c with nest := 1 }).putPkg fun x => { x with
  sched := { x.sched with
    launches := [{ launchOf 0 5 1 0 with torn := true }]
    strands := [{ blankStrand 0x40 1 0 0 0 with state := .running, onCore := some 0 }] } }

theorem witness_JointUnits_torn : ∃ c0 s1 t : State, tornNested.ready (.susp 0) ∧ tornNested.does (jointChecks true) () tornNested ∧
    tornNested.does commitPoint () c0 ∧ c0.core.curCode = some (codeOf (.susp 0)) ∧ (codeOf (.susp 0)).landing 0 = some (0, 0) ∧
    c0.does drainTokens () s1 ∧ c0.core.nest ≠ 0 ∧ s1.does tornHere true s1 ∧ s1.does (suspensionPoint (pure ())) () t :=
  ⟨_, _, _, both, both, acts, yes, yes, acts, yes, still tornHere_readOnly (by decide +kernel), acts⟩

/-- The handler that a TRAP of `running .eret` has entered, at its ERET with both halves. -/
def handling : State := paired ((framed (running .eret)).after (exception .break_ 0xFFFF 0 false))

/-- Its frame pointer's trap frame. -/
def trapFrame : Nat := scratchBase + 0x10000 - 0x1900

theorem witness_JointUnits_eret : ∃ c0 s1 s2 s3 : State, ∃ v ent code, handling.ready .eret ∧ handling.does commitPoint () c0 ∧
    c0.does (loadSpan c0.core.fp 16) (0x0000000100000000 + trapFrame * 2 ^ 64) s1 ∧ trapFrame < 2 ^ 64 ∧
    s1.does (loadSpan (BitVec.ofNat 64 trapFrame) 0x1900) v s2 ∧ s2.does (dirEntry (natBits (bytesAt v 0x1D8 8) 51 32)) (some ent) s3 ∧
    residentForm c0.core s3.pkg.ctl ent.digest (formOf (bytesAt v 0x1D8 8)) = some code ∧
    trapFrameBad v (some code) (c0.core.returned v (BitVec.ofNat 64 trapFrame)) = false :=
  ⟨_, _, _, _, _, ⟨0, 16, 0, 64, false⟩, codeOf .eret, ready, acts, gives, yes,
    goes 0, gives, yes, yes⟩

/-- `handling` whose trap frame names a form of the code that is not resident, its strand on the core. -/
def formless : State := (handling.put fun c => { c with scratch := (c.scratch.write 0xE8DF 1 0xFE).write 0xE8E7 1 0xFE }).putPkg fun x =>
  { x with sched := { x.sched with strands := [{ blankStrand 0x40 1 0 0 0 with state := .running, onCore := some 0 }] } }

/-- The trap frame it reads. -/
def formlessWord : Nat := val ((formless.after commitPoint).after (loadSpan (formless.after commitPoint).core.fp 16)) (loadSpan (BitVec.ofNat 64 trapFrame) 0x1900) 0

theorem witness_JointUnits_formless : ∃ c0 s1 s2 s3 s4 t : State, ∃ ent x, formless.ready .eret ∧ formless.does (jointChecks true) () formless ∧
    formless.does commitPoint () c0 ∧
    c0.does (loadSpan c0.core.fp 16) (0x0000000100000000 + trapFrame * 2 ^ 64) s1 ∧ trapFrame < 2 ^ 64 ∧
    s1.does (loadSpan (BitVec.ofNat 64 trapFrame) 0x1900) formlessWord s2 ∧
    s2.does (dirEntry (natBits (bytesAt formlessWord 0x1D8 8) 51 32)) (some ent) s3 ∧
    residentForm c0.core s3.pkg.ctl ent.digest (formOf (bytesAt formlessWord 0x1D8 8)) = none ∧
    trapFrameBad formlessWord none (c0.core.returned formlessWord (BitVec.ofNat 64 trapFrame)) = false ∧
    s3.does (findStrand 0x40) (some x) s3 ∧ x.illegal = false ∧
    (s3.put fun c => { c with mode := .fetching (natBits (bytesAt formlessWord 0x1D8 8) 51 32) 4097 }).does
      (beginSearch 0x40 s3.cur.core (natBits (bytesAt formlessWord 0x1D8 8) 51 32) ent (some (formOf (bytesAt formlessWord 0x1D8 8)))) () s4 ∧
    s4.does (setStrand 0x40 fun s => { s with state := .suspCode }) () t :=
  ⟨_, _, _, _, _, _, ⟨0, 16, 0, 64, false⟩, { blankStrand 0x40 1 0 0 0 with state := .running, onCore := some 0 }, ready,
    still (jointChecks_readOnly _) (by decide +kernel), acts, gives,
    yes, goes 0, gives, yes, yes, still (findStrand_readOnly _) (by decide +kernel), rfl, acts, acts⟩

/-- R174, R177: ERET after a TRAP takes the core back to where it was, in the mode it had. -/
theorem test_trap_and_back : leads (exec .eret handling) (fun t => t.core.fp == (framed onA).core.fp && t.core.nest == 0 &&
    t.core.strA == ⟨0, none, false⟩ && t.core.sMode == handling.core.pMode) = true := by decide +kernel

/-! ### Spawns and commands -/

theorem witness_SpawnMakesStrand : ∃ s s0 s1 s2 s3 s4 s5 : State, ∃ h va blk st, s.ready (.spawn 0 1 2) ∧ s.does commitPoint () s0 ∧
    s0.does (src 1) h s1 ∧ s1.does (src 2) va s2 ∧ va.toNat % 64 = 0 ∧ s2.does (loadSpan va 64) blk s3 ∧ s3.does (spawn h blk) st s4 ∧
    s4.does (dst 0 (BitVec.ofNat 64 st)) () s5 ∧ s5.straight .seq ∧ spawnBlockOk 1 = false ∧ spawnBlockOk blk = true ∧
    (framed onA).does (dirEntry 1) (some ⟨0, 16, 0, 64, false⟩) ((framed onA).after (dirEntry 1)) ∧
    (framed onA).does (dirEntry 0) none ((framed onA).after (dirEntry 0)) ∧ 47 < natBits (bytesAt (63 * 2 ^ 320) 0x28 8) 5 0 :=
  ⟨framed (State.with (State.with onA 1 1) 2 (BitVec.ofNat 64 (scratchBase + 0x3FFC0))), _, _, _, _, _, _, 1, _, 0, _, both, acts,
    gives, goes 0, yes, gives, goes 0,
    acts, straight, yes, yes, gives, gives,
    yes⟩

/-- The words of a shape object of one byte. -/
def shape1 : List Word := [0x000004015A534831, 1, 0, 1, 0, 0, 0, 1, 0, 0, 0, 0]

/-- A sealed copy of it at VA 0. -/
def sealing : State := onA.put fun c => { c with
  shapes := [⟨0, 0, shape1⟩], scratch := (c.scratch.write 0 8 0x000004015A534831).write 8 8 1 |>.write 24 8 1 |>.write 56 8 1 }

theorem witness_CopyIssue : ∃ s s0 s1 s2 t1 t2 t3 f1 f2 : State, ∃ tok ft ws, s.ready (.copy 0 31 1 2) ∧ s.does commitPoint () s0 ∧
    s0.does (src 31) 0 s0 ∧ s0.does (src 1) 0x1000 s1 ∧ s1.does (src 2) 0x1000000 s2 ∧ (0x1000000 : Word).toNat ≤ 0x1000000 ∧
    s.does (checkWindows [spanAt 0x1000 0x1000000, spanAt 0 0x1000000]) () s ∧
    s2.does (startCommand .copy 0x72 [0, 0x1000, 0x1000000] [spanAt 0x1000 0x1000000, spanAt 0 0x1000000]) tok t1 ∧ t1.does (dst 0 tok) () t2 ∧
    t2.straight .seq ∧ s.ready (.cfill 0 31 1 31) ∧ s.does (instantToken 0) ft f1 ∧ f1.does (dst 0 ft) () f2 ∧ f2.straight .seq ∧
    s.ready (.copys 0 31 31 31) ∧ sealing.does (sealed 0) ws t3 ∧ (shapeOf ws).isSome ∧ s.ready (.shpmk 0 31) ∧ s.ready (.shpdel 31) :=
  ⟨(State.with (State.with onA 1 0x1000) 2 0x1000000), (State.with (State.with onA 1 0x1000) 2 0x1000000).put fun c => c.checkpoint none, _, _, _, _, _, _,
    _, 0, 0, shape1, both, both, both, gives, gives, by decide, both,
    gives, acts, straight, both, gives,
    acts, straight, both, gives, yes, both, both⟩

theorem witness_EngineIssue : ∃ s s0 s1 s2 s3 s4 u2 u3 u4 b2 b3 : State, ∃ raw tok w ft bt, s.ready (.bmv 0 31) ∧ s.ready (.blay 0 31) ∧ s.ready (.btab 0 31 1) ∧
    s.does commitPoint () s0 ∧ s0.does (src 31) 0 s1 ∧ s1.does (loadSpan 0 64) raw s2 ∧
    bankDescOk false (fun k => ((List.range 8).map fun k => BitVec.ofNat 64 (bytesAt raw (8 * k) 8)).getD k 0 |>.toNat) = false ∧
    s2.does (instantToken (statusWord .bankunit 1)) tok s3 ∧ s3.does (dst 0 tok) () s4 ∧ s4.straight .seq ∧ s1.does (src 1) w u2 ∧
    u2.does (startCommand .bank 0x6D [0, w] []) ft u3 ∧ u3.does (dst 0 ft) () u4 ∧ u4.straight .seq ∧ natBits w.toNat 31 16 ≠ 0 ∧
    natBits w.toNat 15 6 = 0 ∧ natBits w.toNat 63 32 = 0 ∧
    s.ready (.fxput 0 31 31 31) ∧ s.ready (.fxget 0 31 31 31) ∧ s.does (checkRemote (spanAt 0 0)) () s ∧ s.does (checkWindows [spanAt 0 0]) () s ∧
    s.does (startFabric 0x78 [0, 0, 0] (spanAt 0 0)) bt b2 ∧ s.ready (.fxred 0 31 31 1) ∧ fxredOk 0x10001 = true ∧ fxredOk 0 = true ∧
    s.does (startFabric 0x7A [0, 0, 0] (spanAt 0 8)) 0 b3 :=
  ⟨mapped (State.with onA 1 0x10000), _, _, _, _, _, _, _, _, _, _, 0, 0, 0x10000, 0, _, both, both, both, acts,
    gives, gives, yes, gives, acts,
    straight, gives, gives, acts, straight,
    yes, yes, yes, both, both, both, both, goes 0, both,
    yes, yes, gives⟩

/-- A command of an engine in flight, its token 0. -/
def commanded (k : Command) : State := (mapped onA).put fun c => { c with cmds := [k], tokens := [(0, ⟨.command, none⟩)] }

theorem witness_CommandsComplete : ∃ s s1 t : State, ∃ k st, s.core.cmds.find? (fun c => c.serial == 0 && c.engine == k.engine) = some k ∧
    (∀ x ∈ ownWrites s.dev s.cur.pkg s.cur.core, 0 ≤ x) ∧ k.engine = .copy ∧ s.does (runCopy k) st s1 ∧ s1.does (commandDone 0 st) () t ∧
    (∀ c, s1.core.cmds.find? (fun c => c.serial == 0) = some c → c.slot = some 0) :=
  ⟨commanded ⟨0, .copy, 0x74, some 0, 0, [0x1000, 5, 1]⟩, _, _, ⟨0, .copy, 0x74, some 0, 0, [0x1000, 5, 1]⟩, 0, yes,
    fun _ _ => Nat.zero_le _, rfl, gives, acts, fun c h => by
      have g : (((commanded ⟨0, .copy, 0x74, some 0, 0, [0x1000, 5, 1]⟩).after (runCopy ⟨0, .copy, 0x74, some 0, 0, [0x1000, 5, 1]⟩)).core.cmds.find?
        (fun c => c.serial == 0)).all (fun c => c.slot == some 0) = true := by decide +kernel
      rw [h] at g
      exact eq_of_beq g⟩

theorem witness_CommandsComplete_bank : ∃ s s1 u u1 w w1 t v : State, ∃ k st p, s.core.cmds.find? (fun c => c.serial == 0 && c.engine == .bank) = some k ∧
    k.op = 0x6D ∧ btabHeld k = none ∧ s.does (btabCheck k) (.ok none) s1 ∧ u.does (btabCheck k) (.error st) u1 ∧
    w.core.cmds.find? (fun c => c.serial == 0 && c.engine == .bank) = some p ∧ btabHeld p = some (0, []) ∧ w.does (commandDone 0 0) () w1 ∧
    u1.does (commandDone 0 st) () t ∧ (∃ x ∈ ownWrites v.dev v.cur.pkg v.cur.core, x < 2) :=
  let k : Command := ⟨0, .bank, 0x6D, some 0, 0, [0, 0x10002]⟩
  let p : Command := ⟨0, .bank, 0x6D, some 0, 0, [0, 0x10002, 0]⟩
  ⟨(commanded k).putPkg fun x => { x with ctl := { x.ctl with parts := [(0, part0)] } }, _, commanded k, _, commanded p, _, _,
    onA.put fun c => { c with inflight := [held 1 0x1000 5] }, k, bankStatus 9, p, yes, rfl, rfl,
    passes, fails, yes, rfl, acts, acts,
    yes⟩

/-- R281: a CFILL of one byte, once it completes. -/
theorem test_cfill : leads (exec (.copyCommandComplete 0) (commanded ⟨0, .copy, 0x74, some 0, 0, [0x1000, 5, 1]⟩)) (fun t =>
    t.core.cmds.isEmpty && findAt t.core.tokens 0 == some ⟨.command, some 0⟩ && val t (readBytes 0 0 true 0x1000 8) 1 == 5) = true := by
  decide +kernel

/-- A fabric command whose remote page another package holds, each of its messages acknowledged. -/
def remote (k : Command) : State := (commanded k).putPkg fun x => { x with
  home := { x.home with sliceBuf := cached { frame := 0, own := 0, apt := 1, pub := false, rap := true, cls := 3, size := 2 ^ 21 } }
  fabric := { x.fabric with apertures := [(1, ⟨true, false, 5, 0, 0, 0, false⟩)], routes := [(5, [5])], messages := [⟨0, 0, 1, 1, 0, 1⟩] } }

theorem witness_CommandsComplete_fabric : ∃ s s1 t : State, ∃ k st, k.engine = .fabric ∧ s.does (farPeer k) true s1 ∧
    (∃ m ∈ s.pkg.fabric.messages, m.of 0 0 = true) ∧ (s.pkg.fabric.messages.filter fun m => m.of 0 0).all NMsg.full = true ∧
    (s.putPkg fun x => { x with fabric := { x.fabric with messages := x.fabric.messages.filter fun m => !m.of 0 0 } }).does (runFabric k) st t :=
  ⟨remote ⟨0, .fabric, 0x78, some 0, 0, [0x1000, 0x2000, 1]⟩, _, _, ⟨0, .fabric, 0x78, some 0, 0, [0x1000, 0x2000, 1]⟩, _, rfl,
    gives, ⟨⟨0, 0, 1, 1, 0, 1⟩, .head _, rfl⟩, yes, goes 0⟩

/-- R367: a message of one packet at 20 microseconds is sent again; its acknowledgement counts its packet. -/
theorem test_narrows : (leads (exec (.narrowsRetransmit 0 0)
      { (remote ⟨0, .fabric, 0x78, some 0, 0, [0x1000, 0x2000, 1]⟩).putPkg fun x => { x with fabric := { x.fabric with messages := [⟨0, 0, 2, 1, 0, 1⟩] } } with
        time := 20000 }) (fun t => t.pkg.fabric.messages == [⟨0, 0, 2, 1, 20000, 2⟩]) &&
    leads (exec (.narrowsMessageAck 0 0 2)
      ((remote ⟨0, .fabric, 0x78, some 0, 0, [0x1000, 0x2000, 1]⟩).putPkg fun x => { x with fabric := { x.fabric with messages := [⟨0, 0, 2, 1, 0, 1⟩] } }))
      (fun t => t.pkg.fabric.messages == [⟨0, 0, 2, 3, 0, 1⟩])) = true := by decide +kernel

theorem witness_CommandsComplete_slots : ∃ s : State, ∃ k v w left, s.core.cmds.find? (fun k => k.serial == 0 && k.engine == .bank && k.op == 0x6D) = some k ∧
    k.args = [v, w, left] ∧ left.toNat / 2 ^ 0 % 2 = 1 ∧ s.does (slotNumber (natBits w.toNat 5 0)) (some 4) s :=
  ⟨(commanded ⟨0, .bank, 0x6D, some 0, 0, [0, 0x10002, 1]⟩).putPkg fun x => { x with ctl := { x.ctl with parts := [(0, part0)] } },
    ⟨0, .bank, 0x6D, some 0, 0, [0, 0x10002, 1]⟩, 0, 0x10002, 1, yes, rfl, yes, both⟩

/-! ### Archipelagos and pairs -/

/-- The one island of an archipelago of two cores, in a standing of ARCSTAT. -/
def islanded (st : Nat) : State :=
  let s := onA.put fun c => { c with strand := 0x40, arcstat := BitVec.ofNat 64 (st * 2 ^ 48) }
  { s with dev := { s.dev with arcs := [{ id := 3, pkg := 0, launch := 1, barriers := Vector.replicate 4 PodBarrier.reset, islands :=
    [{ pkg := 0, dom := 0, part := 0, frameBase := 0, cores := [0, 1], strands := [0x40, 0x80], held := [(0, 0), (1, 0)], departed := false }] }] } }

theorem witness_Archipelagos : ∃ s s0 s1 s2 s3 j0 j1 j2 j3 b0 b1 : State, ∃ arc i k, s.does commitPoint () s0 ∧ s0.does (src 31) 0 s1 ∧ s1.dev.arcOf 0 0 = none ∧
    s1.does (dst 0 1) () s2 ∧ s2.straight .seq ∧ s.core.lineWait = none ∧ s.ready (.arcJoin 0 31) ∧ s.ready (.arcLeave 0 31) ∧ s.ready (.arcBar 0 31) ∧
    (islanded 1).does commitPoint () j0 ∧ j0.does (src 31) 0 j1 ∧ j1.dev.arcOf 0 0 = some (arc, i, k) ∧ arcState j1.core.arcstat = 1 ∧
    j1.does (setArcstat (setField (setField j1.core.arcstat 49 48 2) 55 50 0)) () j2 ∧ j1.does (leaveArc arc.id) () j3 ∧
    (islanded 2).does commitPoint () b0 ∧ b0.does (src 31) 0 b1 ∧ arcState b1.core.arcstat = 2 ∧ b1.core.lineWait = none ∧
    s3 = (islanded 2).put (fun c => { c with lineWait := some (.podFired 3 9) }) ∧ s3.core.lineWait = some (.podFired 3 9) :=
  ⟨onA, _, _, _, _, _, _, _, _, _, _, (islanded 1).dev.arcs.getD 0 ⟨0, 0, 0, [], Vector.replicate 4 PodBarrier.reset⟩, 0, 0, acts,
    gives, yes, acts, straight, rfl, both, both, both,
    acts, gives, yes, yes, acts, acts,
    acts, gives, yes, yes, rfl, yes⟩

theorem witness_Archipelagos_events : ∃ s s2 t : State, ∃ arc i k isl d1 d2 d3, s.dev.arcOf 0 0 = some (arc, i, k) ∧
    s.core.lineWait = some (.podArriving 3 []) ∧
    (s.put fun c => { c with lineWait := some (.podCounted 3) }).does (modArc arc.id fun a => { a with
      barriers := a.barriers.setIfInBounds 3 { a.barriers.toList.getD 3 PodBarrier.reset with
        arrived := (a.barriers.toList.getD 3 PodBarrier.reset).arrived ++ [(i, k)] } }) () s2 ∧ s2.does (firePod arc.id 3) () t ∧
    arc.islands[i]? = some isl ∧ isl.cores.length = 2 ∧ isl.held = [(0, 0), (1, 0)] ∧
    (∀ o x, o ≠ i → arc.islands[o]? = some x → s.dev.islandLeft x = true) ∧ s.does (isl.held.forM (retireHeld isl)) () d1 ∧
    d1.does (modArc arc.id fun a => { a with islands := a.islands.set i { isl with held := [] } }) () d2 ∧ d2.does (departIsland arc.id i) () d3 ∧
    ownWrites s.dev s.cur.pkg s.cur.core = [] :=
  ⟨(islanded 2).put fun c => { c with lineWait := some (.podArriving 3 []) }, _, _,
    (islanded 2).dev.arcs.getD 0 ⟨0, 0, 0, [], Vector.replicate 4 PodBarrier.reset⟩, 0, 0, ⟨0, 0, 0, 0, [0, 1], [0x40, 0x80], [(0, 0), (1, 0)], false⟩, _, _, _, yes,
    yes, acts, acts, yes, rfl, rfl,
    (fun o x h e => by
      cases o with
      | zero => exact absurd rfl h
      | succ n => cases e), acts, acts, acts, yes⟩

/-- A C-slot half, the low half of a pair. -/
def lowHalf : Half := fields [(7, 0x10), (20, 4), (4, 0), (1, 0)]

/-- ADDI 1, 31, 5, the high half of a pair. -/
def highHalf : Half := fields [(7, 3), (5, 1), (5, 31), (14, 5), (1, 0)]

theorem witness_PairedHalves : ∃ s s0 s1 s2 : State, ∃ f g, s.core.mode = .running ∧ s.does (pairChecks lowHalf highHalf false) () s ∧ s.does (pairPre lowHalf) () s0 ∧
    s0.does (halfAct (decodeHalf lowHalf)) f s1 ∧ (∃ t, f = .br t) ∧
    (s1.put fun c => c.withSources s0.core).does (halfAct (decodeHalf highHalf)) g s2 ∧
    ((s2.put fun c => c.withWrites s0.core s1.core).str.advance 8 f).2 = none :=
  ⟨onA, _, _, _, .br (some 16), .seq, rfl, both, acts, gives, ⟨some 16, rfl⟩, gives,
    yes⟩

/-- ARC.BAR 2, 31, the low half of a pair. -/
def barHalf : Half := 0xF6000040 + fields [(5, 2), (5, 31), (15, 0)]

theorem witness_PairedHalves_wait : ∃ s0 s1 s2 : State, ∃ g, (islanded 2).core.mode = .running ∧
    (islanded 2).does (pairChecks barHalf highHalf false) () (islanded 2) ∧ (islanded 2).does (pairPre barHalf) () s0 ∧
    s0.does (halfAct (decodeHalf barHalf)) .wait s1 ∧ (s1.put fun c => c.withSources s0.core).does (halfAct (decodeHalf highHalf)) g s2 :=
  ⟨_, _, _, .seq, rfl, both, acts, gives, gives⟩

/-- R57: both halves perform; the branch counts two units. -/
theorem test_pair : leads (exec (.pair lowHalf highHalf false) onA) (fun t => t.reg 1 == 5 && t.core.strA == ⟨8, some ⟨2, some 16⟩, false⟩) = true := by
  decide +kernel

/-- Both streams at a unit that pops an empty queue; the handler's directory is in main memory. -/
def stuck : State :=
  (State.stored (State.stored (State.stored (State.stored (mapped (running (.add 0 28 28))) 0 dirMagic) 8 2) 0x60 0x1000000001) 0x70 64).put fun c =>
    { c with dirbase := 0, tvec := 1, fp := BitVec.ofNat 64 (scratchBase + 0x10000), cur := some { handle := 1, digest := 0, form := .native 255, key := 0 } }

theorem witness_QueueDeadlock : ∃ t : State, stuck.does (queueBlocked .A) true stuck ∧ stuck.does (queueBlocked .X) true stuck ∧ stuck.core.mode = .running ∧
    stuck.core.strA.joint = false ∧ stuck.core.loadsDone = true ∧
    stuck.does (exceptionOpen .qdeadlock (Config.openEaddr stuck.time stuck.core.serial)) () t ∧ onA.does (queueBlocked .A) false onA := by
  have h : runs stuck (exceptionOpen .qdeadlock (Config.openEaddr stuck.time stuck.core.serial)) = true := by
    have g : ∀ x : Bool, runs stuck (atCore 0 0 (if x then .X else .A) (exception .qdeadlock (Config.openEaddr stuck.time stuck.core.serial) 0 false)) = true := by
      intro x
      cases x <;> decide +kernel
    exact g (Config.jointXs 0 0)
  exact ⟨_, both, both, rfl, rfl, yes, acts h, both⟩

/-! ### The memory side and the fabric -/

/-- A posted reduction of core 0. -/
def posted0 : Posted := ⟨0, 0, 0, 0, 0, 0, 0, true, none, ⟨0x1000, 0, true, 5⟩⟩

theorem witness_HomeEvents : ∃ s s1 a t v w u : State, ∃ x x2, s.core.inflight.find? (fun x => x.serial == 0) = some x ∧
    storeDue s.core.inflight (ownPosted s.dev 0 0) x = true ∧ s.does (performStore x) () s1 ∧
    storeDue [⟨9, 0, 0x1000, 1, 0, none, 0, true⟩, x] [] x = false ∧ a.core.amons.find? (fun e => e.1 == 0) = some (0, posted0) ∧
    ((a.core.amons.filter fun e => homeSlice e.2.at_.va == homeSlice 0x1000).head?.map (·.1) = some 0) ∧
    (∀ x ∈ a.core.inflight, 0 ≤ x.serial ∨ x.va / 128 ≠ 32) ∧ a.pkg.home.clogged (homeSlice 0x1000) 0 = false ∧
    (a.pkg.home.counted (homeSlice 0x1000)).length < 512 ∧ v = (a.putPkg fun x => { x with home := { x.home with accepted := [posted0] } }) ∧
    v.pkg.home.accepted.find? (fun q => q.at_.va / 128 == 32) = some posted0 ∧
    (v.putPkg fun x => { x with home := { x.home with accepted := x.home.accepted.erase posted0 } }).does (performPosted posted0) () t ∧
    (hosted 0).does (runHome 0 0 (reach 0 0x1000)) x2 w ∧ (hosted 0).does (writeBytesNow 0 0 true 0 0x1000 8 5) () u ∧
    (hosted 0).pkg.hostReaches 0 0x1000 = true ∧
    (State.stored (hosted 0) 0x404040 (3 + 2 ^ 60)).stops (runHome 0 0 (freeWalk 0x8000)) (.raise .reservedBit 0) :=
  ⟨(mapped onA).put fun c => { c with inflight := [held 0 0x1000 5] }, _,
    (mapped onA).put fun c => { c with amons := [(0, posted0)] }, _, _, _, _, held 0 0x1000 5, _, yes,
    yes, acts, yes, yes, yes, fun _ _ => .inl (Nat.zero_le _),
    yes, yes, rfl, yes, acts, goes (.line (.entry 0)) (by decide +kernel),
    acts, yes, halts⟩

/-- A released store to a page of a peer that is lost, on a core that runs its strand. -/
def lostStore : State :=
  ((framed onA).put fun c => { c with inflight := [held 0 0x1000 5] }).putPkg fun x => { x with
    home := { x.home with sliceBuf := cached { frame := 0, own := 0, apt := 1, pub := false, rap := true, cls := 3, size := 2 ^ 21 } }
    fabric := { x.fabric with apertures := [(1, ⟨true, false, 5, 0, 0, 0, true⟩)] } }

/-- The same store of the strand that runs there. -/
def ownLost : State := (lostStore.put fun c => { c with inflight := [{ held 0 0x1000 5 with strand := 0x40 }] }).putPkg fun x => { x with
  sched := { x.sched with strands := [{ blankStrand 0x40 1 0 0 0 with state := .running, onCore := some 0 }] } }

/-- Its APERTURE is owed. -/
def owesLost : M Unit := modStrand 0x40 fun y => { y with owed := y.owed ++ [⟨.aperture, 0x1000, .A⟩] }

theorem witness_HomeEvents_lost : ∃ s1 s2 t : State, ∃ x y, lostStore.core.inflight.find? (fun x => x.serial == 0) = some x ∧
    storeDue lostStore.core.inflight (ownPosted lostStore.dev 0 0) x = true ∧ lostStore.stops (performStore x) (.raise .aperture 0x1000) ∧
    lostStore.core.strand.toNat ≠ x.strand ∧
    (lostStore.put fun c => { c with inflight := c.inflight.filter fun y => y.serial != 0 }).does
      (modStrand x.strand fun y => { y with owed := y.owed ++ [⟨.aperture, 0x1000, .A⟩] }) () s2 ∧
    ownLost.core.inflight.find? (fun x => x.serial == 0) = some y ∧ ownLost.core.strand.toNat = y.strand ∧
    ownLost.stops (performStore y) (.raise .aperture 0x1000) ∧
    (ownLost.put fun c => { c with inflight := c.inflight.filter fun y => y.serial != 0 }).does owesLost () s1 ∧ s1.does raiseOwed () t :=
  ⟨_, _, _, held 0 0x1000 5, { held 0 0x1000 5 with strand := 0x40 }, yes, yes, halts, by decide, acts, yes, yes, halts, acts, acts⟩

/-- R369: a released store whose peer is lost is dropped, and its own strand takes APERTURE where it runs. -/
theorem test_lost_store : (leads (exec (.storePerform 0) lostStore) (fun t => t.core.inflight.isEmpty && t.core.cause == lostStore.core.cause) &&
    leads (exec (.storePerform 0) ownLost) (fun t => t.core.inflight.isEmpty && t.core.cause.toNat == Cause.aperture.code &&
      t.core.eaddr == 0x1000)) = true := by decide +kernel

/-- A deferred operation of domain 1. -/
def deferred (c : Cause) : Deferred := ⟨none, ⟨0x1000, 0, true, 5⟩, c, 0, 0, 0, 0, 1, none⟩

/-- One that is dropped. -/
def dropped : Deferred := deferred .poison

theorem witness_HomeEvents_rest : ∃ s i1 i2 i3 t d1 : State, ∃ i d w, (lookupD DefRing.reset s.pkg.home.defRings 1).open_.find?
      (fun e => e.1 == (lookupD DefRing.reset s.pkg.home.defRings 1).head) = some (i, d) ∧ d.cause ≠ .translate ∧ d.cause ≠ .owner ∧
    s.pkg.home.keptFor 1 = none ∧ s.does (dropDeferred d) () d1 ∧ (s.putPkg fun x => { x with home := { x.home with lostRefs := [] } }).does
      (runHome 0 0 (s.pkg.home.lostRefs.forM releaseEntry)) () t ∧ s.pkg.home.invals.find? (fun i => i.id == 4) = some w ∧
    s.does (s.pkg.cores.forM fun c => atCore s.cur.pkg c.1 .A (settleCommands w.lo w.hi)) () i1 ∧
    i1.does (runHome 0 0 (dropTranslations w.lo w.hi)) () i3 ∧ (∀ c ∈ s.pkg.cores, ∀ k ∈ c.2.cmds, k.writing = false) ∧ findAt s.pkg.ctl.jobs 4 = none ∧
    (s.putPkg fun x => { x with ctl := { x.ctl with jobs := [(4, .command 1 0 0)] } }).does (postEvent 1 { blankEvent 6 with ring := 0, index := 0 }) () i2 :=
  ⟨(hosted 0).putPkg fun x => { x with home := { x.home with
      defRings := [(1, { base := 0, len := 64, tail := 1, head := 0, open_ := [(0, dropped)] })]
      lostRefs := [7], invals := [⟨4, 0x1000, 0x2000⟩] } }, _, _, _, _, _, 0, dropped, ⟨4, 0x1000, 0x2000⟩,
    yes, by decide, by decide, yes, acts, acts, yes,
    acts, acts, yes, yes, acts⟩

theorem witness_HomeEvents_report : ∃ s1 s2 t : State, ∃ r, r = { base := 0, len := 64, tail := 1, head := 0, open_ := [(0, deferred .owner)] : DefRing } ∧
    ((hosted 0).putPkg fun x => { x with home := { x.home with defRings := [(1, r)], overflow := [(3, [dropped])] } }).does
      (openReport .owner 0x1000 0x1000 1 0 (.deferred 0)) 0 s1 ∧
    s1.does (setDefRing 1 { r with head := 1, open_ := [(0, { deferred .owner with report := some 0 })] }) () s2 ∧
    s2.pkg.home.keptFor 1 = some (3, dropped) ∧
    (s2.putPkg fun x => { x with home := { x.home with
      overflow := insertD [] x.home.overflow 3 ((x.home.kept 3).erase dropped) } }).does (pushDeferred dropped) () t :=
  ⟨_, _, _, _, rfl, gives, acts, yes, acts⟩

/-- R314: a walk of five levels, its line and its line of the translation cache, and a page that is not mapped. -/
theorem test_walk : (leads (exec (.hostMemAccess ⟨0, true⟩ 0x1FF8 7) (hosted 0)) (fun t => val t (readBytes 0 0 true 0x1FF8 8) 0 == 7 &&
      t.pkg.home.tags.length == 2 && t.pkg.home.walkCache.length == 4) &&
    !runs (hosted 0) (readBytes 0 0 true 0x8000 8)) = true := by decide +kernel

/-- A clean tag and a dirty one. -/
def tagged (dirty : Bool) : State := (hosted 0).putPkg fun x => { x with home := { x.home with tags :=
  [{ line := 32, pa := 0x1000, scope := 1, part := 0, wdom := 1, dirty := dirty, cls := 3, qpos := 0, dptr := 0, way := 0 }] } }

theorem witness_ErrorEvents : ∃ s t u v : State, ∃ tag dtag, (tagged false).pkg.home.tags.find? (fun t => t.line == 32) = some tag ∧ tag.dirty = false ∧
    (tagged true).pkg.home.tags.find? (fun t => t.line == 32) = some dtag ∧ dtag.dirty = true ∧
    ((tagged true).putPkg fun x => { x with home := { x.home with
      tags := x.home.tags.filter fun t => t.line != 32, lostRefs := x.home.lostRefs ++ [dtag.dptr] } }).does
      ((lookupD [] (tagged true).pkg.home.dirtyBits (homeSlice (128 * 32))).forM stopDomain) () u ∧ hbmBytes - 8 + 8 ≤ hbmBytes ∧
    scratchBytes - 1 < scratchBytes ∧ onA.core.mode ≠ .idle ∧ onA.does (retireFault Cause.poison.code) () t ∧ onA.core.store[0]? = some nopCode ∧
    onA.does (storePoisoned nopCode) () v ∧ s.pkg.sched.pool[0]? = some ⟨0, 64, 0⟩ :=
  ⟨onA.putPkg fun x => { x with sched := { x.sched with pool := [⟨0, 64, 0⟩] } }, _, _, _, _, _, rfl, rfl, rfl, rfl, acts, by decide, by decide,
    yes, acts, yes, acts, yes⟩

/-- `alone` whose one end is held. -/
def heldArc : Archipelago := { alone with islands := [⟨0, 0, 0, 0, [0], [0x40], [(0, 0)], false⟩] }

/-- `ganged` at its DONE, in a standing. -/
def gangIn (m : Mode) : State := ganged.put fun c => { c with mode := m }

/-- Its island holds the end. -/
def gangHeld : State := { gangIn .held with dev := { (gangIn .held).dev with arcs := [heldArc] } }

theorem witness_ErrorEvents_gang : ∃ t u s1 s2 v : State, ∃ isl, (gangIn (.stopped none)).does
      (modStrand (gangIn (.stopped none)).core.strand.toNat fun x => { x with ending := some Cause.poison.code }) () t ∧
    (gangIn (.stopped none)).dev.arcOf 0 0 ≠ none ∧ gangHeld.core.mode = .held ∧ gangHeld.dev.arcOf 0 0 = some (heldArc, 0, 0) ∧
    heldArc.islands[0]? = some isl ∧ (isl.held.any fun q => q.1 == 0) = true ∧ gangHeld.does (dropHeld 3 0 0) () s1 ∧
    s1.does (endHere Cause.poison.code) () s2 ∧ s2.does (departWith gangHeld.core.strand.toNat) () u ∧
    (gangIn .held).dev.arcOf 0 0 = some (alone, 0, 0) ∧ onA.does (retireFault Cause.poison.code) () v ∧
    State.reset.pkg.home.l1Owner 0 (5 / 128) = 0 :=
  ⟨_, _, _, _, _, _, acts, yes, rfl, yes, rfl, yes, acts, acts, acts, yes, acts, yes⟩

/-- R413: an error in a held register retires its strand and its island departs; a corrected one is counted. -/
theorem test_errors : (leads (exec (.dataError 3 0) gangHeld) (fun t => t.dev.arcs.all (fun a => a.islands.all (·.departed)) && t.core.mode == .idle) &&
    leads (exec (.dataError 5 0) onA) (fun t => t.pkg.service.corrected == 1)) = true := by decide +kernel

theorem witness_FabricTables : (0x1000 * 0 % 4096 = 0 ∧ (1 : Nat) ≠ 0 ∧ windowBase - 4096 + 4096 * 1 ≤ windowBase) ∧
    (State.reset.pkg.fabric.regions.any fun r => r.key == 5) = false ∧ natBits 1 0 0 = 1 ∧ natBits 9 3 1 ≤ 4 := by decide +kernel

/-- A group of one contribution whose round goes to its parent. -/
def grouped (n : Nat) : State := (hosted 0).putPkg fun x => { x with fabric := { x.fabric with
  groups := [(2, { Group.reset with valid := true, parent := 5, dom := 1, deliv := 0x1000 })]
  contribs := List.replicate n ⟨2, 8, ⟨0, 0, 0, 1, 0, 0, 0, true, none, ⟨0x1008, 9, false, 0x3F800000⟩⟩, false⟩, deliveries := [⟨2, 8, 0x3F800000⟩] } }

theorem witness_FabricEvents : ∃ t : State, ∃ g d, lookupD Group.reset (grouped 0).pkg.fabric.groups 2 = g ∧ (0 : Nat) < g.contrib ∧ g.valid = true ∧
    g.root = false ∧ g.contrib ≤ ((grouped 1).pkg.fabric.contribs.filter fun c => c.group == 2 && c.elem == 8 && !c.closed).length ∧ g.nchild = 0 ∧
    (grouped 1).pkg.fabric.deliveries.find? (fun d => d.group == 2 && d.elem == 8) = some d ∧
    (grouped 1).does (slicedWrite g.dom (g.deliv + 8) 4 (roundFinish g.fmt d.value)) () t :=
  ⟨_, _, ⟨2, 8, 0x3F800000⟩, rfl, yes, yes, yes, yes, yes, yes,
    acts⟩

/-- `grouped 1` whose route towards the parent lies over a link that is fenced. -/
def cutOff : State := (grouped 1).putPkg fun x => { x with
  fabric := { x.fabric with routes := [(5, [Config.linkPeer 0 3])] }, service := { x.service with links := [3] } }

theorem witness_FabricEvents_routes : (1 : Nat) ≤ (cutOff.pkg.fabric.contribs.filter fun c => c.group == 2 && c.elem == 8 && !c.closed).length ∧
    cutOff.stops (waitForRoute 5) .block ∧ (grouped 1).does (waitForRoute 5) () (grouped 1) := by
  refine ⟨yes, ?_, both⟩
  have g : (cutOff.pkg.hops 0 5).isEmpty = true := by
    have e : cutOff.pkg.hops 0 5 = [Config.linkPeer 0 3].filter fun h => !([3].any fun l => Config.linkPeer 0 l == peerOf 0 h) := rfl
    rw [e]
    simp [peerOf]
  have e : (waitForRoute 5 cutOff.env).run cutOff.dev =
      ((if !false && (cutOff.pkg.hops 0 5).isEmpty then block else pure ()) cutOff.env).run cutOff.dev := rfl
  unfold State.stops
  rw [e, g]
  rfl

/-- A strand launch of domain 1: handle 1, completion record at 0x1000. -/
def launchStrand1 : VReg := dwords [(0, 2 ^ 14), (1, 1), (2, 0x1000)]

/-- A launch packet of 160 bytes with it. -/
def packet : Nat := 0x5A524C31 + 7 * 2 ^ 64 + 9 * 2 ^ 128 + launchStrand1.toNat * 2 ^ 256

/-- A package with a registered region under the packet's key. -/
def racked : State := (hosted 0).putPkg fun x => { x with fabric := { x.fabric with regions := [⟨9, 1, 0, 8, false⟩] } }

theorem witness_FabricEvents_packet : ∃ s1 s2 s3 s4 s5 t p1 p2 p3 : State, ∃ x a r id h, racked.pkg.ctl.packetCtx 0 1 = some 1 ∧
    findAt racked.pkg.ctl.ctxs 1 = some x ∧ x.evWaiting = [] ∧ x.plugin = false ∧ natBits (bytesAt packet 0 8) 37 32 = 0 ∧
    racked.does (modServing 0 fun k => { k with mode := .s }) () s1 ∧ s1.does (validatePacket 1 0 3 packet) (.ok a) s2 ∧ a.rack = some (3, 7) ∧
    (let heard := s2.putPkg fun y => { y with ctl := { y.ctl with rackSeq := setAt y.ctl.rackSeq 3 7 } }
     heard.does (idleCores a.launch.part) 4 heard ∧ heard.does (readyItems a.launch.part) 0 heard ∧ heard.does (reportHandle a.launch) h s3) ∧
    s3.does (residence 1 h) r s4 ∧ s4.does (acceptLaunch a) id s5 ∧ (hosted 0).pkg.ctl.packetCtx 1 1 = none ∧
    (hosted 0).does (rackReport (launchOf 0 0 0 1) 3 7 (some 4) (pure 0)) () t ∧ (hosted 0).does (modServing 0 fun k => { k with mode := .s }) () p1 ∧
    p1.does (validatePacket 1 0 3 packet) (.error 16) p2 ∧ p2.does (refuseRack (launchOf (bytesAt packet 0x20 128) 1 0 0) 3 7 16) () p3 :=
  ⟨_, _, _, _, _, _, _, _, _, (findAt racked.pkg.ctl.ctxs 1).getD HostCtx.reset,
    { accepted racked 1 0 0 (bytesAt packet 0x20 128) with rack := some (3, 7) }, (0, 0), 0, 1, yes, yes, yes,
    yes, yes, acts, passes, rfl,
    ⟨still (by refine readOnly_bind readOnly_thePkg fun x => ?_; dsimp only; split <;> exact readOnly_pure _) (by decide +kernel),
      still (readOnly_bind readOnly_thePkg fun _ => readOnly_bind readOnly_thePkg fun _ => readOnly_pure _) (by decide +kernel),
      gives⟩,
    gives, gives, yes, acts, acts,
    fails, acts⟩

/-- A mailbox entry at 0x2000 for the page at 0x1000. -/
def mailed (kind : Nat) : State :=
  (State.stored (State.stored (State.stored (hosted 0) 0x2000 (kind)) 0x2008 0x1000) 0x2010 1).putPkg fun x =>
    { x with ctl := { x.ctl with freeFrames := (List.range 64).map fun k => 0x800 + k } }

theorem witness_FabricEvents_mail : ∃ s1 s2 s3 s4 s5 s6 r1 r2 r3 r4 : State, ∃ ls far freed ls', (mailed 1).does (readMail 1) (some (⟨1, 0, 0x1000, 1, 0⟩, true)) s1 ∧
    s1.does (mailLeaves 1 ⟨1, 0, 0x1000, 1, 0⟩) (some ls) s2 ∧ 1 ≤ (s2.pkg.ctl.freeFrames.filter fun f => frameStack f == 0).length ∧
    s2.does (peerPages ls) (some far) s3 ∧ s3.does (startInvalidation 0x1000 0x2000 .plain) () s4 ∧ s4.does (far.mapM (movePage 0)) freed s5 ∧
    s5.does ((freed.filterMap fun f => f.map (·.1)).eraseDups.forM fun p => runHomeAt p 0 0 (invalidateRange 0x1000 0x2000)) () s6 ∧
    (mailed 2).does (readMail 1) (some (⟨2, 0, 0x1000, 1, 0⟩, true)) r1 ∧ r1.does (mailLeaves 1 ⟨2, 0, 0x1000, 1, 0⟩) (some ls') r2 ∧
    r2.does (startInvalidation 0x1000 0x2000 (.mailbox 1 0 [])) () r3 ∧
    r3.does (ls'.forM fun l => writeTable l.2.1 8 (if natBits l.2.2.1 5 5 == 1 then l.2.2.1 else l.2.2.1 + 2 ^ 5)) () r4 :=
  ⟨_, _, _, _, _, _, _, _, _, _, [(0x1000, 0x404008, 3 + 2 ^ 13 + 3 * 2 ^ 3 + 2 ^ 26, 1)], [], [], [(0x1000, 0x404008, 3 + 2 ^ 13 + 3 * 2 ^ 3 + 2 ^ 26, 1)],
    gives, gives, yes,
    picked (fun w => match w with
      | some [] => true
      | _ => false) (fun w hw => by
        split at hw
        · rfl
        · cases hw) (by decide +kernel), acts, gives,
    acts, gives, gives, acts, acts⟩

/-- A strand of domain 1 at record 0x5000. -/
def strand1 : Strand := blankStrand 0x5000 1 1 0 0

/-- Core 0 to which a strand of core 1 has been restored, one message of its domain parked there. -/
def back (x : Strand) : State := ((hosted 0).put fun c => { c with mode := .restored, strand := 0x5000 }).putPkg fun y => { y with
  sched := { y.sched with strands := [{ x with savedAt := some 1, state := .preempted }] }
  cores := insertD Core.reset y.cores 1 { Core.reset with inbox := [⟨true, 0, 0, 1, 7⟩, ⟨false, 0, 0, 1, 8⟩] } }

/-- Its parked messages follow it, and its record no longer names the place where it was saved. -/
def follow (s : State) (st : StrandState) : M Unit := do
  let mine (m : Message) : Bool := m.parked && m.dom == 1
  modCoreAt s.cur.pkg 1 fun y => { y with inbox := y.inbox.filter fun m => !mine m }
  modCore fun y => { y with inbox := y.inbox ++ ((s.pkg.core 1).inbox.filter mine).map fun m => { m with parked := false } }
  setStrand 0x5000 fun y => { y with
    savedAt := none, kept := none, illegal := false, hostStop := false, ending := none, state := st }

theorem witness_FabricEvents_parked : ∃ s1 s2 t e f i j k : State, ∃ x, (back strand1).core.mode = .restored ∧
    (back strand1).does (findStrand 0x5000) (some x) (back strand1) ∧ x.savedAt = some 1 ∧ x.kept = none ∧ x.ending = none ∧ x.illegal = false ∧
    (back strand1).does (follow (back strand1) .running) () s1 ∧ s1.does runOn () s2 ∧ s2.does raiseOwed () t ∧
    (back { strand1 with ending := some 7 }).does (follow (back { strand1 with ending := some 7 }) .running) () e ∧
    (e.put fun y => { y with mode := .running }).does (retireFault 7) () f ∧
    (back { strand1 with illegal := true }).does (follow (back { strand1 with illegal := true }) .running) () i ∧
    (i.put fun y => { y with mode := .running }).does (exceptionOpen .illegal 0) () j ∧
    (back strand1).does (follow (back strand1) .suspInput) () k :=
  ⟨_, _, _, _, _, _, _, _, { strand1 with savedAt := some 1, state := .preempted }, rfl, still (findStrand_readOnly _) yes, rfl, rfl, rfl, rfl, acts, acts, acts, acts, acts, acts,
    acts, acts⟩

/-- R181, R182: the parked message follows its strand, and the other of its domain stays. -/
theorem test_parked : leads (exec .parkedMessageForward (back strand1)) (fun t => t.core.inbox == [⟨false, 0, 0, 1, 7⟩] && t.core.mode == .running &&
    (t.pkg.core 1).inbox == [⟨false, 0, 0, 1, 8⟩]) = true := by decide +kernel

/-! ### Service life and the host -/

/-- Die 0 with two points, the lower one held. -/
def clocked : State := { State.reset.putPkg (fun x => { x with service := { x.service with dies := [(0, { Die.reset with points := [(1000000, 800), (1100000, 850)] })] } }) with
  time := samplePeriod }

theorem witness_ServiceLife : ∃ s1 s2 q0 q1 : State, ∃ cs : List (Nat × Nat), (List.replicate 16 5).length = 16 ∧ samplePeriod ≤ clocked.time - (lookupD Die.reset clocked.pkg.service.dies 0).sampled ∧
    stepPeriod ≤ clocked.time - (lookupD Die.reset clocked.pkg.service.dies 0).stepped ∧ adjacentPoint [(1000000, 800), (1100000, 850)] 1000000 1100000 = some (1100000, 850) ∧
    Die.slackLost { Die.reset with slack := List.replicate 16 96, planned := List.replicate 16 100 } = true ∧ pointsOk [(900000, 780), (1000000, 800)] = true ∧ pointAt [(900000, 780), (1000000, 800)] 900000 = some (900000, 780) ∧
    (15, 255, 0) ∉ clocked.pkg.service.rows ∧ (23, 7) ∉ clocked.pkg.service.lanes ∧ quadOf clocked.cur.core < 2048 ∧ clocked.pkg.service.quads.contains 0 = false ∧
    (clocked.putPkg fun x => { x with service := if x.service.fencing.contains 0 then x.service
      else { x.service with fencing := x.service.fencing ++ [0] } }).does (freeGangs 0) () q0 ∧ q0.does (fenceStops 0) cs q1 ∧
    slotsSuffice q1.dev cs = true ∧ q1.does (cs.forM fun q => atCore q.1 q.2 .A (stopCore false)) () s2 ∧ s2.pkg.quadEmpty 0 = true ∧
    clocked.pkg.service.banks.contains (15, 255) = false ∧ clocked.does (emptyBank 15 255) () s1 :=
  ⟨_, _, _, _, [], by decide, yes, yes, yes, yes, yes, yes, yes, yes,
    yes, yes, acts, gives, yes, acts, yes, yes, acts⟩

/-- Nothing is mapped; frame 1 is free. -/
def spare : State := clocked.putPkg fun x => { x with home := { x.home with fotBase := 0x600000 }, ctl := { x.ctl with freeFrames := [1] } }

/-- A bank of the root table's frame. -/
def rootBank : Nat := bankOfBlock 0 0

theorem test_banks : inBank 0 rootBank 0 = true ∧ inBank 0 rootBank 1 = false := by
  simp only [inBank, rootBank, bankOfBlock, frameStack, List.any_cons, List.any_nil, Bool.or_false]
  constructor
  · simp
  · simp
    omega

theorem witness_ServiceLife_banks : ∃ s1 s2 s3 s4 s5 s6 b1 : State, spare.does (dividePages 0 rootBank) [] s1 ∧
    liveIn 0 rootBank s1.pkg.home.troot [] = [0] ∧
    (s1.pkg.ctl.freeFrames.filter fun f => frameStack f == 0 && !inBank 0 rootBank f) = [1] ∧ s1.does (([] : List TableEntry).forM fun e =>
      startInvalidation e.va (e.va + 4096) .plain) () s2 ∧ s2.does (([] : List TableEntry).forM (splitGroup [])) () s3 ∧ s3.does pageTable [] s4 ∧
    s4.does ([(0, 1)].forM fun q => renameFrame [] q.1 q.2) () s5 ∧ s5.does ([(0, 1)].forM fun q => moveFrame q.1 q.2) () s6 ∧
    clocked.does (dividePages 0 rootBank) [] b1 ∧ liveIn 0 rootBank b1.pkg.home.troot [] = [0] ∧ b1.pkg.ctl.freeFrames = [] := by
  have none_ : ∀ s : State, picks s (dividePages 0 rootBank) List.isEmpty = true → s.does (dividePages 0 rootBank) [] (s.after (dividePages 0 rootBank)) :=
    fun s h => picked List.isEmpty (fun _ h => List.isEmpty_iff.mp h) h
  have live : ∀ r, r / 4096 = 0 → liveIn 0 rootBank r [] = [0] := fun r h => by
    simp [liveIn, h, test_banks.1]
    rfl
  refine ⟨_, _, _, _, _, _, _, none_ _ yes, live _ yes, ?_, acts, acts, picked List.isEmpty (fun _ h => List.isEmpty_iff.mp h) yes, acts, acts,
    none_ _ yes, live _ yes, yes⟩
  have e : (spare.after (dividePages 0 rootBank)).pkg.ctl.freeFrames = [1] := yes
  rw [e]
  simp [test_banks.2, frameStack]

theorem witness_ServiceLife_move : ∃ t : State, spare.does (moveFrame 0 1) () t ∧ spare.pkg.home.hbm.wf ∧ (∀ x ∈ spare.pkg.home.tags, x.dirty = false) ∧
    (spare.pkg.home.fotBase + 2 * 1 + 2 ≤ 4096 * 1 ∨ 4096 * 1 + 4096 ≤ spare.pkg.home.fotBase + 2 * 1) :=
  ⟨_, acts, yes, yes, yes⟩

/-- A record of one launch of partition 0, whose code is as it was. -/
def recorded : State := (hosted 0).putPkg fun x => { x with service := { x.service with records :=
  [{ part := 0, ctx := 1, ring := 0, launch := 5, dom := 1, items := [.command launchStrand1], open_ := false }] } }

theorem witness_ServiceLife_replay : ∃ s1 s2 s4 t s3 : State, ∃ r same b a id k, recorded.pkg.service.records.find? (fun r => r.part == 0 && r.launch == 5 && !r.open_) = some r ∧
    recorded.does (r.items.mapM fun i => digestHolds r.dom i) same s1 ∧ same.all (fun b => b) = true ∧ r.command = some b ∧
    s1.does (validateLaunch r.ctx r.ring 0 b.toNat) (.ok a) s2 ∧ s2.does comingId id s4 ∧
    (s4.putPkg fun x => { x with service := { x.service with replay := some { part := 0, launch := id, items := r.items, all := r.items } } }).does
      (acceptLaunch { a with record := false }) k t ∧ State.reset.pkg.still = true ∧
    State.reset.does (runHome 0 0 writeAllBack) () s3 ∧ (∃ u : State, ∃ m, u.pkg.service.snapshot = some m ∧ u.pkg.still = true) :=
  ⟨_, _, _, _, _, ⟨0, 1, 0, 5, 1, [.command launchStrand1], false⟩, [true], launchStrand1, accepted recorded 1 0 0 launchStrand1.toNat, 0, 0, yes,
    gives, by decide, yes, passes, gives, gives,
    yes, acts,
    ⟨State.reset.putPkg fun x => { x with service := { x.service with snapshot := some (x.snap 0 []) } }, _, rfl, yes⟩⟩

/-- R409: a clock step a point up keeps the cycles counted. -/
theorem test_clock_step : leads (exec (.clockStep 0 1100000) clocked) (fun t =>
    let d := lookupD Die.reset t.pkg.service.dies 0
    d.khz == 1100000 && d.cycleAt samplePeriod == samplePeriod && d.cycleAt (samplePeriod + 1000) == samplePeriod + 1100) = true := by decide +kernel

theorem witness_HostCommands : ∃ s1 t u e1 e2 w : State, ∃ x y, (hosted 0).does (pageOf 1 0x2000) (some (1, 0)) (hosted 0) ∧ findAt (hosted 0).pkg.ctl.ctxs 1 = some x ∧
    0 / 8 < x.rings.length ∧ 1 % 2 ^ 12 < 2 ^ x.logn ∧
    (hosted 0).does (modCtx 1 fun y => { y with rings := y.rings.modify (0 / 8) fun r => { r with tail := 1 % 2 ^ 12 } }) () s1 ∧
    s1.does (readEntries 1 (0 / 8) (2 ^ x.logn)) () t ∧
    (hosted 0).does (modCtx 1 fun x => { x with evHead := Nat.min x.evTail (x.evHead + 3), interrupt := false }) () e1 ∧ findAt e1.pkg.ctl.ctxs 1 = some y ∧
    e1.does (writeEvents 1 (y.evWaiting.length + 1)) () e2 ∧ (hosted 0).does (modCtx 0 fun x => x.pfRegister 0x10 5) () w ∧ u = hosted 0 :=
  ⟨_, _, _, _, _, _, (findAt (hosted 0).pkg.ctl.ctxs 1).getD HostCtx.reset, (findAt (hosted 0).pkg.ctl.ctxs 1).getD HostCtx.reset, both, rfl, yes,
    yes, acts, acts, acts, yes, acts, acts, rfl⟩

theorem witness_HostCommands_launch : ∃ u u1 t v v1 w : State, ∃ x f a0 id y g, (hosted launchStrand1).does (nextEntry 1 0 strandKind) (some (x, f)) u ∧
    u.does (validateLaunch 1 0 x.part f.bytes.toNat) (.ok a0) u1 ∧ x.plugin = false ∧
    u1.does (acceptLaunch { a0 with index := f.index, rack := none }) id t ∧
    (hosted (dwords [(0, 2)])).does (nextEntry 1 0 (· == 2)) (some (y, g)) v ∧
    v.does (validateLaunch 1 0 y.part g.bytes.toNat) (.error 4) v1 ∧
    v1.does (guiltEvent 1 { blankEvent 1 with code := 4, ring := g.ring, index := g.index }) () w :=
  ⟨_, _, _, _, _, _, (findAt (hosted launchStrand1).pkg.ctl.ctxs 1).getD HostCtx.reset, ⟨0, 0, launchStrand1⟩,
    accepted ((hosted launchStrand1).after (nextEntry 1 0 strandKind)) 1 0 0 launchStrand1.toNat, 0,
    (findAt (hosted (dwords [(0, 2)])).pkg.ctl.ctxs 1).getD HostCtx.reset, ⟨0, 0, dwords [(0, 2)]⟩, gives, passes,
    yes, gives, gives, fails, acts⟩

/-- The package with context 1 under a plug-in, and a launch that it holds. -/
def advised : State := (hosted launchStrand1).putPkg fun x => { x with ctl := { x.ctl with
  ctxs := x.ctl.ctxs.map fun c => (c.1, { c.2 with plugin := c.1 == 1 })
  plugHeld := [(1, { accepted (hosted 0) 1 0 0 launchStrand1.toNat with index := 0, rack := none })] } }

/-- Context 1 with its plug-in. -/
def plugged : HostCtx := (findAt advised.pkg.ctl.ctxs 1).getD HostCtx.reset

/-- What the plug-in's launch is accepted as. -/
def advisedLaunch : Accepted := { accepted advised 1 0 0 launchStrand1.toNat with index := 0, rack := none }

theorem witness_HostCommands_plugin : ∃ u u1 u2 u3 t1 h1 : State, ∃ f id, advised.does (nextEntry 1 0 strandKind) (some (plugged, f)) u ∧
    u.does (validateLaunch 1 0 plugged.part f.bytes.toNat) (.ok advisedLaunch) u1 ∧ plugged.plugin = true ∧ u1.does (plugRun 1 plugged 9) true u2 ∧
    u2.does (acceptLaunch (advisedLaunch.raised 9)) id t1 ∧ u1.does (plugRun 1 plugged (64 + 2 * 2 ^ 64)) false u3 ∧
    u3.does (acceptLaunch advisedLaunch) id h1 ∧ ({ CtlCore.reset with mode := .u, pmp := plugged.pmp 1 } : CtlCore).grants false (2 ^ 64) = false ∧
    ({ CtlCore.reset with mode := .u, pmp := plugged.pmp 1 } : CtlCore).grants false 0x6000 = true :=
  ⟨_, _, _, _, _, _, ⟨0, 0, launchStrand1⟩, 0, gives, passes, yes, gives,
    gives, gives, gives, yes, yes⟩

theorem witness_HostCommands_store : ∃ u : State, ∃ prio at_ : Nat, 64 ≤ prio ∧ prio % 2 = 1 ∧ at_ = (prio - 64) / 2 ∧
    ({ CtlCore.reset with mode := .u, pmp := plugged.pmp 1 } : CtlCore).grants true at_ = true ∧
    (let off := at_ - (Config.pluginRegion 1).toNat
     let byte := (Config.pluginByte 0 0 off).toNat
     advised.does (modCtx 1 fun y => { y with pluginMem := y.pluginMem.write off 1 byte }) () u) := by
  refine ⟨_, 65 + 2 * (Config.pluginRegion 1).toNat, (Config.pluginRegion 1).toNat, by omega, by omega, by omega, ?_, acts⟩
  simp [CtlCore.grants, HostCtx.pmp, (Config.pluginRegion 1).isLt]

/-- The launch that the plug-in holds. -/
def heldOne : Nat × Accepted := (1, { accepted (hosted 0) 1 0 0 launchStrand1.toNat with index := 0, rack := none })

theorem witness_HostCommands_held : ∃ g1 g2 : State, ∃ id, findAt advised.pkg.ctl.ctxs 1 = some plugged ∧ advised.does (plugRun 1 plugged 9) true g1 ∧
    (g1.pkg.ctl.plugHeld.filter fun h => h.1 == 1)[0]? = some heldOne ∧ strandKind heldOne.2.launch.kind = true ∧ heldOne.2.rack = none ∧
    (let v := g1.putPkg fun y => { y with ctl := { y.ctl with plugHeld := y.ctl.plugHeld.erase heldOne } }
     v.does (domStopped heldOne.2.launch.dom) false v ∧ v.does (acceptLaunch (heldOne.2.raised 9)) id g2) :=
  ⟨_, _, 0, yes, gives, yes, yes, rfl,
    still (looks _) yes, gives⟩

/-- R390: a plug-in raises a launch's PRIO, and one that makes an environment call which does not exist has ended, at the cost of one guilt. -/
def plugTest : Bool :=
  leads (exec (.launchStrand 1 0 0 9) advised) (fun t => t.pkg.sched.launches.map (·.prio) == [9]) &&
    leads (exec (.launchStrand 1 0 0 (64 + 2 * 2 ^ 64)) advised) (fun t => t.pkg.sched.launches.map (·.prio) == [0] &&
      (findAt t.pkg.ctl.ctxs 1).map (fun x => (x.plugin, x.guilt)) == some (false, 1))

theorem test_plugin : plugTest = true := by decide +kernel

/-- R329 to R331: a good launch gets an id and a READY strand; one with a reserved bit set gets reason 2 in an event and guilt. -/
theorem test_launch : (leads (exec (.launchStrand 1 0 0 0) (hosted launchStrand1)) (fun t =>
      t.pkg.sched.launches.map (fun l => (l.id, l.dom, l.complVa)) == [(0, 1, 0x1000)] && t.pkg.sched.strands.map (fun s => (s.va, s.state)) == [(0x5000, .ready)]) &&
    leads (exec (.launchStrand 1 0 0 0) (hosted (dwords [(0, 2 ^ 14 + 2 ^ 30), (1, 1), (2, 0x1000)]))) (fun t =>
      t.pkg.sched.launches.isEmpty && (findAt t.pkg.ctl.ctxs 1).map (·.guilt) == some 1 && (val t (readBytes 0 0 true 0x7000 8) 0) % 256 == 1)) = true := by
  decide +kernel

/-! ### Control commands -/

/-- A state whose next entry of a ring is a command of a kind, its reserved bits clear. -/
def heads (s : State) (ctx kind : Nat) (named : List (Nat × Nat)) : Bool :=
  picks s (nextEntry ctx 0 (· == kind)) (fun w => match w with
    | some (_, f) => !cmdReserved f.bytes.toNat named
    | none => false)

theorem headed {s : State} {ctx kind : Nat} {named : List (Nat × Nat)} (h : heads s ctx kind named = true) :
    ∃ x f u, s.does (nextEntry ctx 0 (· == kind)) (some (x, f)) u ∧ cmdReserved f.bytes.toNat named = false := by
  unfold heads picks at h
  split at h
  · rename_i w d e
    dsimp only at h
    split at h
    · exact ⟨_, _, s.on d, ⟨e, rfl⟩, by simpa using h⟩
    · cases h
  · cases h

/-- PARTCFG of partition 5: cores 8,188 to 8,191 and stack 15. -/
def partcfg1 : VReg := dwords [(0, 0x80), (1, 5), (2, 1 + 8188 * 2 + 4 * 2 ^ 14 + 2 ^ 43), (3, 1), (6, 0x10000), (7, 1)]

theorem witness_ControlCommands_partcfg : heads (hosted partcfg1) 0 0x80 ((List.range 9).map fun k => (k + 1, 64)) = true ∧
    ∃ p u1, parsePart (fun k => cmdWord partcfg1.toNat (k + 2)) = some p ∧ natBits (cmdWord partcfg1.toNat 2) 0 0 = 1 ∧
      (∀ q ∈ (hosted partcfg1).pkg.ctl.parts, q.1 = 5 ∨ p.clashes q.2 = false) ∧ ((hosted partcfg1).pkg.ctl.domsOf 5).any (hosted partcfg1).pkg.sched.liveIn = false ∧
      (∀ l ∈ (hosted partcfg1).pkg.sched.launches, l.part ≠ 5) ∧ (hosted partcfg1).does (systemOwned p.saveVa (saveBytes * p.saveN)) true u1 :=
  ⟨yes, ⟨8188, 4, 0x8000, 0, 1, 0, 0, 0, [], 0x10000, 1, 0⟩, _, yes, yes, yes, yes,
    yes, gives⟩

/-- CTXCFG of context 2 in partition 0: rings of 16 entries, an event ring of 4,096. -/
def ctxcfg1 : VReg := dwords [(0, 0x81), (1, 2 + 255 * 2 ^ 14 + 4 * 2 ^ 26 + 12 * 2 ^ 30), (2, 0x10000), (3, 0x20000)]

/-- The command for the context before. -/
def again (b : VReg) : VReg := BitVec.ofNat 1024 (b.toNat - 2 ^ 64)

/-- DOMCFG of domain 2 with priority cap 47. -/
def domcfg1 : VReg := dwords [(0, 0x83), (1, 2 + 47 * 2 ^ 13), (2, 0x3000), (3, 2 ^ 20), (7, 128)]

theorem witness_ControlCommands_tables : heads (hosted ctxcfg1) 0 0x81 [(1, 34), (2, 64), (3, 64)] = true ∧ natBits (cmdWord ctxcfg1.toNat 1) 7 0 = 2 ∧
    (findAt (hosted ctxcfg1).pkg.ctl.parts 0).isSome ∧ (hosted ctxcfg1).pkg.sched.inFlight 2 = false ∧ findAt (hosted ctxcfg1).pkg.ctl.ctxs 2 = none ∧
    heads (hosted (again ctxcfg1)) 0 0x81 [(1, 34), (2, 64), (3, 64)] = true ∧ natBits (cmdWord (again ctxcfg1).toNat 1) 7 0 = 1 ∧
    (hosted (again ctxcfg1)).pkg.sched.inFlight 1 = false ∧ (findAt (hosted (again ctxcfg1)).pkg.ctl.ctxs 1).isSome ∧
    heads (hosted (dwords [(0, 0x8C), (1, 255 + 2 ^ 8 + 2 ^ 21)])) 0 0x8C [(1, 22), (2, 64), (3, 64), (4, 64), (5, 64)] = true ∧
    heads (hosted (dwords [(0, 0x82), (1, 1)])) 0 0x82 [(1, 64)] = true ∧ (findAt (hosted 0).pkg.ctl.ctxs 1).isSome ∧
    heads (hosted domcfg1) 1 0x83 ((1, 19) :: (List.range 9).map fun k => (k + 2, 64)) = true ∧ findAt (hosted domcfg1).pkg.ctl.doms 2 = none ∧
    2 ^ (128 : Nat).log2 = 128 ∧ (hosted domcfg1).pkg.sched.liveIn 2 = false ∧ (lookupD DefRing.reset (hosted domcfg1).pkg.home.defRings 2).len ≠ 128 ∧
    heads (hosted (dwords [(0, 0x84), (1, 1)])) 1 0x84 [(1, 64)] = true ∧ findAt (hosted 0).pkg.ctl.doms 1 = some dom1 ∧
    heads (hosted (dwords [(0, 0x85), (1, 1 + 7 * 2 ^ 13)])) 1 0x85 [(1, 17), (2, 64), (3, 64), (4, 64), (5, 64)] = true ∧
    heads (hosted (dwords [(0, 0x8C), (1, 255 + 2 ^ 8)])) 0 0x8C [(1, 22), (2, 64), (3, 64), (4, 64), (5, 64)] = true := by decide +kernel

theorem witness_ControlCommands_ends : ∃ t u u1 v v1 c1 c2 d1 : State, (hosted 0).does (postEvent 0 { blankEvent 6 with ring := 0, index := 0, arg := BitVec.ofNat 64 0 }) () t ∧
    (hosted 0).does (ctxOfDom 1) (some 1) u ∧ (hosted 0).does (modCtx 1 fun y => { y with
      guilt := 0, barred := false, rings := y.rings.map (fun r => { r with head := r.tail }), fetched := if 1 == 0 then y.fetched else [] }) () u1 ∧
    (hosted domcfg1).does (dropOpen 2 { base := 0, len := 128, tail := 0, head := 0, open_ := [] }) () v1 ∧ v = v1 ∧
    (hosted ctxcfg1).does (systemOwned 0x10000 (1 * 128 * 2 ^ 4)) true c1 ∧ c1.does (systemOwned 0x20000 (32 * 2 ^ 12)) true c2 ∧
    (hosted 0).does (dropOpen 1 DefRing.reset) () d1 :=
  ⟨_, _, _, _, _, _, _, _, acts, gives, acts, acts, rfl,
    gives, gives, acts⟩

/-- RANGEINV of pages from an address. -/
def rangeinv (va pages : Nat) : VReg := dwords [(0, 0x86), (1, va), (2, pages)]

/-- A region pins the page at 0x1000. -/
def pinned : State := (hosted (rangeinv 0x1000 1)).putPkg fun x => { x with fabric := { x.fabric with regions := [⟨5, 1, 0x1000, 1, false⟩] } }

theorem witness_ControlCommands_memory : ∃ u1 t f g p q n : State, heads (hosted (rangeinv 0x7000 2)) 1 0x86 [(1, 64), (2, 64)] = true ∧
    (hosted 0).pkg.ctl.domsOf 0 = [1] ∧
    (hosted (rangeinv 0x7000 2)).does (foreignLeaf [1] 0x9000 2 0x7000) false u1 ∧ u1.pkg.fabric.pins 0x7000 0x9000 = false ∧
    u1.does (startInvalidation 0x7000 0x9000 (.command 1 0 0)) () t ∧
    (State.stored (hosted (rangeinv 0x7000 2)) 0x404038 (3 + 7 * 2 ^ 26)).does (foreignLeaf [1] 0x9000 2 0x7000) true f ∧
    f.does (refuse 1 ⟨0, 0, rangeinv 0x7000 2⟩ 13) () g ∧ pinned.does (foreignLeaf [1] 0x2000 1 0x1000) false p ∧ p.pkg.fabric.pins 0x1000 0x2000 = true ∧
    (hosted 0).does (leafAt 0x8000) none q ∧ q.does (nextSpan 0x8000) 0x9000 n ∧
    heads (hosted (dwords [(0, 0x87), (1, 0x1000), (2, 0)])) 1 0x87 [(1, 64), (2, 64)] = true :=
  ⟨_, _, _, _, _, _, _, yes, yes, gives, yes, acts, gives, acts, gives, yes, gives, gives, yes⟩

/-- A deferred operation of domain 1 whose report is open. -/
def reported : State := (hosted (dwords [(0, 0x88), (1, 4)])).putPkg fun x => { x with
  home := { x.home with defRings := [(1, { base := 0, len := 64, tail := 1, head := 1, open_ := [(0, { deferred .owner with report := some 4 })] })] }
  ctl := { x.ctl with reports := [⟨4, 1, .owner, 0x1000, .deferred 0⟩] } }

/-- Its report is closed. -/
def answered : State := reported.putPkg fun y => { y with ctl := { y.ctl with reports := y.ctl.reports.filter fun r => r.id != 4 } }

/-- Domain 1 may not read or write the page. -/
def barredDom : State := answered.putPkg fun x => { x with ctl := { x.ctl with doms := [(1, { dom1 with drtCount := 0 })] } }

theorem witness_ControlCommands_deferred : ∃ u t e1 d1 d2 v a1 b1 b2 : State, ∃ m, heads reported 1 0x88 [(1, 33)] = true ∧
    reported.does (ctxOfDom 1) (some 1) u ∧ answered.does (replayDeferred 1 0) () t ∧ heads (reported.putPkg fun x => x) 1 0x88 [(1, 33)] = true ∧
    ((lookupD DefRing.reset answered.pkg.home.defRings 1).open_.find? fun e => e.1 == 0) = some (0, { deferred .owner with report := some 4 }) ∧
    answered.does (dropDeferred { deferred .owner with report := some 4 }) () d1 ∧ d1.does (closeDeferred 1 0) () d2 ∧
    answered.does (partOfDom 1) (some 0) answered ∧ answered.does (checkRightsFresh needWA 1 0x1000) m a1 ∧
    barredDom.stops (checkRightsFresh needWA 1 0x1000) (.raise .prot 0) ∧
    barredDom.does (defer ⟨0, 0, 0, 1, 0, 0, 0, false, some 0, ⟨0x1000, 0, true, 5⟩⟩ .prot) () b1 ∧ b1.does (closeDeferred 1 0) () b2 ∧
    e1 = d2 ∧ v = a1 :=
  ⟨_, _, _, _, _, _, _, _, _, _, yes, gives, acts, yes, yes, acts, acts, still (looks _) yes, goes false, halts, acts, acts, rfl, rfl⟩

/-- R293, R398: a resolved operation is accepted again, and a refused one is dropped. -/
theorem test_faultres : (leads (exec (.faultres 1 0) reported) (fun t => t.pkg.home.accepted.length == 1 && t.pkg.ctl.reports.isEmpty) &&
    leads (exec (.faultres 1 0) (reported.putPkg fun x => { x with ctl := { x.ctl with ctxs := x.ctl.ctxs.map fun c => (c.1, { c.2 with
        fetched := [⟨0, 0, dwords [(0, 0x88), (1, 4 + 2 ^ 32)]⟩] }) } })) (fun t => t.pkg.home.accepted.isEmpty &&
      (lookupD DefRing.reset t.pkg.home.defRings 1).open_.isEmpty)) = true := by decide +kernel

/-- A package that runs a strand of launch 0 of context 1, with a report and a command of context 1. -/
def busy (entry : VReg) : State :=
  ((hosted entry).put fun c => { c with mode := .resolving ⟨.translate, 0x8000, 0x8000, .A⟩, dom := 1, strand := 0x5000 }).putPkg fun x => { x with
    ctl := { x.ctl with reports := [⟨4, 1, .translate, 0x8000, .strand 0x5000 0 .A⟩] }
    sched := { x.sched with
      launches := [{ launchOf launchStrand1.toNat 1 0 0 with id := 0 }]
      strands := [{ strand1 with state := .suspInput, onCore := some 0, bound := some 0, started := true }] } }

theorem witness_ControlCommands_strands : ∃ s t u u1 p p1 : State, ∃ r st l, s = busy (dwords [(0, 0x88), (1, 4)]) ∧ heads s 1 0x88 [(1, 33)] = true ∧
    s.pkg.ctl.reports.find? (fun r => r.id == 4) = some r ∧ s.does (ctxOfDom r.dom) (some 1) u ∧ r.who = .strand 0x5000 0 .A ∧
    (s.putPkg fun y => { y with ctl := { y.ctl with reports := y.ctl.reports.filter fun r => r.id != 4 } }).does (findStrand 0x5000) (some st) u1 ∧
    st.state.ended = false ∧ u1.does (answerStrand st r .A false) () t ∧ heads (busy (dwords [(0, 0x89)])) 1 0x89 [(1, 4)] = true ∧
    (busy 0).does (((busy 0).pkg.sched.launches.filter fun l => l.ctx == 1 && l.ring == 0).forM fun l => tearLaunch l.id) () p ∧ p.does (tearHeld 1 0) () p1 ∧
    heads (busy (dwords [(0, 0x8A)])) 1 0x8A [(1, 32)] = true ∧ (findAt (busy 0).pkg.ctl.ctxs 1).isSome ∧ (busy 0).pkg.sched.launches.head? = some l ∧ l.ctx = 1 :=
  ⟨_, _, _, _, _, _, ⟨4, 1, .translate, 0x8000, .strand 0x5000 0 .A⟩, { strand1 with state := .suspInput, onCore := some 0, bound := some 0, started := true },
    { launchOf launchStrand1.toNat 1 0 0 with id := 0 }, rfl, yes, yes, gives, rfl, gives, rfl,
    acts, yes, acts, acts, yes, yes,
    yes, yes⟩

/-- What a strand is told: it is READY, and owes a refused fault. -/
def told (refused : Bool) (o : Strand) : Strand :=
  { o with owed := o.owed ++ (if refused then [⟨.translate, 0x8000, .A⟩] else []), state := .ready }

theorem witness_ControlCommands_answers : ∃ t v w : State, ∃ st p, (busy 0).pkg.sched.strands.head? = some st ∧ st.onCore = some 0 ∧
    ((busy 0).pkg.core 0).mode = .resolving p ∧ (busy 0).does (setStrand st.va (told true)) () t ∧
    (((busy 0).put fun c => { c with mode := .stopped (some p) }).pkg.core 0).mode = .stopped (some p) ∧
    ((busy 0).put fun c => { c with mode := .stopped (some p) }).does (modCoreAt 0 0 fun c => { c with mode := .stopped none }) () v ∧
    v.does (setStrand st.va (told false)) () w :=
  ⟨_, _, _, { strand1 with state := .suspInput, onCore := some 0, bound := some 0, started := true }, ⟨.translate, 0x8000, 0x8000, .A⟩, rfl, rfl, yes, acts,
    yes, acts, acts⟩

/-- R397 to R400: CTXCFG, DOMCFG and TRUST take effect; a PARTCFG whose interval overlaps another's is refused with an event. -/
theorem test_control : (leads (exec (.partcfg 0 0) (hosted (dwords [(0, 0x80), (1, 5), (2, 1 + 3 * 2 + 4 * 2 ^ 14 + 2 ^ 43), (3, 1), (7, 1)]))) (fun t =>
      (findAt t.pkg.ctl.parts 5).isNone && val t (readBytes 0 0 true 0x7000 8) 0 % 256 == 1) &&
    leads (exec (.ctxcfg 0 0) (hosted ctxcfg1)) (fun t => (findAt t.pkg.ctl.ctxs 2).map (fun c => (c.part, c.limit, c.loge, c.ringVa)) == some (0, 255, 12, 0x10000)) &&
    leads (exec (.domcfg 1 0) (hosted domcfg1)) (fun t => (findAt t.pkg.ctl.doms 2).map (fun d => (d.ctx, d.cap, d.drtCount)) == some (1, 47, 2 ^ 20)) &&
    leads (exec (.trust 1 0) (hosted (dwords [(0, 0x85), (1, 1), (2, 9)]))) (fun t => t.pkg.ctl.trust.map (·.1) == [(1, 0)])) = true := by decide +kernel

theorem witness_ControlCommands_preempt : ∃ u1 : State, ∃ l, heads (busy (dwords [(0, 0x8A)])) 1 0x8A [(1, 32)] = true ∧
    (busy 0).does (findLaunch 0) (some l) (busy 0) ∧ l.ctx = 1 ∧
    (∀ q ∈ (busy 0).dev.launchCores 0 0, (((busy 0).dev.pkg q.1).core q.2).mode ≠ .idle) ∧ (busy 0).dev.launchCores 0 0 = [(0, 0)] ∧
    slotsSuffice (busy 0).dev (((busy 0).dev.launchCores 0 0).filter fun q => (((busy 0).dev.pkg q.1).core q.2).stoppable) = true ∧
    (busy 0).does ((((busy 0).dev.launchCores 0 0).filter fun q => (((busy 0).dev.pkg q.1).core q.2).stoppable).forM fun q =>
      atCore q.1 q.2 .A (stopCore true)) () u1 :=
  ⟨_, { launchOf launchStrand1.toNat 1 0 0 with id := 0 }, yes, both, rfl, yes, yes, yes, acts⟩

/-- `busy 0` after its core has been stopped. -/
def halted : State := (busy 0).after ([(0, 0)].forM fun q => atCore q.1 q.2 .A (stopCore true))

theorem witness_ControlCommands_stopping : ∃ u2 : State, (halted.dev.launchCores 0 0).filter (fun q => ((halted.dev.pkg q.1).core q.2).stopping) = [(0, 0)] ∧
    halted.does ([(0, 0)].forM fun q => modCoreAt q.1 q.2 fun c => { c with byHost := true }) () u2 ∧
    (hosted 0).dev.launchCores 0 7 = [] :=
  ⟨_, yes, acts, yes⟩

/-! ### Launches and schedulers -/

/-- A package with a launch of id 0 and strands. -/
def launched (l : Launch) (ss : List Strand) : State :=
  (hosted 0).putPkg fun x => { x with sched := { x.sched with launches := [l], strands := ss } }

/-- The plain launch. -/
def launch1 : Launch := { launchOf launchStrand1.toNat 1 0 0 with id := 0 }

/-- A graph of one node that awaits its evaluation. -/
def graph1 (kind : Nat) : Launch :=
  { launch1 with kind := 1, graph := some ([⟨kind, 0, 1, 0, 0, 0x1000, 0, 0, []⟩],
    { pend := [0], live := [true], back := [0], iter := [0], running := [0], awaiting := [0], toStart := [], stopped := false }) }

theorem witness_LaunchEvents_graph : ∃ t u v w x y : State, ∃ st cw ns g lw, (launched (graph1 0) [{ strand1 with node := some 0, state := .done }]).pkg.sched.strands.find?
      (fun s => s.launch == 0 && s.node == some 0 && s.state.ended) = some st ∧
    ((launched (graph1 0) [{ strand1 with node := some 0, state := .done }]).putPkg fun y => { y with sched := { y.sched with
      strands := y.sched.strands.map fun o => if o.va == st.va then { o with node := none } else o } }).does (setGraph 0 fun ns g => gStrandEnd ns 0 g) () t ∧
    (launched (graph1 1) []).does (readControl 0 0 (fun k => k == 1 || k == 3)) (some cw) u ∧ u.does (setGraph 0 fun ns g => gControl ns 0 cw g) () v ∧
    (launched (graph1 2) []).does (readControl 0 0 (· == 2)) (some lw) w ∧ w.does (findLaunch 0) (some (graph1 2)) w ∧ (graph1 2).graph = some (ns, g) ∧
    (gLoop ns 0 lw g).2 = false ∧ w.does (setGraph 0 fun ns g => (gLoop ns 0 lw g).1) () x ∧ y = w :=
  ⟨_, _, _, _, _, _, { strand1 with node := some 0, state := .done }, some 0, [⟨2, 0, 1, 0, 0, 0x1000, 0, 0, []⟩],
    { pend := [0], live := [true], back := [0], iter := [0], running := [0], awaiting := [0], toStart := [], stopped := false }, some 0, yes,
    acts, gives, acts, gives,
    still (looks _) yes, rfl, yes, acts, rfl⟩

/-- A coverage walk of two points a row, of which each rung keeps the first. -/
def cover1 : Coverage :=
  { nrung1 := 0, start := 0, pshift := 0, mean := false, interp := false, typ := 0, lo := 0, hi := 0, outbase := 0x1000, opitch := 8, table := Table.empty,
    rungs := [(1, 2, 1)] }

/-- Its launch, with an open band or not. -/
def band1 (isOpen : Bool) : Launch :=
  { launch1 with kind := 2, walk := some ⟨2, 1, 1, 1, 0, some cover1, 0, 0, isOpen, [], 0, 0⟩ }

theorem witness_LaunchEvents_band : ∃ u t v w : State, ∃ k c errs, (launched (band1 false) []).does (setLaunch 0 Launch.openBand) () u ∧ u.does (pumpLaunch 0) () t ∧
    (launched (band1 true) []).does (findLaunch 0) (some (band1 true)) (launched (band1 true) []) ∧ (band1 true).walk = some k ∧ k.cov = some c ∧ k.bandOpen = true ∧
    (launched (band1 true) []).dev.launchEnded 0 0 = true ∧ (launched (band1 true) []).dev.launchWrites 0 0 = false ∧
    (launched (band1 true) []).does ((c.skipped k.rung k.nx k.ny k.bandh k.next).mapM fun q => reconstructPoint 0 1 k c q.1.1 q.1.2 q.2) errs v ∧
    v.does (setLaunch 0 fun l => { l with
      walk := some (k.closeBand c (c.bandError (errs.filterMap fun x => x))), maxErr := Nat.max l.maxErr (c.bandError (errs.filterMap fun x => x)) }) () w :=
  ⟨_, _, _, _, _, cover1, _, acts, acts, both, rfl, rfl, rfl, yes, yes, goes [] (by decide +kernel), acts⟩

/-- Its launch of two finished strands, their slots cores 0 and 1. -/
def tree1 : Launch := { launch1 with tree := [⟨0, 2 ^ 32, 0, [], false⟩, ⟨1, 2 ^ 32, 0, [], false⟩] }

/-- Node 1 forwards to node 0. -/
def forwarding (n : TreeNode) (q : TreeNode × Nat) : TreeNode :=
  if q.2 == 0 then ⟨q.1.core, combineStatus q.1.word n.word, Nat.max q.1.maxErr n.maxErr, q.1.heard ++ [1], q.1.forwarded⟩
  else if q.2 == 1 then { q.1 with forwarded := true } else q.1

theorem witness_LaunchEvents_tree : ∃ s u t v w x : State, ∃ n, s = launched tree1 [] ∧ s.does (findLaunch 0) (some tree1) s ∧ tree1.tree.findIdx? (fun q => q.core == 1) = some 1 ∧
    tree1.tree[1]? = some n ∧ n.forwarded = false ∧ s.dev.treeFixed 0 tree1 = true ∧ s.dev.slotEnded 0 0 1 = true ∧ tree1.childrenDone 1 = true ∧
    s.does (setLaunch 0 fun l => { l with tree := l.tree.zipIdx.map (forwarding n) }) () u ∧
    u.does (returnRecords 0 (some 1)) () t ∧ (launched launch1 []).dev.treeFixed 0 launch1 = true ∧ (launched launch1 []).dev.launchEnded 0 0 = true ∧
    (launched launch1 []).dev.launchOutstanding 0 0 = false ∧ launch1.arc = none ∧
    (launched launch1 []).does (sysWrite (0x1000 + 8) 56 (recordBytes launch1 0 / 2 ^ 64)) () v ∧ v.does (sysWrite 0x1000 8 (recordBytes launch1 0 % 2 ^ 64)) () w ∧
    w.does (returnRecords 0 none) () x :=
  ⟨_, _, _, _, _, _, ⟨1, 2 ^ 32, 0, [], false⟩, rfl, both, yes, yes, rfl, yes, yes, yes,
    acts, acts, yes, yes, yes, rfl, acts, acts,
    acts⟩

/-- R28, R345: the root of a tree of two combines both words, 2 strands done, in the record it writes. -/
theorem test_completion : (leads (exec (.completionForward 0 1) (launched tree1 [])) (fun t =>
      (t.pkg.sched.launches.map fun l => (l.tree.map (·.word))) == [[2 ^ 33, 2 ^ 32]]) &&
    leads (exec (.completionRecordWrite 0) (launched { tree1 with tree := [⟨0, 2 ^ 33, 0, [1], false⟩, ⟨1, 2 ^ 32, 0, [], true⟩] } [])) (fun t =>
      t.pkg.sched.launches.isEmpty && val t (readBytes 0 0 true 0x1008 8) 0 / 2 ^ 32 == 2)) = true := by decide +kernel

/-- A package with a READY strand that core 0 may take. -/
def waiting : State := launched launch1 [{ strand1 with state := .ready, order := 1 }]

/-- One with a strand sent to the idle core 0, its record not yet taken. -/
def docking : State :=
  (launched launch1 [{ strand1 with state := .running, onCore := some 0 }]).put fun c =>
    { c with inbox := [⟨false, 0, systemSender, 0, 0⟩], store := [nopCode] }

/-- One with a strand on core 0 whose inputs are still to be read or copied; no input follows a zero declaration. -/
def inputs (bound : Option Nat) : State :=
  launched launch1 [{ strand1 with state := .suspInput, onCore := some 0, bound := bound, indecl := 0x1000 }]

theorem witness_SchedulerEvents_record : ∃ u t v : State, ∃ x, let q : Nat × Nat × Strand := (0, 0, { strand1 with state := .ready, order := 1 })
    let s := State.stored waiting 0x5000 (2 ^ 63)
    q.2.2.waits = true ∧ s.does (atCore 0 0 .A (sysRead 0x5000 64)) (.ok x) u ∧ recordBad x = true ∧
    u.does (atCore 0 0 .A (endAway q.2.2 Config.badRecordCause.toNat 0 false)) () t ∧ waiting.does (atCore 0 0 .A (sysRead 0x5000 64)) (.ok 0) v ∧
    recordBad 0 = false :=
  ⟨_, _, _, 2 ^ 63, yes, passes, yes, acts, passes,
    yes⟩

/-- R21: a bad record is refused, and its strand ends without a start. -/
theorem test_bad_record : leads (exec .strandDispatch (State.stored waiting 0x5000 (2 ^ 63))) (fun t =>
    t.core.inbox.isEmpty && t.pkg.sched.strands.all (·.state.ended)) = true := by decide +kernel

theorem witness_SchedulerEvents : ∃ u u1 u2 t d v w y : State, ∃ plan x, waiting.does takeInPlace false waiting ∧ waiting.does priorityAgeing () u ∧ u.does (partOfCore 0) (some 0) u ∧
    u.does (chooseItem 0) (some (x, plan)) u1 ∧ u1.does (refuseRecords plan) false u2 ∧ (u2.putPkg fun y => { y with sched := { y.sched with
      lastStarted := ((0, u2.pkg.ctl.level x), x.dom) :: y.sched.lastStarted.filter fun q => q.1 != (0, u2.pkg.ctl.level x) } }).does (carryOut plan) () t ∧
    docking.core.mode = .idle ∧ docking.core.inbox.find? (fun m => m.ch == 0 && m.sender == systemSender) = some ⟨false, 0, systemSender, 0, 0⟩ ∧
    docking.pkg.sched.strands.find? (fun q => q.onCore == some 0 && q.state == .running) = some { strand1 with state := .running, onCore := some 0 } ∧
    docking.pkg.sched.uninstalled 0x5000 = false ∧ findAt docking.pkg.ctl.doms 1 = some dom1 ∧
    (docking.put fun c => { c with inbox := c.inbox.erase ⟨false, 0, systemSender, 0, 0⟩ }).does (dockStrand { strand1 with state := .running, onCore := some 0 } dom1) () d ∧
    (inputs none).does (readDecls { strand1 with state := .suspInput, onCore := some 0, indecl := 0x1000 } 4 0) (.ok []) v ∧ hullsBad [] = false ∧
    (inputs (some 0)).does (strandTorn { strand1 with state := .suspInput, onCore := some 0, bound := some 0, indecl := 0x1000 }) false (inputs (some 0)) ∧
    (inputs (some 0)).does (setStrand 0x5000 fun o => { o with state := .running, bound := none }) () w ∧
    w.does (deliver 0 { strand1 with state := .running, onCore := some 0, indecl := 0x1000 }) () y :=
  ⟨_, _, _, _, _, _, _, _, [(0, 0, { strand1 with state := .ready, order := 1 })], { strand1 with state := .ready, order := 1 }, both, acts,
    still (looks _) (by decide +kernel),
    picked (fun w => w == some ({ strand1 with state := .ready, order := 1 }, [(0, 0, { strand1 with state := .ready, order := 1 })])) (fun _ h => eq_of_beq h)
      (by decide +kernel), gives, acts, yes, yes, yes, yes,
    yes, acts,
    picked (fun w => match w with
      | .ok [] => true
      | _ => false) (fun w hw => by
        split at hw
        · rfl
        · cases hw) (by decide +kernel), yes, both, acts, acts⟩

/-- One whose one input, a byte, comes from an address. -/
def inputFrom (src : Nat) : State := [(0x1000, 2 ^ 63 + 0x1100), (0x1008, src), (0x1100, 0x000004015A534831), (0x1108, 1), (0x1118, 1), (0x1138, 1)].foldl
  (fun s p => State.stored s p.1 p.2) (inputs none)

/-- What is read of its declaration. -/
def declared (src : Nat) : List CopyIn := [⟨src, 0, shape1, ⟨1, 1, 0, [1, 0, 0, 0], [1, 0, 0, 0], [1, 0, 0, 0]⟩⟩]

theorem witness_SchedulerEvents_inputs : ∃ u u1 t v w : State, ∃ ids, let x : Strand := { strand1 with state := .suspInput, onCore := some 0, indecl := 0x1000 }
    (inputFrom 0x2000).does (readDecls x 4 0) (.ok (declared 0x2000)) u ∧ hullsBad (declared 0x2000) = false ∧
    (declared 0x2000).any CopyIn.astray = false ∧ u.does ((declared 0x2000).mapM fun _ => nextSerial) ids u1 ∧
    (u1.put fun c => { c with cmds := c.cmds ++ (ids.zip (declared 0x2000)).map fun q =>
      ⟨q.1, .copy, 0x73, none, 1, [BitVec.ofNat 64 (scratchBase + q.2.dst), BitVec.ofNat 64 q.2.src] ++ q.2.words⟩ }).does
      (setStrand 0x5000 fun o => { o with bound := some 0, copyIns := ids }) () t ∧
    (inputFrom windowBase).does (readDecls x 4 0) (.ok (declared windowBase)) v ∧ (declared windowBase).any CopyIn.astray = true ∧
    v.does (inputFailed x Cause.aperture.code) () w :=
  ⟨_, _, _, _, _, [0], passes, yes, yes, gives, acts, passes, yes, acts⟩

/-- Core 0 waits in place for its strand, which is READY. -/
def inPlace (m : Mode) (reqs : List Requester) : State :=
  (launched launch1 [{ strand1 with state := .ready, onCore := some 0, bound := some 0, started := true }]).put (fun c => { c with
    mode := m, strand := 0x5000, dom := 1, store := [nopCode], cur := some ⟨1, 0, .native 255, 0⟩ }) |>.putPkg fun x => { x with
      sched := { x.sched with searches := [⟨0, 0, 0, 1, 0, reqs⟩] } }

/-- The strand's request for code, with what has been found. -/
def request (found : Option Code) : Requester := ⟨0x5000, 0, 1, 1, 0, 16, false, 0, 64, found, found.isNone, none, 0⟩

theorem witness_SchedulerEvents_place : ∃ u u1 t v w y z : State, ∃ p r r1, p = Mode.resolving ⟨.translate, 0x8000, 0x8000, .A⟩ ∧
    (inPlace p []).does runAgain () u ∧ u.does runOn () u1 ∧ u1.does raiseOwed () t ∧
    (inPlace (.fetching 1 0) [request (some nopCode)]).pkg.sched.endedFor 0 0x5000 = some r ∧ r.found = some nopCode ∧
    (inPlace (.fetching 1 0) [request (some nopCode)]).core.store.contains nopCode = true ∧
    (inPlace (.fetching 1 0) [request (some nopCode)]).does (dropRequests 0x5000) () v ∧ v.does (goOn nopCode 1 0) () w ∧
    (inPlace (.fetching 1 0) [request none]).pkg.sched.endedFor 0 0x5000 = some r1 ∧ r1.found = none ∧
    (inPlace (.fetching 1 0) [request none]).does (dropRequests 0x5000) () y ∧ y.does (goWithout 1 0) () z :=
  ⟨_, _, _, _, _, _, _, _, request (some nopCode), request none, rfl, acts, acts, acts, yes, rfl, yes, acts, acts, yes, rfl, acts, acts⟩

/-- Table 18.3: a strand READY in place runs again on its core. -/
theorem test_take_in_place : leads (exec .strandDispatch (inPlace (.fetching 1 0) [request (some nopCode)])) (fun t =>
    t.core.mode == .running && t.pkg.sched.strands.map (·.state) == [.running] && t.pkg.sched.searches.all (·.reqs.isEmpty)) = true := by decide +kernel

/-- R23, R147, R155: the strand is placed, its record comes to channel 0, and the dock loop enters its landing. -/
theorem test_dispatch_and_dock : (leads (exec .strandDispatch waiting) (fun t =>
      t.pkg.sched.strands.map (fun s => (s.onCore, s.state)) == [(some 0, .running)] && t.core.inbox.length == 1) &&
    leads (exec .dockEnter docking) (fun t => t.core.mode == .running && t.core.strand == 0x5000 && t.core.dom == 1 && t.core.a[26] == 0x5000 && t.core.inbox.isEmpty)) = true := by
  decide +kernel

/-- Core 0 waits for code of digest 0, a search at a stage under way. -/
def searching (stage : Nat) (found : Option Code) : State :=
  (inPlace (.fetching 1 0) []).putPkg fun x => { x with sched := { x.sched with
    strands := [{ strand1 with state := .suspCode, onCore := some 0, bound := some 0 }]
    searches := [⟨0, 0, 0, stage, 0, [{ request found with missed := false }]⟩] } }

theorem witness_CoreChanges : ∃ u u1 t v w y : State, ∃ q r rs keep nb x, (searching 1 none).does coreSearch (some q) (searching 1 none) ∧
    (searching 1 none).does (judgeEach q q.reqs []) rs u ∧ u.does (rs.mapM settleRequester) keep u1 ∧ u1.does (neighbours 0) nb u1 ∧
    u1.does (setSearch q.die q.digest fun _ => { q.advance nb.length with reqs := ((rs.zip keep).filter (·.2)).map (·.1) }) () t ∧
    (searching 3 none).does coreSearch (some { q with stage := 3 }) (searching 3 none) ∧ (searching 3 none).does (neighbours 0) [] (searching 3 none) ∧
    (searching 1 (some nopCode)).core.mode = .fetching 1 0 ∧ (searching 1 (some nopCode)).pkg.sched.endedFor 0 0x5000 = some r ∧ r.found = some nopCode ∧
    (searching 1 (some nopCode)).does (findStrand 0x5000) (some x) (searching 1 (some nopCode)) ∧ x.savedAt = none ∧ x.state = .suspCode ∧
    ((searching 1 (some nopCode)).put fun c => c.install nopCode).does (setStrand 0x5000 fun o => { o with state := .ready }) () v ∧
    (searching 1 none).does (setStrand 0x5000 fun o => { o with state := .ready }) () w ∧ y = w :=
  ⟨_, _, _, _, _, _, ⟨0, 0, 0, 1, 0, [{ request none with missed := false }]⟩, request (some nopCode), _, _, [],
    { strand1 with state := .suspCode, onCore := some 0, bound := some 0 }, both, goes [] (by decide +kernel), goes [] (by decide +kernel),
    still (looks _) (by decide +kernel), acts, both, both, yes,
    yes, rfl, both, rfl, rfl, acts, acts, rfl⟩

/-- R151, Table 18.3: fetched code is installed, and its strand is READY. -/
theorem test_install : leads (exec .codeInstall (searching 1 (some nopCode))) (fun t => t.pkg.sched.strands.map (·.state) == [.ready] &&
    t.core.store.contains nopCode) = true := by decide +kernel

/-- Core 0 runs the strand of launch 0, and its slice began at time 0. -/
def sliced (mode : Mode) (cmds : List Command) (time : Nat) : State :=
  { (launched launch1 [{ strand1 with state := .running, onCore := some 0, started := true }]).put (fun c => { c with
      mode := mode, strand := 0x5000, dom := 1, cmds := cmds, store := [nopCode], cur := some ⟨1, 0, .native 255, 0⟩ }) |>.putPkg fun x => { x with
        ctl := { x.ctl with drains := [(0, 0)] } } with time := time }

theorem witness_CoreChanges_stops : ∃ u t v w x y z z1 : State, ∃ cs sts st, (sliced .running [] 1000000).does thePart 0 (sliced .running [] 1000000) ∧
    findAt (sliced .running [] 1000000).pkg.ctl.parts 0 = some part0 ∧ (sliced .running [] 1000000).does (findStrand 0x5000) (some st) (sliced .running [] 1000000) ∧
    (sliced .running [] 1000000).core.stoppable = true ∧ part0.sliceTime ≤ 1000000 ∧ (sliced .running [] 1000000).does (gangEntering st) false (sliced .running [] 1000000) ∧
    (sliced .running [] 1000000).does (stopTogether st) cs u ∧ slotsSuffice u.dev cs = true ∧ u.does (cs.forM fun q => atCore q.1 q.2 .A (stopCore false)) () t ∧
    drainLimit ≤ (sliced (.stopped none) [⟨0, .copy, 0x74, none, 1, []⟩] drainLimit).time ∧
    (sliced (.stopped none) [⟨0, .copy, 0x74, none, 1, []⟩] drainLimit).does
      ([(⟨0, .copy, 0x74, none, 1, []⟩ : Command)].forM fun k => commandDone k.serial (statusWord .watchdog 0)) () v ∧
    v.does (ctxOfDom 1) (some 1) v ∧ v.does (addGuilt 1) () w ∧ (sliced (.stopped none) [] 0).does gangBusy false (sliced (.stopped none) [] 0) ∧
    ownPosted (sliced (.stopped none) [] 0).dev 0 0 = [] ∧
    (sliced (.stopped none) [] 0).does performReleased () x ∧ x.does (x.core.tokens.mapM fun t => do return (t.1, ← tokenStatus t.2)) sts y ∧
    y.does (strandTorn st) false y ∧ y.does (sealStrand st none []) () z ∧ z1 = z :=
  ⟨_, _, _, _, _, _, _, _, [(0, 0)], [], { strand1 with state := .running, onCore := some 0, started := true }, both, yes, both, yes,
    yes, both, gives, yes, acts, yes, acts, both,
    acts, both, yes, acts, gives, both, acts, rfl⟩

/-- A strand of domain 1 at its SPAWN: handle 1, and a block of zeros at the end of the scratchpad. -/
def spawning : State :=
  ((sliced .running [] 0).put fun c => { c with a := (c.a.setIfInBounds 1 1).setIfInBounds 2 (BitVec.ofNat 64 (scratchBase + 0x3FFC0)), dirbase := 0x4000 }).putPkg
    fun x => { x with ctl := { x.ctl with doms := [(1, { dom1 with pool := { dom1.pool with used := [0] } })] } }

theorem witness_SpawnMakesStrand_made : ∃ s s4 s5 s6 s7 s8 : State, ∃ parent n, spawnBlockOk 0 = true ∧ s.does (dirEntry 1) (some ⟨0, 16, 0, 64, false⟩) s4 ∧
    s.core.prio = 0 ∧ s4.does (findStrand s.core.strand.toNat) (some parent) s4 ∧ s4.does (strandTorn parent) false s4 ∧
    s4.does (domStopped parent.dom) false s4 ∧ s4.does (partOfDom parent.dom) (some 0) s4 ∧ s4.does (readyItems 0) n s4 ∧ n ≤ Config.readyQueueSize ∧
    s4.does (takeRecord parent.dom) (some 0x5040) s5 ∧ s5.does settled () s6 ∧
    s6.does (modStrand parent.va fun o => { o with spawned := o.spawned + 1 }) () s8 ∧
    s8.does (createStrand { blankStrand 0x5040 1 parent.dom 0 parent.launch with
      frame := 0, compl := 0, arg0 := 0, arg1 := 0, indecl := 0, lpkg := parent.lpkg, replayPin := parent.replayPin
      path := parent.path ++ [parent.spawned], island := parent.island, slot := parent.slot }) () s7 :=
  ⟨spawning, _, _, _, _, _, { strand1 with state := .running, onCore := some 0, started := true }, 0, yes, gives, yes,
    still (looks _) yes,
    still (strandTorn_readOnly _) (by decide +kernel),
    still (looks _) yes,
    still (looks _) yes,
    still (readOnly_bind readOnly_thePkg fun _ => readOnly_bind readOnly_thePkg fun _ => readOnly_pure _) (by decide +kernel), Nat.zero_le _,
    gives, acts, acts, acts⟩

/-- R165: a SPAWN that has its resources gives 0, and its strand is READY on a record of the pool. -/
theorem test_spawn : leads (exec (.spawn 0 1 2) spawning) (fun t => t.reg 0 == 0 &&
    t.pkg.sched.strands.map (fun s => (s.va, s.state)) == [(0x5000, .running), (0x5040, .ready)]) = true := by decide +kernel

/-- The header of an image of domain 1's strand, in slot 0, that is not sealed. -/
def head1 : Header := ⟨0, false, 1, 0, 0, 0, 0, 0x5000, 0x7000⟩

/-- A pre-empted strand whose image stands in save slot 0, a RESTORE of it; the slices hold the translation of its page and no
way of the shared cache for it. -/
def saved : State := (launched launch1 [{ strand1 with state := .preempted, savedAt := some 0, started := true }]).putPkg fun x => { x with
  home := { x.home with
    hbm := Memory.write [] 0x100000 0x80 head1.bytes, quotas := (List.range 512).map fun k => (64 * k, ⟨false, 0, 0, 0, 0⟩)
    sliceBuf := (List.range 512).map fun k => (k, ⟨0, { frame := 0, own := 0, apt := 0, pub := false, rap := true, cls := 3, size := 2 ^ 21 }⟩) }
  ctl := { x.ctl with
    saves := [⟨0, 0, 0x5000, none⟩]
    ctxs := x.ctl.ctxs.map fun c => (c.1, { c.2 with fetched := [⟨0, 0, dwords [(0, 0x8B), (1, 0x100000)]⟩] }) } }

/-- The check of its image. -/
def looked : M (Except Refused (Strand × Header × Nat)) := checkImage true 0x100000

/-- What it gives. -/
def image : Strand × Header × Nat :=
  match val saved looked (.error (.reason 0)) with
  | .ok x => x
  | .error _ => (strand1, head1, 0)

/-- The members of its gang whose records are judged. -/
def fresh (s : State) : Plan := (s.dev.gangOf 0 image.1).filterMap fun q => if q.2.savedAt.isNone then some (q.1, 0, q.2) else none

/-- The strand is no longer stopped by the host. -/
def unstopped (u : State) : State := u.on { u.dev with pkgs := u.dev.pkgs.map fun k => (k.1, { k.2 with sched := { k.2.sched with
  strands := k.2.sched.strands.map fun o =>
    if ((u.dev.gangOf 0 image.1).map fun q => (q.1, q.2.va)).contains (k.1, o.va) then { o with hostStop := false } else o } }) }

/-- After the check. -/
def checked : State := saved.after looked

/-- After the judgement of the records. -/
def judged : State := checked.after (refuseRecords (fresh checked))

/-- Where it goes. -/
def restorePlan : Plan := ((unstopped judged).dev.planFor 0 0 0 image.1).getD []

/-- The gang goes to its cores. -/
def placing : M (Option (Nat × Refused)) :=
  restoreGang image.1 image.2.1 image.2.2 (restorePlan.map fun q => (q.1, q.2.1, { q.2.2 with hostStop := false }))

/-- What the restore passes through, at one look. -/
def restoreGood : Bool :=
  picks saved looked (isOk image) && answers checked (ctxOfDom image.1.dom) (some 1) && answers checked (partOfCore 0) (some 0) &&
    image.1.onCore.isNone && answers checked (refuseRecords (fresh checked)) false &&
    (unstopped judged).dev.planFor 0 0 0 image.1 == some restorePlan && answers (unstopped judged) placing none

theorem restore_good : restoreGood = true := by decide +kernel

theorem witness_ControlCommands_restore : heads saved 1 0x8B [(1, 64)] = true ∧ ∃ u3 : State, saved.does (checkImage true 0x100000) (.ok image) checked ∧
    checked.does (ctxOfDom image.1.dom) (some 1) checked ∧ checked.does (partOfCore 0) (some 0) checked ∧ image.1.onCore = none ∧
    checked.does (refuseRecords (fresh checked)) false judged ∧ (unstopped judged).dev.planFor 0 0 0 image.1 = some restorePlan ∧
    (unstopped judged).does placing none u3 := by
  have h := restore_good
  simp only [restoreGood, Bool.and_eq_true] at h
  obtain ⟨⟨⟨⟨⟨⟨h1, h2⟩, h3⟩, h4⟩, h5⟩, h6⟩, h7⟩ := h
  exact ⟨yes, _, passes h1, still (looks _) h2, still (looks _) h3, Option.isNone_iff_eq_none.mp h4, gives h5, eq_of_beq h6, gives h7⟩

/-! ### Frames -/

/-- A scratchpad address in register 1. -/
def close : State := State.with onA 1 (BitVec.ofNat 64 scratchBase)

theorem witness_RegisterFrames : plain 0 ∧ plain 27 ∧ plain 31 ∧ close.ready (.add 0 27 31) ∧ close.ready (.popc 31 1) ∧ close.ready (.addi 2 1 0x1FFFF) ∧
    close.ready (.lui 31 0xFFFFF) ∧ close.ready (.cmp 7 0 1 31) ∧ close.straight .seq ∧ onX.ready (.add 0 27 31) ∧ onX.straight .seq ∧
    onX.ready (.vadd 63 62 0 3) ∧ onX.ready (.vneg 63 62 3) ∧ onX.ready (.vfma 63 62 0 2) :=
  ⟨Or.inl (by decide), Or.inl (by decide), Or.inr rfl, both, both, both, both, both, straight,
    both, straight, both, both, both⟩

theorem witness_ScratchUnits : plain 2 ∧ plain 1 ∧ close.cur.stream = .A ∧ close.straight .seq ∧ close.ready (.std 2 1 0 0) ∧
    close.does (guardHolds 0) true close ∧ close.does (guardHolds 1) false close ∧ space (close.operand 1 + (0 : BitVec 10).signExtend 64).toNat = .scratch 0 ∧
    (close.operand 1 + (0 : BitVec 10).signExtend 64).toNat % 8 = 0 ∧ close.core.locked (close.operand 1).toNat 8 = false ∧
    close.ready (.ld 2 1 3 0 0) ∧ close.core.lineWait = none ∧ space (close.operand 1 + (8 : BitVec 11).signExtend 64).toNat = .scratch 8 ∧
    poisonedParts close.core.scratchPois 8 8 = false :=
  ⟨Or.inl (by decide), Or.inl (by decide), rfl, straight, both, both, both, yes, yes,
    yes, both, rfl, yes, yes⟩

end Sys2Proof.Tests
end

section
/-!
PROOF. The computations that schedulers and launches are written with: what each leads to, said once.
-/

namespace Sys2Proof.Machine

theorem does_modSched (s : State) (f : Sched → Sched) :
    s.does (modSched f) () (s.putPkg fun x => { x with sched := f x.sched }) := does_modPkg s _

theorem does_modService (s : State) (f : Service → Service) :
    s.does (modService f) () (s.putPkg fun x => { x with service := f x.service }) := does_modPkg s _

theorem does_modStrand (s : State) (va : Nat) (f : Strand → Strand) :
    s.does (modStrand va f) () (s.putPkg fun x => { x with sched := { x.sched with
      strands := x.sched.strands.map fun o => if o.va == va then f o else o } }) := does_modSched s _

theorem does_deviceTime (s : State) : s.does deviceTime ((s.time - s.pkg.service.started) % 2 ^ 64) s :=
  does_bind (does_now s) (does_bind (does_thePkg s) (does_pure s _))

/-- A computation that leads to a state leads, at another place, to that state as it is seen from here. -/
theorem does_atCore_bind {α β : Type} {s t u : State} {p c : Nat} {st : Strm} {x : M α} {f : α → M β} {v : α} {w : β}
    (hx : s.does (atCore p c st x) v t) (hf : t.does (atCore p c st (f v)) w u) : s.does (atCore p c st (x >>= f)) w u :=
  does_bind (x := atCore p c st x) (f := fun v => atCore p c st (f v)) hx hf

end Sys2Proof.Machine
end

section
/-!
PROOF. The place of a core on the mesh of the package (R8 to R11): one step of HilbertXY carries a square and a digit to the
square of twice the side, one to one and block by block, and the steps together do the same.
-/

namespace Sys2Proof.Machine

/-! ### One step of the curve -/

/-- One step of HilbertXY at a scale: a point of the square of side `s`, turned as the digit says and moved to its quarter of the
square of side `2 * s`. -/
def hilbertStep (s digit x y : Nat) : Nat × Nat :=
  match digit with
  | 0 => (y, x)
  | 1 => (x, y + s)
  | 2 => (x + s, y + s)
  | _ => (s - 1 - y + s, s - 1 - x)

theorem hilbertXY_succ (n s t x y : Nat) :
    hilbertXY (n + 1) s t x y =
      hilbertXY n (2 * s) (t / 4) (hilbertStep s (t % 4) x y).1 (hilbertStep s (t % 4) x y).2 := by
  have high : t / 2 % 2 = t % 4 / 2 := by omega
  have low : (t + t % 4 / 2) % 2 = (t % 4 + t % 4 / 2) % 2 := by omega
  have digit : t % 4 = 0 ∨ t % 4 = 1 ∨ t % 4 = 2 ∨ t % 4 = 3 := by omega
  rw [hilbertXY, high, low]
  rcases digit with h | h | h | h <;> simp [hilbertStep, h]

theorem hilbertStep_bounds {s digit x y : Nat} (hx : x < s) (hy : y < s) :
    (hilbertStep s digit x y).1 < 2 * s ∧ (hilbertStep s digit x y).2 < 2 * s := by
  unfold hilbertStep
  split <;> constructor <;> dsimp only <;> omega

theorem hilbertStep_injective {s c d x y v w : Nat} (hc : c < 4) (hd : d < 4) (hx : x < s) (hy : y < s) (hv : v < s) (hw : w < s)
    (h : hilbertStep s c x y = hilbertStep s d v w) : c = d ∧ x = v ∧ y = w := by
  have quarter : c = 0 ∨ c = 1 ∨ c = 2 ∨ c = 3 := by omega
  have quarter' : d = 0 ∨ d = 1 ∨ d = 2 ∨ d = 3 := by omega
  rcases quarter with rfl | rfl | rfl | rfl <;> rcases quarter' with rfl | rfl | rfl | rfl <;>
    simp only [hilbertStep, Prod.mk.injEq] at h <;> omega

/-- At an even scale a step carries blocks of two by two to blocks of two by two. -/
theorem hilbertStep_block {s d x y v w : Nat} (hs : s % 2 = 0) (hx : x < s) (hy : y < s) (hv : v < s) (hw : w < s)
    (h1 : x / 2 = v / 2) (h2 : y / 2 = w / 2) :
    (hilbertStep s d x y).1 / 2 = (hilbertStep s d v w).1 / 2 ∧ (hilbertStep s d x y).2 / 2 = (hilbertStep s d v w).2 / 2 := by
  unfold hilbertStep
  split <;> constructor <;> dsimp only <;> omega

/-! ### The whole curve -/

theorem hilbertXY_bounds {n s t x y : Nat} (hx : x < s) (hy : y < s) :
    (hilbertXY n s t x y).1 < 2 ^ n * s ∧ (hilbertXY n s t x y).2 < 2 ^ n * s := by
  induction n generalizing s t x y with
  | zero => simpa [hilbertXY] using ⟨hx, hy⟩
  | succ n ih =>
    have step := hilbertStep_bounds (digit := t % 4) hx hy
    have side : 2 ^ (n + 1) * s = 2 ^ n * (2 * s) := by rw [Nat.pow_succ, Nat.mul_assoc]
    rw [hilbertXY_succ, side]
    exact ih step.1 step.2

theorem hilbertXY_injective {n s t u x y v w : Nat} (ht : t < 4 ^ n) (hu : u < 4 ^ n) (hx : x < s) (hy : y < s) (hv : v < s)
    (hw : w < s) (h : hilbertXY n s t x y = hilbertXY n s u v w) : t = u ∧ x = v ∧ y = w := by
  induction n generalizing s t u x y v w with
  | zero =>
    obtain ⟨rfl, rfl⟩ := Prod.mk.inj h
    exact ⟨by omega, rfl, rfl⟩
  | succ n ih =>
    rw [hilbertXY_succ, hilbertXY_succ] at h
    have b1 := hilbertStep_bounds (digit := t % 4) hx hy
    have b2 := hilbertStep_bounds (digit := u % 4) hv hw
    obtain ⟨upper, e1, e2⟩ := ih (by omega) (by omega) b1.1 b1.2 b2.1 b2.2 h
    obtain ⟨digit, rest⟩ := hilbertStep_injective (by omega) (by omega) hx hy hv hw (Prod.ext e1 e2)
    exact ⟨by omega, rest⟩

/-- From an even scale on, the curve carries a block of two by two to a block of two by two. -/
theorem hilbertXY_block {n s t x y v w : Nat} (hs : s % 2 = 0) (hx : x < s) (hy : y < s) (hv : v < s) (hw : w < s)
    (h1 : x / 2 = v / 2) (h2 : y / 2 = w / 2) :
    (hilbertXY n s t x y).1 / 2 = (hilbertXY n s t v w).1 / 2 ∧ (hilbertXY n s t x y).2 / 2 = (hilbertXY n s t v w).2 / 2 := by
  induction n generalizing s t x y v w with
  | zero => exact ⟨h1, h2⟩
  | succ n ih =>
    have b1 := hilbertStep_bounds (digit := t % 4) hx hy
    have b2 := hilbertStep_bounds (digit := t % 4) hv hw
    have block := hilbertStep_block (d := t % 4) hs hx hy hv hw h1 h2
    rw [hilbertXY_succ, hilbertXY_succ]
    exact ih (by omega) b1.1 b1.2 b2.1 b2.2 block.1 block.2

/-! ### Places of the package mesh -/

/-- A core's place on the mesh of its die (R8). -/
def onDie (core : Nat) : Nat × Nat := hilbertXY 5 1 (core % 1024) 0 0

theorem meshOf_eq (core : Nat) :
    meshOf core = if core / 1024 < 4 then (32 * (core / 1024) + (onDie core).1, 31 - (onDie core).2)
      else (32 * (7 - core / 1024) + 31 - (onDie core).1, 32 + (onDie core).2) := rfl

theorem onDie_bounds (core : Nat) : (onDie core).1 < 32 ∧ (onDie core).2 < 32 :=
  hilbertXY_bounds (n := 5) (by decide) (by decide)

theorem onDie_injective {c e : Nat} (h : onDie c = onDie e) : c % 1024 = e % 1024 :=
  (hilbertXY_injective (n := 5) (Nat.mod_lt _ (by decide)) (Nat.mod_lt _ (by decide)) (by decide) (by decide) (by decide) (by decide) h).1

/-- The cores of a quad stand in one block of two by two of their die: the first step places them in it, the later ones keep it
together. -/
theorem onDie_block {c e : Nat} (h : c / 4 = e / 4) :
    (onDie c).1 / 2 = (onDie e).1 / 2 ∧ (onDie c).2 / 2 = (onDie e).2 / 2 := by
  have start (k : Nat) : (hilbertStep 1 (k % 1024 % 4) 0 0).1 < 2 ∧ (hilbertStep 1 (k % 1024 % 4) 0 0).2 < 2 :=
    hilbertStep_bounds (by decide) (by decide)
  obtain ⟨hc1, hc2⟩ := start c
  obtain ⟨he1, he2⟩ := start e
  have quad : c % 1024 / 4 = e % 1024 / 4 := by omega
  unfold onDie
  rw [hilbertXY_succ 4, hilbertXY_succ 4, quad]
  exact hilbertXY_block (by decide) hc1 hc2 he1 he2 (by omega) (by omega)

theorem meshOf_bounds (core : Nat) : (meshOf core).1 < 128 ∧ (meshOf core).2 < 64 := by
  obtain ⟨h1, h2⟩ := onDie_bounds core
  rw [meshOf_eq]
  split <;> constructor <;> dsimp only <;> omega

theorem meshOf_injective {c e : Nat} (hc : c < 8192) (he : e < 8192) (h : meshOf c = meshOf e) : c = e := by
  obtain ⟨hc1, hc2⟩ := onDie_bounds c
  obtain ⟨he1, he2⟩ := onDie_bounds e
  have place : c / 1024 = e / 1024 ∧ onDie c = onDie e := by
    rw [Prod.ext_iff, meshOf_eq, meshOf_eq] at h
    rw [Prod.ext_iff]
    split at h <;> split at h <;> dsimp only at h <;> omega
  have := onDie_injective place.2
  omega

theorem meshOf_block {c e : Nat} (h : c / 4 = e / 4) :
    (meshOf c).1 / 2 = (meshOf e).1 / 2 ∧ (meshOf c).2 / 2 = (meshOf e).2 / 2 := by
  obtain ⟨hc1, hc2⟩ := onDie_bounds c
  obtain ⟨he1, he2⟩ := onDie_bounds e
  obtain ⟨h1, h2⟩ := onDie_block h
  have die : c / 1024 = e / 1024 := by omega
  rw [meshOf_eq, meshOf_eq, die]
  split <;> constructor <;> dsimp only <;> omega

/-- A die's curve begins at one corner of its row of the package and ends at the next. -/
theorem meshOf_ends {d : Nat} (hd : d < 4) :
    meshOf (1024 * d) = (32 * d, 31) ∧ meshOf (1024 * d + 1023) = (32 * d + 31, 31) ∧
      meshOf (1024 * (d + 4)) = (32 * (3 - d) + 31, 32) ∧ meshOf (1024 * (d + 4) + 1023) = (32 * (3 - d), 32) := by
  have start (e : Nat) : onDie (1024 * e) = (0, 0) := by
    rw [onDie, Nat.mul_mod_right]; rfl
  have finish (e : Nat) : onDie (1024 * e + 1023) = (31, 0) := by
    rw [onDie, Nat.mul_add_mod]; rfl
  simp only [meshOf_eq, start, finish]
  refine ⟨?_, ?_, ?_, ?_⟩ <;> split <;> simp only [Prod.mk.injEq, and_true] <;> omega

/-! ### CORE -/

theorem coreWord_toNat {core : Nat} (h : core < 8192) :
    (coreWord core).toNat = core + core / 1024 * 2 ^ 13 + core / 4 * 2 ^ 16 + core % 4 * 2 ^ 27 + (meshOf core).1 * 2 ^ 29 +
      (meshOf core).2 * 2 ^ 36 := by
  obtain ⟨h1, h2⟩ := meshOf_bounds core
  unfold coreWord dieOf quadOf
  rw [BitVec.toNat_ofNat]
  omega

/-- The fields of Table 1.2, each below its width, are read back from their sum. -/
theorem natBits_packed {core die quad place x y w : Nat} (hcore : core < 2 ^ 13) (hdie : die < 2 ^ 3) (hquad : quad < 2 ^ 11)
    (hplace : place < 2 ^ 2) (hx : x < 2 ^ 7) (hy : y < 2 ^ 6)
    (hw : w = core + die * 2 ^ 13 + quad * 2 ^ 16 + place * 2 ^ 27 + x * 2 ^ 29 + y * 2 ^ 36) :
    natBits w 12 0 = core ∧ natBits w 15 13 = die ∧ natBits w 26 16 = quad ∧ natBits w 28 27 = place ∧ natBits w 35 29 = x ∧
      natBits w 41 36 = y ∧ natBits w 63 42 = 0 := by
  simp only [natBits, Nat.shiftRight_eq_div_pow]
  omega

theorem coreWord_fields {core : Nat} (h : core < 8192) :
    natBits (coreWord core).toNat 12 0 = core ∧ natBits (coreWord core).toNat 15 13 = core / 1024 ∧
      natBits (coreWord core).toNat 26 16 = core / 4 ∧ natBits (coreWord core).toNat 28 27 = core % 4 ∧
      natBits (coreWord core).toNat 35 29 = (meshOf core).1 ∧ natBits (coreWord core).toNat 41 36 = (meshOf core).2 ∧
      natBits (coreWord core).toNat 63 42 = 0 := by
  obtain ⟨h1, h2⟩ := meshOf_bounds core
  exact natBits_packed (by omega) (by omega) (by omega) (by omega) h1 h2 (coreWord_toNat h)

/-- Settles O37: the curve is one to one and keeps blocks together at every step, and the fields of CORE do not overlap. -/
theorem coreCoordinates : Obligations.CoreCoordinates := by
  unfold Obligations.CoreCoordinates
  refine ⟨fun core h => ?_, fun _ _ => meshOf_injective, fun q j _ hj => meshOf_block (by omega), fun _ => meshOf_ends, rfl⟩
  obtain ⟨hx, hy⟩ := meshOf_bounds core
  exact ⟨hx, hy, coreWord_fields h⟩

end Sys2Proof.Machine
end

section
/-!
PROOF. What the events of a launch do (R28, R29, R344 to R359): status words combine field by field, and each event, where its
conditions hold, passes through its computations in order.
-/

namespace Sys2Proof.Machine

/-! ### Status words (R28, Table 18.6) -/

theorem combineStatus_eq (a b : Nat) :
    combineStatus a b = min (natBits a 63 32 + natBits b 63 32) 0xFFFFFFFF * 2 ^ 32 +
      min (natBits a 31 16 + natBits b 31 16) 0xFFFF * 2 ^ 16 + max (natBits a 15 8) (natBits b 15 8) * 2 ^ 8 +
      (natBits a 7 0 ||| natBits b 7 0) := by
  have saturated (x m : Nat) : (if m < x then m else x) = min x m := by split <;> omega
  simp only [combineStatus, saturated]

theorem combineStatus_comm (a b : Nat) : combineStatus a b = combineStatus b a := by
  rw [combineStatus_eq, combineStatus_eq, Nat.add_comm (natBits a 63 32), Nat.add_comm (natBits a 31 16), Nat.max_comm, Nat.or_comm]

/-- The fields of a status word, each below its width, are read back from their sum. -/
theorem natBits_status {done bad cause flags w : Nat} (hdone : done < 2 ^ 32) (hbad : bad < 2 ^ 16) (hcause : cause < 2 ^ 8)
    (hflags : flags < 2 ^ 8) (hw : w = done * 2 ^ 32 + bad * 2 ^ 16 + cause * 2 ^ 8 + flags) :
    natBits w 63 32 = done ∧ natBits w 31 16 = bad ∧ natBits w 15 8 = cause ∧ natBits w 7 0 = flags := by
  simp only [natBits, Nat.shiftRight_eq_div_pow]
  omega

theorem combineStatus_fields (a b : Nat) :
    natBits (combineStatus a b) 63 32 = min (natBits a 63 32 + natBits b 63 32) 0xFFFFFFFF ∧
      natBits (combineStatus a b) 31 16 = min (natBits a 31 16 + natBits b 31 16) 0xFFFF ∧
      natBits (combineStatus a b) 15 8 = max (natBits a 15 8) (natBits b 15 8) ∧
      natBits (combineStatus a b) 7 0 = natBits a 7 0 ||| natBits b 7 0 := by
  have byte (x hi lo : Nat) (h : hi + 1 - lo = 8) : natBits x hi lo < 2 ^ 8 := by
    rw [natBits, h]; exact Nat.mod_lt _ (by decide)
  exact natBits_status (by omega) (by omega) (Nat.max_lt.mpr ⟨byte a _ _ rfl, byte b _ _ rfl⟩)
    (Nat.or_lt_two_pow (byte a _ _ rfl) (byte b _ _ rfl)) (combineStatus_eq a b)

theorem combineStatus_assoc (a b c : Nat) :
    combineStatus (combineStatus a b) c = combineStatus a (combineStatus b c) := by
  obtain ⟨ab1, ab2, ab3, ab4⟩ := combineStatus_fields a b
  obtain ⟨bc1, bc2, bc3, bc4⟩ := combineStatus_fields b c
  have counts (x y z m : Nat) : min (min (x + y) m + z) m = min (x + min (y + z) m) m := by omega
  rw [combineStatus_eq (combineStatus a b), combineStatus_eq a (combineStatus b c), ab1, ab2, ab3, ab4, bc1, bc2, bc3, bc4,
    counts, counts, Nat.max_assoc, Nat.or_assoc]

/-! ### Graphs (R348 to R351) -/

section
variable {s u v t : State} {id n : Nat}

theorem graphNodeFinish_does {x : Strand}
    (hx : s.pkg.sched.strands.find? (fun s => s.launch == id && s.node == some n && s.state.ended) = some x)
    (hg : (s.putPkg fun y => { y with sched := { y.sched with strands := y.sched.strands.map fun o =>
      if o.va == x.va then { o with node := none } else o } }).does (setGraph id fun ns g => gStrandEnd ns n g) () t) :
    s.does (graphNodeFinish id n) () t := by
  refine does_bind (does_thePkg s) ?_
  rw [hx]
  exact does_bind (does_modStrand s _ _) hg

theorem controlNodeEval_does {w : Option Nat} (hr : s.does (readControl id n (fun k => k == 1 || k == 3)) (some w) u)
    (hg : u.does (setGraph id fun ns g => gControl ns n w g) () t) : s.does (controlNodeEval id n) () t :=
  does_bind hr hg

theorem loopNodeEval_does {w : Option Nat} {l : Launch} {ns : List GNode} {g : GState}
    (hr : s.does (readControl id n (· == 2)) (some w) u) (hl : u.does (findLaunch id) (some l) u) (hlg : l.graph = some (ns, g))
    (hc : if (gLoop ns n w g).2 then u.does (contribute s.cur.pkg id none statusLoopCap) () v else v = u)
    (hg : v.does (setGraph id fun ns g => (gLoop ns n w g).1) () t) : s.does (loopNodeEval id n) () t := by
  have here : u.cur = s.cur := by rw [hr.2]; rfl
  refine does_bind hr (does_bind hl ?_)
  simp only [Option.bind_some, hlg]
  split at hc
  · next capped =>
    rw [if_pos capped]
    refine does_bind (does_read u) (does_bind (v := ()) ?_ hg)
    rw [State.env, here]
    exact hc
  · next free =>
    rw [if_neg free]
    exact hc ▸ hg

/-! ### Coverage bands (R355 to R359) -/

theorem bandStart_does (ho : s.does (setLaunch id Launch.openBand) () u) (hp : u.does (pumpLaunch id) () t) :
    s.does (bandStart id) () t := does_bind ho hp

theorem bandReconstruct_does {l : Launch} {w : Walk} {c : Coverage} {errs : List (Option Nat)}
    (hl : s.does (findLaunch id) (some l) s) (hw : l.walk = some w) (hc : w.cov = some c) (ht : l.torn = false)
    (ho : w.bandOpen = true) (hn : l.toCreate = []) (he : s.dev.launchEnded s.cur.pkg id = true)
    (hs : s.dev.launchWrites s.cur.pkg id = false)
    (hr : s.does ((c.skipped w.rung w.nx w.ny w.bandh w.next).mapM fun q => reconstructPoint id l.dom w c q.1.1 q.1.2 q.2) errs u)
    (hf : u.does (setLaunch id fun l => { l with
      walk := some (w.closeBand c (c.bandError (errs.filterMap fun x => x)))
      maxErr := Nat.max l.maxErr (c.bandError (errs.filterMap fun x => x)) }) () t) :
    s.does (bandReconstruct id) () t := by
  refine does_bind hl ?_
  simp only [hw, hc, ht, ho, hn]
  refine does_bind (does_get s) (does_bind (does_read s) ?_)
  rw [State.env, he]
  refine does_bind (does_get s) (does_bind (does_read s) ?_)
  rw [State.env, hs]
  exact does_bind hr hf

/-! ### Completion (R27 to R29, R344, R345) -/

theorem completionForward_does {l : Launch} {i : Nat} {node : TreeNode} (hl : s.does (findLaunch id) (some l) s)
    (hi : l.tree.findIdx? (fun q => q.core == n) = some i) (hn : l.tree[i]? = some node) (h0 : i ≠ 0)
    (hf : node.forwarded = false) (hx : s.dev.treeFixed s.cur.pkg l = true) (he : s.dev.slotEnded s.cur.pkg id n = true)
    (hc : l.childrenDone i = true)
    (hu : s.does (setLaunch id fun l => { l with tree := l.tree.zipIdx.map fun q =>
      if q.2 == (i - 1) / 4 then { q.1 with
        word := combineStatus q.1.word node.word, maxErr := Nat.max q.1.maxErr node.maxErr, heard := q.1.heard ++ [n] }
      else if q.2 == i then { q.1 with forwarded := true } else q.1 }) () u)
    (hr : u.does (returnRecords id (some n)) () t) : s.does (completionForward id n) () t := by
  refine does_bind (does_get s) (does_bind (does_read s) (does_bind hl ?_))
  simp only [hi, hn]
  rw [State.env, hf, hx, he, hc, if_neg (by simp [h0])]
  exact does_bind hu hr

theorem completionRecordWrite_does {l : Launch} (hl : s.does (findLaunch id) (some l) s)
    (hx : s.dev.treeFixed s.cur.pkg l = true) (he : s.dev.launchEnded s.cur.pkg id = true)
    (hf : (l.tree.drop 1).all (·.forwarded) = true) (ho : s.dev.launchOutstanding s.cur.pkg id = false) (ha : l.arc = none)
    {u1 u2 : State}
    (hw : s.does (sysWrite (l.complVa + 8) 56 (recordBytes l ((s.time - s.pkg.service.started) % 2 ^ 64) / 2 ^ 64)) () u)
    (hd : u.does (sysWrite l.complVa 8 (recordBytes l ((s.time - s.pkg.service.started) % 2 ^ 64) % 2 ^ 64)) () u1)
    (hr : u1.does (returnRecords id none) () u2) :
    s.does (completionRecordWrite id) () ((u2.putPkg fun y => { y with sched := { y.sched with
      launches := y.sched.launches.filter fun l => l.id != id, written := y.sched.written ++ [(id, l.complVa)] } }).putPkg fun y =>
        { y with service := y.service.launchOver id }) := by
  refine does_bind (does_get s) (does_bind (does_read s) (does_bind hl ?_))
  dsimp only
  rw [State.env, hx, he, hf, ho, if_neg (by decide)]
  refine does_bind (does_deviceTime s) (does_bind hw (does_bind hd (does_bind hr ?_)))
  refine does_bind (does_modSched u2 _) (does_bind (does_modService _ _) ?_)
  rw [ha]
  exact does_pure _ ()

end

/-- Settles O56: status words combine as their fields do, and each event is its computations in order. -/
theorem launchEvents : Obligations.LaunchEvents := by
  unfold Obligations.LaunchEvents
  intro s u u1 u2 t id n
  refine ⟨fun x y z => ⟨combineStatus_comm x y, combineStatus_assoc x y z⟩, ?graph, ?control, ?loop, ?start, ?reconstruct, ?forward,
    ?record⟩
  case graph => exact fun x hx hg => event_next (graphNodeFinish_does hx hg)
  case control => exact fun w hr hg => event_next (controlNodeEval_does hr hg)
  case loop => exact fun w l ns g hr hl hlg hc hg => event_next (loopNodeEval_does hr hl hlg hc hg)
  case start => exact fun ho hp => event_next (bandStart_does ho hp)
  case reconstruct =>
    exact fun l w c errs hl hw hc ht ho hn he hs hr hf => event_next (bandReconstruct_does hl hw hc ht ho hn he hs hr hf)
  case forward =>
    exact fun l i node hl hi hn h0 hf hx he hc hu hr => event_next (completionForward_does hl hi hn h0 hf hx he hc hu hr)
  case record =>
    exact fun l hl hx he hf ho ha hw hd hr => event_next (completionRecordWrite_does hl hx he hf ho ha hw hd hr)

end Sys2Proof.Machine
end

section
/-!
PROOF. What the scheduler's events at a core do (R21, R23, R334 to R341): a strand taken up in place, an item placed or refused for a
bad record, the dock loop, ageing and copy-ins.
-/

namespace Sys2Proof.Machine

section
variable {s u u1 u2 t : State}

/-! ### A strand that waited in place (Table 18.3) -/

section
variable {x : Strand} {h land : Nat} {r : Requester}
  (hx : s.pkg.sched.strands.find? (fun q => q.va == s.core.strand.toNat && q.onCore == some s.cur.core && q.state == .ready) = some x)

include hx

theorem takeInPlace_resolving {p : Pending} (hm : s.core.mode = .resolving p) (ha : s.does runAgain () u) (hn : u.does runOn () u1)
    (ho : u1.does raiseOwed () t) : s.does takeInPlace true t := by
  refine does_bind (does_theCore s) (does_bind (does_read s) (does_bind (does_thePkg s) ?_))
  simp only [State.env, hx, hm]
  exact does_bind ha (does_bind hn (does_bind ho (does_pure t true)))

theorem takeInPlace_found {k : Code} (hm : s.core.mode = .fetching h land)
    (he : s.pkg.sched.endedFor s.cur.core s.core.strand.toNat = some r) (hd : s.does (dropRequests s.core.strand.toNat) () u)
    (hk : r.found = some k) (hc : s.core.store.contains k = true) (hg : u.does (goOn k h land) () t) : s.does takeInPlace true t := by
  refine does_bind (does_theCore s) (does_bind (does_read s) (does_bind (does_thePkg s) ?_))
  simp only [State.env, hx, hm, he, hk]
  refine does_bind hd ?_
  rw [if_pos hc]
  exact does_bind hg (does_pure t true)

theorem takeInPlace_missed (hm : s.core.mode = .fetching h land)
    (he : s.pkg.sched.endedFor s.cur.core s.core.strand.toNat = some r) (hd : s.does (dropRequests s.core.strand.toNat) () u)
    (hk : r.found = none) (hg : u.does (goWithout h land) () t) : s.does takeInPlace true t := by
  refine does_bind (does_theCore s) (does_bind (does_read s) (does_bind (does_thePkg s) ?_))
  simp only [State.env, hx, hm, he, hk]
  exact does_bind hd (does_bind hg (does_pure t true))

end

theorem strandDispatch_in_place (ht : s.does takeInPlace true t) : s.does strandDispatch () t :=
  does_bind (does_read s) (does_bind ht (does_pure t ()))

/-! ### An item that is placed or refused -/

section
variable {part : Nat} {x : Strand} {plan : Plan} (hi : s.does takeInPlace false s) (ha : s.does priorityAgeing () u)
  (hp : u.does (partOfCore s.cur.core) (some part) u) (hc : u.does (chooseItem part) (some (x, plan)) u1)

include hi ha hp hc

theorem strandDispatch_refused (hr : u1.does (refuseRecords plan) true t) : s.does strandDispatch () t :=
  does_bind (does_read s) (does_bind hi (does_bind ha (does_bind hp (does_bind hc (does_bind hr (does_pure t ()))))))

theorem strandDispatch_placed (hr : u1.does (refuseRecords plan) false u2)
    (hd : (u2.putPkg fun y => { y with sched := { y.sched with
      lastStarted := ((part, u2.pkg.ctl.level x), x.dom) :: y.sched.lastStarted.filter fun q => q.1 != (part, u2.pkg.ctl.level x) } }).does
        (carryOut plan) () t) :
    s.does strandDispatch () t :=
  does_bind (does_read s) (does_bind hi (does_bind ha (does_bind hp (does_bind hc (does_bind hr
    (does_bind (does_thePkg u2) (does_bind (does_modSched u2 _) hd)))))))

end

section
variable {q : Nat × Nat × Strand} {v : Nat} (hw : q.2.2.waits = true) (hv : s.does (atCore q.1 q.2.1 .A (sysRead q.2.2.va 64)) (.ok v) u)

include hw hv

theorem refuseRecords_sound (hb : recordBad v = false) : s.does (refuseRecords [q]) false u := by
  unfold refuseRecords
  simp only [List.foldlM_cons, List.foldlM_nil, hw]
  refine does_bind (does_atCore_bind hv ?_) (does_pure u false)
  simp only [hb]
  exact does_pure u false

theorem refuseRecords_bad (hb : recordBad v = true)
    (he : u.does (atCore q.1 q.2.1 .A (endAway q.2.2 Config.badRecordCause.toNat 0 false)) () t) :
    s.does (refuseRecords [q]) true t := by
  unfold refuseRecords
  simp only [List.foldlM_cons, List.foldlM_nil, hw]
  refine does_bind (does_atCore_bind hv ?_) (does_pure t true)
  simp only [hb]
  exact does_atCore_bind he (does_pure t true)

end

/-! ### Ageing (R337) -/

theorem does_priorityAgeing (s : State) : s.does priorityAgeing () (s.putPkg fun y => { y with
    sched := y.sched.age s.pkg.ctl s.time (48 * y.sched.strands.length) }) :=
  does_bind (does_now s) (does_bind (does_thePkg s) (does_modSched s _))

/-! ### The dock loop (R24, R333) -/

theorem dockEnter_does {m : Message} {x : Strand} {e : DomEntry} (hm : s.core.mode = .idle)
    (hi : s.core.inbox.find? (fun m => m.ch == 0 && m.sender == systemSender) = some m)
    (hx : s.pkg.sched.strands.find? (fun q => q.onCore == some s.cur.core && q.state == .running) = some x)
    (hu : s.pkg.sched.uninstalled x.va = false) (he : findAt s.pkg.ctl.doms x.dom = some e)
    (hd : (s.put fun c => { c with inbox := c.inbox.erase m }).does (dockStrand x e) () t) : s.does dockEnter () t := by
  refine does_bind (does_theCore s) (does_bind (does_read s) ?_)
  simp only [hm, hi]
  refine does_bind (does_thePkg s) ?_
  simp only [State.env, hx, hu]
  refine does_bind (does_modCore s _) ?_
  rw [he]
  exact hd

/-! ### Copy-ins (R286, R340, R341) -/

section
variable {x : Strand} {ds : List CopyIn} {ids : List Nat}
  (hx : s.pkg.sched.strands.find? (fun q => q.onCore == some s.cur.core && q.state == .suspInput && !q.started && q.bound.isNone) = some x)
  (hd : x.indecl.toNat % 32 = 0) (hr : s.does (readDecls x 4 0) (.ok ds) u) (hb : hullsBad ds = false)

include hx hd hr hb

theorem copyIn_astray (ha : ds.any CopyIn.astray = true) (hf : u.does (inputFailed x Cause.aperture.code) () t) :
    s.does copyIn () t := by
  refine does_bind (does_read s) (does_bind (does_thePkg s) ?_)
  simp only [State.env, hx, hd]
  refine does_bind hr ?_
  simp only [hb, ha]
  exact hf

theorem copyIn_issues (ha : ds.any CopyIn.astray = false) (hn : u.does (ds.mapM fun _ => nextSerial) ids u1)
    (hs : (u1.put fun c => { c with cmds := c.cmds ++ (ids.zip ds).map fun q =>
      ⟨q.1, .copy, 0x73, none, x.dom, [BitVec.ofNat 64 (scratchBase + q.2.dst), BitVec.ofNat 64 q.2.src] ++ q.2.words⟩ }).does
        (setStrand x.va fun o => { o with bound := some s.cur.core, copyIns := ids }) () t) : s.does copyIn () t := by
  refine does_bind (does_read s) (does_bind (does_thePkg s) ?_)
  simp only [State.env, hx, hd]
  refine does_bind hr ?_
  simp only [hb, ha]
  exact does_bind hn (does_bind (does_modCore u1 _) hs)

end

theorem copyInComplete_starts {x y : Strand}
    (hx : s.pkg.sched.strands.find? (fun q => q.onCore == some s.cur.core && q.state == .suspInput && !q.started &&
      q.bound == some s.cur.core && q.copyIns.isEmpty) = some x)
    (ht : s.does (strandTorn x) false s) (hb : x.copyBad = none)
    (hs : s.does (setStrand x.va fun o => { o with
      state := .running, bound := if o.gang || o.gangId.isSome then some s.cur.core else none }) () u)
    (hy : u.does (findStrand x.va) (some y) u) (hd : u.does (deliver s.cur.core y) () t) : s.does copyInComplete () t := by
  refine does_bind (does_read s) (does_bind (does_thePkg s) ?_)
  simp only [State.env, hx]
  refine does_bind ht ?_
  simp only [hb]
  exact does_bind hs (does_bind hy hd)

end

/-- Settles O57: each event is its computations in order; ageing alone changes nothing but the queues. -/
theorem schedulerEvents : Obligations.SchedulerEvents := by
  unfold Obligations.SchedulerEvents
  intro s u u1 u2 t
  refine ⟨fun x hx => ⟨?resolving, ?fetching⟩, ?item, ?records, ?ageing, ?dock, ?copies, ?inputs⟩
  case resolving =>
    exact fun p hm ha hn ho => event_next (strandDispatch_in_place (takeInPlace_resolving hx hm ha hn ho))
  case fetching =>
    intro h land r hm he hd
    exact ⟨fun k hk hc hg => event_next (strandDispatch_in_place (takeInPlace_found hx hm he hd hk hc hg)),
      fun hk hg => event_next (strandDispatch_in_place (takeInPlace_missed hx hm he hd hk hg))⟩
  case item =>
    intro part x plan hi ha hp hc
    exact ⟨fun hr => event_next (strandDispatch_refused hi ha hp hc hr),
      fun hr hd => event_next (strandDispatch_placed hi ha hp hc hr hd)⟩
  case records => exact fun q v hw hv => ⟨refuseRecords_sound hw hv, refuseRecords_bad hw hv⟩
  case ageing =>
    refine ⟨_, event_next (does_priorityAgeing s), ?_⟩
    simp only [State.putPkg_pkg, and_self]
  case dock => exact fun m x e hm hi hx hu he hd => event_next (dockEnter_does hm hi hx hu he hd)
  case copies =>
    intro x ds ids hx hd hr hb
    exact ⟨fun ha hf => event_next (copyIn_astray hx hd hr hb ha hf), fun ha hn hs => event_next (copyIn_issues hx hd hr hb ha hn hs)⟩
  case inputs => exact fun x y hx ht hb hs hy hd => event_next (copyInComplete_starts hx ht hb hs hy hd)

end Sys2Proof.Machine
end

section
/-!
PROOF. The halves of a pair (R57 to R59, R66, R170): what a unit leads to whose effect goes on and one whose effect begins to wait,
whatever its length, and what the effect of a pair is in the two cases.
-/

namespace Sys2Proof.Machine

theorem unitOn_does {s t : State} {x : M Unit} (hm : s.core.mode = .running) (hx : s.does x () t) : unitOn x s = .next t := by
  rw [unitOn, if_pos hm]
  exact event_next hx

section
variable {s s0 s1 s2 m u : State} {f g : Flow} {size : Nat}

theorem does_finishUnit (hf : f = .seq ∨ ∃ t, f = .br t) (h : (s.str.advance size f).2 = none) :
    s.does (finishUnit size f) () (s.put fun c => c.setStr s.cur.stream ((c.str s.cur.stream).advance size f).1) := by
  have h' : ((s.core.str s.cur.stream).advance size f).2 = none := h
  have on : s.does (do
      let st ← theStream
      let (t, tgt) := ((← theCore).str st).advance size f
      modCore fun c => c.setStr st t
      match tgt with
      | some w => transfer w
      | none => return) () (s.put fun c => c.setStr s.cur.stream ((c.str s.cur.stream).advance size f).1) := by
    refine does_bind (does_theStream s) (does_bind (does_theCore s) (does_bind (does_modCore s _) ?_))
    change (s.put fun c => c.setStr s.cur.stream ((s.core.str s.cur.stream).advance size f).1).does
      (match ((s.core.str s.cur.stream).advance size f).2 with
        | some w => transfer w
        | none => pure ()) () _
    rw [h']
    exact does_pure (s.put _) ()
  rcases hf with rfl | ⟨t, rfl⟩ <;> exact on

theorem does_beginRegion (s m : State) : s.does (beginRegion m.core) () (s.begun m) :=
  does_bind (does_theStream s) (does_modCore s _)

section
variable {jt commits : Bool} {checks pre : M Unit} {act : M Flow} (hk : s.does checks () s) (hp : s.does pre () m)
include hk hp

/-- A unit that goes on: the stream advances, and the region of a commit point begins. -/
theorem runUnit_next (ha : m.does act f u) (hf : f = .seq ∨ ∃ t, f = .br t) (h : (u.str.advance size f).2 = none) :
    let v := u.put fun c => c.setStr u.cur.stream ((c.str u.cur.stream).advance size f).1
    s.does (runUnit size jt commits checks pre act) () (if commits then v.begun m else v) := by
  refine does_bind (does_attempt hk) (does_bind (does_attempt hp) (does_bind (does_theCore m) (does_bind (does_attempt ha) ?_)))
  have on : u.does (do finishUnit size f; if commits then beginRegion m.core) ()
      (let v := u.put fun c => c.setStr u.cur.stream ((c.str u.cur.stream).advance size f).1
       if commits then v.begun m else v) := by
    refine does_bind (does_finishUnit hf h) ?_
    cases commits with
    | true => exact does_beginRegion _ m
    | false => exact does_pure _ ()
  rcases hf with rfl | ⟨t, rfl⟩ <;> exact on

/-- A unit that begins to wait has issued. -/
theorem runUnit_waits (ha : m.does act .wait u) :
    s.does (runUnit size jt commits checks pre act) () (u.put fun c => c.issued m.core commits) :=
  does_bind (does_attempt hk) (does_bind (does_attempt hp) (does_bind (does_theCore m) (does_bind (does_attempt ha)
    (does_modCore u _))))

end

section
variable {lo hi : Half} (hhi : (s1.put fun c => c.withSources s0.core).does (halfAct (decodeHalf hi)) g s2)
include hhi

/-- The high half runs on the sources that the low half found, and what the low half wrote comes beside what it writes. -/
theorem actPair_next (hlo : s0.does (halfAct (decodeHalf lo)) f s1) (hf : f = .seq ∨ ∃ t, f = .br t) :
    s0.does (actPair lo hi) f (s2.put fun c => c.withWrites s0.core s1.core) := by
  refine does_bind (does_theCore s0) (does_bind hlo ?_)
  rcases hf with rfl | ⟨t, rfl⟩ <;>
    exact does_bind (does_theCore s1) (does_bind (does_modCore s1 _) (does_bind hhi (does_bind (does_modCore s2 _)
      (does_pure _ _))))

/-- Of a high half beside a low half that begins to wait, what it pops stays. -/
theorem actPair_waits (hlo : s0.does (halfAct (decodeHalf lo)) .wait s1) :
    s0.does (actPair lo hi) .wait (s2.put fun c => { s1.core with sq0 := c.sq0, sq1 := c.sq1 }) :=
  does_bind (does_theCore s0) (does_bind hlo (does_bind (does_theCore s1) (does_bind (does_modCore s1 _) (does_bind hhi
    (does_bind (does_modCore s2 _) (does_pure _ _))))))

end

theorem cur_eq_of_does {α : Type} {s t : State} {x : M α} {v : α} (h : s.does x v t) : t.cur = s.cur := by rw [h.2]; rfl

end

/-- Settles O47: a pair is a unit of eight bytes whose effect is its halves', the high one on the sources that the low one found. -/
theorem pairedHalves : Obligations.PairedHalves := by
  unfold Obligations.PairedHalves
  intro lo hi span s s0 s1 s2 f hm hk hp hlo
  refine ⟨?waits, ?next⟩
  case waits =>
    rintro rfl g hhi
    have run := runUnit_waits (size := 8) (jt := false) (commits := pairCommits lo) hk hp (actPair_waits hhi hlo)
    rw [State.put_put] at run
    exact unitOn_does hm run
  case next =>
    intro hf g hhi
    dsimp only
    intro straight
    have pair := actPair_next hhi hlo hf
    have here : (s2.put fun c => c.withWrites s0.core s1.core).cur = s.cur :=
      (cur_eq_of_does pair).trans (cur_eq_of_does hp)
    have run := runUnit_next (jt := false) (commits := pairCommits lo) hk hp pair hf straight
    rw [here] at run
    exact unitOn_does hm run

end Sys2Proof.Machine
end

section
/-!
PROOF. The commands of the engines (R53, R102, R104, R259, R262, R265, R284, R367): how one starts and ends, and what each engine's
completion, a message's events and the loading of a table slot lead to.
-/

namespace Sys2Proof.Machine

/-! ### Sparse maps -/

theorem findAt_setAt_same {α : Type} (l : List (Nat × α)) (k : Nat) (x : α) : findAt (setAt l k x) k = some x := by
  induction l with
  | nil => simp [setAt, findAt]
  | cons p l ih =>
    unfold setAt
    split
    · simp [findAt]
    · split
      · simp [findAt]
      · next hj =>
        simp only [findAt] at ih ⊢
        simp [hj, ih]

theorem mem_setAt_same {α : Type} (l : List (Nat × α)) (k : Nat) (x : α) : (k, x) ∈ setAt l k x := by
  induction l with
  | nil => exact List.mem_cons_self
  | cons p l ih =>
    unfold setAt
    split
    · exact List.mem_cons_self
    · split
      · exact List.mem_cons_self
      · exact List.mem_cons_of_mem _ ih

/-- What a map lists for a key stays where another key is set. -/
theorem mem_setAt_of_ne {α : Type} {l : List (Nat × α)} {e : Nat × α} {k : Nat} (x : α) (he : e ∈ l) (hk : e.1 ≠ k) :
    e ∈ setAt l k x := by
  induction l with
  | nil => exact absurd he List.not_mem_nil
  | cons p l ih =>
    unfold setAt
    split
    · exact List.mem_cons_of_mem _ he
    · split
      · next same =>
        rcases List.mem_cons.mp he with rfl | he
        · exact absurd (eq_of_beq same) hk
        · exact List.mem_cons_of_mem _ he
      · rcases List.mem_cons.mp he with rfl | he
        · exact List.mem_cons_self
        · exact List.mem_cons_of_mem _ (ih he)

theorem ne_of_findAt_eq_none {α : Type} {l : List (Nat × α)} {e : Nat × α} {k : Nat} (hk : findAt l k = none) (he : e ∈ l) :
    e.1 ≠ k := by
  have none : l.find? (fun e => e.1 == k) = none := Option.map_eq_none_iff.mp hk
  simpa using List.find?_eq_none.mp none e he

/-! ### What a computation leads to, and what it leaves of the core -/

theorem State.putPkg_core {s : State} {f : Package → Package} (h : (f s.pkg).cores = s.pkg.cores) : (s.putPkg f).core = s.core := by
  have seen : (s.putPkg f).core = (f s.pkg).core s.cur.core := congrArg (·.core s.cur.core) (State.putPkg_pkg s f)
  rw [seen, Package.core, h]
  rfl

theorem State.putPkg_congr {s : State} {f g : Package → Package} (h : f s.pkg = g s.pkg) : s.putPkg f = s.putPkg g :=
  congrArg (fun x => s.on (s.dev.setPkg s.cur.pkg x)) h

/-- A sequence of two computations that leads to a state leads there by way of another. -/
theorem does_of_bind {α β : Type} {s u : State} {x : M α} {f : α → M β} {w : β} (h : s.does (x >>= f) w u) :
    ∃ v t, s.does x v t ∧ t.does (f v) w u := by
  obtain ⟨hg, hu⟩ := h
  have run : ((x s.env) >>= fun v => f v s.env).run s.dev = .ok (w, u.dev) := hg
  rw [StateT.run_bind] at run
  cases hx : (x s.env).run s.dev with
  | error e => rw [hx] at run; cases run
  | ok p =>
    rw [hx] at run
    exact ⟨p.1, s.on p.2, ⟨hx, rfl⟩, run, hu⟩

theorem core_of_modCore {s t : State} {f : Core → Core} (h : s.does (modCore f) () t) : t.core = f s.core := by
  rw [← (does_unique (does_modCore s f) h).2, State.put_core]

theorem core_of_modSched {s t : State} {f : Sched → Sched} (h : s.does (modSched f) () t) : t.core = s.core := by
  rw [← (does_unique (does_modSched s f) h).2, State.putPkg_core rfl]

theorem not_does_of_stops {α : Type} {s t : State} {x : M α} {v : α} {e : Stop} (hx : s.stops x e) : ¬ s.does x v t :=
  fun h => nomatch hx.symm.trans h.1

/-! ### The start of a command (R102, R104) -/

theorem core_of_takeToken {s t : State} {kind : TokenKind} {st : Option (BitVec 16)} {r : Nat × Word}
    (h : s.does (takeToken kind st) r t) :
    t.core = { s.core with tokens := setAt s.core.tokens r.1 { kind := kind, status := st } } := by
  cases hk : freeSlot s.core.tokens with
  | none =>
    refine absurd h (not_does_of_stops (e := .raise .token 0) (does_bind_stops (does_theCore s) ?_))
    rw [hk]
    rfl
  | some k =>
    have run : s.does (takeToken kind st) (k, BitVec.ofNat 64 (k + (s.core.tokenGens.toList.getD k 0).toNat * 64))
        (s.put fun c => { c with tokens := setAt c.tokens k { kind := kind, status := st } }) := by
      refine does_bind (does_theCore s) ?_
      rw [hk]
      exact does_bind (does_modCore s _) (does_pure _ _)
    obtain ⟨rfl, rfl⟩ := does_unique run h
    exact State.put_core s _

theorem core_of_nextSerial {s t : State} {n : Nat} (h : s.does nextSerial n t) : t.core = { s.core with serial := n + 1 } := by
  have run : s.does nextSerial s.core.serial (s.put fun c => { c with serial := s.core.serial + 1 }) :=
    does_bind (does_theCore s) (does_bind (does_modCore s _) (does_pure _ _))
  obtain ⟨rfl, rfl⟩ := does_unique run h
  exact State.put_core s _

theorem lockRanges_blocks {s : State} {n : Nat} {ss : List Span} (h : s.core.freeLocks.length < ss.length) :
    s.stops (lockRanges n ss) .block := by
  refine does_bind_stops (does_theCore s) ?_
  rw [if_pos h]
  rfl

/-- The lock of a command on a range. -/
def lockOn (n : Nat) (x : Span) : RangeLock := { base := x.lo.toNat, len := (x.hi - x.lo).toNat, cmd := n }

/-- The table with ranges entered, each at an entry of its own. -/
def locksWith (n : Nat) (ps : List (Nat × Span)) (ls : List (Nat × RangeLock)) : List (Nat × RangeLock) :=
  ps.foldl (fun ls p => setAt ls p.1 (lockOn n p.2)) ls

/-- Entering ranges one by one changes the core's table of locks. -/
theorem enter_locks (n : Nat) (ps : List (Nat × Span)) (s : State) :
    ∃ t, s.does (ps.forM fun p => modCore fun c => { c with locks := setAt c.locks p.1 (lockOn n p.2) }) () t ∧
      t.core.locks = locksWith n ps s.core.locks := by
  induction ps generalizing s with
  | nil => exact ⟨s, does_pure s (), rfl⟩
  | cons p ps ih =>
    obtain ⟨t, ht, locks⟩ := ih (s.put fun c => { c with locks := setAt c.locks p.1 (lockOn n p.2) })
    rw [State.put_core] at locks
    exact ⟨t, does_bind (does_modCore s _) ht, locks⟩

theorem locks_of_lockRanges {s t : State} {n : Nat} {ss : List Span} (h : s.does (lockRanges n ss) () t) :
    t.core.locks = locksWith n (s.core.freeLocks.zip ss) s.core.locks := by
  by_cases short : s.core.freeLocks.length < ss.length
  · exact absurd h (not_does_of_stops (lockRanges_blocks short))
  · obtain ⟨u, hu, locks⟩ := enter_locks n (s.core.freeLocks.zip ss) s
    have run : s.does (lockRanges n ss) () u := by
      refine does_bind (does_theCore s) ?_
      rw [if_neg short]
      exact hu
    rw [← (does_unique run h).2, locks]

theorem mem_locksWith_of_mem {n : Nat} {ps : List (Nat × Span)} {ls : List (Nat × RangeLock)} {l : Nat × RangeLock} (hl : l ∈ ls)
    (apart : ∀ p ∈ ps, l.1 ≠ p.1) : l ∈ locksWith n ps ls := by
  induction ps generalizing ls with
  | nil => exact hl
  | cons p ps ih =>
    exact ih (mem_setAt_of_ne _ hl (apart p List.mem_cons_self)) fun q hq => apart q (List.mem_cons_of_mem _ hq)

theorem mem_locksWith {n : Nat} {ps : List (Nat × Span)} {ls : List (Nat × RangeLock)} (hd : (ps.map (·.1)).Nodup) :
    ∀ p ∈ ps, (p.1, lockOn n p.2) ∈ locksWith n ps ls := by
  induction ps generalizing ls with
  | nil => exact fun p hp => absurd hp List.not_mem_nil
  | cons q ps ih =>
    rw [List.map_cons, List.nodup_cons] at hd
    obtain ⟨first, rest⟩ := hd
    intro p hp
    rcases List.mem_cons.mp hp with rfl | hp
    · exact mem_locksWith_of_mem (ps := ps) (mem_setAt_same _ _ _) fun r hr same => first (same ▸ List.mem_map_of_mem hr)
    · exact ih rest p hp

theorem mem_freeLocks {c : Core} {k : Nat} : k ∈ c.freeLocks ↔ k < 16 ∧ findAt c.locks k = none := by
  simp [Core.freeLocks]

theorem freeLocks_nodup (c : Core) : c.freeLocks.Nodup := List.nodup_range.filter _

section
variable {s t : State} {n : Nat} {ss : List Span} (h : s.does (lockRanges n ss) () t)
include h

/-- The locks that stand in the table stay. -/
theorem lockRanges_keeps : ∀ l ∈ s.core.locks, l ∈ t.core.locks := by
  intro l hl
  rw [locks_of_lockRanges h]
  exact mem_locksWith_of_mem hl fun p hp => ne_of_findAt_eq_none (mem_freeLocks.mp (List.of_mem_zip hp).1).2 hl

/-- Every range has its lock in the table. -/
theorem lockRanges_enters : ∀ x ∈ ss, ∃ k < 16, (k, lockOn n x) ∈ t.core.locks := by
  have room : ss.length ≤ s.core.freeLocks.length := Nat.le_of_not_lt fun short => not_does_of_stops (lockRanges_blocks short) h
  have distinct : ((s.core.freeLocks.zip ss).map (·.1)).Nodup := by
    rw [List.zip_eq_zip_take_min, List.map_fst_zip (by simp)]
    exact (freeLocks_nodup s.core).sublist (List.take_sublist _ _)
  intro x hx
  rw [← List.map_snd_zip (l₁ := s.core.freeLocks) room] at hx
  obtain ⟨p, hp, rfl⟩ := List.mem_map.mp hx
  rw [locks_of_lockRanges h]
  exact ⟨p.1, (mem_freeLocks.mp (List.of_mem_zip hp).1).1, mem_locksWith distinct p hp⟩

end

section
variable {s s1 s2 s3 : State} {e : Engine} {op slot n : Nat} {args : List Word} {ss : List Span} {tok : Word}
  (ht : s.does (takeToken .command none) (slot, tok) s1) (hn : s1.does nextSerial n s2)
include ht hn

theorem startCommand_blocks (h : s.core.freeLocks.length < ss.length) : s.stops (startCommand e op args ss) .block := by
  have same : s2.core.freeLocks = s.core.freeLocks := by
    rw [core_of_nextSerial hn, core_of_takeToken ht]
    rfl
  exact does_bind_stops ht (does_bind_stops hn (stops_bind (lockRanges_blocks (same ▸ h))))

theorem startCommand_does (hl : s2.does (lockRanges n ss) () s3) :
    s.does (startCommand e op args ss) tok
      (s3.put fun c => { c with cmds := c.cmds ++ [⟨n, e, op, some slot, c.dom.toNat, args⟩] }) :=
  does_bind ht (does_bind hn (does_bind hl (does_bind (does_modCore s3 _) (does_pure _ tok))))

end

/-! ### The end of a command (R259, R284) -/

/-- The token table once a command of a slot has its status. -/
def Core.told (c : Core) (slot : Option Nat) (st : Nat) : List (Nat × Token) :=
  match slot with
  | some k => match findAt c.tokens k with
    | some t => setAt c.tokens k { t with status := some (BitVec.ofNat 16 st) }
    | none => c.tokens
  | none => c.tokens

/-- The core once a command has ended. -/
def Core.cmdEnded (c : Core) (cmd : Command) (n st : Nat) : Core :=
  { c with
    cmds := c.cmds.filter fun k => k.serial != n
    locks := c.locks.filter fun l => l.2.cmd != n
    tokens := c.told cmd.slot st }

/-- What the end of a command does to its core; a number that no command has changes nothing. -/
theorem core_of_commandDone {s t : State} {n st : Nat} (h : s.does (commandDone n st) () t) :
    t.core = match s.core.cmds.find? (fun c => c.serial == n) with
      | some cmd => s.core.cmdEnded cmd n st
      | none => s.core := by
  obtain ⟨c, s', here, h⟩ := does_of_bind h
  obtain ⟨rfl, rfl⟩ := does_unique (does_theCore s) here
  cases hc : s.core.cmds.find? (fun c => c.serial == n) with
  | none =>
    rw [hc] at h
    exact congrArg State.core (does_unique (does_pure s ()) h).2.symm
  | some cmd =>
    rw [hc] at h
    obtain ⟨_, u, ended, h⟩ := does_of_bind h
    have core : u.core = s.core.cmdEnded cmd n st := core_of_modCore ended
    show t.core = s.core.cmdEnded cmd n st
    rw [← core]
    split at h
    · obtain ⟨_, u', read, h⟩ := does_of_bind h
      rw [core_of_modSched h, ← (does_unique (does_read u) read).2]
    · rw [(does_unique (does_pure u ()) h).2]

section
variable {s t : State} {n st : Nat} (h : s.does (commandDone n st) () t)
include h

theorem commandDone_ends : ∀ c ∈ t.core.cmds, c.serial ≠ n := by
  rw [core_of_commandDone h]
  cases hc : s.core.cmds.find? (fun c => c.serial == n) with
  | none => simpa using hc
  | some cmd =>
    intro c hm
    simpa [Core.cmdEnded] using (List.mem_filter.mp hm).2

theorem commandDone_releases {c : Command} (hc : s.core.cmds.find? (fun c => c.serial == n) = some c) :
    ∀ l ∈ t.core.locks, l.2.cmd ≠ n := by
  rw [core_of_commandDone h, hc]
  intro l hl
  simpa using (List.mem_filter.mp hl).2

theorem commandDone_tells {c : Command} {slot : Nat} {tok : Token} (hc : s.core.cmds.find? (fun c => c.serial == n) = some c)
    (hs : c.slot = some slot) (ht : findAt s.core.tokens slot = some tok) :
    findAt t.core.tokens slot = some { tok with status := some (BitVec.ofNat 16 st) } := by
  rw [core_of_commandDone h, hc]
  simp only [Core.cmdEnded, Core.told, hs, ht]
  exact findAt_setAt_same _ _ _

end

/-! ### Completion (R53, R265, R284) -/

section
variable {s : State} {n : Nat}

theorem writesBefore_held (h : ∃ x ∈ ownWrites s.dev s.cur.pkg s.cur.core, x < n) : s.does (writesBefore n) false s := by
  have held : (ownWrites s.dev s.cur.pkg s.cur.core).all (fun x => n <= x) = false := by simpa using h
  exact held ▸ does_bind (x := theWrites) ⟨rfl, rfl⟩ (does_pure s _)

theorem writesBefore_done (h : ∀ x ∈ ownWrites s.dev s.cur.pkg s.cur.core, n ≤ x) : s.does (writesBefore n) true s := by
  have done : (ownWrites s.dev s.cur.pkg s.cur.core).all (fun x => n <= x) = true := by simpa using h
  exact done ▸ does_bind (x := theWrites) ⟨rfl, rfl⟩ (does_pure s _)

section
variable (hw : ∃ x ∈ ownWrites s.dev s.cur.pkg s.cur.core, x < n)
include hw

theorem copyCommandComplete_waits : s.does (copyCommandComplete n) () s := by
  refine does_bind (does_theCore s) ?_
  split
  · exact does_pure s ()
  · exact does_bind (writesBefore_held hw) (does_pure s ())

theorem bankCommandComplete_waits : s.does (bankCommandComplete n) () s := by
  refine does_bind (does_theCore s) ?_
  split
  · exact does_pure s ()
  · exact does_bind (writesBefore_held hw) (does_pure s ())

theorem fabricCommandComplete_waits : s.does (fabricCommandComplete n) () s := by
  refine does_bind (does_theCore s) (does_bind (does_read s) ?_)
  split
  · exact does_pure s ()
  · exact does_bind (writesBefore_held hw) (does_pure s ())

end

section
variable {s1 s2 t : State} {st : Nat} {k : Command} (hw : ∀ x ∈ ownWrites s.dev s.cur.pkg s.cur.core, n ≤ x)
include hw

theorem copyCommandComplete_does (hk : s.core.cmds.find? (fun c => c.serial == n && c.engine == .copy) = some k)
    (hr : s.does (runCopy k) st s1) (hd : s1.does (commandDone n st) () t) : s.does (copyCommandComplete n) () t := by
  refine does_bind (does_theCore s) ?_
  rw [hk]
  exact does_bind (writesBefore_done hw) (does_bind hr hd)

/-- A command of the bank units whose earlier writes have performed. -/
def bankActs (n : Nat) (k : Command) : M Unit := do
  let d := bankDesc fun j => (k.args.getD j 0).toNat
  if k.op == 0x6C then commandDone n (← runBmv k d)
  else if k.op == 0x6E then commandDone n (← runBlay k d)
  else
    match btabHeld k with
    | some (left, _) => if left == 0 then commandDone n 0
    | none =>
      match ← btabCheck k with
      | .error st => commandDone n st
      | .ok tb => modCore fun c => { c with
          cmds := c.cmds.map fun c => if c.serial == n then
            { c with args := k.args ++ [BitVec.ofNat 64 (natBits (k.args.getD 1 0).toNat 31 16)] ++ tb.getD [] } else c
          locks := c.locks.filter fun l => l.2.cmd != n }

theorem bankCommandComplete_does (hk : s.core.cmds.find? (fun c => c.serial == n && c.engine == .bank) = some k)
    (ha : s.does (bankActs n k) () t) : s.does (bankCommandComplete n) () t := by
  refine does_bind (does_theCore s) ?_
  rw [hk]
  exact does_bind (writesBefore_done hw) ha

omit hw

theorem bankActs_bmv (ho : k.op = 0x6C) (hr : s.does (runBmv k (bankDesc fun j => (k.args.getD j 0).toNat)) st s1)
    (hd : s1.does (commandDone n st) () t) : s.does (bankActs n k) () t := by
  simp only [bankActs, ho]
  exact does_bind hr hd

theorem bankActs_blay (ho : k.op = 0x6E) (hr : s.does (runBlay k (bankDesc fun j => (k.args.getD j 0).toNat)) st s1)
    (hd : s1.does (commandDone n st) () t) : s.does (bankActs n k) () t := by
  simp only [bankActs, ho]
  exact does_bind hr hd

section
variable (ho : k.op = 0x6D)
include ho

theorem bankActs_btab_refused (hb : btabHeld k = none) (hr : s.does (btabCheck k) (.error st) s1)
    (hd : s1.does (commandDone n st) () t) : s.does (bankActs n k) () t := by
  simp only [bankActs, ho, hb]
  exact does_bind hr hd

/-- A BTAB that has read its table keeps its command, and gives its locks up. -/
theorem bankActs_btab_table {tb : Option (List Word)} (hb : btabHeld k = none) (hr : s.does (btabCheck k) (.ok tb) s1) :
    s.does (bankActs n k) () (s1.put fun c => { c with
      cmds := c.cmds.map fun c => if c.serial == n then
        { c with args := k.args ++ [BitVec.ofNat 64 (natBits (k.args.getD 1 0).toNat 31 16)] ++ tb.getD [] } else c
      locks := c.locks.filter fun l => l.2.cmd != n }) := by
  simp only [bankActs, ho, hb]
  exact does_bind hr (does_modCore s1 _)

theorem bankActs_btab_loaded {ds : List Word} (hb : btabHeld k = some (0, ds)) (hd : s.does (commandDone n 0) () t) :
    s.does (bankActs n k) () t := by
  simp only [bankActs, ho, hb]
  exact hd

theorem bankActs_btab_loading {left : Nat} {ds : List Word} (hb : btabHeld k = some (left, ds)) (hl : left ≠ 0) :
    s.does (bankActs n k) () s := by
  have more : (left == 0) = false := beq_false_of_ne hl
  simp only [bankActs, ho, hb, more]
  exact does_pure s ()

end

/-- A command of the fabric engine whose earlier writes have performed; `ms` are its messages, and `peer` says that its first
remote byte lies at a peer that answers. -/
def fabricActs (n me : Nat) (k : Command) (ms : List NMsg) (peer : Bool) : M Unit := do
  if ms.isEmpty && peer then
    let t ← now
    modFabric fun x => { x with messages := x.messages ++ messagesOf me n k.fabricBytes t }
  else if !peer || ms.all NMsg.full then
    modFabric fun x => { x with messages := x.messages.filter fun m => !m.of me n }
    commandDone n (← runFabric k)

include hw in
theorem fabricCommandComplete_does {peer : Bool}
    (hk : s.core.cmds.find? (fun c => c.serial == n && c.engine == .fabric) = some k) (hp : s.does (farPeer k) peer s1)
    (ha : s1.does (fabricActs n s.cur.core k (s.pkg.fabric.messages.filter fun m => m.of s.cur.core n) peer) () t) :
    s.does (fabricCommandComplete n) () t := by
  refine does_bind (does_theCore s) (does_bind (does_read s) ?_)
  rw [hk]
  refine does_bind (writesBefore_done hw) (does_bind (does_thePkg s) (does_bind hp ?_))
  cases peer with
  | true => exact ha
  | false => exact ha

section
variable {me : Nat} {ms : List NMsg} {peer : Bool}

theorem fabricActs_sends (hp : peer = true) : s.does (fabricActs n me k [] peer) () (s.putPkg fun x => { x with
    fabric := { x.fabric with messages := x.fabric.messages ++ messagesOf me n k.fabricBytes s.time } }) := by
  rw [hp]
  exact does_bind (does_now s) (does_modPkg s _)

theorem fabricActs_awaits (hm : ms ≠ []) (hf : ms.all NMsg.full = false) (hp : peer = true) :
    s.does (fabricActs n me k ms peer) () s := by
  simp only [fabricActs, hp, hf, List.isEmpty_eq_false_iff.mpr hm]
  exact does_pure s ()

theorem fabricActs_performs (h : peer = false ∨ ms ≠ [] ∧ ms.all NMsg.full = true)
    (hr : (s.putPkg fun x => { x with fabric := { x.fabric with
      messages := x.fabric.messages.filter fun m => !m.of me n } }).does (runFabric k) st s2)
    (hd : s2.does (commandDone n st) () t) : s.does (fabricActs n me k ms peer) () t := by
  have sent : (ms.isEmpty && peer) = false := by
    rcases h with rfl | ⟨hm, -⟩
    · exact Bool.and_false _
    · rw [List.isEmpty_eq_false_iff.mpr hm, Bool.false_and]
  have due : (!peer || ms.all NMsg.full) = true := by
    rcases h with rfl | ⟨-, hf⟩
    · rfl
    · rw [hf, Bool.or_true]
  simp only [fabricActs, sent, due]
  exact does_bind (does_modPkg s _) (does_bind hr hd)

end

end

end

/-! ### Messages (R367) -/

/-- One message of a list taken, the `j`-th of a command's changed; beside them, how many of the command's have been taken. -/
def changeNth (core cmd j : Nat) (f : NMsg → NMsg) (r : List NMsg × Nat) (m : NMsg) : List NMsg × Nat :=
  if m.of core cmd then (r.1 ++ [if r.2 == j then f m else m], r.2 + 1) else (r.1 ++ [m], r.2)

theorem does_modMessage (s : State) (core cmd j : Nat) (f : NMsg → NMsg) :
    s.does (modMessage core cmd j f) () (s.putPkg fun x => { x with fabric := { x.fabric with
      messages := (x.fabric.messages.foldl (changeNth core cmd j f) ([], 0)).1 } }) := does_modPkg s _

section
variable {core cmd j : Nat} {f : NMsg → NMsg}

/-- Messages that hold no `j`-th of the command's stay as they are. -/
theorem foldl_changeNth_apart {ms : List NMsg} {i : Nat} (acc : List NMsg)
    (h : i + (ms.filter fun m => m.of core cmd).length ≤ j ∨ j < i) :
    ms.foldl (changeNth core cmd j f) (acc, i) = (acc ++ ms, i + (ms.filter fun m => m.of core cmd).length) := by
  induction ms generalizing acc i with
  | nil => simp
  | cons m ms ih =>
    cases own : m.of core cmd with
    | true =>
      rw [List.filter_cons, if_pos own, List.length_cons] at h ⊢
      have other : (i == j) = false := beq_false_of_ne (by omega)
      rw [List.foldl_cons, changeNth, if_pos own, other, ih _ (by omega)]
      exact Prod.ext (by simp) (by dsimp only; omega)
    | false =>
      rw [List.filter_cons, if_neg (by simp [own])] at h ⊢
      rw [List.foldl_cons, changeNth, if_neg (by simp [own]), ih _ h]
      simp

theorem foldl_changeNth {xs ys : List NMsg} {m : NMsg} (hm : m.of core cmd = true)
    (hj : (xs.filter fun m => m.of core cmd).length = j) :
    ((xs ++ m :: ys).foldl (changeNth core cmd j f) ([], 0)).1 = xs ++ f m :: ys := by
  rw [List.foldl_append, foldl_changeNth_apart [] (.inl (by omega)), List.foldl_cons, changeNth, if_pos hm,
    foldl_changeNth_apart _ (.inr (by dsimp only; omega))]
  simp [hj]

end

theorem modMessage_tells {s : State} {n j : Nat} {xs ys : List NMsg} {m : NMsg} (f : NMsg → NMsg)
    (hs : s.pkg.fabric.messages = xs ++ m :: ys) (hm : m.of s.cur.core n = true)
    (hj : (xs.filter fun m => m.of s.cur.core n).length = j) :
    s.does (modMessage s.cur.core n j f) () (s.putPkg fun x => { x with fabric := { x.fabric with messages := xs ++ f m :: ys } }) := by
  have told : (s.pkg.fabric.messages.foldl (changeNth s.cur.core n j f) ([], 0)).1 = xs ++ f m :: ys := by
    rw [hs, foldl_changeNth hm hj]
  have same := State.putPkg_congr (s := s)
    (f := fun x => { x with fabric := { x.fabric with messages := (x.fabric.messages.foldl (changeNth s.cur.core n j f) ([], 0)).1 } })
    (g := fun x => { x with fabric := { x.fabric with messages := xs ++ f m :: ys } }) (by dsimp only; rw [told])
  exact same ▸ does_modMessage s s.cur.core n j f

theorem narrowsMessageAck_does {s : State} {n j bits : Nat} {xs ys : List NMsg} {m : NMsg}
    (hs : s.pkg.fabric.messages = xs ++ m :: ys) (hm : m.of s.cur.core n = true)
    (hj : (xs.filter fun m => m.of s.cur.core n).length = j) :
    s.does (narrowsMessageAck n j bits) () (s.putPkg fun x => { x with fabric := { x.fabric with
      messages := xs ++ { m with acked := m.acked ||| BitVec.ofNat 64 bits } :: ys } }) :=
  does_bind (does_read s) (modMessage_tells _ hs hm hj)

/-- A message as it stands once its time without an answer is looked at. -/
def NMsg.resent (m : NMsg) (t : Nat) : NMsg :=
  if !m.full && retransmitTime <= t - m.sentAt then { m with sentAt := t, sends := m.sends + 1 } else m

theorem narrowsRetransmit_does {s : State} {n j : Nat} {xs ys : List NMsg} {m : NMsg}
    (hs : s.pkg.fabric.messages = xs ++ m :: ys) (hm : m.of s.cur.core n = true)
    (hj : (xs.filter fun m => m.of s.cur.core n).length = j) :
    s.does (narrowsRetransmit n j) () (s.putPkg fun x => { x with fabric := { x.fabric with
      messages := xs ++ m.resent s.time :: ys } }) :=
  does_bind (does_now s) (does_bind (does_read s) (modMessage_tells (fun m => m.resent s.time) hs hm hj))

theorem NMsg.resent_due {m : NMsg} {t : Nat} (hf : m.full = false) (ht : 20000 ≤ t - m.sentAt) :
    m.resent t = { m with sentAt := t, sends := m.sends + 1 } := by
  rw [NMsg.resent, if_pos]
  rw [hf]
  exact decide_eq_true ht

theorem NMsg.resent_not_due {m : NMsg} {t : Nat} (h : m.full = true ∨ t - m.sentAt < 20000) : m.resent t = m := by
  refine if_neg fun due => ?_
  obtain ⟨lacks, late⟩ := Bool.and_eq_true_iff.mp due
  rcases h with hf | ht
  · rw [hf] at lacks
    exact Bool.noConfusion lacks
  · exact absurd (of_decide_eq_true late) (Nat.not_le_of_lt ht)

/-! ### The slots of a BTAB (R262) -/

section
variable {s t : State} {n j m left : Nat} {k : Command} {ds : List Word}
  (hk : s.core.cmds.find? (fun k => k.serial == n && k.engine == .bank && k.op == 0x6D) = some k)
  (hb : btabHeld k = some (left, ds))
include hk hb

theorem btabSlotReplace_loaded (hl : left / 2 ^ j % 2 = 0) : s.does (btabSlotReplace n j) () s := by
  refine does_bind (does_theCore s) ?_
  simp only [hk, hb, hl]
  exact does_pure s ()

section
variable (hl : left / 2 ^ j % 2 = 1) (hm : s.does (slotNumber (natBits (k.args.getD 1 0).toNat 5 0)) (some m) s)
include hl hm

theorem btabSlotReplace_refused (ho : ∃ b, findAt s.pkg.bankSlots (64 * j + m) = some b ∧ b.owner ≠ k.dom)
    (hd : s.does (commandDone n (bankStatus 2)) () t) : s.does (btabSlotReplace n j) () t := by
  obtain ⟨b, hf, other⟩ := ho
  have barred : ((findAt s.pkg.bankSlots (64 * j + m)).map fun b => b.owner != k.dom).getD false = true := by simpa [hf] using other
  refine does_bind (does_theCore s) ?_
  simp only [hk, hb, hl]
  refine does_bind hm (does_bind (does_thePkg s) ?_)
  simp only [barred]
  exact does_bind hd (does_pure t ())

theorem btabSlotReplace_does (ho : ∀ b, findAt s.pkg.bankSlots (64 * j + m) = some b → b.owner = k.dom) :
    s.does (btabSlotReplace n j) () ((s.putPkg fun x => { x with bankSlots :=
        (if ds.isEmpty then dropAt x.bankSlots (64 * j + m)
         else setAt x.bankSlots (64 * j + m) ⟨k.dom, ds.flatMap fun x => [x.setWidth 32, x.extractLsb' 32 32]⟩) }).put fun c =>
      { c with cmds := c.cmds.map fun c =>
        if c.serial == n then { c with args := c.args.set 2 (BitVec.ofNat 64 (left - 2 ^ j)) } else c }) := by
  have mine : ((findAt s.pkg.bankSlots (64 * j + m)).map fun b => b.owner != k.dom).getD false = false := by
    cases hf : findAt s.pkg.bankSlots (64 * j + m) with
    | none => rfl
    | some b => simp [ho b hf]
  refine does_bind (does_theCore s) ?_
  simp only [hk, hb, hl]
  refine does_bind hm (does_bind (does_thePkg s) ?_)
  simp only [mine]
  exact does_bind (does_modPkg s _) (does_modCore _ _)

end

end

/-- Settles O45: each event is its computations in order; a command's ranges stand in the table from its start to its end. -/
theorem commandsComplete : Obligations.CommandsComplete := by
  unfold Obligations.CommandsComplete
  refine ⟨?start, ?finish, ?completion, ?messages, ?slots⟩
  case start =>
    intro s s1 s2 s3 e op slot n args ss tok ht hn
    exact ⟨startCommand_blocks ht hn, fun _ hl => ⟨startCommand_does ht hn hl, lockRanges_keeps hl, lockRanges_enters hl⟩⟩
  case finish =>
    intro s t n st h
    exact ⟨commandDone_ends h, fun c slot tok hc hs ht => ⟨commandDone_releases h hc, commandDone_tells h hc hs ht⟩⟩
  case completion =>
    intro s s1 s2 t n st k
    refine ⟨fun hw => ⟨event_next (copyCommandComplete_waits hw), event_next (bankCommandComplete_waits hw),
      event_next (fabricCommandComplete_waits hw)⟩, fun hw => ⟨?copy, ?bank, ?fabric⟩⟩
    case copy => exact fun ⟨_, hk⟩ hr hd => event_next (copyCommandComplete_does hw hk hr hd)
    case bank =>
      rintro ⟨-, hk⟩
      have acts {u : State} (h : s.does (bankActs n k) () u) : exec (.bankCommandComplete n) s = .next u :=
        event_next (bankCommandComplete_does hw hk h)
      refine ⟨fun ho hr hd => acts (bankActs_bmv ho hr hd), fun ho hr hd => acts (bankActs_blay ho hr hd),
        fun ho hb hr hd => acts (bankActs_btab_refused ho hb hr hd), fun tb ho hb hr => acts (bankActs_btab_table ho hb hr), ?_⟩
      intro left ds ho hb
      exact ⟨fun h0 hd => acts (bankActs_btab_loaded ho (h0 ▸ hb) hd), fun hl => acts (bankActs_btab_loading ho hb hl)⟩
    case fabric =>
      rintro peer ⟨-, hk⟩ hp
      have acts {u : State} (h : s1.does (fabricActs n s.cur.core k (s.pkg.fabric.messages.filter fun m => m.of s.cur.core n) peer)
          () u) : exec (.fabricCommandComplete n) s = .next u :=
        event_next (fabricCommandComplete_does hw hk hp h)
      refine ⟨fun hm ht => ?_, fun hm hf ht => acts (fabricActs_awaits hm hf ht), fun ha hr hd => acts (fabricActs_performs ha hr hd)⟩
      have time : s1.time = s.time := by rw [hp.2]; rfl
      rw [← time]
      exact acts (hm ▸ fabricActs_sends ht)
  case messages =>
    intro s n j bits xs ys m told hs hm hj
    refine ⟨event_next (narrowsMessageAck_does hs hm hj), ?_, ?_⟩
    · intro hf ht
      have run := narrowsRetransmit_does hs hm hj
      rw [NMsg.resent_due hf ht] at run
      exact event_next run
    · intro h
      have run := narrowsRetransmit_does hs hm hj
      rw [NMsg.resent_not_due h] at run
      exact event_next run
  case slots =>
    intro s t n j m left k ds hk hb
    exact ⟨fun hl => event_next (btabSlotReplace_loaded hk hb hl), fun hl hm =>
      ⟨fun ho hd => event_next (btabSlotReplace_refused hk hb hl hm ho hd),
        fun ho => event_next (btabSlotReplace_does hk hb hl hm ho)⟩⟩

end Sys2Proof.Machine
end

section
/-!
PROOF. Decode of encode (R65, R67): the law of every constructor gives the law of every instruction, and the L bit stands in the fixed
bits of every word.
-/

namespace Sys2Proof.Laws

/-- Fields at places above bit 0 leave it to the fixed bits. -/
theorem wordNat_odd {base : Nat} {fs : List (Nat × Nat)} (hb : base % 2 = 1) (hf : fs.all (0 < ·.2) = true) :
    wordNat base fs % 2 = 1 := by
  induction fs with
  | nil => exact hb
  | cons f fs ih =>
    obtain ⟨hp, hr⟩ := Bool.and_eq_true_iff.mp hf
    obtain ⟨k, hk⟩ := Nat.exists_eq_add_one.mpr (of_decide_eq_true hp)
    have rest := ih hr
    rw [wordNat, hk, Nat.pow_succ, ← Nat.mul_assoc]
    omega

theorem word_lbit {base : Nat} {fs : List (Nat × Nat)} (hb : base % 2 = 1) (hf : fs.all (0 < ·.2) = true) :
    (word base fs).getLsbD 0 = true := by
  simp [word, BitVec.getLsbD_ofNat, Nat.testBit_zero, wordNat_odd hb hf]

/-- The word of an instruction is a lone one (R58): an event has none, and the fixed bits of every other row hold L. -/
theorem encodeHalf_lbit {i : Instr} {w : Half} (hi : i.encoded = true) (hw : encodeHalf i = some w) : w.getLsbD 0 = true := by
  cases i <;> cases hi <;> exact Option.some.inj hw ▸ word_lbit rfl rfl

/-- The laws of the constructors, in the order of `Instr`, are a law of every instruction. -/
theorem Roundtrip.holds (i : Instr) : Roundtrip.Statement i :=
  i.casesOn (motive := Statement)
    add sub and or xor shl shr sra min max minn maxn mul mulh mulhn div divn rem remn shadd1 shadd2 shadd3 andn addi andi ori
    xori shli shri srai lui insh clz ctz popc bswap extb exth extw extbn exthn extwn cmp cmpi plog sel pmovToReg pmovFromReg
    bc bq bqN bout jr dbnz twait bbset bbget bbpeek bbskip ld stb sth stw std lda strel ldv stv gath gathT scat amo amon cas
    fence calld taild susp spawn send recv recvT csrr csrw trap sysPlbinv sysCsinv sysQflush sysEvcfg vadd vaddSatI vaddSatN
    vsub vsubSatI vsubSatN vmul vmulHiI vmulHiN vmulSat vfma vfmaMs vfmaNa vfmaNms vmin vminNum vmax vmaxNum vand vor vxor
    vandn vnot vshl vshr vsra vshli vshri vsrai vcmp vsel vcvt vencC8 vencC4 vdecC8 vdecC4 vsplat vsplatImm vext vins vperm
    vslideup vslidedn vred vmath vabs vneg vabsSat vpop vpush vmov vzero viota eclr vdot4 vmaskV vmaskC vfma2 tdset mma mmaz
    mzero mscaRow mscaCol mrd mwr mst mld ldtab mcmb mmaw mmawz bmv btab blay shpmk shpdel copy copys cfill fxput fxget fxred
    arcJoin arcLeave arcBar launchStrand launchGraph launchLattice launchArchipelago doorbell eventRingSpace registerWrite
    partcfg ctxcfg ctxreset domcfg domfree trust rangeinv plbshoot faultres teardown preempt restore keyset rackLaunchPacket
    migrate setrap rangeInvalidationPerform graphNodeFinish controlNodeEval loopNodeEval bandStart bandReconstruct
    completionForward completionRecordWrite codePoison loadDataReturn gathTPush eventChainSignal storePerform atomicPerform
    amonAccept deferredResolve lineFill pageWalk copyCommandComplete bankCommandComplete btabSlotReplace fabricCommandComplete
    narrowsRetransmit narrowsMessageAck mcrRound mcrDeliver regionRegister keyRevoke hostMemAccess tagError dataError
    pdmSample replan clockStep bankFence hbmRowRepair linkLaneFence replayEnter deviceReset reservedMajor pair
    peerDeclaredLost routeTableLoad podApertureEntryWrite groupEntryWrite regionDeregister nop retd done commit eret sysTabclr
    strandDispatch dockEnter priorityAgeing copyIn copyInComplete codeFetchStage neighbourTimeout codeInstall sliceEnd
    imageSeal drainWatchdog qdeadlock barrierLineArrival podBarrierArrival islandDepart messageArrival parkedMessageForward
    dirtyBitmapSweep scrub quadFence checkpoint zeroword runPastBody checkpointRestore reconciliationSweep

/-- Settles O4: each instruction's word decodes to it, and its L bit is one of its fixed bits. -/
theorem decodeEncode : Obligations.DecodeEncode := by
  unfold Obligations.DecodeEncode
  intro i hwf hi
  obtain ⟨w, hw, hd⟩ := Option.map_eq_some_iff.mp (Roundtrip.holds i hwf hi)
  exact ⟨w, hw, encodeHalf_lbit hi hw, hd⟩

end Sys2Proof.Laws
end

section
/-!
PROOF. What stands at a stream's offset (R58 to R61), one equation for each case.
-/

namespace Sys2Proof.Machine

section
variable {c : Core} {st : Strm} {w hi : Half}

theorem Core.nextInstr_past_body (h : halfAt (c.body st) (c.str st).off = none) : c.nextInstr st = .runPastBody := by
  simp [nextInstr, h]

theorem Core.nextInstr_zeroword (h : halfAt (c.body st) (c.str st).off = some 0) : c.nextInstr st = .zeroword := by
  simp [nextInstr, h]

variable (h : halfAt (c.body st) (c.str st).off = some w) (hw : w ≠ 0)
include h hw

theorem Core.nextInstr_lone (hl : lone? w = true) : c.nextInstr st = decodeHalf w := by
  simp only [nextInstr, h, if_neg hw, if_pos hl]

theorem Core.nextInstr_pair (hl : lone? w = false) (ho : (c.str st).off % 8 = 0)
    (hh : halfAt (c.body st) ((c.str st).off + 4) = some hi) : c.nextInstr st = .pair w hi false := by
  simp only [nextInstr, h, if_neg hw, hl, ho, hh]
  rfl

theorem Core.nextInstr_spanning (hl : lone? w = false) (ho : (c.str st).off % 8 = 4) : c.nextInstr st = .pair 0 w true := by
  simp only [nextInstr, h, if_neg hw, hl, ho]
  rfl

end

/-- Settles O1: the cases of the half that stands at the offset. -/
theorem unitAtOffset : Obligations.UnitAtOffset := by
  unfold Obligations.UnitAtOffset
  intro c st
  refine ⟨Core.nextInstr_past_body, fun w h => ⟨?_, Core.nextInstr_lone h, ?_, ?_⟩⟩
  · rintro rfl
    exact Core.nextInstr_zeroword h
  · exact fun hl hw ho _ => Core.nextInstr_pair h hw hl ho
  · exact fun hl hw => Core.nextInstr_spanning h hw hl

end Sys2Proof.Machine
end

section
/-!
PROOF. The decode checks of a lone instruction (R66), and what a unit leads to that one of them or its own effect stops (R84, R174).
-/

namespace Sys2Proof.Machine

/-! ### Checks 5 to 7 of R66 -/

/-- What check 5 refuses in a word and its instruction: the wrong stream, or a case of R63 to R65. -/
def State.refuses5 (s : State) (w : Half) (i : Instr) : Prop :=
  i.wf = false ∨ legalIn s.cur.stream (majorOf w) = false ∨ specIllegal s.cur.stream i = true ∨
    csrIllegal s.core.sMode i = true ∨ (portable s.core = true ∧ nativeOnly (majorOf w) = true)

/-- What check 6 refuses. -/
def State.refuses6 (s : State) (i : Instr) : Prop := s.core.sMode = false ∧ csrPriv i = true

/-- What check 7 refuses. -/
def State.refuses7 (s : State) (w : Half) : Prop := s.str.pend.isSome = true ∧ slotForbidden (majorOf w) = true

section
variable {s : State} {w : Half} {i : Instr}

theorem stops_raise_if {p : Prop} [Decidable p] {c : Cause} {ea : Word} (h : p) :
    s.stops (if p then raise c ea else pure ()) (.raise c ea) := by
  rw [if_pos h]
  rfl

theorem does_raise_if {p : Prop} [Decidable p] {c : Cause} {ea : Word} (h : ¬ p) :
    s.does (if p then raise c ea else pure ()) () s := by
  rw [if_neg h]
  exact does_pure s ()

theorem check5_stops (h : s.refuses5 w i) : s.stops (check5 w i) (.raise .illegal (w.setWidth 64)) :=
  does_bind_stops (does_theCore s) (does_bind_stops (does_theStream s)
    (stops_raise_if (by simpa [State.refuses5, or_assoc] using h)))

theorem check5_passes (h : ¬ s.refuses5 w i) : s.does (check5 w i) () s :=
  does_bind (does_theCore s) (does_bind (does_theStream s) (does_raise_if (by simpa [State.refuses5, or_assoc] using h)))

theorem check6_stops (h : s.refuses6 i) : s.stops (check6 w i) (.raise .priv (w.setWidth 64)) :=
  does_bind_stops (does_theCore s) (stops_raise_if (by simpa [State.refuses6] using h))

theorem check6_passes (h : ¬ s.refuses6 i) : s.does (check6 w i) () s :=
  does_bind (does_theCore s) (does_raise_if (by simpa [State.refuses6] using h))

theorem check7_stops (h : s.refuses7 w) : s.stops (check7 w) (.raise .slot (w.setWidth 64)) :=
  does_bind_stops (does_theCore s) (does_bind_stops (does_theStream s)
    (stops_raise_if (by simpa [State.refuses7, State.str] using h)))

theorem check7_passes (h : ¬ s.refuses7 w) : s.does (check7 w) () s :=
  does_bind (does_theCore s) (does_bind (does_theStream s) (does_raise_if (by simpa [State.refuses7, State.str] using h)))

end

/-- Settles O13: the gate runs the three checks in order, and the first that refuses stops it. -/
theorem decodeChecks : Obligations.DecodeChecks := by
  unfold Obligations.DecodeChecks
  intro i w s hw
  have gate_eq : gate i = (do check5 w i; check6 w i; check7 w) := by
    simp [gate, instrWord, hw]
  rw [gate_eq]
  exact ⟨fun h5 => stops_bind (check5_stops h5),
    fun h5 h6 => does_bind_stops (check5_passes h5) (stops_bind (check6_stops h6)),
    fun h5 h6 h7 => does_bind_stops (check5_passes h5) (does_bind_stops (check6_passes h6) (check7_stops h7)),
    fun h5 h6 h7 => does_bind (check5_passes h5) (does_bind (check6_passes h6) (check7_passes h7))⟩

/-! ### Units that stop -/

section
variable {s m t : State} {size : Nat} {jt commits : Bool} {checks pre : M Unit} {act : M Flow} {c : Cause} {ea : Word}

/-- A unit whose checks refuse it takes the exception; its effect has no part in it. -/
theorem runUnit_refused (hk : s.stops checks (.raise c ea)) (ht : s.does (exception c ea 0 false) () t) :
    s.does (runUnit size jt commits checks pre act) () t :=
  does_bind (does_attempt_stops hk) ht

/-- A unit whose effect faults takes the exception from the state before the effect. -/
theorem runUnit_faults (hk : s.does checks () s) (hp : s.does pre () m) (ha : m.stops act (.raise c ea))
    (ht : m.does (exception c ea 0 jt) () t) : s.does (runUnit size jt commits checks pre act) () t :=
  does_bind (does_attempt hk) (does_bind (does_attempt hp) (does_bind (does_theCore m) (does_bind (does_attempt_stops ha) ht)))

end

theorem gate_passes {s : State} {i : Instr} (h : s.ready i) : s.does (gate i) () s := ⟨h.2, rfl⟩

/-- Settles O14: a unit asks its checks before its effect, and a stop of either leaves the state before it. -/
theorem unitOutcomes : Obligations.UnitOutcomes := by
  unfold Obligations.UnitOutcomes
  refine ⟨?refused, ?faults, fun i act s => lone_blocks⟩
  case refused =>
    intro i act s t c ea hm hg ht
    exact ⟨unitOn_does hm (runUnit_refused hg ht), unitOn_does hm (runUnit_refused hg ht)⟩
  case faults =>
    intro i act s t c ea hr ha ht
    exact unitOn_does hr.1 (runUnit_faults (gate_passes hr) (does_pure s ()) ha ht)

end Sys2Proof.Machine
end

section
/-!
PROOF. What a scalar specifier reads and writes (R63, R84; Table 4.2).
-/

namespace Sys2Proof.Machine

/-! ### Registers -/

theorem readReg_does (s : State) (n : Nat) : s.does (readReg n) (s.reg n) s := by
  refine does_bind (does_theStream s) ?_
  unfold State.reg
  cases s.cur.stream with
  | A => exact does_bind (does_theCore s) (does_pure s _)
  | X => exact does_bind (does_theCore s) (does_pure s _)

theorem writeReg_does (s : State) (n : Nat) (v : Word) :
    s.does (writeReg n v) () (s.put fun c => c.putReg s.cur.stream n v) := by
  refine does_bind (does_theStream s) ?_
  cases s.cur.stream with
  | A => exact does_modCore s _
  | X => exact does_modCore s _

/-! ### Queues -/

@[simp] theorem Core.queue_setQueue (c : Core) (p : Port) (q : Queue QEntry) : (c.setQueue p q).queue p = q := by
  cases p <;> rfl

theorem Core.queue_setQueue_ne {c : Core} {p r : Port} {q : Queue QEntry} (h : r ≠ p) : (c.setQueue p q).queue r = c.queue r := by
  cases p <;> cases r <;> simp [queue, setQueue] at h ⊢

@[simp] theorem Core.setQueue_a (c : Core) (p : Port) (q : Queue QEntry) : (c.setQueue p q).a = c.a := by cases p <;> rfl
@[simp] theorem Core.setQueue_s (c : Core) (p : Port) (q : Queue QEntry) : (c.setQueue p q).s = c.s := by cases p <;> rfl
@[simp] theorem Core.setQueue_pa (c : Core) (p : Port) (q : Queue QEntry) : (c.setQueue p q).pa = c.pa := by cases p <;> rfl
@[simp] theorem Core.setQueue_px (c : Core) (p : Port) (q : Queue QEntry) : (c.setQueue p q).px = c.px := by cases p <;> rfl

@[simp] theorem State.put_home (s : State) (f : Core → Core) : (s.put f).pkg.home = s.pkg.home := by
  simp [State.put]

theorem Queue.pop_nil {α : Type} {q : Queue α} (h : q.ents = []) : q.pop = none := by simp [pop, h]

theorem Queue.pop_cons {α : Type} {q : Queue α} {e : α} {rest : List α} (h : q.ents = e :: rest) :
    ∃ r, q.pop = some (e, r) ∧ r.ents = rest := by
  unfold pop
  rw [h]
  dsimp only
  split <;> exact ⟨_, rfl, rfl⟩

section
variable {s : State} {p : Port} {e : QEntry} {rest : List QEntry}

theorem popQ_empty (h : (s.core.queue p).ents = []) : s.stops (popQ p) .block := by
  refine does_bind_stops (does_theCore s) ?_
  rw [Queue.pop_nil h]
  rfl

theorem popQ_unfilled (h : (s.core.queue p).ents = e :: rest) (hf : e.filled = false) : s.stops (popQ p) .block := by
  obtain ⟨r, hr, -⟩ := Queue.pop_cons h
  refine does_bind_stops (does_theCore s) ?_
  rw [hr]
  dsimp only
  rw [hf]
  rfl

theorem popQ_filled (h : (s.core.queue p).ents = e :: rest) (hf : e.filled = true) :
    ∃ r : Queue QEntry, r.ents = rest ∧ s.does (popQ p) e (s.put fun c => c.setQueue p r) := by
  obtain ⟨r, hr, hrest⟩ := Queue.pop_cons h
  refine ⟨r, hrest, does_bind (does_theCore s) ?_⟩
  rw [hr]
  dsimp only
  rw [hf]
  exact does_bind (does_modCore s _) (does_pure _ e)

theorem pushQ_full (h : queueDepth ≤ (s.core.queue p).ents.length) : s.stops (pushQ p e) .block := by
  refine does_bind_stops (does_theCore s) ?_
  dsimp only
  rw [if_pos h]
  exact stops_bind rfl

theorem pushQ_room (h : (s.core.queue p).ents.length + (s.core.queue p).kept.length < queueDepth) :
    s.does (pushQ p e) () (s.put fun c => c.setQueue p ((c.queue p).push e)) := by
  have room : ¬ queueDepth ≤ (s.core.queue p).ents.length := by omega
  have fits : ¬ (s.core.queue p).overflows queueDepth = true := by simpa [Queue.overflows] using h
  refine does_bind (does_theCore s) ?_
  dsimp only
  rw [if_neg room, if_neg fits]
  exact does_modCore s _

end

/-! ### Specifiers -/

theorem src_register {s : State} {r : BitVec 5} (h : r.toNat < 28) : s.does (src r) (s.reg r.toNat) s := by
  rw [src, if_pos h]
  exact readReg_does s _

theorem src_zero (s : State) : s.does (src 31) 0 s := by
  refine does_bind (does_theStream s) ?_
  cases s.cur.stream with
  | A => exact does_pure s 0
  | X => exact does_pure s 0

theorem dst_register {s : State} {r : BitVec 5} {v : Word} (h : r.toNat < 28) :
    s.does (dst r v) () (s.put fun c => c.putReg s.cur.stream r.toNat v) := by
  rw [dst, if_pos h]
  exact writeReg_does s _ v

theorem dst_zero (s : State) (v : Word) : s.does (dst 31 v) () s := by
  refine does_bind (does_theStream s) ?_
  cases s.cur.stream with
  | A => exact does_pure s ()
  | X => exact does_pure s ()

/-- The queues that the source specifiers 28 to 30 pop (Table 4.2). -/
def popPorts : List (Strm × Nat × Port) := [(.A, 28, .sq0), (.A, 29, .sq1), (.X, 28, .lq0), (.X, 29, .lq1), (.X, 30, .lq2)]

/-- The queues that the destination specifiers 28 to 30 push (Table 4.2). -/
def pushPorts : List (Strm × Nat × Port) := [(.A, 28, .lq0), (.A, 29, .lq1), (.A, 30, .lq2), (.X, 28, .sq0), (.X, 29, .sq1)]

theorem popPort_of_mem : ∀ x ∈ popPorts, 28 ≤ x.2.1 ∧ popPort x.1 x.2.1 = some x.2.2 := by decide

theorem pushPort_of_mem : ∀ x ∈ pushPorts, 28 ≤ x.2.1 ∧ pushPort x.1 x.2.1 = some x.2.2 := by decide

section
variable {s t : State} {r : BitVec 5} {q : Port}

section
variable (hq : (s.cur.stream, r.toNat, q) ∈ popPorts)
include hq

theorem src_waits (h : s.stops (popQ q) .block) : s.stops (src r) .block := by
  obtain ⟨hr, hp⟩ := popPort_of_mem _ hq
  rw [src, if_neg (Nat.not_lt.mpr hr)]
  refine does_bind_stops (does_theStream s) ?_
  rw [hp]
  exact stops_bind h

theorem src_pops {e : QEntry} (h : s.does (popQ q) e t) : s.does (src r) (e.data.setWidth 64) t := by
  obtain ⟨hr, hp⟩ := popPort_of_mem _ hq
  rw [src, if_neg (Nat.not_lt.mpr hr)]
  refine does_bind (does_theStream s) ?_
  rw [hp]
  exact does_bind h (does_pure t _)

end

section
variable {v : Word} (hq : (s.cur.stream, r.toNat, q) ∈ pushPorts)
include hq

theorem dst_waits (h : s.stops (pushQ q (scalarEntry v)) .block) : s.stops (dst r v) .block := by
  obtain ⟨hr, hp⟩ := pushPort_of_mem _ hq
  rw [dst, if_neg (Nat.not_lt.mpr hr)]
  refine does_bind_stops (does_theStream s) ?_
  rw [hp]
  exact h

theorem dst_pushes (h : s.does (pushQ q (scalarEntry v)) () t) : s.does (dst r v) () t := by
  obtain ⟨hr, hp⟩ := pushPort_of_mem _ hq
  rw [dst, if_neg (Nat.not_lt.mpr hr)]
  refine does_bind (does_theStream s) ?_
  rw [hp]
  exact h

end

end

/-- Settles O8: a register and 31 leave the state as it is; a queue waits or gives its head, and nothing but that queue changes. -/
theorem sourceOperand : Obligations.SourceOperand := by
  unfold Obligations.SourceOperand
  intro s r
  refine ⟨src_register, ?zero, fun q hq => ⟨fun h => src_waits hq (popQ_empty h), fun e rest h =>
    ⟨fun hf => src_waits hq (popQ_unfilled h hf), fun hf => ?filled⟩⟩⟩
  case zero =>
    rintro rfl
    exact src_zero s
  case filled =>
    obtain ⟨p, hp, run⟩ := popQ_filled h hf
    refine ⟨_, src_pops hq run, ?_⟩
    rw [State.put_core, State.put_home]
    exact ⟨by rw [Core.queue_setQueue, hp], fun _ => Core.queue_setQueue_ne, Core.setQueue_a _ _ _, Core.setQueue_s _ _ _,
      Core.setQueue_pa _ _ _, Core.setQueue_px _ _ _, rfl⟩

/-- Settles O9: a register is written and 31 discards; a queue waits while it is full and else takes the entry at its end. -/
theorem destOperand : Obligations.DestOperand := by
  unfold Obligations.DestOperand
  intro s r v
  refine ⟨dst_register, ?zero, fun q hq => ⟨fun h => dst_waits hq (pushQ_full h), fun h => dst_pushes hq (pushQ_room h)⟩⟩
  rintro rfl
  exact dst_zero s v

end Sys2Proof.Machine
end

section
/-!
PROOF. The branches decide when they issue (R73, R90 to R92): what the effect of each answers, and where it leaves the state.
-/

namespace Sys2Proof.Machine

section
variable {s s1 s2 : State} {x : Word} {u : Bool}

theorem relTarget_does (s : State) (d : Int) : s.does (relTarget d) (BitVec.ofInt 64 (s.str.off + 4 * d)) s :=
  does_bind (does_bind (does_theCore s) (does_bind (does_theStream s) (does_pure s _))) (does_pure s _)

theorem actNop_does (s : State) : s.does actNop .seq s := does_pure s _

theorem actBc_does {d : BitVec 20} {g : BitVec 4} (hg : s.does (guardHolds g) u s) :
    s.does (actBc d g) (.br (if u then some (BitVec.ofInt 64 (s.str.off + 4 * d.toInt)) else none)) s :=
  does_bind (relTarget_does s _) (does_bind hg (does_pure s _))

theorem actBq_does {d : BitVec 20} (hp : s.does bqPop u s1) :
    s.does (actBq d) (.br (if u then some (BitVec.ofInt 64 (s.str.off + 4 * d.toInt)) else none)) s1 :=
  does_bind (relTarget_does s _) (does_bind hp (does_pure s1 _))

theorem actBqN_does {d : BitVec 20} (hp : s.does bqPop u s1) :
    s.does (actBqN d) (.br (if u then none else some (BitVec.ofInt 64 (s.str.off + 4 * d.toInt)))) s1 :=
  does_bind (relTarget_does s _) (does_bind hp (does_pure s1 _))

theorem actJr_does {a : BitVec 5} (ha : s.does (src a) x s1) : s.does (actJr a) (.br (some x)) s1 :=
  does_bind ha (does_pure s1 _)

theorem actDbnz_does {r : BitVec 5} {d : BitVec 19} (hr : s.does (src r) x s1) (hw : s1.does (dst r (x - 1)) () s2) :
    s.does (actDbnz r d) (.br (if x - 1 = 0 then none else some (BitVec.ofInt 64 (s.str.off + 4 * d.toInt)))) s2 :=
  does_bind (relTarget_does s _) (does_bind hr (does_bind hw (does_pure s2 _)))

theorem actBout_does {p : BitVec 3} (hp : s.does (readPred p) u s) (hq : s.does (bqPush u) () s1) : s.does (actBout p) .seq s1 :=
  does_bind hp (does_bind hq (does_pure s1 _))

end

/-- Settles O17: each is a lone unit whose effect answers the branch it leaves, or goes on. -/
theorem branchesDecide : Obligations.BranchesDecide := by
  unfold Obligations.BranchesDecide
  intro s s1 s2 x u rel
  refine ⟨?nop, ?bc, ?bq, ?bqN, ?jr, ?dbnz, ?bout⟩
  case nop => exact fun hr => lone_next hr (actNop_does s) (.inl rfl)
  case bc => exact fun d g hr hg => lone_next hr (actBc_does hg) (.inr ⟨_, rfl⟩)
  case bq => exact fun d hr hp => lone_next hr (actBq_does hp) (.inr ⟨_, rfl⟩)
  case bqN => exact fun d hr hp => lone_next hr (actBqN_does hp) (.inr ⟨_, rfl⟩)
  case jr => exact fun a hr ha => lone_next hr (actJr_does ha) (.inr ⟨_, rfl⟩)
  case dbnz => exact fun r d hr ha hw => lone_next hr (actDbnz_does ha hw) (.inr ⟨_, rfl⟩)
  case bout => exact fun p hr hp hq => lone_next hr (actBout_does hp hq) (.inl rfl)

end Sys2Proof.Machine
end

section
/-!
PROOF. The joint instructions (R157 to R164, R170 to R177): what the first half and both halves lead to, what a landing's entry sets,
and the effect of each instruction.
-/

namespace Sys2Proof.Machine

/-! ### What a core asks of its gang and of the schedulers -/

theorem does_gangMember (s : State) : s.does gangMember (s.dev.arcOf s.cur.pkg s.cur.core) s :=
  does_bind (does_get s) (does_bind (does_read s) (does_bind (does_read s) (does_pure s _)))

theorem does_findStrand (s : State) (va : Nat) :
    s.does (findStrand va) (s.pkg.sched.strands.find? fun o => o.va == va) s :=
  does_bind (does_thePkg s) (does_pure s _)

/-! ### Both halves (R157) -/

section
variable {s c0 t : State} {i : Instr} {needEmpty : Bool} {act : M Unit} (hr : s.ready i)
include hr

theorem runJoint_arrives (hj : (s.core.str s.cur.stream.other).joint = false) (ha : s.does jointArrive () t) :
    s.does (runJoint i needEmpty act) () t := by
  refine does_bind (does_attempt (gate_passes hr)) (does_bind (does_theStream s) (does_bind (does_theCore s) ?_))
  rw [hj]
  exact ha

theorem runJoint_blocks (hj : (s.core.str s.cur.stream.other).joint = false) (ha : s.stops jointArrive .block) :
    s.stops (runJoint i needEmpty act) .block := by
  refine does_bind_stops (does_attempt (gate_passes hr))
    (does_bind_stops (does_theStream s) (does_bind_stops (does_theCore s) ?_))
  rw [hj]
  exact ha

theorem runJoint_meets (hj : (s.core.str s.cur.stream.other).joint = true) (hk : s.does (jointChecks needEmpty) () s)
    (hc : s.does commitPoint () c0) (ha : c0.does act () t) : s.does (runJoint i needEmpty act) () t := by
  refine does_bind (does_attempt (gate_passes hr)) (does_bind (does_theStream s) (does_bind (does_theCore s) ?_))
  rw [hj]
  exact does_bind (does_attempt hk) (does_bind (does_attempt hc) (does_bind (does_attempt ha) (does_pure t ())))

/-- The first half to arrive marks its stream as waiting, whatever the instruction's effect. -/
theorem joint_arrives (hj : (s.core.str s.cur.stream.other).joint = false) (hn : s.str.joint = false) :
    joint i needEmpty act s = .next (s.put fun c => c.setStr s.cur.stream { c.str s.cur.stream with joint := true }) := by
  refine unitOn_does hr.1 (runJoint_arrives hr hj (does_bind (does_theStream s) (does_bind (does_theCore s) ?_)))
  rw [show (s.core.str s.cur.stream).joint = false from hn]
  exact does_modCore s _

/-- A stream that waits for the other half goes on waiting. -/
theorem joint_waits (hj : (s.core.str s.cur.stream.other).joint = false) (hn : s.str.joint = true) :
    joint i needEmpty act s = .next s := by
  rw [joint, unitOn, if_pos hr.1]
  refine perform_blocks (runJoint_blocks hr hj (does_bind_stops (does_theStream s) (does_bind_stops (does_theCore s) ?_)))
  rw [show (s.core.str s.cur.stream).joint = true from hn]
  exact stops_bind rfl

/-- Both halves stand and agree: the instruction is its effect after the commit point. -/
theorem joint_next (hj : (s.core.str s.cur.stream.other).joint = true) (hk : s.does (jointChecks needEmpty) () s)
    (hc : s.does commitPoint () c0) (ha : c0.does act () t) : joint i needEmpty act s = .next t :=
  unitOn_does hr.1 (runJoint_meets hr hj hk hc ha)

end

/-- Settles O38: each of the seven is a joint unit, and of a joint unit the first half waits. -/
theorem firstHalfWaits : Obligations.FirstHalfWaits := by
  unfold Obligations.FirstHalfWaits
  intro i s hi hr hj
  have first {needEmpty : Bool} {act : M Unit} (he : exec i s = joint i needEmpty act s) :
      (s.str.joint = false →
        exec i s = .next (s.put fun c => c.setStr s.cur.stream { c.str s.cur.stream with joint := true })) ∧
      (s.str.joint = true → exec i s = .next s) :=
    he ▸ ⟨joint_arrives hr hj, joint_waits hr hj⟩
  rcases hi with hi | ⟨h, k, rfl⟩ | ⟨h, k, rfl⟩ | ⟨k, rfl⟩
  case inl =>
    simp only [List.mem_cons, List.not_mem_nil, or_false] at hi
    rcases hi with rfl | rfl | rfl | rfl
    · exact first (act := actRetd) rfl
    · exact first (act := actDone) rfl
    · exact first (act := actCommit) rfl
    · exact first (act := actEret) rfl
  · exact first (act := actCalld h k) rfl
  · exact first (act := actTaild h k) rfl
  · exact first (act := actSusp k) rfl

/-! ### A landing's entry (R147, R155, R172) -/

/-- Settles O40: the entry writes registers 26 and 27 of both streams, the streams' positions, the place of the code in its store and
the checkpoint, and nothing else. -/
theorem landingEntry : Obligations.LandingEntry := by
  unfold Obligations.LandingEntry
  intro c k handle landing offs
  have written (regs : Vector Word 28) (x y : Word) :
      ((regs.setIfInBounds 26 x).setIfInBounds 27 y)[26] = x ∧ ((regs.setIfInBounds 26 x).setIfInBounds 27 y)[27] = y := by
    simp
  have kept (regs : Vector Word 28) (x y : Word) (n : Fin 26) :
      ((regs.setIfInBounds 26 x).setIfInBounds 27 y)[n.val] = regs[n.val] := by
    have h26 : 26 ≠ n.val := by omega
    have h27 : 27 ≠ n.val := by omega
    rw [Vector.getElem_setIfInBounds_ne _ h27, Vector.getElem_setIfInBounds_ne _ h26]
  have stored {x : Code} : x ∈ (c.atEntry k handle landing offs).store ↔ (x ∈ c.store ∧ x ≠ k) ∨ x = k := by
    simp [Core.atEntry, Core.checkpoint]
  have outside : (c.atEntry k handle landing offs).atLanding = if c.nest = 0 then some (handle, landing) else none := by
    simp [Core.atEntry, Core.checkpoint]
  exact ⟨rfl, rfl, rfl, (written c.a _ _).1, (written c.a _ _).2, (written c.s _ _).1, (written c.s _ _).2,
    fun n => ⟨kept c.a _ _ n, kept c.s _ _ n⟩, rfl, rfl, stored.mpr (.inr rfl),
    fun x hx => (stored.mp hx).elim (fun h => .inr h.1) .inl, rfl, outside, rfl, rfl, rfl, rfl, rfl, rfl, rfl⟩

/-! ### The effects of CALLD, TAILD, RETD, SUSP and DONE (R159 to R163) -/

section
variable {s s1 s2 s3 s4 s5 t : State} {code : Code} {ent : DirEnt} {h w : Nat} {m : Bool} {rh : BitVec 5} {k : BitVec 12}

theorem actCalld_does (hk : s.core.curCode = some code) (hl : (code.landing k.toNat).isSome) (hh : s.does handleOperand h s)
    (hd : s.does (dirEntry h) (some ent) s1)
    (hm : s1.does (checkSpan (s.core.fp - BitVec.ofNat 64 ent.frame) 16) m s2) (ht : s2.does drainTokens () s3)
    (hw : s3.does (writeSpan m (s.core.fp - BitVec.ofNat 64 ent.frame) 16
      (k.toNat * 2 ^ 20 + (s.core.cur.map (·.handle)).getD 0 + s.core.fp.toNat * 2 ^ 64)) () s4)
    (he : s4.does (enterTarget h 0 ent (s.core.fp - BitVec.ofNat 64 ent.frame)) () t) : s.does (actCalld rh k) () t := by
  have present : ¬ (code.landing k.toNat).isNone = true := by simpa [← Option.isSome_iff_ne_none] using hl
  refine does_bind (does_theCore s) ?_
  simp only [hk]
  rw [if_neg present]
  exact does_bind hh (does_bind hd (does_bind hm (does_bind ht (does_bind hw he))))

theorem actTaild_does (hk : s.core.curCode = some code) (hh : s.does handleOperand h s) (hd : s.does (dirEntry h) (some ent) s1)
    (hl : s1.does (loadSpan s.core.fp 16) w s2)
    (hm : s2.does (checkSpan (s.core.fp + BitVec.ofNat 64 code.frame - BitVec.ofNat 64 ent.frame) 16) m s3)
    (ht : s3.does drainTokens () s4)
    (hw : s4.does (writeSpan m (s.core.fp + BitVec.ofNat 64 code.frame - BitVec.ofNat 64 ent.frame) 16 w) () s5)
    (he : s5.does (enterTarget h k.toNat ent (s.core.fp + BitVec.ofNat 64 code.frame - BitVec.ofNat 64 ent.frame)) () t) :
    s.does (actTaild rh k) () t := by
  refine does_bind (does_theCore s) (does_bind hh (does_bind hd ?_))
  simp only [hk]
  exact does_bind hl (does_bind hm (does_bind ht (does_bind hw (does_bind (does_attempt he) (does_pure t ())))))

theorem performDone_retires (hs : s.does settle () s1) (hg : s1.does gangMember none s1) (hr : s1.does (retire 0) () t) :
    s.does performDone () t := does_bind hs (does_bind hg hr)

theorem performDone_holds {arc : Archipelago} {i j : Nat} (hs : s.does settle () s1)
    (hg : s1.does gangMember (some (arc, i, j)) s1) (hh : s1.does (holdEnd arc i j 0) () t) : s.does performDone () t :=
  does_bind hs (does_bind hg hh)

theorem actDone_does (ht : s.does drainTokens () s1) (hp : s1.does performDone () t) : s.does actDone () t := does_bind ht hp

theorem actRetd_does (ht : s.does drainTokens () s1) (hr : s1.does returnTo () t) : s.does actRetd () t :=
  does_bind ht (does_bind (does_attempt hr) (does_pure t ()))

section
variable (hl : s.does (loadSpan s.core.fp 16) w s1) (hz : natBits (w % 2 ^ 64) 63 32 = 0)
include hl hz

/-- The bottom frame names no caller, and the strand is done. -/
theorem returnTo_bottom (h0 : natBits (w % 2 ^ 64) 19 0 = 0) (hp : s1.does performDone () t) : s.does returnTo () t := by
  refine does_bind (does_theCore s) (does_bind hl ?_)
  simp only [hz, h0]
  exact hp

theorem returnTo_enters (h0 : natBits (w % 2 ^ 64) 19 0 ≠ 0) (hd : s1.does (dirEntry (natBits (w % 2 ^ 64) 19 0)) (some ent) s2)
    (he : s2.does (enterTarget (natBits (w % 2 ^ 64) 19 0) (natBits (w % 2 ^ 64) 31 20) ent (BitVec.ofNat 64 (w / 2 ^ 64))) () t) :
    s.does returnTo () t := by
  have caller : (natBits (w % 2 ^ 64) 19 0 == 0) = false := by simpa using h0
  refine does_bind (does_theCore s) (does_bind hl ?_)
  simp only [hz, caller]
  exact does_bind hd he

end

section
variable {o : Nat × Nat} (hk : s.core.curCode = some code) (hl : code.landing k.toNat = some o) (ht : s.does drainTokens () s1)
include hk hl ht

theorem actSusp_suspends (hn : s.core.nest = 0)
    (hs : s1.does (suspend .ready ((s.core.cur.map (·.handle)).getD 0) k.toNat s.core.fp none) () t) : s.does (actSusp k) () t := by
  refine does_bind (does_theCore s) ?_
  simp only [hk, hl, hn]
  exact does_bind ht hs

theorem actSusp_torn (hn : s.core.nest ≠ 0) (hx : s1.does tornHere true s1) (hs : s1.does (suspensionPoint (pure ())) () t) :
    s.does (actSusp k) () t := by
  have nested : (s.core.nest != 0) = true := by simpa using hn
  refine does_bind (does_theCore s) ?_
  simp only [hk, hl, nested]
  exact does_bind ht (does_bind hx hs)

theorem actSusp_enters (hn : s.core.nest ≠ 0) (hx : s1.does tornHere false s1)
    (hs : s1.does (setStrand s.core.strand.toNat fun x => { x with
      handle := (s.core.cur.map (·.handle)).getD 0, landing := k.toNat, frame := s.core.fp }) () s2)
    (he : s2.does (enterLanding code ((s.core.cur.map (·.handle)).getD 0) k.toNat o) () t) : s.does (actSusp k) () t := by
  have nested : (s.core.nest != 0) = true := by simpa using hn
  refine does_bind (does_theCore s) ?_
  simp only [hk, hl, nested]
  exact does_bind ht (does_bind hx (does_bind hs he))

end

end

/-! ### The effect of ERET (R177) -/

/-- The two words of a handler's frame: the mark of a handler, and the trap frame's address. -/
theorem handlerWords (tf : Nat) : (0x0000000100000000 + tf * 2 ^ 64) % 2 ^ 64 = 0x0000000100000000 ∧
    (0x0000000100000000 + tf * 2 ^ 64) / 2 ^ 64 = tf := by omega

/-- The core after an ERET by the trap frame `v` at `tf`, with the function that runs again (R177). -/
def Core.resumed (c : Core) (v tf : Nat) (cur : Current) : Core :=
  { (c.returned v (BitVec.ofNat 64 tf)).checkpoint none with
    rcount := BitVec.ofNat 8 (natBits (bytesAt v 0x1E8 8) 15 8), cur := some cur }

section
variable {s s1 s2 s3 s4 t : State} {tf v : Nat} {ent : DirEnt}
  (hl : s.does (loadSpan s.core.fp 16) (0x0000000100000000 + tf * 2 ^ 64) s1)
  (hv : s1.does (loadSpan (BitVec.ofNat 64 tf) 0x1900) v s2)
  (hd : s2.does (dirEntry (natBits (bytesAt v 0x1D8 8) 51 32)) (some ent) s3)
include hl hv hd

theorem actEret_returns {code : Code}
    (hc : residentForm s.core s3.pkg.ctl ent.digest (formOf (bytesAt v 0x1D8 8)) = some code)
    (hf : trapFrameBad v (some code) (s.core.returned v (BitVec.ofNat 64 tf)) = false) :
    s.does actEret () (s3.put fun _ =>
      s.core.resumed v tf ⟨natBits (bytesAt v 0x1D8 8) 51 32, ent.digest, formOf (bytesAt v 0x1D8 8), code.key⟩) := by
  obtain ⟨marked, frame⟩ := handlerWords tf
  refine does_bind (does_theCore s) (does_bind hl ?_)
  simp only [marked, frame]
  refine does_bind hv (does_bind hd (does_bind (does_thePkg s3) ?_))
  simp only [Option.bind_some, hc, hf]
  exact does_bind (does_findStrand s3 _) (does_bind (does_modCore s3 _) (does_pure _ ()))

theorem actEret_waits {x : Strand}
    (hc : residentForm s.core s3.pkg.ctl ent.digest (formOf (bytesAt v 0x1D8 8)) = none)
    (hf : trapFrameBad v none (s.core.returned v (BitVec.ofNat 64 tf)) = false)
    (hx : s3.does (findStrand s.core.strand.toNat) (some x) s3) (hi : x.illegal = false)
    (hs : (s3.put fun c => { c with mode := .fetching (natBits (bytesAt v 0x1D8 8) 51 32) 4097 }).does
      (beginSearch s.core.strand.toNat s3.cur.core (natBits (bytesAt v 0x1D8 8) 51 32) ent (some (formOf (bytesAt v 0x1D8 8)))) () s4)
    (hw : s4.does (setStrand s.core.strand.toNat fun o => { o with state := .suspCode }) () t) : s.does actEret () t := by
  obtain ⟨marked, frame⟩ := handlerWords tf
  refine does_bind (does_theCore s) (does_bind hl ?_)
  simp only [marked, frame]
  refine does_bind hv (does_bind hd (does_bind (does_thePkg s3) ?_))
  simp only [Option.bind_some, hc, hf]
  refine does_bind hx ?_
  simp only [Option.map_some, Option.getD_some, hi]
  exact does_bind (does_modCore s3 _) (does_bind (does_read _) (does_bind hs (does_bind hw (does_pure t ()))))

end

/-- Settles O41: after the commit point each is its effect, and the effect its computations in order. -/
theorem jointUnits : Obligations.JointUnits := by
  unfold Obligations.JointUnits
  intro s c0 s1 s2 s3 s4 s5 t h ent m w rh k hj hc met c
  have joined {i : Instr} {b : Bool} {act : M Unit} {u : State} (hm : met i b) (ha : c0.does act () u) :
      joint i b act s = .next u := joint_next hm.1 hj hm.2 hc ha
  refine ⟨?commit, ?calld, ?taild, ?retd, ?susp, ?done, ?eret, ?formless⟩
  case commit => exact fun hm => joined hm (does_modCore c0 _)
  case calld => exact fun code hm hk hl hh hd hs ht hw he => joined hm (actCalld_does hk hl hh hd hs ht hw he)
  case taild => exact fun code hm hk hh hd hl hs ht hw he => joined hm (actTaild_does hk hh hd hl hs ht hw he)
  case retd =>
    intro hm ht hl hz
    exact ⟨fun h0 hp => joined hm (actRetd_does ht (returnTo_bottom hl hz h0 hp)),
      fun h0 hd he => joined hm (actRetd_does ht (returnTo_enters hl hz h0 hd he))⟩
  case susp =>
    intro code o hm hk hl ht
    exact ⟨fun hn hs => joined hm (actSusp_suspends hk hl ht hn hs), fun hn hx hs => joined hm (actSusp_torn hk hl ht hn hx hs),
      fun hn hx hs he => joined hm (actSusp_enters hk hl ht hn hx hs he)⟩
  case done =>
    intro hm ht hs
    have here : s2.cur = s.cur := (cur_eq_of_does hs).trans ((cur_eq_of_does ht).trans (cur_eq_of_does hc))
    rw [← here]
    exact ⟨fun hg hr => joined hm (actDone_does ht (performDone_retires hs (hg ▸ does_gangMember s2) hr)),
      fun arc i j hg hh => joined hm (actDone_does ht (performDone_holds hs (hg ▸ does_gangMember s2) hh))⟩
  case eret =>
    intro tf code v hm hl _ hv hd hr hf
    refine ⟨_, joined hm (actEret_returns hl hv hd hr hf), ?_⟩
    dsimp only
    rw [State.put_core]
    simp only [Core.resumed, Core.checkpoint, Core.returned, frameBytes, and_self, c]
  case formless =>
    exact fun tf v x hm hl _ hv hd hr hf hx hi hs hw => joined hm (actEret_waits hl hv hd hr hf hx hi hs hw)

end Sys2Proof.Machine
end

section
/-!
PROOF. SPAWN (R165, R20, R331, R399): what it judges, in its order, and the strand it makes.
-/

namespace Sys2Proof.Machine

/-! ### The unit -/

section
variable {d a b : BitVec 5} {s s1 s2 s3 s4 s5 : State} {h va : Word} {blk st : Nat} (ha : s.does (src a) h s1)
  (hb : s1.does (src b) va s2)
include ha hb

theorem actSpawn_does (hv : va.toNat % 64 = 0) (hl : s2.does (loadSpan va 64) blk s3) (hs : s3.does (spawn h blk) st s4)
    (hw : s4.does (dst d (BitVec.ofNat 64 st)) () s5) : s.does (actSpawn d a b) Flow.seq s5 := by
  refine does_bind ha (does_bind hb ?_)
  simp only [hv]
  exact does_bind hl (does_bind hs (does_bind hw (does_pure s5 _)))

theorem actSpawn_misaligned (hv : va.toNat % 64 ≠ 0) : s.stops (actSpawn d a b) (.raise .align va) := by
  have off : (va.toNat % 64 != 0) = true := by simpa using hv
  refine does_bind_stops ha (does_bind_stops hb ?_)
  simp only [off]
  exact stops_bind rfl

end

/-! ### The judgement, in its order -/

/-- The priority that an argument block gives the new strand (Table 6.9). -/
def spawnPrio (blk : Nat) : Nat := natBits (bytesAt blk 0x28 8) 5 0

/-- The strand that a SPAWN makes of an argument block in the record at `va`, a child of `parent` (R165). -/
def spawned (parent : Strand) (va h blk : Nat) : Strand :=
  let w (off : Nat) : Word := BitVec.ofNat 64 (bytesAt blk off 8)
  { blankStrand va h parent.dom (spawnPrio blk) parent.launch with
    frame := w 0, compl := w 8, arg0 := w 0x10, arg1 := w 0x18, indecl := w 0x20, lpkg := parent.lpkg
    replayPin := parent.replayPin, path := parent.path ++ [parent.spawned], island := parent.island
    slot := parent.slot }

/-- What a SPAWN goes on with once its block, its handle and its priority are good: it judges the resources of the spawner, the
strand at `va`, and makes the new strand (R165, R331, R399). -/
def spawnResources (va h blk : Nat) : M Nat := do
  match ← findStrand va with
  | none => return 1
  | some parent =>
    if (← strandTorn parent) || (← domStopped parent.dom) then return 1
    let part := (← partOfDom parent.dom).getD 0
    if Config.readyQueueSize < (← readyItems part) then return 1
    match ← takeRecord parent.dom with
    | none => return 1
    | some rec =>
      settled
      modStrand parent.va fun o => { o with spawned := o.spawned + 1 }
      createStrand (spawned parent rec h blk)
      return 0

section
variable {s s1 t : State} {h : Word} {blk : Nat}

theorem spawn_bad_block (hb : spawnBlockOk blk = false) : s.does (spawn h blk) 4 s := by
  refine does_bind (does_theCore s) ?_
  simp only [hb]
  exact does_pure s 4

section
variable (hb : spawnBlockOk blk = true)
include hb

theorem spawn_bad_handle (hd : s.does (dirEntry h.toNat) none s1) : s.does (spawn h blk) 2 s1 := by
  refine does_bind (does_theCore s) ?_
  simp only [hb]
  exact does_bind hd (does_pure s1 2)

section
variable {ent : DirEnt} (hd : s.does (dirEntry h.toNat) (some ent) s1)
include hd

theorem spawn_bad_priority (hp : spawnPrio blk < s.core.prio.toNat ∨ 47 < spawnPrio blk) : s.does (spawn h blk) 3 s1 := by
  have refused : (decide (natBits (bytesAt blk 0x28 8) 5 0 < s.core.prio.toNat) ||
      decide (47 < natBits (bytesAt blk 0x28 8) 5 0)) = true := by
    simpa [spawnPrio] using hp
  refine does_bind (does_theCore s) ?_
  simp only [hb]
  refine does_bind hd ?_
  simp only [refused]
  exact does_pure s1 3

theorem spawn_judged {st : Nat} (hlo : s.core.prio.toNat ≤ spawnPrio blk) (hhi : spawnPrio blk ≤ 47)
    (hr : s1.does (spawnResources s.core.strand.toNat h.toNat blk) st t) : s.does (spawn h blk) st t := by
  have passed : (decide (natBits (bytesAt blk 0x28 8) 5 0 < s.core.prio.toNat) ||
      decide (47 < natBits (bytesAt blk 0x28 8) 5 0)) = false := by
    simpa [spawnPrio] using And.intro hlo hhi
  refine does_bind (does_theCore s) ?_
  simp only [hb]
  refine does_bind hd ?_
  simp only [passed]
  exact hr

end
end
end

/-! ### The resources -/

section
variable {s s1 s2 s3 t : State} {va h blk : Nat}

theorem spawnResources_unknown (hf : s.does (findStrand va) none s) : s.does (spawnResources va h blk) 1 s :=
  does_bind hf (does_pure s 1)

section
variable {parent : Strand} {torn stopped : Bool} {part : Option Nat} {n : Nat}
  (hf : s.does (findStrand va) (some parent) s) (ht : s.does (strandTorn parent) torn s)
  (hs : s.does (domStopped parent.dom) stopped s)
include hf ht hs

theorem spawnResources_refused (hx : torn = true ∨ stopped = true) : s.does (spawnResources va h blk) 1 s := by
  have refused : (torn || stopped) = true := by simpa using hx
  refine does_bind hf (does_bind ht (does_bind hs ?_))
  simp only [refused]
  exact does_pure s 1

section
variable (h0 : torn = false) (h1 : stopped = false) (hp : s.does (partOfDom parent.dom) part s)
  (hn : s.does (readyItems (part.getD 0)) n s)
include h0 h1 hp hn

theorem spawnResources_full (hq : Config.readyQueueSize < n) : s.does (spawnResources va h blk) 1 s := by
  refine does_bind hf (does_bind ht (does_bind hs ?_))
  simp only [h0, h1]
  refine does_bind hp (does_bind hn ?_)
  rw [if_pos hq]
  exact does_pure s 1

theorem spawnResources_no_record (hq : n ≤ Config.readyQueueSize) (hr : s.does (takeRecord parent.dom) none s1) :
    s.does (spawnResources va h blk) 1 s1 := by
  refine does_bind hf (does_bind ht (does_bind hs ?_))
  simp only [h0, h1]
  refine does_bind hp (does_bind hn ?_)
  rw [if_neg (Nat.not_lt.mpr hq)]
  exact does_bind hr (does_pure s1 1)

theorem spawnResources_makes {rec : Nat} (hq : n ≤ Config.readyQueueSize) (hr : s.does (takeRecord parent.dom) (some rec) s1)
    (he : s1.does settled () s2) (hm : s2.does (modStrand parent.va fun o => { o with spawned := o.spawned + 1 }) () s3)
    (hc : s3.does (createStrand (spawned parent rec h blk)) () t) : s.does (spawnResources va h blk) 0 t := by
  refine does_bind hf (does_bind ht (does_bind hs ?_))
  simp only [h0, h1]
  refine does_bind hp (does_bind hn ?_)
  rw [if_neg (Nat.not_lt.mpr hq)]
  exact does_bind hr (does_bind he (does_bind hm (does_bind hc (does_pure t 0))))

end
end
end

/-- Settles O42: the unit is its effect after its commit point, and the first thing that is not good gives the status. -/
theorem spawnMakesStrand : Obligations.SpawnMakesStrand := by
  unfold Obligations.SpawnMakesStrand
  intro d a b s s0 s1 s2 s3 s4 s5 s6 s7 h va blk st prio
  refine ⟨?unit, ?misaligned, spawn_bad_block, spawn_bad_handle,
    fun ent hb hd => ⟨spawn_bad_priority hb hd, fun hlo hhi => ⟨?unknown, ?known⟩⟩⟩
  case unit =>
    exact fun hr hc ha hb hv hl hs hw straight => loneCommit_next hr hc (actSpawn_does ha hb hv hl hs hw) (.inl rfl) straight
  case misaligned => exact actSpawn_misaligned
  case unknown => exact fun hf => spawn_judged hb hd hlo hhi (spawnResources_unknown hf)
  case known =>
    intro parent torn stopped part n hf ht hs
    refine ⟨fun hx => spawn_judged hb hd hlo hhi (spawnResources_refused hf ht hs hx),
      fun h0 h1 hp hn => ⟨?_, fun hq => ⟨?_, ?_⟩⟩⟩
    · exact fun hq => spawn_judged hb hd hlo hhi (spawnResources_full hf ht hs h0 h1 hp hn hq)
    · exact fun hr => spawn_judged hb hd hlo hhi (spawnResources_no_record hf ht hs h0 h1 hp hn hq hr)
    · exact fun rec s8 hr he hm hc => spawn_judged hb hd hlo hhi (spawnResources_makes hf ht hs h0 h1 hp hn hq hr he hm hc)

end Sys2Proof.Machine
end

section
/-!
PROOF. Errors in data, tags, registers and code (R148, R304, R305, R388, R413): what each event leads to, by the place of the error.
-/

namespace Sys2Proof.Machine

/-! ### Tags (R304) -/

section
variable {s t : State} {line : Nat} {bad : Bool} {tag : Tag}

/-- The package with the tag of a line lost, and the reference it held kept for the reconciliation. -/
def Package.tagLost (x : Package) (line : Nat) (tag : Tag) : Package :=
  { x with home := { x.home with
    tags := x.home.tags.filter fun t => t.line != line, lostRefs := x.home.lostRefs ++ [tag.dptr] } }

section
variable (hx : s.pkg.home.tags.find? (fun t => t.line == line) = some tag)
include hx

theorem tagError_clean (hd : tag.dirty = false) : s.does (tagError line bad) () (s.putPkg fun x => x.tagLost line tag) := by
  refine does_bind (does_thePkg s) ?_
  simp only [hx, hd]
  exact does_modPkg s _

theorem tagError_mirrored (hd : tag.dirty = true) : s.does (tagError line false) () s := by
  refine does_bind (does_thePkg s) ?_
  simp only [hx, hd]
  exact does_pure s ()

theorem tagError_dirty (hd : tag.dirty = true)
    (hs : (s.putPkg fun x => x.tagLost line tag).does
      ((lookupD [] s.pkg.home.dirtyBits (homeSlice (128 * line))).forM stopDomain) () t) : s.does (tagError line true) () t := by
  refine does_bind (does_thePkg s) ?_
  simp only [hx, hd]
  exact does_bind (does_modPkg s _) hs

end
end

/-! ### Data (R413) -/

theorem dataError_memory {s : State} {a : Nat} (ha : a + 8 ≤ hbmBytes) : s.does (dataError 0 a) ()
    (s.putPkg fun x => { x with home := { x.home with hbmPois := addOnce x.home.hbmPois (a / 8) } }) := by
  simp only [dataError, if_pos ha]
  exact does_modPkg s _

theorem dataError_shared {s : State} {a : Nat} {tag : Tag} (hx : s.pkg.home.tags.find? (fun t => t.line == a / 128) = some tag) :
    s.does (dataError 1 a) () (s.putPkg fun x => { x with home := { x.home with
      data := x.home.data.map fun d => if d.id == tag.dptr then { d with pois := d.pois ||| 2 ^ (a / 8 % 16) } else d } }) := by
  rw [State.putPkg_congr (g := fun x => match x.home.tags.find? fun t => t.line == a / 128 with
    | some t => { x with home := { x.home with
        data := x.home.data.map fun d => if d.id == t.dptr then { d with pois := d.pois ||| 2 ^ (a / 8 % 16) } else d } }
    | none => x) (by simp only [hx])]
  exact does_modPkg s _

theorem dataError_scratch {s : State} {a : Nat} (ha : a < scratchBytes) : s.does (dataError 2 a) () (s.put fun c => { c with
    scratch := c.scratch.write (a / 8 * 8) 8 (Config.lostData s.time (a / 8)).toNat
    scratchPois := addOnce c.scratchPois (a / 8) }) := by
  refine does_bind (does_now s) ?_
  rw [if_pos ha]
  exact does_modCore s _

theorem dataError_l1 (s : State) (a : Nat) : s.does (dataError 4 a) () (s.putPkg fun x => { x with home := { x.home with
    l1 := x.home.l1.map fun c => if c.1 == s.pkg.home.l1Owner s.cur.core (a / 128) then (c.1, c.2.map fun e =>
      if e.line == a / 128 then { e with pois := e.pois ||| 2 ^ (a / 8 % 16) } else e) else c } }) :=
  does_bind (does_thePkg s) (does_bind (does_read s) (does_modPkg s _))

theorem dataError_corrected (s : State) (a : Nat) : s.does (dataError 5 a) ()
    (s.putPkg fun x => { x with service := { x.service with corrected := x.service.corrected + 1 } }) := does_modPkg s _

/-! ### Registers (R388, R413) -/

/-- Every kind that names no other place is an error in the core itself. -/
theorem dataError_core_kind {n : Nat} (a : Nat) (hn : n = 3 ∨ 5 < n) : dataError n a = dataError 3 a := by
  rcases hn with rfl | hn
  · rfl
  · obtain ⟨k, rfl⟩ := Nat.exists_eq_add_of_le' (Nat.succ_le_of_lt hn)
    rfl

section
variable {s s1 s2 t : State} {a : Nat}

theorem dataError_idle (hm : s.core.mode = .idle) : s.does (dataError 3 a) () s := by
  refine does_bind (does_theCore s) ?_
  simp only [hm]
  exact does_pure s ()

theorem dataError_retires (hi : s.core.mode ≠ .idle) (hh : s.core.mode ≠ .held)
    (hs : (∀ p, s.core.mode ≠ .stopped p) ∨ s.does gangMember none s) (hr : s.does (retireFault Cause.poison.code) () t) :
    s.does (dataError 3 a) () t := by
  refine does_bind (does_theCore s) ?_
  cases hm : s.core.mode with
  | idle => exact absurd hm hi
  | held => exact absurd hm hh
  | stopped p =>
    have lone : s.does gangMember none s := hs.resolve_left fun h => h p hm
    exact does_bind lone hr
  | running | resolving | fetching | restored => exact hr

theorem dataError_stopped {p : Option Pending} {g : Archipelago × Nat × Nat} (hm : s.core.mode = .stopped p)
    (hg : s.does gangMember (some g) s)
    (he : s.does (modStrand s.core.strand.toNat fun x => { x with ending := some Cause.poison.code }) () t) :
    s.does (dataError 3 a) () t := by
  refine does_bind (does_theCore s) ?_
  simp only [hm]
  exact does_bind hg he

section
variable (hm : s.core.mode = .held)
include hm

theorem dataError_held_alone (hg : s.does gangMember none s) : s.does (dataError 3 a) () s := by
  refine does_bind (does_theCore s) ?_
  simp only [hm]
  exact does_bind hg (does_pure s ())

section
variable {arc : Archipelago} {i k : Nat} {isl : Island} (hg : s.does gangMember (some (arc, i, k)) s)
  (hi : arc.islands[i]? = some isl)
include hg hi

theorem dataError_left (hk : (isl.held.any fun q => q.1 == k) = false) : s.does (dataError 3 a) () s := by
  refine does_bind (does_theCore s) ?_
  simp only [hm]
  refine does_bind hg ?_
  simp only [hi, Option.any_some, hk]
  exact does_pure s ()

theorem dataError_held (hk : (isl.held.any fun q => q.1 == k) = true) (hd : s.does (dropHeld arc.id i k) () s1)
    (he : s1.does (endHere Cause.poison.code) () s2) (hw : s2.does (departWith s.core.strand.toNat) () t) :
    s.does (dataError 3 a) () t := by
  refine does_bind (does_theCore s) ?_
  simp only [hm]
  refine does_bind hg ?_
  simp only [hi, Option.any_some, hk]
  exact does_bind hd (does_bind he hw)

end
end
end

/-! ### Code (R148) -/

section
variable {s t : State} {n : Nat}

theorem codePoison_store {k : Code} (hk : s.core.store[n]? = some k) (hp : s.does (storePoisoned k) () t) :
    s.does (codePoison 0 n) () t := by
  refine does_bind (does_theCore s) ?_
  simp only [hk]
  exact hp

theorem codePoison_die {e : Nat × Obj} (he : (s.pkg.sched.dieCode.filter fun e => e.1 == dieOf s.cur.core)[n]? = some e) :
    s.does (codePoison 1 n) () (s.putPkg fun x => { x with sched := { x.sched with dieCode := x.sched.dieCode.erase e } }) := by
  refine does_bind (does_read s) (does_bind (does_thePkg s) ?_)
  simp only [State.env, he]
  exact does_modSched s _

theorem codePoison_pool {o : Obj} (ho : s.pkg.sched.pool[n]? = some o) :
    s.does (codePoison 2 n) () (s.putPkg fun x => { x with sched := { x.sched with pool := x.sched.pool.erase o } }) := by
  refine does_bind (does_thePkg s) ?_
  simp only [ho]
  exact does_modSched s _

end

/-- Settles O50: each event is what the place of the error asks for. -/
theorem errorEvents : Obligations.ErrorEvents := by
  unfold Obligations.ErrorEvents
  intro s s1 s2 t line a n bad
  refine ⟨fun tag hx => ⟨?clean, ?mirrored, ?dirty⟩, ?memory, ?shared, ?scratch, ?l1, ?corrected, fun hn => ?core,
    ?store, ?die, ?pool⟩
  case clean => exact fun hd => event_next (tagError_clean hx hd)
  case mirrored => exact fun hd => event_next (tagError_mirrored hx hd)
  case dirty => exact fun hd hs => event_next (tagError_dirty hx hd hs)
  case memory => exact fun ha => event_next (dataError_memory ha)
  case shared => exact fun tag hx => event_next (dataError_shared hx)
  case scratch => exact fun ha => event_next (dataError_scratch ha)
  case l1 => exact event_next (dataError_l1 s a)
  case corrected => exact event_next (dataError_corrected s a)
  case core =>
    have event_core {u : State} (h : s.does (dataError 3 a) () u) : exec (.dataError n a) s = .next u :=
      event_next (dataError_core_kind a hn ▸ h)
    have alone (h : s.dev.arcOf s.cur.pkg s.cur.core = none) : s.does gangMember none s := h ▸ does_gangMember s
    refine ⟨?idle, ?retires, ?stopped, ?heldAlone, ?held⟩
    case idle => exact fun hm => event_core (dataError_idle hm)
    case retires => exact fun hi hh hs hr => event_core (dataError_retires hi hh (hs.imp_right alone) hr)
    case stopped =>
      intro p hm hl he
      obtain ⟨g, hg⟩ := Option.ne_none_iff_exists'.mp hl
      exact event_core (dataError_stopped hm (hg ▸ does_gangMember s) he)
    case heldAlone => exact fun hm hl => event_core (dataError_held_alone hm (alone hl))
    case held =>
      intro arc i k isl hm hg hi
      have member : s.does gangMember (some (arc, i, k)) s := hg ▸ does_gangMember s
      exact ⟨fun hk => event_core (dataError_left hm member hi hk),
        fun hk hd he hw => event_core (dataError_held hm member hi hk hd he hw)⟩
  case store => exact fun k hk hp => event_next (codePoison_store hk hp)
  case die => exact fun e he => event_next (codePoison_die he)
  case pool => exact fun o ho => event_next (codePoison_pool ho)

end Sys2Proof.Machine
end

section
/-!
PROOF. Code searches, slice ends, the drain watchdog and the seal (R149 to R154, R179, R332, R402, R403): what each event leads to
where its conditions hold.
-/

namespace Sys2Proof.Machine

section
variable {s u u1 u2 t : State}

/-! ### Searches (R149, R151) -/

theorem codeFetchStage_does {q : Search} {rs : List Requester} {keep : List Bool} {nb : List Nat}
    (hq : s.does coreSearch (some q) s) (hj : s.does (judgeEach q q.reqs []) rs u) (hk : u.does (rs.mapM settleRequester) keep u1)
    (hn : u1.does (neighbours q.core) nb u1)
    (hs : u1.does (setSearch q.die q.digest fun _ =>
      { q.advance nb.length with reqs := ((rs.zip keep).filter (·.2)).map (·.1) }) () t) : s.does codeFetchStage () t :=
  does_bind hq (does_bind hj (does_bind hk (does_bind hn hs)))

theorem neighbourTimeout_does {q : Search} {nb : List Nat} (hq : s.does coreSearch (some q) s) (h3 : q.stage = 3)
    (hn : s.does (neighbours q.core) nb s)
    (hs : s.does (setSearch q.die q.digest fun _ => { q.advance nb.length with
      reqs := q.reqs.map fun x => { x with seen := Nat.max x.seen (stageRank q.stage q.neighbour) } }) () t) :
    s.does neighbourTimeout () t := by
  have asking : (q.stage != 3) = false := by simp [h3]
  refine does_bind hq ?_
  simp only [asking]
  exact does_bind hn hs

/-! ### Installation (R147, R332) -/

section
variable {h land : Nat} {r : Requester} {x : Strand} (hm : s.core.mode = .fetching h land)
  (he : s.pkg.sched.endedFor s.cur.core s.core.strand.toNat = some r) (hf : s.does (findStrand s.core.strand.toNat) (some x) s)
  (hv : x.savedAt = none)
include hm he hf hv

theorem codeInstall_elsewhere (hx : x.state ≠ .suspCode) : s.does codeInstall () s := by
  have waits : (x.state == .suspCode) = false := by simpa using hx
  refine does_bind (does_read s) (does_bind (does_thePkg s) (does_bind (does_theCore s) ?_))
  simp only [hm]
  refine does_bind hf ?_
  simp only [State.env, he, hv, waits]
  exact does_pure s ()

theorem codeInstall_found {k : Code} (hx : x.state = .suspCode) (hk : r.found = some k)
    (hr : (s.put fun c => c.install k).does (setStrand s.core.strand.toNat fun o => { o with state := .ready }) () t) :
    s.does codeInstall () t := by
  refine does_bind (does_read s) (does_bind (does_thePkg s) (does_bind (does_theCore s) ?_))
  simp only [hm]
  refine does_bind hf ?_
  simp only [State.env, he, hv, hx, hk]
  exact does_bind (does_modCore s _) hr

theorem codeInstall_missed (hx : x.state = .suspCode) (hk : r.found = none)
    (hr : s.does (setStrand s.core.strand.toNat fun o => { o with state := .ready }) () t) : s.does codeInstall () t := by
  refine does_bind (does_read s) (does_bind (does_thePkg s) (does_bind (does_theCore s) ?_))
  simp only [hm]
  refine does_bind hf ?_
  simp only [State.env, he, hv, hx, hk]
  exact hr

end

/-! ### Slice ends (R397, R403) -/

section
variable {part : Nat} {p : PartRec} {x : Strand} {cs : List (Nat × Nat)} (hp : s.does thePart part s)
  (hf : findAt s.pkg.ctl.parts part = some p) (hx : s.does (findStrand s.core.strand.toNat) (some x) s)
  (hs : s.core.stoppable = true) (ht : p.sliceTime ≤ s.time - s.core.sliceStart) (hg : s.does (gangEntering x) false s)
  (hc : s.does (stopTogether x) cs u)
include hp hf hx hs ht hg hc

theorem sliceEnd_stops (hl : slotsSuffice u.dev cs = true)
    (hd : u.does (cs.forM fun q => atCore q.1 q.2 .A (stopCore false)) () t) : s.does sliceEnd () t := by
  refine does_bind (does_theCore s) (does_bind (does_now s) (does_bind hp (does_bind (does_thePkg s) (does_bind hx ?_))))
  simp only [hf]
  refine does_bind hg ?_
  simp only [hs, ht, decide_true]
  refine does_bind hc (does_bind (does_get u) ?_)
  simp only [hl]
  exact hd

theorem sliceEnd_restarts (hl : slotsSuffice u.dev cs = false) :
    s.does sliceEnd () (u.put fun c => { c with sliceStart := s.time }) := by
  refine does_bind (does_theCore s) (does_bind (does_now s) (does_bind hp (does_bind (does_thePkg s) (does_bind hx ?_))))
  simp only [hf]
  refine does_bind hg ?_
  simp only [hs, ht, decide_true]
  refine does_bind hc (does_bind (does_get u) ?_)
  simp only [hl]
  exact does_modCore u _

end

/-! ### The drain and the seal (R179, R402) -/

theorem drainWatchdog_does {q : Option Pending} {t0 x : Nat} (hm : s.core.mode = .stopped q)
    (hd : findAt s.pkg.ctl.drains s.cur.core = some t0) (ht : drainLimit ≤ s.time - t0) (hc : s.core.cmds ≠ [])
    (he : s.does (s.core.cmds.forM fun k => commandDone k.serial (statusWord .watchdog 0)) () u)
    (hx : (u.putPkg fun y => { y with fabric := { y.fabric with
      messages := y.fabric.messages.filter fun m => m.core != s.cur.core } }).does (ctxOfDom s.core.dom.toNat) (some x) u2)
    (hg : u2.does (addGuilt x) () t) : s.does drainWatchdog () t := by
  have running : s.core.cmds.isEmpty = false := by simpa using hc
  refine does_bind (does_theCore s) (does_bind (does_now s) (does_bind (does_thePkg s) (does_bind (does_read s) ?_)))
  simp only [State.env, hm, hd, ht, running]
  exact does_bind (does_read s) (does_bind he (does_bind (does_modPkg u _) (does_bind hx hg)))

theorem does_thePosted (s : State) : s.does thePosted (ownPosted s.dev s.cur.pkg s.cur.core) s :=
  does_bind (does_get s) (does_bind (does_read s) (does_bind (does_read s) (does_pure s _)))

theorem imageSeal_seals {q : Option Pending} {x : Strand} {sts : List (Nat × Option (BitVec 16))}
    (hm : s.core.mode = .stopped q) (hx : s.does (findStrand s.core.strand.toNat) (some x) s) (hc : s.core.cmds = [])
    (hp : ownPosted s.dev s.cur.pkg s.cur.core = []) (hg : s.does gangBusy false s) (hr : s.does performReleased () u)
    (ht : u.does (s.core.tokens.mapM fun t => do return (t.1, ← tokenStatus t.2)) sts u1) (hz : ∀ z ∈ sts, z.2 ≠ none)
    (hn : u1.does (strandTorn x) false u1)
    (hs : u1.does (sealStrand x q (sts.filterMap fun z => z.2.map fun st => (z.1, st))) () t) : s.does imageSeal () t := by
  have completed : (sts.any fun z => z.2 == none) = false := by simpa [List.any_eq_false] using hz
  refine does_bind (does_theCore s) (does_bind hx ?_)
  simp only [hm]
  refine does_bind (does_thePosted s) (does_bind hg ?_)
  simp only [hc, hp]
  refine does_bind hr (does_bind ht ?_)
  simp only [completed]
  exact does_bind hn hs

end

/-- Settles O58: each event is its computations in order. -/
theorem coreChanges : Obligations.CoreChanges := by
  unfold Obligations.CoreChanges
  intro s u u1 t
  refine ⟨?stage, ?timeout, ?install, ?slice, ?watchdog, ?sealed⟩
  case stage => exact fun q rs keep nb hq hj hk hn hs => event_next (codeFetchStage_does hq hj hk hn hs)
  case timeout => exact fun q nb hq h3 hn hs => event_next (neighbourTimeout_does hq h3 hn hs)
  case install =>
    intro h land r x hm he hf hv
    exact ⟨fun hx => event_next (codeInstall_elsewhere hm he hf hv hx),
      fun k hx hk hr => event_next (codeInstall_found hm he hf hv hx hk hr),
      fun hx hk hr => event_next (codeInstall_missed hm he hf hv hx hk hr)⟩
  case slice =>
    intro part p x cs hp hf hx hs ht hg hc
    exact ⟨fun hl hd => event_next (sliceEnd_stops hp hf hx hs ht hg hc hl hd),
      fun hl => event_next (sliceEnd_restarts hp hf hx hs ht hg hc hl)⟩
  case watchdog => exact fun q t0 x hm hd ht hc he hx hg => event_next (drainWatchdog_does hm hd ht hc he hx hg)
  case sealed =>
    exact fun q x sts hm hx hc hp hg hr ht hz hn hs => event_next (imageSeal_seals hm hx hc hp hg hr ht hz hn hs)

end Sys2Proof.Machine
end

section
/-!
PROOF. What a computation leaves of its core: the laws of composition, and the accesses of memory, which leave the fields that a
handler's entry reads (R174) as they were.
-/

namespace Sys2Proof.Machine

/-- Where it answers, a computation leaves a part of its core as it was. -/
def Keeps {α γ : Type} (φ : Core → γ) (x : M α) : Prop := ∀ (s : State) (v : α) (t : State), s.does x v t → φ t.core = φ s.core

/-! ### Composition -/

section
variable {α β γ : Type} {φ : Core → γ}

theorem keeps_bind {x : M α} {f : α → M β} (hx : Keeps φ x) (hf : ∀ v, Keeps φ (f v)) : Keeps φ (x >>= f) := by
  intro s w u h
  obtain ⟨v, t, h1, h2⟩ := does_of_bind h
  exact (hf v t w u h2).trans (hx s v t h1)

theorem ReadOnly.keeps {x : M α} (hx : ReadOnly x) : Keeps φ x := by
  intro s v t h
  have same : t = s := by rw [h.2, hx _ _ _ _ h.1]; rfl
  rw [same]

theorem keeps_pure (v : α) : Keeps φ (pure v) := (readOnly_pure v).keeps

/-- A computation that never answers leaves everything. -/
theorem keeps_of_stops {x : M α} (h : ∀ s : State, ∃ e, s.stops x e) : Keeps φ x :=
  fun s _ _ hx => absurd hx (not_does_of_stops (h s).choose_spec)

theorem keeps_raise (c : Cause) (ea : Word) : Keeps φ (raise c ea : M α) := keeps_of_stops fun _ => ⟨_, rfl⟩

theorem keeps_block : Keeps φ (block : M α) := keeps_of_stops fun _ => ⟨_, rfl⟩

theorem keeps_throw (e : Stop) : Keeps φ (throw e : M α) := keeps_of_stops fun _ => ⟨_, rfl⟩

theorem keeps_theCore : Keeps φ theCore := readOnly_theCore.keeps

theorem keeps_thePkg : Keeps φ thePkg := readOnly_thePkg.keeps

theorem keeps_read : Keeps φ (read : M Env) := fun s _ _ h => by rw [← (does_unique (does_read s) h).2]

theorem keeps_get : Keeps φ (get : M Dev) := fun s _ _ h => by rw [← (does_unique (does_get s) h).2]

theorem keeps_ite {c : Prop} [Decidable c] {x y : M α} (hx : Keeps φ x) (hy : Keeps φ y) : Keeps φ (if c then x else y) := by
  split
  · exact hx
  · exact hy

/-- A step that is taken or not, before what goes on either way. -/
theorem keeps_when {c : Prop} [Decidable c] {x : M β} {y : M α} (hx : Keeps φ x) (hy : Keeps φ y) :
    Keeps φ (if c then x >>= fun _ => y else y) := keeps_ite (keeps_bind hx fun _ => hy) hy

theorem keeps_modCore {f : Core → Core} (h : ∀ c, φ (f c) = φ c) : Keeps φ (modCore f) :=
  fun s _ _ ht => (congrArg φ (core_of_modCore ht)).trans (h s.core)

theorem keeps_forM {x : α → M Unit} (l : List α) (h : ∀ a, Keeps φ (x a)) : Keeps φ (l.forM x) := by
  induction l with
  | nil => exact keeps_pure ()
  | cons a l ih => exact keeps_bind (h a) fun _ => ih

theorem keeps_foldlM {f : β → α → M β} (l : List α) (b : β) (h : ∀ b a, Keeps φ (f b a)) : Keeps φ (l.foldlM f b) := by
  induction l generalizing b with
  | nil => exact keeps_pure b
  | cons a l ih => exact keeps_bind (h b a) fun b => ih b

theorem keeps_attempt {x : M α} (hx : Keeps φ x) : Keeps φ (attempt x) := by
  intro s r t h
  cases run : (x s.env).run s.dev with
  | error e => rw [← (does_unique (does_attempt_stops run) h).2]
  | ok p =>
    have hp : s.does x p.1 (s.on p.2) := ⟨run, rfl⟩
    rw [← (does_unique (does_attempt hp) h).2, hx s p.1 _ hp]

theorem keeps_pkgAt (p : Nat) : Keeps φ (pkgAt p) := keeps_bind keeps_get fun _ => keeps_pure _

theorem keeps_coreAt (p c : Nat) : Keeps φ (coreAt p c) := keeps_bind keeps_get fun _ => keeps_pure _

/-- The cores stay where a change of a package, here or elsewhere, leaves them. -/
theorem keeps_modPkgAt {f : Package → Package} (p : Nat) (h : ∀ x, (f x).cores = x.cores) : Keeps φ (modPkgAt p f) := by
  intro s _ t ht
  have run : s.does (modPkgAt p f) () (s.on (s.dev.setPkg p (f (s.dev.pkg p)))) := ⟨rfl, rfl⟩
  have cores : ((s.dev.setPkg p (f (s.dev.pkg p))).pkg s.cur.pkg).cores = (s.dev.pkg s.cur.pkg).cores := by
    by_cases hp : s.cur.pkg = p
    · rw [hp, Dev.pkg_setPkg, h]
    · rw [Dev.pkg_setPkg_ne _ _ _ _ hp]
  rw [← (does_unique run ht).2]
  exact congrArg (fun l => φ (lookupD Core.reset l s.cur.core)) cores

/-- The memory side is apart from the cores. -/
theorem keeps_runHomeAt (p : Nat) (ea report : Word) (x : H α) : Keeps φ (runHomeAt p ea report x) := by
  refine keeps_bind (keeps_pkgAt p) fun k => ?_
  split
  · exact keeps_bind (keeps_modPkgAt p fun _ => rfl) fun _ => keeps_pure _
  all_goals exact keeps_throw _

theorem keeps_runHome (ea report : Word) (x : H α) : Keeps φ (runHome ea report x) :=
  keeps_bind keeps_read fun _ => keeps_runHomeAt _ ea report x

/-! ### Lines of memory -/

theorem keeps_waitForRoute (dest : Nat) : Keeps φ (waitForRoute dest) :=
  keeps_bind keeps_thePkg fun _ => keeps_bind keeps_read fun _ => keeps_ite keeps_block (keeps_pure _)

theorem keeps_thePart : Keeps φ thePart := keeps_bind keeps_thePkg fun _ => keeps_bind keeps_read fun _ => keeps_pure _

theorem keeps_locate (ea report : Word) (atomic m : Bool) (va : Nat) : Keeps φ (locate ea report atomic m va) := by
  refine keeps_bind keeps_thePart fun part => keeps_bind (keeps_runHome _ _ _) fun r => ?_
  cases r with
  | line r => exact keeps_bind keeps_read fun _ => keeps_pure _
  | remote t =>
    exact keeps_when (keeps_raise _ _) (keeps_when (keeps_raise _ _) (keeps_bind keeps_thePkg fun _ => keeps_when (keeps_raise _ _)
      (keeps_when (keeps_raise _ _) (keeps_bind (keeps_waitForRoute _) fun _ => keeps_bind keeps_read fun _ =>
        keeps_bind (keeps_runHomeAt _ _ _ _) fun _ => keeps_pure _))))

theorem keeps_cacheLine (p va : Nat) (r : LineRef) : Keeps φ (cacheLine p va r) :=
  keeps_bind keeps_read fun _ => keeps_ite (keeps_bind keeps_read fun _ => keeps_runHome _ _ _) (keeps_pure _)

theorem keeps_readLine (ea report : Word) (m : Bool) (va n : Nat) : Keeps φ (readLine ea report m va n) := by
  refine keeps_bind keeps_thePkg fun x => keeps_bind keeps_read fun e => ?_
  split
  · exact keeps_when (keeps_raise _ _) (keeps_pure _)
  · exact keeps_bind (keeps_locate _ _ _ _ _) fun _ => keeps_bind (keeps_cacheLine _ _ _) fun _ => keeps_runHomeAt _ _ _ _

theorem keeps_readBytes (ea report : Word) (m : Bool) (va n : Nat) : Keeps φ (readBytes ea report m va n) :=
  keeps_foldlM _ _ fun _ _ => keeps_bind (keeps_readLine _ _ _ _ _) fun _ => keeps_pure _

theorem keeps_drtSearch (ea : Word) (drtVa va fuel lo hi : Nat) : Keeps φ (drtSearch ea drtVa va fuel lo hi) := by
  induction fuel generalizing lo hi with
  | zero => exact keeps_pure _
  | succ fuel ih =>
    exact keeps_ite (keeps_pure _) (keeps_bind (keeps_readBytes _ _ _ _ _) fun _ =>
      keeps_ite (ih _ _) (keeps_ite (ih _ _) (keeps_pure _)))

theorem keeps_drtLookup (ea : Word) (dom va : Nat) : Keeps φ (drtLookup ea dom va) := by
  refine keeps_bind keeps_thePkg fun x => ?_
  split
  · exact keeps_pure _
  · refine keeps_bind (keeps_drtSearch _ _ _ _ _ _) fun w => ?_
    split <;> exact keeps_pure _

theorem keeps_plbLookup (dom va : Nat) : Keeps φ (plbLookup dom va) := keeps_bind keeps_theCore fun _ => keeps_pure _

theorem keeps_checkLocks (ea : Word) (n : Nat) : Keeps φ (checkLocks ea n) :=
  keeps_bind keeps_theCore fun _ => keeps_ite (keeps_raise _ _) (keeps_pure _)

theorem keeps_checkSpanEnd (va n : Nat) : Keeps φ (checkSpanEnd va n) := keeps_ite (keeps_raise _ _) (keeps_pure _)

theorem keeps_scratchReadAt (ea : Word) (p c off n : Nat) : Keeps φ (scratchReadAt ea p c off n) :=
  keeps_bind (keeps_coreAt p c) fun _ => keeps_when (keeps_raise _ _) (keeps_pure _)

theorem keeps_scratchRead (ea : Word) (off n : Nat) : Keeps φ (scratchRead ea off n) :=
  keeps_bind keeps_read fun _ => keeps_bind keeps_read fun _ => keeps_scratchReadAt _ _ _ _ _

theorem keeps_arcMember (ea : Word) (island icore : Nat) : Keeps φ (arcMember ea island icore) := by
  refine keeps_bind keeps_get fun d => keeps_bind keeps_read fun _ => keeps_bind keeps_read fun _ => ?_
  split
  · exact keeps_raise _ _
  · split
    · exact keeps_raise _ _
    · exact keeps_ite (keeps_raise _ _) (keeps_pure _)

theorem keeps_arcTarget (ea : Word) (island icore off : Nat) : Keeps φ (arcTarget ea island icore off) :=
  keeps_bind (keeps_arcMember _ _ _) fun _ => keeps_when (keeps_raise _ _) (keeps_bind (keeps_coreAt _ _) fun _ =>
    keeps_when (keeps_raise _ _) (keeps_bind keeps_read fun _ => keeps_when (keeps_waitForRoute _) (keeps_pure _)))

theorem keeps_awaitPosted (va n : Nat) : Keeps φ (awaitPosted va n) :=
  keeps_bind (fun s _ _ h => by rw [← (does_unique (does_thePosted s) h).2]) fun _ => keeps_ite keeps_block (keeps_pure _)

theorem keeps_readUnder (ea : Word) (m : Bool) (n : Nat) : Keeps φ (readUnder ea m n) := by
  exact keeps_bind keeps_theCore fun _ => keeps_ite
    (keeps_bind keeps_thePkg fun _ => keeps_bind keeps_read fun _ => keeps_when (keeps_locate _ _ _ _ _)
      (keeps_foldlM _ _ fun _ _ => keeps_ite (keeps_pure _) (keeps_bind (keeps_readLine _ _ _ _ _) fun _ => keeps_pure _)))
    (keeps_readLine _ _ _ _ _)

end

/-! ### Accesses of a handler's entry -/

/-- What a handler's entry reads of the core once it has begun to write memory. -/
def Core.handling (c : Core) : Word × Word × Nat × Option LineWait × List (Nat × LineWait) :=
  (c.fp, c.tvec, c.nest, c.lineWait, c.heldWaits)

section
variable {α : Type}

theorem keeps_plbInstall (e : PlbEntry) : Keeps Core.handling (plbInstall e) := keeps_modCore fun _ => rfl

theorem keeps_plbReplace (e : PlbEntry) (e' : Option PlbEntry) : Keeps Core.handling (plbReplace e e') := keeps_modCore fun _ => rfl

theorem keeps_judgeRights (ea : Word) (need : Need) (dom va : Nat) : Keeps Core.handling (judgeRights ea need dom va) := by
  refine keeps_bind (keeps_plbLookup dom va) fun o => ?_
  cases o with
  | some e =>
    exact keeps_ite (keeps_pure _) (keeps_bind (keeps_drtLookup _ _ _) fun _ => keeps_bind (keeps_plbReplace _ _) fun _ => keeps_pure _)
  | none =>
    refine keeps_bind (keeps_drtLookup _ _ _) fun e => ?_
    cases e with
    | some e => exact keeps_bind (keeps_plbInstall e) fun _ => keeps_pure _
    | none => exact keeps_pure _

theorem keeps_checkRightsAt (ea : Word) (need : Need) (dom va : Nat) : Keeps Core.handling (checkRightsAt ea need dom va) := by
  refine keeps_bind (keeps_judgeRights _ _ _ _) fun o => ?_
  cases o with
  | some m => exact keeps_pure _
  | none => exact keeps_raise _ _

theorem keeps_checkRights (ea : Word) (need : Need) (va n : Nat) : Keeps Core.handling (checkRights ea need va n) :=
  keeps_bind keeps_theCore fun _ => keeps_foldlM _ _ fun _ _ =>
    keeps_bind (keeps_checkRightsAt _ _ _ _) fun _ => keeps_pure _

theorem keeps_grantsM (ea : Word) (dom va : Nat) : Keeps Core.handling (grantsM ea dom va) := by
  refine keeps_bind (keeps_drtLookup _ _ _) fun _ => keeps_bind (keeps_plbLookup _ _) fun o => ?_
  cases o with
  | some e => exact keeps_bind (keeps_plbReplace _ _) fun _ => keeps_pure _
  | none => exact keeps_pure _

theorem keeps_withM {dom : Nat} {m : Bool} {va : Nat} {x : Bool → M α} (hx : ∀ m, Keeps Core.handling (x m)) :
    Keeps Core.handling (withM dom m va x) := by
  refine keeps_ite (hx true) (keeps_bind (keeps_attempt (hx false)) fun r => ?_)
  split
  · exact keeps_pure _
  · exact keeps_bind (keeps_grantsM _ _ _) fun _ => keeps_ite (hx true) (keeps_raise _ _)
  · exact keeps_throw _

theorem keeps_checkSpan (ea : Word) (n : Nat) : Keeps Core.handling (checkSpan ea n) := by
  dsimp only [checkSpan]
  split
  · exact keeps_bind (keeps_checkSpanEnd _ _) fun _ => keeps_bind (keeps_checkRights _ _ _ _) fun _ =>
      keeps_bind (keeps_checkLocks _ _) fun _ => keeps_bind keeps_theCore fun _ => keeps_foldlM _ _ fun _ _ =>
        keeps_withM fun _ => keeps_bind (keeps_locate _ _ _ _ _) fun _ => keeps_pure _
  · exact keeps_when (keeps_raise _ _) (keeps_bind (keeps_checkLocks _ _) fun _ => keeps_pure _)
  · exact keeps_raise _ _

theorem keeps_nextSerial : Keeps Core.handling nextSerial :=
  keeps_bind keeps_theCore fun _ => keeps_bind (keeps_modCore fun _ => rfl) fun _ => keeps_pure _

theorem keeps_writeSpan (m : Bool) (ea : Word) (n v : Nat) : Keeps Core.handling (writeSpan m ea n v) := by
  unfold writeSpan
  split
  · exact keeps_modCore fun _ => rfl
  · exact keeps_forM _ fun _ => keeps_bind keeps_nextSerial fun _ => keeps_modCore fun _ => rfl

theorem keeps_releaseStores : Keeps Core.handling releaseStores :=
  keeps_bind keeps_theCore fun _ => keeps_bind (keeps_forM _ fun _ => keeps_bind (keeps_locate _ _ _ _ _) fun _ => keeps_pure _)
    fun _ => keeps_modCore fun _ => rfl

theorem keeps_implicitCommit : Keeps Core.handling implicitCommit :=
  keeps_bind keeps_releaseStores fun _ => keeps_modCore fun _ => rfl

theorem keeps_readOwn (ea : Word) (m : Bool) (n : Nat) : Keeps Core.handling (readOwn ea m n) :=
  keeps_bind (keeps_awaitPosted _ _) fun _ => keeps_bind keeps_theCore fun _ =>
    keeps_bind (keeps_withM fun _ => keeps_readUnder _ _ _) fun _ => keeps_bind keeps_theCore fun _ => keeps_pure _

theorem keeps_checkAccess (need : Need) (ea : Word) (n : Nat) : Keeps Core.handling (checkAccess need ea n) := by
  unfold checkAccess
  refine keeps_when (keeps_raise _ _) ?_
  split
  · exact keeps_bind (keeps_checkRights _ _ _ _) fun _ => keeps_bind (keeps_checkLocks _ _) fun _ => keeps_pure _
  · exact keeps_bind (keeps_checkLocks _ _) fun _ => keeps_pure _
  · exact keeps_bind (keeps_arcMember _ _ _) fun _ => keeps_pure _
  · exact keeps_raise _ _

theorem keeps_loadChecked (m : Bool) (ea : Word) (n : Nat) : Keeps Core.handling (loadChecked m ea n) := by
  unfold loadChecked
  split
  · exact keeps_scratchRead _ _ _
  · exact keeps_bind (keeps_arcTarget _ _ _ _) fun _ => keeps_bind keeps_implicitCommit fun _ => keeps_scratchReadAt _ _ _ _ _
  · exact keeps_readOwn _ _ _

theorem keeps_loadDwords (va n : Nat) : Keeps Core.handling (loadDwords va n) :=
  keeps_foldlM _ _ fun _ _ => keeps_bind (keeps_bind (keeps_checkAccess _ _ _) fun _ => keeps_loadChecked _ _ _) fun _ => keeps_pure _

theorem keeps_dirEntry (h : Nat) : Keeps Core.handling (dirEntry h) :=
  keeps_bind keeps_theCore fun _ => keeps_bind (keeps_loadDwords _ _) fun _ => keeps_bind (keeps_loadDwords _ _) fun _ =>
    keeps_ite (keeps_pure _) (keeps_bind (keeps_loadDwords _ _) fun _ => keeps_pure _)

end

end Sys2Proof.Machine
end

section
/-!
PROOF. Taking a program fault (R174, R308): what each part of a handler's entry leads to, and what a commit point keeps and a rollback
restores (R170, R171).
-/

namespace Sys2Proof.Machine

theorem State.put_congr {s : State} {f g : Core → Core} (h : f s.core = g s.core) : s.put f = s.put g :=
  State.putPkg_congr (congrArg (s.pkg.setCore s.cur.core) h)

/-! ### The parts of a handler's entry -/

section
variable {s s1 s2 s3 t : State}

theorem exception_does {cause : Cause} {ea : Word} {orig : Nat} {jt : Bool}
    (hp : if cause = .prot then s.does (plbAfterProt s.core.dom.toNat ea) () s1 else s1 = s) (hr : s1.does releaseStores () s2)
    (he : s2.does (enterHandler cause ea orig jt) () t) : s.does (exception cause ea orig jt) () t := by
  unfold exception
  split at hp
  · next prot =>
    rw [if_pos (by simpa using prot)]
    exact does_bind (does_theCore s) (does_bind hp (does_bind (does_attempt hr) he))
  · next other =>
    rw [if_neg (by simpa using other), ← hp]
    exact does_bind (does_attempt hr) he

/-- A part of a handler's entry that performs goes on to the next. -/
theorem orRetire_does {c0 : Core} {cause : Cause} {x next : M Unit} (hx : s.does x () s1) (hn : s1.does next () t) :
    s.does (orRetire c0 cause x next) () t := does_bind (does_attempt hx) hn

theorem enterHandler_does {cause : Cause} {ea : Word} {orig : Nat} (hf : s.does fillQueues () s1) (hw : s1.does withdrawWait () s2)
    (hc : (s2.put fun c => c.trapped (s.cur.stream == .X) false cause ea orig).does writeTrapFrame () s3)
    (ht : s3.does enterTvec () t) : s.does (enterHandler cause ea orig false) () t :=
  does_bind (does_theStream s) (does_bind (does_now s) (does_bind (does_theCore s) (does_bind hf (does_bind hw
    (does_bind (does_theCore s2) (does_bind (does_modCore s2 _) (orRetire_does hc (orRetire_does ht (does_pure t ())))))))))

theorem writeTrapFrame_does {m : Bool} {tf : Word} (htf : s.core.fp - BitVec.ofNat 64 frameBytes = tf)
    (hm : s.does (checkSpan tf frameBytes) m s1) (hw : s1.does (writeSpan m tf frameBytes (layOut s.core.frameParts)) () t) :
    s.does writeTrapFrame () t := by
  subst htf
  exact does_bind (does_theCore s) (does_bind hm hw)

/-- The core in its handler, whose frame stands at `hf`: its queues are in the trap frame, and a wait that goes on is held. -/
def Core.inHandler (c : Core) (hf : Word) : Core :=
  { c.emptied with fp := hf, nest := c.nest + 1, lineWait := none,
                   heldWaits := (c.lineWait.map fun w => (c.nest, w)).toList ++ c.heldWaits }

theorem enterTvec_does {ent : DirEnt} {m : Bool} {k : Code} {o : Nat × Nat} {tf hf : Word} {h : Nat}
    (htf : s.core.fp - BitVec.ofNat 64 frameBytes = tf) (hh : natBits s.core.tvec.toNat 19 0 = h)
    (hhf : tf - BitVec.ofNat 64 ent.frame = hf)
    (hd : s.does (dirEntry h) (some ent) s1) (hm : s1.does (checkSpan hf 16) m s2)
    (hw : s2.does (writeSpan m hf 16 (0x0000000100000000 + tf.toNat * 2 ^ 64)) () s3)
    (hk : resident (s3.put (·.inHandler hf)).core (s3.put (·.inHandler hf)).pkg.ctl ent.digest = some k) (ho : k.landing 0 = some o)
    (he : (s3.put (·.inHandler hf)).does (enterLanding k h 0 o) () t) : s.does enterTvec () t := by
  subst htf hh hhf
  refine does_bind (does_theCore s) (does_bind hd (does_bind hm (does_bind hw
    (does_bind (t := s3.put (·.inHandler _)) (does_modCore s3 _) (does_bind (does_theCore _) (does_bind (does_thePkg _) ?_))))))
  simp only [hk, ho]
  exact he

end

/-- Settles O15: the entry is its parts in order, and none of its accesses of memory changes what a later part reads of the core. -/
theorem handlerEntry : Obligations.HandlerEntry := by
  unfold Obligations.HandlerEntry
  intro s s0 s1 s2 s3 s5 s6 s7 s8 s9 t cause ea orig m m2 ent k o hp hr hf hw c s4 tf h hf' hm5 hw6 hd7 hm8 hw9 s10 hk ho he
  have here : s1.cur = s.cur := (cur_eq_of_does hr).trans (by
    split at hp
    · exact cur_eq_of_does hp
    · rw [hp])
  have trapped : s3.put (fun c => c.trapped (s1.cur.stream == .X) false cause ea orig) = s4 := by
    simp only [here, Core.trapped, beq_iff_eq, Bool.false_eq_true, if_false, Nat.add_zero, s4]
  have core4 : s4.core.handling = c.handling := (congrArg Core.handling (State.put_core s3 _)).trans rfl
  have core6 : s6.core.handling = c.handling :=
    (keeps_writeSpan _ _ _ _ _ _ _ hw6).trans ((keeps_checkSpan _ _ _ _ _ hm5).trans core4)
  have core9 : s9.core.handling = c.handling :=
    (keeps_writeSpan _ _ _ _ _ _ _ hw9).trans ((keeps_checkSpan _ _ _ _ _ hm8).trans ((keeps_dirEntry _ _ _ _ hd7).trans core6))
  simp only [Core.handling, Prod.mk.injEq] at core4 core6 core9
  obtain ⟨fp4, -, nest4, wait4, held4⟩ := core4
  obtain ⟨fp6, tvec6, -⟩ := core6
  obtain ⟨-, -, nest9, wait9, held9⟩ := core9
  have handler : s9.put (·.inHandler hf') = s10 := State.put_congr (by
    simp only [Core.inHandler, nest9, wait9, held9, nest4, wait4, held4])
  rw [← handler] at hk he
  have framed : s4.does writeTrapFrame () s6 := writeTrapFrame_does (tf := tf) (congrArg (· - _) fp4) hm5 hw6
  have entered : s6.does enterTvec () t :=
    enterTvec_does (congrArg (· - _) fp6) (by rw [tvec6]) rfl hd7 hm8 hw9 hk ho he
  exact exception_does hp hr (enterHandler_does hf hw (trapped ▸ framed) entered)

/-! ### Regions (R170, R171) -/

theorem core_of_releaseStores {s t : State} (h : s.does releaseStores () t) :
    t.core.sbuf = [] ∧ (s.core.sbuf = [] → t.core.inflight = s.core.inflight) := by
  obtain ⟨c, u, hc, h⟩ := does_of_bind h
  obtain ⟨rfl, rfl⟩ := does_unique (does_theCore s) hc
  obtain ⟨_, v, hl, hm⟩ := does_of_bind h
  rw [core_of_modCore hm]
  refine ⟨rfl, fun empty => ?_⟩
  rw [empty] at hl
  obtain ⟨-, rfl⟩ := does_unique (does_pure s ()) hl
  simp [empty]

theorem Core.begun_ckpt {c : Core} {k : Checkpoint} (c0 : Core) (s : Strm) (h : c.ckpt = some k) :
    (c.begun c0 s).ckpt = some (k.half c s) := by
  simp only [Core.begun, h, Option.map_some]

/-- Settles O39: a commit point and a rollback are each one update of the core after the stores are released or discarded, and a
region that begins after its unit has the unit's stream in its checkpoint. -/
theorem regionsRestart : Obligations.RegionsRestart := by
  unfold Obligations.RegionsRestart
  refine ⟨?commit, ?rollback, ?begun⟩
  case commit =>
    intro s s1 hr t
    obtain ⟨discarded, kept⟩ := core_of_releaseStores hr
    have core : t.core = s1.core.checkpoint none := State.put_core s1 _
    rw [core]
    exact ⟨does_bind hr (does_modCore s1 _), rfl, rfl, rfl, rfl, rfl, rfl, discarded, kept⟩
  case rollback =>
    intro c k hk t
    have restarts : (BitVec.ofNat 8 (Nat.min (c.rcount.toNat + 1) 255)).toNat = Nat.min (c.rcount.toNat + 1) 255 := by
      rw [BitVec.toNat_ofNat]
      exact Nat.mod_eq_of_lt (Nat.lt_of_le_of_lt (Nat.min_le_right _ _) (by decide))
    simp only [t, Core.rolledBack, hk, restarts, and_self]
  case begun =>
    intro c c0 k st hk t
    simp only [t, Core.rolledBack, Core.begun_ckpt c0 st hk]
    cases st <;> exact ⟨rfl, rfl, rfl, rfl, rfl, rfl, rfl⟩

end Sys2Proof.Machine
end

section
/-!
PROOF. The conversions of the vector engine (R193, R223 to R226): what reading and writing a vector register, a residue register and
the flags lead to, what an accepted table gives, and the update of the core that every conversion with a rounding ends in.
-/

namespace Sys2Proof.Machine

/-! ### Vector registers, residue registers and flags -/

/-- The core with a residue register written. -/
def Core.putE (c : Core) (n : Nat) (x : VReg) : Core := { c with e := c.e.setIfInBounds n x }

section
variable (s : State)

theorem readV_does (n : BitVec 6) : s.does (readV n) (s.vreg n) s := does_bind (does_theCore s) (does_pure s _)

theorem readE_does (n : Nat) : s.does (readE n) (s.core.e.toList.getD n 0) s := does_bind (does_theCore s) (does_pure s _)

theorem writeV_does (n : BitVec 6) (x : VReg) : s.does (writeV n x) () (s.put (·.putV n x)) := does_modCore s _

theorem writeE_does (n : Nat) (x : VReg) : s.does (writeE n x) () (s.put (·.putE n x)) := does_modCore s _

theorem raiseFlags_does (f : Flags) : s.does (raiseFlags f) () (s.put (·.flag f)) := does_modCore s _

end

/-- A result that raises no flag is written as one that raises the empty set of them. -/
theorem putPlain_does (s : State) (d : BitVec 6) (x : VReg) : s.does (putPlain d x) .seq (s.putV d (x, 0)) := by
  have flagless : s.put (·.putV d x) = s.putV d (x, 0) := State.put_congr (by simp [Core.flag])
  rw [← flagless]
  exact does_bind (writeV_does s d x) (does_pure _ _)

/-! ### The table (R193) -/

theorem needTable_does {s : State} (valid : s.core.tabstat.getLsbD 0 = true) : s.does needTable s.core.table s := by
  have passes : ¬ (!s.core.tabstat.getLsbD 0) = true := by simp [valid]
  refine does_bind (does_theCore s) ?_
  rw [if_neg passes]
  exact does_pure s _

/-! ### What a conversion writes (R197) -/

/-- The core with a conversion's results: the destination, the residue register of an error-feedback mode, the flags. -/
def Core.putCvt (c : Core) (d : BitVec 6) (rnd : CvtRnd) (r : VReg × VReg × Flags) : Core :=
  (match rnd with
    | .ef k => (c.putV d r.1).putE k r.2.1
    | .mode _ => c.putV d r.1 : Core).flag r.2.2

/-- The residue register that a conversion reads. -/
def State.residue (s : State) (rnd : CvtRnd) : VReg := s.core.e.toList.getD rnd.residue 0

theorem putCvt_does (s : State) (d : BitVec 6) (rnd : CvtRnd) (r : VReg × VReg × Flags) :
    s.does (putCvt d rnd r) .seq (s.put (·.putCvt d rnd r)) := by
  have written := writeV_does s d r.1
  cases rnd with
  | mode m =>
    have run : s.does (putCvt d (.mode m) r) .seq ((s.put (·.putV d r.1)).put (·.flag r.2.2)) :=
      does_bind written (does_bind (raiseFlags_does _ _) (does_pure _ _))
    rw [State.put_put] at run
    exact run
  | ef k =>
    have run : s.does (putCvt d (.ef k) r) .seq (((s.put (·.putV d r.1)).put (·.putE k r.2.1)).put (·.flag r.2.2)) :=
      does_bind written (does_bind (writeE_does _ _ _) (does_bind (raiseFlags_does _ _) (does_pure _ _)))
    rw [State.put_put, State.put_put] at run
    exact run

section
variable {s : State} {d a : BitVec 6} {r : BitVec 4} {q : BitVec 3} {rnd : CvtRnd} {sc : Scope}

/-- VCVT asks for the table only where one of its types is c8 (R193). -/
theorem actVcvt_does {t f : BitVec 4} (valid : t = 9#4 ∨ f = 9#4 → s.core.tabstat.getLsbD 0 = true)
    (hr : s.does (resolveRnd (cvtEfPair t f) r) rnd s) :
    s.does (actVcvt d a t f r) .seq (s.put (·.putCvt d rnd (vCvt s.cur.core
      (if t = 9#4 ∨ f = 9#4 then s.core.table else Table.empty) t f rnd (s.vreg a) (s.residue rnd)))) := by
  have convert (tb : Table) : s.does (do
      let rnd ← resolveRnd (cvtEfPair t f) r
      let x ← readV a
      let e ← readE rnd.residue
      putCvt d rnd (vCvt (← read).core tb t f rnd x e)) .seq
      (s.put (·.putCvt d rnd (vCvt s.cur.core tb t f rnd (s.vreg a) (s.residue rnd)))) :=
    does_bind hr (does_bind (readV_does s a) (does_bind (readE_does s _) (does_bind (does_read s) (putCvt_does s d rnd _))))
  unfold actVcvt
  by_cases codes : t = 9#4 ∨ f = 9#4
  · rw [if_pos codes, if_pos (by simpa using codes)]
    exact does_bind (needTable_does (valid codes)) (convert _)
  · rw [if_neg codes, if_neg (by simpa using codes)]
    exact convert _

variable (valid : s.core.tabstat.getLsbD 0 = true)
include valid

theorem encode_does (hr : s.does (resolveRnd true r) rnd s) : s.does (encode d a sc r q) .seq
    (s.put (·.putCvt d rnd (vEnc s.cur.core s.core.table sc rnd q.toNat (s.vreg a) (s.vreg d) (s.residue rnd)))) :=
  does_bind (needTable_does valid) (does_bind hr (does_bind (readV_does s a) (does_bind (readV_does s d)
    (does_bind (readE_does s _) (does_bind (does_read s) (putCvt_does s d rnd _))))))

theorem decodePart_does : s.does (decodePart d a sc q) .seq (s.putV d (vDec s.core.table sc q.toNat (s.vreg a), 0)) :=
  does_bind (needTable_does valid) (does_bind (readV_does s a) (putPlain_does s d _))

end

/-- Settles O22: each is a lone unit whose effect takes the table, the mode and the registers, and ends in one update of the core. -/
theorem vectorConversions : Obligations.VectorConversions := by
  unfold Obligations.VectorConversions
  intro d a s
  refine ⟨?vcvt, ?venc, ?vdec⟩
  case vcvt =>
    intro t f r rnd ready valid hr
    exact lone_next ready (actVcvt_does valid hr) (.inl rfl)
  case venc =>
    intro valid b r q rnd hr
    exact ⟨fun ready => lone_next ready (encode_does valid hr) (.inl rfl),
      fun ready => lone_next ready (encode_does valid hr) (.inl rfl)⟩
  case vdec =>
    intro valid b q
    exact ⟨fun ready => lone_next ready (decodePart_does valid) (.inl rfl),
      fun ready => lone_next ready (decodePart_does valid) (.inl rfl)⟩

end Sys2Proof.Machine
end

section
/-!
PROOF. The vector engine's operations and moves (R202 to R222, R227, R228): what each shared form of its instructions leads to, which
instructions of Safety.lean's lists have which form, and what VMASK reads of a queue.
-/

namespace Sys2Proof.Machine

/-! ### The shared forms (R204) -/

section
variable (s : State) (d a b : BitVec 6)

theorem vEnv_does : s.does vEnv s.venv s := does_bind (does_theCore s) (does_bind (does_read s) (does_pure s _))

theorem putV_does (r : VReg × Flags) : s.does (putV d r) .seq (s.putV d r) := by
  have run : s.does (putV d r) .seq ((s.put (·.putV d r.1)).put (·.flag r.2)) :=
    does_bind (writeV_does s d r.1) (does_bind (raiseFlags_does _ _) (does_pure _ _))
  rw [State.put_put] at run
  exact run

theorem vOn1_does (f : VReg → VReg × Flags) : s.does (vOn1 d a f) .seq (s.putV d (f (s.vreg a))) :=
  does_bind (readV_does s a) (putV_does s d _)

theorem vOn2_does (f : VEnv → VReg → VReg → VReg × Flags) :
    s.does (vOn2 d a b f) .seq (s.putV d (f s.venv (s.vreg a) (s.vreg b))) :=
  does_bind (vEnv_does s) (does_bind (readV_does s a) (does_bind (readV_does s b) (putV_does s d _)))

theorem vOn3_does (f : VEnv → VReg → VReg → VReg → VReg × Flags) :
    s.does (vOn3 d a b f) .seq (s.putV d (f s.venv (s.vreg a) (s.vreg b) (s.vreg d))) :=
  does_bind (vEnv_does s) (does_bind (readV_does s a) (does_bind (readV_does s b)
    (does_bind (readV_does s d) (putV_does s d _))))

end

/-! ### Which instructions have which form -/

section
variable (d a b : BitVec 6) (t : BitVec 3) (s : State)

theorem exec_vectorTwoOps : ∀ op ∈ vectorTwoOps,
    exec (op.1 d a b t) s = lone (op.1 d a b t) (vOn2 d a b fun e => op.2 e t) s := by
  unfold vectorTwoOps
  repeat refine List.forall_mem_cons.mpr ⟨rfl, ?_⟩
  exact List.forall_mem_nil _

theorem exec_vectorThreeOps : ∀ op ∈ vectorThreeOps,
    exec (op.1 d a b t) s = lone (op.1 d a b t) (vOn3 d a b fun e => op.2 e t) s := by
  unfold vectorThreeOps
  repeat refine List.forall_mem_cons.mpr ⟨rfl, ?_⟩
  exact List.forall_mem_nil _

theorem exec_vectorCountOps (c : BitVec 6) : ∀ op ∈ vectorCountOps,
    exec (op.1 d a c t) s = lone (op.1 d a c t) (vOn1 d a fun x => noFlags (op.2 t c.toNat x)) s := by
  unfold vectorCountOps
  repeat refine List.forall_mem_cons.mpr ⟨rfl, ?_⟩
  exact List.forall_mem_nil _

end

/-! ### Forms of their own -/

section
variable (s : State) (d a b : BitVec 6)

theorem actVred_does (t o : BitVec 3) : s.does (actVred d a t o) .seq (s.putV d (vRed s.venv t o (s.vreg a))) :=
  does_bind (vEnv_does s) (does_bind (readV_does s a) (putV_does s d _))

/-- What VMATH picks within its bound depends on the core (R222, log 9). -/
theorem actVmath_does (o : BitVec 3) : s.does (actVmath d a o) .seq (s.putV d (vMath s.venv.core o (s.vreg a))) :=
  does_bind (vEnv_does s) (does_bind (readV_does s a) (putV_does s d _))

/-- The second product is of the registers as they stood before the first write (R211). -/
theorem actVfma2_does (t : BitVec 3) : s.does (actVfma2 d a b t) .seq
    ((s.putV d (vFma s.venv t false false (s.vreg a) (s.vreg b) (s.vreg d))).putV (d + 1)
      (vFma s.venv t false false (s.vreg (a + 1)) (s.vreg (b + 1)) (s.vreg (d + 1)))) :=
  does_bind (vEnv_does s) (does_bind (readV_does s a) (does_bind (readV_does s b) (does_bind (readV_does s d)
    (does_bind (readV_does s (a + 1)) (does_bind (readV_does s (b + 1)) (does_bind (readV_does s (d + 1))
      (does_bind (putV_does s d _) (putV_does _ (d + 1) _))))))))

end

/-! ### Moves (R216, R217, R220, R227, R228) -/

section
variable {s s1 s2 : State} {d a k : BitVec 6} {t : BitVec 3} {x : Word} {q : QEntry}

theorem actVsplat_does (ha : s.does (src (a.setWidth 5)) x s1) :
    s.does (actVsplat d a t) .seq (s1.putV d (vSplat t x.toNat, 0)) :=
  does_bind ha (putPlain_does s1 d _)

theorem actVext_does (hd : s.does (dst (d.setWidth 5) (BitVec.ofNat 64 (laneAt (laneWidth t) k.toNat (s.vreg a)))) () s2) :
    s.does (actVext d a k t) .seq s2 :=
  does_bind (readV_does s a) (does_bind hd (does_pure s2 _))

/-- VINS reads VD after its scalar source, which may pop a queue (R84, R217). -/
theorem actVins_does (ha : s.does (src (a.setWidth 5)) x s1) :
    s.does (actVins d a k t) .seq (s1.putV d (setLaneAt (laneWidth t) k.toNat x.toNat (s1.vreg d), 0)) :=
  does_bind ha (does_bind (readV_does s1 d) (putPlain_does s1 d _))

theorem actEclr_does : s.does (actEclr d) .seq (s.put (·.putE d.toNat 0)) :=
  does_bind (writeE_does s _ _) (does_pure _ _)

theorem actVpop_does (hq : s.does (popQ (lqPort a.toNat)) q s1) : s.does (actVpop d a) .seq (s1.putV d (q.vector, 0)) :=
  does_bind hq (putPlain_does s1 d _)

theorem actVpush_does (hq : s.does (pushQ (sqPort d.toNat)
    { data := s.vreg a, mask := 0xFFFFFFFF#32, kind := true, filled := true, tol := false, serial := 0 }) () s1) :
    s.does (actVpush d a) .seq s1 :=
  does_bind (readV_does s a) (does_bind hq (does_pure s1 _))

theorem peekQ_filled {p : Port} {rest : List QEntry} (h : (s.core.queue p).ents = q :: rest) (hf : q.filled = true) :
    s.does (peekQ p) q s := by
  refine does_bind (does_theCore s) ?_
  rw [h]
  dsimp only
  rw [if_pos hf]
  exact does_pure s q

theorem actVmaskV_does (hq : s.does (peekQ (lqPort a.toNat)) q s) :
    s.does (actVmaskV d a) .seq (s.putV d (maskWords q.lanes, 0)) :=
  does_bind hq (putPlain_does s d _)

theorem actVmaskC_does (hq : s.does (peekQ (lqPort a.toNat)) q s)
    (hd : s.does (dst (d.setWidth 5) (BitVec.ofNat 64 (maskCount q.lanes))) () s1) : s.does (actVmaskC d a) .seq s1 :=
  does_bind hq (does_bind hd (does_pure s1 _))

end

/-- Settles O20: an instruction of a list has its list's form, and the form leads to one update of VD and the flags. -/
theorem vectorOperations : Obligations.VectorOperations := by
  unfold Obligations.VectorOperations
  refine ⟨?two, fun d a b t s => ⟨?three, ?vfma2⟩, fun d a b t c s => ⟨?vcmp, ?vred⟩⟩
  case two =>
    intro op mem d a b t s ready u straight
    rw [exec_vectorTwoOps d a b t s op mem]
    exact lone_next ready (vOn2_does s d a b _) (.inl rfl) straight
  case three =>
    intro op mem ready u straight
    rw [exec_vectorThreeOps d a b t s op mem]
    exact lone_next ready (vOn3_does s d a b _) (.inl rfl) straight
  case vfma2 => exact fun ready => lone_next ready (actVfma2_does s d a b t) (.inl rfl)
  case vcmp => exact fun ready => lone_next ready (vOn2_does s d a b _) (.inl rfl)
  case vred => exact fun ready => lone_next ready (actVred_does s d a t c) (.inl rfl)

/-- Settles O21: of the instructions of VA alone only VMATH depends on the core; the counts are of one form. -/
theorem vectorOneSource : Obligations.VectorOneSource := by
  unfold Obligations.VectorOneSource
  intro d a t s
  refine ⟨?one, ?count⟩
  case one =>
    simp only [vectorOneOps, List.forall_mem_cons]
    refine ⟨?vnot, ?vabs, ?vneg, ?vabsSat, ?vmov, ?vmath, List.forall_mem_nil _⟩
    case vmath => exact fun ready => lone_next ready (actVmath_does s d a t) (.inl rfl)
    all_goals exact fun ready => lone_next ready (vOn1_does s d a _) (.inl rfl)
  case count =>
    intro op mem c ready u straight
    rw [exec_vectorCountOps d a t s c op mem]
    exact lone_next ready (vOn1_does s d a _) (.inl rfl) straight

/-- Settles O23: each is a lone unit whose effect reads its source, a scalar, a register or a queue, and writes its destination. -/
theorem vectorMoves : Obligations.VectorMoves := by
  unfold Obligations.VectorMoves
  refine ⟨fun d a k t s s1 s2 x => ⟨?vsplat, ?vsplatImm, ?vext, ?vins, ?vzero, ?viota, ?eclr⟩,
    fun d a s s1 q => ⟨?vpop, ?vpush, fun rest head filled => ?vmask⟩⟩
  case vsplat => exact fun ready ha => lone_next ready (actVsplat_does ha) (.inl rfl)
  case vsplatImm => exact fun i ready => lone_next ready (putPlain_does s d _) (.inl rfl)
  case vext => exact fun ready hd => lone_next ready (actVext_does hd) (.inl rfl)
  case vins => exact fun ready ha => lone_next ready (actVins_does ha) (.inl rfl)
  case vzero => exact fun ready => lone_next ready (putPlain_does s d 0) (.inl rfl)
  case viota => exact fun ready => lone_next ready (putPlain_does s d _) (.inl rfl)
  case eclr => exact fun ready => lone_next ready actEclr_does (.inl rfl)
  case vpop => exact fun ready hq => lone_next ready (actVpop_does hq) (.inl rfl)
  case vpush => exact fun ready hq => lone_next ready (actVpush_does hq) (.inl rfl)
  case vmask =>
    have peek := peekQ_filled head filled
    exact ⟨fun ready => lone_next ready (actVmaskV_does peek) (.inl rfl),
      fun ready hd => lone_next ready (actVmaskC_does peek hd) (.inl rfl)⟩

end Sys2Proof.Machine
end

section
/-!
PROOF. The matrix engine (R230 to R247): what reading and writing its registers leads to, the checks its instructions pass, a K-step as
one update of the core, and the accumulators that MZERO clears.
-/

namespace Sys2Proof.Machine

/-! ### Tile descriptors, accumulators and their positions (R230, R232) -/

/-- The core with an accumulator written. -/
def Core.putM (c : Core) (n : BitVec 2) (x : Accum) : Core := { c with m := c.m.setIfInBounds n.toNat x }

/-- The core with an accumulator's K position written. -/
def Core.putKpos (c : Core) (n : BitVec 2) (k : BitVec 8) : Core := { c with kpos := c.kpos.setIfInBounds n.toNat k }

section
variable (s : State)

theorem readT_does (n : BitVec 4) : s.does (readT n) (s.tile n) s := does_bind (does_theCore s) (does_pure s _)

theorem readM_does (n : BitVec 2) : s.does (readM n) (s.acc n) s := does_bind (does_theCore s) (does_pure s _)

theorem readKpos_does (n : BitVec 2) : s.does (readKpos n) (s.kAt n) s := does_bind (does_theCore s) (does_pure s _)

theorem writeM_does (n : BitVec 2) (x : Accum) : s.does (writeM n x) () (s.put (·.putM n x)) := does_modCore s _

theorem writeKpos_does (n : BitVec 2) (k : BitVec 8) : s.does (writeKpos n k) () (s.put (·.putKpos n k)) := does_modCore s _

theorem tileValues_does (n : BitVec 4) (rows cols : Nat) :
    s.does (tileValues ⟨s.tile n, rows, cols⟩) (s.values n rows cols) s := does_bind (does_theCore s) (does_pure s _)

/-- An accumulator written, and the flags of its new elements raised (R235). -/
theorem writeM_flags_does (n : BitVec 2) (r : Accum × Flags) :
    s.does (do writeM n r.1; raiseFlags r.2; return .seq) Flow.seq (s.put fun c => (c.putM n r.1).flag r.2) := by
  have run : s.does (do writeM n r.1; raiseFlags r.2; return .seq) Flow.seq ((s.put (·.putM n r.1)).put (·.flag r.2)) :=
    does_bind (writeM_does s n r.1) (does_bind (raiseFlags_does _ r.2) (does_pure _ _))
  rwa [State.put_put] at run

end

/-- A check that does not fail: the computation goes on with what stands after it. -/
theorem does_if_neg {α : Type} {s t : State} {p : Prop} [Decidable p] {x y : M α} {w : α} (h : ¬ p) (hy : s.does y w t) :
    s.does (if p then x else y) w t := by
  rwa [if_neg h]

/-! ### Descriptors, the table and rows (R236, R237, R243 to R245) -/

section
variable {s s1 : State} {x : Word} {a : BitVec 5}

theorem actTdset_does (t : BitVec 4) (ha : s.does (src a) x s1) (accepted : tileWordOk x = true) :
    s.does (actTdset t a) .seq (s1.put fun c => { c with t := c.t.setIfInBounds t.toNat x }) :=
  does_bind ha (does_if_neg (by simp [accepted]) (does_bind (does_modCore s1 _) (does_pure _ _)))

/-- The table that LDTAB finds at an offset of a scratchpad (R237, Table 9.3). -/
def tableAt (mem : Memory) (off : Nat) : Table := Vector.ofFn fun i => BitVec.ofNat 32 (mem.read off 1024 / 2 ^ (32 * i.val))

theorem actLdtab_does (ha : s.does (src a) x s1) (aligned : x.extractLsb' 0 6 = 0#6) (inside : x.toNat ≤ 0x3FC00)
    (unlocked : s1.does (checkSpanLocks (BitVec.ofNat 64 scratchBase + x) 1024) () s1)
    (accepted : (tableAt s1.core.scratch x.toNat).valid = true) :
    s.does (actLdtab a) .seq (s1.put fun c =>
      { c with table := tableAt s1.core.scratch x.toNat, tabstat := (tableAt s1.core.scratch x.toNat).stat }) :=
  does_bind ha (does_if_neg (by simp [aligned]) (does_if_neg (by omega)
    (does_bind (does_theCore s1) (does_bind unlocked (does_if_neg (by simpa [tableAt] using accepted)
      (does_bind (does_modCore s1 _) (does_pure _ _)))))))

end

section
variable (s : State) (m k : BitVec 2) (v : BitVec 6) (r : BitVec 4)

theorem mscaOf_does (byCol : Bool) : s.does (mscaOf byCol m v) .seq (s.put fun c =>
    (c.putM m (mscaAccum s.cur.core (s.kAt m).toNat byCol (s.acc m) (s.vreg v)).1).flag
      (mscaAccum s.cur.core (s.kAt m).toNat byCol (s.acc m) (s.vreg v)).2) :=
  does_bind (does_read s) (does_bind (readKpos_does s m) (does_bind (readM_does s m) (does_bind (readV_does s v)
    (writeM_flags_does s m _))))

/-- MSCA.ROW and MSCA.COL are one operation (R243). -/
theorem exec_msca (byCol : Bool) : exec (if byCol then .mscaCol m v else .mscaRow m v) s =
    lone (if byCol then .mscaCol m v else .mscaRow m v) (mscaOf byCol m v) s := by
  cases byCol <;> rfl

theorem actMcmb_does : s.does (actMcmb m k) .seq (s.put fun c =>
    (c.putM m (mcmbAccum s.cur.core (s.kAt m).toNat (s.acc m) (s.acc k)).1).flag
      (mcmbAccum s.cur.core (s.kAt m).toNat (s.acc m) (s.acc k)).2) :=
  does_bind (does_read s) (does_bind (readKpos_does s m) (does_bind (readM_does s m) (does_bind (readM_does s k)
    (writeM_flags_does s m _))))

theorem actMrd_does : s.does (actMrd v m r) .seq (s.put (·.putV v ((s.acc m).toList.getD r.toNat 0))) :=
  does_bind (readM_does s m) (does_bind (writeV_does s v _) (does_pure _ _))

theorem actMwr_does : s.does (actMwr v m r) .seq (s.put (·.putM m ((s.acc m).setIfInBounds r.toNat (s.vreg v)))) :=
  does_bind (readM_does s m) (does_bind (readV_does s v) (does_bind (writeM_does s m _) (does_pure _ _)))

end

/-! ### MZERO (R242) -/

/-- A vector after its elements below `j` that `b` picks have been set to `z`, one after another. -/
def clearBelow {α : Type} {n : Nat} (b : Nat → Bool) (z : α) (xs : Vector α n) (j : Nat) : Vector α n :=
  (List.range j).foldl (fun xs i => if b i then xs.setIfInBounds i z else xs) xs

theorem clearBelow_succ {α : Type} {n : Nat} (b : Nat → Bool) (z : α) (xs : Vector α n) (j : Nat) :
    clearBelow b z xs (j + 1) =
      if b j then (clearBelow b z xs j).setIfInBounds j z else clearBelow b z xs j := by
  simp [clearBelow, List.range_succ]

theorem getElem_clearBelow {α : Type} {n : Nat} (b : Nat → Bool) (z : α) (xs : Vector α n) (j i : Nat) (hi : i < n) :
    (clearBelow b z xs j)[i] = if i < j ∧ b i then z else xs[i] := by
  induction j with
  | zero => simp [clearBelow]
  | succ j ih =>
    rw [clearBelow_succ]
    by_cases picked : b j
    · rw [if_pos picked, Vector.getElem_setIfInBounds, ih]
      grind
    · rw [if_neg picked, ih]
      grind

theorem clearBelow_all {α : Type} {n : Nat} (b : Nat → Bool) (z : α) (xs : Vector α n) :
    clearBelow b z xs n = Vector.ofFn fun i => if b i then z else xs[i] := by
  ext i hi
  simp [getElem_clearBelow, hi]

/-- The core after MZERO has come past accumulator `i`. -/
def Core.zeroAt (k : BitVec 4) (c : Core) (i : Nat) : Core :=
  { c with
    m := if k.getLsbD i then c.m.setIfInBounds i Accum.zero else c.m
    kpos := if k.getLsbD i then c.kpos.setIfInBounds i 0 else c.kpos }

/-- The core with the accumulators of a mask cleared, and their positions. -/
def Core.zeroed (k : BitVec 4) (c : Core) : Core :=
  { c with
    m := Vector.ofFn fun i => if k.getLsbD i.val then Accum.zero else c.m[i]
    kpos := Vector.ofFn fun i => if k.getLsbD i.val then 0 else c.kpos[i] }

@[simp] theorem Core.str_zeroed (k : BitVec 4) (c : Core) (st : Strm) : (c.zeroed k).str st = c.str st := by cases st <;> rfl

theorem foldl_zeroAt_below (k : BitVec 4) (c : Core) (j : Nat) : (List.range j).foldl (Core.zeroAt k) c =
    { c with m := clearBelow k.getLsbD Accum.zero c.m j, kpos := clearBelow k.getLsbD 0 c.kpos j } := by
  induction j with
  | zero => rfl
  | succ j ih => rw [List.range_succ, List.foldl_append, ih, clearBelow_succ, clearBelow_succ]; rfl

theorem foldl_zeroAt (k : BitVec 4) (c : Core) : (List.range 4).foldl (Core.zeroAt k) c = c.zeroed k := by
  rw [foldl_zeroAt_below, clearBelow_all, clearBelow_all]
  rfl

/-- A computation changes the cursor's core by `f`, and nothing of the memory side. It may leave the state as it is, where an update
of the core would write the core's entry anew. -/
def State.changes (s : State) (x : M Unit) (f : Core → Core) : Prop :=
  ∃ t, s.does x () t ∧ t.core = f s.core ∧ t.pkg.home = s.pkg.home

theorem forM_changes {x : Nat → M Unit} {f : Core → Nat → Core} (l : List Nat) (s : State)
    (hx : ∀ i ∈ l, ∀ s : State, s.changes (x i) (f · i)) : s.changes (l.forM x) (l.foldl f ·) := by
  induction l generalizing s with
  | nil => exact ⟨s, does_pure s (), rfl, rfl⟩
  | cons i l ih =>
    obtain ⟨t, ht, htc, hth⟩ := hx i List.mem_cons_self s
    obtain ⟨u, hu, huc, huh⟩ := ih t fun j hj => hx j (List.mem_cons_of_mem i hj)
    exact ⟨u, does_bind ht hu, by rw [huc, htc]; rfl, huh.trans hth⟩

theorem zeroAt_changes (k : BitVec 4) (s : State) {i : Nat} (hi : i < 4) :
    s.changes (if k.getLsbD i then do
      writeM (BitVec.ofNat 2 i) Accum.zero
      writeKpos (BitVec.ofNat 2 i) 0
      else pure ()) (Core.zeroAt k · i) := by
  have name : (BitVec.ofNat 2 i).toNat = i := Nat.mod_eq_of_lt hi
  by_cases picked : k.getLsbD i = true
  · rw [if_pos picked]
    refine ⟨_, does_bind (writeM_does s _ _) (writeKpos_does _ _ _), ?_, by simp⟩
    simp [Core.zeroAt, Core.putM, Core.putKpos, picked, name]
  · rw [if_neg picked]
    exact ⟨s, does_pure s (), by simp [Core.zeroAt, picked], rfl⟩

theorem actMzero_does (k : BitVec 4) (s : State) :
    ∃ t, s.does (actMzero k) .seq t ∧ t.core = s.core.zeroed k ∧ t.pkg.home = s.pkg.home := by
  obtain ⟨t, ht, core, home⟩ := forM_changes (List.range 4) s fun i hi s => zeroAt_changes k s (List.mem_range.mp hi)
  exact ⟨t, does_bind ht (does_pure t _), core.trans (foldl_zeroAt k s.core), home⟩

/-! ### K-steps (R234, R238, R240) -/

/-- The formats that a multiply-accumulate accepts of its operands (Table 11.3). -/
def TileDesc.operand (d : TileDesc) : Prop := 0 < d.fmt ∧ d.fmt ≤ 4

section
variable {s : State} {a b : BitVec 4}

theorem operandTile_does (rows cols : Nat) (accepted : (s.tile a).operand) :
    s.does (operandTile a rows cols) ⟨s.tile a, rows, cols⟩ s := by
  obtain ⟨low, high⟩ := accepted
  exact does_bind (readT_does s a) (does_if_neg (by simp; omega) (does_pure s _))

theorem stepInto_does (s : State) (m : BitVec 2) (z : Bool) (av bv : List (List Nat)) :
    s.does (stepInto m z av bv) () (s.kStepped m z av bv) := by
  have run : s.does (stepInto m z av bv) () (((s.put (·.putM m _)).put (·.putKpos m _)).put (·.flag _)) :=
    does_bind (readKpos_does s m) (does_bind (does_read s) (does_bind (readM_does s m)
      (does_bind (writeM_does s m _) (does_bind (writeKpos_does _ m _) (raiseFlags_does _ _)))))
  rw [State.put_put, State.put_put] at run
  exact run

variable (m : BitVec 2) (z : Bool) (ha : (s.tile a).operand) (hb : (s.tile b).operand)
include ha hb

theorem mmaOf_does (checked : s.does (checkTiles [⟨s.tile a, 16, 16⟩, ⟨s.tile b, 16, 32⟩]) () s) :
    s.does (mmaOf m a b z) .seq (s.kStepped m z (s.values a 16 16) (s.values b 16 32)) :=
  does_bind (operandTile_does 16 16 ha) (does_bind (operandTile_does 16 32 hb) (does_bind checked
    (does_bind (tileValues_does s a 16 16) (does_bind (tileValues_does s b 16 32)
      (does_bind (stepInto_does s m z _ _) (does_pure _ _))))))

/-- Both K-steps take the tiles' values as they stood before the first (R240). -/
theorem mmawOf_does (checked : s.does (checkTiles [⟨s.tile a, 16, 32⟩, ⟨s.tile b, 32, 32⟩]) () s) :
    s.does (mmawOf m a b z) .seq
      ((s.kStepped m z ((s.values a 16 32).map (·.take 16)) ((s.values b 32 32).take 16)).kStepped m false
        ((s.values a 16 32).map (·.drop 16)) ((s.values b 32 32).drop 16)) :=
  does_bind (operandTile_does 16 32 ha) (does_bind (operandTile_does 32 32 hb) (does_bind checked
    (does_bind (tileValues_does s a 16 32) (does_bind (tileValues_does s b 32 32)
      (does_bind (stepInto_does s m z _ _) (does_bind (stepInto_does _ m false _ _) (does_pure _ _)))))))

end

section
variable (m : BitVec 2) (a b : BitVec 4) (z : Bool) (s : State)

/-- MMA and MMAZ are one operation (R238). -/
theorem exec_mma : exec (if z then .mmaz m a b else .mma m a b) s =
    lone (if z then .mmaz m a b else .mma m a b) (mmaOf m a b z) s := by
  cases z <;> rfl

/-- MMAW and MMAWZ are one operation (R240). -/
theorem exec_mmaw : exec (if z then .mmawz m a b else .mmaw m a b) s =
    lone (if z then .mmawz m a b else .mmaw m a b) (mmawOf m a b z) s := by
  cases z <;> rfl

end

/-! ### Tiles read and written (R246, R247) -/

theorem actMld_does {s : State} (m : BitVec 2) {a : BitVec 4} (checked : s.does (checkTiles [⟨s.tile a, 16, 32⟩]) () s) :
    s.does (actMld m a) .seq (s.put (·.putM m (mldAccum (s.tile a) s.core.table fun x => s.core.scratch.read x 1))) :=
  does_bind (readT_does s a) (does_bind checked (does_bind (does_theCore s)
    (does_bind (writeM_does s m _) (does_pure _ _))))

/-- The tile that MST writes: the descriptor's place in the instruction's own format and codebook (Table 11.3). -/
def State.mstTile (s : State) (t : BitVec 4) (f : BitVec 3) (c : BitVec 4) : Tile :=
  ⟨{ s.tile t with fmt := f.toNat, cb := c.toNat }, 16, 32⟩

/-- The elements that MST writes, in its order, each with its position and its flags (R247). -/
def State.mstElems (s : State) (m : BitVec 2) (f : BitVec 3) (c : BitVec 4) (r : BitVec 2) : List ((Nat × Nat) × Nat × Flags) :=
  (tilePositions 16 32).map fun p => (p, mstElem s.core.table f.toNat c.toNat (mstRnd r) ((s.acc m).at p.1 p.2))

/-- The core with elements written into a tile of its scratchpad, in order. -/
def Core.putTile (k : Core) (tile : Tile) (es : List ((Nat × Nat) × Nat × Flags)) : Core :=
  ({ k with scratch := es.foldl (fun mem e => putElem tile.desc mem e.1.1 e.1.2 e.2.1) k.scratch } : Core).marked tile.bytes

theorem actMst_does {s : State} (m : BitVec 2) {t : BitVec 4} {f : BitVec 3} {c : BitVec 4} (r : BitVec 2)
    (checked : s.does (checkTiles [s.mstTile t f c]) () s) :
    s.does (actMst m t f c r) .seq (s.put fun k =>
      (k.putTile (s.mstTile t f c) (s.mstElems m f c r)).flag ((s.mstElems m f c r).foldl (fun fl e => fl ||| e.2.2) 0)) := by
  have run : s.does (actMst m t f c r) .seq
      ((s.put (·.putTile (s.mstTile t f c) (s.mstElems m f c r))).put (·.flag _)) :=
    does_bind (readT_does s t) (does_bind checked (does_bind (does_theCore s) (does_bind (readM_does s m)
      (does_bind (does_modCore s _) (does_bind (raiseFlags_does _ _) (does_pure _ _))))))
  rwa [State.put_put] at run

/-- Settles O24: each is a lone unit that writes one register of the engine; MZERO's is a pass over the four accumulators. -/
theorem matrixRegisters : Obligations.MatrixRegisters := by
  unfold Obligations.MatrixRegisters
  intro m k v r t a s s1 x
  refine ⟨?tdset, ?ldtab, ?msca, ?mcmb, ?mrd, ?mwr, ?mzero⟩
  case tdset => exact fun ready ha accepted => lone_next ready (actTdset_does t ha accepted) (.inl rfl)
  case ldtab =>
    intro ready ha aligned inside unlocked raw tb accepted
    exact lone_next ready (actLdtab_does ha aligned inside unlocked accepted) (.inl rfl)
  case msca =>
    rintro byCol _ rfl ready g u straight
    rw [exec_msca]
    exact lone_next ready (mscaOf_does s m v byCol) (.inl rfl) straight
  case mcmb => exact fun ready => lone_next ready (actMcmb_does s m k) (.inl rfl)
  case mrd => exact fun ready => lone_next ready (actMrd_does s m v r) (.inl rfl)
  case mwr => exact fun ready => lone_next ready (actMwr_does s m v r) (.inl rfl)
  case mzero =>
    intro ready straight
    obtain ⟨u, performs, core, home⟩ := actMzero_does t s
    have cur : u.cur = s.cur := by rw [performs.2]; rfl
    have str : u.str = s.str := by rw [State.str, core, cur, Core.str_zeroed]; rfl
    refine ⟨u.past .seq, lone_next ready performs (.inl rfl) (by rwa [State.straight, str]), ?_, ?_⟩
    · have after : (u.past .seq).core = u.core.setStr u.cur.stream (u.str.advance 4 .seq).1 := State.put_core u _
      rw [after, core, cur, str]
      rfl
    · exact (State.put_home u _).trans home

/-- Settles O25: MMA and MMAW are the same K-steps for either Z; MLD and MST are lone units of one tile. -/
theorem matrixSteps : Obligations.MatrixSteps := by
  unfold Obligations.MatrixSteps
  intro m a b s ok
  refine ⟨?mma, ?mmaw, ?mld, ?mst⟩
  case mma =>
    rintro z _ rfl ready ha hb checked u straight
    rw [exec_mma]
    exact lone_next ready (mmaOf_does m z ha hb checked) (.inl rfl) straight
  case mmaw =>
    rintro z _ rfl ready ha hb checked av bv u straight
    rw [exec_mmaw]
    exact lone_next ready (mmawOf_does m z ha hb checked) (.inl rfl) straight
  case mld => exact fun ready checked => lone_next ready (actMld_does m checked) (.inl rfl)
  case mst =>
    intro f c r ready d tile checked
    exact lone_next ready (actMst_does m r checked) (.inl rfl)

end Sys2Proof.Machine
end

section
/-!
PROOF. The issue of commands to the bank units and the fabric engine (R258 to R263, R375): a good command starts and a bad one is
answered with its status, each with a token, and the unit that issues it is a commit point.
-/

namespace Sys2Proof.Machine

/-- A judgement that takes a value from one of two computations, and goes on alike with either. -/
theorem does_ite_bind {α β : Type} {s t u : State} {p q : Prop} [Decidable p] [Decidable q] {x y : M α} {f : α → M β} {v : α}
    {w : β} (hpq : p ↔ q) (hxy : if q then s.does x v t else s.does y v t) (hf : t.does (f v) w u) :
    s.does (if p then x >>= f else y >>= f) w u := by
  by_cases h : q
  · rw [if_pos h] at hxy
    rw [if_pos (hpq.mpr h)]
    exact does_bind hxy hf
  · rw [if_neg h] at hxy
    rw [if_neg fun hp => h (hpq.mp hp)]
    exact does_bind hxy hf

/-! ### The bank units (R258 to R263) -/

/-- The words of the descriptor that a BMV or a BLAY reads (R256). -/
def descWords (raw : Nat) : List Word := (List.range 8).map fun k => BitVec.ofNat 64 (bytesAt raw (8 * k) 8)

/-- A word of a descriptor as a number. -/
def descWord (raw k : Nat) : Nat := ((descWords raw).getD k 0).toNat

/-- The spans that a descriptor's command locks: for BLAY its source, for BMV its vectors and its results (R259). -/
def BankDesc.spans (x : BankDesc) (lay : Bool) : List Span :=
  if lay then [⟨x.xv, x.xv + (x.k - 1) * x.xpitch + (x.n * x.bits + 7) / 8⟩]
  else [⟨x.xv, x.xv + x.batch * x.xpitch + 4 * x.k⟩, ⟨x.yv, x.yv + x.batch * x.ypitch + 4 * x.nj⟩]

section
variable {d a b : BitVec 5} {s s1 s2 s3 s4 : State} {v w tok : Word} (ha : s.does (src a) v s1)
include ha

theorem issueBank_does {op raw : Nat} {lay : Bool} (aligned : v.toNat % 64 = 0) (loaded : s1.does (loadSpan v 64) raw s2)
    (started : if bankDescOk lay (descWord raw)
      then s2.does (startCommand .bank op (descWords raw) ((bankDesc (descWord raw)).spans lay)) tok s3
      else s2.does (instantToken (statusWord .bankunit 1)) tok s3)
    (written : s3.does (dst d tok) () s4) : s.does (issueBank op lay d a) .seq s4 := by
  refine does_bind ha (does_if_neg (by simp [aligned]) (does_bind loaded ?_))
  cases lay <;> exact does_ite_bind .rfl started (does_bind written (does_pure s4 _))

theorem actBtab_does (hb : s1.does (src b) w s2)
    (started : if v.toNat % 64 = 0 ∧ natBits w.toNat 31 16 ≠ 0 ∧ natBits w.toNat 15 6 = 0 ∧ natBits w.toNat 63 32 = 0
      then s2.does (startCommand .bank 0x6D [v, w] (if v = 0 then [] else [spanAt v 1024])) tok s3
      else s2.does (instantToken (statusWord .bankunit 1)) tok s3)
    (written : s3.does (dst d tok) () s4) : s.does (actBtab d a b) .seq s4 := by
  have spans : (if (v == 0) = true then [] else [spanAt v 1024]) = if v = 0 then [] else [spanAt v 1024] := by simp
  rw [← spans] at started
  exact does_bind ha (does_bind hb (does_ite_bind (by simp [and_assoc]) started (does_bind written (does_pure s4 _))))

end

/-- BMV and BLAY are one operation (R258). -/
theorem exec_bank (lay : Bool) (d a : BitVec 5) (s : State) : exec (if lay then .blay d a else .bmv d a) s =
    loneCommit (if lay then .blay d a else .bmv d a) (issueBank (if lay then 0x6E else 0x6C) lay d a) s := by
  cases lay <;> rfl

/-! ### The fabric engine (R375) -/

section
variable {d a b c : BitVec 5} {s s1 s2 s3 s4 s5 : State} {x y z tok : Word}

theorem issueMove_does {op : Nat} (short : z.toNat ≤ fabricLimit) (inside : s.does (checkWindows [spanAt y z.toNat]) () s)
    (remote : s.does (checkRemote (spanAt x z.toNat)) () s)
    (started : s.does (startFabric op [x, y, z] (spanAt y z.toNat)) tok s1) (written : s1.does (dst d tok) () s2) :
    s.does (issueMove op d x y z) .seq s2 :=
  does_if_neg (Nat.not_lt.mpr short)
    (does_bind inside (does_bind remote (does_bind started (does_bind written (does_pure s2 _)))))

variable (ha : s.does (src a) x s1) (hb : s1.does (src b) y s2) (hc : s2.does (src c) z s3)
include ha hb hc

theorem actFxput_does (moved : s3.does (issueMove 0x78 d x y z) .seq s4) : s.does (actFxput d a b c) .seq s4 :=
  does_bind ha (does_bind hb (does_bind hc moved))

theorem actFxget_does (moved : s3.does (issueMove 0x79 d y x z) .seq s4) : s.does (actFxget d a b c) .seq s4 :=
  does_bind ha (does_bind hb (does_bind hc moved))

theorem actFxred_does {len : Nat} (hl : len = natBits z.toNat 31 0 * fxredBytes z.toNat)
    (inside : s3.does (checkWindows [spanAt y len]) () s3) (remote : s3.does (checkRemote (spanAt x len)) () s3)
    (hx : x.toNat % fxredBytes z.toNat = 0) (hy : y.toNat % fxredBytes z.toNat = 0)
    (started : if fxredOk z.toNat then s3.does (startFabric 0x7A [x, y, z] (spanAt y len)) tok s4
      else s3.does (instantToken (statusWord .fabric 1)) tok s4)
    (written : s4.does (dst d tok) () s5) : s.does (actFxred d a b c) .seq s5 := by
  subst hl
  exact does_bind ha (does_bind hb (does_bind hc (does_bind inside (does_bind remote
    (does_if_neg (by simp [hx, hy]) (does_ite_bind .rfl started (does_bind written (does_pure s5 _))))))))

end

/-- Settles O44: each is a lone unit with its commit point; a judged command's token comes from its start or from its status. -/
theorem engineIssue : Obligations.EngineIssue := by
  unfold Obligations.EngineIssue
  refine ⟨fun d a b s s0 s1 s2 s3 s4 v w tok raw hc ha => ⟨?bank, ?btab⟩,
    fun d a b c s s0 s1 s2 s3 s4 s5 x y z tok hc ha hb hz => ⟨?move, ?fxred⟩⟩
  case bank =>
    rintro lay _ rfl ready aligned loaded ws f desc from_ dest started written straight
    have spans : desc.spans lay = if lay then [from_] else [from_, dest] := by cases lay <;> rfl
    rw [← spans] at started
    rw [exec_bank]
    exact loneCommit_next ready hc (issueBank_does ha aligned loaded started written) (.inl rfl) straight
  case btab =>
    exact fun ready hb started written straight =>
      loneCommit_next ready hc (actBtab_does ha hb started written) (.inl rfl) straight
  case move =>
    rintro put _ rfl ready short far near inside remote started written straight
    have moved := issueMove_does short inside remote started written
    cases put with
    | true => exact loneCommit_next ready hc (actFxput_does ha hb hz moved) (.inl rfl) straight
    | false => exact loneCommit_next ready hc (actFxget_does ha hb hz moved) (.inl rfl) straight
  case fxred =>
    intro ready n len inside remote hx hy started written straight
    exact loneCommit_next ready hc (actFxred_does ha hb hz rfl inside remote hx hy started written) (.inl rfl) straight

end Sys2Proof.Machine
end

section
/-!
PROOF. The copy engine's instructions (R276 to R281): SHPMK and SHPDEL change the shape table within a lone unit; COPY, COPYS and
CFILL are commit points, each of which gives the token of the command that it starts.
-/

namespace Sys2Proof.Machine

/-! ### The shape table (R276, R277) -/

section
variable {d a : BitVec 5} {s s1 s2 s3 : State} {v : Word} (ha : s.does (src a) v s1)
include ha

theorem actShpmk_does {ws : List Word} (sealing : s1.does (sealAt v) ws s2) (written : s2.does (dst d v) () s3) :
    s.does (actShpmk d a) .seq s3 :=
  does_bind ha (does_bind sealing (does_bind written (does_pure s3 _)))

theorem actShpdel_does : s.does (actShpdel a) .seq
    (s1.put fun c => { c with shapes := c.shapes.filter fun e => !(e.va == v.toNat && e.dom == c.dom.toNat) }) :=
  does_bind ha (does_bind (does_modCore s1 _) (does_pure _ _))

end

/-! ### Commands of a length (R279, R281) -/

/-- What COPY and CFILL do once they have their operands (R278). -/
def issueLength (op : Nat) (d : BitVec 5) (len : Word) (ws : List Word) (ss : List Span) : M Flow := do
  if copyLimit < len.toNat then raise .illegal len
  checkWindows ss
  let tok ← if len == 0 then instantToken 0 else startCommand .copy op ws ss
  dst d tok
  return .seq

theorem issueLength_does {op : Nat} {d : BitVec 5} {len tok : Word} {ws : List Word} {ss : List Span} {s s1 s2 : State}
    (short : len.toNat ≤ copyLimit) (inside : s.does (checkWindows ss) () s)
    (started : if len = 0 then s.does (instantToken 0) tok s1 else s.does (startCommand .copy op ws ss) tok s1)
    (written : s1.does (dst d tok) () s2) : s.does (issueLength op d len ws ss) .seq s2 :=
  does_if_neg (Nat.not_lt.mpr short)
    (does_bind inside (does_ite_bind beq_iff_eq started (does_bind written (does_pure s2 _))))

section
variable {d a b c : BitVec 5} {s s1 s2 s3 s4 s5 s6 : State} {x y z tok : Word} (ha : s.does (src a) x s1)
  (hb : s1.does (src b) y s2) (hc : s2.does (src c) z s3)
include ha hb hc

theorem actCopy_does
    (issued : s3.does (issueLength 0x72 d z [x, y, z] [spanAt y z.toNat, spanAt x z.toNat]) .seq s4) :
    s.does (actCopy d a b c) .seq s4 :=
  does_bind ha (does_bind hb (does_bind hc issued))

theorem actCfill_does (issued : s3.does (issueLength 0x74 d z [x, y, z] [spanAt x z.toNat]) .seq s4) :
    s.does (actCfill d a b c) .seq s4 :=
  does_bind ha (does_bind hb (does_bind hc issued))

/-! ### Shaped copies (R280) -/

theorem actCopys_does {ws : List Word} {sh : ShapeObj} (held : s3.does (sealed x) ws s4) (shape : shapeOf ws = some sh)
    (hy : y.toNat % sh.esize = 0) (hz : z.toNat % sh.esize = 0) (prefetches : sh.mode = 2 → y = 0)
    (inside : s4.does (checkWindows (if sh.mode == 2 then [hullAt sh z sh.sst, hullAt sh y sh.dst].take 1
      else [hullAt sh z sh.sst, hullAt sh y sh.dst])) () s4)
    (started : s4.does (startCommand .copy 0x73 ([y, z] ++ ws) [hullAt sh z sh.sst, hullAt sh y sh.dst]) tok s5)
    (written : s5.does (dst d tok) () s6) : s.does (actCopys d a b c) .seq s6 := by
  refine does_bind ha (does_bind hb (does_bind hc (does_bind held ?_)))
  rw [shape]
  have aligned : ¬ (y.toNat % sh.esize != 0 || z.toNat % sh.esize != 0) = true := by simp [hy, hz]
  have noDest : ¬ (sh.mode == 2 && y != 0) = true := by simpa using prefetches
  exact does_if_neg aligned (does_if_neg noDest
    (does_bind inside (does_bind started (does_bind written (does_pure s6 _)))))

end

/-- Settles O43: SHPMK and SHPDEL are lone units; COPY, COPYS and CFILL are lone units with their commit point. -/
theorem copyIssue : Obligations.CopyIssue := by
  unfold Obligations.CopyIssue
  intro d a b c s s0 s1 s2 s3 s4 s5 s6 x y z tok ws
  refine ⟨?shpmk, ?shpdel, fun commit ha hb hc => ⟨?copy, ?cfill, ?copys⟩⟩
  case shpmk => exact fun ready ha sealing written => lone_next ready (actShpmk_does ha sealing written) (.inl rfl)
  case shpdel => exact fun ready ha => lone_next ready (actShpdel_does ha) (.inl rfl)
  case copy =>
    exact fun ready short inside started written =>
      loneCommit_next ready commit (actCopy_does ha hb hc (issueLength_does short inside started written)) (.inl rfl)
  case cfill =>
    exact fun ready short inside started written =>
      loneCommit_next ready commit (actCfill_does ha hb hc (issueLength_does short inside started written)) (.inl rfl)
  case copys =>
    exact fun sh ready held shape hy hz prefetches inside started written =>
      loneCommit_next ready commit (actCopys_does ha hb hc held shape hy hz prefetches inside started written) (.inl rfl)

end Sys2Proof.Machine
end

section
/-!
PROOF. The step and where a run begins (logs 2 to 4, R418): which computation a turn of each kind runs, words of the encoding tables,
and the state after reset.
-/

namespace Sys2Proof.Machine

/-! ### Turns -/

section
variable {s : State} {rest : List Turn}

theorem step_without_turn (h : s.agenda = []) : step s = exec (s.core.nextInstr s.cur.stream) s := by
  rw [step, h]
  rfl

theorem step_unit_turn {p c : Nat} {st : Strm} (h : s.agenda = .unit p c st :: rest) :
    step s = ({ s with cur := ⟨p, c, st⟩, agenda := rest } : State).unit := by
  rw [step, h]

theorem step_event_turn {p c : Nat} {i : Instr} (h : s.agenda = .event p c i :: rest) (hi : isEvent i = true) :
    step s = exec i { s with cur := ⟨p, c, .A⟩, agenda := rest } := by
  rw [step, h]
  exact if_pos hi

theorem step_elapse_turn {n : Nat} (h : s.agenda = .elapse n :: rest) :
    step s = .next { s with time := s.time + n, agenda := rest } := by
  rw [step, h]

end

/-- Settles O2: a case for each kind of turn; a lone word that is not zero is the instruction that it decodes to. -/
theorem stepRunsDecoded : Obligations.StepRunsDecoded := by
  unfold Obligations.StepRunsDecoded
  intro s
  refine ⟨step_without_turn, ?lone, ?unit, ?event, ?elapse⟩
  case lone =>
    intro w h hw nonzero odd
    rw [step_without_turn h, Core.nextInstr_lone hw nonzero odd]
  case unit =>
    exact fun p c st rest h => ⟨{ s with cur := ⟨p, c, st⟩, agenda := rest }, rfl, rfl, rfl, rfl, step_unit_turn h⟩
  case event =>
    exact fun p c i rest h hi => ⟨{ s with cur := ⟨p, c, .A⟩, agenda := rest }, rfl, rfl, rfl, rfl, step_event_turn h hi⟩
  case elapse =>
    exact fun n rest h => ⟨{ s with time := s.time + n, agenda := rest }, rfl, rfl, rfl, rfl, step_elapse_turn h⟩

/-- Settles O3: seven closed words. -/
theorem wordsDecode : Obligations.WordsDecode := by
  unfold Obligations.WordsDecode
  decide +kernel

/-! ### Reset -/

theorem onSchedule_refl (s : State) : OnSchedule s s := ⟨[], rfl, rfl⟩

/-- A package of the machine after reset is as reset leaves it. -/
theorem reset_pkg (p : Nat) : State.reset.dev.pkg p = Package.reset := rfl

/-- Settles O7: after reset no package and no core is listed, so each is as reset leaves it. -/
theorem resetState : Obligations.ResetState := by
  unfold Obligations.ResetState
  refine ⟨onSchedule_refl, fun p => ?_⟩
  rw [reset_pkg]
  refine ⟨rfl, rfl, rfl, rfl, rfl, fun _ => rfl, rfl, Memory.wf_nil, fun c => ?_⟩
  have core : Package.reset.core c = Core.reset := rfl
  rw [core]
  exact ⟨rfl, rfl, rfl, rfl, Memory.wf_nil⟩

end Sys2Proof.Machine
end

section
/-!
PROOF. What a computation leaves of the hardware: a property that each of its steps keeps, whatever the core it runs at.
-/

namespace Sys2Proof.Machine

/-- Where it answers, a computation keeps a property of the hardware. -/
def Stays {α : Type} (P : Dev → Prop) (x : M α) : Prop := ∀ (s : State) (v : α) (t : State), s.does x v t → P s.dev → P t.dev

section
variable {α β : Type} {P : Dev → Prop}

theorem stays_bind {x : M α} {f : α → M β} (hx : Stays P x) (hf : ∀ v, Stays P (f v)) : Stays P (x >>= f) := by
  intro s w u h hs
  obtain ⟨v, t, h1, h2⟩ := does_of_bind h
  exact hf v t w u h2 (hx s v t h1 hs)

theorem ReadOnly.stays {x : M α} (hx : ReadOnly x) : Stays P x := by
  intro s v t h hs
  rw [hx _ _ _ _ h.1]
  exact hs

theorem stays_pure (v : α) : Stays P (pure v) := (readOnly_pure v).stays

theorem stays_get : Stays P (get : M Dev) := fun s _ _ h hs => (does_unique (does_get s) h).2 ▸ hs

theorem stays_read : Stays P (read : M Env) := fun s _ _ h hs => (does_unique (does_read s) h).2 ▸ hs

theorem stays_ite {c : Prop} [Decidable c] {x y : M α} (hx : Stays P x) (hy : Stays P y) : Stays P (if c then x else y) := by
  split
  · exact hx
  · exact hy

theorem stays_modPkgAt {p : Nat} {f : Package → Package} (h : ∀ d, P d → P (d.setPkg p (f (d.pkg p)))) : Stays P (modPkgAt p f) :=
  fun s _ _ ht hs => (does_unique (show s.does (modPkgAt p f) () (s.on _) from ⟨rfl, rfl⟩) ht).2 ▸ h s.dev hs

theorem stays_forM {x : α → M Unit} (l : List α) (h : ∀ a, Stays P (x a)) : Stays P (l.forM x) := by
  induction l with
  | nil => exact stays_pure ()
  | cons a l ih => exact stays_bind (h a) fun _ => ih

/-- What a computation does elsewhere, it does to the same hardware. -/
theorem stays_atCore {p c : Nat} {st : Strm} {x : M α} (hx : Stays P x) : Stays P (atCore p c st x) :=
  fun s v t h hs => hx { s with cur := ⟨p, c, st⟩ } v { t with cur := ⟨p, c, st⟩ } ⟨h.1, by rw [h.2]; rfl⟩ hs

/-- What one round of a loop brings about, and every round keeps, holds after the loop. -/
theorem forM_brings {x : α → M Unit} {l : List α} {a : α} {s t : State} (ha : a ∈ l) (keeps : ∀ b, Stays P (x b))
    (brings : ∀ s t : State, s.does (x a) () t → P t.dev) (h : s.does (l.forM x) () t) : P t.dev := by
  induction l generalizing s with
  | nil => cases ha
  | cons b l ih =>
    obtain ⟨_, u, hb, hl⟩ := does_of_bind h
    rcases List.mem_cons.mp ha with rfl | ha
    · exact stays_forM l keeps u () t hl (brings s u hb)
    · exact ih ha hl

end

end Sys2Proof.Machine
end

section
/-!
PROOF. Sparse maps whose values are all listed, and the computations that control cores and the fabric's tables are written with: what
each leads to, said once.
-/

namespace Sys2Proof.Machine

/-! ### Sparse maps -/

theorem lookupD_cons {α : Type} (d : α) (e : Nat × α) (l : List (Nat × α)) (j : Nat) :
    lookupD d (e :: l) j = if j = e.1 then e.2 else lookupD d l j := by
  obtain ⟨i, y⟩ := e
  by_cases h : i = j
  · simp [lookupD, h]
  · simp [lookupD, h, Ne.symm h]

/-- A map with one key set to a value that is listed: that value there, and what it held elsewhere. -/
theorem lookupD_insertD {α : Type} [DecidableEq α] {d x : α} (l : List (Nat × α)) (k j : Nat) (hx : x ≠ d) :
    lookupD d (insertD d l k x) j = if j = k then x else lookupD d l j := by
  induction l with
  | nil => simp only [insertD, if_neg hx, lookupD_cons]
  | cons e l ih =>
    obtain ⟨i, y⟩ := e
    simp only [insertD, if_neg hx]
    split
    · simp only [lookupD_cons]
    · split
      · next h =>
        obtain rfl : k = i := by simpa using h
        simp only [lookupD_cons]
        split <;> rfl
      · next h =>
        have hk : k ≠ i := by simpa using h
        simp only [lookupD_cons, ih]
        by_cases hj : j = i
        · rw [if_pos hj, if_pos hj, if_neg (hj ▸ hk.symm)]
        · rw [if_neg hj, if_neg hj]

/-- A key that is dropped is listed no more. -/
theorem findAt_dropAt_same {α : Type} (l : List (Nat × α)) (k : Nat) : findAt (dropAt l k) k = none := by
  simp [findAt, dropAt]

theorem findAt_dropAt_ne {α : Type} (l : List (Nat × α)) {j k : Nat} (h : j ≠ k) : findAt (dropAt l k) j = findAt l j := by
  rw [findAt, findAt, dropAt, List.find?_filter]
  congr 2
  funext e
  by_cases he : e.1 = j <;> simp [he, h]

/-- The values of a map changed, each where it stands. -/
theorem findAt_map {α β : Type} (f : α → β) (l : List (Nat × α)) (k : Nat) :
    findAt (l.map fun e => (e.1, f e.2)) k = (findAt l k).map f := by
  simp [findAt, List.find?_map, Function.comp_def]

/-- What a list holds once an element that it does not hold is added. -/
theorem mem_addMissing {α : Type} [BEq α] [LawfulBEq α] {l : List α} {a b : α} :
    a ∈ (if l.contains b then l else l ++ [b]) ↔ a ∈ l ∨ a = b := by
  split
  · next h =>
    have hb : b ∈ l := by simpa using h
    constructor
    · exact .inl
    · rintro (h | rfl)
      · exact h
      · exact hb
  · simp

/-! ### Computations -/

section
variable (s : State)

theorem does_modCtl (f : Ctl → Ctl) : s.does (modCtl f) () (s.putPkg fun x => { x with ctl := f x.ctl }) := does_modPkg s _

theorem does_modFabric (f : Fabric → Fabric) : s.does (modFabric f) () (s.putPkg fun x => { x with fabric := f x.fabric }) :=
  does_modPkg s _

theorem does_modPkgAt (p : Nat) (f : Package → Package) :
    s.does (modPkgAt p f) () (s.on (s.dev.setPkg p (f (s.dev.pkg p)))) := ⟨rfl, rfl⟩

theorem does_modify (f : Dev → Dev) : s.does (modify f : M Unit) () (s.on (f s.dev)) := ⟨rfl, rfl⟩

theorem does_coreAt (p c : Nat) : s.does (coreAt p c) ((s.dev.pkg p).core c) s := ⟨rfl, rfl⟩

theorem does_pkgAt (p : Nat) : s.does (pkgAt p) (s.dev.pkg p) s := ⟨rfl, rfl⟩

end

end Sys2Proof.Machine
end

section
/-!
PROOF. The tables of the fabric (R367 to R370, R373, R385 to R387): what each event writes of them.
-/

namespace Sys2Proof.Machine

/-! ### Routes, peers and apertures (R367 to R369) -/

section
variable {s : State}

theorem podApertureEntryWrite_outside {n : Nat} (w0 w1 : Nat) (h : n = 0 ∨ 62 < n) : s.does (podApertureEntryWrite n w0 w1) () s := by
  have outside : (n == 0 || decide (62 < n)) = true := by simpa using h
  unfold podApertureEntryWrite
  rw [if_pos outside]
  exact does_pure s ()

theorem podApertureEntryWrite_does {n : Nat} (w0 w1 : Nat) (h0 : 0 < n) (h1 : n ≤ 62) :
    let a := parseAperture w0 w1
    s.does (podApertureEntryWrite n w0 w1) () (s.putPkg fun x => { x with fabric := { x.fabric with
      apertures := insertD Aperture.reset x.fabric.apertures n { a with
        lost := a.valid && !a.scaleOut && s.pkg.fabric.unreachable.contains a.pkg }
      endpoints := if a.valid && a.scaleOut then
        ((a.port, a.node), Config.endpointPackage s.cur.pkg a.port a.node) :: x.fabric.endpoints.filter fun e => e.1 != (a.port, a.node)
        else x.fabric.endpoints } }) := by
  have inside : (n == 0 || decide (62 < n)) = false := by simp; omega
  intro a
  unfold podApertureEntryWrite
  simp only [inside]
  exact does_bind (does_thePkg s) (does_bind (does_read s) (does_modFabric s _))

/-- A valid entry is no reset entry, so the table lists it. -/
theorem Aperture.ne_reset {a : Aperture} (h : a.valid = true) : a ≠ Aperture.reset := by
  rintro rfl
  cases h

/-- An entry that names a lost peer is lost, whatever it was. -/
theorem findAt_apertures_lost {l : List (Nat × Aperture)} {k peer : Nat} {a : Aperture} (h : findAt l k = some a) :
    findAt (l.map fun a => if a.2.valid && !a.2.scaleOut && a.2.pkg == peer then (a.1, { a.2 with lost := true }) else a) k =
      some { a with lost := a.lost || (a.valid && !a.scaleOut && a.pkg == peer) } := by
  have each : (fun e : Nat × Aperture => if e.2.valid && !e.2.scaleOut && e.2.pkg == peer then (e.1, { e.2 with lost := true }) else e) =
      fun e => (e.1, { e.2 with lost := e.2.lost || (e.2.valid && !e.2.scaleOut && e.2.pkg == peer) }) := by
    funext e
    split
    · next names => simp [names]
    · next other => simp [Bool.not_eq_true _ ▸ other]
  rw [each]
  exact (findAt_map (fun a : Aperture => { a with lost := a.lost || (a.valid && !a.scaleOut && a.pkg == peer) }) l k).trans (by rw [h])

/-! ### Groups (R370, R373) -/

/-- No open round of a group stands at a package. -/
def Dev.noRounds (d : Dev) (group q : Nat) : Prop :=
  (∀ c ∈ (d.pkg q).fabric.contribs, c.group ≠ group) ∧ (∀ c ∈ (d.pkg q).fabric.parts, c.group ≠ group) ∧
    ∀ c ∈ (d.pkg q).fabric.deliveries, c.group ≠ group

/-- A change of a package that opens no round of a group keeps every package free of them. -/
theorem Dev.noRounds_setPkg {d : Dev} {group q : Nat} (h : d.noRounds group q) (p : Nat) {x : Package}
    (hc : ∀ c ∈ x.fabric.contribs, c ∈ (d.pkg p).fabric.contribs) (hp : ∀ c ∈ x.fabric.parts, c ∈ (d.pkg p).fabric.parts)
    (hd : ∀ c ∈ x.fabric.deliveries, c ∈ (d.pkg p).fabric.deliveries) : (d.setPkg p x).noRounds group q := by
  by_cases hq : q = p
  · subst hq
    rw [noRounds, Dev.pkg_setPkg]
    exact ⟨fun c m => h.1 c (hc c m), fun c m => h.2.1 c (hp c m), fun c m => h.2.2 c (hd c m)⟩
  · rw [noRounds, Dev.pkg_setPkg_ne _ _ _ _ hq]
    exact h

theorem stays_dropContribution {group q : Nat} (c : Contribution) : Stays (·.noRounds group q) (dropContribution c) :=
  show Stays _ (modPkgAt c.op.lpkg fun k => { k with sched := { k.sched with launches := k.sched.launches.map fun l =>
    if l.id == c.op.launch then { l with extra := combineStatus l.extra statusLate } else l } }) from
  stays_modPkgAt fun _ h => Dev.noRounds_setPkg h _ (fun _ m => m) (fun _ m => m) fun _ m => m

/-- Every package of the pod is free of the rounds that are discarded. -/
theorem discardRounds_noRounds {t : State} {group : Nat} (h : s.does (discardRounds group) () t) :
    ∀ p ∈ s.dev.pkgs, p.1 / 1024 = s.cur.pkg / 1024 → t.dev.noRounds group p.1 := by
  intro p hp pod
  obtain ⟨_, _, h1, h⟩ := does_of_bind h
  obtain ⟨rfl, rfl⟩ := does_unique (does_read s) h1
  obtain ⟨_, _, h2, h⟩ := does_of_bind h
  obtain ⟨rfl, rfl⟩ := does_unique (does_get s) h2
  have member : p ∈ s.dev.pkgs.filter fun q => q.1 / 1024 == s.env.pkg / 1024 := by
    simpa [State.env, pod] using hp
  refine forM_brings (P := (·.noRounds group p.1)) member (fun q => ?keeps) (fun u v hv => ?brings) h
  case keeps =>
    refine stays_bind (stays_forM _ stays_dropContribution) fun _ => stays_modPkgAt fun d hd => ?_
    exact Dev.noRounds_setPkg hd _ (fun _ m => (List.mem_filter.mp m).1) (fun _ m => (List.mem_filter.mp m).1)
      fun _ m => (List.mem_filter.mp m).1
  case brings =>
    obtain ⟨_, w, -, hv⟩ := does_of_bind hv
    rw [← (does_unique (does_modPkgAt w _ _) hv).2, State.on_dev, Dev.noRounds, Dev.pkg_setPkg]
    simp

section
variable {n w0 w1 : Nat}

/-- The entry that a write leaves: a reserved format leaves none that is valid. -/
def writtenGroup (w0 w1 : Nat) : Group :=
  { parseGroup w0 w1 with valid := (parseGroup w0 w1).valid && natBits w0 3 1 ≤ 4 }

theorem writtenGroup_eq (w0 w1 : Nat) : (if 4 < (parseGroup w0 w1).fmt then { parseGroup w0 w1 with valid := false } else parseGroup w0 w1) =
    writtenGroup w0 w1 := by
  by_cases reserved : 4 < (parseGroup w0 w1).fmt
  · have never : decide (natBits w0 3 1 ≤ 4) = false := decide_eq_false (Nat.not_le.mpr reserved)
    rw [if_pos reserved, writtenGroup, never, Bool.and_false]
  · have known : decide (natBits w0 3 1 ≤ 4) = true := decide_eq_true (Nat.not_lt.mp reserved)
    rw [if_neg reserved, writtenGroup, known, Bool.and_true]

theorem groupEntryWrite_outside (h : 4096 ≤ n) : s.does (groupEntryWrite n w0 w1) () s := by
  unfold groupEntryWrite
  rw [if_pos h]
  exact does_pure s ()

/-- The rounds of the group are discarded or not, and the entry takes what is written. -/
theorem groupEntryWrite_does {s1 : State} (h : n < 4096)
    (hd : if (lookupD Group.reset s.pkg.fabric.groups n).valid && !(writtenGroup w0 w1).valid then s.does (discardRounds n) () s1 else s1 = s) :
    s.does (groupEntryWrite n w0 w1) () (s1.putPkg fun x => { x with fabric := { x.fabric with
      groups := insertD Group.reset x.fabric.groups n (writtenGroup w0 w1) } }) := by
  unfold groupEntryWrite
  simp only [if_neg (Nat.not_le.mpr h), writtenGroup_eq]
  refine does_bind (does_thePkg s) ?_
  split at hd
  · next closes =>
    rw [if_pos closes]
    exact does_bind hd (does_modFabric s1 _)
  · next stays =>
    rw [if_neg stays, hd]
    exact does_modFabric s _

end

/-! ### Regions (R385, R387) -/

theorem regionRegister_does {va pages : Nat} (key dom : Nat) (ha : va % 4096 = 0) (hp : pages ≠ 0) (hw : va + 4096 * pages ≤ windowBase) :
    s.does (regionRegister key dom va pages) () (s.putPkg fun x => { x with fabric :=
      if (x.fabric.regions.any fun r => r.key == key % 2 ^ 32) then x.fabric
      else { x.fabric with regions := x.fabric.regions ++ [⟨key % 2 ^ 32, dom % 8192, va, pages, false⟩] } }) := by
  have good : ¬ (va % 4096 != 0 || pages == 0 || decide (windowBase < va + 4096 * pages)) = true := by
    simp [ha, hp, Nat.not_lt.mpr hw]
  unfold regionRegister
  rw [if_neg good]
  exact does_modFabric s fun x => if (x.regions.any fun r => r.key == key % 2 ^ 32) then x
    else { x with regions := x.regions ++ [⟨key % 2 ^ 32, dom % 8192, va, pages, false⟩] }

/-- A revoked key is marked where it stands. -/
theorem getElem?_revoked (l : List Region) (key i : Nat) :
    (l.map fun r => if r.key == key then { r with revoked := true } else r)[i]? =
      l[i]?.map fun r => { r with revoked := r.revoked || r.key == key } := by
  rw [List.getElem?_map]
  congr 1
  funext r
  cases h : r.key == key
  · simp
  · simp

end

/-- Settles O51: each event is one change of the package's fabric; only a group that is no longer valid changes other packages. -/
theorem fabricTables : Obligations.FabricTables := by
  unfold Obligations.FabricTables
  intro s s1 n w0 w1 hops
  dsimp only
  refine ⟨?register, ?deregister, ?revoke, ?lost, ?routes, ?aperture, ?noAperture, ?group, ?noGroup⟩
  case register =>
    intro key dom va pages ha hp hw
    have run := event_next (regionRegister_does (s := s) key dom ha hp hw)
    refine ⟨fun fresh => run.trans ?_, fun held => ⟨_, run, ?_⟩⟩
    · exact congrArg _ (State.putPkg_congr (by rw [if_neg (by rw [fresh]; exact Bool.false_ne_true)]))
    · exact (State.putPkg_pkg s _).trans (by rw [if_pos held])
  case deregister =>
    intro key
    have run := event_next (does_modFabric s fun x => { x with regions := x.regions.filter fun r => r.key != key % 2 ^ 32 })
    refine ⟨run, _, run, fun lo hi pinned => ?_⟩
    rw [State.putPkg_pkg, Fabric.pins, List.any_eq_true] at pinned
    obtain ⟨r, hr, shared⟩ := pinned
    exact List.any_eq_true.mpr ⟨r, (List.mem_filter.mp hr).1, shared⟩
  case revoke =>
    intro key
    refine ⟨_, event_next (x := keyRevoke key) (does_modFabric s _), ?_⟩
    dsimp only
    rw [State.putPkg_pkg]
    refine ⟨rfl, List.length_map _, fun i r hr => ?_⟩
    rw [getElem?_revoked, hr]
    rfl
  case lost =>
    refine ⟨_, event_next (x := peerDeclaredLost n) (does_modFabric s _), ?_⟩
    dsimp only
    rw [State.putPkg_pkg]
    exact ⟨rfl, fun p => mem_addMissing, findAt_dropAt_same _ _, fun p hp => findAt_dropAt_ne _ hp,
      fun k a ha => findAt_apertures_lost ha⟩
  case routes =>
    refine ⟨_, event_next (x := routeTableLoad n hops) (does_modFabric s _), ?_⟩
    dsimp only
    rw [State.putPkg_pkg]
    refine ⟨rfl, fun none => by simp [none], fun some => ⟨?_, fun p => ?_⟩⟩
    · rw [lookupD_insertD _ _ _ (by simpa using some), if_pos rfl]
    · simp [some]
  case aperture =>
    intro h0 h1
    refine ⟨event_next (podApertureEntryWrite_does w0 w1 h0 h1), fun valid => ?_⟩
    exact (lookupD_insertD _ n n (Aperture.ne_reset (by exact valid))).trans (if_pos rfl)
  case noAperture => exact fun h => event_next (podApertureEntryWrite_outside w0 w1 h)
  case group =>
    intro hn
    refine ⟨fun open_ => event_next (groupEntryWrite_does hn ?_), fun was now hd => ⟨event_next (groupEntryWrite_does hn ?_), ?_⟩⟩
    · rw [if_neg]
      rcases open_ with closed | valid
      · simp [closed]
      · simp [show (writtenGroup w0 w1).valid = true from valid]
    · rw [if_pos]
      · exact hd
      · simp [was, show (writtenGroup w0 w1).valid = false from now]
    · exact discardRounds_noRounds hd
  case noGroup => exact fun h => event_next (groupEntryWrite_outside h)

end Sys2Proof.Machine
end

section
/-!
PROOF. What performs at the home slices (R39, R288 to R293, R305, R314, R318, R369, R413): each event's computations in order, one
lemma for each way an event can go.
-/

namespace Sys2Proof.Machine

section
variable {s s1 s2 s3 t : State}

/-! ### Stores (R51, R288, R369) -/

/-- The core once a store of its has performed, or has been dropped. -/
def Core.landed (c : Core) (n : Nat) : Core := { c with inflight := c.inflight.filter fun y => y.serial != n }

section
variable {n : Nat} {x : Store} (hx : s.core.inflight.find? (fun x => x.serial == n) = some x)
include hx

theorem storePerform_waits (hd : storeDue s.core.inflight (ownPosted s.dev s.cur.pkg s.cur.core) x = false) :
    s.does (storePerform n) () s := by
  refine does_bind (does_theCore s) ?_
  simp only [hx]
  refine does_bind (does_thePosted s) ?_
  rw [hd]
  exact does_pure s ()

variable (hd : storeDue s.core.inflight (ownPosted s.dev s.cur.pkg s.cur.core) x = true)
include hd

theorem storePerform_performs (hp : s.does (performStore x) () s1) : s.does (storePerform n) () (s1.put (·.landed n)) := by
  refine does_bind (does_theCore s) ?_
  simp only [hx]
  refine does_bind (does_thePosted s) ?_
  rw [hd]
  exact does_bind (does_attempt hp) (does_modCore s1 _)

/-- The peer of the store is lost: the store is dropped, and its strand owes APERTURE. -/
theorem storePerform_lost {ea : Word} (hp : s.stops (performStore x) (.raise .aperture ea))
    (ho : (s.put (·.landed n)).does (modStrand x.strand fun y => { y with owed := y.owed ++ [⟨.aperture, ea, .A⟩] }) () s1)
    (hr : if s.core.strand.toNat = x.strand then s1.does raiseOwed () t else t = s1) : s.does (storePerform n) () t := by
  refine does_bind (does_theCore s) ?_
  simp only [hx]
  refine does_bind (does_thePosted s) ?_
  rw [hd]
  refine does_bind (does_attempt_stops hp) (does_bind (does_modCore s _) (does_bind ho ?_))
  split at hr
  · next own =>
    rw [if_pos (by simpa using own)]
    exact hr
  · next other =>
    rw [if_neg (by simpa using other), hr]
    exact does_pure s1 ()

end

/-! ### Posted reductions (R290 to R293) -/

/-- A posted reduction takes its place in its line's order: it is the core's first at its slice, the stream's earlier stores to its
line have performed, and its slice can keep its fault and counts its launch (R290, R292). -/
def State.amonDue (s : State) (n : Nat) (p : Posted) : Prop :=
  (s.core.amons.filter fun e => homeSlice e.2.at_.va == homeSlice p.at_.va).head?.map (·.1) = some n ∧
    (∀ x ∈ s.core.inflight, n ≤ x.serial ∨ x.va / 128 ≠ p.at_.va / 128) ∧ s.pkg.home.clogged (homeSlice p.at_.va) p.dom = false ∧
    ((p.lpkg, p.launch) ∈ s.pkg.home.counted (homeSlice p.at_.va) ∨ (s.pkg.home.counted (homeSlice p.at_.va)).length < 512)

theorem State.amonDue_iff (s : State) (n : Nat) (p : Posted) :
    ((s.core.amons.filter fun e => homeSlice e.2.at_.va == homeSlice p.at_.va).head?.map (·.1) == some n &&
      !(s.core.inflight.any fun x => x.serial < n && x.va / 128 == p.at_.va / 128) &&
      !s.pkg.home.clogged (homeSlice p.at_.va) p.dom && ((s.pkg.home.counted (homeSlice p.at_.va)).contains (p.lpkg, p.launch) ||
        (s.pkg.home.counted (homeSlice p.at_.va)).length < 512)) = true ↔ s.amonDue n p := by
  have stores : (!(s.core.inflight.any fun x => x.serial < n && x.va / 128 == p.at_.va / 128)) = true ↔
      ∀ x ∈ s.core.inflight, n ≤ x.serial ∨ x.va / 128 ≠ p.at_.va / 128 := by
    simp only [Bool.not_eq_true', List.any_eq_false, Bool.and_eq_true, decide_eq_true_eq, beq_iff_eq,
      Decidable.not_and_iff_not_or_not, Nat.not_lt, ne_eq]
  rw [amonDue, Bool.and_eq_true, Bool.and_eq_true, Bool.and_eq_true, stores]
  simp [and_assoc]

theorem amonAccept_does {n : Nat} {p : Posted} (hp : s.core.amons.find? (fun e => e.1 == n) = some (n, p)) (hd : s.amonDue n p) :
    s.does (amonAccept n) () ((s.put fun c => { c with amons := c.amons.filter fun e => e.1 != n }).putPkg
      fun x => { x with home := { x.home with accepted := x.home.accepted ++ [p] } }) := by
  refine does_bind (does_theCore s) ?_
  simp only [hp]
  refine does_bind (does_thePkg s) ?_
  rw [if_pos ((s.amonDue_iff n p).mpr hd)]
  exact does_bind (does_modCore s _) (does_modPkg _ _)

theorem amonAccept_waits {n : Nat} {p : Posted} (hp : s.core.amons.find? (fun e => e.1 == n) = some (n, p)) (hd : ¬ s.amonDue n p) :
    s.does (amonAccept n) () s := by
  refine does_bind (does_theCore s) ?_
  simp only [hp]
  refine does_bind (does_thePkg s) ?_
  rw [if_neg (mt (s.amonDue_iff n p).mp hd)]
  exact does_pure s ()

theorem atomicPerform_does {line : Nat} {p : Posted} (hp : s.pkg.home.accepted.find? (fun p => p.at_.va / 128 == line) = some p)
    (ht : (s.putPkg fun x => { x with home := { x.home with accepted := x.home.accepted.erase p } }).does (performPosted p) () t) :
    s.does (atomicPerform line) () t := by
  refine does_bind (does_thePkg s) ?_
  rw [hp]
  exact does_bind (does_modPkg s _) ht

/-! ### Deferred operations (R293) -/

theorem does_defRingOf (s : State) (dom : Nat) : s.does (defRingOf dom) (lookupD DefRing.reset s.pkg.home.defRings dom) s :=
  does_bind (does_thePkg s) (does_pure s _)

theorem does_setDefRing (s : State) (dom : Nat) (r : DefRing) : s.does (setDefRing dom r) () (s.putPkg fun x => { x with
    home := { x.home with defRings := insertD DefRing.reset x.home.defRings dom r } }) := does_modPkg s _

/-- A dropped operation is told in its launch's status, at the package that holds the launch. -/
theorem dropDeferred_launches {d : Deferred} (h : s.does (dropDeferred d) () s1) :
    (s1.dev.pkg d.lpkg).sched.launches = (s.dev.pkg d.lpkg).sched.launches.map fun l =>
      if l.id == d.launch then { l with extra := combineStatus l.extra statusLate } else l := by
  have told : s.does (dropDeferred d) () _ := does_modPkgAt s d.lpkg fun k => { k with sched := { k.sched with
    launches := k.sched.launches.map fun l => if l.id == d.launch then { l with extra := combineStatus l.extra statusLate } else l } }
  rw [← (does_unique told h).2, State.on_dev, Dev.pkg_setPkg]

/-- The oldest entry that a slice keeps for a domain enters the domain's queue. -/
def takeKept (dom : Nat) : M Unit := do
  match (← thePkg).home.keptFor dom with
  | some (s, k) =>
    modPkg fun x => { x with home := { x.home with overflow := insertD [] x.home.overflow s ((x.home.kept s).erase k) } }
    pushDeferred k
  | none => return

theorem takeKept_none {dom : Nat} (h : s.pkg.home.keptFor dom = none) : s.does (takeKept dom) () s := by
  refine does_bind (does_thePkg s) ?_
  rw [h]
  exact does_pure s ()

theorem takeKept_some {dom k : Nat} {e : Deferred} (h : s.pkg.home.keptFor dom = some (k, e))
    (ht : (s.putPkg fun x => { x with home := { x.home with
      overflow := insertD [] x.home.overflow k ((x.home.kept k).erase e) } }).does (pushDeferred e) () t) : s.does (takeKept dom) () t := by
  refine does_bind (does_thePkg s) ?_
  rw [h]
  exact does_bind (does_modPkg s _) ht

section
variable {dom i : Nat} {d : Deferred} {r : DefRing} (hr : r = lookupD DefRing.reset s.pkg.home.defRings dom)
  (hd : r.open_.find? (fun e => e.1 == r.head) = some (i, d))
include hr hd

theorem deferredResolve_drops (hc : d.cause ≠ .translate ∧ d.cause ≠ .owner) (h1 : s.does (dropDeferred d) () s1)
    (h2 : s1.does (setDefRing dom { r with head := r.head + 1, open_ := r.open_.filter fun e => e.1 != i }) () s2)
    (ht : s2.does (takeKept dom) () t) : s.does (deferredResolve dom) () t := by
  refine does_bind (does_defRingOf s dom) ?_
  rw [← hr]
  simp only [hd]
  rw [if_neg (by simpa using hc)]
  exact does_bind h1 (does_bind h2 ht)

theorem deferredResolve_reports {n : Nat} (hc : d.cause = .translate ∨ d.cause = .owner)
    (h1 : s.does (openReport d.cause (BitVec.ofNat 64 d.at_.va) (BitVec.ofNat 64 d.at_.va) dom d.core (.deferred i)) n s1)
    (h2 : s1.does (setDefRing dom { r with head := r.head + 1, open_ := r.open_.map fun e =>
      if e.1 == i then (i, { e.2 with report := some n }) else e }) () s2)
    (ht : s2.does (takeKept dom) () t) : s.does (deferredResolve dom) () t := by
  refine does_bind (does_defRingOf s dom) ?_
  rw [← hr]
  simp only [hd]
  rw [if_pos (by simpa using hc)]
  exact does_bind h1 (does_bind h2 ht)

end

/-! ### Fills, walks and host accesses (R39, R296, R314) -/

section
variable {va : Nat} (hva : va < windowBase)
include hva

section
variable {part : Nat} (hp : s.does thePart part s)
include hp

theorem lineFill_does {v : Reach} (h : s.does (runHome 0 0 (reach part va)) v t) : s.does (lineFill va) () t := by
  unfold lineFill
  rw [if_neg (Nat.not_le.mpr hva)]
  exact does_bind hp (does_bind (does_attempt h) (does_pure t ()))

theorem lineFill_stops {e : Stop} (h : s.stops (runHome 0 0 (reach part va)) e) (he : ∀ f, e ≠ .halt f) : s.does (lineFill va) () s := by
  unfold lineFill
  rw [if_neg (Nat.not_le.mpr hva)]
  refine does_bind hp (does_bind (does_attempt_stops h) ?_)
  cases e with
  | halt f => exact absurd rfl (he f)
  | _ => exact does_pure s ()

end

theorem pageWalk_does {v : Trans} (h : s.does (runHome 0 0 (freeWalk va)) v t) : s.does (pageWalk va) () t := by
  unfold pageWalk
  rw [if_neg (Nat.not_le.mpr hva)]
  exact does_bind (does_attempt h) (does_pure t ())

theorem pageWalk_stops {e : Stop} (h : s.stops (runHome 0 0 (freeWalk va)) e) (he : ∀ f, e ≠ .halt f) : s.does (pageWalk va) () s := by
  unfold pageWalk
  rw [if_neg (Nat.not_le.mpr hva)]
  refine does_bind (does_attempt_stops h) ?_
  cases e with
  | halt f => exact absurd rfl (he f)
  | _ => exact does_pure s ()

end

theorem hostMemAccess_unreached {fn va v : Nat} {w : Bool} (hr : s.pkg.hostReaches fn va = false) :
    s.does (hostMemAccess ⟨fn, w⟩ va v) () s := by
  refine does_bind (does_thePkg s) ?_
  rw [if_pos (by simp [hr])]
  exact does_pure s ()

theorem hostMemAccess_does {fn va v : Nat} {w : Bool} (ha : va % 8 = 0) (hva : va < windowBase) (hr : s.pkg.hostReaches fn va = true)
    (h : s.does (if w then writeBytesNow 0 0 true 0 va 8 v else do let _ ← readBytes 0 0 true va 8) () t) :
    s.does (hostMemAccess ⟨fn, w⟩ va v) () t := by
  refine does_bind (does_thePkg s) ?_
  rw [if_neg (by simp [ha, hr, Nat.not_le.mpr hva])]
  exact does_bind (does_attempt h) (does_pure t ())

/-! ### Sweeps and the scrub (R304, R305, R413) -/

/-- Values set key by key: a listed value under each of the keys, and what the map held elsewhere. -/
theorem lookupD_foldl_insertD {α : Type} [DecidableEq α] {d : α} {f : Nat → α} (l : List Nat) (m : List (Nat × α)) (j : Nat)
    (hf : ∀ k ∈ l, f k ≠ d) : lookupD d (l.foldl (fun b k => insertD d b k (f k)) m) j = if j ∈ l then f j else lookupD d m j := by
  induction l generalizing m with
  | nil => simp
  | cons k l ih =>
    rw [List.foldl_cons, ih _ fun k hk => hf k (List.mem_cons_of_mem _ hk), lookupD_insertD _ _ _ (hf k List.mem_cons_self)]
    by_cases hl : j ∈ l
    · simp [hl]
    · by_cases hj : j = k <;> simp [hl, hj]

/-- A slice has an owner of a dirty tag where it has a dirty tag. -/
theorem dirtyOwners_eq_nil {h : Home} {k : Nat} :
    h.dirtyOwners k = [] ↔ k ∉ ((h.tags.filter (·.dirty)).map fun t => homeSlice (128 * t.line)).eraseDups := by
  have owners : h.dirtyOwners k = [] ↔ ∀ d, d ∉ h.dirtyOwners k := List.eq_nil_iff_forall_not_mem
  rw [owners]
  simp only [Home.dirtyOwners, List.mem_eraseDups, List.mem_map, List.mem_filter, Bool.and_eq_true, beq_iff_eq]
  constructor
  · rintro no ⟨t, ⟨ht, hd⟩, hk⟩
    exact no t.wdom ⟨t, ⟨ht, hd, hk⟩, rfl⟩
  · rintro no d ⟨t, ⟨ht, hd, hk⟩, -⟩
    exact no ⟨t, ⟨ht, hd⟩, hk⟩

/-- The bitmap of every slice, from the dirty tags. -/
def Home.sweptBits (h : Home) : List (Nat × List Nat) :=
  (((h.tags.filter (·.dirty)).map fun t => homeSlice (128 * t.line)).eraseDups).foldl (fun b k => insertD [] b k (h.dirtyOwners k)) []

theorem lookupD_sweptBits (h : Home) (k : Nat) : lookupD [] h.sweptBits k = h.dirtyOwners k := by
  rw [Home.sweptBits, lookupD_foldl_insertD _ _ _ fun k hk none => dirtyOwners_eq_nil.mp none hk]
  split
  · rfl
  · next none => exact (dirtyOwners_eq_nil.mpr none).symm

theorem does_dirtyBitmapSweep (s : State) : s.does dirtyBitmapSweep () (s.putPkg fun x => { x with
    home := { x.home with dirtyBits := x.home.sweptBits }, service := { x.service with swept := s.time } }) :=
  does_bind (does_now s) (does_modPkg s _)

theorem does_scrub (s : State) : s.does scrub () (s.putPkg fun x => { x with service := { x.service with
    cacheScrubbed := s.time
    scrubbed := if scrubPeriod ≤ s.time - x.service.scrubbed then s.time else x.service.scrubbed } }) :=
  does_bind (does_now s) (does_modService s _)

/-! ### Range invalidations (R318) -/

/-- What a control core does once an invalidation has performed. -/
def afterInvalidation : Option Job → M Unit
  | some (.command ctx ring index) => postEvent ctx { blankEvent 6 with ring := ring, index := index }
  | some (.mailbox dom doneVa freed) => do
    giveFrames freed
    mailboxDone dom doneVa 1
  | _ => return

/-- A BTAB that has begun to load its slots touches a range. -/
def Package.loadingIn (x : Package) (lo hi : Nat) : Prop :=
  ∃ c ∈ x.cores, ∃ k ∈ c.2.cmds, k.writing = true ∧ (k.touches lo hi).isSome = true

theorem Package.loadingIn_iff (x : Package) (lo hi : Nat) :
    (x.cores.any fun c => c.2.cmds.any fun k => k.writing && (k.touches lo hi).isSome) = true ↔ x.loadingIn lo hi := by
  simp only [loadingIn, List.any_eq_true, Bool.and_eq_true]

section
variable {id : Nat} {i : Invalidation} (hi : s.pkg.home.invals.find? (fun i => i.id == id) = some i)
include hi

theorem rangeInvalidationPerform_waits (hl : s.pkg.loadingIn i.lo i.hi) : s.does (rangeInvalidationPerform id) () s := by
  refine does_bind (does_thePkg s) (does_bind (does_read s) ?_)
  simp only [hi]
  rw [if_pos ((s.pkg.loadingIn_iff _ _).mpr hl)]
  exact does_pure s ()

theorem rangeInvalidationPerform_does (hl : ¬ s.pkg.loadingIn i.lo i.hi)
    (h1 : s.does (s.pkg.cores.forM fun c => atCore s.cur.pkg c.1 .A (settleCommands i.lo i.hi)) () s1)
    (h2 : s1.does (runHome 0 0 (dropTranslations i.lo i.hi)) () s2)
    (ht : ((s2.putPkg fun x => { x with home := { x.home with invals := x.home.invals.filter fun j => j.id != id } }).putPkg
      fun x => { x with ctl := { x.ctl with jobs := dropAt x.ctl.jobs id } }).does (afterInvalidation (findAt s.pkg.ctl.jobs id)) () t) :
    s.does (rangeInvalidationPerform id) () t := by
  refine does_bind (does_thePkg s) (does_bind (does_read s) ?_)
  simp only [hi]
  rw [if_neg (mt (s.pkg.loadingIn_iff _ _).mp hl)]
  refine does_bind h1 (does_bind h2 (does_bind (does_modPkg s2 _) (does_bind (does_modCtl _ _) ?_)))
  revert ht
  cases findAt s.pkg.ctl.jobs id with
  | none => exact fun ht => ht
  | some job => cases job <;> exact fun ht => ht

end

end

/-- Settles O49: each event is its computations in order; the bitmap of a slice is rebuilt key by key. -/
theorem homeEvents : Obligations.HomeEvents := by
  unfold Obligations.HomeEvents
  intro s s1 s2 s3 t
  dsimp only
  refine ⟨?store, ?accept, ?perform, ?resolve, ?fill, ?host, ?bitmap, ?reconcile, ?scrub, ?range⟩
  case store =>
    intro n x hx
    refine ⟨fun hd => event_next (storePerform_waits hx hd), fun hd =>
      ⟨fun hp => event_next (storePerform_performs hx hd hp), fun ea hp ho => ⟨fun own hr => ?_, fun other => ?_⟩⟩⟩
    · exact event_next (storePerform_lost hx hd hp ho (by rwa [if_pos own]))
    · exact event_next (storePerform_lost hx hd hp ho (by rw [if_neg other]))
  case accept => exact fun n p hp => ⟨fun hd => event_next (amonAccept_does hp hd), fun hd => event_next (amonAccept_waits hp hd)⟩
  case perform => exact fun line p hp ht => event_next (atomicPerform_does hp ht)
  case resolve =>
    intro dom i d hd
    refine ⟨fun ht ho h1 h2 => ⟨dropDeferred_launches h1, fun none => ?_⟩, fun n hc h1 h2 => ⟨fun none => ?_, fun k e some ht => ?_⟩⟩
    · exact event_next (deferredResolve_drops rfl hd ⟨ht, ho⟩ h1 h2 (takeKept_none none))
    · exact event_next (deferredResolve_reports rfl hd hc h1 h2 (takeKept_none none))
    · exact event_next (deferredResolve_reports rfl hd hc h1 h2 (takeKept_some some ht))
  case fill =>
    intro va part hva
    exact ⟨fun v hp hr => event_next (lineFill_does hva hp hr), fun e hp hr he => event_next (lineFill_stops hva hp hr he),
      fun v hr => event_next (pageWalk_does hva hr), fun e hr he => event_next (pageWalk_stops hva hr he)⟩
  case host =>
    intro fn va v x ha hva
    exact ⟨fun hr => event_next (hostMemAccess_unreached hr), fun hr hw => event_next (hostMemAccess_does ha hva hr hw),
      fun hr hx => event_next (hostMemAccess_does ha hva hr (does_bind hx (does_pure t ())))⟩
  case bitmap =>
    refine ⟨_, event_next (does_dirtyBitmapSweep s), ?_⟩
    dsimp only
    rw [State.putPkg_pkg]
    exact ⟨rfl, rfl, fun k => lookupD_sweptBits s.pkg.home k⟩
  case reconcile => exact fun h => event_next (does_bind (does_thePkg s) (does_bind (does_modPkg s _) h))
  case scrub => exact event_next (does_scrub s)
  case range =>
    intro id i hi
    refine ⟨fun hl => event_next (rangeInvalidationPerform_waits hi hl), fun hl h1 h2 => ⟨fun none => ?_,
      fun ctx ring index some ht => ?_, fun dom doneVa freed some hg hm => ?_⟩⟩
    · exact event_next (rangeInvalidationPerform_does hi hl h1 h2 (by rw [none]; exact does_pure _ ()))
    · exact event_next (rangeInvalidationPerform_does hi hl h1 h2 (by rw [some]; exact ht))
    · exact event_next (rangeInvalidationPerform_does hi hl h1 h2 (by rw [some]; exact does_bind hg hm))

end Sys2Proof.Machine
end

section
/-!
PROOF. Archipelagos (R381 to R383, R388): the ARC units, the arrival at a pod barrier, and the departure of an island.
-/

namespace Sys2Proof.Machine

section
variable {s s0 s1 s2 s3 t u m : State}

/-! ### Units of their own commit rule -/

/-- A unit whose effect waits performs nothing, whatever its checks and its commit point. -/
theorem runUnit_blocks {size : Nat} {jt commits : Bool} {checks pre : M Unit} {act : M Flow} (hk : s.does checks () s)
    (hp : s.does pre () m) (ha : m.stops act .block) : s.stops (runUnit size jt commits checks pre act) .block :=
  does_bind_stops (does_attempt hk) (does_bind_stops (does_attempt hp) (does_bind_stops (does_theCore m)
    (does_bind_stops (does_attempt_stops ha) rfl)))

theorem mem_pushPorts {st : Strm} {n : Nat} {p : Port} (h : pushPort st n = some p) : (st, n, p) ∈ pushPorts := by
  unfold pushPort at h
  split at h <;> simp_all [pushPorts]

/-- A result that finds a place finds room before it is written (R86). -/
theorem roomFor_of_dst {d : BitVec 5} {v : Word} (h : s.does (dst d v) () t) : s.does (roomFor d) () s := by
  refine does_bind (does_theStream s) ?_
  cases hp : pushPort s.cur.stream d.toNat with
  | none => exact does_pure s ()
  | some p =>
    refine does_bind (does_theCore s) ?_
    by_cases full : queueDepth ≤ (s.core.queue p).ents.length
    · exact absurd h (not_does_of_stops (dst_waits (mem_pushPorts hp) (pushQ_full full)))
    · rw [if_neg full]
      exact does_pure s ()

/-- A commit point leaves the core's wait. -/
theorem lineWait_of_commitPoint (h : s.does commitPoint () t) : t.core.lineWait = s.core.lineWait :=
  have keeps : Keeps Core.handling commitPoint := keeps_bind keeps_releaseStores fun _ => keeps_modCore fun _ => rfl
  congrArg (·.2.2.2.1) (keeps s () t h)

/-! ### ARC.JOIN and ARC.LEAVE (R381) -/

section
variable {d a : BitVec 5} {v : Word} (ha : s.does (src a) v s1)
include ha

theorem actArcJoin_stranger (hg : s1.dev.arcOf s1.cur.pkg s1.cur.core = none) (hd : s1.does (dst d 1) () s2) :
    s.does (actArcJoin d a) .seq s2 := by
  refine does_bind ha (does_bind (does_gangMember s1) ?_)
  rw [hg]
  exact does_bind hd (does_pure s2 _)

theorem actArcLeave_stranger (hg : s1.dev.arcOf s1.cur.pkg s1.cur.core = none) (hd : s1.does (dst d 1) () s2) :
    s.does (actArcLeave d a) .seq s2 := by
  refine does_bind ha (does_bind (does_gangMember s1) ?_)
  rw [hg]
  exact does_bind hd (does_pure s2 _)

variable {arc : Archipelago × Nat × Nat} (hg : s1.dev.arcOf s1.cur.pkg s1.cur.core = some arc)
include hg

section
variable (hh : natBits v.toNat 63 18 = 0) (hl : natBits v.toNat 11 0 = 0)
include hh hl

theorem actArcJoin_joins (hw : arcState s1.core.arcstat = 1)
    (hs : s1.does (setArcstat (setField (setField s1.core.arcstat 49 48 2) 55 50 (natBits v.toNat 17 12))) () s2)
    (hd : s2.does (dst d 0) () s3) : s.does (actArcJoin d a) .seq s3 := by
  refine does_bind ha (does_bind (does_gangMember s1) ?_)
  rw [hg]
  simp only [hh, hl]
  refine does_bind (does_theCore s1) ?_
  simp only [hw]
  exact does_bind hs (does_bind hd (does_pure s3 _))

theorem actArcJoin_refused (hw : arcState s1.core.arcstat ≠ 1) (hd : s1.does (dst d 2) () s3) :
    s.does (actArcJoin d a) .seq s3 := by
  have other : (arcState s1.core.arcstat != 1) = true := by simpa using hw
  refine does_bind ha (does_bind (does_gangMember s1) ?_)
  rw [hg]
  simp only [hh, hl]
  refine does_bind (does_theCore s1) ?_
  simp only [other]
  exact does_bind hd (does_pure s3 _)

end

section
variable (hv : v = 0)
include hv

theorem actArcLeave_leaves (hw : arcState s1.core.arcstat ≠ 3) (hs : s1.does (leaveArc arc.1.id) () s2)
    (hd : s2.does (dst d 0) () s3) : s.does (actArcLeave d a) .seq s3 := by
  have inside : (arcState s1.core.arcstat == 3) = false := by simpa using hw
  refine does_bind ha (does_bind (does_gangMember s1) ?_)
  rw [hg]
  subst hv
  refine does_bind (does_theCore s1) ?_
  simp only [inside]
  exact does_bind hs (does_bind hd (does_pure s3 _))

theorem actArcLeave_left (hw : arcState s1.core.arcstat = 3) (hd : s1.does (dst d 3) () s3) :
    s.does (actArcLeave d a) .seq s3 := by
  refine does_bind ha (does_bind (does_gangMember s1) ?_)
  rw [hg]
  subst hv
  refine does_bind (does_theCore s1) ?_
  simp only [hw]
  exact does_bind hd (does_pure s3 _)

end

end

/-! ### ARC.BAR (R381, R382) -/

section
variable {d a : BitVec 5} {v : Word}

section
variable (hn : s.core.lineWait = none) (ha : s.does (src a) v s1) (hr : s1.does (roomFor d) () s1)
include hn ha hr

theorem actArcBar_stranger (hg : s1.dev.arcOf s1.cur.pkg s1.cur.core = none) (hd : s1.does (dst d 1) () s2) :
    s.does (actArcBar d a) .seq s2 := by
  refine does_bind (does_theCore s) ?_
  rw [hn]
  refine does_bind ha (does_bind hr (does_bind (does_gangMember s1) ?_))
  rw [hg]
  exact does_bind hd (does_pure s2 _)

variable {arc : Archipelago × Nat × Nat} (hg : s1.dev.arcOf s1.cur.pkg s1.cur.core = some arc) (hv : natBits v.toNat 63 2 = 0)
include hg hv

theorem actArcBar_arrives (hw : arcState s1.core.arcstat = 2) : s.does (actArcBar d a) .wait (s1.put fun c => { c with
    lineWait := some (.podArriving v.toNat (ownWrites s1.dev s1.cur.pkg s1.cur.core)) }) := by
  refine does_bind (does_theCore s) ?_
  rw [hn]
  refine does_bind ha (does_bind hr (does_bind (does_gangMember s1) ?_))
  rw [hg]
  simp only [hv]
  refine does_bind (does_theCore s1) ?_
  simp only [hw]
  exact does_bind (does_bind (does_get s1) (does_bind (does_read s1) (does_bind (does_read s1) (does_pure s1 _))))
    (does_bind (does_modCore s1 _) (does_pure _ _))

theorem actArcBar_refused (hw : arcState s1.core.arcstat ≠ 2)
    (hd : s1.does (dst d (if arcState s1.core.arcstat = 1 then 2 else 3)) () s3) : s.does (actArcBar d a) .seq s3 := by
  have other : (arcState s1.core.arcstat != 2) = true := by simpa using hw
  refine does_bind (does_theCore s) ?_
  rw [hn]
  refine does_bind ha (does_bind hr (does_bind (does_gangMember s1) ?_))
  rw [hg]
  simp only [hv]
  refine does_bind (does_theCore s1) ?_
  simp only [other]
  simp only [beq_iff_eq]
  exact does_bind hd (does_pure s3 _)

end

theorem actArcBar_fired {j : Nat} {g : BitVec 48} (hw : s.core.lineWait = some (.podFired j g))
    (hd : (s.put fun c => { c with lineWait := none }).does (dst d (g.setWidth 64 <<< 16)) () s3) :
    s.does (actArcBar d a) .seq s3 := by
  refine does_bind (does_theCore s) ?_
  rw [hw]
  exact does_bind (does_modCore s _) (does_bind hd (does_pure s3 _))

theorem actArcBar_waits {w : LineWait} (hw : s.core.lineWait = some w) (hf : ∀ j g, w ≠ .podFired j g) :
    s.stops (actArcBar d a) .block := by
  refine does_bind_stops (does_theCore s) ?_
  rw [hw]
  cases w with
  | podFired j g => exact absurd rfl (hf j g)
  | _ => rfl

section
variable (hr : s.ready (.arcBar d a))
include hr

/-- ARC.BAR takes a commit point where it issues, and none where it has waited. -/
theorem execArcBar_next (hp : s.does (if s.core.lineWait.isSome then pure () else commitPoint) () m)
    (ha : m.does (actArcBar d a) .seq u) (h : u.straight .seq) : exec (.arcBar d a) s = .next ((u.past .seq).begun m) :=
  unitOn_does hr.1 (runUnit_next (jt := false) (commits := true) (gate_passes hr) hp ha (.inl rfl) h)

theorem execArcBar_issues (hp : s.does (if s.core.lineWait.isSome then pure () else commitPoint) () m)
    (ha : m.does (actArcBar d a) .wait u) : exec (.arcBar d a) s = .next (u.put fun c => c.issued m.core true) :=
  unitOn_does hr.1 (runUnit_waits (size := 4) (jt := false) (commits := true) (gate_passes hr) hp ha)

theorem execArcBar_waits {w : LineWait} (hw : s.core.lineWait = some w) (hf : ∀ j g, w ≠ .podFired j g) :
    exec (.arcBar d a) s = .next s := by
  have stops : s.stops (runUnit 4 false true (gate (.arcBar d a)) (if s.core.lineWait.isSome then pure () else commitPoint)
      (actArcBar d a)) .block := by
    refine runUnit_blocks (gate_passes hr) ?_ (actArcBar_waits hw hf)
    rw [hw]
    exact does_pure s ()
  exact (if_pos hr.1).trans (perform_blocks stops)

end

end

/-! ### Arrivals (R382) -/

theorem podBarrierArrival_stranger (hg : s.dev.arcOf s.cur.pkg s.cur.core = none) : s.does podBarrierArrival () s := by
  refine does_bind (does_gangMember s) ?_
  rw [hg]
  exact does_pure s ()

section
variable {arc : Archipelago} {i k j : Nat} (hg : s.dev.arcOf s.cur.pkg s.cur.core = some (arc, i, k))
include hg

section
variable {covers : List Nat} (hw : s.core.lineWait = some (.podArriving j covers))
include hw

theorem podBarrierArrival_follows (hc : (ownWrites s.dev s.cur.pkg s.cur.core).any covers.contains = true) :
    s.does podBarrierArrival () s := by
  refine does_bind (does_gangMember s) ?_
  rw [hg]
  refine does_bind (does_theCore s) ?_
  rw [hw]
  refine does_bind (does_get s) (does_bind (does_read s) (does_bind (does_read s) ?_))
  rw [if_pos (show (ownWrites s.dev s.env.pkg s.env.core).any covers.contains = true from hc)]
  exact does_pure s ()

theorem podBarrierArrival_counts (hc : (ownWrites s.dev s.cur.pkg s.cur.core).any covers.contains = false)
    (hm : (s.put fun c => { c with lineWait := some (.podCounted j) }).does (modArc arc.id fun a => { a with
      barriers := a.barriers.setIfInBounds j { (a.barriers.toList.getD j PodBarrier.reset) with
        arrived := (a.barriers.toList.getD j PodBarrier.reset).arrived ++ [(i, k)] } }) () s2)
    (hf : s2.does (firePod arc.id j) () t) : s.does podBarrierArrival () t := by
  refine does_bind (does_gangMember s) ?_
  rw [hg]
  refine does_bind (does_theCore s) ?_
  rw [hw]
  refine does_bind (does_get s) (does_bind (does_read s) (does_bind (does_read s) ?_))
  have clear : ¬ (ownWrites s.dev s.env.pkg s.env.core).any covers.contains = true := Bool.eq_false_iff.mp hc
  rw [if_neg clear]
  exact does_bind (does_modCore s _) (does_bind hm hf)

end

theorem podBarrierArrival_counted (hw : s.core.lineWait = some (.podCounted j)) (hf : s.does (firePod arc.id j) () t) :
    s.does podBarrierArrival () t := by
  refine does_bind (does_gangMember s) ?_
  rw [hg]
  refine does_bind (does_theCore s) ?_
  rw [hw]
  exact hf

end

/-! ### Departures (R383, R388) -/

theorem islandDepart_stranger (hg : s.dev.arcOf s.cur.pkg s.cur.core = none) : s.does islandDepart () s := by
  refine does_bind (does_gangMember s) ?_
  rw [hg]
  exact does_pure s ()

/-- Every island of an archipelago but one has left. -/
def Dev.othersLeft (d : Dev) (arc : Archipelago) (i : Nat) : Bool :=
  (List.range arc.islands.length).all fun o => o == i || ((arc.islands[o]?).map d.islandLeft).getD true

theorem Dev.othersLeft_iff (d : Dev) (arc : Archipelago) (i : Nat) :
    d.othersLeft arc i = true ↔ ∀ o x, o ≠ i → arc.islands[o]? = some x → d.islandLeft x = true := by
  simp only [othersLeft, List.all_eq_true, List.mem_range, Bool.or_eq_true, beq_iff_eq]
  constructor
  · intro left o x ho hx
    have short : o < arc.islands.length := (List.getElem?_eq_some_iff.mp hx).1
    simpa [ho, hx] using left o short
  · intro left o short
    by_cases ho : o = i
    · exact .inl ho
    · right
      rw [List.getElem?_eq_getElem short]
      exact left o _ ho (List.getElem?_eq_getElem short)

section
variable {arc : Archipelago} {i k : Nat} {isl : Island} (hg : s.dev.arcOf s.cur.pkg s.cur.core = some (arc, i, k))
  (hi : arc.islands[i]? = some isl)
include hg hi

theorem islandDepart_waits (ho : s.dev.othersLeft arc i = false) : s.does islandDepart () s := by
  refine does_bind (does_gangMember s) ?_
  rw [hg]
  simp only [hi]
  refine does_bind (does_get s) ?_
  rw [if_neg (by rw [← Dev.othersLeft, ho]; exact Bool.false_ne_true)]
  exact does_pure s ()

theorem islandDepart_does (ho : s.dev.othersLeft arc i = true) (h1 : s.does (isl.held.forM (retireHeld isl)) () s1)
    (h2 : s1.does (modArc arc.id fun a => { a with islands := a.islands.set i { isl with held := [] } }) () s2)
    (ht : s2.does (departIsland arc.id i) () t) : s.does islandDepart () t := by
  refine does_bind (does_gangMember s) ?_
  rw [hg]
  simp only [hi]
  refine does_bind (does_get s) ?_
  unfold Dev.othersLeft at ho
  rw [if_pos ho]
  exact does_bind h1 (does_bind h2 ht)

end

theorem stays_arcs_modCore {arcs : List Archipelago} (f : Core → Core) : Stays (·.arcs = arcs) (modCore f) :=
  stays_bind stays_read fun _ => stays_bind stays_read fun _ => stays_modPkgAt fun _ h => h

/-- A core that is freed leaves the archipelagos. -/
theorem stays_arcs_freeCore {arcs : List Archipelago} : Stays (·.arcs = arcs) freeCore :=
  stays_bind (stays_arcs_modCore _) fun _ => stays_arcs_modCore _

/-- The strand of an island core has ended, or is forgotten. -/
def Dev.coreGone (d : Dev) (isl : Island) (k : Nat) : Bool := ((d.islandStrand isl k).map (·.state.ended)).getD true

theorem does_modArc (s : State) (id : Nat) (f : Archipelago → Archipelago) :
    s.does (modArc id f) () (s.on { s.dev with arcs := s.dev.arcs.map fun a => if a.id == id then f a else a }) := ⟨rfl, rfl⟩

/-- An archipelago is found again once it is changed and keeps its number. -/
theorem find_arc_changed {arcs : List Archipelago} {id : Nat} {arc : Archipelago} {f : Archipelago → Archipelago}
    (hf : ∀ a, (f a).id = a.id) (h : arcs.find? (fun a => a.id == id) = some arc) :
    (arcs.map fun a => if a.id == id then f a else a).find? (fun a => a.id == id) = some (f arc) := by
  have same : ((fun a : Archipelago => a.id == id) ∘ fun a => if a.id == id then f a else a) = fun a => a.id == id := by
    funext a
    simp only [Function.comp_apply]
    split
    · rw [hf]
    · rfl
  have named := List.find?_some h
  rw [List.find?_map, same, h, Option.map_some, if_pos named]

section
variable {arc : Archipelago} {i : Nat} {isl : Island} (ha : s.dev.arcs.find? (fun a => a.id == arc.id) = some arc)
  (hi : arc.islands[i]? = some isl)
include ha hi

theorem departIsland_waits (hk : ∃ k < isl.cores.length, s.dev.coreGone isl k = false) : s.does (departIsland arc.id i) () s := by
  obtain ⟨k, hk, here⟩ := hk
  refine does_bind (does_get s) ?_
  simp only [ha, Option.bind_some, hi]
  rw [if_neg]
  · exact does_pure s ()
  · simp only [Bool.and_eq_true, List.all_eq_true, List.mem_range]
    rintro ⟨-, ended⟩
    have ends := ended k hk
    revert ends here
    unfold Dev.coreGone
    cases s.dev.islandStrand isl k <;> simp

/-- With its last strand an island departs, and holds no end any more. -/
theorem departIsland_departs (hd : isl.departed = false) (hk : ∀ k < isl.cores.length, s.dev.coreGone isl k = true)
    (h : s.does (departIsland arc.id i) () t) :
    ∃ a, t.dev.arcs.find? (fun a => a.id == arc.id) = some a ∧ a.islands[i]? = some { isl with held := [], departed := true } := by
  obtain ⟨_, _, hs, h⟩ := does_of_bind h
  obtain ⟨rfl, rfl⟩ := does_unique (does_get s) hs
  simp only [ha, Option.bind_some, hi] at h
  rw [if_pos] at h
  case hc =>
    simp only [hd, Bool.not_false, Bool.true_and, List.all_eq_true, List.mem_range]
    intro k short
    have gone := hk k short
    revert gone
    unfold Dev.coreGone
    cases s.dev.islandStrand isl k <;> simp
  obtain ⟨_, u, hf, h⟩ := does_of_bind h
  have arcs : u.dev.arcs = s.dev.arcs := by
    refine stays_forM (P := (·.arcs = s.dev.arcs)) _ (fun k => ?_) s () u hf rfl
    exact stays_bind (stays_bind stays_get fun _ => stays_pure _) fun _ =>
      stays_ite (stays_atCore stays_arcs_freeCore) (stays_pure _)
  rw [← (does_unique (does_modArc u _ _) h).2, State.on_dev, arcs]
  refine ⟨_, find_arc_changed (fun _ => rfl) ha, ?_⟩
  have short : i < arc.islands.length := (List.getElem?_eq_some_iff.mp hi).1
  exact List.getElem?_set_self short

end

end

/-- Settles O46: each unit and event is its computations in order; an island's last strand lets it depart. -/
theorem archipelagos : Obligations.Archipelagos := by
  unfold Obligations.Archipelagos
  refine ⟨fun d a s s0 s1 s2 s3 v => ⟨?stranger, ?member⟩, fun s t => ⟨?none, ?event, ?departure⟩⟩
  case stranger =>
    intro hc ha hg hd hs hn i hi hr
    have here : s1.cur = s.cur := (cur_eq_of_does ha).trans (cur_eq_of_does hc)
    rw [← here] at hg
    simp only [List.mem_cons, List.not_mem_nil, or_false] at hi
    rcases hi with rfl | rfl | rfl
    · exact loneCommit_next hr hc (actArcJoin_stranger ha hg hd) (.inl rfl) hs
    · exact loneCommit_next hr hc (actArcLeave_stranger ha hg hd) (.inl rfl) hs
    · refine execArcBar_next hr ?_ (actArcBar_stranger ((lineWait_of_commitPoint hc).trans hn) ha (roomFor_of_dst hd) hg hd) hs
      rw [hn]
      exact hc
  case member =>
    refine ⟨fun arc hc ha hg => ?_, fun w hr hw => ⟨?_, execArcBar_waits hr hw⟩⟩
    · have here : s1.cur = s.cur := (cur_eq_of_does ha).trans (cur_eq_of_does hc)
      rw [← here] at hg ⊢
      refine ⟨fun hr hh hl => ⟨fun hw h2 hd hs => ?_, fun hw hd hs => ?_⟩, fun hr hv => ⟨fun hw h2 hd hs => ?_, fun hw hd hs => ?_⟩,
        fun hr hv hn hn0 hroom => ⟨fun hw => ?_, fun hw hd hs => ?_⟩⟩
      · exact loneCommit_next hr hc (actArcJoin_joins ha hg hh hl hw h2 hd) (.inl rfl) hs
      · exact loneCommit_next hr hc (actArcJoin_refused ha hg hh hl hw hd) (.inl rfl) hs
      · exact loneCommit_next hr hc (actArcLeave_leaves ha hg hv hw h2 hd) (.inl rfl) hs
      · exact loneCommit_next hr hc (actArcLeave_left ha hg hv hw hd) (.inl rfl) hs
      · refine execArcBar_issues hr ?_ (actArcBar_arrives hn0 ha hroom hg hv hw)
        rw [hn]
        exact hc
      · refine execArcBar_next hr ?_ (actArcBar_refused hn0 ha hroom hg hv hw hd) hs
        rw [hn]
        exact hc
    · rintro j g rfl hd hs
      refine execArcBar_next hr ?_ (actArcBar_fired hw hd) hs
      rw [hw]
      exact does_pure s ()
  case none => exact fun hg => ⟨event_next (podBarrierArrival_stranger hg), event_next (islandDepart_stranger hg)⟩
  case event =>
    intro arc i k hg
    refine ⟨fun j covers s2 hw => ⟨fun hc => event_next (podBarrierArrival_follows hg hw hc), fun hc hm hf => ?_⟩,
      fun j hw hf => event_next (podBarrierArrival_counted hg hw hf), fun isl s1 s2 hi => ⟨fun ho => ?_, fun ho h1 h2 ht => ?_⟩⟩
    · exact event_next (podBarrierArrival_counts hg hw hc hm hf)
    · refine event_next (islandDepart_waits hg hi (Bool.eq_false_iff.mpr fun left => ?_))
      obtain ⟨o, x, ho, hx, stays⟩ := ho
      exact Bool.false_ne_true (stays.symm.trans ((s.dev.othersLeft_iff arc i).mp left o x ho hx))
    · exact event_next (islandDepart_does hg hi ((s.dev.othersLeft_iff arc i).mpr ho) h1 h2 ht)
  case departure => exact fun arc i isl ha hi hd => ⟨departIsland_waits ha hi, departIsland_departs ha hi hd⟩

end Sys2Proof.Machine
end

section
/-!
PROOF. The host's doorbells, registers and launch commands (R329 to R331, R390, R392, R393, R399): what each way through them leads to.
-/

namespace Sys2Proof.Machine

/-! ### Contexts -/

theorem does_ctxAt (s : State) (c : Nat) : s.does (ctxAt c) (findAt s.pkg.ctl.ctxs c) s := does_bind (does_thePkg s) (does_pure s _)

section
variable {s t : State}

/-! ### Registers and doorbells (R392, R393) -/

theorem doorbell_does {s1 : State} {fn off v c o : Nat} {x : HostCtx} (hp : s.does (pageOf fn off) (some (c, o)) s)
    (hx : findAt s.pkg.ctl.ctxs c = some x) (ho : o % 8 = 0) (hq : o / 8 < x.rings.length) (hc : c = 0 → s.pkg.service.ready = true)
    (hv : v % 2 ^ 12 < 2 ^ x.logn)
    (h1 : s.does (modCtx c fun y => { y with rings := y.rings.modify (o / 8) fun r => { r with tail := v % 2 ^ 12 } }) () s1)
    (ht : s1.does (readEntries c (o / 8) (2 ^ x.logn)) () t) : s.does (doorbell fn off v) () t := by
  refine does_bind hp (does_bind (does_ctxAt s c) ?_)
  rw [hx]
  dsimp only
  rw [if_neg (by simp [ho, hq])]
  by_cases pf : c = 0
  · subst pf
    refine does_bind (does_thePkg s) ?_
    rw [if_neg (by simp [hc rfl]), if_neg (Nat.not_le.mpr hv)]
    exact does_bind h1 ht
  · refine does_bind (does_thePkg s) ?_
    rw [if_neg (by simp [pf]), if_neg (Nat.not_le.mpr hv)]
    exact does_bind h1 ht

theorem eventRingSpace_does {s1 : State} {c n : Nat} {x : HostCtx}
    (h1 : s.does (modCtx c fun x => { x with evHead := Nat.min x.evTail (x.evHead + n), interrupt := false }) () s1)
    (hx : findAt s1.pkg.ctl.ctxs c = some x) (ht : s1.does (writeEvents c (x.evWaiting.length + 1)) () t) :
    s.does (eventRingSpace c n) () t := by
  refine does_bind h1 (does_bind (does_ctxAt s1 c) ?_)
  rw [hx]
  exact ht

theorem registerWrite_pf {off v : Nat} (ho : off < 0x18) (h : s.does (modCtx 0 fun x => x.pfRegister off v) () t) :
    s.does (registerWrite 0 off v) () t := by
  unfold registerWrite
  rw [if_pos (by simp [ho])]
  exact h

/-! ### Plug-ins (R390) -/

section
variable {ctx prio : Nat} {x : HostCtx}

/-- The serving core has run the plug-in, under the plug-in's PMP entries. -/
def State.served (s : State) (ctx : Nat) (x : HostCtx) : State :=
  s.putPkg fun y => { y with ctl := { y.ctl with cores := y.ctl.cores.modify (x.part % 32) fun c =>
    { c.ran (x.part % 32) with mode := .s, pmp := x.pmp ctx } } }

/-- What a plug-in's access needs. -/
def plugGrants (ctx : Nat) (x : HostCtx) (write : Bool) (a : Nat) : Bool :=
  ({ CtlCore.reset with mode := .u, pmp := x.pmp ctx } : CtlCore).grants write a

/-- A plug-in stores a byte in its own memory: a free one (log 109). -/
def State.plugStore (s : State) (ctx : Nat) (x : HostCtx) (at_ : Nat) (y : HostCtx) : HostCtx :=
  let off := at_ - (Config.pluginRegion ctx).toNat
  let runs := (s.pkg.ctl.cores.getD (x.part % 32) CtlCore.reset).runs
  { y with pluginMem := y.pluginMem.write off 1 (Config.pluginByte (x.part % 32) runs off).toNat }

theorem plugRun_advises (h : prio < 64) : s.does (plugRun ctx x prio) true (s.served ctx x) := by
  refine does_bind (does_thePkg s) (does_bind (does_modCtl s _) ?_)
  rw [if_pos h]
  exact does_pure _ true

section
variable (hp : 64 ≤ prio)
include hp

theorem plugRun_reads (hr : prio % 2 = 0) (hg : plugGrants ctx x false ((prio - 64) / 2) = true) :
    s.does (plugRun ctx x prio) true (s.served ctx x) := by
  have reads : (prio % 2 == 1) = false := by simp [hr]
  refine does_bind (does_thePkg s) (does_bind (does_modCtl s _) ?_)
  rw [if_neg (Nat.not_lt.mpr hp)]
  simp only [reads]
  rw [if_pos (show CtlCore.grants _ false _ = true from hg)]
  exact does_pure _ true

theorem plugRun_writes {u : State} (hw : prio % 2 = 1) (hg : plugGrants ctx x true ((prio - 64) / 2) = true)
    (h : (s.served ctx x).does (modCtx ctx (s.plugStore ctx x ((prio - 64) / 2))) () u) : s.does (plugRun ctx x prio) true u := by
  have writes : (prio % 2 == 1) = true := by simp [hw]
  refine does_bind (does_thePkg s) (does_bind (does_modCtl s _) ?_)
  rw [if_neg (Nat.not_lt.mpr hp)]
  simp only [writes]
  rw [if_pos (show CtlCore.grants _ true _ = true from hg)]
  exact does_bind h (does_pure u true)

theorem plugRun_ends {u : State} (hg : plugGrants ctx x (prio % 2 == 1) ((prio - 64) / 2) = false)
    (hu : (s.served ctx x).does (modCtx ctx fun y => { y with plugin := false }) () u) (ht : u.does (addGuilt ctx) () t) :
    s.does (plugRun ctx x prio) false t := by
  refine does_bind (does_thePkg s) (does_bind (does_modCtl s _) ?_)
  rw [if_neg (Nat.not_lt.mpr hp)]
  dsimp only
  rw [if_neg (show ¬ CtlCore.grants _ _ _ = true from Bool.eq_false_iff.mp hg)]
  exact does_bind hu (does_bind ht (does_pure t false))

end

/-! ### Launch commands (R329 to R331) -/

theorem proceed_ring {a : Accepted} {id : Nat} (hr : a.rack = none) (h : s.does (acceptLaunch a) id t) : s.does (proceed a) () t := by
  unfold proceed
  rw [hr]
  exact does_bind h (does_pure t ())

theorem Accepted.raised_rack (a : Accepted) (prio : Nat) : (a.raised prio).rack = a.rack := by
  unfold raised
  split <;> rfl

theorem Accepted.raised_index (a : Accepted) (prio : Nat) : (a.raised prio).index = a.index := by
  unfold raised
  split <;> rfl

theorem Accepted.raised_dom (a : Accepted) (prio : Nat) : (a.raised prio).launch.dom = a.launch.dom := by
  unfold raised
  split <;> rfl

theorem Accepted.raised_ctx (a : Accepted) (prio : Nat) : (a.raised prio).launch.ctx = a.launch.ctx := by
  unfold raised
  split <;> rfl

theorem Accepted.raised_ring (a : Accepted) (prio : Nat) : (a.raised prio).launch.ring = a.launch.ring := by
  unfold raised
  split <;> rfl

section
variable {u : State} {a : Accepted} {id advice : Nat}

theorem advise_absent (hp : x.plugin = false) (h : s.does (proceed a) () t) : s.does (advise ctx x a advice prio) () t := by
  unfold advise
  rw [if_pos (by simp [hp])]
  exact h

variable (hp : x.plugin = true)
include hp

theorem advise_ended (hu : s.does (plugRun ctx x prio) false u) (h : u.does (proceed a) () t) : s.does (advise ctx x a advice prio) () t := by
  unfold advise
  rw [if_neg (by simp [hp])]
  exact does_bind hu h

theorem advise_proceeds (ha : advice ≠ 1) (hu : s.does (plugRun ctx x prio) true u) (h : u.does (proceed (a.raised prio)) () t) :
    s.does (advise ctx x a advice prio) () t := by
  unfold advise
  rw [if_neg (by simp [hp])]
  refine does_bind hu ?_
  rw [if_neg (by simp), if_neg (by simpa using ha)]
  exact h

theorem advise_holds (hu : s.does (plugRun ctx x prio) true u) : s.does (advise ctx x a 1 prio) ()
    (u.putPkg fun y => { y with ctl := { y.ctl with plugHeld := y.ctl.plugHeld ++ [(ctx, a.raised prio)] } }) := by
  unfold advise
  rw [if_neg (by simp [hp])]
  refine does_bind hu ?_
  rw [if_neg (by simp), if_pos (beq_self_eq_true 1)]
  exact does_modCtl u _

end

section
variable {u u1 : State} {kinds : Nat → Bool} {ring advice : Nat} {f : Fetched} (ha : advice < 2)
  (hn : s.does (nextEntry ctx ring kinds) (some (x, f)) u)
include ha hn

theorem launchEvent_accepts {a : Accepted} (hv : u.does (validateLaunch ctx ring x.part f.bytes.toNat) (.ok a) u1)
    (h : u1.does (advise ctx x { a with index := f.index, rack := none } advice prio) () t) :
    s.does (launchEvent kinds ctx ring advice prio) () t := by
  unfold launchEvent
  rw [if_neg (Nat.not_le.mpr ha)]
  exact does_bind hn (does_bind hv h)

theorem launchEvent_refuses {n : Nat} (hv : u.does (validateLaunch ctx ring x.part f.bytes.toNat) (.error n) u1)
    (h : u1.does (refuse ctx f n) () t) : s.does (launchEvent kinds ctx ring advice prio) () t := by
  unfold launchEvent
  rw [if_neg (Nat.not_le.mpr ha)]
  exact does_bind hn (does_bind hv h)

end

/-! ### Held launches (R390, R399) -/

theorem proceedHeld_stopped {a : Accepted} (hd : s.does (domStopped a.launch.dom) true s) (hr : a.rack = none)
    (h : s.does (guiltEvent a.launch.ctx { blankEvent 1 with code := 11, ring := a.launch.ring, index := a.index }) () t) :
    s.does (proceedHeld a) () t := by
  refine does_bind hd ?_
  rw [hr]
  exact h

theorem proceedHeld_goes {a : Accepted} (hd : s.does (domStopped a.launch.dom) false s) (h : s.does (proceed a) () t) :
    s.does (proceedHeld a) () t := does_bind hd h

theorem launchEvent_releases {u : State} {n ring : Nat} {kinds : Nat → Bool} {h : Nat × Accepted} (hx : findAt s.pkg.ctl.ctxs ctx = some x)
    (hp : x.plugin = true) (hu : s.does (plugRun ctx x prio) true u) (hh : (u.pkg.ctl.plugHeld.filter fun h => h.1 == ctx)[n]? = some h)
    (hk : kinds h.2.launch.kind = true)
    (ht : (u.putPkg fun y => { y with ctl := { y.ctl with plugHeld := y.ctl.plugHeld.erase h } }).does (proceedHeld (h.2.raised prio)) () t) :
    s.does (launchEvent kinds ctx ring (n + 2) prio) () t := by
  unfold launchEvent
  rw [if_pos (Nat.le_add_left 2 n)]
  refine does_bind (does_ctxAt s ctx) ?_
  rw [hx]
  dsimp only
  rw [if_pos hp]
  refine does_bind hu (does_bind (does_thePkg u) ?_)
  rw [if_pos rfl, Nat.add_sub_cancel, hh]
  dsimp only
  rw [if_neg (by simp [hk])]
  exact does_bind (does_modCtl u _) ht

end

end

/-- A launch instruction is the launch event of its kinds. -/
theorem exec_launch {i : Nat → Nat → Nat → Nat → Instr} {kinds : Nat → Bool}
    (h : (i, kinds) ∈ [(Instr.launchStrand, strandKind), (.launchGraph, (· == 1)), (.launchLattice, (· == 2)), (.launchArchipelago, (· == 3))])
    (ctx ring advice prio : Nat) (s : State) : exec (i ctx ring advice prio) s = event (launchEvent kinds ctx ring advice prio) s := by
  simp only [List.mem_cons, Prod.mk.injEq, List.not_mem_nil, or_false] at h
  obtain ⟨rfl, rfl⟩ | ⟨rfl, rfl⟩ | ⟨rfl, rfl⟩ | ⟨rfl, rfl⟩ := h <;> rfl

/-- Settles O54: each command goes the way that its checks, its plug-in and its advice lead it. -/
theorem hostCommands : Obligations.HostCommands := by
  unfold Obligations.HostCommands
  refine ⟨fun s t fn off v c n => ⟨?doorbell, ?space, ?register⟩, fun ctx ring prio advice i kinds s u u1 u2 t x => ?_⟩
  case doorbell => exact fun o x hp hx ho hq hc hv s1 h1 ht => event_next (doorbell_does hp hx ho hq hc hv h1 ht)
  case space => exact fun x s1 h1 hx ht => event_next (eventRingSpace_does h1 hx ht)
  case register =>
    rintro rfl ho h
    exact event_next (registerWrite_pf ho h)
  intro hi
  dsimp only
  have run (advice : Nat) {w : State} (h : s.does (launchEvent kinds ctx ring advice prio) () w) :
      exec (i ctx ring advice prio) s = .next w := (exec_launch hi ctx ring advice prio s).trans (event_next h)
  refine ⟨fun f ha hn => ⟨fun a0 id hv => ⟨?absent, ?ended, ?lives⟩, ?refused⟩, ?held, ?plugin⟩
  case absent => exact fun hp h => run _ (launchEvent_accepts ha hn hv (advise_absent hp (proceed_ring rfl h)))
  case ended => exact fun hp hu h => run _ (launchEvent_accepts ha hn hv (advise_ended hp hu (proceed_ring rfl h)))
  case lives =>
    refine fun hp hu => ⟨?_, ?_⟩
    · rintro rfl h
      exact run _ (launchEvent_accepts ha hn hv (advise_proceeds hp Nat.zero_ne_one hu (proceed_ring (Accepted.raised_rack _ _) h)))
    · rintro rfl
      exact run _ (launchEvent_accepts ha hn hv (advise_holds hp hu))
  case refused => exact fun n hv h => run _ (launchEvent_refuses ha hn hv h)
  case held =>
    intro h id hx hp hu hh hk hr
    refine ⟨fun hd ht => run _ (launchEvent_releases hx hp hu hh hk (proceedHeld_goes ?_ (proceed_ring ?_ ht))),
      fun hd ht => run _ (launchEvent_releases hx hp hu hh hk (proceedHeld_stopped ?_ ?_ ?_))⟩
    · rwa [Accepted.raised_dom]
    · rwa [Accepted.raised_rack]
    · rwa [Accepted.raised_dom]
    · rwa [Accepted.raised_rack]
    · rwa [Accepted.raised_ctx, Accepted.raised_ring, Accepted.raised_index]
  case plugin =>
    refine ⟨?_, fun hp hw hg h => plugRun_writes hp hw hg h, fun hp hg hu h => plugRun_ends hp hg hu h⟩
    intro allowed
    by_cases advises : prio < 64
    · exact plugRun_advises advises
    · obtain ⟨hg, hr⟩ := allowed.resolve_left advises
      exact plugRun_reads (Nat.not_lt.mp advises) hr hg

end Sys2Proof.Machine
end

section
/-!
PROOF. Control commands (R307, R310, R318, R360, R394 to R400, R403, R404, R407): what each does once its entry has passed its checks.
-/

namespace Sys2Proof.Machine

theorem does_if_pos {α : Type} {s t : State} {p : Prop} [Decidable p] {x y : M α} {w : α} (h : p) (hx : s.does x w t) :
    s.does (if p then x else y) w t := by
  rwa [if_pos h]

theorem time_eq_of_does {α : Type} {s t : State} {x : M α} {v : α} (h : s.does x v t) : t.time = s.time := by
  rw [h.2]
  rfl

section
variable {s u u1 u2 u3 t : State} {ctx ring kind : Nat} {named : List (Nat × Nat)} {x : HostCtx} {f : Fetched}

/-! ### A command and its event (R395) -/

/-- The entry at a ring's head is a command of a KIND, with no reserved bit set. -/
def State.heads (s u : State) (ctx ring kind : Nat) (named : List (Nat × Nat)) (x : HostCtx) (f : Fetched) : Prop :=
  s.does (nextEntry ctx ring (· == kind)) (some (x, f)) u ∧ cmdReserved f.bytes.toNat named = false

/-- The event of KIND 6 of a command. -/
def doneEvent (f : Fetched) (arg : Nat) : Event :=
  { blankEvent 6 with ring := f.ring, index := f.index, arg := BitVec.ofNat 64 arg }

section
variable {act : HostCtx → Fetched → Nat → M CmdEnd} (h : s.heads u ctx ring kind named x f)
include h

theorem command_done {arg : Nat} (ha : u.does (act x f f.bytes.toNat) (.done arg) u1) (he : u1.does (postEvent ctx (doneEvent f arg)) () t) :
    s.does (command kind named ctx ring act) () t := by
  obtain ⟨hn, hr⟩ := h
  exact does_bind hn (does_if_neg (by simp [hr]) (does_bind ha he))

theorem command_later (ha : u.does (act x f f.bytes.toNat) .later t) : s.does (command kind named ctx ring act) () t := by
  obtain ⟨hn, hr⟩ := h
  exact does_bind hn (does_if_neg (by simp [hr]) (does_bind ha (does_pure t ())))

theorem command_refused {n : Nat} (ha : u.does (act x f f.bytes.toNat) (.refused n) u1) (he : u1.does (refuse ctx f n) () t) :
    s.does (command kind named ctx ring act) () t := by
  obtain ⟨hn, hr⟩ := h
  exact does_bind hn (does_if_neg (by simp [hr]) (does_bind ha he))

end

/-! ### Partitions and contexts (R392, R394, R396, R397) -/

/-- A dword of a command. -/
abbrev Fetched.word (f : Fetched) : Nat → Nat := cmdWord f.bytes.toNat

theorem partcfg_does {p : PartRec} (h : s.heads u 0 ring 0x80 ((List.range 9).map fun k => (k + 1, 64)) x f)
    (hw : f.word 1 ≤ 63) (hp : (parsePart fun k => f.word (k + 2)) = some p) (hv : natBits (f.word 2) 0 0 = 1)
    (ho : u.does (systemOwned p.saveVa (saveBytes * p.saveN)) true u1)
    (hc : (u.pkg.ctl.parts.any fun q => q.1 != f.word 1 && p.clashes q.2) = false)
    (hd : (u.pkg.ctl.domsOf (f.word 1)).any u.pkg.sched.liveIn = false)
    (hl : (u.pkg.sched.launches.any fun l => l.part == f.word 1) = false)
    (he : ((u1.putPkg fun y => { y with ctl := { y.ctl with parts := setAt y.ctl.parts (f.word 1) p } }).putPkg fun y =>
      { y with home := { y.home with quotas := (List.range 512).foldl (fun qs s =>
        insertD Quota.reset qs (64 * s + f.word 1) (p.quotaIn s)) y.home.quotas } }).does (postEvent 0 (doneEvent f 0)) () t) :
    s.does (partcfg 0 ring) () t := by
  refine command_done h ?_ he
  refine does_bind (does_thePkg u) (does_if_neg (by simp) (does_if_neg (Nat.not_lt.mpr hw) ?_))
  simp only [hp, hv]
  refine does_bind ho (does_if_neg (by simp) (does_if_neg (by rw [hc]; simp) (does_if_neg (by rw [hd, hl]; simp) ?_)))
  exact does_bind (does_modCtl u1 _) (does_bind (does_modPkg _ _) (does_pure _ _))

/-- A context as CTXCFG leaves it: its guilt and its bar stay. -/
def Fetched.ctxOf (f : Fetched) (old : HostCtx) : HostCtx :=
  { HostCtx.reset with
    part := natBits (f.word 1) 13 8, limit := natBits (f.word 1) 21 14, logn := natBits (f.word 1) 29 26, loge := natBits (f.word 1) 33 30
    ringVa := f.word 2, evVa := f.word 3, rings := List.replicate (natBits (f.word 1) 25 22 + 1) { tail := 0, head := 0 }
    guilt := old.guilt, barred := old.barred, plugin := Config.hasPlugin (natBits (f.word 1) 7 0) }

theorem ctxcfg_does (h : s.heads u 0 ring 0x81 [(1, 34), (2, 64), (3, 64)] x f) (hc : 0 < natBits (f.word 1) 7 0)
    (hlim : 0 < natBits (f.word 1) 21 14) (hn : 4 ≤ natBits (f.word 1) 29 26 ∧ natBits (f.word 1) 29 26 ≤ 12)
    (hev : 4 ≤ natBits (f.word 1) 33 30 ∧ natBits (f.word 1) 33 30 ≤ 12) (hp : (findAt u.pkg.ctl.parts (natBits (f.word 1) 13 8)).isSome)
    (h1 : u.does (systemOwned (f.word 2) ((natBits (f.word 1) 25 22 + 1) * 128 * 2 ^ natBits (f.word 1) 29 26)) true u1)
    (h2 : u1.does (systemOwned (f.word 3) (32 * 2 ^ natBits (f.word 1) 33 30)) true u2)
    (hf : u.pkg.sched.inFlight (natBits (f.word 1) 7 0) = false)
    (he : (u2.putPkg fun y => { y with ctl := { y.ctl with ctxs := (setAt y.ctl.ctxs (natBits (f.word 1) 7 0)
      (f.ctxOf ((findAt u.pkg.ctl.ctxs (natBits (f.word 1) 7 0)).getD HostCtx.reset))) } }).does (postEvent 0 (doneEvent f 0)) () t) :
    s.does (ctxcfg 0 ring) () t := by
  refine command_done h ?_ he
  have fits : (natBits (f.word 1) 7 0 == 0 || natBits (f.word 1) 21 14 == 0 || decide (natBits (f.word 1) 29 26 < 4) ||
      decide (12 < natBits (f.word 1) 29 26) || decide (natBits (f.word 1) 33 30 < 4) || decide (12 < natBits (f.word 1) 33 30) ||
      (findAt u.pkg.ctl.parts (natBits (f.word 1) 13 8)).isNone) = false := by
    simp [Nat.ne_of_gt hc, Nat.ne_of_gt hlim, hn, hev, hp]
  refine does_bind (does_thePkg u) (does_if_neg (by simp) (does_if_neg (Bool.eq_false_iff.mp fits) ?_))
  refine does_bind h1 (does_bind h2 (does_if_neg (by simp) (does_if_neg (Bool.eq_false_iff.mp hf) ?_)))
  exact does_bind (does_modCtl u2 _) (does_pure _ _)

theorem ctxreset_does (h : s.heads u 0 ring 0x82 [(1, 64)] x f) (hx : (findAt u.pkg.ctl.ctxs (f.word 1)).isSome)
    (h1 : u.does (modCtx (f.word 1) fun y => { y with
      guilt := 0, barred := false, rings := y.rings.map fun r => { r with head := r.tail }
      fetched := if f.word 1 == 0 then y.fetched else [] }) () u1)
    (he : u1.does (postEvent 0 (doneEvent f 0)) () t) : s.does (ctxreset 0 ring) () t := by
  refine command_done h ?_ he
  refine does_if_neg (by simp) (does_bind (does_ctxAt u _) (does_if_neg (by simpa [Option.isSome_iff_ne_none] using hx) ?_))
  exact does_bind h1 (does_pure _ _)

/-! ### Domains, trust and keys (R150, R307, R400) -/

/-- The operands of DOMCFG break a limit (R307). -/
def Fetched.domBad (f : Fetched) : Bool :=
  47 < natBits (f.word 1) 18 13 || f.word 2 % 16 != 0 || windowBase <= f.word 2 || 2 ^ 20 < f.word 3 || f.word 4 % 64 != 0 ||
    f.word 6 % 32 != 0 || f.word 7 < 64 || 65536 < f.word 7 || 2 ^ (f.word 7).log2 != f.word 7 || f.word 8 % 64 != 0 ||
    f.word 9 / 2 ^ 57 != 0 || f.word 9 % 4096 != 0 || f.word 10 / 2 ^ 20 != 0

/-- A domain's entry as DOMCFG writes it: the pool's marks stay where the pool does. -/
def Fetched.domEntry (f : Fetched) (ctx : Nat) (old : Option DomEntry) : DomEntry :=
  let used := match old with
    | some d => if d.pool.va == f.word 4 then d.pool.used.filter (· < f.word 5) else []
    | none => []
  ⟨ctx, natBits (f.word 1) 18 13, f.word 2, f.word 3, BitVec.ofNat 64 (f.word 9), BitVec.ofNat 64 (f.word 10), ⟨f.word 4, f.word 5, used⟩,
    f.word 8, false⟩

theorem domcfg_does (h : s.heads u ctx ring 0x83 ((1, 19) :: (List.range 9).map fun k => (k + 2, 64)) x f)
    (hd : ∀ d, findAt u.pkg.ctl.doms (natBits (f.word 1) 12 0) = some d → d.ctx = ctx) (hb : f.domBad = false)
    (hl : u.pkg.sched.liveIn (natBits (f.word 1) 12 0) = false)
    (hq : let bound := u.putPkg fun y => { y with ctl := { y.ctl with doms := (setAt y.ctl.doms (natBits (f.word 1) 12 0)
        (f.domEntry ctx (findAt u.pkg.ctl.doms (natBits (f.word 1) 12 0)))) } }
      let q := lookupD DefRing.reset u.pkg.home.defRings (natBits (f.word 1) 12 0)
      if q.base != f.word 6 || q.len != f.word 7 then
        bound.does (dropOpen (natBits (f.word 1) 12 0) { DefRing.reset with base := f.word 6, len := f.word 7 }) () u1
      else u1 = bound)
    (he : u1.does (postEvent ctx (doneEvent f 0)) () t) : s.does (domcfg ctx ring) () t := by
  refine command_done h ?_ he
  refine does_bind (does_thePkg u) ?_
  have bound : u.does (do
      modCtl fun k => { k with doms := (setAt k.doms (natBits (f.word 1) 12 0)
        (f.domEntry ctx (findAt u.pkg.ctl.doms (natBits (f.word 1) 12 0)))) }
      let q := lookupD DefRing.reset u.pkg.home.defRings (natBits (f.word 1) 12 0)
      if q.base != f.word 6 || q.len != f.word 7 then
        dropOpen (natBits (f.word 1) 12 0) { DefRing.reset with base := f.word 6, len := f.word 7 }
      return CmdEnd.done 0) (CmdEnd.done 0) u1 := by
    refine does_bind (does_modCtl u _) ?_
    dsimp only at hq ⊢
    split at hq
    · next other =>
      rw [if_pos other]
      exact does_bind hq (does_pure u1 _)
    · next same =>
      rw [if_neg same, hq]
      exact does_pure _ _
  have judged := does_if_neg (x := pure (.refused 13)) (Bool.eq_false_iff.mp hb)
    (does_if_neg (x := pure (.refused 14)) (Bool.eq_false_iff.mp hl) bound)
  revert hd judged
  unfold Fetched.domEntry
  cases findAt u.pkg.ctl.doms (natBits (f.word 1) 12 0) with
  | none => exact fun _ judged => judged
  | some d => exact fun hd judged => does_if_neg (by simpa using hd d rfl) judged

/-- A domain whose operations are dropped has none that a slice keeps, and its queue is the one given. -/
theorem dropOpen_leaves {dom : Nat} {q : DefRing} (h : u.does (dropOpen dom q) () u1) :
    (∀ e ∈ u1.pkg.home.overflow, ∀ d ∈ e.2, d.dom ≠ dom) ∧
      (q ≠ DefRing.reset → lookupD DefRing.reset u1.pkg.home.defRings dom = q) := by
  obtain ⟨_, _, -, h⟩ := does_of_bind h
  obtain ⟨_, _, -, h⟩ := does_of_bind h
  obtain ⟨_, _, -, h⟩ := does_of_bind h
  obtain ⟨_, v, -, h⟩ := does_of_bind h
  obtain ⟨_, w, hw, h⟩ := does_of_bind h
  rw [← (does_unique (does_setDefRing w dom q) h).2, ← (does_unique (does_modPkg v _) hw).2, State.putPkg_pkg, State.putPkg_pkg]
  refine ⟨fun e he d hd => ?_, fun listed => ?_⟩
  · obtain ⟨o, -, rfl⟩ := List.mem_map.mp (List.mem_filter.mp he).1
    simpa using (List.mem_filter.mp hd).2
  · exact (lookupD_insertD _ dom dom listed).trans (if_pos rfl)

theorem domfree_does {d : DomEntry} (h : s.heads u d.ctx ring 0x84 [(1, 64)] x f) (hd : findAt u.pkg.ctl.doms (f.word 1) = some d)
    (hl : u.pkg.sched.liveIn (f.word 1) = false) (h1 : u.does (dropOpen (f.word 1) DefRing.reset) () u1)
    (he : ((u1.putPkg fun y => { y with ctl := { y.ctl with
      doms := dropAt y.ctl.doms (f.word 1), keys := y.ctl.keys.filter fun s => s.2.dom != f.word 1 } }).putPkg fun y =>
      { y with bankSlots := y.bankSlots.filter fun s => s.2.owner != f.word 1 }).does (postEvent d.ctx (doneEvent f 0)) () t) :
    s.does (domfree d.ctx ring) () t := by
  refine command_done h ?_ he
  refine does_bind (does_thePkg u) ?_
  simp only [hd]
  refine does_if_neg (by simp) (does_if_neg (Bool.eq_false_iff.mp hl) (does_bind h1 ?_))
  exact does_bind (does_modCtl u1 _) (does_bind (does_modPkg _ _) (does_pure _ _))

theorem trust_does (h : s.heads u ctx ring 0x85 [(1, 17), (2, 64), (3, 64), (4, 64), (5, 64)] x f) (hc : ctx ≠ 0)
    (ho : u.does (ctxOfDom (natBits (f.word 1) 12 0)) (some ctx) u)
    (he : (u.putPkg fun y => { y with ctl :=
      let rest := y.ctl.trust.filter fun t => t.1 != (natBits (f.word 1) 12 0, natBits (f.word 1) 15 13)
      { y.ctl with trust := if natBits (f.word 1) 16 16 == 1 then rest
        else ((natBits (f.word 1) 12 0, natBits (f.word 1) 15 13), cmdKey f.bytes.toNat) :: rest } }).does
          (postEvent ctx (doneEvent f 0)) () t) : s.does (trust ctx ring) () t := by
  refine command_done h ?_ he
  exact does_bind ho (does_if_neg (by simp [hc]) (does_bind (does_modCtl u _) (does_pure _ _)))

theorem keyset_binds (h : s.heads u 0 ring 0x8C [(1, 22), (2, 64), (3, 64), (4, 64), (5, 64)] x f) (hb : natBits (f.word 1) 21 21 = 0)
    (hk : (u.pkg.ctl.keys.any fun q => q.1 != natBits (f.word 1) 7 0 && q.2.valid && q.2.dom == natBits (f.word 1) 20 8) = false)
    (he : (u.putPkg fun y => { y with ctl := { y.ctl with keys := (setAt y.ctl.keys (natBits (f.word 1) 7 0)
      { key := cmdKey f.bytes.toNat, dom := natBits (f.word 1) 20 8, valid := true }) } }).does (postEvent 0 (doneEvent f 0)) () t) :
    s.does (keyset 0 ring) () t := by
  refine command_done h ?_ he
  refine does_bind (does_thePkg u) (does_if_neg (by simp) (does_if_neg (by simp [hb]) (does_if_neg (Bool.eq_false_iff.mp hk) ?_)))
  exact does_bind (does_modCtl u _) (does_pure _ _)

theorem keyset_clears (h : s.heads u 0 ring 0x8C [(1, 22), (2, 64), (3, 64), (4, 64), (5, 64)] x f) (hb : natBits (f.word 1) 21 21 = 1)
    (he : (u.putPkg fun y => { y with ctl := { y.ctl with keys := dropAt y.ctl.keys (natBits (f.word 1) 7 0) } }).does
      (postEvent 0 (doneEvent f 0)) () t) : s.does (keyset 0 ring) () t := by
  refine command_done h ?_ he
  exact does_bind (does_thePkg u) (does_if_neg (by simp) (does_if_pos (by simp [hb]) (does_bind (does_modCtl u _) (does_pure _ _))))

/-! ### Invalidations (R310, R318) -/

/-- A range of whole pages below the window, as RANGEINV names it. -/
def Fetched.rangeGood (f : Fetched) : Prop :=
  f.word 1 % 4096 = 0 ∧ f.word 2 ≠ 0 ∧ f.word 2 ≤ 2 ^ 32 ∧ f.word 1 + 4096 * f.word 2 ≤ windowBase

theorem Fetched.rangeGood.passes (h : f.rangeGood) : ¬ (f.word 1 % 4096 != 0 || f.word 2 == 0 || decide (2 ^ 32 < f.word 2) ||
    decide (windowBase < f.word 1 + 4096 * f.word 2)) = true := by
  obtain ⟨aligned, some, few, below⟩ := h
  simp only [aligned, bne_self_eq_false, Nat.not_lt.mpr few, Nat.not_lt.mpr below, beq_false_of_ne some]
  simp

section
variable {foreign : Bool} (h : s.heads u ctx ring 0x86 [(1, 64), (2, 64)] x f) (hc : ctx ≠ 0) (hr : f.rangeGood)
  (hf : u.does (foreignLeaf (u.pkg.ctl.domsOf x.part) (f.word 1 + 4096 * f.word 2) (f.word 2) (f.word 1)) foreign u1)
include h hc hr hf

theorem rangeinv_starts (own : foreign = false) (hp : u1.pkg.fabric.pins (f.word 1) (f.word 1 + 4096 * f.word 2) = false)
    (hs : u1.does (startInvalidation (f.word 1) (f.word 1 + 4096 * f.word 2) (.command ctx f.ring f.index)) () t) :
    s.does (rangeinv ctx ring) () t := by
  refine command_later h ?_
  refine does_if_neg (by simpa using hc) (does_if_neg hr.passes (does_bind (does_thePkg u) (does_bind hf (does_bind (does_thePkg u1) ?_))))
  exact does_if_neg (by simp [own, hp]) (does_bind hs (does_pure t _))

theorem rangeinv_refused (bad : foreign = true ∨ u1.pkg.fabric.pins (f.word 1) (f.word 1 + 4096 * f.word 2) = true)
    (ht : u1.does (refuse ctx f 13) () t) : s.does (rangeinv ctx ring) () t := by
  refine command_refused h ?_ ht
  refine does_if_neg (by simpa using hc) (does_if_neg hr.passes (does_bind (does_thePkg u) (does_bind hf (does_bind (does_thePkg u1) ?_))))
  exact does_if_pos (by simpa using bad) (does_pure u1 _)

end

/-- A leaf that is found is owned outside a list of domains. -/
def foreignTo (mine : List Nat) : Option (Nat × Nat × Nat) → Bool
  | some (_, e, _) => !mine.contains (natBits e 25 13)
  | none => false

section
variable {mine : List Nat} {lo hi fuel : Nat} {l : Option (Nat × Nat × Nat)} (hlo : lo < hi) (hl : u.does (leafAt lo) l u1)
include hlo hl

theorem foreignLeaf_ends (he : foreignTo mine l = true ∨ hi ≤ lo + 4096) : u.does (foreignLeaf mine hi (fuel + 1) lo) (foreignTo mine l) u1 := by
  refine does_if_neg (Nat.not_le.mpr hlo) (does_bind hl ?_)
  cases hf : foreignTo mine l with
  | true => exact does_if_pos hf (does_pure u1 true)
  | false =>
    rw [hf] at he
    exact does_if_neg (Bool.eq_false_iff.mp hf) (does_if_pos (he.resolve_left Bool.false_ne_true) (does_pure u1 false))

theorem foreignLeaf_goes {next : Nat} {b : Bool} (hf : foreignTo mine l = false) (hh : lo + 4096 < hi) (hn : u1.does (nextSpan lo) next u2)
    (ht : u2.does (foreignLeaf mine hi fuel next) b t) : u.does (foreignLeaf mine hi (fuel + 1) lo) b t := by
  refine does_if_neg (Nat.not_le.mpr hlo) (does_bind hl ?_)
  exact does_if_neg (Bool.eq_false_iff.mp hf) (does_if_neg (Nat.not_le.mpr hh) (does_bind hn ht))

end

theorem plbshoot_does (h : s.heads u ctx ring 0x87 [(1, 64), (2, 64)] x f) (hc : ctx ≠ 0) (h1 : f.word 1 % 4096 = 0)
    (h2 : f.word 2 % 4096 = 0)
    (he : (u.putPkg fun y => { y with cores := y.cores.map fun c => if u.pkg.ctl.partOf c.1 == some x.part then
      (c.1, { c.2 with plb := c.2.plb.filter fun e => !(f.word 2 == 0 || overlaps (f.word 1) (f.word 1 + f.word 2) e.base (e.base + e.bytes)) })
      else c }).does (postEvent ctx (doneEvent f 0)) () t) : s.does (plbshoot ctx ring) () t := by
  refine command_done h ?_ he
  exact does_if_neg (by simpa using hc) (does_if_neg (by simp [h1, h2]) (does_bind (does_thePkg u) (does_bind (does_modPkg u _) (does_pure _ _))))

/-! ### Fault answers (R169, R293, R398) -/

section
variable {r : Report} (h : s.heads u ctx ring 0x88 [(1, 33)] x f) (hc : ctx ≠ 0)
  (hr : u.pkg.ctl.reports.find? (fun r => r.id == natBits (f.word 1) 31 0) = some r) (ho : u.does (ctxOfDom r.dom) (some ctx) u)
  (h1 : u1 = u.putPkg fun y => { y with ctl := { y.ctl with reports := y.ctl.reports.filter fun r => r.id != natBits (f.word 1) 31 0 } })

/-- What answers a report, by who waits for it. -/
def answerReport (r : Report) (refused : Bool) : M CmdEnd := do
  match r.who with
  | .strand va _ st =>
    match ← findStrand va with
    | some s => if !s.state.ended then answerStrand s r st refused
    | none => pure ()
  | .deferred i =>
    if refused then
      match (← defRingOf r.dom).open_.find? fun e => e.1 == i with
      | some e => dropDeferred e.2
      | none => pure ()
      closeDeferred r.dom i
    else replayDeferred r.dom i
  | .command => pure ()
  return .done 0

include h hc hr ho h1

theorem faultres_does (ha : u1.does (answerReport r (natBits (f.word 1) 32 32 == 1)) (.done 0) u2)
    (he : u2.does (postEvent ctx (doneEvent f 0)) () t) : s.does (faultres ctx ring) () t := by
  refine command_done h ?_ he
  subst h1
  refine does_bind (does_thePkg u) (does_if_neg (by simpa using hc) ?_)
  simp only [hr]
  exact does_bind ho (does_if_neg (by simp) (does_bind (does_modCtl u _) ha))

end

section
variable {r : Report} {refused : Bool}

theorem answerReport_strand {va c : Nat} {str : Strm} {st : Strand} (hw : r.who = .strand va c str) (hs : u.does (findStrand va) (some st) u)
    (hl : st.state.ended = false) (ha : u.does (answerStrand st r str refused) () t) : u.does (answerReport r refused) (.done 0) t := by
  unfold answerReport
  rw [hw]
  exact does_bind hs (does_if_pos (by simp [hl]) (does_bind ha (does_pure t _)))

theorem answerReport_replays {i : Nat} (hw : r.who = .deferred i) (ha : u.does (replayDeferred r.dom i) () t) :
    u.does (answerReport r false) (.done 0) t := by
  unfold answerReport
  rw [hw]
  exact does_bind ha (does_pure t _)

theorem answerReport_drops {i : Nat} {e : Nat × Deferred} (hw : r.who = .deferred i)
    (he : (lookupD DefRing.reset u.pkg.home.defRings r.dom).open_.find? (fun e => e.1 == i) = some e) (h1 : u.does (dropDeferred e.2) () u1)
    (ht : u1.does (closeDeferred r.dom i) () t) : u.does (answerReport r true) (.done 0) t := by
  unfold answerReport
  rw [hw]
  refine does_bind (does_defRingOf u r.dom) ?_
  simp only [he]
  exact does_bind h1 (does_bind ht (does_pure t _))

/-- A strand as its answer leaves it: READY, and owing its fault where that is refused. -/
def Strand.answered (o : Strand) (r : Report) (str : Strm) (refused : Bool) : Strand :=
  { o with owed := o.owed ++ (if refused then [⟨r.cause, r.ea, str⟩] else []), state := .ready }

section
variable {str : Strm} {st : Strand} {q : Nat} (hq : st.onCore = some q)
include hq

theorem answerStrand_resolving {p : Pending} (hm : (u.pkg.core q).mode = .resolving p)
    (ht : u.does (setStrand st.va fun o => o.answered r str refused) () t) : u.does (answerStrand st r str refused) () t := by
  refine does_bind (does_read u) ?_
  simp only [hq]
  refine does_bind (does_coreAt u _ _) ?_
  rw [show ((u.dev.pkg u.env.pkg).core q).mode = .resolving p from hm]
  exact ht

theorem answerStrand_stopped {p : Pending} (hm : (u.pkg.core q).mode = .stopped (some p))
    (h1 : u.does (modCoreAt u.cur.pkg q fun c => { c with mode := .stopped none }) () u1)
    (ht : u1.does (setStrand st.va fun o => o.answered r str refused) () t) : u.does (answerStrand st r str refused) () t := by
  refine does_bind (does_read u) ?_
  simp only [hq]
  refine does_bind (does_coreAt u _ _) ?_
  rw [show ((u.dev.pkg u.env.pkg).core q).mode = .stopped (some p) from hm]
  exact does_bind h1 ht

end

end

section
variable {dom i : Nat} {e : Nat × Deferred} {part : Option Nat}
  (hi : (lookupD DefRing.reset u.pkg.home.defRings dom).open_.find? (fun e => e.1 == i) = some e) (hp : u.does (partOfDom dom) part u)
include hi hp

/-- The posted reduction that replays a deferred operation. -/
def Deferred.replayed (d : Deferred) (pkg dom part index : Nat) (m : Bool) : Posted :=
  ⟨0, pkg, d.core, dom, part, d.launch, d.lpkg, m, some index, d.at_⟩

theorem replayDeferred_accepted {m : Bool} (hr : u.does (checkRightsFresh needWA dom e.2.at_.va) m u1) :
    u.does (replayDeferred dom i) () (u1.putPkg fun y => { y with home := { y.home with
      accepted := y.home.accepted ++ [e.2.replayed u.cur.pkg dom (part.getD 0) i m] } }) := by
  refine does_bind (does_defRingOf u dom) ?_
  simp only [hi]
  exact does_bind hp (does_bind (does_read u) (does_bind (does_attempt hr) (does_modPkg u1 _)))

theorem replayDeferred_again {c : Cause} {ea : Word} (hr : u.stops (checkRightsFresh needWA dom e.2.at_.va) (.raise c ea))
    (h1 : u.does (defer (e.2.replayed u.cur.pkg dom (part.getD 0) i false) c) () u1) (ht : u1.does (closeDeferred dom i) () t) :
    u.does (replayDeferred dom i) () t := by
  refine does_bind (does_defRingOf u dom) ?_
  simp only [hi]
  exact does_bind hp (does_bind (does_read u) (does_bind (does_attempt_stops hr) (does_bind h1 ht)))

end

/-! ### TEARDOWN, PREEMPT and RESTORE (R360, R403, R404, R407) -/

theorem teardown_does (h : s.heads u ctx ring 0x89 [(1, 4)] x f) (hc : ctx ≠ 0)
    (h1 : u.does ((u.pkg.sched.launches.filter fun l => l.ctx == ctx && l.ring == f.word 1).forM fun l => tearLaunch l.id) () u1)
    (h2 : u1.does (tearHeld ctx (f.word 1)) () u2) (he : u2.does (postEvent ctx (doneEvent f 0)) () t) : s.does (teardown ctx ring) () t := by
  refine command_done h ?_ he
  exact does_if_neg (by simpa using hc) (does_bind (does_thePkg u) (does_bind h1 (does_bind h2 (does_pure u2 _))))

section
variable {l : Launch} (h : s.heads u ctx ring 0x8A [(1, 32)] x f) (hc : ctx ≠ 0) (hl : u.does (findLaunch (f.word 1)) (some l) u) (ho : l.ctx = ctx)
  {all cs : List (Nat × Nat)} (ha : all = u.dev.launchCores u.cur.pkg (f.word 1))
  (hcs : cs = all.filter fun q => ((u.dev.pkg q.1).core q.2).stoppable)
  (hi : (all.any fun q => ((u.dev.pkg q.1).core q.2).mode == .idle && (u.dev.pkg q.1).sched.strands.any fun s =>
    s.onCore == some q.2 && s.state == .running) = false) (hs : slotsSuffice u.dev cs = true)
  (h1 : u.does (cs.forM fun q => atCore q.1 q.2 .A (stopCore true)) () u1)
  {stopped left : List (Nat × Nat)} (hst : stopped = all.filter fun q => ((u1.dev.pkg q.1).core q.2).stopping)
  (hleft : left = stopped.map fun q => (q.1, ((u1.dev.pkg q.1).core q.2).strand.toNat))
  (h2 : u1.does (stopped.forM fun q => modCoreAt q.1 q.2 fun c => { c with byHost := true }) () u2)
include h hc hl ho ha hcs hi hs h1 hst hleft h2

theorem preempt_done (none : left = []) (he : u2.does (postEvent ctx (doneEvent f (f.word 1))) () t) : s.does (preempt ctx ring) () t := by
  have enough : ¬ (!slotsSuffice u.dev cs) = true := by simp [hs]
  have gone : left.isEmpty = true := by simp [none]
  refine command_done h ?_ he
  subst hst hleft hcs ha ho
  refine does_if_neg (by simpa using hc) (does_bind hl (does_if_neg (by simp) (does_bind (does_get u) (does_bind (does_read u) ?_))))
  refine does_if_neg (Bool.eq_false_iff.mp hi) (does_if_neg enough (does_bind h1 (does_bind (does_get u1) (does_bind h2 ?_))))
  exact does_if_pos gone (does_pure u2 _)

theorem preempt_waits (some : left ≠ []) : s.does (preempt ctx ring) () (u2.putPkg fun y => { y with ctl := { y.ctl with
    preempts := y.ctl.preempts ++ [⟨ctx, f.ring, f.index, f.word 1, left⟩] } }) := by
  have enough : ¬ (!slotsSuffice u.dev cs) = true := by simp [hs]
  have stay : ¬ left.isEmpty = true := by simpa using some
  refine command_later h ?_
  subst hst hleft hcs ha ho
  refine does_if_neg (by simpa using hc) (does_bind hl (does_if_neg (by simp) (does_bind (does_get u) (does_bind (does_read u) ?_))))
  refine does_if_neg (Bool.eq_false_iff.mp hi) (does_if_neg enough (does_bind h1 (does_bind (does_get u1) (does_bind h2 ?_))))
  exact does_if_neg stay (does_bind (does_modCtl u2 _) (does_pure _ _))

end

/-- The strands of a gang that is restored are no longer stopped by the host. -/
def Dev.unstopped (d : Dev) (group : List (Nat × Nat)) : Dev :=
  { d with pkgs := d.pkgs.map fun k => (k.1, { k.2 with sched := { k.2.sched with
    strands := k.2.sched.strands.map fun o => if group.contains (k.1, o.va) then { o with hostStop := false } else o } }) }

theorem restore_does {u4 : State} {st : Strand} {hdr : Header} {v : Nat} {plan : Plan} {bad : Bool} (h : s.heads u ctx ring 0x8B [(1, 64)] x f)
    (hc : ctx ≠ 0) (hw : f.word 1 % 64 = 0) (h1 : u.does (checkImage true (f.word 1)) (.ok (st, hdr, v)) u1)
    (ho : u1.does (ctxOfDom st.dom) (some ctx) u1) (hp : u1.does (partOfCore u1.cur.core) (some x.part) u1) (hq : st.onCore = none)
    (hr : u1.does (refuseRecords ((u1.dev.gangOf u1.cur.pkg st).filterMap fun q =>
      if q.2.savedAt.isNone then some (q.1, 0, q.2) else none)) bad u4)
    (h2 : u2 = u4.on (u4.dev.unstopped ((u4.dev.gangOf u1.cur.pkg st).map fun q => (q.1, q.2.va))))
    (hplan : u2.dev.planFor u1.time u1.cur.pkg u1.cur.core st = some plan)
    (h3 : u2.does (restoreGang st hdr v (plan.map fun q => (q.1, q.2.1, { q.2.2 with hostStop := false }))) none u3)
    (he : u3.does (postEvent ctx (doneEvent f (f.word 1))) () t) : s.does (restore ctx ring) () t := by
  refine command_done h ?_ he
  refine does_if_neg (by simpa using hc) (does_if_neg (by simp [hw]) (does_bind h1 (does_bind (does_read u1) (does_bind ho ?_))))
  refine does_if_neg (by simp) (does_bind hp (does_if_neg (by simp [hq]) (does_bind (does_get u1) (does_bind hr (does_bind (does_get u4) ?_)))))
  have unstops : u4.does (modify fun d => d.unstopped ((u4.dev.gangOf u1.cur.pkg st).map fun q : Nat × Strand => (q.1, q.2.va))) () u2 :=
    h2 ▸ does_modify u4 _
  refine does_bind unstops (does_bind (does_get u2) ?_)
  rw [show Dev.planFor _ u1.env.time u1.env.pkg u1.env.core st = some plan from hplan]
  exact does_bind h3 (does_pure u3 _)

end

/-- Settles O55: each command that passes its checks performs, and its event of KIND 6 follows or waits. -/
theorem controlCommands : Obligations.ControlCommands := by
  unfold Obligations.ControlCommands
  intro ctx ring s u u1 u2 u3 u4 t x f
  dsimp only
  refine ⟨?partcfg, ?ctxcfg, ?ctxreset, ?domcfg, ?dropOpen, ?domfree, ?trust, ?binds, ?clears, ?rangeinv, ?leaf, ?plbshoot, ?faultres,
    ?answer, ?replay, ?teardown, ?preempt, ?restore⟩
  case partcfg =>
    rintro p h rfl hw hp hv ho clear hd none he
    refine event_next (partcfg_does h hw hp hv ho (List.any_eq_false.mpr fun q hq => ?_) hd (List.any_eq_false.mpr fun l hl => ?_) he)
    · rcases clear q hq with own | apart
      · simp [own]
      · simp [apart]
    · simpa using none l hl
  case ctxcfg =>
    rintro c h rfl rfl hc hlim hn hn' hev hev' hp h1 h2 hf he
    exact event_next (ctxcfg_does h hc hlim ⟨hn, hn'⟩ ⟨hev, hev'⟩ hp h1 h2 hf he)
  case ctxreset =>
    rintro h rfl hx h1 he
    exact event_next (ctxreset_does h hx h1 he)
  case domcfg =>
    rintro e h hd hcap h2 h2' h3 h4 h6 h7 h7' hlog h8 h9 h9' h10 hl rfl
    have good : f.domBad = false := by
      simp [Fetched.domBad, Fetched.word, Nat.not_lt.mpr hcap, h2, Nat.not_le.mpr h2', h4, h6, h8, h9', hlog]
      omega
    refine ⟨fun hb hq he => event_next (domcfg_does h hd good hl ?_ he), fun hq h1 he => event_next (domcfg_does h hd good hl ?_ he)⟩
    · dsimp only
      rw [if_neg (by simp [hb, hq])]
      rfl
    · dsimp only
      rw [if_pos (by simpa using hq)]
      exact h1
  case dropOpen => exact fun dom q h => dropOpen_leaves h
  case domfree =>
    rintro d h hd rfl hl h1 he
    exact event_next (domfree_does h hd hl h1 he)
  case trust => exact fun h hc ho he => event_next (trust_does h hc ho he)
  case binds =>
    rintro h rfl hb hk he
    refine event_next (keyset_binds h hb (List.any_eq_false.mpr fun q hq => ?_) he)
    rcases hk q hq with own | blank | other
    · simp [own]
    · simp [blank]
    · simp [other]
  case clears =>
    rintro h rfl hb he
    exact event_next (keyset_clears h hb he)
  case rangeinv =>
    intro foreign h hc hva hn hn' hw hf
    exact ⟨fun own hp hs => event_next (rangeinv_starts h hc ⟨hva, hn, hn', hw⟩ hf own hp hs),
      fun bad ht => event_next (rangeinv_refused h hc ⟨hva, hn, hn', hw⟩ hf bad ht)⟩
  case leaf =>
    intro mine fuel lo hi l hlo hl
    cases l with
    | none => exact ⟨fun he => foreignLeaf_ends hlo hl he, fun next b own hh hn ht => foreignLeaf_goes hlo hl own hh hn ht⟩
    | some l => exact ⟨fun he => foreignLeaf_ends hlo hl he, fun next b own hh hn ht => foreignLeaf_goes hlo hl own hh hn ht⟩
  case plbshoot => exact fun h hc h1 h2 he => event_next (plbshoot_does h hc h1 h2 he)
  case faultres =>
    intro r h hc hr ho h1
    have run {v w : State} (ha : u1.does (answerReport r (natBits (f.word 1) 32 32 == 1)) (.done 0) v)
        (he : v.does (postEvent ctx (doneEvent f 0)) () w) : exec (.faultres ctx ring) s = .next w :=
      event_next (faultres_does h hc hr ho h1 ha he)
    refine ⟨fun va c str st hw hs hl ha he => run (answerReport_strand hw hs hl ha) he, fun i hw granted ha he => run ?_ he,
      fun i e hw refused hi hd hcl he => run ?_ he⟩
    · rw [show (natBits (f.word 1) 32 32 == 1) = false from granted]
      exact answerReport_replays hw ha
    · rw [show (natBits (f.word 1) 32 32 == 1) = true from refused]
      exact answerReport_drops hw hi hd hcl
  case answer => exact fun r str refused st q hq =>
    ⟨fun p hm ht => answerStrand_resolving hq hm ht, fun p hm h1 ht => answerStrand_stopped hq hm h1 ht⟩
  case replay =>
    exact fun dom i e part hi hp => ⟨fun m hr => replayDeferred_accepted hi hp hr, fun c ea hr h1 ht => replayDeferred_again hi hp hr h1 ht⟩
  case teardown => exact fun h hc h1 h2 he => event_next (teardown_does h hc h1 h2 he)
  case preempt =>
    intro l h hc hl ho idle enough h1 h2
    rw [← cur_eq_of_does h.1] at idle enough h1 h2 ⊢
    have entered : ((u.dev.launchCores u.cur.pkg (f.word 1)).any fun q => ((u.dev.pkg q.1).core q.2).mode == .idle &&
        (u.dev.pkg q.1).sched.strands.any fun s => s.onCore == some q.2 && s.state == .running) = false := by
      refine List.any_eq_false.mpr fun q hq running => ?_
      simp only [Bool.and_eq_true, beq_iff_eq, List.any_eq_true] at running
      obtain ⟨at_, o, ho, here, runs⟩ := running
      exact idle q hq at_ o ho here runs
    exact ⟨fun none he => event_next (preempt_done h hc hl ho rfl rfl entered enough h1 rfl rfl h2 none he),
      fun some => event_next (preempt_waits h hc hl ho rfl rfl entered enough h1 rfl rfl h2 some)⟩
  case restore =>
    intro st hdr v plan bad h hc hw h1 ho hp hq hr h2 hplan h3 he
    have here : u1.cur = s.cur := (cur_eq_of_does h1).trans (cur_eq_of_does h.1)
    have time : u1.time = s.time := (time_eq_of_does h1).trans (time_eq_of_does h.1)
    rw [← here] at hp hr h2 hplan
    rw [← time] at hplan
    exact event_next (restore_does h hc hw h1 ho hp hq hr h2 hplan h3 he)

end Sys2Proof.Machine
end

section
/-!
PROOF. The service of the device (R409 to R418): clocks, fences, the move of a live frame, replays, checkpoints and the reset.
-/

namespace Sys2Proof.Machine

/-! ### A number read from memory is as wide as its bytes -/

/-- The bytes from an address on leave room for those before it. -/
theorem sum_readPart_le {m : Memory} {lo : Nat} (a n : Nat) (hm : Memory.wfFrom lo m = true) :
    (m.map (readPart a n)).sum + 2 ^ (8 * min (lo - a) n) ≤ 2 ^ (8 * n) := by
  induction m generalizing lo with
  | nil =>
    rw [List.map_nil, List.sum_nil, Nat.zero_add]
    exact Nat.pow_le_pow_right (by decide) (Nat.mul_le_mul_left 8 (Nat.min_le_right _ n))
  | cons c rest ih =>
    simp only [Memory.wfFrom, Bool.and_eq_true, decide_eq_true_eq] at hm
    obtain ⟨⟨first, -⟩, rises⟩ := hm
    have after := ih rises
    rw [List.map_cons, List.sum_cons]
    by_cases inside : a ≤ c.1 ∧ c.1 < a + n
    · have byte : c.2.toNat ≤ 255 := Nat.lt_succ_iff.mp c.2.isLt
      have room : 2 ^ (8 * min (lo - a) n) ≤ 2 ^ (8 * (c.1 - a)) := Nat.pow_le_pow_right (by decide) (by omega)
      have next : 2 ^ (8 * min (c.1 + 1 - a) n) = 256 * 2 ^ (8 * (c.1 - a)) := by
        rw [show 8 * min (c.1 + 1 - a) n = 8 + 8 * (c.1 - a) by omega, Nat.pow_add]
      have value : c.2.toNat * 2 ^ (8 * (c.1 - a)) ≤ 255 * 2 ^ (8 * (c.1 - a)) := Nat.mul_le_mul_right _ byte
      rw [readPart, if_pos inside]
      omega
    · have room : 2 ^ (8 * min (lo - a) n) ≤ 2 ^ (8 * min (c.1 + 1 - a) n) := Nat.pow_le_pow_right (by decide) (by omega)
      rw [readPart, if_neg inside]
      omega

theorem Memory.read_lt {m : Memory} (hm : m.wf) (a n : Nat) : m.read a n < 2 ^ (8 * n) := by
  have bound := sum_readPart_le a n hm
  rw [Nat.zero_sub, Nat.zero_min, Nat.mul_zero, Nat.pow_zero] at bound
  rw [Memory.read_eq_sum]
  exact bound

/-- What was read from one place and written to another is read there. -/
theorem Memory.read_write_read {m k : Memory} (hk : k.wf) (a b n : Nat) : (m.write a n (k.read b n)).read a n = k.read b n := by
  rw [Memory.read_write, Nat.mod_eq_of_lt (Memory.read_lt hk b n)]

/-! ### The memory side -/

/-- Where it answers, a computation of the memory side leads from one property of it to another. -/
def HLeads {α : Type} (P Q : Home → Prop) (x : H α) : Prop := ∀ (h : Home) (v : α) (k : Home), x.run h = .ok (v, k) → P h → Q k

section
variable {α β : Type} {P Q R : Home → Prop}

theorem hLeads_bind {x : H α} {f : α → H β} (hx : HLeads P Q x) (hf : ∀ v, HLeads Q R (f v)) : HLeads P R (x >>= f) := by
  intro h w k run hp
  rw [StateT.run_bind] at run
  cases first : x.run h with
  | error e =>
    rw [first] at run
    cases run
  | ok r =>
    rw [first] at run
    exact hf r.1 r.2 w k run (hx h r.1 r.2 first hp)

theorem hLeads_modify {f : Home → Home} (hf : ∀ h, P h → Q (f h)) : HLeads P Q (modify f : H Unit) := by
  rintro h v k run hp
  cases run
  exact hf h hp

theorem hLeads_pure (v : α) : HLeads P P (pure v : H α) := by
  rintro h w k run hp
  cases run
  exact hp

theorem hLeads_forM {x : α → H Unit} {l : List α} (hx : ∀ a ∈ l, HLeads P P (x a)) : HLeads P P (l.forM x) := by
  induction l with
  | nil => exact hLeads_pure ()
  | cons a l ih => exact hLeads_bind (hx a List.mem_cons_self) fun _ => ih fun b hb => hx b (List.mem_cons_of_mem a hb)

end

/-- A computation of the memory side changes the package's memory side. -/
theorem home_of_runHome {α : Type} {s t : State} {x : H α} {ea report : Word} {v : α} (h : s.does (runHome ea report x) v t) :
    ∃ k, x.run s.pkg.home = .ok (v, k) ∧ t = s.putPkg fun y => { y with home := k } := by
  obtain ⟨_, _, h1, h⟩ := does_of_bind h
  obtain ⟨rfl, rfl⟩ := does_unique (does_read s) h1
  obtain ⟨_, _, h2, h⟩ := does_of_bind h
  obtain ⟨rfl, rfl⟩ := does_unique (does_pkgAt s _) h2
  split at h
  · next w k run =>
    obtain ⟨_, u, h3, h⟩ := does_of_bind h
    obtain ⟨rfl, rfl⟩ := does_unique (does_pure u w) h
    exact ⟨k, run, (does_unique (does_modPkg s fun y => { y with home := k }) h3).2.symm⟩
  all_goals exact absurd h (not_does_of_stops rfl)

/-- Main memory with its poison, and no line that is still to be written back. -/
def Home.settled (m : Memory) (pois : List Nat) (fot : Nat) (h : Home) : Prop :=
  h.hbm = m ∧ h.hbmPois = pois ∧ h.fotBase = fot ∧ ∀ x ∈ h.tags, x.dirty = false

/-- A clean tag that is dropped leaves main memory. -/
theorem hLeads_dropTag {m : Memory} {pois : List Nat} {fot : Nat} {t : Tag} (ht : t.dirty = false) :
    HLeads (Home.settled m pois fot) (Home.settled m pois fot) (dropTag t) := by
  have written : HLeads (Home.settled m pois fot) (Home.settled m pois fot) (writeBack t) := by
    unfold writeBack
    rw [if_neg (by rw [ht]; exact Bool.false_ne_true)]
    exact hLeads_pure ()
  have released : HLeads (Home.settled m pois fot) (Home.settled m pois fot) (releaseEntry t.dptr) := hLeads_modify fun h hs => hs
  refine hLeads_bind written fun _ => hLeads_bind released fun _ => hLeads_modify fun h hs => ?_
  obtain ⟨hbm, poisons, base, clean⟩ := hs
  exact ⟨hbm, poisons, base, fun x hx => clean x (List.mem_filter.mp hx).1⟩

section
variable {s t : State}

/-- A write of main memory changes only the memory side; where no line is dirty, it is that write and no other. -/
theorem writeTable_gives {pa n v : Nat} (h : s.does (writeTable pa n v) () t) : ∃ k : Home, (t = s.putPkg fun y => { y with home := k }) ∧
    ((∀ x ∈ s.pkg.home.tags, x.dirty = false) → k.settled (s.pkg.home.hbm.write pa n v)
      (s.pkg.home.hbmPois.filter fun p => !(pa <= 8 * p && 8 * p + 8 <= pa + n)) s.pkg.home.fotBase) := by
  unfold writeTable at h
  split at h
  · exact absurd h (not_does_of_stops rfl)
  · obtain ⟨k, run, ht⟩ := home_of_runHome h
    refine ⟨k, ht, fun clean => ?_⟩
    have drops : HLeads (Home.settled s.pkg.home.hbm s.pkg.home.hbmPois s.pkg.home.fotBase)
        (Home.settled s.pkg.home.hbm s.pkg.home.hbmPois s.pkg.home.fotBase)
        ((s.pkg.home.tags.filter fun t => overlaps pa (pa + n) t.pa (t.pa + 128)).forM dropTag) :=
      hLeads_forM fun x hx => hLeads_dropTag (clean x (List.mem_filter.mp hx).1)
    refine hLeads_bind drops (fun _ => hLeads_modify ?_) s.pkg.home () k run ⟨rfl, rfl, rfl, clean⟩
    rintro h ⟨hbm, poisons, base, clean⟩
    exact ⟨congrArg (·.write pa n v) hbm, congrArg _ poisons, base, clean⟩

/-! ### The move of a live frame (R328, R411) -/

variable {f g : Nat}

/-- The poison of a frame follows it. -/
def movedPois (f g : Nat) (pois : List Nat) : List Nat :=
  ((pois.filter fun a => a / 512 == f).map fun a => 512 * g + a % 512) ++ pois.filter fun a => a / 512 != g

theorem mem_movedPois {pois : List Nat} {a : Nat} (ha : a / 512 = g) : a ∈ movedPois f g pois ↔ 512 * f + a % 512 ∈ pois := by
  simp only [movedPois, List.mem_append, List.mem_map, List.mem_filter, ha, bne_self_eq_false, Bool.false_eq_true, and_false, or_false,
    beq_iff_eq]
  constructor
  · rintro ⟨b, ⟨hb, rfl⟩, rfl⟩
    rwa [show 512 * (b / 512) + (512 * g + b % 512) % 512 = b by omega]
  · exact fun h => ⟨_, ⟨h, by omega⟩, by omega⟩

/-- A frame's move is two writes of main memory, and its poison's move. -/
theorem moveFrame_gives (h : s.does (moveFrame f g) () t) : ∃ k : Home,
    t.pkg = { s.pkg with
      ctl := { s.pkg.ctl with freeFrames := s.pkg.ctl.freeFrames.filter (· != g) }
      home := { k with hbmPois := movedPois f g s.pkg.home.hbmPois } } ∧
    ((∀ x ∈ s.pkg.home.tags, x.dirty = false) →
      k.hbm = (s.pkg.home.hbm.write (4096 * g) 4096 (s.pkg.home.hbm.read (4096 * f) 4096)).write (s.pkg.home.fotBase + 2 * g) 2
        (s.pkg.home.hbm.read (s.pkg.home.fotBase + 2 * f) 2)) := by
  obtain ⟨_, _, h1, h⟩ := does_of_bind h
  obtain ⟨-, rfl⟩ := does_unique (does_modCtl s _) h1
  obtain ⟨_, _, h2, h⟩ := does_of_bind h
  obtain ⟨rfl, rfl⟩ := does_unique (does_thePkg _) h2
  obtain ⟨_, _, h3, h⟩ := does_of_bind h
  obtain ⟨j, rfl, page⟩ := writeTable_gives h3
  obtain ⟨_, _, h4, h⟩ := does_of_bind h
  obtain ⟨k, rfl, owner⟩ := writeTable_gives h4
  obtain ⟨-, rfl⟩ := does_unique (does_modPkg _ _) h
  simp only [State.putPkg_pkg] at page owner ⊢
  refine ⟨k, rfl, fun clean => ?_⟩
  obtain ⟨bytes, -, -, clean⟩ := page clean
  obtain ⟨entry, -, -, -⟩ := owner clean
  rw [entry, bytes]

theorem moveFrame_moves (h : s.does (moveFrame f g) () t) (hm : s.pkg.home.hbm.wf) (clean : ∀ x ∈ s.pkg.home.tags, x.dirty = false)
    (apart : s.pkg.home.fotBase + 2 * g + 2 ≤ 4096 * g ∨ 4096 * g + 4096 ≤ s.pkg.home.fotBase + 2 * g) :
    t.pkg.home.hbm.read (4096 * g) 4096 = s.pkg.home.hbm.read (4096 * f) 4096 ∧
      t.pkg.home.hbm.read (s.pkg.home.fotBase + 2 * g) 2 = s.pkg.home.hbm.read (s.pkg.home.fotBase + 2 * f) 2 ∧
      ∀ a, a / 512 = g → (a ∈ t.pkg.home.hbmPois ↔ 512 * f + a % 512 ∈ s.pkg.home.hbmPois) := by
  obtain ⟨k, ht, written⟩ := moveFrame_gives h
  rw [ht]
  dsimp only
  rw [written clean, Memory.read_write_ne _ _ _ _ _ _ (by omega), Memory.read_write_read hm, Memory.read_write_read hm]
  exact ⟨rfl, rfl, fun a => mem_movedPois⟩

end

/-! ### Ageing, margins and clocks (R409, R417) -/

section
variable {s t : State} {die khz : Nat}

/-- A die of the package, with its state changed. -/
def State.withDie (s : State) (die : Nat) (d : Die) : State :=
  s.putPkg fun x => { x with service := { x.service with dies := setAt x.service.dies die d } }

theorem does_dieState (s : State) (die : Nat) : s.does (dieState die) (lookupD Die.reset s.pkg.service.dies die) s :=
  does_bind (does_thePkg s) (does_pure s _)

theorem does_modDie (s : State) (die : Nat) (f : Die → Die) :
    s.does (modDie die f) () (s.withDie die (f (lookupD Die.reset s.pkg.service.dies die))) := ⟨rfl, rfl⟩

section
variable {d : Die} (hd : d = lookupD Die.reset s.pkg.service.dies die) (hn : die < 8)
include hd hn

theorem pdmSample_does {slack : List Nat} (hl : slack.length = 16) (ht : samplePeriod ≤ s.time - d.sampled) :
    s.does (pdmSample die slack) () (s.withDie die { d with slack := slack, sampled := s.time }) := by
  subst hd
  refine does_bind (does_dieState s die) (does_bind (does_now s) (does_if_neg ?_ (does_modDie s die _)))
  simp [Nat.not_le.mpr hn, hl, Nat.not_lt.mpr ht]

theorem replan_does {points : List (Nat × Nat)} {p : Nat × Nat}
    (due : d.slackLost = true ∨ (replanPeriod ≤ s.time - d.replanned ∧ s.pkg.dieIdle die = true)) (hp : pointsOk points = true)
    (at_ : pointAt points khz = some p) :
    s.does (replan die khz points) () (s.withDie die { d.hold s.time p with points := points, planned := d.slack, replanned := s.time }) := by
  subst hd
  refine does_bind (does_dieState s die) (does_bind (does_now s) (does_bind (does_thePkg s) (does_if_neg ?_ ?_)))
  · have planned : ((lookupD Die.reset s.pkg.service.dies die).slackLost || (decide (replanPeriod ≤
        s.time - (lookupD Die.reset s.pkg.service.dies die).replanned) && s.pkg.dieIdle die)) = true := by simpa using due
    simp [Nat.not_le.mpr hn, planned, hp]
  · rw [at_]
    exact does_modDie s die _

theorem clockStep_does {p : Nat × Nat} (ht : stepPeriod ≤ s.time - d.stepped) (next : adjacentPoint d.points d.khz khz = some p) :
    s.does (clockStep die khz) () (s.withDie die { d.hold s.time p with stepped := s.time }) := by
  subst hd
  refine does_bind (does_dieState s die) (does_bind (does_now s) (does_if_neg (by simp [Nat.not_le.mpr hn, Nat.not_lt.mpr ht]) ?_))
  rw [next]
  exact does_modDie s die _

end

/-! ### Fences (R410 to R412) -/

theorem Service.noteWear_lanes (x : Service) : x.noteWear.lanes = x.lanes := by
  unfold noteWear
  split <;> rfl

theorem Service.noteWear_links (x : Service) : x.noteWear.links = x.links := by
  unfold noteWear
  split <;> rfl

theorem Service.noteWear_banks (x : Service) : x.noteWear.banks = x.banks := by
  unfold noteWear
  split <;> rfl

theorem Service.noteWear_quads (x : Service) : x.noteWear.quads = x.quads := by
  unfold noteWear
  split <;> rfl

theorem Service.noteWear_started (x : Service) : x.noteWear.started = x.started := by
  unfold noteWear
  split <;> rfl

theorem Service.noteWear_ready (x : Service) : x.noteWear.ready = x.ready := by
  unfold noteWear
  split <;> rfl

/-- RR rises where the fences ask for it, and stays where it was set. -/
theorem Service.noteWear_rr (x : Service) : x.noteWear.rr = (x.worn || x.rr) := by
  unfold noteWear
  cases hw : x.worn <;> cases hr : x.rr <;> simp [hr]

theorem hbmRowRepair_does {stack bank row : Nat} (hs : stack < 16) (hb : bank < 256) : s.does (hbmRowRepair stack bank row) ()
    (s.putPkg fun x => { x with service := if x.service.rows.contains (stack, bank, row) then x.service
      else { x.service with rows := x.service.rows ++ [(stack, bank, row)] } }) :=
  does_if_neg (by simp [Nat.not_le.mpr hs, Nat.not_le.mpr hb])
    (does_modService s fun s => if s.rows.contains (stack, bank, row) then s else { s with rows := s.rows ++ [(stack, bank, row)] })

/-- A lane that is fenced: with it the whole link, where fewer than four lanes are left. -/
def Service.laneFenced (x : Service) (link lane : Nat) : Service :=
  let whole := 8 < (lane :: x.lanesOf link).length + 4
  { x with
    lanes := (x.lanes.filter fun l => l.1 != link) ++ (if whole then List.range 8 else lane :: x.lanesOf link).map fun k => (link, k)
    links := if whole then x.links ++ [link] else x.links }

theorem Service.mem_laneFenced_lanes (x : Service) {link lane : Nat} (h : lane < 8) : (link, lane) ∈ (x.laneFenced link lane).lanes := by
  refine List.mem_append_right _ (List.mem_map_of_mem ?_)
  split
  · exact List.mem_range.mpr h
  · exact List.mem_cons_self

theorem Service.mem_laneFenced_links (x : Service) (link lane : Nat) :
    link ∈ (x.laneFenced link lane).links ↔ link ∈ x.links ∨ 4 < (x.lanesOf link).length + 1 := by
  have few : 8 < (lane :: x.lanesOf link).length + 4 ↔ 4 < (x.lanesOf link).length + 1 := by
    rw [List.length_cons]
    omega
  unfold laneFenced
  dsimp only
  split
  · next whole => simp [few.mp whole]
  · next part => simp [mt few.mpr part]

theorem linkLaneFence_does {link lane : Nat} (hl : link < 24) (hn : lane < 8) (fresh : (link, lane) ∉ s.pkg.service.lanes) :
    s.does (linkLaneFence link lane) () (s.putPkg fun x => { x with service := (x.service.laneFenced link lane).noteWear }) :=
  does_bind (does_thePkg s) (does_if_neg (by simp [Nat.not_le.mpr hl, Nat.not_le.mpr hn, fresh]) (does_modService s _))

section
variable {s0 s1 s2 : State} {cs : List (Nat × Nat)} {q : Nat} (hq : q = quadOf s.cur.core) (small : q < 2048)
  (fresh : s.pkg.service.quads.contains q = false)
  (h0 : (s.putPkg fun x => { x with service := if x.service.fencing.contains q then x.service
    else { x.service with fencing := x.service.fencing ++ [q] } }).does (freeGangs q) () s0)
  (h1 : s0.does (fenceStops q) cs s1)
  (h2 : if slotsSuffice s1.dev cs then s1.does (cs.forM fun q => atCore q.1 q.2 .A (stopCore false)) () s2 else s2 = s1)
include hq small fresh h0 h1 h2

/-- The quad's strands are stopped; then the quad is fenced, or it is not empty yet. -/
theorem quadFence_goes (ht : if s2.pkg.quadEmpty q then s2.does (modService fun x => ({ x with
    quads := x.quads ++ [q], fencing := x.fencing.filter (· != q) } : Service).noteWear) () t else t = s2) : s.does quadFence () t := by
  have last : s2.does (do
      if (← thePkg).quadEmpty q then
        modService fun x => ({ x with quads := x.quads ++ [q], fencing := x.fencing.filter (· != q) } : Service).noteWear) () t := by
    refine does_bind (does_thePkg s2) ?_
    split at ht
    · next none => exact does_if_pos none ht
    · next some => exact does_if_neg some (ht ▸ does_pure s2 ())
  subst hq
  refine does_bind (does_read s) (does_bind (does_thePkg s) (does_if_neg ?_ (does_bind (does_modService s fun x =>
    if x.fencing.contains (quadOf s.cur.core) then x else { x with fencing := x.fencing ++ [quadOf s.cur.core] })
      (does_bind h0 (does_bind h1 (does_bind (does_get s1) ?_))))))
  · rw [Bool.or_eq_true, decide_eq_true_eq, not_or]
    exact ⟨Nat.not_le.mpr small, Bool.eq_false_iff.mp fresh⟩
  · split at h2
    · next fits => exact does_if_pos fits (does_bind h2 last)
    · next short => exact does_if_neg short (h2 ▸ last)

end

section
variable {stack bank : Nat} (hs : stack < 16) (hb : bank < 256) (fresh : s.pkg.service.banks.contains (stack, bank) = false)
include hs hb fresh

theorem bankFence_passes : ¬ (decide (16 ≤ stack) || decide (256 ≤ bank) || s.pkg.service.banks.contains (stack, bank)) = true := by
  rw [fresh]
  simp [Nat.not_le.mpr hs, Nat.not_le.mpr hb]

theorem bankFence_waits (h : s.stops (emptyBank stack bank) .block) : s.stops (bankFence stack bank) .block := by
  refine does_bind_stops (does_thePkg s) ?_
  rw [if_neg (bankFence_passes hs hb fresh)]
  exact stops_bind h

theorem bankFence_does {s1 : State} (h : s.does (emptyBank stack bank) () s1) : s.does (bankFence stack bank) ()
    ((s1.putPkg fun x => { x with ctl := { x.ctl with freeFrames := x.ctl.freeFrames.filter fun f => !inBank stack bank f } }).putPkg
      fun x => { x with service := ({ x.service with banks := x.service.banks ++ [(stack, bank)] } : Service).noteWear }) :=
  does_bind (does_thePkg s) (does_if_neg (bankFence_passes hs hb fresh) (does_bind h (does_bind (does_modCtl s1 _) (does_modService _ _))))

end

theorem does_freeBeside (s : State) (stack bank : Nat) : s.does (freeBeside stack bank)
    (s.pkg.ctl.freeFrames.filter fun f => frameStack f == stack && !inBank stack bank f) s := does_bind (does_thePkg s) (does_pure s _)

section
variable {s1 s2 s3 s4 s5 s6 : State} {stack bank : Nat} {all named : List TableEntry} {live free : List Nat} {pages : List TableEntry}
  (h1 : s.does (dividePages stack bank) all s1) (hl : live = liveIn stack bank s1.pkg.home.troot all)
  (hp : pages = all.filter fun e => e.isLeaf && e.level == 1 && live.contains e.frame)
  (hf : free = s1.pkg.ctl.freeFrames.filter fun f => frameStack f == stack && !inBank stack bank f)
include h1 hl hp hf

theorem emptyBank_waits (short : free.length < live.length ∨ ∃ e ∈ pages, s1.pkg.fabric.pins e.va (e.va + 4096) = true) :
    s.stops (emptyBank stack bank) .block := by
  subst hf hp hl
  refine does_bind_stops h1 (does_bind_stops (does_thePkg s1) (does_bind_stops (does_freeBeside s1 _ _) (does_bind_stops (does_thePkg s1) ?_)))
  dsimp only
  rw [if_pos (by rwa [Bool.or_eq_true, decide_eq_true_eq, List.any_eq_true])]
  rfl

theorem emptyBank_does (room : live.length ≤ free.length) (loose : ¬ ∃ e ∈ pages, s1.pkg.fabric.pins e.va (e.va + 4096) = true)
    (h2 : s1.does (pages.forM fun e => startInvalidation e.va (e.va + 4096) .plain) () s2)
    (h3 : s2.does ((pages.filter fun e => natBits e.word 2 2 == 1).forM (splitGroup all)) () s3) (h4 : s3.does pageTable named s4)
    (h5 : s4.does ((live.zip free).forM fun q => renameFrame named q.1 q.2) () s5)
    (h6 : s5.does ((live.zip free).forM fun q => moveFrame q.1 q.2) () s6) : s.does (emptyBank stack bank) () s6 := by
  have moves : ¬ (decide (free.length < live.length) || pages.any fun e => s1.pkg.fabric.pins e.va (e.va + 4096)) = true := by
    rw [Bool.or_eq_true, decide_eq_true_eq, List.any_eq_true, not_or]
    exact ⟨Nat.not_lt.mpr room, loose⟩
  subst hf hp hl
  refine does_bind h1 (does_bind (does_thePkg s1) (does_bind (does_freeBeside s1 _ _) (does_bind (does_thePkg s1) (does_if_neg moves ?_))))
  exact does_bind h2 (does_bind h3 (does_bind h4 (does_bind h5 h6)))

end

/-! ### Replays, checkpoints and the reset (R415, R416, R418) -/

theorem replayEnter_does {s1 s2 s3 : State} {part launch id k : Nat} {r : Record} {same : List Bool} {b : VReg} {a : Accepted}
    (hr : s.pkg.service.records.find? (fun r => r.part == part && r.launch == launch && !r.open_) = some r)
    (h1 : s.does (r.items.mapM fun i => digestHolds r.dom i) same s1) (hs : same.all (fun b => b) = true) (hc : r.command = some b)
    (h2 : s1.does (validateLaunch r.ctx r.ring part b.toNat) (.ok a) s2) (h3 : s2.does comingId id s3)
    (ht : (s3.putPkg fun x => { x with service := { x.service with
      replay := some { part := part, launch := id, items := r.items, all := r.items } } }).does (acceptLaunch { a with record := false }) k t) :
    s.does (replayEnter part launch) () t := by
  refine does_bind (does_thePkg s) ?_
  simp only [hr]
  refine does_bind h1 ?_
  simp only [hs, hc]
  exact does_bind h2 (does_bind h3 (does_bind (does_modService s3 _) (does_bind ht (does_pure t ()))))

theorem checkpoint_does {s1 : State} (still : s.pkg.still = true) (h : s.does (runHome 0 0 writeAllBack) () s1) : s.does checkpoint ()
    (s1.putPkg fun x => { x with service := { x.service with snapshot := some (x.snap s.cur.pkg s1.dev.arcs) } }) :=
  does_bind (does_thePkg s) (does_if_neg (by simp [still]) (does_bind (does_read s) (does_bind h (does_bind (does_get s1) (does_modPkg s1 _)))))

/-- A package with a checkpoint's memory and strands; its cores keep what they hold but for translations. -/
def Package.restored (x : Package) (m : Snapshot) : Package :=
  { x with
    home := x.home.restored m, ctl := x.ctl.restored m, sched := x.sched.restored m, savedGens := m.savedGens
    cores := x.cores.map fun c => (c.1, { c.2 with plb := [] }) }

theorem checkpointRestore_does {m : Snapshot} (hm : s.pkg.service.snapshot = some m) (still : s.pkg.still = true) :
    s.does checkpointRestore () ((s.putPkg (·.restored m)).on { (s.putPkg (·.restored m)).dev with
      arcs := (s.putPkg (·.restored m)).dev.arcs.filter (fun a => a.pkg != s.cur.pkg) ++ m.arcs }) := by
  refine does_bind (does_thePkg s) ?_
  simp only [hm]
  exact does_bind (does_thePkg s) (does_if_neg (by simp [still]) (does_bind (does_read s) (does_bind (does_modPkg s _) (does_modify _ _))))

theorem lookupD_map {α : Type} (f : α → α) {d : α} (hd : f d = d) (l : List (Nat × α)) (k : Nat) :
    lookupD d (l.map fun e => (e.1, f e.2)) k = f (lookupD d l k) := by
  induction l with
  | nil => exact hd.symm
  | cons e l ih =>
    rw [List.map_cons, lookupD_cons, lookupD_cons, ih]
    split <;> rfl

theorem Package.restored_core (x : Package) (m : Snapshot) (c : Nat) : (x.restored m).core c = { x.core c with plb := [] } :=
  lookupD_map (fun y : Core => { y with plb := [] }) rfl x.cores c

/-- A package as the reset leaves it. -/
def Package.afterReset (x : Package) (t : Nat) (good : Bool) : Package :=
  { Package.reset with
    home := { Home.reset with hbm := x.home.hbm.filter (·.1 < transBase), hbmPois := x.home.hbmPois.filter (8 * · < transBase) }
    service := x.service.broughtUp t good }

/-- An island of a package that is reset has departed. -/
def Island.resetAt (me : Nat) (i : Island) : Island := if i.pkg == me then { i with departed := true } else i

theorem deviceReset_does (s : State) (len image sig : Nat) : s.does (deviceReset len image sig) ()
    ((s.putPkg (·.afterReset s.time (firmwareGood len image sig))).on
      { (s.putPkg (·.afterReset s.time (firmwareGood len image sig))).dev with
        arcs := (((s.putPkg (·.afterReset s.time (firmwareGood len image sig))).dev.arcs.filter fun a => a.pkg != s.cur.pkg).map fun a =>
          { a with islands := a.islands.map (Island.resetAt s.cur.pkg) }) }) :=
  does_bind (does_read s) (does_bind (does_now s) (does_bind (does_modPkg s _) (does_modify _ _)))

/-- The fences outlive a reset, and with them what they ask for. -/
theorem Service.broughtUp_rr (x : Service) (t : Nat) (good : Bool) : (x.broughtUp t good).rr = x.worn :=
  (Service.noteWear_rr _).trans (Bool.or_false _)

end

/-- Settles O53: each event is one change or its computations in order; a frame's move is two writes of main memory. -/
theorem serviceLife : Obligations.ServiceLife := by
  unfold Obligations.ServiceLife
  refine ⟨fun s n khz row xs ps => ⟨?sample, ?replan, ?step, ?row, ?lane, ?quad, ?bank⟩,
    fun s s1 s2 s3 s4 s5 s6 n khz all named h1 => ⟨?waits, ?empties⟩, fun s t f g h => ⟨?gone, ?moved⟩,
    fun s s1 s2 s3 t n launch => ⟨?replay, ?checkpoint, ?restore, ?reset⟩⟩
  case sample => exact fun hn hl ht => event_next (pdmSample_does rfl hn hl ht)
  case replan => exact fun p hn due hp at_ => event_next (replan_does rfl hn due hp at_)
  case step => exact fun p hn ht next => event_next (clockStep_does rfl hn ht next)
  case row =>
    intro hn hb fresh
    refine (event_next (hbmRowRepair_does hn hb)).trans (congrArg _ (State.putPkg_congr ?_))
    rw [if_neg (by simpa using fresh)]
  case lane =>
    intro hn hl fresh
    refine ⟨_, event_next (linkLaneFence_does hn hl fresh), ?_⟩
    dsimp only
    rw [State.putPkg_pkg]
    dsimp only
    rw [Service.noteWear_lanes, Service.noteWear_links]
    exact ⟨Service.mem_laneFenced_lanes _ hl, rfl, rfl, Service.mem_laneFenced_links _ _ _⟩
  case quad =>
    intro s0 s1 s2 cs q small fresh h0 h1 h2
    refine ⟨fun some => event_next (quadFence_goes rfl small fresh h0 h1 h2 ?_),
      fun none => event_next (quadFence_goes rfl small fresh h0 h1 h2 ?_)⟩
    · rw [if_neg (Bool.eq_false_iff.mp some)]
    · rw [if_pos none]
      exact does_modService s2 _
  case bank =>
    intro hn hb fresh
    refine ⟨fun h => perform_blocks (bankFence_waits hn hb fresh h), fun s1 h => ⟨_, event_next (bankFence_does hn hb fresh h), ?_⟩⟩
    dsimp only
    rw [State.putPkg_pkg, State.putPkg_pkg]
    dsimp only
    rw [Service.noteWear_banks]
    exact ⟨by simp, fun f hf => by simpa using (List.mem_filter.mp hf).2, rfl, rfl⟩
  case waits => exact fun short => emptyBank_waits h1 rfl rfl rfl short
  case empties => exact fun room loose h2 h3 h4 h5 h6 => emptyBank_does h1 rfl rfl rfl room loose h2 h3 h4 h5 h6
  case gone =>
    obtain ⟨k, ht, -⟩ := moveFrame_gives h
    rw [ht]
    simp
  case moved => exact fun hm clean apart => moveFrame_moves h hm clean apart
  case replay => exact fun r same b a id k hr h1 hs hc h2 h3 ht => event_next (replayEnter_does hr h1 hs hc h2 h3 ht)
  case checkpoint =>
    intro still h
    refine ⟨_, event_next (checkpoint_does still h), ?_⟩
    dsimp only
    rw [State.putPkg_pkg]
    exact ⟨rfl, rfl⟩
  case restore =>
    intro m hm still
    refine ⟨_, event_next (checkpointRestore_does hm still), ?_⟩
    have pkg : (s.putPkg (·.restored m)).pkg = s.pkg.restored m := State.putPkg_pkg s _
    have core : (s.putPkg (·.restored m)).core = { s.core with plb := [] } :=
      (congrArg (·.core s.cur.core) pkg).trans (Package.restored_core _ m _)
    exact ⟨congrArg (·.home.hbm) pkg, congrArg (·.home.hbmPois) pkg, congrArg (·.home.tags) pkg, congrArg (·.home.l1) pkg,
      congrArg (·.plb) core, congrArg (·.a) core, congrArg (·.sched.strands) pkg, congrArg (·.ctl.saves) pkg,
      congrArg (·.ctl.ctrBase) pkg, congrArg (·.ctl.keys) pkg, congrArg (·.ctl.counters) pkg⟩
  case reset =>
    intro len image sig
    refine ⟨_, event_next (deviceReset_does s len image sig), ?_⟩
    have pkg : (s.putPkg (·.afterReset s.time (firmwareGood len image sig))).pkg = s.pkg.afterReset s.time (firmwareGood len image sig) :=
      State.putPkg_pkg s _
    exact ⟨congrArg (·.ctl.parts) pkg, congrArg (·.ctl.ctxs) pkg, congrArg (·.sched.strands) pkg, congrArg (·.lines) pkg,
      congrArg (·.bankSlots) pkg, congrArg (·.cores) pkg, congrArg (·.core s.cur.core) pkg, congrArg (·.home.hbm) pkg,
      (congrArg (·.service.rr) pkg).trans (Service.broughtUp_rr _ _ _), (congrArg (·.service.started) pkg).trans (Service.noteWear_started _),
      (congrArg (·.service.ready) pkg).trans (Service.noteWear_ready _), (congrArg (·.service.quads) pkg).trans (Service.noteWear_quads _)⟩

end Sys2Proof.Machine
end

section
/-!
PROOF. Rounds and deliveries (R372, R373), launch packets (R362, R363), the page-service mailbox (R327, R328) and parked messages (R182).
-/

namespace Sys2Proof.Machine

section
variable {α : Type} {s : State} {p : Prop} [Decidable p] {x y : M α} {e : Stop}

theorem stops_if_pos (h : p) (hx : s.stops x e) : s.stops (if p then x else y) e := by
  rwa [if_pos h]

theorem stops_if_neg (h : ¬ p) (hy : s.stops y e) : s.stops (if p then x else y) e := by
  rwa [if_neg h]

end

/-- A choice by conditions that say the same. -/
theorem if_cond_congr {α : Type} {p q : Prop} [Decidable p] [Decidable q] {x y : α} (h : p ↔ q) : (if p then x else y) = if q then x else y :=
  ite_congr (propext h) (fun _ => rfl) fun _ => rfl

/-! ### Maps in the order of their keys -/

section
variable {α : Type} {l : List (Nat × α)} {k j : Nat} {x : α}

theorem lookupD_eq_findAt (d : α) (l : List (Nat × α)) (k : Nat) : lookupD d l k = (findAt l k).getD d := by
  induction l with
  | nil => rfl
  | cons e l ih =>
    rw [lookupD_cons, findAt, List.find?_cons]
    by_cases h : e.1 = k
    · simp [h]
    · simp only [Ne.symm h, if_false, beq_false_of_ne h, ih]
      rfl

theorem findAt_setAt_ne (l : List (Nat × α)) (x : α) (h : j ≠ k) : findAt (setAt l k x) j = findAt l j := by
  induction l with
  | nil => simp [setAt, findAt, Ne.symm h]
  | cons e l ih =>
    obtain ⟨i, y⟩ := e
    unfold setAt
    split
    · simp [findAt, Ne.symm h]
    · split
      · next same =>
        obtain rfl : i = k := by simpa using same
        simp [findAt, Ne.symm h]
      · by_cases hi : i = j
        · simp [findAt, hi]
        · simpa [findAt, hi] using ih

/-- Setting a key lists no other key. -/
theorem key_of_mem_setAt (h : j ∈ (setAt l k x).map (·.1)) : j = k ∨ j ∈ l.map (·.1) := by
  induction l with
  | nil => exact .inl (by simpa [setAt] using h)
  | cons e l ih =>
    obtain ⟨i, y⟩ := e
    unfold setAt at h
    split at h
    · exact List.mem_cons.mp h
    · split at h
      · exact (List.mem_cons.mp h).imp id (List.mem_cons_of_mem i)
      · rcases List.mem_cons.mp h with rfl | h
        · exact .inr List.mem_cons_self
        · exact (ih h).imp id (List.mem_cons_of_mem i)

/-- A key that is set keeps the keys in their order. -/
theorem setAt_rising (h : (l.map (·.1)).Pairwise (· < ·)) (k : Nat) (x : α) : ((setAt l k x).map (·.1)).Pairwise (· < ·) := by
  induction l with
  | nil => exact List.pairwise_singleton _ _
  | cons e l ih =>
    obtain ⟨i, y⟩ := e
    rw [List.map_cons, List.pairwise_cons] at h
    obtain ⟨first, rest⟩ := h
    unfold setAt
    split
    · next before =>
      refine List.pairwise_cons.mpr ⟨fun b hb => ?_, List.pairwise_cons.mpr ⟨first, rest⟩⟩
      rcases List.mem_cons.mp hb with rfl | hb
      · exact before
      · exact Nat.lt_trans before (first b hb)
    · next after =>
      split
      · next same =>
        obtain rfl : i = k := by simpa using same
        exact List.pairwise_cons.mpr ⟨first, rest⟩
      · next other =>
        have beyond : i < k := by
          have : i ≠ k := by simpa using other
          omega
        refine List.pairwise_cons.mpr ⟨fun b hb => ?_, ih rest⟩
        rcases key_of_mem_setAt hb with rfl | hb
        · exact beyond
        · exact first b hb

/-- In a map with rising keys an entry is what is found under its key. -/
theorem mem_iff_findAt (h : (l.map (·.1)).Pairwise (· < ·)) : (k, x) ∈ l ↔ findAt l k = some x := by
  induction l with
  | nil => simp [findAt]
  | cons e l ih =>
    obtain ⟨i, y⟩ := e
    rw [List.map_cons, List.pairwise_cons] at h
    obtain ⟨first, rest⟩ := h
    by_cases hi : i = k
    · subst hi
      have once : (i, x) ∉ l := fun hx => absurd (first i (List.mem_map_of_mem hx)) (Nat.lt_irrefl i)
      simp [findAt, once, eq_comm]
    · have step : findAt ((i, y) :: l) k = findAt l k := by simp [findAt, hi]
      rw [step, ← ih rest, List.mem_cons, Prod.mk.injEq]
      exact or_iff_right fun same => hi same.1.symm

end

/-! ### Reduction rounds (R372, R373) -/

/-- A contribution to the round that a package has still to send. -/
def roundMine (group elem : Nat) (c : Contribution) : Bool := c.group == group && c.elem == elem && !c.closed

/-- A child's part of the round. -/
def roundKid (group elem k : Nat) (p : ChildPart) : Bool := p.group == group && p.elem == elem && p.child == k

/-- The children whose parts are there. -/
def Fabric.roundKids (f : Fabric) (group elem : Nat) : List Nat :=
  ((f.parts.filter fun p => p.group == group && p.elem == elem).map (·.child)).eraseDups

/-- The package's part: its contributions and its children's parts combined. -/
def Fabric.roundValue (f : Fabric) (group elem : Nat) : Nat :=
  let g := lookupD Group.reset f.groups group
  let nan := f32.created (Config.roundCore group elem).toNat 0
  let own := combineRound g.fmt nan (((f.contribs.filter (roundMine group elem)).take g.contrib).map fun c => roundOperand g.fmt c.op.at_.opnd)
  (sortKey id (f.roundKids group elem)).foldl
    (fun v k => combineRound g.fmt nan [v, ((f.parts.find? (roundKid group elem k)).map (·.value)).getD 0]) own

/-- Every contribution and every child's part is there. -/
def Fabric.roundReady (f : Fabric) (group elem : Nat) : Prop :=
  let g := lookupD Group.reset f.groups group
  g.valid = true ∧ g.contrib ≤ (f.contribs.filter (roundMine group elem)).length ∧ (f.roundKids group elem).length = g.nchild

/-- The package once it has taken the round's contributions and parts. -/
def State.roundClosed (s : State) (group elem : Nat) : State :=
  s.putPkg fun x => { x with fabric := { x.fabric with
    contribs := markFirst (roundMine group elem) (fun c => some { c with closed := true })
      (lookupD Group.reset s.pkg.fabric.groups group).contrib x.fabric.contribs
    parts := (s.pkg.fabric.roundKids group elem).foldl (fun ps k => markFirst (roundKid group elem k) (fun _ => none) 1 ps) x.fabric.parts } }

section
variable {s t : State} {group elem : Nat}

theorem roundReady_iff (f : Fabric) : (!(lookupD Group.reset f.groups group).valid ||
    decide ((f.contribs.filter (roundMine group elem)).length < (lookupD Group.reset f.groups group).contrib) ||
    (f.roundKids group elem).length != (lookupD Group.reset f.groups group).nchild) = true ↔ ¬ f.roundReady group elem := by
  simp only [Fabric.roundReady, Bool.or_eq_true, Bool.not_eq_true', decide_eq_true_eq, bne_iff_ne, Decidable.not_and_iff_not_or_not, Nat.not_le,
    ne_eq, Bool.not_eq_true, or_assoc]

theorem mcrRound_waits (h : ¬ s.pkg.fabric.roundReady group elem) : s.does (mcrRound group elem) () s :=
  does_bind (does_read s) (does_bind (does_thePkg s) (does_if_pos ((roundReady_iff s.pkg.fabric).mpr h) (does_pure s ())))

section
variable (h : s.pkg.fabric.roundReady group elem)
include h

theorem roundReady_passes : ¬ (!(lookupD Group.reset s.pkg.fabric.groups group).valid ||
    decide ((s.pkg.fabric.contribs.filter (roundMine group elem)).length < (lookupD Group.reset s.pkg.fabric.groups group).contrib) ||
    (s.pkg.fabric.roundKids group elem).length != (lookupD Group.reset s.pkg.fabric.groups group).nchild) = true :=
  mt (roundReady_iff s.pkg.fabric).mp (not_not_intro h)

section
variable (inner : (lookupD Group.reset s.pkg.fabric.groups group).root = false)
include inner

theorem mcrRound_blocks (route : s.stops (waitForRoute (lookupD Group.reset s.pkg.fabric.groups group).parent) .block) :
    s.stops (mcrRound group elem) .block :=
  does_bind_stops (does_read s) (does_bind_stops (does_thePkg s) (stops_if_neg (roundReady_passes h)
    (stops_if_pos (by rw [inner]; rfl) (stops_bind route))))

/-- The package's part goes to its parent. -/
theorem mcrRound_sends (route : s.does (waitForRoute (lookupD Group.reset s.pkg.fabric.groups group).parent) () s) :
    s.does (mcrRound group elem) () ((s.roundClosed group elem).on ((s.roundClosed group elem).dev.setPkg
      (peerOf s.cur.pkg (lookupD Group.reset s.pkg.fabric.groups group).parent)
      { ((s.roundClosed group elem).dev.pkg (peerOf s.cur.pkg (lookupD Group.reset s.pkg.fabric.groups group).parent)) with
        fabric := { ((s.roundClosed group elem).dev.pkg (peerOf s.cur.pkg (lookupD Group.reset s.pkg.fabric.groups group).parent)).fabric with
          parts := ((s.roundClosed group elem).dev.pkg (peerOf s.cur.pkg (lookupD Group.reset s.pkg.fabric.groups group).parent)).fabric.parts ++
            [⟨group, elem, s.cur.pkg % 1024, s.pkg.fabric.roundValue group elem⟩] } })) :=
  does_bind (does_read s) (does_bind (does_thePkg s) (does_if_neg (roundReady_passes h) (does_if_pos (by rw [inner]; rfl)
    (does_bind route (does_bind (does_modPkg s _) (does_if_pos (by rw [inner]; rfl) (does_modPkgAt (s.roundClosed group elem) _ _)))))))

end

/-- The members that the root's package knows the group of. -/
def Dev.members (d : Dev) (pkg group : Nat) : List (Nat × Package) :=
  d.pkgs.filter fun p => p.1 / 1024 == pkg / 1024 && (lookupD Group.reset p.2.fabric.groups group).valid

/-- A delivery goes to a member. -/
def giveTo (d : Delivery) (p : Nat × Package) : M Unit :=
  modPkgAt p.1 fun x => { x with fabric := { x.fabric with deliveries := x.fabric.deliveries ++ [d] } }

theorem mcrRound_delivers (root : (lookupD Group.reset s.pkg.fabric.groups group).root = true)
    (ht : (s.roundClosed group elem).does (((s.roundClosed group elem).dev.members s.cur.pkg group).forM
      (giveTo ⟨group, elem, s.pkg.fabric.roundValue group elem⟩)) () t) : s.does (mcrRound group elem) () t :=
  does_bind (does_read s) (does_bind (does_thePkg s) (does_if_neg (roundReady_passes h) (does_if_neg (by rw [root]; decide)
    (does_bind (does_modPkg s _) (does_if_neg (by rw [root]; decide) (does_bind (does_get _) ht))))))

end

/-- Each of a list of packages, all different, takes a delivery once. -/
theorem forM_giveTo {l : List (Nat × Package)} (hl : (l.map (·.1)).Pairwise (· < ·)) (d : Delivery) (s : State) :
    ∃ u, s.does (l.forM (giveTo d)) () u ∧
      ∀ q, (u.dev.pkg q).fabric.deliveries = (s.dev.pkg q).fabric.deliveries ++ if q ∈ l.map (·.1) then [d] else [] := by
  induction l generalizing s with
  | nil => exact ⟨s, does_pure s (), fun q => (List.append_nil _).symm⟩
  | cons p l ih =>
    rw [List.map_cons, List.pairwise_cons] at hl
    obtain ⟨first, rest⟩ := hl
    have given := does_modPkgAt s p.1 fun x => { x with fabric := { x.fabric with deliveries := x.fabric.deliveries ++ [d] } }
    obtain ⟨u, hu, each⟩ := ih rest (s.on _)
    refine ⟨u, does_bind given hu, fun q => ?_⟩
    rw [each, State.on_dev, List.map_cons]
    by_cases hq : q = p.1
    · have once : q ∉ l.map (·.1) := fun hx => absurd (first q hx) (by rw [hq]; exact Nat.lt_irrefl _)
      rw [if_neg once, List.append_nil, hq, Dev.pkg_setPkg, if_pos List.mem_cons_self]
    · rw [Dev.pkg_setPkg_ne _ _ _ _ hq, if_cond_congr (List.mem_cons.trans (or_iff_right hq))]

/-- A package that no one has changed is the reset package. -/
theorem Dev.pkg_eq (d : Dev) (q : Nat) : d.pkg q = (findAt d.pkgs q).getD Package.reset := lookupD_eq_findAt _ _ _

/-- A member is a package of the pod that is there and whose group is valid. -/
theorem mem_members {d : Dev} (sorted : (d.pkgs.map (·.1)).Pairwise (· < ·)) (pkg group q : Nat) : q ∈ (d.members pkg group).map (·.1) ↔
    (findAt d.pkgs q).isSome ∧ q / 1024 = pkg / 1024 ∧ (lookupD Group.reset (d.pkg q).fabric.groups group).valid = true := by
  rw [Dev.pkg_eq]
  constructor
  · intro h
    obtain ⟨⟨k, x⟩, hx, rfl⟩ := List.mem_map.mp h
    obtain ⟨listed, good⟩ := List.mem_filter.mp hx
    rw [(mem_iff_findAt sorted).mp listed]
    simpa using good
  · rintro ⟨listed, pod, valid⟩
    obtain ⟨x, hx⟩ := Option.isSome_iff_exists.mp listed
    rw [hx] at valid
    exact List.mem_map.mpr ⟨(q, x), List.mem_filter.mpr ⟨(mem_iff_findAt sorted).mpr hx, by simpa using ⟨pod, valid⟩⟩, rfl⟩

/-- A round that closes leaves every package's groups and deliveries. -/
theorem State.roundClosed_fabric (s : State) (group elem q : Nat) :
    ((s.roundClosed group elem).dev.pkg q).fabric.groups = (s.dev.pkg q).fabric.groups ∧
      ((s.roundClosed group elem).dev.pkg q).fabric.deliveries = (s.dev.pkg q).fabric.deliveries := by
  unfold roundClosed State.putPkg
  rw [State.on_dev]
  by_cases hq : q = s.cur.pkg
  · rw [hq, Dev.pkg_setPkg]
    exact ⟨rfl, rfl⟩
  · rw [Dev.pkg_setPkg_ne _ _ _ _ hq]
    exact ⟨rfl, rfl⟩

/-- A package whose group is valid is there. -/
theorem listed_of_valid {d : Dev} {q group : Nat} (h : (lookupD Group.reset (d.pkg q).fabric.groups group).valid = true) :
    (findAt d.pkgs q).isSome := by
  rw [Dev.pkg_eq] at h
  cases hq : findAt d.pkgs q with
  | none =>
    rw [hq] at h
    cases h
  | some x => rfl

/-- The members of the closed round are those that were there before it. -/
theorem mem_members_closed (sorted : (s.dev.pkgs.map (·.1)).Pairwise (· < ·)) (h : s.pkg.fabric.roundReady group elem) (q : Nat) :
    q ∈ ((s.roundClosed group elem).dev.members s.cur.pkg group).map (·.1) ↔ (findAt s.dev.pkgs q).isSome ∧ q / 1024 = s.cur.pkg / 1024 ∧
      (lookupD Group.reset (s.dev.pkg q).fabric.groups group).valid = true := by
  have there : (findAt (s.roundClosed group elem).dev.pkgs q).isSome ↔ (findAt s.dev.pkgs q).isSome := by
    by_cases hq : q = s.cur.pkg
    · rw [hq]
      exact iff_of_true (by rw [show findAt (s.roundClosed group elem).dev.pkgs s.cur.pkg = some _ from findAt_setAt_same _ _ _]; rfl)
        (listed_of_valid h.1)
    · rw [show findAt (s.roundClosed group elem).dev.pkgs q = findAt s.dev.pkgs q from findAt_setAt_ne _ _ hq]
  rw [mem_members (setAt_rising sorted _ _), there, (s.roundClosed_fabric group elem q).1]

/-- The root's result goes to every member once. -/
theorem mcrRound_root (sorted : (s.dev.pkgs.map (·.1)).Pairwise (· < ·)) (h : s.pkg.fabric.roundReady group elem)
    (root : (lookupD Group.reset s.pkg.fabric.groups group).root = true) : ∃ u, s.does (mcrRound group elem) () u ∧
      ∀ q, (u.dev.pkg q).fabric.deliveries = (s.dev.pkg q).fabric.deliveries ++
        if (findAt s.dev.pkgs q).isSome && q / 1024 == s.cur.pkg / 1024 && (lookupD Group.reset (s.dev.pkg q).fabric.groups group).valid then
          [⟨group, elem, s.pkg.fabric.roundValue group elem⟩] else [] := by
  have rising : (((s.roundClosed group elem).dev.members s.cur.pkg group).map (·.1)).Pairwise (· < ·) :=
    (setAt_rising sorted _ _).sublist (List.filter_sublist.map _)
  obtain ⟨u, hu, each⟩ := forM_giveTo rising ⟨group, elem, s.pkg.fabric.roundValue group elem⟩ (s.roundClosed group elem)
  refine ⟨u, mcrRound_delivers h root hu, fun q => ?_⟩
  rw [each, (s.roundClosed_fabric group elem q).2]
  congr 1
  refine if_cond_congr ?_
  rw [mem_members_closed sorted h]
  simp [and_assoc]

theorem mcrDeliver_does {s1 : State} {d : Delivery}
    (hd : s.pkg.fabric.deliveries.find? (fun d => d.group == group && d.elem == elem) = some d)
    (h1 : s.does (slicedWrite (lookupD Group.reset s.pkg.fabric.groups group).dom ((lookupD Group.reset s.pkg.fabric.groups group).deliv + elem) 4
      (roundFinish (lookupD Group.reset s.pkg.fabric.groups group).fmt d.value)) () s1) :
    s.does (mcrDeliver group elem) () (s1.putPkg fun x => { x with fabric := { x.fabric with
      deliveries := x.fabric.deliveries.erase d
      contribs := (markFirst (fun c : Contribution => c.group == group && c.elem == elem && c.closed) (fun _ => none)
        (lookupD Group.reset s.pkg.fabric.groups group).contrib x.fabric.contribs) } }) := by
  refine does_bind (does_thePkg s) ?_
  simp only [hd]
  exact does_bind h1 (does_modFabric s1 _)

end

/-! ### Launch packets (R362, R363) -/

section
variable {s s1 s2 t : State} {sender v advice prio : Nat}

/-- The partition that a packet names, and the context whose command it is. -/
def packetPart (v : Nat) : Nat := natBits (bytesAt v 0 8) 37 32

def Ctl.contextOf (k : Ctl) (v : Nat) : Option Nat := k.packetCtx (packetPart v) (natBits (bytesAt (bytesAt v 0x20 128) 0 8) 26 14)

theorem rackLaunchPacket_stray (hc : s.pkg.ctl.contextOf v = none)
    (ht : s.does (rackReport (launchOf (bytesAt v 0x20 128) 0 0 (packetPart v)) sender (bytesAt v 8 8) (some 4) (pure 0)) () t) :
    s.does (rackLaunchPacket sender ⟨v, advice, prio⟩) () t := by
  refine does_bind (does_thePkg s) ?_
  dsimp only
  rw [show s.pkg.ctl.packetCtx (natBits (bytesAt v 0 8) 37 32) _ = none from hc]
  exact ht

section
variable {c : Nat} {x : HostCtx} (hc : s.pkg.ctl.contextOf v = some c) (hx : findAt s.pkg.ctl.ctxs c = some x)
include hc hx

theorem rackLaunchPacket_waits (he : x.evWaiting ≠ []) : s.stops (rackLaunchPacket sender ⟨v, advice, prio⟩) .block := by
  refine does_bind_stops (does_thePkg s) ?_
  dsimp only
  rw [show s.pkg.ctl.packetCtx (natBits (bytesAt v 0 8) 37 32) _ = some c from hc]
  simp only [Option.bind_some, hx, Option.map_some]
  exact stops_if_pos (by simpa using he) (stops_bind rfl)

variable (he : x.evWaiting = []) (h1 : s.does (modServing (packetPart v) fun k => { k with mode := .s }) () s1)
include he h1

theorem rackLaunchPacket_refused {n : Nat} (h2 : s1.does (validatePacket c (packetPart v) sender v) (.error n) s2)
    (ht : s2.does (refuseRack (launchOf (bytesAt v 0x20 128) c 0 (packetPart v)) sender (bytesAt v 8 8) n) () t) :
    s.does (rackLaunchPacket sender ⟨v, advice, prio⟩) () t := by
  refine does_bind (does_thePkg s) ?_
  dsimp only
  rw [show s.pkg.ctl.packetCtx (natBits (bytesAt v 0 8) 37 32) _ = some c from hc]
  simp only [Option.bind_some, hx, Option.map_some]
  exact does_if_neg (by simp [he]) (does_bind h1 (does_bind h2 ht))

theorem rackLaunchPacket_accepted {a : Accepted} (h2 : s1.does (validatePacket c (packetPart v) sender v) (.ok a) s2)
    (ht : (s2.putPkg fun y => { y with ctl := { y.ctl with rackSeq := setAt y.ctl.rackSeq sender (bytesAt v 8 8) } }).does
      (advise c x a advice prio) () t) : s.does (rackLaunchPacket sender ⟨v, advice, prio⟩) () t := by
  refine does_bind (does_thePkg s) ?_
  dsimp only
  rw [show s.pkg.ctl.packetCtx (natBits (bytesAt v 0 8) 37 32) _ = some c from hc]
  simp only [Option.bind_some, hx, Option.map_some]
  exact does_if_neg (by simp [he]) (does_bind h1 (does_bind h2 (does_bind (does_modCtl s2 _) ht)))

end

/-- A packet's launch that proceeds is answered with the residency report. -/
theorem proceed_rack {a : Accepted} {seq idle ready h id : Nat} {r : Nat × Nat} {s3 : State} (hr : a.rack = some (sender, seq))
    (hi : s.does (idleCores a.launch.part) idle s) (hy : s.does (readyItems a.launch.part) ready s)
    (h1 : s.does (reportHandle a.launch) h s1) (h2 : s1.does (residence a.launch.dom h) r s2) (h3 : s2.does (acceptLaunch a) id s3) :
    s.does (proceed a) () (s3.putPkg fun y => { y with ctl := { y.ctl with
      rackReports := y.ctl.rackReports ++ [⟨sender, reportBytes seq id none r.1 r.2 idle ready⟩] } }) := by
  unfold proceed
  rw [hr]
  exact does_bind hi (does_bind hy (does_bind h1 (does_bind h2 (does_bind h3 (does_modCtl s3 _)))))

end

/-! ### The page-service mailbox (R327, R328) -/

section
variable {s s1 s2 s3 s4 s5 s6 t : State} {dom : Nat} {m : Mail} {ok : Bool}

theorem migrate_none (h : s.does (readMail dom) none t) : s.does (migrate dom) () t := does_bind h (does_pure t ())

theorem setrap_none (h : s.does (readMail dom) none t) : s.does (setrap dom) () t := does_bind h (does_pure t ())

theorem migrate_other (h : s.does (readMail dom) (some (m, ok)) s1) (hk : m.kind = 2) : s.does (migrate dom) () s1 :=
  does_bind h (does_if_pos (by simp [hk]) (does_pure s1 ()))

theorem setrap_other (h : s.does (readMail dom) (some (m, ok)) s1) (hk : m.kind ≠ 2) : s.does (setrap dom) () s1 :=
  does_bind h (does_if_pos (by simp [hk]) (does_pure s1 ()))

theorem migrate_malformed (h : s.does (readMail dom) (some (m, false)) s1) (hk : m.kind ≠ 2) (ht : s1.does (mailboxDone dom m.doneVa 2) () t) :
    s.does (migrate dom) () t := does_bind h (does_if_neg (by simp [hk]) (does_if_pos rfl ht))

theorem setrap_malformed (h : s.does (readMail dom) (some (m, false)) s1) (hk : m.kind = 2) (ht : s1.does (mailboxDone dom m.doneVa 2) () t) :
    s.does (setrap dom) () t := does_bind h (does_if_neg (by simp [hk]) (does_if_pos rfl ht))

section
variable (h : s.does (readMail dom) (some (m, true)) s1) (hk : m.kind ≠ 2)
include h hk

theorem migrate_unserved (h2 : s1.does (mailLeaves dom m) none s2) (ht : s2.does (mailboxDone dom m.doneVa 4) () t) :
    s.does (migrate dom) () t := does_bind h (does_if_neg (by simp [hk]) (does_if_neg Bool.false_ne_true (does_bind h2 ht)))

variable {ls : List (Nat × Nat × Nat × Nat)} (h2 : s1.does (mailLeaves dom m) (some ls) s2)
include h2

theorem migrate_full (few : (s2.pkg.ctl.freeFrames.filter fun f => frameStack f == m.stack).length < m.pages)
    (ht : s2.does (mailboxDone dom m.doneVa 3) () t) : s.does (migrate dom) () t :=
  does_bind h (does_if_neg (by simp [hk]) (does_if_neg Bool.false_ne_true (does_bind h2 (does_bind (does_thePkg s2) (does_if_pos few ht)))))

variable (room : m.pages ≤ (s2.pkg.ctl.freeFrames.filter fun f => frameStack f == m.stack).length)
include room

theorem migrate_stuck (h3 : s2.does (peerPages ls) none s3) (ht : s3.does (mailboxDone dom m.doneVa 4) () t) : s.does (migrate dom) () t :=
  does_bind h (does_if_neg (by simp [hk]) (does_if_neg Bool.false_ne_true (does_bind h2 (does_bind (does_thePkg s2)
    (does_if_neg (Nat.not_lt.mpr room) (does_bind h3 ht))))))

theorem migrate_moves {far : List (Nat × Nat × Nat × Nat)} {freed : List (Option (Nat × Nat))} (h3 : s2.does (peerPages ls) (some far) s3)
    (h4 : s3.does (startInvalidation m.va (m.va + 4096 * m.pages) .plain) () s4) (h5 : s4.does (far.mapM (movePage m.stack)) freed s5)
    (h6 : s5.does ((freed.filterMap fun f => f.map (·.1)).eraseDups.forM
      fun p => runHomeAt p 0 0 (invalidateRange m.va (m.va + 4096 * m.pages))) () s6) :
    s.does (migrate dom) () (s6.putPkg fun x => { x with ctl := { x.ctl with jobs := x.ctl.jobs.map fun j =>
      if j.1 + 1 == x.ctl.nextInval then (j.1, .mailbox dom m.doneVa (freed.filterMap id)) else j } }) :=
  does_bind h (does_if_neg (by simp [hk]) (does_if_neg Bool.false_ne_true (does_bind h2 (does_bind (does_thePkg s2)
    (does_if_neg (Nat.not_lt.mpr room) (does_bind h3 (does_bind h4 (does_bind h5 (does_bind h6 (does_modCtl s6 _))))))))))

end

section
variable (h : s.does (readMail dom) (some (m, true)) s1) (hk : m.kind = 2)
include h hk

theorem setrap_unserved (h2 : s1.does (mailLeaves dom m) none s2) (ht : s2.does (mailboxDone dom m.doneVa 4) () t) :
    s.does (setrap dom) () t := does_bind h (does_if_neg (by simp [hk]) (does_if_neg Bool.false_ne_true (does_bind h2 ht)))

theorem setrap_marks {ls : List (Nat × Nat × Nat × Nat)} (h2 : s1.does (mailLeaves dom m) (some ls) s2)
    (h3 : s2.does (startInvalidation m.va (m.va + 4096 * m.pages) (.mailbox dom m.doneVa [])) () s3)
    (ht : s3.does (ls.forM fun l => writeTable l.2.1 8 (if natBits l.2.2.1 5 5 == 1 then l.2.2.1 else l.2.2.1 + 2 ^ 5)) () t) :
    s.does (setrap dom) () t :=
  does_bind h (does_if_neg (by simp [hk]) (does_if_neg Bool.false_ne_true (does_bind h2 (does_bind h3 ht))))

end

end

/-! ### Parked messages (R182) -/

/-- The messages parked where the image was sealed follow those of the image, and the strand stands on the core. -/
def followMessages (p old : Nat) (x : Strand) (ms : List Message) : M Unit := do
  modCoreAt p old fun y => { y with inbox := y.inbox.filter fun m => !(m.parked && m.dom == x.dom) }
  modCore fun y => { y with inbox := y.inbox ++ ms }
  setStrand x.va fun y => { y with
    savedAt := none, kept := none, illegal := false, hostStop := false, ending := none
    state := if (x.kept.bind (·.pending)).isSome then .suspInput else .running }

section
variable {s s1 s2 t : State}

/-- What a restored strand goes on with, by what it waited for and what it owes. -/
def Strand.goesOn (x : Strand) (c : Core) : M Unit :=
  match x.kept.bind (·.pending), x.ending with
  | some q, _ => modCore fun y => { y with mode := .resolving q }
  | none, some cause => do
    modCore fun y => { y with mode := .running }
    retireFault cause
  | none, none => do
    if x.illegal then
      modCore fun y => { y with mode := .running }
      exceptionOpen .illegal (BitVec.ofNat 64 ((c.cur.map (·.handle)).getD 0))
    else
      runOn
      raiseOwed

section
variable {x : Strand} {c : Core} (hp : x.kept.bind (·.pending) = none)

theorem goesOn_pending {q : Pending} (hp : x.kept.bind (·.pending) = some q) :
    s.does (x.goesOn c) () (s.put fun y => { y with mode := .resolving q }) := by
  unfold Strand.goesOn
  rw [hp]
  exact does_modCore s _

include hp

theorem goesOn_ending {cause : Nat} (he : x.ending = some cause) (ht : (s.put fun y => { y with mode := .running }).does (retireFault cause) () t) :
    s.does (x.goesOn c) () t := by
  unfold Strand.goesOn
  rw [hp, he]
  exact does_bind (does_modCore s _) ht

variable (he : x.ending = none)
include he

theorem goesOn_illegal (hi : x.illegal = true) (ht : (s.put fun y => { y with mode := .running }).does
    (exceptionOpen .illegal (BitVec.ofNat 64 ((c.cur.map (·.handle)).getD 0))) () t) : s.does (x.goesOn c) () t := by
  unfold Strand.goesOn
  rw [hp, he]
  exact does_if_pos hi (does_bind (does_modCore s _) ht)

theorem goesOn_runs (hi : x.illegal = false) (h1 : s.does runOn () s1) (ht : s1.does raiseOwed () t) : s.does (x.goesOn c) () t := by
  unfold Strand.goesOn
  rw [hp, he]
  exact does_if_neg (Bool.eq_false_iff.mp hi) (does_bind h1 ht)

end

theorem parkedMessageForward_idle (h : s.core.mode ≠ .restored) : s.does parkedMessageForward () s := by
  refine does_bind (does_theCore s) (does_bind (does_read s) (does_bind (does_findStrand s _) ?_))
  dsimp only
  split
  · next restored _ => exact absurd restored h
  · exact does_pure s ()

section
variable {x : Strand} {old : Nat} (hm : s.core.mode = .restored) (hx : s.does (findStrand s.core.strand.toNat) (some x) s) (ho : x.savedAt = some old)
  (h1 : s.does (followMessages s.cur.pkg old x
    (((s.pkg.core old).inbox.filter fun m => m.parked && m.dom == x.dom).map fun m => { m with parked := false })) () s1)
include hm hx ho h1

theorem parkedMessageForward_goes (ht : s1.does (x.goesOn s.core) () t) : s.does parkedMessageForward () t := by
  obtain ⟨_, _, ha, h1⟩ := does_of_bind h1
  obtain ⟨_, _, hb, hc⟩ := does_of_bind h1
  refine does_bind (does_theCore s) (does_bind (does_read s) (does_bind hx ?_))
  simp only [hm, ho]
  exact does_bind (does_coreAt s _ _) (does_bind ha (does_bind hb (does_bind hc ht)))

end

end

/-- Settles O52: each event is its computations in order; the root's result goes once to each member that is there. -/
theorem fabricEvents : Obligations.FabricEvents := by
  unfold Obligations.FabricEvents
  intro s s1 s2 s3 s4 s5 s6 t
  dsimp only
  refine ⟨fun group elem => ⟨?waits, ?blocks, ?sends, ?root, ?delivers⟩,
    fun sender v advice prio => ⟨?stray, fun c x hc hx => ⟨?busy, ?packet⟩⟩,
    fun dom ok m => ⟨?noMail, ?mail⟩, ?idle, ?parked⟩
  case waits => exact fun h => event_next (mcrRound_waits h)
  case blocks => exact fun h inner route => perform_blocks (mcrRound_blocks h inner route)
  case sends => exact fun h inner route => event_next (mcrRound_sends h inner route)
  case root =>
    intro h root sorted
    obtain ⟨u, hu, each⟩ := mcrRound_root sorted h root
    exact ⟨u, event_next hu, each⟩
  case delivers => exact fun d hd h1 => event_next (mcrDeliver_does hd h1)
  case stray => exact fun hc ht => event_next (rackLaunchPacket_stray hc ht)
  case busy => exact fun he => perform_blocks (rackLaunchPacket_waits hc hx he)
  case packet =>
    refine fun he h1 => ⟨fun n h2 ht => event_next (rackLaunchPacket_refused hc hx he h1 h2 ht), fun a h2 => ⟨fun ht => ?_, ?_⟩⟩
    · exact event_next (rackLaunchPacket_accepted hc hx he h1 h2 ht)
    · exact fun idle ready h r id hp hr hi hy h3 h4 h5 =>
        event_next (rackLaunchPacket_accepted hc hx he h1 h2 (advise_absent hp (proceed_rack hr hi hy h3 h4 h5)))
  case noMail => exact fun h => ⟨event_next (migrate_none h), event_next (setrap_none h)⟩
  case mail =>
    refine fun h => ⟨fun hk => event_next (migrate_other h hk), fun hk => event_next (setrap_other h hk), ?_, ?_, ?_, ?_⟩
    · rintro hk rfl ht
      exact event_next (migrate_malformed h hk ht)
    · rintro hk rfl ht
      exact event_next (setrap_malformed h hk ht)
    · rintro hk rfl
      refine ⟨fun h2 ht => event_next (migrate_unserved h hk h2 ht), fun ls h2 => ⟨fun few ht => event_next (migrate_full h hk h2 few ht),
        fun room => ⟨fun h3 ht => event_next (migrate_stuck h hk h2 room h3 ht), fun far freed h3 h4 h5 h6 => ?_⟩⟩⟩
      exact event_next (migrate_moves h hk h2 room h3 h4 h5 h6)
    · rintro hk rfl
      exact ⟨fun h2 ht => event_next (setrap_unserved h hk h2 ht), fun ls h2 h3 ht => event_next (setrap_marks h hk h2 h3 ht)⟩
  case idle => exact fun h => event_next (parkedMessageForward_idle h)
  case parked =>
    intro x old hm hx ho h1
    have run {w : State} (ht : s1.does (x.goesOn s.core) () w) : exec .parkedMessageForward s = .next w :=
      event_next (parkedMessageForward_goes hm hx ho h1 ht)
    exact ⟨fun q hp => run (goesOn_pending hp), fun cause hp he ht => run (goesOn_ending hp he ht), fun hp he =>
      ⟨fun hi ht => run (goesOn_illegal hp he hi ht), fun hi h2 ht => run (goesOn_runs hp he hi h2 ht)⟩⟩

end Sys2Proof.Machine
end

section
/-!
PROOF. The schedule (R134, logs 3 and 4): every instruction is a unit and every event a computation over the hardware, so none of them
moves the time, the cursor or the turns to come; a step takes one turn.
-/

namespace Sys2Proof.Machine

/-- Each instruction's meaning is a computation carried out on the state: of a running core for a unit, of any core for an event. -/
theorem exec_performs (i : Instr) (s : State) : ∃ x : M Unit, exec i s = unitOn x s ∨ exec i s = event x s := by
  cases i with
  | btabSlotReplace | bankCommandComplete | copyCommandComplete | podBarrierArrival | islandDepart | messageArrival | sliceEnd |
    drainWatchdog | imageSeal | parkedMessageForward | strandDispatch | dockEnter | copyIn | copyInComplete | codeFetchStage |
    neighbourTimeout | codeInstall | codePoison | launchStrand | launchGraph | launchLattice | launchArchipelago |
    graphNodeFinish | controlNodeEval | loopNodeEval | bandStart | bandReconstruct | completionForward | completionRecordWrite |
    fabricCommandComplete | mcrRound | mcrDeliver | podApertureEntryWrite | groupEntryWrite | regionRegister | storePerform |
    amonAccept | atomicPerform | deferredResolve | lineFill | pageWalk | hostMemAccess | tagError | reconciliationSweep |
    dataError | doorbell | eventRingSpace | registerWrite | partcfg | ctxcfg | ctxreset | domcfg | domfree | trust | keyset |
    rangeinv | plbshoot | rangeInvalidationPerform | migrate | setrap | faultres | teardown | preempt | restore |
    rackLaunchPacket | loadDataReturn | gathTPush | barrierLineArrival | eventChainSignal | qdeadlock | pdmSample | replan |
    clockStep | quadFence | bankFence | hbmRowRepair | linkLaneFence | replayEnter | checkpoint | checkpointRestore =>
    exact ⟨_, .inr rfl⟩
  | priorityAgeing => exact ⟨priorityAgeing, .inr rfl⟩
  | narrowsMessageAck n j b => exact ⟨narrowsMessageAck n j b, .inr rfl⟩
  | narrowsRetransmit n j => exact ⟨narrowsRetransmit n j, .inr rfl⟩
  | routeTableLoad d h => exact ⟨routeTableLoad d h, .inr rfl⟩
  | peerDeclaredLost p => exact ⟨peerDeclaredLost p, .inr rfl⟩
  | regionDeregister k => exact ⟨regionDeregister k, .inr rfl⟩
  | keyRevoke k => exact ⟨keyRevoke k, .inr rfl⟩
  | dirtyBitmapSweep => exact ⟨dirtyBitmapSweep, .inr rfl⟩
  | scrub => exact ⟨scrub, .inr rfl⟩
  | deviceReset l i g => exact ⟨deviceReset l i g, .inr rfl⟩
  | _ => exact ⟨_, .inl rfl⟩

/-- No instruction and no event changes anything but the hardware. -/
theorem exec_on {i : Instr} {s t : State} (h : exec i s = .next t) : ∃ d, t = s.on d := by
  obtain ⟨x, hx | hx⟩ := exec_performs i s
  · exact unitOn_next (hx ▸ h)
  · exact event_on (hx ▸ h)

/-- Settles O5: each is a computation over the hardware. -/
theorem execKeepsSchedule : Obligations.ExecKeepsSchedule := by
  unfold Obligations.ExecKeepsSchedule
  intro i s t h
  obtain ⟨d, rfl⟩ := exec_on h
  exact ⟨rfl, rfl, rfl⟩

/-! ### Turns taken -/

/-- How long a turn lets time pass. -/
def Turn.passes : Turn → Nat
  | .elapse n => n
  | _ => 0

theorem onSchedule_iff {start s : State} : OnSchedule start s ↔
    ∃ taken, start.agenda = taken ++ s.agenda ∧ s.time = start.time + (taken.map Turn.passes).sum := by
  have same : (fun t : Turn => match t with | .elapse n => n | _ => 0) = Turn.passes := by
    funext t
    cases t <;> rfl
  rw [← same]
  rfl

/-- What a step that takes no turn leads to is on the schedule. -/
theorem onSchedule_of_stay {start s t : State} (h : OnSchedule start s) (ha : t.agenda = s.agenda) (ht : t.time = s.time) :
    OnSchedule start t := by
  obtain ⟨taken, hs, htime⟩ := onSchedule_iff.mp h
  exact onSchedule_iff.mpr ⟨taken, by rw [hs, ha], by rw [ht, htime]⟩

/-- What a step that takes the next turn leads to is on the schedule. -/
theorem onSchedule_of_turn {start s t : State} {turn : Turn} (h : OnSchedule start s) (ha : s.agenda = turn :: t.agenda)
    (ht : t.time = s.time + turn.passes) : OnSchedule start t := by
  obtain ⟨taken, hs, htime⟩ := onSchedule_iff.mp h
  refine onSchedule_iff.mpr ⟨taken ++ [turn], by rw [hs, ha, List.append_assoc]; rfl, ?_⟩
  rw [ht, htime, List.map_append, List.sum_append, List.map_singleton, List.sum_singleton, Nat.add_assoc]

/-- A turn of an event that names no event is taken, and nothing happens. -/
theorem step_other_turn {s : State} {p c : Nat} {i : Instr} {rest : List Turn} (h : s.agenda = .event p c i :: rest)
    (hi : ¬ isEvent i = true) : step s = .next { s with cur := ⟨p, c, .A⟩, agenda := rest } := by
  rw [step, h]
  exact if_neg hi

/-- Settles O6: a step takes no turn, or the next one, and only the passing of time moves TIME. -/
theorem stepKeepsSchedule : Obligations.StepKeepsSchedule := by
  unfold Obligations.StepKeepsSchedule
  intro start s t hs h
  match ha : s.agenda with
  | [] =>
    rw [step_without_turn ha] at h
    obtain ⟨d, rfl⟩ := exec_on h
    exact onSchedule_of_stay hs rfl rfl
  | .unit p c st :: rest =>
    rw [step_unit_turn ha] at h
    obtain ⟨d, rfl⟩ := exec_on h
    exact onSchedule_of_turn hs ha rfl
  | .event p c i :: rest =>
    by_cases hi : isEvent i = true
    · rw [step_event_turn ha hi] at h
      obtain ⟨d, rfl⟩ := exec_on h
      exact onSchedule_of_turn hs ha rfl
    · rw [step_other_turn ha hi] at h
      obtain rfl := Host.Outcome.next.inj h
      exact onSchedule_of_turn hs ha rfl
  | .elapse n :: rest =>
    rw [step_elapse_turn ha] at h
    obtain rfl := Host.Outcome.next.inj h
    exact onSchedule_of_turn hs ha rfl

end Sys2Proof.Machine
end

section
/-!
PROOF. The scalar instructions (R93 to R100): which instructions of Safety.lean's lists have which shared form, what each form leads
to, and what is read and written of the predicates.
-/

namespace Sys2Proof.Machine

/-! ### The shared forms (R93, R95, R96) -/

section
variable {s s1 s2 s3 : State} {d a b : BitVec 5} {x y : Word}

theorem binary_does (f : Word → Word → Word) (ha : s.does (src a) x s1) (hb : s1.does (src b) y s2)
    (hd : s2.does (dst d (f x y)) () s3) : s.does (binary f d a b) .seq s3 :=
  does_bind ha (does_bind hb (does_bind hd (does_pure s3 _)))

theorem unary_does (f : Word → Word) (ha : s.does (src a) x s1) (hd : s1.does (dst d (f x)) () s2) :
    s.does (unary f d a) .seq s2 :=
  does_bind ha (does_bind hd (does_pure s2 _))

theorem actLui_does {i : BitVec 19} (hd : s.does (dst d (luiValue i)) () s1) : s.does (actLui d i) .seq s1 :=
  does_bind hd (does_pure s1 _)

theorem actInsh_does {h : BitVec 2} {i : BitVec 16} (ha : s.does (src d) x s1) (hd : s1.does (dst d (inshValue x h i)) () s2) :
    s.does (actInsh d h i) .seq s2 :=
  does_bind ha (does_bind hd (does_pure s2 _))

end

/-! ### Which instructions have which form -/

section
variable (d a b : BitVec 5) (s : State)

theorem exec_twoSourceOps : ∀ op ∈ twoSourceOps, exec (op.1 d a b) s = lone (op.1 d a b) (binary op.2 d a b) s := by
  unfold twoSourceOps
  repeat refine List.forall_mem_cons.mpr ⟨rfl, ?_⟩
  exact List.forall_mem_nil _

theorem exec_oneSourceOps : ∀ op ∈ oneSourceOps, exec (op.1 d a) s = lone (op.1 d a) (unary op.2 d a) s := by
  unfold oneSourceOps
  repeat refine List.forall_mem_cons.mpr ⟨rfl, ?_⟩
  exact List.forall_mem_nil _

theorem exec_immediateOps (i : BitVec 14) : ∀ op ∈ immediateOps,
    exec (op.1 d a i) s = lone (op.1 d a i) (unary (fun x => op.2 x (i.signExtend 64)) d a) s := by
  unfold immediateOps
  repeat refine List.forall_mem_cons.mpr ⟨rfl, ?_⟩
  exact List.forall_mem_nil _

theorem exec_shiftOps (n : BitVec 6) : ∀ op ∈ shiftOps,
    exec (op.1 d a n) s = lone (op.1 d a n) (unary (fun x => op.2 x n.toNat) d a) s := by
  unfold shiftOps
  repeat refine List.forall_mem_cons.mpr ⟨rfl, ?_⟩
  exact List.forall_mem_nil _

end

/-- Settles O10: an instruction of the list has the form of two sources. -/
theorem scalarTwoSources : Obligations.ScalarTwoSources := by
  unfold Obligations.ScalarTwoSources
  intro op mem d a b s s1 s2 s3 x y ready ha hb hd straight
  rw [exec_twoSourceOps d a b s op mem]
  exact lone_next ready (binary_does op.2 ha hb hd) (.inl rfl) straight

/-- Settles O11: an instruction of a list has the form of one source; LUI and INSH have forms of their own. -/
theorem scalarOneSource : Obligations.ScalarOneSource := by
  unfold Obligations.ScalarOneSource
  intro s s1 s2 x
  refine ⟨?one, ?immediate, ?shift, ?lui, ?insh⟩
  case one =>
    intro op mem d a ready ha hd straight
    rw [exec_oneSourceOps d a s op mem]
    exact lone_next ready (unary_does op.2 ha hd) (.inl rfl) straight
  case immediate =>
    intro op mem d a i ready ha hd straight
    rw [exec_immediateOps d a s i op mem]
    exact lone_next ready (unary_does (fun x => op.2 x (i.signExtend 64)) ha hd) (.inl rfl) straight
  case shift =>
    intro op mem d a n ready ha hd straight
    rw [exec_shiftOps d a s n op mem]
    exact lone_next ready (unary_does (fun x => op.2 x n.toNat) ha hd) (.inl rfl) straight
  case lui => exact fun d i ready hd => lone_next ready (actLui_does hd) (.inl rfl)
  case insh => exact fun d h i ready ha hd => lone_next ready (actInsh_does ha hd) (.inl rfl)

/-! ### Predicates (R97 to R100) -/

section
variable {s s1 s2 s3 : State} {x y : Word} {u v : Bool}

theorem writePred_zero (s : State) (b : Bool) : s.does (writePred 0 b) () s := does_pure s ()

theorem writePred_does {p : BitVec 3} (s : State) (b : Bool) (hp : p ≠ 0) :
    s.does (writePred p b) () (s.put fun c => c.putPred s.cur.stream p b) := by
  rw [writePred, if_neg (by simpa using hp)]
  refine does_bind (does_theStream s) ?_
  simp only [Core.putPred, if_neg hp]
  cases s.cur.stream with
  | A => exact does_modCore s _
  | X => exact does_modCore s _

/-- PMOV's source has p0 at 1, whatever the register of predicates holds (R100). -/
theorem readPreds_p0 {w : BitVec 8} (h : s.does readPreds w s1) : w.getLsbD 0 = true := by
  have run : s.does readPreds ((match s.cur.stream with | .A => s.core.pa | .X => s.core.px) ||| 1) s := by
    refine does_bind (does_theStream s) ?_
    cases s.cur.stream with
    | A => exact does_bind (does_theCore s) (does_pure s _)
    | X => exact does_bind (does_theCore s) (does_pure s _)
  obtain ⟨rfl, -⟩ := does_unique run h
  simp

theorem cmpiImm_eq (c : BitVec 3) (i : BitVec 13) :
    cmpiImm c i = if c = 3 ∨ c = 5 then i.setWidth 64 else i.signExtend 64 := by
  simp [cmpiImm]

theorem actCmp_does {p c : BitVec 3} {a b : BitVec 5} (ha : s.does (src a) x s1) (hb : s1.does (src b) y s2)
    (hp : s2.does (writePred p (scalarCc c x y)) () s3) : s.does (actCmp p c a b) .seq s3 :=
  does_bind ha (does_bind hb (does_bind hp (does_pure s3 _)))

theorem actCmpi_does {p c : BitVec 3} {a : BitVec 5} {i : BitVec 13} (ha : s.does (src a) x s1)
    (hp : s1.does (writePred p (scalarCc c x (cmpiImm c i))) () s2) : s.does (actCmpi p c a i) .seq s2 :=
  does_bind ha (does_bind hp (does_pure s2 _))

theorem actPlog_does {d f a b : BitVec 3} (ha : s.does (readPred a) u s) (hb : s.does (readPred b) v s)
    (hd : s.does (writePred d (plogValue f u v)) () s1) : s.does (actPlog d f a b) .seq s1 :=
  does_bind ha (does_bind hb (does_bind hd (does_pure s1 _)))

theorem actSel_does {d a b : BitVec 5} {g : BitVec 4} (ha : s.does (src a) x s1) (hb : s1.does (src b) y s2)
    (hg : s2.does (guardHolds g) u s2) (hd : s2.does (dst d (if u then x else y)) () s3) : s.does (actSel d a b g) .seq s3 :=
  does_bind ha (does_bind hb (does_bind hg (does_bind hd (does_pure s3 _))))

theorem actPmovToReg_does {r : BitVec 5} {w : BitVec 8} (hr : s.does readPreds w s) (hd : s.does (dst r (w.setWidth 64)) () s1) :
    s.does (actPmovToReg r) .seq s1 :=
  does_bind hr (does_bind hd (does_pure s1 _))

theorem actPmovFromReg_does {r : BitVec 5} (ha : s.does (src r) x s1) (hw : s1.does (writePreds (x.setWidth 8)) () s2) :
    s.does (actPmovFromReg r) .seq s2 :=
  does_bind ha (does_bind hw (does_pure s2 _))

end

/-- Settles O12: p0 is no predicate that a write changes; each instruction is a lone unit of its reads and one write. -/
theorem predicates : Obligations.Predicates := by
  unfold Obligations.Predicates
  intro s s1 s2 s3 x y
  refine ⟨writePred_zero s, fun p b hp => writePred_does s b hp, ?cmp, ?cmpi, ?plog, ?sel, ?pmovToReg, ?pmovFromReg⟩
  case cmp => exact fun p c a b ready ha hb hp => lone_next ready (actCmp_does ha hb hp) (.inl rfl)
  case cmpi =>
    intro p c a i ready ha hp
    rw [← cmpiImm_eq] at hp
    exact lone_next ready (actCmpi_does ha hp) (.inl rfl)
  case plog => exact fun d f a b u v ready ha hb hd => lone_next ready (actPlog_does ha hb hd) (.inl rfl)
  case sel => exact fun d a b g u ready ha hb hg hd => lone_next ready (actSel_does ha hb hg hd) (.inl rfl)
  case pmovToReg =>
    exact fun r v ready hr hd straight => ⟨readPreds_p0 hr, lone_next ready (actPmovToReg_does hr hd) (.inl rfl) straight⟩
  case pmovFromReg => exact fun r ready ha hw => lone_next ready (actPmovFromReg_does ha hw) (.inl rfl)

end Sys2Proof.Machine
end

section
/-!
PROOF. Traps, delay slots and tokens (R60, R61, R65, R90, R91, R101, R102, R118, R135).
-/

namespace Sys2Proof.Machine

/-! ### Traps -/

section
variable {s t : State}

theorem trapUnit_does {i : Instr} {c : BitVec 16} (hg : s.does (gate i) () s)
    (ht : (s.put fun k => k.setStr s.cur.stream { k.str s.cur.stream with off := (k.str s.cur.stream).off + 4 }).does
      (exception .break_ (c.setWidth 64) 0 false) () t) : s.does (trapUnit i c) () t :=
  does_bind (does_attempt hg) (does_bind (does_theStream s) (does_bind (does_modCore s _) ht))

theorem pastBody_does (ht : (s.put fun k => k.setStr s.cur.stream
      { k.str s.cur.stream with off := 4 * (s.core.body s.cur.stream).length }).does
      (exception .illegal (BitVec.ofNat 64 (4 * (s.core.body s.cur.stream).length)) 0 false) () t) : s.does pastBody () t :=
  does_bind (does_theStream s) (does_bind (does_theCore s) (does_bind (does_modCore s _) ht))

end

/-- Settles O16: each is a unit whose effect is to take the exception. -/
theorem trapsTaken : Obligations.TrapsTaken := by
  unfold Obligations.TrapsTaken
  intro s t running
  exact ⟨fun c hg ht => unitOn_does running (trapUnit_does hg ht), fun ht => unitOn_does running ht,
    fun w ht => unitOn_does running ht, fun ht => unitOn_does running (pastBody_does ht)⟩

/-! ### Branches (R90, R91) -/

section
variable {t : StreamState} {b : Branch} {n : Nat}

theorem advance_branches (h : t.pend = none) (tgt : Option Word) :
    t.advance n (.br tgt) = ({ t with off := t.off + n, pend := some ⟨2, tgt⟩ }, none) := by
  simp [StreamState.advance, h]

theorem advance_counts (h : t.pend = some b) (hb : 1 < b.left) :
    t.advance n .seq = ({ t with off := t.off + n, pend := some { b with left := b.left - 1 } }, none) := by
  have : ¬ b.left ≤ 1 := by omega
  simp [StreamState.advance, h, this]

theorem advance_transfers (h : t.pend = some b) (hb : b.left ≤ 1) :
    t.advance n .seq = ({ t with off := t.off + n, pend := none }, b.target) := by
  simp [StreamState.advance, h, hb]

end

section
variable {s v : State} {t : Word}

/-- The state whose stream stands at a branch's target. -/
def State.standsAt (s : State) (t : Word) : State :=
  s.put fun c => c.setStr s.cur.stream { c.str s.cur.stream with off := t.toNat % 2 ^ 32 }

/-- Where a stream stands is no part of its code. -/
theorem body_standsAt (s : State) (t : Word) : (s.standsAt t).core.body s.cur.stream = s.core.body s.cur.stream := by
  rw [State.standsAt, State.put_core]
  cases s.cur.stream <;> rfl

theorem transfer_good (h : unitStart ((s.standsAt t).core.body s.cur.stream) t.toNat = true) :
    s.does (transfer t) () (s.standsAt t) := by
  rw [body_standsAt] at h
  refine does_bind (does_theStream s) (does_bind (does_theCore s) (does_bind (does_modCore s _) ?_))
  exact does_if_neg (by simp [h]) (does_pure (s.standsAt t) ())

theorem transfer_bad (h : unitStart ((s.standsAt t).core.body s.cur.stream) t.toNat = false)
    (hv : (s.standsAt t).does (exception .illegal t 0 false) () v) : s.does (transfer t) () v := by
  rw [body_standsAt] at h
  refine does_bind (does_theStream s) (does_bind (does_theCore s) (does_bind (does_modCore s _) ?_))
  exact does_if_pos (by simp [h]) hv

end

/-- Settles O18: the count of a branch goes 2, 1, none; a transfer moves the stream before its target is judged. -/
theorem delaySlots : Obligations.DelaySlots := by
  unfold Obligations.DelaySlots
  exact ⟨fun t tgt h => advance_branches h tgt, fun t tgt n h => advance_counts h Nat.one_lt_two,
    fun t tgt n h => advance_transfers h (Nat.le_refl 1), fun s t => ⟨transfer_good, fun v => transfer_bad⟩⟩

/-! ### Tokens (R101, R102, R118) -/

section
variable {s s1 s2 : State} {d a : BitVec 5} {x : Word} {k : Nat} {tk : Token}

theorem actFence_does {e : BitVec 2} {c : BitVec 3} {cov : List Nat} {n : Nat} {tok : Word} (hc : s.does (fenceCovers e) cov s)
    (ht : s.does (takeToken (.fence cov) none) (n, tok) s1) (hd : s1.does (dst d tok) () s2) :
    s.does (actFence d e c) .seq s2 :=
  does_bind hc (does_bind ht (does_bind hd (does_pure s2 _)))

section
variable (ha : s.does (src a) x s1) (hk : heldSlot s1.core x = some k) (ht : findAt s1.core.tokens k = some tk)
include ha hk ht

theorem actTwait_does {st : BitVec 16} (hs : s1.does (tokenStatus tk) (some st) s1)
    (hd : s1.does (dst d (st.setWidth 64)) () s2) : s.does (actTwait d a) .seq (s2.put fun c => c.freeToken k) := by
  refine does_bind ha (does_bind (does_theCore s1) ?_)
  rw [hk]
  dsimp only
  rw [ht]
  exact does_bind hs (does_bind hd (does_bind (does_modCore s2 _) (does_pure _ _)))

theorem actTwait_blocks (hs : s1.does (tokenStatus tk) none s1) : s.stops (actTwait d a) .block := by
  refine does_bind_stops ha (does_bind_stops (does_theCore s1) ?_)
  rw [hk]
  dsimp only
  rw [ht]
  exact does_bind_stops hs rfl

end

end

/-- Settles O19: FENCE and TWAIT are lone units; TWAIT's effect ends with its slot freed, or waits. -/
theorem tokensWaited : Obligations.TokensWaited := by
  unfold Obligations.TokensWaited
  intro s s1 s2 x
  exact ⟨fun d k c cov n tok ready hc ht hd => lone_next ready (actFence_does hc ht hd) (.inl rfl),
    fun d a k tk st ready ha hk ht hs hd => lone_next ready (actTwait_does ha hk ht hs hd) (.inl rfl),
    fun d a k tk ready ha hk ht hs => lone_blocks ready (actTwait_blocks ha hk ht hs)⟩

end Sys2Proof.Machine
end

section
/-!
PROOF. Accesses (R104 to R109, R169): the checks of a load, a store and an atomic, what an access of the own scratchpad and a load of
memory lead to, own stores laid over what memory holds, and a fault that is owed.
-/

namespace Sys2Proof.Machine

section
variable {α : Type}

theorem stops_block (s : State) : s.stops (block : M α) .block := rfl

theorem stops_raise (s : State) (c : Cause) (ea : Word) : s.stops (raise c ea : M α) (.raise c ea) := rfl

end

/-! ### The checks of R106 -/

section
variable {s t : State} {need : Need} {ea : Word} {n j : Nat} {m : Bool} {e : Stop}

theorem checkLocks_free (h : s.core.locked ea.toNat n = false) : s.does (checkLocks ea n) () s :=
  does_bind (does_theCore s) (does_raise_if (by simp [h]))

theorem checkLocks_locked (h : s.core.locked ea.toNat n = true) : s.stops (checkLocks ea n) (.raise .rangelock ea) :=
  does_bind_stops (does_theCore s) (stops_raise_if h)

theorem checkAccess_unaligned (h : ea.toNat % n ≠ 0) : s.stops (checkAccess need ea n) (.raise .align ea) :=
  stops_if_pos (by simpa using h) (stops_bind (stops_raise s _ _))

theorem checkAtomic_unaligned (h : ea.toNat % n ≠ 0) : s.stops (checkAtomic need ea n) (.raise .align ea) :=
  stops_if_pos (by simpa using h) (stops_bind (stops_raise s _ _))

section
variable (ha : ea.toNat % n = 0)
include ha

theorem checkAccess_mem (hs : space ea.toNat = .mem) :
    checkAccess need ea n = (do let m ← checkRights ea need ea.toNat n; checkLocks ea n; return m) := by
  simp [checkAccess, ha, hs]

theorem checkAccess_scratch (hs : space ea.toNat = .scratch j) : checkAccess need ea n = (do checkLocks ea n; return true) := by
  simp [checkAccess, ha, hs]

theorem checkAccess_window (hm : space ea.toNat ≠ .mem) (hj : ∀ j, space ea.toNat ≠ .scratch j)
    (hk : ∀ i k o, space ea.toNat ≠ .arc i k o) : checkAccess need ea n = raise .aperture ea := by
  simp only [checkAccess, ha, bne_self_eq_false, Bool.false_eq_true, if_false]

theorem checkAtomic_mem (hs : space ea.toNat = .mem) :
    checkAtomic need ea n = (do let m ← checkRights ea need ea.toNat n; checkLocks ea n; return m) := by
  simp [checkAtomic, ha, hs]

theorem checkAtomic_window (hm : space ea.toNat ≠ .mem) : checkAtomic need ea n = raise .aperture ea := by
  simp only [checkAtomic, ha, bne_self_eq_false, Bool.false_eq_true, if_false]

/-- In memory an atomic is checked as a load or a store is. -/
theorem checkAtomic_eq_checkAccess (hs : space ea.toNat = .mem) : checkAtomic need ea n = checkAccess need ea n := by
  rw [checkAtomic_mem ha hs, checkAccess_mem ha hs]

theorem checkAccess_unlocked (hs : space ea.toNat = .mem) (hr : s.does (checkRights ea need ea.toNat n) m t)
    (hl : t.core.locked ea.toNat n = false) : s.does (checkAccess need ea n) m t := by
  rw [checkAccess_mem ha hs]
  exact does_bind hr (does_bind (checkLocks_free hl) (does_pure t m))

theorem checkAccess_locked (hs : space ea.toNat = .mem) (hr : s.does (checkRights ea need ea.toNat n) m t)
    (hl : t.core.locked ea.toNat n = true) : s.stops (checkAccess need ea n) (.raise .rangelock ea) := by
  rw [checkAccess_mem ha hs]
  exact does_bind_stops hr (stops_bind (checkLocks_locked hl))

theorem checkAccess_refused (hs : space ea.toNat = .mem) (hr : s.stops (checkRights ea need ea.toNat n) e) :
    s.stops (checkAccess need ea n) e := by
  rw [checkAccess_mem ha hs]
  exact stops_bind hr

theorem checkAccess_scratch_unlocked (hs : space ea.toNat = .scratch j) (hl : s.core.locked ea.toNat n = false) :
    s.does (checkAccess need ea n) true s := by
  rw [checkAccess_scratch ha hs]
  exact does_bind (checkLocks_free hl) (does_pure s true)

theorem checkAccess_scratch_locked (hs : space ea.toNat = .scratch j) (hl : s.core.locked ea.toNat n = true) :
    s.stops (checkAccess need ea n) (.raise .rangelock ea) := by
  rw [checkAccess_scratch ha hs]
  exact stops_bind (checkLocks_locked hl)

end

end

/-- Settles O26: the checks stand in order, and what an address names decides which there are. -/
theorem accessChecks : Obligations.AccessChecks := by
  unfold Obligations.AccessChecks
  intro s need ea n
  refine ⟨fun h => ⟨checkAccess_unaligned h, checkAtomic_unaligned h⟩,
    fun ha => ⟨?aperture, ?atomicAperture, ?rights, ?locks, fun j hs => ?scratch⟩⟩
  case aperture =>
    intro hj hk hm
    rw [checkAccess_window ha hm hj hk]
    exact stops_raise s _ _
  case atomicAperture =>
    intro hm
    rw [checkAtomic_window ha hm]
    exact stops_raise s _ _
  case rights =>
    intro e hs hr
    rw [checkAtomic_eq_checkAccess ha hs]
    exact ⟨checkAccess_refused ha hs hr, checkAccess_refused ha hs hr⟩
  case locks =>
    intro m t hs hr
    rw [checkAtomic_eq_checkAccess ha hs]
    exact ⟨fun hl => ⟨checkAccess_locked ha hs hr hl, checkAccess_locked ha hs hr hl⟩,
      fun hl => ⟨checkAccess_unlocked ha hs hr hl, checkAccess_unlocked ha hs hr hl⟩⟩
  case scratch => exact ⟨checkAccess_scratch_locked ha hs, checkAccess_scratch_unlocked ha hs⟩

/-! ### The own scratchpad (R107) -/

section
variable {s s1 s2 : State} {ea : Word} {off n v : Nat} {m : Bool} {rel : Option Nat}

theorem scratchRead_clean (h : poisonedParts s.core.scratchPois off n = false) :
    s.does (scratchRead ea off n) (s.core.scratch.read off n) s := by
  refine does_bind (does_read s) (does_bind (does_read s) (does_bind (does_coreAt _ _ _) ?_))
  exact does_if_neg (ne_true_of_eq_false h) (does_pure s _)

theorem scratchRead_poisoned (h : poisonedParts s.core.scratchPois off n = true) :
    s.stops (scratchRead ea off n) (.raise .poison ea) := by
  refine does_bind_stops (does_read s) (does_bind_stops (does_read s) (does_bind_stops (does_coreAt _ _ _) ?_))
  exact stops_if_pos h (stops_bind (stops_raise s _ _))

theorem scratchWrite_does (s : State) (off n v : Nat) :
    s.does (scratchWrite off n v) () (s.put fun k => k.scratchWrite off n v) := does_modCore s _

section
variable (hs : space ea.toNat = .scratch off)
include hs

theorem loadChecked_scratch : loadChecked m ea n = scratchRead ea off n := by simp [loadChecked, hs]

theorem storeChecked_scratch (hr : rel.any (4 ≤ ·) = false) : storeChecked m rel ea n v = scratchWrite off n v := by
  simp [storeChecked, hs, hr]

theorem storeChecked_scratch_release (hr : rel.any (4 ≤ ·) = true) :
    storeChecked m rel ea n v = (do implicitCommit; settled; scratchWrite off n v) := by
  simp [storeChecked, hs, hr]

variable (ha : ea.toNat % n = 0) (hl : s.core.locked ea.toNat n = false)
include ha hl

theorem load_scratch (hp : poisonedParts s.core.scratchPois off n = false) :
    s.does (load ea n) (s.core.scratch.read off n) s := by
  refine does_bind (checkAccess_scratch_unlocked ha hs hl) ?_
  rw [loadChecked_scratch hs]
  exact scratchRead_clean hp

theorem load_scratch_poisoned (hp : poisonedParts s.core.scratchPois off n = true) :
    s.stops (load ea n) (.raise .poison ea) := by
  refine does_bind_stops (checkAccess_scratch_unlocked ha hs hl) ?_
  rw [loadChecked_scratch hs]
  exact scratchRead_poisoned hp

theorem store_scratch (hr : rel.any (4 ≤ ·) = false) :
    s.does (store rel ea n v) () (s.put fun k => k.scratchWrite off n v) := by
  refine does_bind (checkAccess_scratch_unlocked ha hs hl) ?_
  rw [storeChecked_scratch hs hr]
  exact scratchWrite_does s _ _ _

theorem store_scratch_release (hr : rel.any (4 ≤ ·) = true) (h1 : s.does implicitCommit () s1) (h2 : s1.does settled () s2) :
    s.does (store rel ea n v) () (s2.put fun k => k.scratchWrite off n v) := by
  refine does_bind (checkAccess_scratch_unlocked ha hs hl) ?_
  rw [storeChecked_scratch_release hs hr]
  exact does_bind h1 (does_bind h2 (scratchWrite_does s2 _ _ _))

end

end

/-! ### Memory (R108) -/

section
variable {s s1 s2 : State} {ea : Word} {n v : Nat} {m : Bool}

/-- A posted reduction of the cursor's core covers one of the bytes. -/
def State.owesBytes (s : State) (va n : Nat) : Bool := (ownPosted s.dev s.cur.pkg s.cur.core).any fun p =>
  overlaps va (va + n) p.at_.va (p.at_.va + if p.at_.wide then 8 else 4)

theorem awaitPosted_blocks {va : Nat} (h : s.owesBytes va n = true) : s.stops (awaitPosted va n) .block :=
  does_bind_stops (does_thePosted s) (stops_if_pos h (stops_block s))

theorem awaitPosted_passes {va : Nat} (h : s.owesBytes va n = false) : s.does (awaitPosted va n) () s :=
  does_bind (does_thePosted s) (does_if_neg (ne_true_of_eq_false h) (does_pure s ()))

theorem loadChecked_mem (hs : space ea.toNat = .mem) : loadChecked m ea n = readOwn ea m n := by simp [loadChecked, hs]

section
variable (hs : space ea.toNat = .mem) (hc : s.does (checkAccess needR ea n) m s1)
include hs hc

theorem load_mem_blocks (h : s1.owesBytes ea.toNat n = true) : s.stops (load ea n) .block := by
  refine does_bind_stops hc ?_
  rw [loadChecked_mem hs]
  exact stops_bind (awaitPosted_blocks h)

theorem load_mem (h : s1.owesBytes ea.toNat n = false)
    (hv : s1.does (withM s1.core.dom.toNat m ea.toNat fun m => readUnder ea m n) v s2) :
    s.does (load ea n) (s2.core.overlay ea.toNat n v) s2 := by
  refine does_bind hc ?_
  rw [loadChecked_mem hs]
  exact does_bind (awaitPosted_passes h)
    (does_bind (does_theCore s1) (does_bind hv (does_bind (does_theCore s2) (does_pure s2 _))))

end

end

/-! ### Own stores laid over memory (R108, R109) -/

/-- The number with given bytes, the lowest first. -/
def ofBytes (f : Nat → Nat) (n : Nat) : Nat := (List.range n).foldl (fun r i => r + f i * 2 ^ (8 * i)) 0

theorem ofBytes_succ (f : Nat → Nat) (n : Nat) : ofBytes f (n + 1) = ofBytes f n + f n * 2 ^ (8 * n) := by
  simp [ofBytes, List.range_succ]

theorem ofBytes_lt {f : Nat → Nat} (hf : ∀ i, f i < 256) (n : Nat) : ofBytes f n < 2 ^ (8 * n) := by
  induction n with
  | zero => exact Nat.one_pos
  | succ n ih =>
    have top : f n * 2 ^ (8 * n) ≤ 255 * 2 ^ (8 * n) := Nat.mul_le_mul_right _ (by have := hf n; omega)
    rw [ofBytes_succ, show 8 * (n + 1) = 8 * n + 8 by omega, Nat.pow_add]
    omega

theorem byte_ofBytes {f : Nat → Nat} (hf : ∀ i, f i < 256) {n i : Nat} (hi : i < n) : ofBytes f n / 2 ^ (8 * i) % 256 = f i := by
  induction n with
  | zero => exact absurd hi (Nat.not_lt_zero i)
  | succ n ih =>
    rw [ofBytes_succ]
    rcases Nat.lt_succ_iff_lt_or_eq.mp hi with below | rfl
    · have split : f n * 2 ^ (8 * n) = 2 ^ (8 * i) * (f n * 2 ^ (8 * (n - i - 1)) * 256) := by
        rw [show 8 * n = 8 * i + (8 * (n - i - 1) + 8) by omega, Nat.pow_add, Nat.pow_add]
        ring
      rw [split, Nat.add_mul_div_left _ _ (Nat.two_pow_pos _), Nat.add_mul_mod_self_right, ih below]
    · rw [Nat.add_mul_div_right _ _ (Nat.two_pow_pos _), Nat.div_eq_of_lt (ofBytes_lt hf i), Nat.zero_add,
        Nat.mod_eq_of_lt (hf i)]

theorem overlay_eq_foldl (c : Core) (va n v : Nat) : c.overlay va n v = (c.inflight ++ c.sbuf).foldl (fun r s => s.overlay va n r) v := rfl

/-- The byte that a store's overlay has at an offset. -/
def Store.byteOver (s : Store) (va v i : Nat) : Nat :=
  if s.va ≤ va + i ∧ va + i < s.va + s.n then s.val / 2 ^ (8 * (va + i - s.va)) % 256 else v / 2 ^ (8 * i) % 256

theorem Store.byteOver_lt (s : Store) (va v i : Nat) : s.byteOver va v i < 256 := by
  unfold byteOver
  split <;> exact Nat.mod_lt _ (by decide)

theorem Store.overlay_apart {s : Store} {va n : Nat} (h : overlaps va (va + n) s.va (s.va + s.n) = false) (v : Nat) :
    s.overlay va n v = v := by
  simp [overlay, h]

theorem Store.overlay_meets {s : Store} {va n : Nat} (h : overlaps va (va + n) s.va (s.va + s.n) = true) (v : Nat) :
    s.overlay va n v = ofBytes (s.byteOver va v) n := by
  simp [overlay, h, ofBytes, byteOver]

theorem Store.byte_overlay (s : Store) {va n i : Nat} (v : Nat) (hi : i < n) :
    s.overlay va n v / 2 ^ (8 * i) % 256 = s.byteOver va v i := by
  cases h : overlaps va (va + n) s.va (s.va + s.n) with
  | true => rw [overlay_meets h, byte_ofBytes (s.byteOver_lt va v) hi]
  | false =>
    have apart : ¬ (s.va ≤ va + i ∧ va + i < s.va + s.n) := by
      simp only [overlaps, Bool.and_eq_false_iff, decide_eq_false_iff_not] at h
      omega
    rw [overlay_apart h, byteOver, if_neg apart]

/-! ### Faults that are owed (R169) -/

theorem raiseOwed_one {s s1 t : State} {x : Strand} {o : Owed} (running : s.core.mode = .running) (ho : x.owed = [o])
    (hx : s.does (findStrand s.core.strand.toNat) (some x) s)
    (h1 : s.does (modStrand s.core.strand.toNat fun y => { y with owed := y.owed.erase o }) () s1)
    (ht : s1.does (atCore s.cur.pkg s.cur.core o.stream (exception o.cause o.ea 0 false)) () t) : s.does raiseOwed () t := by
  refine does_bind (does_theCore s) (does_bind (does_read s) (does_bind (does_read s) (does_bind hx ?_)))
  dsimp only
  rw [ho]
  refine does_bind (v := PUnit.unit) (t := t) (does_bind (does_theCore s) ?_) (does_pure t _)
  exact does_if_pos (by simp [running]) (does_bind h1 ht)

/-- Settles O27: the own scratchpad is accessed at the core, memory under the stream's own stores, and an owed fault is raised once. -/
theorem accessEffects : Obligations.AccessEffects := by
  unfold Obligations.AccessEffects
  refine ⟨?scratch, ?mem, ?owed, overlay_eq_foldl, fun s va n v i hi => s.byte_overlay v hi⟩
  case scratch =>
    intro s ea j n v rel hs ha hl
    exact ⟨load_scratch hs ha hl, load_scratch_poisoned hs ha hl, store_scratch hs ha hl,
      fun s1 s2 hr h1 h2 => store_scratch_release hs ha hl hr h1 h2⟩
  case mem =>
    intro s s1 s2 ea n v m hs hc
    refine ⟨fun h => load_mem_blocks hs hc ?_, fun h => load_mem hs hc ?_⟩
    · simpa [State.owesBytes, cur_eq_of_does hc] using h
    · simpa [State.owesBytes, cur_eq_of_does hc] using h
  case owed => exact fun s s1 t x o running ho hx h1 ht => raiseOwed_one running ho hx h1 ht

end Sys2Proof.Machine
end

section
/-!
PROOF. The memory instructions (R84, R106 to R117, R124 to R126): a store of the scratchpad, the bit buffer, and what the effect of
each load, store and atomic leads to.
-/

namespace Sys2Proof.Machine

/-! ### A store of the scratchpad -/

/-- Settles O28: a write of the scratchpad is one update of its bytes, its marks and its poison. -/
theorem scratchStoreFrame : Obligations.ScratchStoreFrame := by
  unfold Obligations.ScratchStoreFrame
  intro k j n v t
  refine ⟨Memory.read_write _ _ _ _, fun a len apart => Memory.read_write_ne _ _ _ _ _ _ apart, fun h => Memory.write_wf h _ _ _,
    fun p hp => (List.mem_filter.mp hp).1, ?_⟩
  exact ⟨rfl, rfl, rfl, rfl, rfl, rfl, rfl, rfl, rfl, rfl, rfl, rfl, rfl, rfl, rfl, rfl, rfl, rfl⟩

/-! ### The bit buffer (R124 to R126) -/

section
variable {s s1 s2 s3 : State} {d a b : BitVec 5} {w : BitVec 7} {x y : Word} {kept taken : BitBuf}

theorem setBB_does (s : State) (b : BitBuf) : s.does (setBB b) () (s.put fun c => { c with bb := b }) := does_modCore s _

theorem actBbset_does (o m : BitVec 1) (ha : s.does (src a) x s1) (hb : s1.does (src b) y s2) : s.does (actBbset a b o m) .seq
    (s2.put fun c => { c with bb := { buf := 0, fc := 0, rp := x, ep := y, o := o == 1, m := m == 1 } }) :=
  does_bind ha (does_bind hb (does_bind (setBB_does s2 _) (does_pure _ _)))

section
variable (ht : s.does (takeBits w.toNat) (x, kept, taken) s1)
include ht

theorem actBbget_does (hd : (s1.put fun c => { c with bb := taken }).does (dst d x) () s3) : s.does (actBbget d w) .seq s3 :=
  does_bind ht (does_bind (setBB_does s1 taken) (does_bind hd (does_pure s3 _)))

theorem actBbpeek_does (hd : (s1.put fun c => { c with bb := kept }).does (dst d x) () s3) : s.does (actBbpeek d w) .seq s3 :=
  does_bind ht (does_bind (setBB_does s1 kept) (does_bind hd (does_pure s3 _)))

theorem actBbskip_does : s.does (actBbskip w) .seq (s1.put fun c => { c with bb := taken }) :=
  does_bind ht (does_bind (setBB_does s1 taken) (does_pure _ _))

end

end

/-- Settles O32: BBSET's effect is one update; the others take bits and leave the buffer with them or without. -/
theorem bitBuffer : Obligations.BitBuffer := by
  unfold Obligations.BitBuffer
  intro d a b w s s1 s2 s3 x y kept taken
  exact ⟨fun o m ready ha hb => lone_next ready (actBbset_does o m ha hb) (.inl rfl),
    fun ht => ⟨fun ready hd => lone_next ready (actBbget_does ht hd) (.inl rfl),
      fun ready hd => lone_next ready (actBbpeek_does ht hd) (.inl rfl),
      fun ready => lone_next ready (actBbskip_does ht) (.inl rfl)⟩⟩

/-! ### Loads (R106, R108, R110, R111) -/

section
variable {s s1 s2 s3 : State} {d a : BitVec 5} {sz : BitVec 2} {n : BitVec 1} {base ea : Word} {v : Nat} {p : Port}

theorem setWait_does (s : State) (w : Option LineWait) : s.does (setWait w) () (s.put fun c => { c with lineWait := w }) :=
  does_modCore s _

theorem loadInto_does {bytes : Nat} {zero : Bool} (hv : s.does (load ea bytes) v s1)
    (hd : s1.does (loadDst d (extend bytes zero v)) () s2) : s.does (loadInto d bytes zero ea) .seq s2 :=
  does_bind hv (does_bind hd (does_pure s2 _))

theorem actLda_does (c : BitVec 3) {i : BitVec 8} (ha : s.does (src a) base s1) (hr : s1.does (roomFor d) () s1)
    (hv : s1.does (load (base + i.signExtend 64) (2 ^ sz.toNat)) v s2)
    (hd : s2.does (loadDst d (extend (2 ^ sz.toNat) (n == 1) v)) () s3) : s.does (actLda d a sz n c i) .seq s3 :=
  does_bind ha (does_bind hr (loadInto_does hv hd))

theorem actLdv_does {i : BitVec 14} (ha : s.does (src a) base s1) (hr : s1.does (roomFor d) () s1)
    (hv : s1.does (load (base + (i.signExtend 64 <<< 7)) 128) v s2) (hp : pushPort s2.cur.stream d.toNat = some p)
    (hd : s2.does (reserve p (BitVec.ofNat 1024 v) 0xFFFFFFFF#32 true false) () s3) : s.does (actLdv d a i) .seq s3 := by
  refine does_bind ha (does_bind hr (does_bind hv (does_bind (does_theStream s2) ?_)))
  rw [hp]
  exact does_bind hd (does_pure s3 _)

/-- What LD does that does not wait at a line: it issues. -/
theorem actLd_issues {i : BitVec 11} (hw : s.core.lineWait = none) (ha : s.does (src a) base s1) (hr : s1.does (roomFor d) () s1)
    (hk : lineKey s1.cur.core (space (base + i.signExtend 64).toNat) = none)
    (hv : (s1.put fun c => { c with lineWait := none }).does (load (base + i.signExtend 64) (2 ^ sz.toNat)) v s2)
    (hd : s2.does (loadDst d (extend (2 ^ sz.toNat) (n == 1) v)) () s3) : s.does (actLd d a sz n i) .seq s3 := by
  refine does_bind (does_theCore s) ?_
  rw [hw]
  refine does_bind ha (does_bind hr (does_bind (does_read s1) ?_))
  rw [show lineKey s1.env.core _ = none from hk]
  exact does_bind (setWait_does s1 none) (loadInto_does hv hd)

section
variable (ha : s.does (src a) base s1) (hr : s1.stops (roomFor d) .block)
include ha hr

theorem actLd_blocks (i : BitVec 11) (hw : s.core.lineWait = none) : s.stops (actLd d a sz n i) .block := by
  refine does_bind_stops (does_theCore s) ?_
  rw [hw]
  exact does_bind_stops ha (stops_bind hr)

theorem actLda_blocks (c : BitVec 3) (i : BitVec 8) : s.stops (actLda d a sz n c i) .block :=
  does_bind_stops ha (stops_bind hr)

theorem actLdv_blocks (i : BitVec 14) : s.stops (actLdv d a i) .block :=
  does_bind_stops ha (stops_bind hr)

end

end

/-! ### Gathers (R112, R113) -/

section
variable {s s1 s2 s3 s4 s5 s6 : State} {d a b : BitVec 5} {sz : BitVec 2} {n x : BitVec 1} {base : Word} {offs v : VReg} {p : Port}
  {ms : List Bool} {rs : List (Option Bool)} {vs : List (Option Nat)}
  (ha : s.does (src a) base s1) (ho : s1.does (popVec b) offs s2)
include ha ho

theorem actGath_blocks (hr : s2.stops (roomFor d) .block) : s.stops (actGath d a b sz n x) .block :=
  does_bind_stops ha (does_bind_stops ho (stops_bind hr))

theorem actGathT_blocks (hr : s2.stops (roomFor d) .block) : s.stops (actGathT d a b sz n x) .block :=
  does_bind_stops ha (does_bind_stops ho (stops_bind hr))

variable (hr : s2.does (roomFor d) () s2)
include hr

theorem actGath_does (hc : s2.does (checkLanes needR (2 ^ sz.toNat) (laneAddrs base offs (2 ^ sz.toNat) (x == 1))) ms s3)
    (hv : s3.does (gatherLanes (2 ^ sz.toNat) (n == 1) (laneAddrs base offs (2 ^ sz.toNat) (x == 1)) ms) v s4)
    (hp : pushPort s4.cur.stream d.toNat = some p) (hd : s4.does (reserve p v 0xFFFFFFFF#32 true false) () s5) :
    s.does (actGath d a b sz n x) .seq s5 := by
  refine does_bind ha (does_bind ho (does_bind hr (does_bind hc (does_bind hv (does_bind (does_theStream s4) ?_)))))
  rw [hp]
  exact does_bind hd (does_pure s5 _)

/-- The value of a lane of GATH.T as its checks have left it. -/
def judgedLane (n : Nat) (zero : Bool) (q : Word × Option Bool) : M (Option Nat) :=
  match q.2 with
  | some m => tolerantLane n zero q.1 m
  | none => pure none

theorem actGathT_does (hc : s2.does (checkLanesPlace (2 ^ sz.toNat) (laneAddrs base offs (2 ^ sz.toNat) (x == 1))) () s2)
    (hm : s2.does ((laneAddrs base offs (2 ^ sz.toNat) (x == 1)).mapM fun ea => laneRights (2 ^ sz.toNat) ea) rs s3)
    (hl : s3.does (checkLanesLocks (2 ^ sz.toNat) (laneAddrs base offs (2 ^ sz.toNat) (x == 1))) () s3)
    (hv : s3.does (((laneAddrs base offs (2 ^ sz.toNat) (x == 1)).zip rs).mapM (judgedLane (2 ^ sz.toNat) (n == 1))) vs s4)
    (hw : s4.does (walkLanes (laneAddrs base offs (2 ^ sz.toNat) (x == 1)) rs vs) () s5)
    (hp : pushPort s5.cur.stream d.toNat = some p)
    (hd : s5.does (reserve p (ofLanes 32 (vs.map (·.getD 0))) (BitVec.ofNat 32 (laneMask vs)) true true) () s6) :
    s.does (actGathT d a b sz n x) .seq s6 := by
  refine does_bind ha (does_bind ho (does_bind hr (does_bind hc (does_bind hm (does_bind hl (does_bind hv (does_bind hw
    (does_bind (does_theStream s5) ?_))))))))
  rw [hp]
  exact does_bind hd (does_pure s6 _)

end

/-- Settles O29: each load is a lone unit that looks for room in its queue before it accesses anything. -/
theorem loadsComplete : Obligations.LoadsComplete := by
  unfold Obligations.LoadsComplete
  intro d a b sz n x s s1 s2 s3 s4 s5 s6 base ha
  refine ⟨?ld, ?lda, ?ldv, ?gath, ?gathT, fun hr hw => ?full, fun offs ho hr => ?gathersFull⟩
  case ld =>
    intro i v ea ready hw hr hk hv hd
    exact lone_next ready (actLd_issues hw ha hr (by rwa [cur_eq_of_does ha]) hv hd) (.inl rfl)
  case lda =>
    intro c i v ea ready hr hv hd
    exact lone_next ready (actLda_does c ha hr hv hd) (.inl rfl)
  case ldv =>
    intro i v p ea ready hr hv hp hd
    have here : s2.cur = s.cur := (cur_eq_of_does hv).trans (cur_eq_of_does ha)
    exact lone_next ready (actLdv_does ha hr hv (by rwa [here]) hd) (.inl rfl)
  case gath =>
    intro offs ms v p eas ready ho hr hc hv hp hd
    have here : s4.cur = s.cur :=
      (cur_eq_of_does hv).trans ((cur_eq_of_does hc).trans ((cur_eq_of_does ho).trans (cur_eq_of_does ha)))
    exact lone_next ready (actGath_does ha ho hr hc hv (by rwa [here]) hd) (.inl rfl)
  case gathT =>
    intro offs rs vs p eas ready ho hr hc hm hl hv hw hp hd
    have here : s5.cur = s.cur := (cur_eq_of_does hw).trans ((cur_eq_of_does hv).trans ((cur_eq_of_does hm).trans
      ((cur_eq_of_does ho).trans (cur_eq_of_does ha))))
    exact lone_next ready (actGathT_does ha ho hr hc hm hl hv hw (by rwa [here]) hd) (.inl rfl)
  case full =>
    exact ⟨fun i ready => lone_blocks ready (actLd_blocks ha hr i hw), fun c i ready => lone_blocks ready (actLda_blocks ha hr c i),
      fun i ready => lone_blocks ready (actLdv_blocks ha hr i)⟩
  case gathersFull =>
    exact ⟨fun ready => lone_blocks ready (actGath_blocks ha ho hr), fun ready => lone_blocks ready (actGathT_blocks ha ho hr)⟩

/-! ### Stores (R109 to R111, R114) -/

/-- An access made only where a guard holds, and what follows it. -/
theorem does_guarded {α : Type} {s t w : State} {u : Bool} {x : M Unit} {f : Unit → M α} {r : α}
    (hx : if u then s.does x () t else t = s) (hf : t.does (f ()) r w) : s.does (if u then x >>= f else f ()) r w := by
  cases u with
  | true => exact does_bind hx hf
  | false =>
    obtain rfl : t = s := hx
    exact hf

section
variable {s s1 s2 s3 s4 s5 : State} {v a b : BitVec 5} {g : BitVec 4} {data base : Word} {u : Bool} {sz : BitVec 2} {x : BitVec 1}

section
variable (hv : s.does (src v) data s1) (ha : s1.does (src a) base s2) (hg : s2.does (guardHolds g) u s2)
include hv ha hg

theorem storeFrom_does {n : Nat} {disp : Word} (hs : if u then s2.does (store none (base + disp) n data.toNat) () s3 else s3 = s2) :
    s.does (storeFrom n v a disp g) .seq s3 :=
  does_bind hv (does_bind ha (does_bind hg (does_guarded hs (does_pure s3 _))))

theorem actStd_does {i : BitVec 10} (hk : u = true → lineKey s2.cur.core (space (base + i.signExtend 64).toNat) = none)
    (hs : if u then s2.does (store none (base + i.signExtend 64) 8 data.toNat) () s3 else s3 = s2) :
    s.does (actStd v a i g) .seq s3 := by
  refine does_bind hv (does_bind ha (does_bind hg ?_))
  cases u with
  | true =>
    refine does_bind (does_read s2) ?_
    rw [show lineKey s2.env.core _ = none from hk rfl]
    exact does_bind hs (does_pure s3 _)
  | false =>
    obtain rfl : s3 = s2 := hs
    exact does_pure s3 _

theorem actStrel_does {c : BitVec 3}
    (hs : if u then s2.does (store (some c.toNat) base (2 ^ sz.toNat) data.toNat) () s3 else s3 = s2) :
    s.does (actStrel v a sz c g) .seq s3 :=
  does_bind hv (does_bind ha (does_bind hg (does_guarded hs (does_pure s3 _))))

end

theorem actStv_does {i : BitVec 10} {p : Port} {q : QEntry} (hp : popPort s.cur.stream v.toNat = some p) (hq : s.does (popQ p) q s1)
    (ha : s1.does (src a) base s2) (hg : s2.does (guardHolds g) u s2)
    (hs : if u then s2.does (store none (base + (i.signExtend 64 <<< 7)) 128 q.data.toNat) () s3 else s3 = s2) :
    s.does (actStv v a i g) .seq s3 := by
  refine does_bind (does_theStream s) ?_
  rw [hp]
  exact does_bind hq (does_bind ha (does_bind hg (does_guarded hs (does_pure s3 _))))

/-- The lanes of a scatter written once their checks have passed. -/
def scatterLanes (n : Nat) (eas : List Word) (ms : List Bool) (vec : VReg) : M Unit :=
  ((eas.zip ms).zip (words32 vec)).forM fun p => storeChecked p.1.2 none p.1.1 n p.2

theorem actScat_does {vec offs : VReg} {ms : List Bool} (hv : s.does (popVec v) vec s1) (ha : s1.does (src a) base s2)
    (ho : s2.does (popVec b) offs s3) (hg : s3.does (guardHolds g) u s3)
    (hs : if u then s3.does (checkLanes needW (2 ^ sz.toNat) (laneAddrs base offs (2 ^ sz.toNat) (x == 1))) ms s4 ∧
      s4.does (scatterLanes (2 ^ sz.toNat) (laneAddrs base offs (2 ^ sz.toNat) (x == 1)) ms vec) () s5 else s5 = s3) :
    s.does (actScat v a b sz x g) .seq s5 := by
  refine does_bind hv (does_bind ha (does_bind ho (does_bind hg ?_)))
  cases u with
  | true => exact does_bind hs.1 (does_bind hs.2 (does_pure s5 _))
  | false =>
    obtain rfl : s5 = s3 := hs
    exact does_pure s5 _

end

/-- Settles O30: each store is a lone unit that reads its data before its guard is asked. -/
theorem storesComplete : Obligations.StoresComplete := by
  unfold Obligations.StoresComplete
  intro v a b g s s1 s2 s3 s4 data base u
  refine ⟨?plain, ?strel, ?stv, ?scat⟩
  case plain =>
    intro i n op mem ea ready hv ha hg hk hs
    simp only [List.mem_cons, Prod.mk.injEq, List.not_mem_nil, or_false] at mem
    obtain ⟨rfl, rfl⟩ | ⟨rfl, rfl⟩ | ⟨rfl, rfl⟩ | ⟨rfl, rfl⟩ := mem
    · exact lone_next ready (storeFrom_does hv ha hg hs) (.inl rfl)
    · exact lone_next ready (storeFrom_does hv ha hg hs) (.inl rfl)
    · exact lone_next ready (storeFrom_does hv ha hg hs) (.inl rfl)
    · have here : s2.cur = s.cur := (cur_eq_of_does ha).trans (cur_eq_of_does hv)
      exact lone_next ready (actStd_does hv ha hg (fun hu => by rw [here]; exact hk hu rfl) hs) (.inl rfl)
  case strel => exact fun sz c ready hv ha hg hs => lone_next ready (actStrel_does hv ha hg hs) (.inl rfl)
  case stv => exact fun i p q ready hp hq ha hg hs => lone_next ready (actStv_does hp hq ha hg hs) (.inl rfl)
  case scat =>
    exact fun sz x vec offs ms s5 ready hv ha ho hg hs => lone_next ready (actScat_does hv ha ho hg hs) (.inl rfl)

/-! ### Atomics (R115 to R117) -/

/-- A commit unit that waits performs nothing, its commit point included. -/
theorem loneCommit_blocks {i : Instr} {act : M Flow} {s m : State} (hr : s.ready i) (hc : s.does commitPoint () m)
    (ha : m.stops act .block) : loneCommit i act s = .next s :=
  (if_pos hr.1).trans (perform_blocks (runUnit_blocks (gate_passes hr) hc ha))

theorem does_thePart (s : State) : s.does thePart ((s.pkg.ctl.partOf s.cur.core).getD 0) s :=
  does_bind (does_thePkg s) (does_bind (does_read s) (does_pure s _))

section
variable {s s1 s2 s3 s4 s5 s6 : State} {d a : BitVec 5} {o g : BitVec 4} {z : BitVec 1} {r : BitVec 2} {ea x y : Word}
  {m : Bool} {p old : Nat} {l : LineRef}

/-- The operation that AMO and AMON name. -/
def namedOp (ea x : Word) (o : BitVec 4) (z : BitVec 1) : AtomicOp :=
  { va := ea.toNat, op := o.toNat, wide := z == 1, opnd := x.toNat }

section
variable (hd : s.does (src d) x s1) (ha : s1.does (src a) ea s2)
include hd ha

theorem actAmo_skips (c : BitVec 3) (hg : s2.does (guardHolds g) false s2) : s.does (actAmo d a o z r c g) .seq s2 :=
  does_bind hd (does_bind ha (does_bind hg (does_pure s2 _)))

theorem actAmo_does (c : BitVec 3) (hg : s2.does (guardHolds g) true s2)
    (hc : s2.does (checkAtomic needRWA ea (namedOp ea x o z).bytes) m s3) (hl : s3.does (atomicAt ea m (orderRelease r)) (p, l) s4)
    (hp : s4.does (runHomeAt p ea ea (performAtomic false l s4.cur.core s4.core.dom.toNat (namedOp ea x o z))) old s5)
    (hw : s5.does (dst d (BitVec.ofNat 64 old)) () s6) : s.does (actAmo d a o z r c g) .seq s6 :=
  does_bind hd (does_bind ha (does_bind hg (does_bind hc (does_bind hl (does_bind (does_read s4) (does_bind (does_theCore s4)
    (does_bind hp (does_bind hw (does_pure s6 _)))))))))

theorem actAmon_skips (hg : s2.does (guardHolds g) false s2) : s.does (actAmon d a o z g) .seq s2 :=
  does_bind hd (does_bind ha (does_bind hg (does_pure s2 _)))

section
variable (hg : s2.does (guardHolds g) true s2) (hc : s2.does (checkAtomic needWA ea (namedOp ea x o z).bytes) m s3)
include hg hc

theorem actAmon_blocks (full : 32 ≤ s3.core.amons.length) : s.stops (actAmon d a o z g) .block :=
  does_bind_stops hd (does_bind_stops ha (does_bind_stops hg (does_bind_stops hc (does_bind_stops (does_theCore s3)
    (stops_if_pos full (stops_bind (stops_block s3)))))))

theorem actAmon_does {k part : Nat} {launch : Nat × Nat} (room : s3.core.amons.length < 32) (hk : s3.does nextSerial k s4)
    (hl : s4.does theLaunch launch s5) (hp : s5.does thePart part s6) : s.does (actAmon d a o z g) .seq
      (s6.put fun c => { c with amons := c.amons ++ [(k, ⟨k, s4.cur.pkg, s4.cur.core, s6.core.dom.toNat, part, launch.2, launch.1, m,
        none, namedOp ea x o z⟩)] }) := by
  obtain rfl : s6 = s5 := (does_unique hp (does_thePart s5)).2
  exact does_bind hd (does_bind ha (does_bind hg (does_bind hc (does_bind (does_theCore s3)
    (does_if_neg (Nat.not_le.mpr room) (does_bind hk (does_bind (does_read s4) (does_bind hl (does_bind (does_theCore s6)
      (does_bind hp (does_bind (does_modCore s6 _) (does_pure _ _))))))))))))

end

end

section
variable (ha : s.does (src a) ea s1)
include ha

theorem actCas_skips (c : BitVec 3) (hg : s1.does (guardHolds g) false s1) : s.does (actCas d a z r c g) .seq s1 :=
  does_bind ha (does_bind hg (does_pure s1 _))

theorem actCas_does (c : BitVec 3) (hg : s1.does (guardHolds g) true s1) (hx : s1.does (readReg d.toNat) x s1)
    (hy : s1.does (readReg (d.toNat + 1)) y s1) (hc : s1.does (checkAtomic needRWA ea (if z == 1 then 8 else 4)) m s3)
    (hl : s3.does (atomicAt ea m (orderRelease r)) (p, l) s4)
    (hp : s4.does (runHomeAt p ea ea (performCas l s4.core.dom.toNat ea.toNat (if z == 1 then 8 else 4) x.toNat y.toNat)) old s5)
    (hw : s5.does (writeReg d.toNat (BitVec.ofNat 64 old)) () s6) : s.does (actCas d a z r c g) .seq s6 :=
  does_bind ha (does_bind hg (does_bind hx (does_bind hy (does_bind hc (does_bind hl (does_bind (does_theCore s4)
    (does_bind hp (does_bind hw (does_pure s6 _)))))))))

end

end

/-- Settles O31: each atomic is a lone unit with its commit point; AMON waits where 32 are posted. -/
theorem atomicsComplete : Obligations.AtomicsComplete := by
  unfold Obligations.AtomicsComplete
  intro d a o g z r c s s0 s1 s2 s3 s4 s5 s6 s7 ea x y m p old l commit
  refine ⟨fun ready hd ha => ⟨fun hg => ?amoSkips, fun hg => ?amo⟩, fun ready ha => ⟨fun hg => ?casSkips, fun hg hx hy => ?cas⟩,
    fun ready hd ha => ⟨fun hg => ?amonSkips, fun hg => ?amon⟩⟩
  case amoSkips => exact loneCommit_next ready commit (actAmo_skips hd ha c hg) (.inl rfl)
  case casSkips => exact loneCommit_next ready commit (actCas_skips ha c hg) (.inl rfl)
  case amonSkips => exact loneCommit_next ready commit (actAmon_skips hd ha hg) (.inl rfl)
  case amo =>
    intro op hc hl hp hw
    have here : s4.cur = s.cur := (cur_eq_of_does hl).trans ((cur_eq_of_does hc).trans ((cur_eq_of_does ha).trans
      ((cur_eq_of_does hd).trans (cur_eq_of_does commit))))
    rw [← here] at hp
    exact loneCommit_next ready commit (actAmo_does hd ha c hg hc hl hp hw) (.inl rfl)
  case cas =>
    intro n hc hl hp hw
    exact loneCommit_next ready commit (actCas_does ha c hg hx hy hc hl hp hw) (.inl rfl)
  case amon =>
    intro op hc
    refine ⟨fun full => loneCommit_blocks ready commit (actAmon_blocks hd ha hg hc full), ?_⟩
    intro k part launch room hk hl hp post posted
    have here : s4.cur = s.cur := (cur_eq_of_does hk).trans ((cur_eq_of_does hc).trans ((cur_eq_of_does ha).trans
      ((cur_eq_of_does hd).trans (cur_eq_of_does commit))))
    have run := actAmon_does hd ha hg hc room hk hl hp
    rw [here] at run
    subst posted
    exact loneCommit_next ready commit run (.inl rfl)

end Sys2Proof.Machine
end

section
/-!
PROOF. Event, barrier and mutex lines (R119 to R123, R267): how a line is configured, loaded, stored and resumed, how a mutex passes,
and what LD.D and STD make of it.
-/

namespace Sys2Proof.Machine

/-! ### Sparse maps -/

theorem lookupD_of_above {α : Type} {d : α} {l : List (Nat × α)} {k : Nat} (h : ∀ e ∈ l, k < e.1) : lookupD d l k = d := by
  induction l with
  | nil => rfl
  | cons e l ih =>
    have ne : k ≠ e.1 := Nat.ne_of_lt (h e List.mem_cons_self)
    rw [lookupD_cons, if_neg ne, ih fun f hf => h f (List.mem_cons_of_mem _ hf)]

/-- Where the keys rise, a key that is set to any value reads it: the default is not listed. -/
theorem lookupD_insertD_same {α : Type} [DecidableEq α] (d : α) {l : List (Nat × α)} (k : Nat) (x : α)
    (rising : (l.map (·.1)).Pairwise (· < ·)) : lookupD d (insertD d l k x) k = x := by
  by_cases hx : x = d
  case neg => rw [lookupD_insertD _ _ _ hx, if_pos rfl]
  case pos =>
    subst hx
    induction l with
    | nil => simp [insertD, lookupD]
    | cons e l ih =>
      obtain ⟨i, y⟩ := e
      obtain ⟨first, rest⟩ := List.pairwise_cons.mp rising
      have above : ∀ e ∈ l, i < e.1 := fun e he => first e.1 (List.mem_map_of_mem he)
      simp only [insertD, beq_iff_eq, if_true]
      split
      · next below =>
        rw [lookupD_cons, if_neg (Nat.ne_of_lt below), lookupD_of_above fun e he => Nat.lt_trans below (above e he)]
      · split
        · next same => rw [lookupD_of_above fun e he => same ▸ above e he]
        · next apart => rw [lookupD_cons, if_neg apart, ih rest]

/-! ### Reading and writing a line -/

/-- A line of the cursor's package. -/
def State.line (s : State) (k : Nat) : Line := lookupD Line.off s.pkg.lines k

theorem State.line_def (s : State) (k : Nat) : lookupD Line.off s.pkg.lines k = s.line k := rfl

/-- The state with a line set. -/
def State.putLine (s : State) (k : Nat) (l : Line) : State := s.putPkg fun x => { x with lines := insertD Line.off x.lines k l }

/-- The state with the core's wait at a line set. -/
def State.putWait (s : State) (w : Option LineWait) : State := s.put fun c => { c with lineWait := w }

section
variable {s s1 s2 s3 : State} {ea v : Word} {k : Nat}

theorem lineAt_does (s : State) (k : Nat) : s.does (lineAt k) (s.line k) s := does_bind (does_thePkg s) (does_pure s _)

theorem setLine_does (s : State) (k : Nat) (l : Line) : s.does (setLine k l) () (s.putLine k l) := does_modPkg s _

theorem theWrites_does (s : State) : s.does theWrites (ownWrites s.dev s.cur.pkg s.cur.core) s :=
  does_bind (does_get s) (does_bind (does_read s) (does_bind (does_read s) (does_pure s _)))

theorem does_modCoreAt (s : State) (c : Nat) (f : Core → Core) :
    s.does (modCoreAt s.cur.pkg c f) () (s.putPkg fun x => x.setCore c (f (x.core c))) := ⟨rfl, rfl⟩

/-! ### EVCFG (R119, R267) -/

/-- The package once a line is configured. -/
def Package.lineConfigured (x : Package) (k w : Nat) : Package :=
  { x with
    lines := insertD Line.off x.lines k (Line.configured w)
    cores := x.cores.map fun c => (c.1, c.2.lineCleared k)
    savedGens := x.savedGens ++ (lookupD Line.off x.lines k).arrived.filterMap fun a => match a with
      | .strand va => some (va, k, (0 : Word))
      | .core _ => none }

theorem configureLine_does (s : State) (k w : Nat) : s.does (configureLine k w) () (s.putPkg (·.lineConfigured k w)) := does_modPkg s _

/-- A core waits at no line as reset leaves it, so every core, listed or not, is told. -/
theorem Package.core_lineConfigured (x : Package) (k w c : Nat) : (x.lineConfigured k w).core c = (x.core c).lineCleared k :=
  lookupD_map (fun c : Core => c.lineCleared k) rfl x.cores c

/-- The line that an address names within a configuration's limits. -/
def configures (core : Nat) (ea w : Word) (k q : Nat) : Prop :=
  (space ea.toNat = .quadLine q ∧ k = 32 * quadOf core + q ∧ lineWordOk true 4 w.toNat = true) ∨
    (space ea.toNat = .dieLine q ∧ k = 0x10000 + 64 * dieOf core + q ∧ lineWordOk false 1024 w.toNat = true) ∨
    (space ea.toNat = .pkgLine q ∧ k = 0x20000 + q ∧ lineWordOk false 8192 w.toNat = true)

theorem actSysEvcfg_does {a b : BitVec 5} {w : Word} {q : Nat} (ha : s.does (src a) ea s1) (hb : s1.does (src b) w s2)
    (named : configures s2.cur.core ea w k q) (hc : s2.does (configureLine k w.toNat) () s3) :
    s.does (actSysEvcfg a b) .seq s3 := by
  refine does_bind ha (does_bind hb (does_bind (does_read s2) ?_))
  have configured {quad : Bool} {most : Nat} (ok : lineWordOk quad most w.toNat = true) {j : Nat} (hj : k = j) :
      s2.does (do
        if !lineWordOk quad most w.toNat then raise .illegal w
        configureLine j w.toNat
        return Flow.seq) .seq s3 :=
    does_if_neg (by simp [ok]) (hj ▸ does_bind hc (does_pure s3 _))
  rcases named with ⟨hs, hk, ok⟩ | ⟨hs, hk, ok⟩ | ⟨hs, hk, ok⟩
  all_goals
    rw [hs]
    exact configured ok hk

/-! ### LD.D of a line (R120 to R122) -/

section
variable (hw : s.core.lineWait = none)
include hw

theorem lineLoad_off (hk : (s.line k).kind = .off) : s.stops (lineLoad ea k) (.raise .aperture ea) := by
  refine does_bind_stops (does_read s) (does_bind_stops (lineAt_does s k) (does_bind_stops (does_theCore s) ?_))
  rw [hw, hk]
  exact stops_raise s _ _

theorem lineLoad_barrier (hk : (s.line k).kind = .barrier) (hc : s.does implicitCommit () s1) : s.does (lineLoad ea k) none
    (s1.putWait (some (.arriving k (ownWrites s.dev s.cur.pkg s.cur.core)))) := by
  refine does_bind (does_read s) (does_bind (lineAt_does s k) (does_bind (does_theCore s) ?_))
  rw [hw, hk]
  exact does_bind (theWrites_does s) (does_bind hc (does_bind (setWait_does s1 _) (does_pure _ _)))

theorem lineLoad_free (hk : (s.line k).kind = .mutex) (hh : (s.line k).holder = none) (hc : s.does implicitCommit () s1) :
    s.does (lineLoad ea k) (some 1) (s1.putLine k { s.line k with holder := some s.cur.core }) := by
  refine does_bind (does_read s) (does_bind (lineAt_does s k) (does_bind (does_theCore s) ?_))
  rw [hw, hk]
  dsimp only
  rw [← hk]
  refine does_bind hc ?_
  rw [hh]
  exact does_bind (setLine_does s1 k _) (does_pure _ _)

theorem lineLoad_held (hk : (s.line k).kind = .mutex) (hh : (s.line k).holder ≠ none) (hc : s.does implicitCommit () s1) :
    s.does (lineLoad ea k) none
      ((s1.putLine k { s.line k with waiters := (s.line k).waiters ++ [s.cur.core] }).putWait (some (.queued k))) := by
  obtain ⟨h, held⟩ := Option.ne_none_iff_exists'.mp hh
  refine does_bind (does_read s) (does_bind (lineAt_does s k) (does_bind (does_theCore s) ?_))
  rw [hw, hk]
  dsimp only
  rw [← hk]
  refine does_bind hc ?_
  rw [held]
  dsimp only
  rw [← held]
  exact does_bind (setLine_does s1 k _) (does_bind (setWait_does _ _) (does_pure _ _))

theorem lineLoad_signalled (hk : (s.line k).kind = .event) (hp : (s.line k).pending ≠ 0) (hc : s.does implicitCommit () s1) :
    s.does (lineLoad ea k) (some (BitVec.ofNat 64 ((s.line k).pending - 1)))
      (s1.putLine k { s.line k with pending := (s.line k).pending - 1 }) := by
  refine does_bind (does_read s) (does_bind (lineAt_does s k) (does_bind (does_theCore s) ?_))
  rw [hw, hk]
  dsimp only
  rw [← hk]
  exact does_if_pos (by simpa using hp) (does_bind hc (does_bind (setLine_does s1 k _) (does_pure _ _)))

theorem lineLoad_unsignalled (hk : (s.line k).kind = .event) (hp : (s.line k).pending = 0) : s.does (lineLoad ea k) none
    ((s.putLine k { s.line k with waiters := (s.line k).waiters ++ [s.cur.core] }).putWait (some (.queued k))) := by
  refine does_bind (does_read s) (does_bind (lineAt_does s k) (does_bind (does_theCore s) ?_))
  rw [hw, hk]
  dsimp only
  rw [← hk]
  exact does_if_neg (by simp [hp]) (does_bind (setLine_does s k _) (does_bind (setWait_does _ _) (does_pure _ _)))

end

theorem lineResume_fired (hc : s.does implicitCommit () s1) : s.does (lineResume (.fired k v)) v (s1.putWait none) :=
  does_bind hc (does_bind (setWait_does s1 none) (does_pure _ v))

theorem lineResume_granted (s : State) (k : Nat) : s.does (lineResume (.granted k)) 1 (s.putWait none) :=
  does_bind (setWait_does s none) (does_pure _ _)

theorem lineResume_blocks (h : (s.line k).kind = .mutex ∨ (s.line k).pending = 0) : s.stops (lineResume (.queued k)) .block := by
  refine does_bind_stops (lineAt_does s k) (stops_if_neg ?_ (stops_block s))
  rcases h with h | h <;> simp [h]

theorem lineResume_signalled (hk : (s.line k).kind = .event) (hp : (s.line k).pending ≠ 0) (hc : s.does implicitCommit () s1) :
    s.does (lineResume (.queued k)) (BitVec.ofNat 64 ((s.line k).pending - 1)) ((s1.putWait none).putLine k
      { s.line k with pending := (s.line k).pending - 1, waiters := (s.line k).waiters.filter (· != s.cur.core) }) := by
  have here : (s1.putWait none).env.core = s.cur.core := congrArg Cursor.core (show s1.cur = s.cur from cur_eq_of_does hc)
  refine does_bind (lineAt_does s k) (does_if_pos (by simp [hk, hp]) (does_bind hc (does_bind (setWait_does s1 none)
    (does_bind (does_read _) ?_))))
  rw [show (s1.put fun c => { c with lineWait := none }) = s1.putWait none from rfl, here]
  exact does_bind (setLine_does _ k _) (does_pure _ _)

/-! ### STD to a line, and the passing of a mutex (R121, R122) -/

theorem lineStore_refused (hk : (s.line k).kind = .off ∨ (s.line k).kind = .barrier) :
    s.stops (lineStore ea k) (.raise .aperture ea) := by
  refine does_bind_stops (does_read s) (does_bind_stops (lineAt_does s k) ?_)
  rcases hk with hk | hk
  all_goals
    rw [hk]
    exact stops_raise s _ _

section
variable (hc : s.does implicitCommit () s1)
include hc

theorem lineStore_discarded (hk : (s.line k).kind = .mutex) (hh : (s.line k).holder ≠ some s.cur.core) :
    s.does (lineStore ea k) () s1 := by
  refine does_bind (does_read s) (does_bind (lineAt_does s k) ?_)
  rw [hk]
  exact does_bind hc (does_if_neg (fun h => hh (beq_iff_eq.mp h)) (does_pure s1 ()))

theorem lineStore_blocks (hk : (s.line k).kind = .mutex) (hh : (s.line k).holder = some s.cur.core)
    (hw : s1.stops settled .block) : s.stops (lineStore ea k) .block := by
  refine does_bind_stops (does_read s) (does_bind_stops (lineAt_does s k) ?_)
  rw [hk]
  exact does_bind_stops hc (stops_if_pos (beq_iff_eq.mpr hh) (stops_bind hw))

theorem lineStore_frees (hk : (s.line k).kind = .mutex) (hh : (s.line k).holder = some s.cur.core) (hw : s1.does settled () s2)
    (hp : s2.does (passMutex k) () s3) : s.does (lineStore ea k) () s3 := by
  refine does_bind (does_read s) (does_bind (lineAt_does s k) ?_)
  rw [hk]
  exact does_bind hc (does_if_pos (beq_iff_eq.mpr hh) (does_bind hw hp))

section
variable (hk : (s.line k).kind = .event) (hw : s1.does settled () s2)
include hk hw

theorem lineStore_signals (hn : (s.line k).chain = none) : s.does (lineStore ea k) ()
    (s2.putLine k { s.line k with pending := Nat.min ((s.line k).pending + 1) 255 }) := by
  refine does_bind (does_read s) (does_bind (lineAt_does s k) ?_)
  rw [hk]
  dsimp only
  rw [← hk]
  refine does_bind hc (does_bind hw (does_bind (setLine_does s2 k _) ?_))
  rw [hn]
  dsimp only
  rw [← hn]
  exact does_pure _ ()

theorem lineStore_chains {q n : Nat} (hn : (s.line k).chain = some (q, n)) : s.does (lineStore ea k) ()
    ((s2.putLine k { s.line k with pending := Nat.min ((s.line k).pending + 1) 255 }).putPkg fun x =>
      { x with chainSignals := x.chainSignals ++ [32 * q + n] }) := by
  refine does_bind (does_read s) (does_bind (lineAt_does s k) ?_)
  rw [hk]
  dsimp only
  rw [← hk]
  refine does_bind hc (does_bind hw (does_bind (setLine_does s2 k _) ?_))
  rw [hn]
  dsimp only
  rw [← hn]
  exact does_modPkg _ _

end

end

theorem passMutex_free (h : (s.line k).waiters = []) : s.does (passMutex k) () (s.putLine k { s.line k with holder := none }) := by
  refine does_bind (does_thePkg s) ?_
  rw [State.line_def]
  dsimp only
  rw [h]
  dsimp only
  rw [← h]
  exact setLine_does s k _

theorem passMutex_passes {w : Nat} {ws : List Nat} (h : (s.line k).waiters = w :: ws) : s.does (passMutex k) ()
    ((s.putLine k { s.line k with holder := some w, waiters := ws }).putPkg fun x =>
      x.setCore w { x.core w with lineWait := some (.granted k) }) := by
  refine does_bind (does_thePkg s) ?_
  rw [State.line_def]
  dsimp only
  rw [h]
  exact does_bind (setLine_does s k _) (does_bind (does_read _) (does_modCoreAt _ _ _))

/-! ### LD.D and STD as units -/

section
variable {d a : BitVec 5} {n : BitVec 1} {i : BitVec 11} {base : Word}

section
variable (hw : s.core.lineWait = none) (ha : s.does (src a) base s1) (hr : s1.does (roomFor d) () s1)
  (hk : lineKey s1.cur.core (space (base + i.signExtend 64).toNat) = some k)
include hw ha hr hk

theorem actLd_returns (hl : s1.does (lineLoad (base + i.signExtend 64) k) (some v) s2) (hd : s2.does (loadDst d v) () s3) :
    s.does (actLd d a 3 n i) .seq s3 := by
  refine does_bind (does_theCore s) ?_
  rw [hw]
  refine does_bind ha (does_bind hr (does_bind (does_read s1) ?_))
  rw [show lineKey s1.env.core _ = some k from hk]
  exact does_bind hl (does_bind hd (does_pure s3 _))

theorem actLd_waits (hl : s1.does (lineLoad (base + i.signExtend 64) k) none s2) : s.does (actLd d a 3 n i) .wait s2 := by
  refine does_bind (does_theCore s) ?_
  rw [hw]
  refine does_bind ha (does_bind hr (does_bind (does_read s1) ?_))
  rw [show lineKey s1.env.core _ = some k from hk]
  exact does_bind hl (does_pure s2 _)

end

section
variable {sz : BitVec 2} {w : LineWait} (hm : w ≠ .marked) (hw : s.core.lineWait = some w)
include hm hw

/-- LD that has issued goes on with what its wait gives. -/
theorem actLd_resumes (hr : s.does (lineResume w) v s1) (hd : s1.does (loadDst d v) () s2) :
    s.does (actLd d a sz n i) .seq s2 := by
  have resume : s.does (do loadDst d (← lineResume w); return Flow.seq) .seq s2 :=
    does_bind hr (does_bind hd (does_pure s2 _))
  refine does_bind (does_theCore s) ?_
  rw [hw]
  cases w with
  | marked => exact absurd rfl hm
  | arriving _ _ | counted _ | fired _ _ | queued _ | granted _ | podArriving _ _ | podCounted _ | podFired _ _ => exact resume

theorem actLd_stays (hr : s.stops (lineResume w) .block) : s.stops (actLd d a sz n i) .block := by
  have resume : s.stops (do loadDst d (← lineResume w); return Flow.seq) .block := stops_bind hr
  refine does_bind_stops (does_theCore s) ?_
  rw [hw]
  cases w with
  | marked => exact absurd rfl hm
  | arriving _ _ | counted _ | fired _ _ | queued _ | granted _ | podArriving _ _ | podCounted _ | podFired _ _ => exact resume

end

end

theorem actStd_line {r a : BitVec 5} {i : BitVec 10} {g : BitVec 4} {data base : Word} (hr : s.does (src r) data s1)
    (ha : s1.does (src a) base s2) (hg : s2.does (guardHolds g) true s2)
    (hk : lineKey s2.cur.core (space (base + i.signExtend 64).toNat) = some k)
    (hl : s2.does (lineStore (base + i.signExtend 64) k) () s3) : s.does (actStd r a i g) .seq s3 := by
  refine does_bind hr (does_bind ha (does_bind hg (does_bind (does_read s2) ?_)))
  rw [show lineKey s2.env.core _ = some k from hk]
  exact does_bind hl (does_pure s3 _)

end

/-- A lone unit whose effect begins to wait has issued. -/
theorem lone_waits {i : Instr} {act : M Flow} {s u : State} (hr : s.ready i) (ha : s.does act .wait u) :
    lone i act s = .next (u.put fun c => c.issued s.core false) :=
  unitOn_does hr.1 (runUnit_waits (gate_passes hr) (does_pure s ()) ha)

/-- Settles O33: each instruction is what its line's kind asks of it, and an issued LD.D is what its wait gives. -/
theorem lines : Obligations.Lines := by
  unfold Obligations.Lines
  intro s s1 s2 s3 ea v k l me setTo waits
  refine ⟨?evcfg, fun hw => ⟨lineLoad_off hw, lineLoad_unsignalled hw, fun hc => ⟨fun hk => lineLoad_barrier hw hk hc,
      fun hk hh => lineLoad_free hw hk hh hc, fun hk hh => lineLoad_held hw hk hh hc, fun hk hp => lineLoad_signalled hw hk hp hc⟩⟩,
    ⟨lineResume_fired, lineResume_granted s k, lineResume_blocks, lineResume_signalled⟩, lineStore_refused,
    fun hc => ⟨lineStore_discarded hc, lineStore_blocks hc, fun hk hh hw hp => lineStore_frees hc hk hh hw hp, fun hk hw =>
      ⟨lineStore_signals hc hk hw, fun q n hn => lineStore_chains hc hk hw hn⟩⟩,
    passMutex_free, fun w ws h => passMutex_passes h, ?ld, ?std⟩
  case evcfg =>
    intro a b w q ready ha hb named hc
    have here : s2.cur = s.cur := (cur_eq_of_does hb).trans (cur_eq_of_does ha)
    refine ⟨fun rising => ?_, fun c => ?_, lone_next ready (actSysEvcfg_does ha hb (by rwa [here]) hc) (.inl rfl)⟩
    · rw [← (does_unique (configureLine_does s2 k w.toNat) hc).2, State.putPkg_pkg]
      exact lookupD_insertD_same _ _ _ rising
    · rw [← (does_unique (configureLine_does s2 k w.toNat) hc).2, State.putPkg_pkg]
      exact Package.core_lineConfigured _ _ _ _
  case ld =>
    intro d a n i base ready
    refine ⟨fun hw ha he hr hk => ?issues, fun w hw hm => ⟨fun hres hd => ?resumes, fun hres => ?blocks⟩⟩
    case issues =>
      subst he
      have here : lineKey s1.cur.core (space (base + i.signExtend 64).toNat) = some k := by rwa [cur_eq_of_does ha]
      exact ⟨fun hl hd => lone_next ready (actLd_returns hw ha hr here hl hd) (.inl rfl),
        fun hl => lone_waits ready (actLd_waits hw ha hr here hl)⟩
    case resumes => exact lone_next ready (actLd_resumes hm hw hres hd) (.inl rfl)
    case blocks => exact lone_blocks ready (actLd_stays hm hw hres)
  case std =>
    intro r a i g data base ready hr ha hg he hk hl
    subst he
    have here : s2.cur = s.cur := (cur_eq_of_does ha).trans (cur_eq_of_does hr)
    exact lone_next ready (actStd_line hr ha hg (by rwa [here]) hl) (.inl rfl)

end Sys2Proof.Machine
end

section
/-!
PROOF. What comes back to a core by itself (R86, R113, R120 to R123): load data and tolerant gathers, arrivals at a barrier line and its
firing, and chained event signals.
-/

namespace Sys2Proof.Machine

/-! ### Barrier arrivals (R120, R123) -/

/-- A core that has learned a line's generation learns nothing from being told again. -/
theorem Core.lineFired_lineFired (c : Core) (k : Nat) (g : Word) : (c.lineFired k g).lineFired k g = c.lineFired k g := by
  have once (w : LineWait) : (w.fire k g).fire k g = w.fire k g := by
    cases w with
    | counted j => by_cases h : j = k <;> simp [LineWait.fire, h]
    | arriving _ _ | fired _ _ | queued _ | granted _ | podArriving _ _ | podCounted _ | podFired _ _ | marked => rfl
  simp [Core.lineFired, Function.comp_def, once]

/-- The package once an arrival has learned the generation of a line. -/
def Package.told (k : Nat) (g : Word) (x : Package) : Arrival → Package
  | .core c => x.setCore c ((x.core c).lineFired k g)
  | .strand va => { x with savedGens := x.savedGens ++ [(va, k, g)] }

/-- The generation as it is kept with a strand that is saved. -/
def Arrival.savedGen (k : Nat) (g : Word) : Arrival → Option (Nat × Nat × Word)
  | .strand va => some (va, k, g)
  | .core _ => none

section
variable (k : Nat) (g : Word) (as : List Arrival) (x : Package)

theorem Package.lines_told : (as.foldl (Package.told k g) x).lines = x.lines := by
  induction as generalizing x with
  | nil => rfl
  | cons a as ih =>
    rw [List.foldl_cons, ih]
    cases a with
    | core _ | strand _ => rfl

theorem Package.savedGens_told : (as.foldl (Package.told k g) x).savedGens = x.savedGens ++ as.filterMap (Arrival.savedGen k g) := by
  induction as generalizing x with
  | nil => exact (List.append_nil _).symm
  | cons a as ih =>
    rw [List.foldl_cons, ih]
    cases a with
    | core _ => rfl
    | strand va => simp [Package.told, Arrival.savedGen]

theorem Package.core_told (c : Nat) : (as.foldl (Package.told k g) x).core c =
    if as.contains (.core c) then (x.core c).lineFired k g else x.core c := by
  induction as generalizing x with
  | nil => rfl
  | cons a as ih =>
    rw [List.foldl_cons, ih, List.contains_cons]
    cases a with
    | strand va => rfl
    | core j =>
      by_cases h : c = j
      · subst h
        simp [Package.told, Core.lineFired_lineFired]
      · simp [Package.told, Package.core_setCore_ne _ _ _ _ h, h]

end

/-- An arrival at a barrier line learns the generation it fired with, at its core of package `p` or with its saved strand. -/
def tellArrival (p k : Nat) (g : Word) (a : Arrival) : M Unit :=
  match a with
  | .core c => modCoreAt p c fun x => x.lineFired k g
  | .strand va => modPkgAt p fun x => { x with savedGens := x.savedGens ++ [(va, k, g)] }

theorem State.putPkg_putPkg (s : State) (f g : Package → Package) : (s.putPkg f).putPkg g = s.putPkg fun x => g (f x) := by
  simp [State.putPkg]

section
variable {s : State} {k : Nat}

theorem tellArrival_does (s : State) (k : Nat) (g : Word) (a : Arrival) :
    s.does (tellArrival s.cur.pkg k g a) () (s.putPkg fun x => x.told k g a) := by
  cases a with
  | core c => exact does_modCoreAt s c (·.lineFired k g)
  | strand va => exact does_modPkg s fun x => { x with savedGens := x.savedGens ++ [(va, k, g)] }

theorem tellArrivals_does (s : State) (f : Package → Package) (k : Nat) (g : Word) (as : List Arrival) :
    (s.putPkg f).does (as.forM (tellArrival s.cur.pkg k g)) () (s.putPkg fun x => as.foldl (Package.told k g) (f x)) := by
  induction as generalizing f with
  | nil => exact does_pure _ ()
  | cons a as ih =>
    refine does_bind (tellArrival_does (s.putPkg f) k g a) ?_
    rw [State.putPkg_putPkg]
    exact ih _

/-- The line as it stands once it has fired. -/
def Line.fired (l : Line) : Line := { l with gen := l.gen + 1, arrived := [] }

theorem fireLine_does (s : State) (k : Nat) (l : Line) : s.does (fireLine k l) ()
    (s.putPkg fun x => l.arrived.foldl (Package.told k (l.gen + 1)) { x with lines := insertD Line.off x.lines k l.fired }) :=
  does_bind (setLine_does s k _) (does_bind (does_read _) (tellArrivals_does s _ k _ _))

/-- A barrier line that fires stays a barrier line, so it is listed. -/
theorem Line.fired_ne_off {l : Line} (h : l.kind = .barrier) : l.fired ≠ Line.off := by
  intro e
  have off : l.kind = .off := congrArg Line.kind e
  rw [h] at off
  cases off

/-- The line with the cursor's core arrived. -/
def State.joined (s : State) (k : Nat) : Line := { s.line k with arrived := (s.line k).arrived ++ [.core s.cur.core] }

theorem barrierLineArrival_idle (h : s.core.lineWait = none) : s.does barrierLineArrival () s := by
  refine does_bind (does_theCore s) (does_bind (does_read s) ?_)
  rw [h]
  exact does_pure s ()

section
variable {covers : List Nat} (hw : s.core.lineWait = some (.arriving k covers))
include hw

theorem barrierLineArrival_early (h : (ownWrites s.dev s.cur.pkg s.cur.core).any covers.contains = true) :
    s.does barrierLineArrival () s := by
  refine does_bind (does_theCore s) (does_bind (does_read s) ?_)
  rw [hw]
  exact does_bind (does_get s) (does_bind (does_read s) (does_if_pos h (does_pure s ())))

variable (hc : (ownWrites s.dev s.cur.pkg s.cur.core).any covers.contains = false)
include hc

theorem barrierLineArrival_other (hk : (s.line k).kind ≠ .barrier) : s.does barrierLineArrival () s := by
  refine does_bind (does_theCore s) (does_bind (does_read s) ?_)
  rw [hw]
  exact does_bind (does_get s) (does_bind (does_read s) (does_if_neg (ne_true_of_eq_false hc) (does_bind (lineAt_does s k)
    (does_if_pos (bne_iff_ne.mpr hk) (does_pure s ())))))

variable (hk : (s.line k).kind = .barrier)
include hk

theorem barrierLineArrival_counts (h : (s.joined k).arrived.length < (s.line k).count) :
    s.does barrierLineArrival () ((s.putWait (some (.counted k))).putLine k (s.joined k)) := by
  refine does_bind (does_theCore s) (does_bind (does_read s) ?_)
  rw [hw]
  exact does_bind (does_get s) (does_bind (does_read s) (does_if_neg (ne_true_of_eq_false hc) (does_bind (lineAt_does s k)
    (does_if_neg (by simp [hk]) (does_bind (setWait_does s _) (does_if_neg (Nat.not_le.mpr h) (setLine_does _ k _)))))))

theorem barrierLineArrival_fires (h : (s.line k).count ≤ (s.joined k).arrived.length) : s.does barrierLineArrival ()
    ((s.putWait (some (.counted k))).putPkg fun x => (s.joined k).arrived.foldl (Package.told k ((s.line k).gen + 1))
      { x with lines := insertD Line.off x.lines k (s.joined k).fired }) := by
  refine does_bind (does_theCore s) (does_bind (does_read s) ?_)
  rw [hw]
  exact does_bind (does_get s) (does_bind (does_read s) (does_if_neg (ne_true_of_eq_false hc) (does_bind (lineAt_does s k)
    (does_if_neg (by simp [hk]) (does_bind (setWait_does s _) (does_if_pos h (fireLine_does _ k _)))))))

end

/-! ### Chained signals (R122) -/

/-- The state with a chained signal to a line taken. -/
def State.dropSignal (s : State) (k : Nat) : State := s.putPkg fun x => { x with chainSignals := x.chainSignals.erase k }

theorem State.line_dropSignal (s : State) (k j : Nat) : (s.dropSignal k).line j = s.line j := by
  simp [State.line, State.dropSignal]

theorem eventChainSignal_idle (h : s.pkg.chainSignals.contains k = false) : s.does (eventChainSignal k) () s :=
  does_bind (does_thePkg s) (does_if_pos (by rw [h]; rfl) (does_pure s ()))

section
variable (hs : s.pkg.chainSignals.contains k = true)
include hs

theorem eventChainSignal_discards (hk : (s.line k).kind ≠ .event) : s.does (eventChainSignal k) () (s.dropSignal k) := by
  rw [← State.line_dropSignal s k k] at hk
  exact does_bind (does_thePkg s) (does_if_neg (by rw [hs]; decide) (does_bind (t := s.dropSignal k) (does_modPkg s _)
    (does_bind (lineAt_does _ k) (does_if_pos (bne_iff_ne.mpr hk) (does_pure _ ())))))

section
variable (hk : (s.line k).kind = .event)
include hk

theorem eventChainSignal_signals (hn : (s.line k).chain = none) : s.does (eventChainSignal k) ()
    ((s.dropSignal k).putLine k { s.line k with pending := Nat.min ((s.line k).pending + 1) 255 }) := by
  rw [← State.line_dropSignal s k k] at hk hn ⊢
  refine does_bind (does_thePkg s) (does_if_neg (by rw [hs]; decide) (does_bind (t := s.dropSignal k) (does_modPkg s _)
    (does_bind (lineAt_does _ k) (does_if_neg (by simp [hk]) (does_bind (setLine_does _ k _) ?_)))))
  rw [hn]
  dsimp only
  rw [← hn]
  exact does_pure _ ()

theorem eventChainSignal_chains {q n : Nat} (hn : (s.line k).chain = some (q, n)) : s.does (eventChainSignal k) ()
    (((s.dropSignal k).putLine k { s.line k with pending := Nat.min ((s.line k).pending + 1) 255 }).putPkg fun x =>
      { x with chainSignals := x.chainSignals ++ [32 * q + n] }) := by
  rw [← State.line_dropSignal s k k] at hk hn ⊢
  refine does_bind (does_thePkg s) (does_if_neg (by rw [hs]; decide) (does_bind (t := s.dropSignal k) (does_modPkg s _)
    (does_bind (lineAt_does _ k) (does_if_neg (by simp [hk]) (does_bind (setLine_does _ k _) ?_)))))
  rw [hn]
  dsimp only
  rw [← hn]
  exact does_modPkg _ _

end

end

/-! ### Load data and tolerant gathers (R86, R113) -/

section
variable {n : Nat} {e : QEntry}

theorem fillEntry_does (s : State) (n : Nat) (f : QEntry → QEntry) : s.does (fillEntry n f) () (s.put fun c =>
    { c with lq0 := c.lq0.fillOne n f, lq1 := c.lq1.fillOne n f, lq2 := c.lq2.fillOne n f }) := does_modCore s _

theorem loadDataReturn_idle (h : s.core.waiting n = none) : s.does (loadDataReturn n) () s := by
  refine does_bind (does_theCore s) ?_
  rw [h]
  exact does_pure s ()

theorem gathTPush_idle (late : Nat) (h : s.core.waiting n = none) : s.does (gathTPush n late) () s := by
  refine does_bind (does_theCore s) ?_
  rw [h]
  exact does_pure s ()

section
variable (h : s.core.waiting n = some e)
include h

theorem loadDataReturn_fills (ht : e.tol = false) : s.does (loadDataReturn n) () (s.put fun c =>
    { c with lq0 := c.lq0.fillOne n id, lq1 := c.lq1.fillOne n id, lq2 := c.lq2.fillOne n id }) := by
  refine does_bind (does_theCore s) ?_
  rw [h]
  exact does_if_pos (by simp [ht]) (fillEntry_does s n id)

theorem loadDataReturn_tolerant (ht : e.tol = true) : s.does (loadDataReturn n) () s := by
  refine does_bind (does_theCore s) ?_
  rw [h]
  exact does_if_neg (by simp [ht]) (does_pure s ())

theorem gathTPush_fills (late : Nat) (ht : e.tol = true) : s.does (gathTPush n late) () (s.put fun c =>
    { c with lq0 := c.lq0.fillOne n (·.without late), lq1 := c.lq1.fillOne n (·.without late),
             lq2 := c.lq2.fillOne n (·.without late) }) := by
  refine does_bind (does_theCore s) ?_
  rw [h]
  exact does_if_pos ht (fillEntry_does s n (·.without late))

theorem gathTPush_plain (late : Nat) (ht : e.tol = false) : s.does (gathTPush n late) () s := by
  refine does_bind (does_theCore s) ?_
  rw [h]
  exact does_if_neg (ne_true_of_eq_false ht) (does_pure s ())

end

end

end

/-- Settles O34: each event looks at what waits for it, and what a barrier line's firing tells each arrival is told it once. -/
theorem lineEvents : Obligations.LineEvents := by
  unfold Obligations.LineEvents
  intro s k covers l me setTo
  refine ⟨fun hw => ⟨?still, fun hc hk => ⟨fun h => ?counts, fun h => ?fires⟩⟩, fun h => event_next (barrierLineArrival_idle h),
    fun h => event_next (eventChainSignal_idle h), fun hs => ⟨fun hk => event_next (eventChainSignal_discards hs hk), fun hk =>
      ⟨fun hn => event_next (eventChainSignal_signals hs hk hn), fun q n hn => event_next (eventChainSignal_chains hs hk hn)⟩⟩,
    fun n late => ⟨fun h => ⟨event_next (loadDataReturn_idle h), event_next (gathTPush_idle late h)⟩, fun e h =>
      ⟨fun ht => ⟨event_next (loadDataReturn_fills h ht), event_next (gathTPush_plain h late ht)⟩,
        fun ht => ⟨event_next (gathTPush_fills h late ht), event_next (loadDataReturn_tolerant h ht)⟩⟩⟩⟩
  case still =>
    intro h
    cases hc : (ownWrites s.dev s.cur.pkg s.cur.core).any covers.contains with
    | true => exact event_next (barrierLineArrival_early hw hc)
    | false => exact event_next (barrierLineArrival_other hw hc (h.resolve_left (ne_true_of_eq_false hc)))
  case counts => exact event_next (barrierLineArrival_counts hw hc hk h)
  case fires =>
    refine ⟨_, event_next (barrierLineArrival_fires hw hc hk h), ?_, ?_, fun c => ?_⟩
    · rw [State.putPkg_pkg, Package.lines_told]
      exact (lookupD_insertD _ k k (Line.fired_ne_off hk)).trans (if_pos rfl)
    · have held : (s.putWait (some (.counted k))).pkg.savedGens = s.pkg.savedGens := by simp [State.putWait, State.put]
      have own : [Arrival.core s.cur.core].filterMap (Arrival.savedGen k ((s.line k).gen + 1)) = [] := rfl
      rw [State.putPkg_pkg, Package.savedGens_told, State.joined, List.filterMap_append, own, List.append_nil]
      exact congrArg (· ++ (s.line k).arrived.filterMap (Arrival.savedGen k ((s.line k).gen + 1))) held
    · rw [State.putPkg_pkg, Package.core_told]
      rfl

end Sys2Proof.Machine
end

section
/-!
PROOF. Messages (R127, R128, R181): how SEND issues and is answered, how a message arrives, and what RECV takes.
-/

namespace Sys2Proof.Machine

/-! ### SEND (R127) -/

section
variable {s s0 s1 s2 s3 t : State} {d a b : BitVec 5} {c : BitVec 4} {x y ea st : Word} {snd : Sending}

theorem does_partOfCore (s : State) (n : Nat) : s.does (partOfCore n) (s.pkg.ctl.partOf n) s :=
  does_bind (does_thePkg s) (does_pure s _)

theorem actSend_waits (hs : s.core.sending = some snd) (hn : snd.answer = none) : s.stops (actSend d a b c) .block := by
  obtain ⟨target, msg, answer⟩ := snd
  obtain rfl : answer = none := hn
  refine does_bind_stops (does_theCore s) ?_
  rw [hs]
  exact stops_block s

theorem actSend_answered (hs : s.core.sending = some snd) (hn : snd.answer = some st)
    (hd : (s.put fun k => { k with sending := none }).does (dst d st) () s3) : s.does (actSend d a b c) .seq s3 := by
  obtain ⟨target, msg, answer⟩ := snd
  obtain rfl : answer = some st := hn
  refine does_bind (does_theCore s) ?_
  rw [hs]
  exact does_bind (does_modCore s _) (does_bind hd (does_pure s3 _))

section
variable (hn : s.core.sending = none) (ha : s.does (src a) x s1) (hb : s1.does (src b) y s2)
include hn ha hb

theorem actSend_full (hr : s2.stops (roomFor d) .block) : s.stops (actSend d a b c) .block := by
  refine does_bind_stops (does_theCore s) ?_
  rw [hn]
  exact does_bind_stops ha (does_bind_stops hb (stops_bind hr))

variable (hr : s2.does (roomFor d) () s2) (hp : s2.does (payloadAt y) ea s2) {pl : Nat} {p q : Option Nat}
  (hl : s2.does (scratchRead ea y.toNat 64) pl s2) (ht : s2.does (partOfCore x.toNat) p s2)
  (hm : s2.does (partOfCore s2.cur.core) q s2)
include hr hp hl ht hm

theorem actSend_issues (near : x.toNat < 2 ^ 13) (same : p = q) : s.does (actSend d a b c) .wait (s2.put fun k => { k with
    sending := some ⟨x.toNat, ⟨false, c.toNat, s2.cur.core, s.core.dom.toNat, BitVec.ofNat 512 pl⟩, none⟩ }) := by
  refine does_bind (does_theCore s) ?_
  rw [hn]
  exact does_bind ha (does_bind hb (does_bind hr (does_bind hp (does_bind hl (does_bind (does_read s2) (does_bind ht
    (does_bind hm (does_if_neg (by simpa [same] using near) (does_bind (does_modCore s2 _) (does_pure _ _))))))))))

theorem actSend_outside (far : 2 ^ 13 ≤ x.toNat ∨ p ≠ q) (hd : s2.does (dst d 2) () s3) : s.does (actSend d a b c) .seq s3 := by
  refine does_bind (does_theCore s) ?_
  rw [hn]
  exact does_bind ha (does_bind hb (does_bind hr (does_bind hp (does_bind hl (does_bind (does_read s2) (does_bind ht
    (does_bind hm (does_if_pos (by simpa using far) (does_bind hd (does_pure s3 _))))))))))

end

section
variable (hr : s.ready (.send d a b c))
include hr

/-- SEND takes a commit point where it issues, and none where it has waited. -/
theorem execSend_next (hp : s.does (if s.core.sending.isSome then pure () else commitPoint) () s0)
    (ha : s0.does (actSend d a b c) .seq t) (h : t.straight .seq) : exec (.send d a b c) s = .next ((t.past .seq).begun s0) :=
  unitOn_does hr.1 (runUnit_next (commits := true) (gate_passes hr) hp ha (.inl rfl) h)

theorem execSend_issues (hp : s.does (if s.core.sending.isSome then pure () else commitPoint) () s0)
    (ha : s0.does (actSend d a b c) .wait t) : exec (.send d a b c) s = .next (t.put fun k => k.issued s0.core true) :=
  unitOn_does hr.1 (runUnit_waits (gate_passes hr) hp ha)

theorem execSend_blocks (hp : s.does (if s.core.sending.isSome then pure () else commitPoint) () s0)
    (ha : s0.stops (actSend d a b c) .block) : exec (.send d a b c) s = .next s :=
  (if_pos hr.1).trans (perform_blocks (runUnit_blocks (gate_passes hr) hp ha))

end

/-! ### The arrival of a message (R127, R181) -/

/-- The state with the core's SEND answered. -/
def State.answered (s : State) (snd : Sending) (v : Word) : State :=
  s.put fun k => { k with sending := some { snd with answer := some v } }

/-- The state with a message at the end of a core's queue. -/
def State.brought (s : State) (core : Nat) (m : Message) : State :=
  s.putPkg fun x => x.setCore core { x.core core with inbox := (x.core core).inbox ++ [m] }

section
variable (hs : s.core.sending = some snd) (hn : snd.answer = none)
include hs hn

theorem messageArrival_early (h : ownWrites s.dev s.cur.pkg s.cur.core ≠ []) : s.does messageArrival () s := by
  obtain ⟨target, msg, answer⟩ := snd
  obtain rfl : answer = none := hn
  refine does_bind (does_theCore s) ?_
  rw [hs]
  exact does_bind (theWrites_does s) (does_if_pos (bne_iff_ne.mpr h) (does_pure s ()))

variable (hw : ownWrites s.dev s.cur.pkg s.cur.core = [])
include hw

theorem messageArrival_full (h : 30 ≤ (s.pkg.core snd.target).sendEntries) : s.does messageArrival () (s.answered snd 1) := by
  obtain ⟨target, msg, answer⟩ := snd
  obtain rfl : answer = none := hn
  refine does_bind (does_theCore s) ?_
  rw [hs]
  exact does_bind (theWrites_does s) (does_if_neg (by simp [hw]) (does_bind (does_read s) (does_bind (does_coreAt s _ _)
    (does_if_pos h (does_modCore s _)))))

section
variable (h : (s.pkg.core snd.target).sendEntries < 30) {mine its : Nat × Nat} (hm : s.does (launchAt s.cur.core) mine s)
  (hi : s.does (launchAt snd.target) its s)
  (ht : s.does (messageTurn [mine, its] snd.target snd.msg.ch snd.msg.sender) () s1)
include h hm hi ht

theorem messageArrival_enters (hv : savedStrand s1.pkg.sched.strands snd.msg.dom snd.target = none ∨
      (snd.msg.ch = 0 ∧ savedStrand s1.pkg.sched.strands snd.msg.dom snd.target ≠ none)) :
    s.does messageArrival () ((s1.brought snd.target snd.msg).answered snd 0) := by
  obtain ⟨target, msg, answer⟩ := snd
  obtain rfl : answer = none := hn
  refine does_bind (does_theCore s) ?_
  rw [hs]
  refine does_bind (theWrites_does s) (does_if_neg (by simp [hw]) (does_bind (does_read s) (does_bind (does_coreAt s _ _)
    (does_if_neg (Nat.not_le.mpr h) (does_bind (does_read s) (does_bind hm (does_bind hi (does_bind ht
      (does_bind (does_thePkg s1) ?_)))))))))
  rcases hv with hv | ⟨hc, hv⟩
  · rw [hv]
    exact does_bind (does_read s1) (does_bind (does_modCoreAt s1 target _) (does_modCore _ _))
  · obtain ⟨sv, hv⟩ := Option.ne_none_iff_exists'.mp hv
    rw [hv]
    exact does_if_pos (beq_iff_eq.mpr hc) (does_bind (does_read s1) (does_bind (does_modCoreAt s1 target _) (does_modCore _ _)))

section
variable {sv : Strand} (hv : savedStrand s1.pkg.sched.strands snd.msg.dom snd.target = some sv) (hc : snd.msg.ch ≠ 0)
include hv hc

theorem messageArrival_parks (ha : sv.state ≠ .suspMsg ∨ sv.awaits ≠ snd.msg.ch) :
    s.does messageArrival () ((s1.brought snd.target { snd.msg with parked := true }).answered snd 0) := by
  obtain ⟨target, msg, answer⟩ := snd
  obtain rfl : answer = none := hn
  refine does_bind (does_theCore s) ?_
  rw [hs]
  refine does_bind (theWrites_does s) (does_if_neg (by simp [hw]) (does_bind (does_read s) (does_bind (does_coreAt s _ _)
    (does_if_neg (Nat.not_le.mpr h) (does_bind (does_read s) (does_bind hm (does_bind hi (does_bind ht
      (does_bind (does_thePkg s1) ?_)))))))))
  rw [hv]
  have asleep : ¬ (sv.state == .suspMsg && sv.awaits == msg.ch) = true := by
    simpa [imp_iff_not_or] using ha
  exact does_if_neg (fun e => hc (beq_iff_eq.mp e)) (does_bind (does_read s1) (does_bind (does_modCoreAt s1 target _)
    (does_if_neg asleep (does_modCore _ _))))

theorem messageArrival_wakes (hst : sv.state = .suspMsg) (haw : sv.awaits = snd.msg.ch)
    (h2 : (s1.brought snd.target { snd.msg with parked := true }).does
      (setStrand sv.va fun o => { o with state := .ready }) () s2) (h3 : s2.does (enqueue sv.va) () s3) :
    s.does messageArrival () (s3.answered snd 0) := by
  obtain ⟨target, msg, answer⟩ := snd
  obtain rfl : answer = none := hn
  refine does_bind (does_theCore s) ?_
  rw [hs]
  refine does_bind (theWrites_does s) (does_if_neg (by simp [hw]) (does_bind (does_read s) (does_bind (does_coreAt s _ _)
    (does_if_neg (Nat.not_le.mpr h) (does_bind (does_read s) (does_bind hm (does_bind hi (does_bind ht
      (does_bind (does_thePkg s1) ?_)))))))))
  rw [hv]
  have awake : (sv.state == .suspMsg && sv.awaits == msg.ch) = true := by simp [hst, haw]
  exact does_if_neg (fun e => hc (beq_iff_eq.mp e)) (does_bind (does_read s1) (does_bind (does_modCoreAt s1 target _)
    (does_if_pos awake (does_bind h2 (does_bind h3 (does_modCore s3 _))))))

end

end

end

/-! ### RECV (R128) -/

section
variable (ha : s.does (src a) y s1) (hp : s1.does (payloadAt y) ea s1)
include ha hp

theorem receive_takes {n : Nat} {empty : M Flow} {m : Message} (ht : s1.core.takeable n = some m)
    (hd : (s1.put fun k => { k.scratchWrite y.toNat 64 m.payload.toNat with inbox := k.inbox.erase m }).does
      (dst d (BitVec.ofNat 64 (m.sender + m.dom * 2 ^ 16))) () s3) : s.does (receive d a n empty) .seq s3 := by
  refine does_bind ha (does_bind hp (does_bind (does_theCore s1) ?_))
  rw [ht]
  refine does_bind (scratchWrite_does s1 _ _ _) (does_bind (does_modCore _ _) (does_bind (v := ()) ?_ (does_pure s3 _)))
  rw [State.put_put]
  exact hd

theorem receive_empty {n : Nat} {empty : M Flow} (ht : s1.core.takeable n = none) (he : s1.does empty .seq s3) :
    s.does (receive d a n empty) .seq s3 := by
  refine does_bind ha (does_bind hp (does_bind (does_theCore s1) ?_))
  rw [ht]
  exact he

theorem actRecv_blocks (ht : s1.core.takeable c.toNat = none) : s.stops (actRecv d a c) .block := by
  refine does_bind_stops ha (does_bind_stops hp (does_bind_stops (does_theCore s1) ?_))
  rw [ht]
  exact stops_block s1

end

end

/-- Settles O35: SEND issues, waits and completes with its answer; an arrival enters, is parked or is refused; RECV takes or finds
none. -/
theorem messages : Obligations.Messages := by
  unfold Obligations.Messages
  intro d a b c s s0 s1 s2 s3 s4 x y ea
  refine ⟨fun ready hn hc hn0 ha hb => ?send, fun snd ready hs => ⟨fun hn => ?waits, fun st hn hd => ?answered⟩,
    fun snd hs hn => ?arrival, fun ha hp => ⟨fun m ht i hi ready hd => ?takes, fun ht => ⟨fun ready => ?blocks,
      fun ready hd => ?none⟩⟩⟩
  case send =>
    have pre : s.does (if s.core.sending.isSome then pure () else commitPoint) () s0 := does_if_neg (by simp [hn]) hc
    have here : s2.cur = s.cur := (cur_eq_of_does hb).trans ((cur_eq_of_does ha).trans (cur_eq_of_does hc))
    refine ⟨fun hr => execSend_blocks ready pre (actSend_full hn0 ha hb hr), fun hr hp pl p q hl ht hm => ?_⟩
    rw [← here] at hm ⊢
    exact ⟨fun near same => execSend_issues ready pre (actSend_issues hn0 ha hb hr hp hl ht hm near same),
      fun far hd => execSend_next ready pre (actSend_outside hn0 ha hb hr hp hl ht hm far hd)⟩
  case waits => exact execSend_blocks ready (does_if_pos (by simp [hs]) (does_pure s ())) (actSend_waits hs hn)
  case answered => exact execSend_next ready (does_if_pos (by simp [hs]) (does_pure s ())) (actSend_answered hs hn hd)
  case arrival =>
    exact ⟨fun h => event_next (messageArrival_early hs hn h), fun hw => ⟨fun h => event_next (messageArrival_full hs hn hw h),
      fun mine its h hm hi ht => ⟨fun hv => event_next (messageArrival_enters hs hn hw h hm hi ht hv), fun sv hv hc =>
        ⟨fun hsv => event_next (messageArrival_parks hs hn hw h hm hi ht hv hc hsv),
          fun hst haw h2 h3 => event_next (messageArrival_wakes hs hn hw h hm hi ht hv hc hst haw h2 h3)⟩⟩⟩⟩
  case takes =>
    rcases hi with rfl | rfl
    · exact lone_next ready (receive_takes ha hp ht hd) (.inl rfl)
    · exact lone_next ready (receive_takes ha hp ht hd) (.inl rfl)
  case blocks => exact lone_blocks ready (actRecv_blocks ha hp ht)
  case none => exact lone_next ready (receive_empty ha hp ht (does_bind hd (does_pure s4 _))) (.inl rfl)

end Sys2Proof.Machine
end

section
/-!
PROOF. Control and status registers and SYS (R130, R131, R136), and the queue deadlock (R88).
-/

namespace Sys2Proof.Machine

/-! ### Control and status registers (R130, R131) -/

section
variable {s s1 s2 s3 : State} {d a b : BitVec 5} {c : BitVec 12} {v x y : Word}

theorem actCsrr_does (hv : s.does (csrValue c.toNat) v s) (hd : s.does (dst d v) () s2) : s.does (actCsrr d c) .seq s2 :=
  does_bind hv (does_bind hd (does_pure s2 _))

theorem actCsrw_does (ha : s.does (src a) v s1) (ok : csrValueOk c.toNat v = true) :
    s.does (actCsrw a c) .seq (s1.put fun k => k.setCsr c.toNat v) :=
  does_bind ha (does_if_neg (by simp [ok]) (does_bind (does_modCore s1 _) (does_pure _ _)))

/-- MODE is no field that CSRW writes (R130). -/
@[simp] theorem Core.setCsr_sMode (k : Core) (n : Nat) (v : Word) : (k.setCsr n v).sMode = k.sMode := by
  unfold setCsr
  split <;> rfl

theorem csrValue_tvec (s : State) : s.does (csrValue 0x024) s.core.tvec s := does_bind (does_theCore s) (does_pure s _)

/-! ### SYS (R136) -/

theorem actSysPlbinv_does (ha : s.does (src a) x s1) (hb : s1.does (src b) y s2) (hx : x.toNat % 4096 = 0) (hy : y.toNat % 4096 = 0) :
    s.does (actSysPlbinv a b) .seq (s2.put fun c => { c with plb := c.plb.filter fun e =>
      !(y == 0 || overlaps x.toNat (x.toNat + y.toNat) e.base (e.base + e.bytes)) }) :=
  does_bind ha (does_bind hb (does_if_neg (by simp [hx, hy]) (does_bind (does_modCore s2 _) (does_pure _ _))))

section
variable (ha : s.does (src a) x s1)
include ha

theorem actSysCsinv_all (hx : x = BitVec.allOnes 64) :
    s.does (actSysCsinv a) .seq (s1.put fun c => { c with store := c.store.filter fun k => c.isTop k }) :=
  does_bind ha (does_if_pos (beq_iff_eq.mpr hx) (does_bind (does_modCore s1 _) (does_pure _ _)))

theorem actSysCsinv_one {e : DirEnt} (hx : x ≠ BitVec.allOnes 64) (he : s1.does (dirEntry x.toNat) (some e) s2) :
    s.does (actSysCsinv a) .seq (s2.put fun c => { c with store := c.store.filter fun k => c.isTop k || k.digest != e.digest }) :=
  does_bind ha (does_if_neg (fun h => hx (beq_iff_eq.mp h)) (does_bind he (does_bind (does_modCore s2 _) (does_pure _ _))))

/-- The core with the queues of a mask emptied (R136). -/
def Core.flushed (c : Core) (x : Word) : Core :=
  { c with
    lq0 := if x.getLsbD 0 then Queue.empty else c.lq0, lq1 := if x.getLsbD 1 then Queue.empty else c.lq1
    lq2 := if x.getLsbD 2 then Queue.empty else c.lq2, sq0 := if x.getLsbD 3 then Queue.empty else c.sq0
    sq1 := if x.getLsbD 4 then Queue.empty else c.sq1, bqA := if x.getLsbD 5 then Queue.empty else c.bqA
    bqX := if x.getLsbD 6 then Queue.empty else c.bqX }

theorem actSysQflush_does (hx : x.toNat < 2 ^ 7) : s.does (actSysQflush a) .seq (s1.put (·.flushed x)) :=
  does_bind ha (does_if_neg (Nat.not_le.mpr hx) (does_bind (does_modCore s1 _) (does_pure _ _)))

end

theorem actSysTabclr_does (s : State) :
    s.does actSysTabclr .seq (s.put fun c => { c with table := Table.empty, tabstat := 0 }) :=
  does_bind (does_modCore s _) (does_pure _ _)

end

/-- Settles O36: each is a lone unit of its reads and one update of the core, of which no field is MODE. -/
theorem systemUnits : Obligations.SystemUnits := by
  unfold Obligations.SystemUnits
  refine ⟨fun d a c s s1 s2 v => ⟨?csrr, fun ready ha ok => ?csrw, fun k => ?fields⟩,
    fun a b s s1 s2 x y => ⟨?plbinv, fun ready ha => ⟨?csinvAll, ?csinvOne⟩, ?qflush, ?tabclr⟩⟩
  case csrr => exact fun ready hv hd => lone_next ready (actCsrr_does hv hd) (.inl rfl)
  case csrw =>
    intro u straight
    exact ⟨lone_next ready (actCsrw_does ha ok) (.inl rfl) straight, by simp only [u, State.put_core, Core.setCsr_sMode]⟩
  case fields => exact ⟨csrValue_tvec s, rfl, rfl, rfl, rfl, rfl, rfl⟩
  case plbinv => exact fun ready ha hb hx hy => lone_next ready (actSysPlbinv_does ha hb hx hy) (.inl rfl)
  case csinvAll => exact fun hx => lone_next ready (actSysCsinv_all ha hx) (.inl rfl)
  case csinvOne => exact fun e hx he => lone_next ready (actSysCsinv_one ha hx he) (.inl rfl)
  case qflush =>
    rintro ready ha hx rfl
    exact lone_next ready (actSysQflush_does ha hx) (.inl rfl)
  case tabclr => exact fun ready => lone_next ready (actSysTabclr_does s) (.inl rfl)

/-! ### The queue deadlock (R88) -/

section
variable {s t : State} {x y : Bool}

/-- Neither stream can go on, and no load is still to return. -/
def State.stuck (s : State) (x y : Bool) : Prop :=
  s.core.mode = .running ∧ s.core.loadsDone = true ∧ x = true ∧ y = true ∧
    (s.core.strA.joint = false ∨ s.core.strX.joint = false)

theorem stuck_iff : s.stuck x y ↔
    (s.core.mode == .running && s.core.loadsDone && !(s.core.strA.joint && s.core.strX.joint) && x && y) = true := by
  simp only [State.stuck, Bool.and_eq_true, beq_iff_eq, Bool.not_eq_true', Bool.and_eq_false_iff]
  constructor
  · rintro ⟨hm, hl, hx, hy, hj⟩
    exact ⟨⟨⟨⟨hm, hl⟩, hj⟩, hx⟩, hy⟩
  · rintro ⟨⟨⟨⟨hm, hl⟩, hj⟩, hx⟩, hy⟩
    exact ⟨hm, hl, hx, hy, hj⟩

section
variable (hx : s.does (queueBlocked .A) x s) (hy : s.does (queueBlocked .X) y s)
include hx hy

theorem qdeadlock_raises (h : s.stuck x y)
    (ht : s.does (exceptionOpen .qdeadlock (Config.openEaddr s.time s.core.serial)) () t) : s.does qdeadlock () t :=
  does_bind (does_theCore s) (does_bind hx (does_bind hy (does_if_pos (stuck_iff.mp h) (does_bind (does_now s) ht))))

theorem qdeadlock_idle (h : ¬ s.stuck x y) : s.does qdeadlock () s :=
  does_bind (does_theCore s) (does_bind hx (does_bind hy (does_if_neg (fun e => h (stuck_iff.mpr e)) (does_pure s ()))))

end

end

/-- Settles O48: the event asks whether either stream can go on before it raises anything. -/
theorem queueDeadlock : Obligations.QueueDeadlock := by
  unfold Obligations.QueueDeadlock
  intro s t x y hx hy stuck
  exact ⟨fun h ht => event_next (qdeadlock_raises hx hy h ht), fun h => event_next (qdeadlock_idle hx hy h)⟩

end Sys2Proof.Machine
end

section
/-!
PROOF. Frames: what the instructions of registers, and the loads and stores of the own scratchpad, leave unchanged.
-/

namespace Sys2Proof.Machine

/-! ### An update of the cursor's core -/

theorem elsewhere_put (s : State) (f : Core → Core) : Elsewhere s (s.put f) := by
  have pkg : (s.put f).pkg = s.pkg.setCore s.cur.core (f (s.pkg.core s.cur.core)) := State.putPkg_pkg s _
  refine ⟨rfl, rfl, rfl, rfl, fun p hp => Dev.pkg_setPkg_ne _ _ _ _ hp, fun c hc => ?_, ?_, fun a => ?_⟩
  · rw [pkg, Package.core_setCore_ne _ _ _ _ hc]
  · rw [pkg]
    rfl
  · rw [pkg]
    rfl

/-- An update that leaves the stream where it stands leaves the transfer of its branch as it is. -/
theorem straight_put {s : State} {f : Core → Core} {g : Flow} (hf : (f s.core).str s.cur.stream = s.core.str s.cur.stream)
    (h : s.straight g) : (s.put f).straight g := by
  rw [State.straight, State.str, State.put_core, State.put_cur, hf]
  exact h

theorem past_put (s : State) (f : Core → Core) (g : Flow) : (s.put f).past g =
    s.put fun c => (f c).setStr s.cur.stream (((f c).str s.cur.stream).advance 4 g).1 := by
  rw [State.past, State.put_put, State.put_cur]

@[simp] theorem Core.putReg_str (c : Core) (st r : Strm) (n : Nat) (v : Word) : (c.putReg st n v).str r = c.str r := by
  cases st <;> cases r <;> rfl

@[simp] theorem Core.putPred_str (c : Core) (st r : Strm) (p : BitVec 3) (b : Bool) : (c.putPred st p b).str r = c.str r := by
  unfold putPred
  split
  · rfl
  · cases st <;> cases r <;> rfl

/-! ### Scalar specifiers that name no queue -/

section
variable {s t : State} {d r : BitVec 5} {v : Word}

theorem src_plain (h : plain r) : s.does (src r) (s.operand r) s := by
  rcases h with h | rfl
  · have ne : r ≠ 31 := by
      rintro rfl
      exact absurd h (by decide)
    rw [State.operand, if_neg ne]
    exact src_register h
  · exact src_zero s

/-- The core with a scalar destination written that names no queue. -/
def Core.putScalar (c : Core) (st : Strm) (d : BitVec 5) (v : Word) : Core := if d = 31 then c else c.putReg st d.toNat v

/-- The state after a lone unit that writes a scalar destination and goes on. -/
def State.wrote (s : State) (d : BitVec 5) (v : Word) : State := s.put fun c =>
  (c.putScalar s.cur.stream d v).setStr s.cur.stream ((c.str s.cur.stream).advance 4 .seq).1

theorem dst_plain (h : plain d) (v : Word) (hs : s.straight .seq) :
    ∃ t, s.does (dst d v) () t ∧ t.straight .seq ∧ t.past .seq = s.wrote d v := by
  rcases h with h | rfl
  · have ne : d ≠ 31 := by
      rintro rfl
      exact absurd h (by decide)
    refine ⟨_, dst_register h, straight_put (Core.putReg_str _ _ _ _ _) hs, ?_⟩
    rw [past_put, State.wrote]
    simp only [Core.putScalar, if_neg ne, Core.putReg_str]
  · exact ⟨s, dst_zero s v, hs, rfl⟩

/-! ### What a written scalar leaves -/

theorem core_wrote (s : State) (d : BitVec 5) (v : Word) : (s.wrote d v).core =
    (s.core.putScalar s.cur.stream d v).setStr s.cur.stream ((s.core.str s.cur.stream).advance 4 .seq).1 := State.put_core s _

theorem frame_wrote (s : State) (d : BitVec 5) (v : Word) : (s.wrote d v).core =
    { s.core with a := (s.wrote d v).core.a, s := (s.wrote d v).core.s, strA := (s.wrote d v).core.strA,
                  strX := (s.wrote d v).core.strX } := by
  rw [core_wrote]
  unfold Core.putScalar
  split <;> cases s.cur.stream <;> rfl

theorem str_other_wrote (s : State) (d : BitVec 5) (v : Word) :
    (s.wrote d v).core.str s.cur.stream.other = s.core.str s.cur.stream.other := by
  rw [core_wrote, Core.str_setStr_other]
  unfold Core.putScalar
  split
  · rfl
  · exact Core.putReg_str _ _ _ _ _

theorem s_wrote (d : BitVec 5) (v : Word) (h : s.cur.stream = .A) : (s.wrote d v).core.s = s.core.s := by
  rw [core_wrote, h]
  unfold Core.putScalar
  split <;> rfl

theorem a_wrote (d : BitVec 5) (v : Word) (h : s.cur.stream = .X) : (s.wrote d v).core.a = s.core.a := by
  rw [core_wrote, h]
  unfold Core.putScalar
  split <;> rfl

theorem toList_getD_set_ne {α : Type} {n : Nat} (a : Vector α n) {i j : Nat} (x d : α) (h : j ≠ i) :
    (a.setIfInBounds i x).toList.getD j d = a.toList.getD j d := by
  rw [Vector.toList_setIfInBounds, List.getD_eq_getElem?_getD, List.getD_eq_getElem?_getD, List.getElem?_set_ne h.symm]

theorem toList_getD_set_same {α : Type} {n : Nat} (a : Vector α n) {i : Nat} (x d : α) (h : i < n) :
    (a.setIfInBounds i x).toList.getD i d = x := by
  rw [Vector.toList_setIfInBounds, List.getD_eq_getElem?_getD, List.getElem?_set_self (by simpa using h), Option.getD_some]

theorem reg_wrote_ne (s : State) {d : BitVec 5} (v : Word) {n : Nat} (h : n ≠ d.toNat) : (s.wrote d v).reg n = s.reg n := by
  unfold State.reg
  rw [core_wrote, show (s.wrote d v).cur = s.cur from rfl, Core.putScalar]
  by_cases hd : d = 31
  · rw [if_pos hd]
    cases s.cur.stream <;> rfl
  · rw [if_neg hd]
    cases s.cur.stream <;> exact toList_getD_set_ne _ _ _ h

theorem reg_wrote_same (s : State) {d : BitVec 5} (v : Word) (h : d.toNat < 28) : (s.wrote d v).reg d.toNat = v := by
  have ne : d ≠ 31 := by
    rintro rfl
    exact absurd h (by decide)
  unfold State.reg
  rw [core_wrote, show (s.wrote d v).cur = s.cur from rfl, Core.putScalar, if_neg ne]
  cases s.cur.stream <;> exact toList_getD_set_same _ _ _ h

end

/-- A scalar instruction of Safety.lean's lists, and LUI. -/
def scalarOf (d a b : BitVec 5) (i : Instr) : Prop :=
  (∃ op ∈ twoSourceOps, i = op.1 d a b) ∨ (∃ op ∈ oneSourceOps, i = op.1 d a) ∨ (∃ op ∈ immediateOps, ∃ n, i = op.1 d a n) ∨
    (∃ op ∈ shiftOps, ∃ n, i = op.1 d a n) ∨ (∃ n, i = .lui d n)

section
variable {s : State} {d a b : BitVec 5} {i : Instr}

/-- A lone unit that ends by writing a scalar destination that names no queue. -/
theorem lone_wrote {act : M Flow} (ready : s.ready i) (hd : plain d) (straight : s.straight .seq) (v : Word)
    (ha : ∀ t, s.does (dst d v) () t → s.does act .seq t) : lone i act s = .next (s.wrote d v) := by
  obtain ⟨t, ht, hs, hp⟩ := dst_plain hd v straight
  exact hp ▸ lone_next ready (ha t ht) (.inl rfl) hs

/-- A scalar instruction whose operands name no queue writes its destination and goes on. -/
theorem exec_scalar (hi : scalarOf d a b i) (hd : plain d) (ha : plain a) (hb : plain b) (ready : s.ready i)
    (straight : s.straight .seq) : ∃ v, exec i s = .next (s.wrote d v) := by
  have hx := src_plain (s := s) ha
  have hy := src_plain (s := s) hb
  rcases hi with ⟨op, mem, rfl⟩ | ⟨op, mem, rfl⟩ | ⟨op, mem, n, rfl⟩ | ⟨op, mem, n, rfl⟩ | ⟨n, rfl⟩
  · exact ⟨_, (exec_twoSourceOps d a b s op mem).trans (lone_wrote ready hd straight _ fun _ => binary_does op.2 hx hy)⟩
  · exact ⟨_, (exec_oneSourceOps d a s op mem).trans (lone_wrote ready hd straight _ fun _ => unary_does op.2 hx)⟩
  · exact ⟨_, (exec_immediateOps d a s n op mem).trans (lone_wrote ready hd straight _ fun _ => unary_does _ hx)⟩
  · exact ⟨_, (exec_shiftOps d a s n op mem).trans (lone_wrote ready hd straight _ fun _ => unary_does _ hx)⟩
  · exact ⟨luiValue n, lone_wrote ready hd straight _ fun _ => actLui_does⟩

end

/-! ### Comparisons -/

section
variable {s : State} {p q : BitVec 3}

/-- The state after a lone unit that writes a predicate and goes on. -/
def State.judged (s : State) (p : BitVec 3) (b : Bool) : State := s.put fun c =>
  (c.putPred s.cur.stream p b).setStr s.cur.stream ((c.str s.cur.stream).advance 4 .seq).1

theorem core_judged (s : State) (p : BitVec 3) (b : Bool) : (s.judged p b).core =
    (s.core.putPred s.cur.stream p b).setStr s.cur.stream ((s.core.str s.cur.stream).advance 4 .seq).1 := State.put_core s _

theorem writePred_past (p : BitVec 3) (b : Bool) (hs : s.straight .seq) :
    ∃ t, s.does (writePred p b) () t ∧ t.straight .seq ∧ t.past .seq = s.judged p b := by
  by_cases hp : p = 0
  · subst hp
    exact ⟨s, writePred_zero s b, hs, rfl⟩
  · refine ⟨_, writePred_does s b hp, straight_put (Core.putPred_str _ _ _ _ _) hs, ?_⟩
    rw [past_put, State.judged]
    simp only [Core.putPred_str]

theorem exec_cmp_judges {c : BitVec 3} {a b : BitVec 5} (ha : plain a) (hb : plain b) (ready : s.ready (.cmp p c a b))
    (straight : s.straight .seq) : exec (.cmp p c a b) s = .next (s.judged p (scalarCc c (s.operand a) (s.operand b))) := by
  obtain ⟨t, ht, hs, hp⟩ := writePred_past p (scalarCc c (s.operand a) (s.operand b)) straight
  exact hp ▸ lone_next ready (actCmp_does (src_plain ha) (src_plain hb) ht) (.inl rfl) hs

theorem frame_judged (s : State) (p : BitVec 3) (b : Bool) : (s.judged p b).core =
    { s.core with pa := (s.judged p b).core.pa, px := (s.judged p b).core.px, strA := (s.judged p b).core.strA,
                  strX := (s.judged p b).core.strX } := by
  rw [core_judged]
  unfold Core.putPred
  split
  · cases s.cur.stream <;> rfl
  · cases s.cur.stream <;> rfl

theorem setPredBit_ne (v : BitVec 8) (b : Bool) (h : q ≠ p) : (setPredBit v p.toNat b).getLsbD q.toNat = v.getLsbD q.toNat := by
  have apart : ¬ p.toNat = q.toNat := fun e => h (BitVec.eq_of_toNat_eq e.symm)
  have bit : (BitVec.ofNat 8 (2 ^ p.toNat)).getLsbD q.toNat = false := by
    rw [BitVec.getLsbD_ofNat, Nat.testBit_two_pow_of_ne apart, Bool.and_false]
  have inside : q.toNat < 8 := q.isLt
  cases b with
  | true => rw [setPredBit, if_pos rfl, BitVec.getLsbD_or, bit, Bool.or_false]
  | false => rw [setPredBit, if_neg Bool.false_ne_true, BitVec.getLsbD_and, BitVec.getLsbD_not, bit, decide_eq_true inside,
      Bool.not_false, Bool.and_true, Bool.and_true]

theorem preds_judged (b : Bool) (h : q ≠ p) : (s.judged p b).core.pa.getLsbD q.toNat = s.core.pa.getLsbD q.toNat ∧
    (s.judged p b).core.px.getLsbD q.toNat = s.core.px.getLsbD q.toNat := by
  rw [core_judged, Core.setStr_pa, Core.setStr_px]
  unfold Core.putPred
  by_cases hp : p = 0
  · rw [if_pos hp]
    exact ⟨rfl, rfl⟩
  · rw [if_neg hp]
    cases s.cur.stream with
    | A => exact ⟨setPredBit_ne _ b h, rfl⟩
    | X => exact ⟨rfl, setPredBit_ne _ b h⟩

end

/-! ### Vector instructions -/

/-- A vector instruction of Safety.lean's lists. -/
def vectorOf (d a b : BitVec 6) (t : BitVec 3) (i : Instr) : Prop :=
  (∃ op ∈ vectorTwoOps, i = op.1 d a b t) ∨ (∃ op ∈ vectorOneOps, i = op.1 d a t) ∨ (∃ op ∈ vectorThreeOps, i = op.1 d a b t) ∨
    (∃ op ∈ vectorCountOps, ∃ n, i = op.1 d a n t)

section
variable {s : State} {d a b : BitVec 6} {t : BitVec 3} {i : Instr}

theorem straight_putV (r : VReg × Flags) (h : s.straight .seq) : (s.putV d r).straight .seq :=
  straight_put (by cases s.cur.stream <;> rfl) h

/-- A vector instruction writes VD, raises flags and goes on. -/
theorem exec_vector (hi : vectorOf d a b t i) (ready : s.ready i) (straight : s.straight .seq) :
    ∃ r, exec i s = .next ((s.putV d r).past .seq) := by
  rcases hi with ⟨op, mem, rfl⟩ | ⟨op, mem, rfl⟩ | ⟨op, mem, rfl⟩ | ⟨op, mem, n, rfl⟩
  · exact ⟨_, vectorOperations.1 op mem d a b t s ready (straight_putV _ straight)⟩
  · exact ⟨_, (vectorOneSource d a t s).1 op mem ready (straight_putV _ straight)⟩
  · exact ⟨_, (vectorOperations.2.1 d a b t s).1 op mem ready (straight_putV _ straight)⟩
  · exact ⟨_, (vectorOneSource d a t s).2 op mem n ready (straight_putV _ straight)⟩

theorem core_putV_past (s : State) (d : BitVec 6) (r : VReg × Flags) : ((s.putV d r).past .seq).core =
    ((s.core.putV d r.1).flag r.2).setStr s.cur.stream ((s.core.str s.cur.stream).advance 4 .seq).1 := by
  rw [State.putV, past_put, State.put_core]
  cases s.cur.stream <;> rfl

/-- A vector result and a stream's position touch four fields of the core. -/
theorem Core.frame_putV_flag_setStr (c : Core) (d : BitVec 6) (x : VReg) (f : Flags) (st : Strm) (y : StreamState) :
    let k := ((c.putV d x).flag f).setStr st y
    k = { c with v := k.v, fflags := k.fflags, strA := k.strA, strX := k.strX } := by
  cases st <;> rfl

theorem frame_putV_past (s : State) (d : BitVec 6) (r : VReg × Flags) : ((s.putV d r).past .seq).core =
    { s.core with v := ((s.putV d r).past .seq).core.v, fflags := ((s.putV d r).past .seq).core.fflags,
                  strA := ((s.putV d r).past .seq).core.strA, strX := ((s.putV d r).past .seq).core.strX } := by
  rw [core_putV_past]
  exact Core.frame_putV_flag_setStr s.core d r.1 r.2 _ _

/-- Flags are sticky (R132). -/
theorem fflags_putV_past (r : VReg × Flags) :
    ((s.putV d r).past .seq).core.fflags ||| s.core.fflags = ((s.putV d r).past .seq).core.fflags := by
  rw [core_putV_past, Core.setStr_fflags]
  change (s.core.fflags ||| r.2) ||| s.core.fflags = s.core.fflags ||| r.2
  rw [BitVec.or_comm, ← BitVec.or_assoc, BitVec.or_self]

theorem vreg_putV_past_ne (r : VReg × Flags) {n : BitVec 6} (h : n ≠ d) : ((s.putV d r).past .seq).vreg n = s.vreg n := by
  rw [State.vreg, core_putV_past, Core.setStr_v]
  exact toList_getD_set_ne _ _ _ fun e => h (BitVec.eq_of_toNat_eq e)

end

/-- Settles O59: each instruction is one update of the core, of its destination and its stream's position. -/
theorem registerFrames : Obligations.RegisterFrames := by
  unfold Obligations.RegisterFrames
  intro s d a b vd va vb t
  refine ⟨?scalar, ?cmp, ?vector⟩
  case scalar =>
    intro i hi hd ha hb ready straight
    obtain ⟨v, run⟩ := exec_scalar hi hd ha hb ready straight
    exact ⟨_, run, elsewhere_put s _, frame_wrote s d v, str_other_wrote s d v, s_wrote d v, a_wrote d v,
      fun n hn => reg_wrote_ne s v hn⟩
  case cmp =>
    intro p c ha hb ready straight
    exact ⟨_, exec_cmp_judges ha hb ready straight, elsewhere_put s _, frame_judged s p _, fun q hq => preds_judged _ hq⟩
  case vector =>
    intro i hi ready straight
    obtain ⟨r, run⟩ := exec_vector hi ready straight
    refine ⟨_, run, ?_, frame_putV_past s vd r, fflags_putV_past r, fun n hn => vreg_putV_past_ne r hn⟩
    rw [State.putV, past_put]
    exact elsewhere_put s _

/-! ### Loads and stores of the scratchpad -/

section
variable {s : State} {r : BitVec 5}

theorem pushPort_register (st : Strm) {n : Nat} (h : n < 28) : pushPort st n = none := by
  unfold pushPort
  split
  case h_6 => rfl
  all_goals omega

theorem pushPort_plain (h : plain r) (st : Strm) : pushPort st r.toNat = none := by
  rcases h with h | rfl
  · exact pushPort_register st h
  · cases st <;> rfl

theorem roomFor_plain (h : plain r) : s.does (roomFor r) () s := by
  refine does_bind (does_theStream s) ?_
  rw [pushPort_plain h]
  exact does_pure s ()

/-- A load's destination that names no queue is written at once. -/
theorem loadDst_plain {v : Word} {t : State} (h : plain r) (hd : s.does (dst r v) () t) : s.does (loadDst r v) () t := by
  refine does_bind (does_theStream s) ?_
  rw [pushPort_plain h]
  exact hd

/-- The state after a store to the own scratchpad that goes on. -/
def State.scratched (s : State) (j n v : Nat) : State := s.put fun c =>
  (c.scratchWrite j n v).setStr s.cur.stream ((c.str s.cur.stream).advance 4 .seq).1

theorem Core.scratchWrite_str (c : Core) (j n v : Nat) (st : Strm) : (c.scratchWrite j n v).str st = c.str st := by
  cases st <;> rfl

theorem past_scratchWrite (s : State) (j n v : Nat) : (s.put fun c => c.scratchWrite j n v).past .seq = s.scratched j n v := by
  rw [past_put, State.scratched]
  simp only [Core.scratchWrite_str]

theorem core_scratched (s : State) (j n v : Nat) : (s.scratched j n v).core =
    (s.core.scratchWrite j n v).setStr s.cur.stream ((s.core.str s.cur.stream).advance 4 .seq).1 := State.put_core s _

theorem Core.frame_scratchWrite_setStr (c : Core) (j n v : Nat) (y : StreamState) :
    let k := (c.scratchWrite j n v).setStr .A y
    k = { c with scratch := k.scratch, scratchPois := k.scratchPois, touched := k.touched, strA := k.strA } := rfl

theorem frame_scratched (j n v : Nat) (h : s.cur.stream = .A) : (s.scratched j n v).core =
    { s.core with scratch := (s.scratched j n v).core.scratch, scratchPois := (s.scratched j n v).core.scratchPois,
                  touched := (s.scratched j n v).core.touched, strA := (s.scratched j n v).core.strA } := by
  rw [core_scratched, h]
  exact Core.frame_scratchWrite_setStr s.core j n v _

theorem scratch_scratched (s : State) (j n v : Nat) : (s.scratched j n v).core.scratch = s.core.scratch.write j n v := by
  rw [core_scratched]
  cases s.cur.stream <;> rfl

theorem frame_wrote_A (r : BitVec 5) (v : Word) (h : s.cur.stream = .A) : (s.wrote r v).core =
    { s.core with a := (s.wrote r v).core.a, strA := (s.wrote r v).core.strA } := by
  rw [core_wrote, h]
  unfold Core.putScalar
  split <;> rfl

end

section
variable {s : State} {r a : BitVec 5} {n j : Nat} {st : BitVec 5 → BitVec 5 → BitVec 10 → BitVec 4 → Instr} {i : BitVec 10} {g : BitVec 4}
  (mem : (n, st) ∈ [(1, Instr.stb), (2, .sth), (4, .stw), (8, .std)]) (hr : plain r) (ha : plain a) (straight : s.straight .seq)
  (ready : s.ready (st r a i g))
include mem hr ha straight ready

/-- A store from a register to the own scratchpad puts its bytes there and goes on. -/
theorem exec_store_scratch (hg : s.does (guardHolds g) true s) (hs : space (s.operand a + i.signExtend 64).toNat = .scratch j)
    (aligned : (s.operand a + i.signExtend 64).toNat % n = 0)
    (hl : s.core.locked (s.operand a + i.signExtend 64).toNat n = false) :
    exec (st r a i g) s = .next (s.scratched j n (s.operand r).toNat) := by
  have noLine : lineKey s.cur.core (space (s.operand a + i.signExtend 64).toNat) = none := by
    rw [hs]
    rfl
  have run := (storesComplete r a 0 g s s s _ s (s.operand r) (s.operand a) true).1 i n st mem ready (src_plain hr) (src_plain ha) hg
    (fun _ _ => noLine) (store_scratch hs aligned hl rfl) (straight_put (Core.scratchWrite_str _ _ _ _ _) straight)
  rw [run, past_scratchWrite]

/-- A store whose guard fails goes on at once. -/
theorem exec_store_unguarded (hg : s.does (guardHolds g) false s) : exec (st r a i g) s = .next (s.past .seq) :=
  (storesComplete r a 0 g s s s s s (s.operand r) (s.operand a) false).1 i n st mem ready (src_plain hr) (src_plain ha) hg
    (fun h => absurd h Bool.false_ne_true) rfl straight

end

/-! ### A load that waits at no line -/

/-- The core with its wait at a line ended. -/
def Core.unwait (c : Core) : Core := { c with lineWait := none }

theorem Core.unwait_of_none {c : Core} (h : c.lineWait = none) : c.unwait = c := by
  rw [unwait, ← h]

section
variable {s : State} {r a : BitVec 5} (hw : s.core.lineWait = none)
include hw

theorem core_put_unwait : (s.put Core.unwait).core = s.core := by
  rw [State.put_core, Core.unwait_of_none hw]

theorem wrote_put_unwait (v : Word) : (s.put Core.unwait).wrote r v = s.wrote r v := by
  rw [State.wrote, State.wrote, State.put_put, State.put_cur]
  refine State.put_congr ?_
  rw [Core.unwait_of_none hw]

/-- A load from the own scratchpad to a register writes it and goes on. -/
theorem exec_ld_scratch {j : Nat} {sz : BitVec 2} {z : BitVec 1} {i : BitVec 11} (hr : plain r)
    (ha : plain a) (straight : s.straight .seq) (ready : s.ready (.ld r a sz z i))
    (hs : space (s.operand a + i.signExtend 64).toNat = .scratch j)
    (aligned : (s.operand a + i.signExtend 64).toNat % 2 ^ sz.toNat = 0)
    (hl : s.core.locked (s.operand a + i.signExtend 64).toNat (2 ^ sz.toNat) = false)
    (clean : poisonedParts s.core.scratchPois j (2 ^ sz.toNat) = false) :
    exec (.ld r a sz z i) s = .next (s.wrote r (extend (2 ^ sz.toNat) (z == 1) (s.core.scratch.read j (2 ^ sz.toNat)))) := by
  have noLine : lineKey s.cur.core (space (s.operand a + i.signExtend 64).toNat) = none := by
    rw [hs]
    rfl
  have same := core_put_unwait hw
  have held := load_scratch (s := s.put Core.unwait) hs aligned (by rw [same]; exact hl) (by rw [same]; exact clean)
  rw [same] at held
  obtain ⟨t, ht, hst, hp⟩ := dst_plain (s := s.put Core.unwait) hr
    (extend (2 ^ sz.toNat) (z == 1) (s.core.scratch.read j (2 ^ sz.toNat)))
    (straight_put (by rw [Core.unwait_of_none hw]) straight)
  rw [← wrote_put_unwait hw, ← hp]
  exact lone_next ready (actLd_issues hw (src_plain ha) (roomFor_plain hr) noLine held (loadDst_plain hr ht)) (.inl rfl) hst

end

/-- Settles O60: a store is one update of the scratchpad, a load one of its destination. -/
theorem scratchUnits : Obligations.ScratchUnits := by
  unfold Obligations.ScratchUnits
  intro s r a n j st sz z mem hr ha onA straight
  have size : 2 ^ sz.toNat = n ∧ (n, st) ∈ [(1, Instr.stb), (2, .sth), (4, .stw), (8, .std)] := by
    simp only [List.mem_cons, Prod.mk.injEq, List.not_mem_nil, or_false] at mem ⊢
    obtain ⟨rfl, rfl, rfl⟩ | ⟨rfl, rfl, rfl⟩ | ⟨rfl, rfl, rfl⟩ | ⟨rfl, rfl, rfl⟩ := mem <;> simp
  obtain ⟨rfl, op⟩ := size
  refine ⟨?store, ?unguarded, ?load⟩
  case store =>
    intro i g ea ready hg hs aligned hl
    refine ⟨_, exec_store_scratch op hr ha straight ready hg hs aligned hl, elsewhere_put s _, frame_scratched _ _ _ onA, ?_, fun x hx => ?_⟩
    · rw [scratch_scratched, Memory.read_write]
    · rw [scratch_scratched, Memory.read_write_ne _ _ _ _ _ _ (hx.imp_left Nat.succ_le_of_lt)]
  case unguarded =>
    intro i g ready hg
    exact exec_store_unguarded op hr ha straight ready hg
  case load =>
    intro i ea ready hw hs aligned hl clean
    exact ⟨_, exec_ld_scratch hw hr ha straight ready hs aligned hl clean, elsewhere_put s _, frame_wrote_A r _ onA,
      fun ne => reg_wrote_same s _ (hr.resolve_right ne), fun x hx => reg_wrote_ne s _ hx⟩

end Sys2Proof.Machine
end
